-- ==== Sys2Proof/Word.lean ====
section
/-!
DEFINITION. The bit-vector types that the manual's registers, rows and wide values have, and nothing else.
-/

namespace Sys2Proof

/-- A byte of any memory. -/
abbrev Byte := BitVec 8

/-- A 16-bit field: a fault code, a return code, a short address (R14, R388). -/
abbrev Half := BitVec 16

/-- A register of the management window or a scalar register of a TCC (R9, R76). -/
abbrev Word := BitVec 32

/-- A 64-bit counter, seed, digest or XR element (R9, R46, R53). -/
abbrev Dword := BitVec 64

/-- The 640-bit two's-complement VALUE of an exact accumulator (R42). -/
abbrev Xa := BitVec 640

/-- A logical tile ID: die [7:6], row [5:3], column [2:0] (R13). -/
abbrev TileId := BitVec 8

/-- A polder ID, 0 to 15 (R13). -/
abbrev PolderId := BitVec 4

/-- A link port of the part, 0 to 15 (R17). -/
abbrev PortId := BitVec 4

/-- A mailbox channel, 0 to 31 (R419). -/
abbrev ChannelId := BitVec 5

/-- A seam, 0 to 7 (R18). -/
abbrev SeamId := BitVec 3

end Sys2Proof
end

