-- ==== Sys2Proof/Syntax.lean ====
section
/-!
DEFINITION. The commands of the block, one constructor for each row of the table of operations, with the operands that the row's event carries.
-/

namespace Sys2Proof

/-- A TCC guard: bits [25:23] name a predicate and bit [22] inverts it (R77). -/
structure Guard where
  pg : BitVec 3
  inv : Bool
  deriving DecidableEq, Repr

/-- What the error correction of a memory read finds (R89, R185, R186). -/
inductive Ecc where
  | clean
  | corrected
  | uncorrectable
  deriving DecidableEq, Repr

/-- What the error correction of a run of scratchpad rows finds: a row for each read that it corrects, or the row of the
uncorrectable one (R89, R185). -/
inductive RowEcc where
  | clean
  | corrected (rows : List (BitVec 13))
  | uncorrectable (row : BitVec 13)
  deriving DecidableEq, Repr

/-- How a PCIe completion for a host request comes back, if it does (R417). -/
inductive HostStatus where
  | success
  | unsupported
  | poisoned
  | ideFailure
  | timeout
  deriving DecidableEq, Repr

/-- Whether the reads of a host structure succeed, and the failing bus address (R413, R417). -/
inductive HostRead where
  | success
  | fails (addr : Dword)
  deriving DecidableEq, Repr

/-- Who makes an access: PF0 with the IDE stream it arrives on, a curator, the I3C bridge, or VF p + 1 by its BAR0 (R423, R501); PF0's
host by BAR2 (R404, R511), and the host by the configuration space of a function. -/
inductive Requester where
  | pf0 (ide : Option (BitVec 2))
  | curator (n : BitVec 2)
  | i3c
  | vf (p : PolderId)
  | bar2
  | config (fn : BitVec 5)
  deriving DecidableEq, Repr

/-- The shared engines that keep one slot per polder, by R361; the conservators have rows of their own. -/
inductive SharedEngine where
  | link (port : PortId)
  | hostDma (s1 : Bool)
  | reduction
  deriving DecidableEq, Repr

/-- What the header of a native flit says beside the fields of its message (R380): its number, the last number that its sender
has received in order, whether it asks for a replay, and the credits that it returns. -/
structure FlitHdr where
  fseq : BitVec 12
  ack : BitVec 12
  nak : Bool
  crVc : BitVec 2
  crCls : Bool
  crCount : BitVec 9
  deriving DecidableEq, Repr, Inhabited

/-- What an Ethernet frame says beside the fields of its message (R385): the MAC and IPv6 address that it is for, and whether
it passes the FCS, IPv6 and UDP checks. -/
structure FrameHdr where
  mac : BitVec 48
  addr : BitVec 128
  intact : Bool
  deriving DecidableEq, Repr, Inhabited

/-- A native or Ethernet message as it arrives: its channel (R380) and dateline class (R390), the header fields of R384 and
the payload bytes, with the headers of its flits in native mode or of its frame in Ethernet mode. -/
structure LinkMsg where
  vc : BitVec 2
  cls : Bool
  last : Bool
  sigEn : Bool
  dst : Half
  src : Half
  seq : Dword
  dstOff : Word
  sigTile : Byte
  sigCtr : Byte
  credit : Half
  psn : Word
  payload : List Byte
  flits : List FlitHdr
  frame : FrameHdr
  deriving DecidableEq, Repr, Inhabited

/-- An operand, and what the error correction finds in the rows that the command reads. -/
structure Meets (α ε : Type) where
  val : α
  ecc : ε
  deriving DecidableEq, Repr

/-- The last field of a message that no polder sends, the dateline class that it came in (R390), the number that its sender gave the
message (R301), and the header of its flit (R380). -/
structure InFlit (α : Type) where
  val : α
  cls : Bool
  seq : Dword
  flit : FlitHdr
  deriving DecidableEq, Repr

/-- A read of the register window: its address and its size in bytes (R9). -/
structure RegRead where
  addr : BitVec 28
  size : BitVec 4
  deriving DecidableEq, Repr

/-- A flit of a seam: the direction it crosses in and its place in the sender's retry buffer of 64 (R225). -/
structure SeamFlit where
  dir : Bool
  flit : BitVec 6
  deriving DecidableEq, Repr

/-- A rise of VAUX or of VIN that starts the part: whether the journal's tail slot is torn, and the level of the straps ID_SEL (R452, R486,
R514). -/
structure PowerRise where
  tornTail : Bool
  straps : BitVec 3
  deriving DecidableEq, Repr

/-- The head of an MCTP message over I3C: the static address that it names, its type and enterprise number, and its channel (R467, R514). -/
structure MctpHead where
  addr : BitVec 7
  type : Byte
  vendor : Word
  chan : BitVec 3
  deriving DecidableEq, Repr

/-- A request over DOE to the SPDM responder (R468). -/
inductive SpdmRequest where
  | certificate
  | keyExchange
  | ideKey (stream : BitVec 2) (secure : Bool) (bindPf0 : Bool)
  | other
  deriving DecidableEq, Repr

/-- A unit whose maintenance point has come (R472, R475). -/
inductive SpareUnit where
  | tile (t : TileId)
  | scratchpadRow (t : TileId) (row : BitVec 13)
  | collectionRow (die : BitVec 2) (bank : BitVec 6) (row : BitVec 12)
  | seamLane (seam : SeamId)
  | linkLane (port : PortId) (lane : BitVec 2)
  | regulator (die : BitVec 2)
  deriving DecidableEq, Repr

/-- A memory that counts seepage: HBM stack, depot device, or collection bank group (R187). -/
inductive SeepUnit where
  | hbm (n : Fin 12)
  | depot (n : BitVec 3)
  | collection (die : BitVec 2) (group : BitVec 3)
  deriving DecidableEq, Repr

/-- What goes wrong in a bring-up step, if anything (R459). -/
inductive BringUpEvent where
  | ok
  | dieLost (die : Fin 6)
  | hbmFails (n : Fin 12)
  | tsvLaneFails (n : Fin 12)
  | depotFails (n : BitVec 3)
  deriving DecidableEq, Repr

/-- What a run of part-wide maintenance finds: tiles, scratchpad rows and collection rows that fail their self-test, global HBM and depot
frames that fail the scrub, retired frames whose row repair passes its check, stacks of which a TSV lane fails its training, the 64-byte
units of free frames that the scrub found corrected (whether of a depot device, the device, the frame and the unit), and the step in
which it pauses for a CREATE, if it does not run to its end (R185, R474, R475). -/
structure MaintFindings where
  tiles : List TileId
  hbmFrames : List (Fin 12 × Half)
  depotFrames : List (BitVec 3 × Half)
  hbmRepaired : List (Fin 12 × Half)
  depotRepaired : List (BitVec 3 × Half)
  spadRows : List (TileId × BitVec 13) := []
  colRows : List (BitVec 2 × BitVec 6 × BitVec 12) := []
  tsvLanes : List (Fin 12) := []
  corrected : List (Bool × BitVec 4 × Half × BitVec 15) := []
  pause : Option (BitVec 2) := none
  deriving DecidableEq, Repr

/-- The commands. Where a constructor's operand is only a unit, the command is the next event of that unit, whose data stands in the state. -/
inductive Instr where
  -- TCC instructions (R77, R78): the tile, the guard and the fields of the word that its program counter addresses
  | alu (t : TileId) (g : Guard) (rd ra rb : BitVec 5) (func : BitVec 7)
  | addi (t : TileId) (g : Guard) (rd ra : BitVec 5) (imm : BitVec 12)
  | andi (t : TileId) (g : Guard) (rd ra : BitVec 5) (imm : BitVec 12)
  | ori (t : TileId) (g : Guard) (rd ra : BitVec 5) (imm : BitVec 12)
  | xori (t : TileId) (g : Guard) (rd ra : BitVec 5) (imm : BitVec 12)
  | shi (t : TileId) (g : Guard) (rd ra : BitVec 5) (imm : BitVec 12)
  | movi (t : TileId) (g : Guard) (rd : BitVec 5) (imm : BitVec 17)
  | lui (t : TileId) (g : Guard) (rd : BitVec 5) (imm : BitVec 17)
  | ldw (t : TileId) (g : Guard) (rd ra : BitVec 5) (imm : BitVec 12)
  | stw (t : TileId) (g : Guard) (rd ra : BitVec 5) (imm : BitVec 12)
  | cmp (t : TileId) (g : Guard) (pd : BitVec 3) (ra rb : BitVec 5) (cond : BitVec 3)
  | plog (t : TileId) (g : Guard) (pd pa pb : BitVec 3) (func : BitVec 2)
  | br (t : TileId) (g : Guard) (off : BitVec 22)
  | call (t : TileId) (g : Guard) (off : BitVec 22)
  | jr (t : TileId) (g : Guard) (ra : BitVec 5)
  | cmd (t : TileId) (g : Guard) (q : BitVec 3) (ra : BitVec 5)
  | waitev (t : TileId) (g : Guard) (ra : BitVec 5) (imm : BitVec 12)
  | sigev (t : TileId) (g : Guard) (ra : BitVec 5) (imm : BitVec 12)
  | fence (t : TileId) (g : Guard) (imm : BitVec 12)
  | spxr (t : TileId) (g : Guard) (ra : BitVec 5) (imm : BitVec 12) (granted : Bool) (ecc : RowEcc)
  | spxw (t : TileId) (g : Guard) (ra : BitVec 5) (imm : BitVec 12) (granted : Bool)
  | rdcsr (t : TileId) (g : Guard) (rd : BitVec 5) (imm : BitVec 12)
  | halt (t : TileId) (g : Guard)
  -- tile events
  | stallEnd (t : TileId)
  | tccDone (t : TileId)
  | waitGrant (t : TileId)
  | commandCompletion (t : TileId) (q : BitVec 3)
  | signal (t : TileId)
  | mark (t : TileId)
  | signalArrival (t : TileId)
  -- matrix array
  | maLoad (t : TileId) (ecc : RowEcc)
  | swap (t : Meets TileId RowEcc)
  | pass (t : TileId) (ecc : RowEcc)
  | setmode (t : TileId)
  | setout (t : TileId)
  | arrayGate (t : TileId)
  -- block-sparse engine
  | bspass (t : TileId) (ecc : RowEcc)
  | bssetmode (t : TileId)
  | bssetout (t : TileId)
  -- vector unit
  | vprog (t : TileId) (ecc : RowEcc)
  | vstrm (t : TileId)
  | vsetout (t : TileId)
  | vrun (t : TileId) (ecc : RowEcc)
  | vcomb (t : TileId) (ecc : RowEcc)
  | vflush (t : TileId)
  -- DMA and gather engines
  | dmaLoad (t : TileId) (e : Bool)
  | dmaStore (t : TileId) (e : Bool)
  | gstream (t : TileId)
  | grun (t : TileId) (ecc : RowEcc)
  | requestIssue (t : TileId) (q : BitVec 3) (stream : BitVec 2) (ecc : RowEcc)
  | tableWalk (req : Nat) (ecc : Ecc)
  | memoryAccess (req : Nat) (ecc : Ecc)
  | mergeWindowClose (die : BitVec 2) (bank : BitVec 6) (row : BitVec 12)
  | responseArrival (req : Nat)
  | accumulateWrite (req : Nat) (ecc : Ecc)
  | seepageWindowClose (u : SeepUnit)
  | translationEditComplete (p : PolderId)
  -- seams and the part
  | seamCrcError (seam : SeamId) (dir : SeamFlit)
  | seamLaneLoss (seam : SeamId) (dir : Bool) (lane : BitVec 11)
  | seamTraining (seam : SeamId) (ok : Bool)
  | memoryControllerFailure (depot : Bool) (n : Fin 12)
  | heartbeatTimeout (lostS1 : Bool)
  -- polders
  | create (c : ChannelId)
  | catalogueVerification (p : PolderId) (rd : HostRead)
  | retire (c : ChannelId)
  | teardown (c : ChannelId)
  | clientClear (c : ChannelId)
  | faultCause (i : Nat)
  | clearing (p : PolderId)
  | jobCompletion (p : PolderId)
  | watchdogExpiry (e : SharedEngine) (p : PolderId)
  | sharedDescriptorStart (e : SharedEngine) (p : PolderId) (ecc : List Ecc)
  | hostCompletion (req : Nat) (st : HostStatus)
  | completionTimeout (req : Nat)
  | submissionEntry (p : Meets PolderId HostStatus)
  | slotStart (p : Meets PolderId (List Ecc))
  | checkpointDeadline (t : TileId)
  | ledgerEntry (i : Nat)
  | nonFiniteEvent (i : Nat)
  -- reduction
  | openMsg (via : Option PortId) (m : LinkMsg) (group : BitVec 4) (epoch : Word)
  | dataMsg (via : Option PortId) (m : LinkMsg) (ecc : Ecc)
  | doneMsg (via : Option PortId) (m : LinkMsg) (group : BitVec 4) (epoch count : Word)
  | sealSlice (p : PolderId) (group : BitVec 4) (tensor : Meets Word (List Ecc))
  | token (via : Option PortId) (m : LinkMsg)
  | final (via : Option PortId) (m : LinkMsg)
  -- training step
  | stepVerdict (p : PolderId)
  | conservatorDescriptorStart (n : Fin 12) (p : Meets PolderId (List (Ecc × Ecc)))
  | conservatorDescriptorDone (n : Fin 12) (ecc : List (Ecc × Ecc))
  | stepCommit (p : PolderId)
  -- serving
  | intake (p : PolderId) (rd : HostRead)
  | stepBoundary (p : Meets PolderId (List Ecc))
  | pageMoveComplete (p : Meets PolderId (List Ecc))
  | tableRowCopy (p : PolderId) (slot : Meets (BitVec 12) (List Ecc))
  -- jobs
  | jobStart (c : ChannelId) (rd : Meets HostRead (List Ecc))
  | rowWave (p : PolderId) (die : BitVec 2)
  | hostReg (c : ChannelId) (rd : HostRead)
  | hostRel (c : ChannelId)
  -- secure requests
  | catPolicy (c : ChannelId)
  | keyAdd (c : ChannelId)
  | keyRemove (c : ChannelId)
  | restart (c : ChannelId)
  | shutdown (c : ChannelId)
  | svnCommit (c : ChannelId)
  | attest (c : ChannelId)
  | reportRead (c : ChannelId)
  | certRead (c : ChannelId)
  | refurb (c : ChannelId) (rd : HostRead)
  -- mailboxes
  | mbxDb (r : Requester) (c : ChannelId) (value : Word)
  | mailboxBufferWrite (r : Requester) (c : ChannelId) (off : Byte) (value : Word)
  | release (r : Requester) (c : ChannelId) (value : Word)
  | mailboxAck (c : ChannelId)
  | i3cRequest (head : MctpHead) (seq : Half) (body : List Byte)
  | spdmRequest (r : SpdmRequest)
  -- VF pages and PCIe
  | vfSqTail (p : PolderId) (value : Word)
  | vfCqHead (p : PolderId) (value : Word)
  | vfQueueConfigWrite (p : PolderId) (off : BitVec 12) (value : Word)
  | pciFrHead (value : Word)
  | vfEnable (on : Bool) (numVfs : BitVec 5)
  | vfFlr (p : PolderId)
  | pf0Flr
  | pcieLinkDown
  | perstN (level : Bool)
  -- start-up
  | stgBegin
  | stgChunk (len : BitVec 15) (data : List Byte)
  | stgCommit
  | imageVerification
  | bringUp (e : BringUpEvent)
  | crossCheck (intact : Bool)
  | coldStart (start : PowerRise)
  | vinGood
  | vinLoss
  | vauxLoss
  | vinUndervoltage
  | undervoltageEnd
  | sysclkLoss
  -- throttle, power and thermal
  | throttleNEdge (level : Bool)
  | throttleAccept
  | throttleRelease
  | throttleStable
  | throttleHeldReport
  | powerWindow (die : BitVec 2) (mw : Word)
  | thermalEvaluation (die : BitVec 2) (hot shoreHot stackHot : Int)
  | thermtrip (die : Fin 6) (hot : Int)
  | regulatorFault (die : BitVec 2) (lost : Bool)
  | acStepUp (die : BitVec 2)
  -- links
  | prtCtl (n : PortId) (value : Word)
  | portTraining (n : PortId) (lanes : BitVec 4)
  | ident (n : PortId) (peer : BitVec 12) (peerPort : InFlit (BitVec 4))
  | identTimeout (n : PortId)
  | portRetry (n : PortId)
  | linkSignalLoss (n : PortId) (lane : BitVec 2)
  | linkFlitCrcError (n : PortId)
  | linkNak (n : PortId) (ack : BitVec 12)
  | linkAckTimeout (n : PortId)
  | resendTimeout (n : PortId) (peer : BitVec 12)
  | pfcPause (n : PortId) (pcp : BitVec 3)
  | write (n : PortId) (m : LinkMsg)
  | credit (n : PortId) (m : LinkMsg) (grant : Bool)
  | ack (n : PortId) (m : LinkMsg)
  | alarm (n : PortId) (ring : BitVec 6) (origin : BitVec 12) (number : InFlit Half)
  | sendDescriptor (n : PortId) (p : Meets PolderId Ecc)
  -- service life
  | spareSubstitution (u : SpareUnit) (ok : Bool)
  | partWideMaintenance (f : MaintFindings)
  | usageInterval
  -- boundary scan
  | bypass (tdi : Bool)
  | idcode
  | samplePreload (bits : List Bool)
  | extest (tdi : Bool)
  -- register accesses with rows of their own
  | tilCtlStart (t : TileId)
  | tilCtlStep (t : Meets TileId RowEcc)
  | freeze (page : BitVec 28) (on : Bool)
  | blkCtlReset (page : BitVec 28)
  | blkIrqStsClear (page : BitVec 28) (bits : Word)
  | blkIrqForce (page : BitVec 28) (bits : Word)
  | pldWdLimit (p : PolderId) (value : Word)
  | pwrCap (value : Word)
  | readClear (r : Requester) (addr : RegRead)
  | lowWordRead (r : Requester) (addr : RegRead)
  | registerWrite (r : Requester) (addr : BitVec 28) (size : BitVec 4) (value : Dword)
  | heartbeat (fromS1 : Bool)
  | nullFlit (n : PortId) (ack : BitVec 12) (vc : BitVec 2) (cls : Bool) (count : BitVec 9)
  | pfcPauseEnd (n : PortId) (pcp : BitVec 3)
  | lanePllLock (n : PortId)
  | lrefclkLoss (s1 : Bool)
  deriving DecidableEq, Repr

end Sys2Proof
end

