-- ==== Sys2Proof/Config.lean ====
section
/-!
DEFINITION. What stepping A1 fixes, and the free values: functions without a body, so that nothing can be proved of a value that the manual leaves open.
-/

namespace Sys2Proof

/-- The arithmetic revision at A1 (R508). -/
def Config.arithRev : Nat := 0x0A01

/-- The stepping (R508). -/
def Config.stepping : Nat := 0xA1

/-- Which of the results that their bounds admit an evaluator of the drain or the vector unit gives for a finite input: a fixed
function of the arithmetic revision that the manual publishes only as a bound (R118, R158), which Evaluators.lean holds. The first
argument is the function's code. UNVERIFIED: log entry 5. -/
opaque Config.evaluator : Nat → Word → Word

/-- How many cycles a running domain counts while the block idles once: the domains are unrelated (R4, R526). Log entry 3. -/
opaque Config.elapse : Nat → Nat → Dword

/-- A free value of the manual, drawn by the state's counter. Log entry 6. -/
opaque Config.freeWord : Nat → Word

/-- The fuses of this part: identity seed, serial number, key digests and the factory's minimum SVN; and the bytes of the fuse block by the
minimum SVN that it holds, since the manual does not lay them out (R453, R458, R462, R464). Log entry 8. -/
opaque Config.fuseSeed : List Byte
opaque Config.fuseSerial : Dword
opaque Config.fuseSvn : Half
opaque Config.fuseFirmwareKey : List Byte
opaque Config.fuseRefurbKey : List Byte
opaque Config.fuseBlock : Nat → List Byte
opaque Config.romDigest : List Byte

/-- The bytes of a field of a provenance entry's body, by kind, place and value, where the manual gives the field and not its width
(R485); and the factory's calibration points of a die. Log entry 8. -/
opaque Config.entryField : Nat → Nat → Nat → List Byte
opaque Config.factoryCal : Nat → List (Nat × Nat × Nat)

/-- The payload bytes of an OPEN, DONE, CREDIT, ACK, IDENT or ALARM message by type and field values, where the manual
gives the fields and not their layout (R292, R379, R397). Log entry 8. -/
opaque Config.bodyBytes : Nat → List Nat → List Byte

/-- The payload of such a message, of at most 4 096 bytes (R384). -/
def Config.messageBody (type : Nat) (vals : List Nat) : List Byte := (Config.bodyBytes type vals).take 4096

/-- The bytes of a flit after the end of its message, and of a flit without one, by flit number (4 096 for a NULL flit) and
byte: the manual gives none (R380). Log entry 8. -/
opaque Config.flitPad : Nat → Nat → Byte

/-- The time that a pause frame of a port asks for, in the quanta of 802.1Qbb: the manual gives none (R386). Log entry 160. -/
opaque Config.pauseTime : Nat → Half

/-- The bytes of the three certificates of the chain in DER, in pieces: of the part's own those before its serial number, between it and
the public key, and after that (R464). Log entry 8. -/
opaque Config.certPiece : Nat → Nat → List Byte

/-- The number of Eloamunan as an enterprise, which the manual does not give (R467). Log entry 8. -/
opaque Config.enterprise : Word

/-- The land of a cell of the boundary-scan chain, as its place among those that R516 names: the manual gives no order. Log entry 6. -/
opaque Config.scanOrder : Nat → Fin 17

/-- The row repairs and TSV repair lanes that a stack or device is made with: the manual gives no count (R475, R482). Log entry 9. -/
opaque Config.rowRepairs : Nat → Nat
opaque Config.tsvLanes : Nat → Nat

end Sys2Proof
end

