-- ==== Sys2Proof/Machine/State.lean ====
section
/-!
DEFINITION. The state of the part as plain data, the reasons a step can stop, and the state right after reset.
Every indexed family of units is a Table, sorted by key, that lists only the units that differ from their reset value.
-/

namespace Sys2Proof.Machine

/-- No command of this block ends in a machine fault: the part answers every access and takes every event (R8, R9, R355).
The type has no constructor, which is safe: nothing can be claimed of a fault. -/
inductive Fault where
  deriving DecidableEq, Repr

/-- Refusals. -/
inductive Refusal where
  /-- Raised by an arm of exec that has no meaning yet. Safe: the run stops. -/
  | notModelled (mnemonic : String)
  deriving DecidableEq, Repr

/-- A sparse table by number: keys rise strictly, and no entry holds the value that an unlisted key reads as. -/
abbrev Table (α : Type) := List (Nat × α)

/-- A memory: address and byte pairs in the same canonical form, with 0 as the byte of an unlisted address. -/
abbrev Mem := List Host.Cell

/-! ### The tile -/

/-- TCC states (R94). -/
inductive TccState where
  | empty | ready | running | waiting | halted | done | frozen
  deriving DecidableEq, Repr, Inhabited

/-- What a stalled TCC waits for (R82). -/
inductive Stall where
  | queueFull (q : Nat)
  | waitev (c : Nat)
  | fence (mask : Nat)
  | port
  deriving DecidableEq, Repr

/-- The tile control core (R76, R80, R83, R94). -/
structure Tcc where
  state : TccState
  /-- the state that a debug freeze left -/
  held : TccState
  /-- frozen by a fault, until teardown -/
  faulted : Bool
  /-- the row received START during a freeze -/
  startPending : Bool
  pc : BitVec 16
  sregs : Table Word
  pregs : Table Bool
  stall : Option Stall
  /-- ac counter when the stall began -/
  stallAc : Dword
  /-- high word latched by CSR 0x004 -/
  csrHigh : Word
  /-- branch table, entries differing from weakly-not-taken (1) -/
  bht : Table (BitVec 2)
  history : BitVec 9
  ras : List (BitVec 16)
  /-- instructions in the program -/
  instrs : Nat
  deriving DecidableEq, Repr, Inhabited

/-- A queued command: four words, and for a DMA engine the four words of its shape record (R67, R192). -/
structure Command where
  w0 : Word
  w1 : Word
  w2 : Word
  w3 : Word
  shape : List Word
  deriving DecidableEq, Repr, Inhabited

/-- A started command. The DMA fields count its progress in items and bytes (R195, R197). -/
structure Active where
  cmd : Command
  /-- number of the command on its engine since polder creation -/
  seq : Nat
  begun : Bool
  finished : Bool
  item : Nat
  off : Nat
  flight : Nat
  /-- bytes received or staged, by item × 2^20 + offset -/
  got : Table (List Byte)
  /-- items, or ring rows of a skew transform, written -/
  written : Nat
  /-- the skew stream that it belongs to, the first ring row that it has still to write, and the later ones written -/
  stream : Nat
  rowLo : Nat
  done : List Nat
  deriving DecidableEq, Repr, Inhabited

/-- An engine of a tile: its queue, its started commands in start order, and whether a fault froze it (R64, R197, R360). -/
structure Engine where
  queue : List Command
  active : List Active
  frozen : Bool
  started : Nat
  deriving DecidableEq, Repr, Inhabited

/-- An exact accumulator or an accumulator-file entry (R42, R100). -/
structure Acc where
  val : Xa
  nan : Bool
  pinf : Bool
  ninf : Bool
  deriving DecidableEq, Repr, Inhabited

/-- A stationary register set: the image rows it was loaded from, whose bytes are the elements, scales and metadata of
its PEs (R97, R105, R133). Mode 0 is the empty set. -/
structure StatSet where
  mode : Nat
  fmt : Nat
  transposed : Bool
  rows : Nat
  cols : Nat
  image : List (List Byte)
  deriving DecidableEq, Repr, Inhabited

/-- The fields of the last SETMODE or BSSETMODE (R102, R140). -/
structure PassMode where
  aFmt : Nat
  outFmt : Nat
  rnd : Nat
  colblk : Bool
  dual : Bool
  crest : Int
  cFmt : Nat
  bRow : Nat
  cRow : Nat
  drainFn : Nat
  cMode : Nat
  deriving DecidableEq, Repr, Inhabited

/-- The fields of the last SETOUT, BSSETOUT or VSETOUT (R102). -/
structure OutSel where
  tensor : Word
  base : Word
  stride : Nat
  deriving DecidableEq, Repr, Inhabited

/-- A feed stream: its mode, ring and next slot (R112). -/
structure Feed where
  mode : Nat
  row : Nat
  ring : Nat
  next : Nat
  deriving DecidableEq, Repr, Inhabited

/-- The matrix array (R97, R100, R102, R112, R439). -/
structure MatrixArray where
  active : StatSet
  shadow : StatSet
  shadowFull : Bool
  acc : Table Acc
  cfg : PassMode
  out : OutSel
  feed : Option Feed
  gated : Bool
  lastAc : Dword
  deriving DecidableEq, Repr, Inhabited

/-- The block-sparse engine (R138, R140). -/
structure SparseEngine where
  cfg : PassMode
  out : OutSel
  acc : Table Acc
  deriving DecidableEq, Repr, Inhabited

/-- One configured stream of the vector unit (R153). -/
structure VStream where
  row : Nat
  fmt : Nat
  gstride : Nat
  vstride : Nat
  deriving DecidableEq, Repr, Inhabited

/-- The vector unit (R153, R156, R159). -/
structure VectorUnit where
  prog : List Word
  consts : List Word
  a : Option VStream
  b : Option VStream
  y : Option VStream
  p : Option VStream
  s : Option VStream
  out : OutSel
  cacc : Table Acc
  deriving DecidableEq, Repr, Inhabited

/-- A translation held by an engine: window, index and table entry (R172, R175). -/
structure TlbEntry where
  win : Nat
  idx : Nat
  entry : Dword
  deriving DecidableEq, Repr, Inhabited

/-- The skew stream that a DMA engine holds: its number, ring, mode and next slot (R199, R200). -/
structure Skew where
  stream : Nat
  spRow : Nat
  ring : Nat
  mode : Nat
  next : Nat
  deriving DecidableEq, Repr, Inhabited

/-- A DMA engine's own state beside its queue (R175, R199). -/
structure DmaEngine where
  tlb : List TlbEntry
  skew : Option Skew
  /-- the vectors of skew streams, by stream × 2^24 + slot -/
  vecs : Table (List Byte)
  deriving DecidableEq, Repr, Inhabited

/-- A GSTREAM configuration (R210). -/
structure GConfig where
  indexed : Bool
  merge : Bool
  runahead : Bool
  unit : Nat
  dst : Nat
  ring : Nat
  base : Nat
  estride : Nat
  deriving DecidableEq, Repr, Inhabited

/-- A run-ahead element: its address, its requests, and the bytes read by offset (R213). -/
structure RaElem where
  va : Nat
  reqs : List Nat
  got : Table (List Byte)
  /-- discarded by a write, with its place kept (R214) -/
  dropped : Bool
  deriving DecidableEq, Repr, Inhabited

/-- The running GRUN of a stream (R211). -/
structure GRun where
  seq : Nat
  count : Nat
  idxRow : Nat
  start : Nat
  /-- the index list as read (R211) -/
  idx : List Word
  /-- bytes of the element that issues next which are already requested, and the parts of elements that have arrived,
  by element × 2^20 + offset -/
  off : Nat
  got : Table (List Byte)
  issued : Nat
  written : Nat
  startPos : Nat
  /-- the GRUN stopped run-ahead for the rest of its life (R213) -/
  raStopped : Bool
  deriving DecidableEq, Repr, Inhabited

/-- One address stream of the gather engine (R210, R213). -/
structure GStream where
  cfg : Option GConfig
  pos : Nat
  lastX : Option Nat
  run : Option GRun
  /-- the last run, complete, whose run-ahead goes on -/
  past : Option GRun
  ra : List RaElem
  tlb : List TlbEntry
  deriving DecidableEq, Repr, Inhabited

/-- An open watch entry (R208): the engine, the descriptor, its source ranges, where it is registered, its counter, and
whether the descriptor has signalled. -/
structure Watch where
  q : Nat
  seq : Nat
  ranges : List (Nat × Nat)
  targets : List Nat
  ctr : Nat
  signalled : Bool
  deriving DecidableEq, Repr, Inhabited

/-- A checkpoint of a tile's schedule (R249). -/
structure Checkpoint where
  ctr : Nat
  anchor : Nat
  occur : Nat
  bound : Nat
  deriving DecidableEq, Repr, Inhabited

/-- A tile's schedule monitor (R249, R251, R252). -/
structure Monitor where
  mask : BitVec 256
  cps : List Checkpoint
  next : Nat
  /-- nc stamps of the anchors of this slot: 0 is the slot start, k the k-th granted explicit wait -/
  anchors : Table Dword
  grants : Nat
  counts : Table Nat
  overrun : Bool
  near : Bool
  suspended : Bool
  /-- deadlines of checkpoints already counted late and not yet met -/
  late : List (Nat × Dword)
  deriving DecidableEq, Repr, Inhabited

/-- An XR ledger entry (R288). -/
structure LedgerRec where
  tensor : Word
  under : Dword
  nonfin : Dword
  ovt : Bool
  deriving DecidableEq, Repr, Inhabited

/-- A tile (R64, R71, R73, R76). -/
structure Tile where
  tcc : Tcc
  engines : Table Engine
  ctrs : Table Word
  ma : MatrixArray
  bse : SparseEngine
  vu : VectorUnit
  dma0 : DmaEngine
  dma1 : DmaEngine
  ge : Table GStream
  watches : List Watch
  mon : Monitor
  ledger : List LedgerRec
  syncIn : List Nat
  syncBusy : Bool
  /-- since which ac a request of the engine of a queue waits for a request slot -/
  slotWait : Table (Option Dword)
  /-- the stream whose turn for a request slot comes first (R212) -/
  geNext : Nat := 0
  /-- START has not yet reached the row (R438) -/
  gatedRow : Bool
  deriving DecidableEq, Repr, Inhabited

/-! ### Requests and messages on the package -/

/-- The memories that a translated request reaches. -/
inductive Space where
  | hbm | depot | col | host
  deriving DecidableEq, Repr, Inhabited

/-- A translated address: device and offset in it (R172, R180). -/
structure Target where
  space : Space
  dev : Nat
  off : Nat
  deriving DecidableEq, Repr, Inhabited

/-- Where a request stands: a landed one has its PCIe completion and waits for its slot's turn (R363). -/
inductive ReqStage where
  | walking | routed | merging | hostWait | landed | served
  /-- an uncorrectable error withheld its data (R186) -/
  | lost
  deriving DecidableEq, Repr, Inhabited

/-- A memory request in flight of a tile engine (R90, R176): what it asks, the target that it was translated to, and the
walk's answer that an edit has made stale (R178). Its message stands on a die, in the receive buffer of the seam that it came
over if any, with the seams that it has still to cross (R21, R224); and it waits there in order of arrival, by the nc counter
at a collection bank and by the part's count of arrivals (R181, R226). -/
structure Req where
  id : Nat
  tile : Nat
  q : Nat
  stream : Nat
  polder : Nat
  seq : Nat
  key : Nat
  va : Nat
  len : Nat
  isWrite : Bool
  merge : Bool
  runAhead : Bool
  watched : Bool
  data : List Byte
  tgt : Option Target
  stage : ReqStage
  stale : Option Dword
  staleLine : Bool
  die : Nat
  via : Option Nat
  path : List Nat
  arrivedNc : Nat
  arrived : Nat
  deriving DecidableEq, Repr, Inhabited

/-- A SIGNAL in the sync network, and the die that it comes from (R69). -/
structure Sig where
  src : Nat
  die : Nat
  dst : Nat
  ctr : Nat
  deriving DecidableEq, Repr, Inhabited

/-- A fault on its way to curator 0 (R358, R360). -/
structure Cause where
  polder : Nat
  code : Nat
  kind : Nat
  unit : Nat
  addr : Nat
  deriving DecidableEq, Repr, Inhabited

/-- A non-finite event on its way to curator 0, with the step and the micro-batch of its slot (R274). -/
structure NfEvent where
  polder : Nat
  tile : Nat
  q : Nat
  code : Nat
  tensor : Word
  step : Word
  mbIndex : Word
  /-- elements of this kind in the pass -/
  count : Nat
  /-- the count of steps that the job had opened as it happened -/
  opened : Nat := 0
  deriving DecidableEq, Repr, Inhabited

/-- A ledger entry on its way to curator 0 (R288). -/
structure LedgerMsg where
  polder : Nat
  tile : Nat
  entry : LedgerRec
  deriving DecidableEq, Repr, Inhabited

/-- A walk-cache entry (R174). -/
structure WalkEntry where
  polder : Nat
  win : Nat
  idx : Nat
  entry : Dword
  deriving DecidableEq, Repr, Inhabited

/-- An open merge entry of a collection bank (R182); a spoilt one met an uncorrectable error and delivers nothing (R186). -/
structure Merge where
  die : Nat
  bank : Nat
  row : Nat
  polder : Nat
  opened : Dword
  joinable : Bool
  joined : List Nat
  data : List Byte
  spoilt : Bool
  deriving DecidableEq, Repr, Inhabited

/-- A host request of S0's host DMA whose polder has been cleared: an abandoned tag (R359). -/
structure HostTag where
  req : Nat
  polder : Nat
  deriving DecidableEq, Repr, Inhabited

/-- Seam states (R231). -/
inductive SeamState where
  | down | training | active | outOfService | failed
  deriving DecidableEq, Repr, Inhabited

/-- The row frame of a pseudo-channel, channel, bank or seam direction (R226): the first slot that it has not used, the
polder that it served last, and for each polder the first slot that may serve it again. -/
structure RowFrame where
  slot : Nat
  last : Nat
  hold : Table Nat
  deriving DecidableEq, Repr, Inhabited

/-- A seam: state, spare lanes used in each receiving direction, the flit of each direction that failed last with its
consecutive replays, the lost lanes that await a spare, and since which nc of its sender a channel waits for a credit, by
direction × 4 + channel (R19, R224, R225, R230, R231). -/
structure Seam where
  state : SeamState
  used0 : Nat
  used1 : Nat
  run0 : Nat
  run1 : Nat
  flit0 : Nat
  flit1 : Nat
  stalls : Table (Option Dword)
  lost0 : List Nat
  lost1 : List Nat
  cause : Nat
  deriving DecidableEq, Repr, Inhabited

/-! ### Catalogues, polders and jobs -/

/-- A tensor entry (R237). -/
structure Tensor where
  id : Word
  fmt : Nat
  rnd : Nat
  kind : Nat
  flags : Nat
  maxNnz : Nat
  shelf : Nat
  crestInit : Int
  headroom : Nat
  va : Nat
  bytes : Nat
  deriving DecidableEq, Repr, Inhabited

/-- An update entry (R308). -/
structure Update where
  master : Word
  grad : Word
  mom : Word
  stats : Word
  copy : Word
  copyT : Word
  rows : Nat
  cols : Nat
  clip : Bool
  lr : Word
  lrd : Word
  beta1 : Word
  beta2 : Word
  eps1 : Word
  clipD : Word
  deriving DecidableEq, Repr, Inhabited

/-- The serving plan (R323). -/
structure ServePlan where
  layers : Nat
  hgCount : Nat
  maxSeqs : Nat
  maxPages : Nat
  maxBatch : Nat
  tableDie : Nat
  blockBytes : Nat
  poolPages : Nat
  depPages : Nat
  loanPages : Nat
  kvPool : Word
  kvSpill : Word
  tableOff : Nat
  loanVa : Nat
  deriving DecidableEq, Repr, Inhabited

/-- What the curator keeps of a loaded catalogue (R233, R237, R241, R264, R275, R308, R323). -/
structure Catalogue where
  kind : Nat
  loadClass : Nat
  rows : Nat
  mbMax : Nat
  slotCc : Nat
  acMhz : Nat
  slotCtr : Nat
  fatal : Bool
  seams : Nat
  ports : Nat
  tensors : List Tensor
  roundSeed : Dword
  thinSeed : Dword
  action : Nat
  nfReport : Nat
  window : Nat
  warmup : Nat
  kFactor : Nat
  lossTensor : Word
  stateVa : Nat
  mbPerStep : Nat
  updates : List Update
  serve : ServePlan
  deriving DecidableEq, Repr, Inhabited

/-- The phases of a training step (R259). -/
inductive Phase where
  | idle | slots | reducing | evaluating | updating
  deriving DecidableEq, Repr, Inhabited

/-- The verdict of a step with its causes (R263, R280). -/
structure Verdict where
  skip : Bool
  nonfin : Bool
  ovt : Bool
  crest : Bool
  hold : Bool
  loss : Option Word
  code : Nat
  deriving DecidableEq, Repr, Inhabited

/-- The training step of a polder and its loss-spike window (R259, R279). -/
structure Training where
  phase : Phase
  ran : List Nat
  losses : List Word
  pos : Nat
  count : Nat
  verdict : Option Verdict
  /-- cc of the event that SPK_NF_FIRST shows, and the index of its record in the completion ring -/
  nfCc : Dword
  nfIndex : Option Word
  /-- steps that the job has opened, the repeated ones among them (R259) -/
  opened : Nat := 0
  deriving DecidableEq, Repr, Inhabited

/-- A slice token (R295). -/
structure Token where
  slice : Nat
  tensor : Word
  flags : Nat
  maxExp : Int
  finals : Nat
  under : Dword
  nonfin : Dword
  ovtElems : Dword
  deriving DecidableEq, Repr, Inhabited

/-- A reduction group of a job (R290, R293): size, own index, member addresses, the homes and epochs of the OPEN messages
that have arrived, the homes to which DATA and DONE have gone, and per member the DATA received and the count its DONE
gave plus one. -/
structure Group where
  size : Nat
  self : Nat
  members : List Dword
  opened : List (Nat × Word)
  sent : List Nat
  got : Table Nat
  done : Table Nat
  sealed : List Word
  deriving DecidableEq, Repr, Inhabited

/-- A thinning entry of the map (R290, R298). -/
structure Thin where
  factor : Word
  probe : Word
  residual : Word
  r : Nat
  deriving DecidableEq, Repr, Inhabited

/-- The reduction state of a job (R288 to R297); FINAL messages are counted by tensor ID. -/
structure Reduction where
  loaded : Bool
  groups : List Group
  assigns : List (Word × Nat)
  dflt : Nat
  thins : List Thin
  ledger : List LedgerRec
  tokens : List Token
  finals : Table Nat
  complete : List Word
  crests : List (Word × Int)
  deriving DecidableEq, Repr, Inhabited

/-- The states of a sequence (R334). -/
inductive SeqState where
  | waiting | running | preempted
  deriving DecidableEq, Repr, Inhabited

/-- A page of a sequence: shelf 0 HBM, 1 depot, 2 loan, and number (R327). -/
structure Page where
  shelf : Nat
  num : Nat
  deriving DecidableEq, Repr, Inhabited

/-- A sequence (R332, R334, R335). -/
structure Sequence where
  id : Dword
  state : SeqState
  prompt : Nat
  promptLen : Nat
  maxNew : Nat
  prio : Nat
  seed : Dword
  arrival : Nat
  admission : Nat
  slot : Option Nat
  pages : List Page
  len : Nat
  new : Nat
  last : Word
  cancelled : Bool
  /-- sampled END in the step that ran -/
  sampledEnd : Bool
  deriving DecidableEq, Repr, Inhabited

/-- A batch entry (R329). -/
structure BatchEntry where
  seqId : Dword
  slot : Nat
  prefill : Bool
  sample : Bool
  pos : Nat
  count : Nat
  seed : Dword
  new : Nat
  deriving DecidableEq, Repr, Inhabited

/-- A page move under way (R336), in order of arrival at host DMA. -/
structure Move where
  src : Page
  dst : Page
  arrived : Nat
  deriving DecidableEq, Repr, Inhabited

/-- The serving state of a polder (R330 to R338): steps started, live version, sequences and their counts, the batches
of the live and of the next step, whether the next step's intake is accepted, the page moves under way, the boundary's
pre-emptions and evictions, the records that wait for ring space, the slots whose pending rows were edited, the rows to
copy since the flip, the cancels that wait for a copy, and the cc from which a wait counts. -/
structure Serving where
  started : Nat
  live : Nat
  seqs : List Sequence
  arrivals : Nat
  admissions : Nat
  batch : List BatchEntry
  next : List BatchEntry
  planned : Bool
  tokens : Nat
  intakeOk : Bool
  moves : List Move
  preempts : Nat
  evicts : Nat
  records : List (Nat × List Byte)
  edited : List Nat
  toCopy : List Nat
  deferred : List Nat
  waitCc : Dword
  /-- A boundary whose records are being posted, and whether it ends the job (R354, R411). -/
  boundary : Option Bool := none
  deriving DecidableEq, Repr, Inhabited

/-- A link-map entry of a job and its send ring position (R391, R392). -/
structure LinkEntry where
  port : Nat
  die : Nat
  log2 : Nat
  off : Nat
  recvVa : Nat
  recvBytes : Nat
  pos : Nat
  deriving DecidableEq, Repr, Inhabited

/-- A message handed to a link engine (R384, R389): the port it leaves by, type and contents, the lc counter since it waits
for a credit or a pause, and for one in transit the port, and channel with class, whose receive buffer holds it (R382). -/
structure OutMsg where
  port : Nat
  type : Nat
  msg : LinkMsg
  since : Dword
  came : Option (Nat × Nat)
  deriving DecidableEq, Repr, Inhabited

/-- A taken send descriptor (R392), and whether its messages have been formed. -/
structure SendDesc where
  vc : Nat
  doneEn : Bool
  doneTile : Nat
  doneCtr : Nat
  sigEn : Bool
  dst : Nat
  sigTile : Nat
  sigCtr : Nat
  srcVa : Nat
  dstOff : Nat
  len : Nat
  begun : Bool
  deriving DecidableEq, Repr, Inhabited

/-- A polder's slot in a shared engine (R361, R363): descriptors in order of arrival, messages that wait for a credit,
whether a descriptor runs, waits on a remote part or is parked, the host request whose descriptor it is, whether it has asked for credit, and the stamps of a wait:
from which the watchdog times, its entry, and from which PLD_RED_WAIT_CC has not counted it (R304, R366, R369). -/
structure Slot where
  sends : List SendDesc
  out : List OutMsg
  running : Bool
  remote : Bool
  parked : Bool
  cur : Option Nat
  asked : Bool
  /-- a violation has frozen the slot, or another fault of its descriptor has stopped it until the teardown -/
  frozen : Bool
  stopped : Bool
  since : Dword
  entered : Dword
  counted : Dword
  /-- near-boundary bit of the wait's last arrival (R432) -/
  near : Bool
  /-- the place of the descriptor's last message among those handed over -/
  sentNo : Nat
  deriving DecidableEq, Repr, Inhabited

/-- Polder states (R351). -/
inductive PolderState where
  | free | creating | loaded | running | complete | clearing | draining
  deriving DecidableEq, Repr, Inhabited

/-- A polder ID's state (R347, R351, R356, R358). -/
structure Polder where
  state : PolderState
  client : Word
  rowMap : Word
  started : Bool
  retirePending : Bool
  /-- the CREATE under way: its channel, catalogue address and size, and ROW_MAP -/
  reqChannel : Option Nat
  catAddr : Nat
  catSize : Nat
  reqMap : Word
  cat : Catalogue
  train : Training
  red : Reduction
  serve : Serving
  links : List LinkEntry
  peers : List Nat
  cause : Option Cause
  causeState : Nat
  causeCc : Dword
  clearCc : Dword
  slotNo : Nat
  slotStarted : Bool
  slotCc : Dword
  mbIndex : Word
  mbLen : Word
  /-- the taken micro-batch (index, step, length, tag) and its stamp, and the stamp of the last tile's last checkpoint -/
  mbWaiting : Option (Word × Word × Word × Half)
  mbCc : Dword
  metCc : Dword
  wavesDue : List Nat
  waveAc : Table Dword
  frozen : Bool
  editChannel : Option Nat
  editRange : Option (Nat × Nat)
  intakes : List (Half × Dword)
  voidAtLoad : Bool
  /-- a serving job has ended at its boundary, or an FLR resets the VF page after clearing -/
  ended : Bool
  flr : Bool
  /-- a job has started and is neither completed nor torn down (R367), and a slot of the polder has parked (R369) -/
  jobOpen : Bool
  parkedYet : Bool
  deriving DecidableEq, Repr, Inhabited

/-- A client entry (R367). -/
structure Client where
  tag : Word
  reserved : Word
  admitted : Dword
  completed : Dword
  torn : Dword
  deriving DecidableEq, Repr, Inhabited

/-- A conservator (R315, R316, R321): the slot that it runs, whether it holds before its first write, the descriptors
completed by slot, the column sums a[] of the entry that it works on, the entries whose sums are saved in CARRY, and the
polders whose slots a fault has stopped, or a violation has frozen (R322, R360). -/
structure Conservator where
  running : Option Nat
  holding : Bool
  next : Table Nat
  acc : List Word
  accOf : Option (Nat × Nat)
  carried : List (Nat × Nat)
  stopped : List Nat
  frozen : List Nat
  deriving DecidableEq, Repr, Inhabited

/-! ### Host interface -/

/-- Mailbox channel states (R421). -/
inductive ChanState where
  | idle | filling | busy | done
  deriving DecidableEq, Repr, Inhabited

/-- A reply that the serving curator has formed and not yet written (R421). -/
structure Reply where
  code : Nat
  body : List Byte
  deriving DecidableEq, Repr, Inhabited

/-- A mailbox channel (R420, R421): state, owner's bridge bit, buffer, request copied out at the doorbell, and the reply under way. -/
structure Channel where
  state : ChanState
  i3c : Bool
  owner : Nat
  buf : Table Byte
  len : Nat
  seq : Half
  request : List Byte
  reply : Option Reply
  respLen : Nat
  taken : Bool
  report : List Byte
  deriving DecidableEq, Repr, Inhabited

/-- An MSI-X message: function 0 is PF0 and v is VF v; and vector (R429). -/
structure Msix where
  fn : Nat
  vec : Nat
  deriving DecidableEq, Repr, Inhabited

/-- What the SPDM responder answers over DOE: the certificate chain of slot 0, its half of a key exchange, the acknowledgement of an IDE_KM
message, or an error (R468). -/
inductive Doe where
  | chain (texts : List (List Byte))
  | exchange (bytes : List Byte)
  | keysSet (stream : Nat)
  | error
  deriving DecidableEq, Repr, Inhabited

/-- What the I3C bridge answers its MCTP requester: the return code, the SEQ and the response body (R423, R467). -/
structure Mctp where
  chan : Nat
  code : Nat
  seq : Half
  body : List Byte
  deriving DecidableEq, Repr, Inhabited

/-- A write that AER logs for a function: as Completer Abort or as Unsupported Request, the address in its header, and whether
ERR_NONFATAL went out (R422, R424). -/
structure AerError where
  fn : Nat
  abort : Bool
  addr : Nat
  sent : Bool
  deriving DecidableEq, Repr, Inhabited

/-- A transaction that the part sends to the host, with its requester ID as a function (R404, R416). -/
structure Tlp where
  fn : Nat
  write : Bool
  relaxed : Bool
  addr : Nat
  len : Nat
  deriving DecidableEq, Repr, Inhabited

/-- What the link has trained to, and PF0's settings: Max Payload Size, Max Read Request Size, the Completion Timeout value of Device
Control 2, and whether ECRC is on (R403, R416, R428). -/
structure Pcie where
  rate : Nat
  width : Nat
  flit : Bool
  maxPayload : Nat
  maxRead : Nat
  timeout : Nat
  ecrc : Bool
  deriving DecidableEq, Repr, Inhabited

/-- The endpoint and the catalogue policy (R405, R422, R423, R427). -/
structure HostIf where
  vfEnable : Bool
  numVfs : Nat
  linkUp : Bool
  pcie : Pcie
  /-- the functions whose Bus Master Enable is 1 -/
  masters : List Nat
  /-- MSI-X table words by function × 32 + word, and the messages that wait for their vector's mask -/
  table : Table Word
  pba : List Msix
  /-- transactions that have gone to the host -/
  tlps : List Tlp
  secure : List Nat
  bound : Option Nat
  msix : List Msix
  /-- AER: what has been logged, and the Uncorrectable Error Status and Mask by function -/
  aer : List AerError
  aerStatus : Table Word
  aerMask : Table Word
  requireSig : Bool
  lock : Bool
  keys : Table (List Byte)
  tags : List HostTag
  /-- doorbells whose requests are not yet begun, by hc stamp and channel (R425) -/
  doorbells : List (Nat × Nat)
  /-- responses that the I3C bridge has sent, oldest first -/
  mctp : List Mctp
  /-- a secured session of the SPDM responder is open, and its responses over DOE, oldest first (R468) -/
  session : Bool
  doe : List Doe
  deriving DecidableEq, Repr, Inhabited

/-- The endpoint after a reset: PCIe's values of Max Payload Size 128 and Max Read Request Size 512 (log entry 171). -/
def HostIf.reset : HostIf := { (default : HostIf) with pcie := { (default : Pcie) with maxPayload := 128, maxRead := 512 } }

/-- What the last access of the window or of a BAR returned: a PCIe read that is refused completes as Unsupported Request
with data (R8). -/
inductive Answer where
  | none
  | value (v : Word)
  | value64 (v : Dword)
  | written
  | error
  | unsupported (data : Word)
  deriving DecidableEq, Repr, Inhabited

/-! ### Links -/

/-- Port modes and states (R376, R378). -/
inductive PortState where
  | off | training | up | down | laneFault | miswired
  deriving DecidableEq, Repr, Inhabited

/-- A flit of a message (R380), as the retry buffer holds it (R383). -/
structure Flit where
  fseq : BitVec 12
  vc : Nat
  cls : Bool
  som : Bool
  eom : Bool
  payload : List Byte
  deriving DecidableEq, Repr, Inhabited

/-- An Ethernet peer context (R387): local port and destination part, the next PSN to send, the unacknowledged messages,
the next PSN expected, and the lc counter of the last progress. -/
structure PeerCtx where
  port : Nat
  peer : Nat
  nextPsn : Word
  unacked : List OutMsg
  expect : Word
  lc : Dword
  deriving DecidableEq, Repr, Inhabited

/-- What has left by a port: the bytes of a flit or of a frame (R380, R385). -/
structure Sent where
  port : Nat
  bytes : List Byte
  deriving DecidableEq, Repr, Inhabited

/-- A link port (R376 to R398): rxSeq is the number that the receiver expects next. -/
structure Port where
  mode : Nat
  state : PortState
  lanes : Nat
  waitIdent : Bool
  identCc : Dword
  downCc : Dword
  everUp : Bool
  retry : List Flit
  nextSeq : BitVec 12
  acked : BitVec 12
  rxSeq : BitVec 12
  /-- numbers received after rxSeq, whose messages have come before that of rxSeq -/
  rxAhead : List (BitVec 12)
  /-- a replay request and an acknowledgement that the next flit takes -/
  nakDue : Bool
  ackDue : Bool
  discarding : Bool
  /-- credits to return, by channel × 2 + class -/
  owed : Table Nat
  /-- flits that go before the next one of sync or control, and whether reduction goes before bulk next (R381) -/
  gap : Nat
  redNext : Bool
  fails : Nat
  ackLc : Dword
  /-- flits sent and not yet credited, by channel × 2 + class -/
  spent : Table Nat
  waitTx : List OutMsg
  /-- flits that the first waiting message of a channel × 2 + class has sent -/
  started : Table Nat
  paused : List Nat
  locked : Bool
  deriving DecidableEq, Repr, Inhabited

/-! ### Power, start-up, service life and test -/

/-- A calibration point: load W, guard band mV, offset in 0.125 °C (R441). -/
structure CalPoint where
  load : Nat
  mv : Nat
  off : Nat
  deriving DecidableEq, Repr, Inhabited

/-- The power and clock state of a die (R434 to R446). -/
structure DiePower where
  step : Nat
  target : Nat
  power : Nat
  thermal : Nat
  upDue : Bool
  upNc : Dword
  below : Nat
  /-- power windows and thermal evaluations ended, and the milliwatts summed over the windows -/
  windows : Nat
  thermals : Nat
  energy : Nat
  /-- the edge of power windows at which a request last changed, and the step that the die ran at before it (R451) -/
  edge : Nat
  ran : Nat
  /-- near-boundary bits of the last power window and of the last thermal evaluation (R432) -/
  powerNear : Bool
  thermalNear : Bool
  hot : Int
  hottest : Option Int
  regFault : Bool
  cal : List CalPoint
  cycleLow : Bool
  cycles : Nat
  bands : Table Nat
  deriving DecidableEq, Repr, Inhabited

/-- The instruction in force in the TAP (R516). -/
inductive TapInstr where
  | idcode | bypass | sample | extest
  deriving DecidableEq, Repr, Inhabited

/-- The supplies, THROTTLE_N and the other pins (R443, R444, R514, R520): perst and throttleLow are the pins' levels, and
vinLost says that VIN has been lost since the last cold start, so that its next rise is one. The TAP holds its instruction,
the bypass bit, the cells of the chain from TDI on, what EXTEST drives on the pins, and the bits last shifted out. idSel is the value of
ID_SEL sampled as VAUX rose. -/
structure Board where
  vaux : Bool
  vin : Bool
  vinLost : Bool
  undervoltage : Bool
  /-- cc of the last dip of VIN below 5.5 V (R521) -/
  dipCc : Dword
  /-- SYSCLK has stopped since VAUX rose, with the dies that had power then, and PCIE_REFCLK has stopped (R517, R525) -/
  sysclkLost : Bool
  stoppedOn : Nat
  pcieClkLost : Bool
  perst : Bool
  thermtrip : Bool
  throttleLow : Bool
  edges : List Dword
  throttled : Bool
  unstable : Bool
  acceptCc : Dword
  /-- cc from acceptance to the last held report -/
  reported : Nat
  /-- near-boundary bit of THROTTLE_N's last edge (R432) -/
  throttleNear : Bool
  idSel : Nat
  tapIr : TapInstr
  tapBypass : Bool
  tapChain : List Bool
  tapDriven : List Bool
  tdo : List Bool
  lrefLost0 : Bool
  lrefLost1 : Bool
  deriving DecidableEq, Repr, Inhabited

/-- STATE of the part (R26). -/
inductive PartState where
  | awaiting | bringUp | operational | failed
  deriving DecidableEq, Repr, Inhabited

/-- The start of the part (R26, R452 to R470). BOOT follows R469, stage counts the steps of R459. -/
structure Boot where
  part : PartState
  cause : Nat
  /-- rank by R28 of the failure that CAUSE names, and curator 0's counter when it was detected -/
  failRank : Nat
  failCc : Dword
  dieUp : Nat
  boot : Nat
  stage : Nat
  /-- step 2 of bring-up has trained every seam since the dies were powered (R459) -/
  trained : Bool
  /-- the step of part-wide maintenance that runs or is paused, 0 outside it (R474) -/
  maint : Nat
  /-- VIN was lost in bring-up since the last cold start (R471) -/
  broken : Bool
  /-- how many memories bring-up has powered, the last of them in training during step 4, and the one that failed it (R440, R505) -/
  memories : Nat
  untrained : Option Nat
  /-- the entry points from which curator 0, and S1's curators 2 and 3, run the image (R455, R459) -/
  start0 : Option Word
  start2 : Option Word
  warm : Bool
  stg : Nat
  reason : Nat
  lastReason : Nat
  offset : Nat
  /-- the bytes of STG_DATA by offset in the aperture (R454, R511) -/
  stgData : Table Byte
  bank : Nat
  active : Nat
  otherVerified : Bool
  image0 : List Byte
  image1 : List Byte
  copied : List Byte
  xDone : Bool
  xMatch : Bool
  xDigest : List Byte
  mr0 : List Byte
  mr1 : List Byte
  mr2 : List Byte
  mr3 : List Byte
  mr4 : List Byte
  svnMin : Nat
  svnRun : Nat
  restarts : Nat
  starts : Nat
  mboxOn : Bool
  s0On : Bool
  beat0 : Dword
  beat1 : Dword
  s0Lost : Bool
  deriving DecidableEq, Repr, Inhabited

/-- A committed provenance entry (R484, R485). -/
structure Entry where
  kind : Nat
  /-- the values that the body spells -/
  vals : List Nat
  cc : Dword
  boot : Nat
  torn : Nat
  deriving DecidableEq, Repr, Inhabited

/-- The provenance journal and the counts that its entries carry (R483 to R488). -/
structure Journal where
  entries : List Entry
  used : Nat
  tornSlots : Nat
  tornDue : Nat
  tornTail : Bool
  usageCc : Dword
  /-- cycles of a domain since the cold start from before its counter started again (R450, R485) -/
  cycles : Table Nat
  scrubbed : Bool
  seepDone : List Nat
  retrainDone : List Nat
  retrains : Table Nat
  jobs : Table Dword
  created : Dword
  deriving DecidableEq, Repr, Inhabited

/-- The spares (R475 to R482). Keys: a row pair is die × 4 + pair, a link lane map is port × 4 + lane. -/
structure Spares where
  tileOf : Table Nat
  tilePending : List Nat
  rowDisabled : List Nat
  subs : Table Nat
  spadUsed : Table Nat
  spadPending : List (Nat × Nat)
  colUsed : Table Nat
  colPending : List (Nat × Nat)
  crossBank : Table Nat
  laneMap : Table Nat
  /-- spare link lanes taken by each S-die, those that have failed since among them (R378) -/
  laneUsed : Table Nat
  lanePending : List Nat
  repairs : Table Nat
  restored : Table Nat
  /-- TSV repair lanes taken by each stack (R475) -/
  tsvUsed : Table Nat
  deriving DecidableEq, Repr, Inhabited

/-! ### The whole part -/

/-- The memories, their ownership and the requests in flight (R169 to R191). -/
structure Store where
  hbm : Mem
  depot : Mem
  col : Mem
  spad : Mem
  dstore : Mem
  istore : Mem
  host : Mem
  tabD0 : Table Dword
  tabD4 : Table Dword
  /-- owner + 1 of each frame: HBM frame n × 40 960 + f, depot 491 520 + n × 40 960 + f -/
  frames : Table Nat
  retired : List Nat
  accFrames : List Nat
  reqs : List Req
  nextReq : Nat
  /-- messages that have arrived at a place where they wait, and the row frames by resource (R226) -/
  arrivals : Nat
  rowFrames : Table RowFrame
  merges : List Merge
  walkers : Table (List WalkEntry)
  readBytes : Table Nat
  deriving DecidableEq, Repr, Inhabited

/-- The messages under way on the package's control and sync networks. -/
structure Nets where
  signals : List Sig
  causes : List Cause
  events : List NfEvent
  ledgers : List LedgerMsg
  deriving DecidableEq, Repr, Inhabited

/-- The links of the part (R372 to R402). -/
structure Links where
  ports : Table Port
  /-- messages that have left, the flits and frames on the wire, and messages delivered to polders of the part itself -/
  sent : List OutMsg
  wire : List Sent
  localIn : List OutMsg
  /-- peer contexts, most recently used first -/
  ctxs : List PeerCtx
  /-- requests for message slots that wait: engine, polder, requester (R394) -/
  asks : List (Nat × Nat × Nat)
  /-- sequence numbers by port × 16 + polder (R301) -/
  seqs : Table Dword
  alarms : List (Nat × Nat)
  alarmNo : Nat
  /-- slots by engine × 16 + polder, message slots granted to a sending polder by destination × 16 + polder, and message
  slots in use or granted by port × 16 + polder -/
  slots : Table Slot
  credits : Table Nat
  held : Table Nat
  /-- last messages of descriptors handed over so far -/
  sendNo : Nat
  deriving DecidableEq, Repr, Inhabited

/-- The part. -/
structure State where
  /-- the commands that wait, first in, first out -/
  pending : List Instr
  /-- what the last access returned -/
  answer : Answer
  /-- the model's own counter of free values drawn -/
  drawn : Nat
  /-- the cycle counters by domain ID (R4, R431) -/
  time : Table Dword
  /-- the registers of the management window that only hold a word, by window address (R5, R7) -/
  regs : Table Word
  /-- the VF control registers, by polder × 4 096 + offset (R407) -/
  vfRegs : Table Word
  /-- high-word latches by requester and page, and held low words by requester and register (R502) -/
  latches : Table Word
  heldLow : Table (Option Word)
  tiles : Table Tile
  store : Store
  nets : Nets
  seams : Table Seam
  polders : Table Polder
  clients : Table Client
  conservators : Table Conservator
  channels : Table Channel
  hif : HostIf
  links : Links
  power : Table DiePower
  board : Board
  boot : Boot
  journal : Journal
  spares : Spares
  deriving DecidableEq, Repr, Inhabited

/-- An entry that the factory wrote (R441, R485). -/
def factoryEntry (kind : Nat) (vals : List Nat) : Entry :=
  { kind := kind, vals := vals, cc := 0, boot := 0, torn := 0 }

/-- The values of a calibration entry: die, source, point count, and the points' load, guard band and offset (R485). -/
def calVals (die source : Nat) (points : List (Nat × Nat × Nat)) : List Nat :=
  [die, source, points.length] ++ points.flatMap (fun x => [x.1, x.2.1, x.2.2])

/-- The record as the factory leaves it: the manufacture entry and a calibration entry of each die. -/
def factoryJournal : Journal :=
  { (default : Journal) with
    entries := factoryEntry 1 [Config.fuseSerial.toNat, Config.stepping, Config.fuseSvn.toNat] ::
      (List.range 6).map (fun d => factoryEntry 2 (calVals d 0 (Config.factoryCal d)))
    used := 7 }

/-- The part right after reset: VAUX has not yet started the ROM, every counter, register, memory and queue is at its
reset value, and no command waits. The fields at zero for want of a reset value in the manual: log entry 2. -/
def State.reset : State where
  pending := []
  answer := .none
  drawn := 0
  time := []
  regs := []
  vfRegs := []
  latches := []
  heldLow := []
  tiles := []
  store := default
  nets := default
  seams := []
  polders := []
  clients := []
  conservators := []
  channels := []
  hif := HostIf.reset
  links := default
  power := []
  board := default
  boot := { (default : Boot) with svnMin := Config.fuseSvn.toNat }
  journal := factoryJournal
  spares := default

end Sys2Proof.Machine
end

