-- ==== Sys2Proof/Machine/Ops.lean ====
section
/-!
DEFINITION. The named operations on the state: tables and memories, registers of the management window, clocks,
interrupts and error logs, raising a fault, and the records that the part posts to the host.
-/

namespace Sys2Proof.Machine

/-! ### Numbers, fields and bytes (R3) -/

/-- Bits [lo + len - 1 : lo] of a number. -/
def field (n lo len : Nat) : Nat := n / 2 ^ lo % 2 ^ len

/-- Bit i of a number. -/
def bitAt (n i : Nat) : Bool := n / 2 ^ i % 2 == 1

/-- The two's-complement value of a field of the given width. -/
def toSigned (width n : Nat) : Int := if n < 2 ^ (width - 1) then n else (n : Int) - 2 ^ width

/-- A number as a given count of bytes, least significant first (R3). -/
def leBytes : Nat → Nat → List Byte
  | 0, _ => []
  | k + 1, n => BitVec.ofNat 8 n :: leBytes k (n / 256)

/-- The number that bytes spell, least significant first (R3). -/
def leNat : List Byte → Nat
  | [] => 0
  | b :: bs => b.toNat + 256 * leNat bs

/-- The number in a run of bytes of an image. -/
def peek (img : List Byte) (off len : Nat) : Nat := leNat ((img.drop off).take len)

/-- A list brought to a length by cutting it or by adding a filler. -/
def padTo (d : α) (n : Nat) (l : List α) : List α := l.take n ++ List.replicate (n - l.length) d

def wordOf (n : Nat) : Word := BitVec.ofNat 32 n

def dwordOf (n : Nat) : Dword := BitVec.ofNat 64 n

/-! ### Sorting -/

/-- Puts a value before the first one that it may precede. -/
def insertBy (le : α → α → Bool) (a : α) : List α → List α
  | [] => [a]
  | b :: l => if le a b then a :: b :: l else b :: insertBy le a l

/-- A list in order; values that precede each other keep their order. -/
def inOrder (le : α → α → Bool) (l : List α) : List α := l.foldr (insertBy le) []

/-! ### Tables and memories -/

/-- The entry at a key, or the table's default. -/
def Table.get (d : α) : Table α → Nat → α
  | [], _ => d
  | (k, v) :: t, a => if k = a then v else if a < k then d else Table.get d t a

/-- Places an entry at its position among rising keys. -/
def Table.insert (a : Nat) (x : α) : Table α → Table α
  | [] => [(a, x)]
  | (k, v) :: t => if k = a then (a, x) :: t else if a < k then (a, x) :: (k, v) :: t else (k, v) :: Table.insert a x t

/-- Removes the entry at a key. -/
def Table.erase (a : Nat) : Table α → Table α
  | [] => []
  | (k, v) :: t => if k = a then t else if a < k then (k, v) :: t else (k, v) :: Table.erase a t

/-- Sets the value at a key. Writing the default removes the entry, so that equal tables are equal data. -/
def Table.put [DecidableEq α] (d : α) (t : Table α) (a : Nat) (x : α) : Table α :=
  if x = d then Table.erase a t else Table.insert a x t

/-- The canonical form: keys rise strictly from the bound on, and no entry holds the default. -/
def Table.wfFrom [DecidableEq α] (d : α) : Nat → Table α → Bool
  | _, [] => true
  | b, (k, v) :: t => decide (b ≤ k) && decide (v ≠ d) && Table.wfFrom d (k + 1) t

def Table.wf [DecidableEq α] (d : α) (t : Table α) : Bool := Table.wfFrom d 0 t

/-- The byte at an address: 0 where nothing is listed (R173, R241; log entry 4). -/
def Mem.read (m : Mem) (a : Nat) : Byte := Table.get 0 m a

/-- Stores one byte. -/
def Mem.write (m : Mem) (a : Nat) (b : Byte) : Mem := Table.put (α := BitVec 8) 0 m a b

/-- The canonical form of a memory. -/
def Mem.wf (m : Mem) : Bool := Table.wf (α := BitVec 8) 0 m

/-- A run of bytes, lowest address first. -/
def Mem.readN (m : Mem) (a : Nat) : Nat → List Byte
  | 0 => []
  | n + 1 => Mem.read m a :: Mem.readN m (a + 1) n

/-- Stores a run of bytes, lowest address first. -/
def Mem.writeN (m : Mem) (a : Nat) : List Byte → Mem
  | [] => m
  | b :: bs => Mem.writeN (Mem.write m a b) (a + 1) bs

/-- Zeroes the addresses from lo up to but not including hi. -/
def Mem.zero (m : Mem) (lo hi : Nat) : Mem := m.filter (fun c => !(decide (lo ≤ c.1) && decide (c.1 < hi)))

/-- Zeroes what lies in the range and the predicate's addresses. -/
def Mem.zeroWhere (m : Mem) (p : Nat → Bool) : Mem := m.filter (fun c => !p c.1)

/-! ### Units and pages (R5, R6, R13, R17) -/

def dieOfTile (t : Nat) : Nat := t / 64
def rowOfTile (t : Nat) : Nat := t / 8 % 8
def colOfTile (t : Nat) : Nat := t % 8

/-- The window address of a page (R5, R500). -/
def page (die cls inst : Nat) : Nat := die * 2 ^ 24 + cls * 2 ^ 16 + inst * 2 ^ 12

def dieOfPage (pg : Nat) : Nat := pg / 2 ^ 24
def classOfPage (pg : Nat) : Nat := pg / 2 ^ 16 % 256
def instOfPage (pg : Nat) : Nat := pg / 2 ^ 12 % 16

/-- The tile page of a tile's row, and a TIL, BSE, VU register of the tile (R92, R510). -/
def tilePage (t : Nat) : Nat := page (dieOfTile t) 0x01 (rowOfTile t)
def tilReg (t off : Nat) : Nat := tilePage t + 0x100 + 0x100 * colOfTile t + off

/-- An ARR register of the tile (R124, R510). -/
def arrReg (t off : Nat) : Nat := tilePage t + 0x900 + 0x80 * colOfTile t + off

/-- The tile DMA and gather page and a register of it (R217). -/
def dmaPage (t : Nat) : Nat := page (dieOfTile t) 0x06 (rowOfTile t)
def dmaReg (t off : Nat) : Nat := dmaPage t + 0x100 + 0x100 * colOfTile t + off

/-- A register of the polder control page, and of the spike monitor and accounting page (R256, R280, R369). -/
def pldReg (p off : Nat) : Nat := page 4 0x17 p + off
def spkReg (p off : Nat) : Nat := page 4 0x09 p + off

/-- The pages of an HBM stack's controller, conservator and adders, of a depot device and of a port (R17). -/
def hmcPage (n : Nat) : Nat := page (n / 3) 0x03 (n % 3)
def cnsPage (n : Nat) : Nat := page (n / 3) 0x04 (n % 3)
def redPage (n : Nat) : Nat := page (n / 3) 0x05 (n % 3)
def depPage (n : Nat) : Nat := page (4 + n / 4) 0x12 (n % 4)
def prtPage (n : Nat) : Nat := page (4 + n / 8) 0x10 (n % 8)
def colPage (die bank : Nat) : Nat := page die 0x02 (bank / 8)
def pwrPage (die : Nat) : Nat := page die 0x07 0
def pciPage : Nat := page 4 0x11 0
def prvPage : Nat := page 4 0x16 0
def rotPage : Nat := page 4 0x15 0

/-- The clock domain in which a page's block runs (R528, with the domain IDs of R431). -/
def pageDomain (pg : Nat) : Nat :=
  let die := dieOfPage pg
  let inst := instOfPage pg
  match classOfPage pg with
  | 0x01 => die
  | 0x06 => die
  | 0x03 => 0x20 + 3 * die + inst
  | 0x04 => 0x20 + 3 * die + inst
  | 0x05 => 0x20 + 3 * die + inst
  | 0x09 => 0x60 + (die - 4)
  | 0x14 => 0x60 + (die - 4)
  | 0x15 => 0x60 + (die - 4)
  | 0x16 => 0x60 + (die - 4)
  | 0x17 => 0x60 + (die - 4)
  | 0x10 => 0x40 + 8 * (die - 4) + inst
  | 0x11 => 0x50
  | 0x12 => 0x30 + 4 * (die - 4) + inst
  | 0x13 => if inst = 0 then 0x60 else 0x50
  | _ => 0x10 + die

/-- The domain IDs used by name: ac and nc of a die, cc of S0 (R431). -/
def acDom (die : Nat) : Nat := die
def ncDom (die : Nat) : Nat := 0x10 + die
def ccDom : Nat := 0x60

/-! ### Registers, clocks and free values -/

/-- The cold-start value of a register that the manual does not start at 0, by class and page offset
(R91, R188, R376, R386, R387, R407, R436; log entry 2 for the others). -/
def regDefault (a : Nat) : Word :=
  let off := a % 4096
  match classOfPage a with
  | 0x01 => if 0x100 ≤ off && off < 0x900 && off % 256 == 0x1C then 0x080808 else 0
  | 0x02 => if off = 0x050 then 40 else 0
  | 0x03 => if off = 0x050 then 40 else 0
  | 0x12 => if off = 0x050 then 40 else 0
  | 0x07 => if off = 0x064 && dieOfPage a == 4 then 3000 else 0
  | 0x10 => if off = 0x090 then 0xC4367 else if off = 0x094 then 97 else if off = 0x098 then 45480 else 0
  | 0x11 => if off = 0x050 then 4 else 0
  | 0x17 => if off = 0x318 then 0xFFFFFFFF else 0
  | _ => 0

/-- A register of the window that holds a word. -/
def State.reg (s : State) (a : Nat) : Word := Table.get (regDefault a) s.regs a

def State.setReg (s : State) (a : Nat) (w : Word) : State :=
  { s with regs := Table.put (regDefault a) s.regs a w }

/-- A counter of 32 bits. It wraps (log entry 10). -/
def State.bump (s : State) (a n : Nat) : State := s.setReg a (s.reg a + wordOf n)

/-- A counter of the ac in which work is held, which rest on the times of single slots: the work adds a free count (log entry 6). -/
def State.bumpHeld (s : State) (a : Nat) : State := { s with drawn := s.drawn + 1 }.bump a (Config.freeWord s.drawn).toNat

/-- A counter of 32 bits that saturates. -/
def State.bumpSat (s : State) (a n : Nat) : State :=
  s.setReg a (wordOf (min (2 ^ 32 - 1) ((s.reg a).toNat + n)))

/-- A 64-bit register, low word first (R9). -/
def State.reg64 (s : State) (a : Nat) : Nat := (s.reg a).toNat + 2 ^ 32 * (s.reg (a + 4)).toNat

def State.setReg64 (s : State) (a n : Nat) : State := (s.setReg a (wordOf n)).setReg (a + 4) (wordOf (n / 2 ^ 32))

def State.bump64 (s : State) (a n : Nat) : State := s.setReg64 a (s.reg64 a + n)

/-- A domain's cycle counter (R4). -/
def State.now (s : State) (dom : Nat) : Dword := Table.get 0 s.time dom

/-- Curator 0's counter. -/
def State.cc (s : State) : Dword := s.now ccDom

/-- Whether a count of cycles has passed on a domain's counter since a stamp. -/
def State.elapsed (s : State) (dom : Nat) (since : Dword) (n : Nat) : Bool := decide (n ≤ (s.now dom - since).toNat)

/-- Two stamps lie within 3 cycles of each other (R432). -/
def closeTo (a b : Dword) : Bool := decide ((a - b).toNat ≤ 3) || decide ((b - a).toNat ≤ 3)

/-- The next free value of the manual, and the state that has drawn it (log entry 6). -/
def State.draw (s : State) : Word × State := (Config.freeWord s.drawn, { s with drawn := s.drawn + 1 })

/-! ### Units of the state -/

def State.tile (s : State) (t : Nat) : Tile := Table.get default s.tiles t
def State.modTile (s : State) (t : Nat) (f : Tile → Tile) : State :=
  { s with tiles := Table.put default s.tiles t (f (s.tile t)) }

def State.modTcc (s : State) (t : Nat) (f : Tcc → Tcc) : State := s.modTile t (fun x => { x with tcc := f x.tcc })

def Tile.engine (x : Tile) (q : Nat) : Engine := Table.get default x.engines q
def Tile.modEngine (x : Tile) (q : Nat) (f : Engine → Engine) : Tile :=
  { x with engines := Table.put default x.engines q (f (x.engine q)) }
def State.modEngine (s : State) (t q : Nat) (f : Engine → Engine) : State := s.modTile t (fun x => x.modEngine q f)

def Tile.ctr (x : Tile) (c : Nat) : Word := Table.get 0 x.ctrs c
def Tile.setCtr (x : Tile) (c : Nat) (v : Word) : Tile := { x with ctrs := Table.put 0 x.ctrs c v }

def State.pld (s : State) (p : Nat) : Polder := Table.get default s.polders p
def State.modPld (s : State) (p : Nat) (f : Polder → Polder) : State :=
  { s with polders := Table.put default s.polders p (f (s.pld p)) }

def State.chan (s : State) (c : Nat) : Channel := Table.get default s.channels c
def State.modChan (s : State) (c : Nat) (f : Channel → Channel) : State :=
  { s with channels := Table.put default s.channels c (f (s.chan c)) }

def State.cns (s : State) (n : Nat) : Conservator := Table.get default s.conservators n
def State.modCns (s : State) (n : Nat) (f : Conservator → Conservator) : State :=
  { s with conservators := Table.put default s.conservators n (f (s.cns n)) }

def State.client (s : State) (k : Nat) : Client := Table.get default s.clients k
def State.modClient (s : State) (k : Nat) (f : Client → Client) : State :=
  { s with clients := Table.put default s.clients k (f (s.client k)) }

def State.seam (s : State) (n : Nat) : Seam := Table.get default s.seams n
def State.modSeam (s : State) (n : Nat) (f : Seam → Seam) : State :=
  { s with seams := Table.put default s.seams n (f (s.seam n)) }

def State.port (s : State) (n : Nat) : Port := Table.get default s.links.ports n
def State.modLinks (s : State) (f : Links → Links) : State := { s with links := f s.links }
def State.modPort (s : State) (n : Nat) (f : Port → Port) : State :=
  s.modLinks (fun l => { l with ports := Table.put default l.ports n (f (s.port n)) })

def State.die (s : State) (d : Nat) : DiePower := Table.get default s.power d
def State.modDie (s : State) (d : Nat) (f : DiePower → DiePower) : State :=
  { s with power := Table.put default s.power d (f (s.die d)) }

def State.modStore (s : State) (f : Store → Store) : State := { s with store := f s.store }
def State.modNets (s : State) (f : Nets → Nets) : State := { s with nets := f s.nets }
def State.modHif (s : State) (f : HostIf → HostIf) : State := { s with hif := f s.hif }
def State.modBoard (s : State) (f : Board → Board) : State := { s with board := f s.board }
def State.modBoot (s : State) (f : Boot → Boot) : State := { s with boot := f s.boot }
def State.modJournal (s : State) (f : Journal → Journal) : State := { s with journal := f s.journal }
def State.modSpares (s : State) (f : Spares → Spares) : State := { s with spares := f s.spares }

/-- A register of a VF's control page (R407); the two size registers start at 4 (log entry 2). -/
def vfDefault (off : Nat) : Word := if off = 0x00C then 4 else if off = 0x020 then 4 else 0
def State.vfReg (s : State) (p off : Nat) : Word := Table.get (vfDefault off) s.vfRegs (p * 4096 + off)
def State.setVfReg (s : State) (p off : Nat) (w : Word) : State :=
  { s with vfRegs := Table.put (vfDefault off) s.vfRegs (p * 4096 + off) w }
def State.vfReg64 (s : State) (p off : Nat) : Nat := (s.vfReg p off).toNat + 2 ^ 32 * (s.vfReg p (off + 4)).toNat

/-! ### Owners -/

/-- States in which a polder owns what it was assigned (R347). -/
def PolderState.owns : PolderState → Bool
  | .free => false
  | _ => true

/-- The polder that a part-wide row is assigned to. -/
def State.rowOwner (s : State) (row : Nat) : Option Nat :=
  (List.range 16).find? (fun p => (s.pld p).state.owns && bitAt (s.pld p).rowMap.toNat row)

def State.tileOwner (s : State) (t : Nat) : Option Nat := s.rowOwner (t / 8)

/-- An owner as an owner field shows it: 0x1F for none (R13). -/
def ownerCode (o : Option Nat) : Nat := o.getD 0x1F

/-- The part-wide rows of a polder in rising order: polder-relative row i is the i-th (R350). -/
def Polder.rows (x : Polder) : List Nat := (List.range 32).filter (fun r => bitAt x.rowMap.toNat r)

/-- The logical tiles of a polder, in polder-relative order. -/
def Polder.tiles (x : Polder) : List Nat := x.rows.flatMap (fun r => (List.range 8).map (fun c => 8 * r + c))

/-- The step counter that programs and rounding see: SPK_STEP for a training job, 0 otherwise (R261). -/
def State.stepOf (s : State) (p : Nat) : Word := if (s.pld p).cat.kind = 0 then s.reg (spkReg p 0x040) else 0

/-! ### MSI-X, interrupts and error logs (R429, R506, R507) -/

/-- A word of a function's MSI-X table (R404, R406). A vector is masked after a reset, as PCIe has it: log entry 106. -/
def msixDefault (i : Nat) : Word := if i % 4 = 3 then 1 else 0
def State.msixWord (s : State) (fn i : Nat) : Word := Table.get (msixDefault i) s.hif.table (fn * 32 + i)

/-- The mask bit of a vector. -/
def State.vectorMasked (s : State) (fn vec : Nat) : Bool := (s.msixWord fn (4 * vec + 3)).getLsbD 0

/-- A vector's message goes out, or waits in the PBA while the vector is masked. -/
def State.sendMsix (s : State) (fn vec : Nat) : State :=
  let x : Msix := { fn := fn, vec := vec }
  if s.vectorMasked fn vec then s.modHif (fun h => { h with pba := if h.pba.contains x then h.pba else h.pba ++ [x] })
  else s.modHif (fun h => { h with msix := h.msix ++ [x] })

/-- A write to a word of a function's MSI-X table; a message that waited goes out once its vector is not masked. -/
def State.writeMsix (s : State) (fn i : Nat) (v : Word) : State :=
  let x : Msix := { fn := fn, vec := i / 4 }
  let s := s.modHif (fun h => { h with table := Table.put (msixDefault i) h.table (fn * 32 + i) (if i % 4 = 3 then v &&& 1 else v) })
  if s.hif.pba.contains x && !s.vectorMasked fn (i / 4) then (s.modHif (fun h => { h with pba := h.pba.erase x })).sendMsix fn (i / 4) else s

/-- A rejected or refused write of a function: its AER status bit, 15 for Completer Abort and 20 for Unsupported Request, the logged
header, and ERR_NONFATAL where the function does not mask it (R422, R424). PRESUMED, the bits: log entry 171. -/
def State.sendAer (s : State) (fn : Nat) (abort : Bool) (a : Nat) : State :=
  let bit := if abort then 15 else 20
  s.modHif (fun h => { h with
    aer := h.aer ++ [{ fn := fn, abort := abort, addr := a, sent := !bitAt (Table.get 0 h.aerMask fn).toNat bit }]
    aerStatus := Table.put 0 h.aerStatus fn (Table.get 0 h.aerStatus fn ||| wordOf (2 ^ bit)) })

/-- The link trains: the rate and width that come of it are free, of those of R403 and R428, and FLIT mode goes with 64 GT/s and above.
DESIGN CHOICE: log entry 163. -/
def State.trainLink (s : State) : State :=
  let d := s.draw
  let k := d.1.toNat
  let rate := 1 + k % 7
  d.2.modHif (fun h => { h with
    linkUp := true, pcie := { h.pcie with rate := rate, width := 2 ^ (k / 7 % 5), flit := decide (6 ≤ rate) || bitAt k 31 } })

/-- A function's Bus Master Enable is 1 (R417). -/
def State.masters (s : State) (fn : Nat) : Bool := s.hif.masters.contains fn

/-- Transactions of a function go to the host (R404, R416). -/
def State.sendTlps (s : State) (l : List Tlp) : State := s.modHif (fun h => { h with tlps := h.tlps ++ l })

/-- A read of host memory by a function (R416). -/
def State.askHost (s : State) (fn a n : Nat) : State := s.sendTlps [{ fn := fn, write := false, relaxed := false, addr := a, len := n }]

/-- The write transactions of a run of bytes: they are split at Max Payload Size (R416). -/
def splitTlps (fn : Nat) (relaxed : Bool) (a n size : Nat) : List Tlp :=
  (List.range ((n + size - 1) / size)).map (fun i => { fn := fn, write := true, relaxed := relaxed, addr := a + size * i, len := min size (n - size * i) })

/-- The OR over all pages of BLK_IRQ_STS and BLK_IRQ_EN (R507). -/
def State.irqAny (s : State) : Bool :=
  s.regs.any (fun e => e.1 % 4096 == 0x010 && (e.2 &&& s.reg (e.1 + 4)) != 0)

/-- Sends vector 3 where the OR has changed from zero to nonzero since the state given (R507). -/
def State.irqEdge (s before : State) : State :=
  if s.irqAny && !before.irqAny then s.sendMsix 0 3 else s

/-- A hardware event sets interrupt bits of a page. -/
def State.setIrq (s : State) (pg bits : Nat) : State :=
  (s.setReg (pg + 0x010) (s.reg (pg + 0x010) ||| wordOf bits)).irqEdge s

/-- Logs an error in a page (R504, R506). -/
def State.logError (s : State) (pg kind code at_ polder : Nat) : State :=
  let dom := pageDomain pg
  let s := s.bumpSat (pg + 0x01C) 1
  let s := s.setReg (pg + 0x020) (wordOf (code + kind * 2 ^ 16 + dom * 2 ^ 24))
  let s := s.setReg (pg + 0x024) (wordOf (at_ % 2 ^ 16 + polder * 2 ^ 16))
  s.setReg64 (pg + 0x028) (s.now dom).toNat

/-- A write that a rule of its chapter ignores is logged in the page as kind 0x1 (R506). -/
def State.ignoreWrite (s : State) (a : Nat) : State := s.logError (a / 4096 * 4096) 1 0 (a % 4096) 0x1F

/-! ### Raising a fault (R70, R74, R81, R216, R360) -/

/-- A fault starts on its way to curator 0 (R358, R527). -/
def State.sendCause (s : State) (c : Cause) : State := s.modNets (fun n => { n with causes := n.causes ++ [c] })

/-- Freezes a master of a tile: kind 1 is the TCC, kinds 2 to 8 are the engines of queues 0 to 6 (R360). -/
def State.freezeMaster (s : State) (t kind : Nat) : State :=
  if kind = 1 then s.modTcc t (fun x => { x with state := .frozen, faulted := true })
  else s.modEngine t (kind - 2) (fun e => { e with frozen := true })

/-- The page of a tile's master: DMA and gather engines stand in the class 0x06 page. -/
def masterPage (t kind : Nat) : Nat := if 5 ≤ kind && kind ≤ 7 then dmaPage t else tilePage t

/-- A master of a tile raises a fault: it writes TIL_FAULT, sets the column's interrupt bit, logs the error, freezes
itself for an access violation, and the cause goes to curator 0 (R93, R360, R506). -/
def State.raiseTile (s : State) (t kind code addr : Nat) : State :=
  let p := ownerCode (s.tileOwner t)
  let s := s.setReg (tilReg t 0x0C) (wordOf code)
  let s := s.setIrq (tilePage t) (2 ^ colOfTile t)
  let s := s.logError (masterPage t kind) 2 code t p
  let s := if code / 256 = 1 then s.freezeMaster t kind else s
  s.sendCause { polder := p, code := code, kind := kind, unit := t, addr := addr }

/-- An engine of queue q raises a fault. -/
def State.raiseEngine (s : State) (t q code addr : Nat) : State := s.raiseTile t (q + 2) code addr

/-- A fault of a polder that no master of a tile raises: a memory error, a link, a power event (R360 kind 0x0). -/
def State.raisePart (s : State) (p code unit addr : Nat) : State :=
  s.sendCause { polder := p, code := code, kind := 0, unit := unit, addr := addr }

/-! ### Host DMA errors (R417, R428) -/

/-- A class 0x0D failure of a polder's request: the PCIe page shows it and the cause goes to curator 0. -/
def State.hostError (s : State) (p code unit addr : Nat) : State :=
  let s := s.setReg (pciPage + 0x060) (wordOf (code + p * 2 ^ 16))
  let s := s.setIrq pciPage 2
  let s := s.logError pciPage 2 code unit p
  s.sendCause { polder := p, code := code, kind := 0xB, unit := unit, addr := addr }

/-! ### Records to the host (R409, R411) -/

/-- Whether the host can be reached: VIN and the S0 core are up and PERST_N is released (R418, R514). -/
def State.hostUp (s : State) : Bool := s.hif.linkUp

/-- Bytes land in host memory. -/
def State.hostStore (s : State) (a : Nat) (bs : List Byte) : State :=
  if s.hostUp then s.modStore (fun m => { m with host := Mem.writeN m.host a bs }) else s

/-- A write of a function to host memory, split at Max Payload Size (R416). -/
def State.postTlps (s : State) (fn : Nat) (relaxed : Bool) (a n : Nat) : State :=
  if s.hostUp then s.sendTlps (splitTlps fn relaxed a n s.hif.pcie.maxPayload) else s

/-- A ring record goes to the host as one transaction without Relaxed Ordering (R409). -/
def State.hostWrite (s : State) (fn a : Nat) (bs : List Byte) : State := (s.hostStore a bs).postTlps fn false a bs.length

def State.hostRead (s : State) (a n : Nat) : List Byte := Mem.readN s.store.host a n

/-- The log2 size of a VF's ring. -/
def State.cqLog (s : State) (p : Nat) : Nat := field (s.vfReg p 0x020).toNat 0 5

/-- Whether a VF's queues are enabled (R407). -/
def State.queuesOn (s : State) (p : Nat) : Bool := bitAt (s.vfReg p 0x02C).toNat 0

/-- Records of the completion ring that the host has not consumed. -/
def State.cqUsed (s : State) (p : Nat) : Nat := (s.vfReg p 0x028 - s.vfReg p 0x024).toNat

/-- Whether a polder's completion ring takes a count of further records (R411). -/
def State.cqRoom (s : State) (p n : Nat) : Bool := decide (s.cqUsed p + n ≤ 2 ^ s.cqLog p)

/-- The 64 bytes of a ring entry (R409): the body stands at byte 8. -/
def ringEntry (type index log : Nat) (body : List Byte) : List Byte :=
  let phase := if bitAt index log then 0 else 1
  leBytes 1 type ++ leBytes 1 phase ++ leBytes 2 0 ++ leBytes 4 index ++ padTo 0 56 body

/-- Posts a record to a VF's completion ring, which has room. A VF whose Bus Master Enable is 0 faults instead (R417). -/
def State.postVf (s : State) (p type : Nat) (body : List Byte) : State :=
  if !s.masters (p + 1) then
    s.hostError p 0x0D05 4 (s.vfReg64 p 0x018 + 64 * ((s.vfReg p 0x028).toNat % 2 ^ s.cqLog p))
  else
    let tail := (s.vfReg p 0x028).toNat
    let wasEmpty := s.cqUsed p == 0
    let s := s.hostWrite (p + 1) (s.vfReg64 p 0x018 + 64 * (tail % 2 ^ s.cqLog p)) (ringEntry type tail (s.cqLog p) body)
    let s := s.setVfReg p 0x028 (wordOf (tail + 1))
    if wasEmpty then s.sendMsix (p + 1) 0 else s

/-- Marks that a record waits for ring space, or that none does (R411). -/
def State.setHeld (s : State) (p : Nat) (b : Bool) : State :=
  s.setVfReg p 0x02C (wordOf (field (s.vfReg p 0x02C).toNat 0 1 + if b then 2 else 0))

/-- Runs an action that posts a count of records, or holds it while the ring has no room (R411). -/
def State.posting (s : State) (p n : Nat) (act : State → State) : State :=
  if s.queuesOn p && !s.cqRoom p n then s.setHeld p true else act (s.setHeld p false)

/-- Posts a record where the queues are enabled. -/
def State.postIfOn (s : State) (p type : Nat) (body : List Byte) : State :=
  if s.queuesOn p then s.postVf p type body else s

/-- Posts a fault record to the VF's ring, which drops it when full (R411). -/
def State.postVfFault (s : State) (p : Nat) (body : List Byte) : State :=
  if !s.queuesOn p || !s.masters (p + 1) then s
  else if s.cqRoom p 1 then s.postVf p 3 body
  else s.setVfReg p 0x030 (s.vfReg p 0x030 + 1)

/-- Posts a fault record to PF0's fault ring (R357, R409, R411, R428). -/
def State.postPfFault (s : State) (body : List Byte) : State :=
  let size := (s.reg (pciPage + 0x050)).toNat
  let log := field size 0 5
  let tail := (s.reg (pciPage + 0x058)).toNat
  let used := (s.reg (pciPage + 0x058) - s.reg (pciPage + 0x054)).toNat
  if bitAt size 8 && decide (used < 2 ^ log) then
    let s := s.hostWrite 0 (s.reg64 (pciPage + 0x048) + 64 * (tail % 2 ^ log)) (ringEntry 3 tail log body)
    let s := s.setReg (pciPage + 0x058) (wordOf (tail + 1))
    if used = 0 then s.sendMsix 0 1 else s
  else (s.bump (pciPage + 0x05C) 1).setIrq pciPage 1

/-! ### Mailbox replies (R421, R425) -/

/-- Forms the reply of a request under way, which MAILBOX_ACK writes. A channel that a reset has idled has none. -/
def State.reply (s : State) (c code : Nat) (body : List Byte) : State :=
  s.modChan c (fun x => if x.state == .busy && x.reply.isNone then { x with reply := some { code := code, body := body } } else x)

/-- A reply that only echoes its request's opcode (R413). -/
def State.replyEcho (s : State) (c code : Nat) : State := s.reply c code ((s.chan c).request.take 2 ++ [0, 0])

/-! ### Answers to accesses (R8) -/

/-- A refused access: an error response. -/
def State.answerError (s : State) : State := { s with answer := .error }

def State.answerWritten (s : State) : State := { s with answer := .written }

def State.answerValue (s : State) (w : Word) : State := { s with answer := .value w }

/-! ### Outcomes -/

/-- A command takes its next state. -/
def done (s : State) : Host.Outcome State Fault Refusal := .next s

/-- Applies a function to each element of a list in turn. -/
def State.forEach (s : State) (l : List α) (f : State → α → State) : State := l.foldl f s

end Sys2Proof.Machine
end

