-- ==== Sys2Proof/Machine/Digest.lean ====
section
/-!
DEFINITION. SHA3-256 and the SHAKE functions of FIPS 202, and CRC-64 (R301, R456, R480, R484).
-/

namespace Sys2Proof.Machine

/-! ### SHA3-256, and SHAKE128 and SHAKE256 (FIPS 202, which R456 names) -/

/-- A 64-bit word of the 1600-bit state: word x + 5y stands in column x of plane y. -/
def lane (l : List Dword) (i : Nat) : Dword := (l[i]?).getD 0

/-- The shift register of x^8 + x^6 + x^5 + x^4 + 1 after t steps from 1. -/
def roundReg : Nat → Nat
  | 0 => 1
  | t + 1 => let r := 2 * roundReg t; if r < 256 then r else r ^^^ 0x171

/-- What round i adds to word 0: the register's low bit after 7i + j steps stands at bit 2^j - 1. -/
def roundWord (i : Nat) : Dword :=
  dwordOf ((List.range 7).foldl (fun n j => n + roundReg (7 * i + j) % 2 * 2 ^ (2 ^ j - 1)) 0)

/-- The place to which a round moves a word: column y of plane 2x + 3y, from column x of plane y. -/
def moved (p : Nat) : Nat := p / 5 + 5 * ((2 * (p % 5) + 3 * (p / 5)) % 5)

/-- The words but word 0, each moved to the next place of the one cycle that they form and turned by a triangular number. -/
def turnWords : Nat → Nat → Nat → List Dword → List Dword → List Dword
  | 0, _, _, _, b => b
  | k + 1, t, p, a, b => turnWords k (t + 1) (moved p) a (b.set (moved p) ((lane a p).rotateLeft (t * (t + 1) / 2 % 64)))

/-- The parity of the column two words apart from a word's own, which the first step of a round adds to it. -/
def columnMix (a : List Dword) (i : Nat) : Dword :=
  let parity (x : Nat) : Dword := (List.range 5).foldl (fun v y => v ^^^ lane a (x % 5 + 5 * y)) 0
  lane a i ^^^ parity (i + 4) ^^^ (parity (i + 1)).rotateLeft 1

/-- Every word takes the bits of the one two places on in its plane, where the next one has none. -/
def planeMix (b : List Dword) (i : Nat) : Dword :=
  let at_ (k : Nat) : Dword := lane b (i / 5 * 5 + (i + k) % 5)
  at_ 0 ^^^ (at_ 2 &&& ~~~(at_ 1))

def mixRound (a : List Dword) (i : Nat) : List Dword :=
  let a := (List.range 25).map (columnMix a)
  let b := (List.range 25).map (planeMix (turnWords 24 1 1 a a))
  b.set 0 (lane b 0 ^^^ roundWord i)

/-- The permutation of 24 rounds. -/
def permute (a : List Dword) : List Dword := (List.range 24).foldl mixRound a

/-- Takes in a count of blocks of a rate in words. -/
def absorb (rate : Nat) (a : List Dword) (bs : List Byte) : Nat → List Dword
  | 0 => a
  | n + 1 =>
    absorb rate (permute (a.zipIdx.map (fun w => w.1 ^^^ dwordOf (if w.2 < rate then peek bs (8 * w.2) 8 else 0)))) (bs.drop (8 * rate)) n

/-- The padding of a number of bytes to a whole number of blocks: the domain's first byte, zeros, and 0x80. -/
def spongePad (rate : Nat) (first : Byte) (n : Nat) : List Byte :=
  let k := 8 * rate - n % (8 * rate)
  if k = 1 then [first ||| 0x80] else first :: (List.replicate (k - 2) 0 ++ [0x80])

/-- The state that has taken in a message. -/
def sponge (rate : Nat) (first : Byte) (bs : List Byte) : List Dword :=
  let m := bs ++ spongePad rate first bs.length
  absorb rate (List.replicate 25 0) m (m.length / (8 * rate))

/-- A count of blocks of output. -/
def squeeze (rate : Nat) (a : List Dword) : Nat → List Byte
  | 0 => []
  | n + 1 => (a.take rate).flatMap (fun w => leBytes 8 w.toNat) ++ squeeze rate (permute a) n

def sha3 (bs : List Byte) : List Byte := ((sponge 17 0x06 bs).take 4).flatMap (fun w => leBytes 8 w.toNat)

/-- The first bytes of SHAKE128 and of SHAKE256. -/
def shake128 (bs : List Byte) (n : Nat) : List Byte := (squeeze 21 (sponge 21 0x1F bs) (n / 168 + 1)).take n
def shake256 (bs : List Byte) (n : Nat) : List Byte := (squeeze 17 (sponge 17 0x1F bs) (n / 136 + 1)).take n

/-! ### CRC-64 (R301) -/

def crcBits : Nat → Dword → Dword
  | 0, c => c
  | n + 1, c => crcBits n (if c.msb then c <<< (1 : Nat) ^^^ 0x42F0E1EBA9EA3693 else c <<< (1 : Nat))

/-- CRC-64 with the ECMA-182 polynomial, from 0, unreflected, with no final XOR. -/
def crc64 (bs : List Byte) : Dword := bs.foldl (fun c b => crcBits 8 (c ^^^ (b.setWidth 64 : Dword) <<< (56 : Nat))) 0

end Sys2Proof.Machine
end

