-- ==== Sys2Proof/Machine/Signature.lean ====
section
/-!
DEFINITION. ML-DSA-44 of FIPS 204, which R456, R464, R466 and R484 name: the key pair of a seed, the deterministic signature and its
verification, both with an empty context string. PRESUMED: log entry 7.
-/

namespace Sys2Proof.Machine

/-! ### The ring of polynomials of 256 coefficients modulo q = 8 380 417, with X^256 = -1 -/

abbrev Poly := List Nat

def qDsa : Nat := 8380417

def modQ (n : Int) : Nat := (n % (qDsa : Int)).toNat

/-- A power modulo q. -/
def powQ (b : Nat) : Nat → Nat
  | 0 => 1
  | e + 1 => b * powQ b e % qDsa

def addPoly (a b : Poly) : Poly := List.zipWith (fun x y => (x + y) % qDsa) a b
def subPoly (a b : Poly) : Poly := List.zipWith (fun x y => (x + qDsa - y) % qDsa) a b
def scalePoly (c : Nat) (a : Poly) : Poly := a.map (fun x => c * x % qDsa)
def zeroPoly : Poly := List.replicate 256 0

/-- X times a polynomial. -/
def timesX (a : Poly) : Poly := (qDsa - a.getLastD 0) % qDsa :: a.dropLast

def mulPoly (a b : Poly) : Poly := a.foldr (fun c acc => addPoly (scalePoly c b) (timesX acc)) zeroPoly

/-- A row of a matrix by a vector. -/
def dotPoly (r v : List Poly) : Poly := (List.zipWith mulPoly r v).foldl addPoly zeroPoly

def mulMatrix (a : List (List Poly)) (v : List Poly) : List Poly := a.map (fun r => dotPoly r v)

/-- The low eight bits of a number in reverse order. -/
def reverse8 (n : Nat) : Nat := (List.range 8).foldl (fun m i => m + n / 2 ^ i % 2 * 2 ^ (7 - i)) 0

/-- The value of a polynomial at a point. -/
def evalPoly (x : Nat) (a : Poly) : Nat := a.foldr (fun c v => (c + x * v) % qDsa) 0

/-- The polynomial whose number-theoretic transform is given: value i is that at the power 2 × reverse8 i + 1 of 1 753, a 512th root of 1. -/
def fromTransform (t : Poly) : Poly :=
  let odd := (List.range 256).map (fun o => (t[reverse8 o]?).getD 0)
  (List.range 256).map (fun j => 8347681 * powQ 1753 (512 - j) % qDsa * evalPoly (powQ 1753 (512 - 2 * j)) odd % qDsa)

/-- A coefficient as its residue of least magnitude, and that magnitude. -/
def centred (n : Nat) : Int := if 2 * n ≤ qDsa then (n : Int) else (n : Int) - (qDsa : Int)
def normPoly (a : Poly) : Nat := a.foldl (fun m x => max m (centred x).natAbs) 0
def normVector (v : List Poly) : Nat := v.foldl (fun m a => max m (normPoly a)) 0

/-! ### Packing and sampling -/

/-- Numbers of a width in bits, as bytes, and back. -/
def packBits (w : Nat) (l : List Nat) : List Byte := leBytes (w * l.length / 8) (l.foldr (fun x n => x + 2 ^ w * n) 0)
def unpackBits (w n : Nat) (bs : List Byte) : List Nat := let v := leNat bs; (List.range n).map (fun i => v / 2 ^ (w * i) % 2 ^ w)

/-- A polynomial of the public matrix: the transform's values are the triples of the stream that are below q. -/
def sampleUniform (seed : List Byte) : Poly :=
  let s := shake128 seed 1008
  fromTransform (((List.range 336).map (fun i => peek s (3 * i) 3 % 2 ^ 23)).filter (fun n => decide (n < qDsa)) |>.take 256)

/-- A secret polynomial: coefficients of -2 to 2 from the nibbles below 15. -/
def sampleSmall (seed : List Byte) : Poly :=
  let s := shake256 seed 544
  (s.flatMap (fun b => [b.toNat % 16, b.toNat / 16])).filter (fun n => decide (n < 15)) |>.take 256 |>.map (fun n => modQ (2 - (n % 5 : Nat)))

/-- One step of the challenge: coefficient i takes that of place j, which takes a sign. The places are bytes of at most i. -/
def ballStep (x : Poly × List Byte) (i : Nat) (sign : Bool) : Poly × List Byte :=
  let rest := x.2.dropWhile (fun b => decide (i < b.toNat))
  let j := (rest.headD 0).toNat
  let c := x.1.set i ((x.1[j]?).getD 0)
  (c.set j (if sign then qDsa - 1 else 1), rest.drop 1)

/-- The challenge polynomial, with 39 coefficients of 1 or -1. -/
def sampleBall (seed : List Byte) : Poly :=
  let s := shake256 seed 272
  let h := peek s 0 8
  ((List.range 39).foldl (fun x k => ballStep x (217 + k) (h / 2 ^ k % 2 == 1)) (zeroPoly, s.drop 8)).1

/-- The masking vector of a count. -/
def expandMask (seed : List Byte) (count : Nat) : List Poly :=
  (List.range 4).map (fun r => (unpackBits 18 256 (shake256 (seed ++ leBytes 2 (count + r)) 576)).map (fun (n : Nat) => modQ (2 ^ 17 - (n : Int))))

/-- The public matrix of a seed of 32 bytes. -/
def expandMatrix (rho : List Byte) : List (List Poly) :=
  (List.range 4).map (fun r => (List.range 4).map (fun c => sampleUniform (rho ++ leBytes 1 c ++ leBytes 1 r)))

/-! ### High and low parts -/

/-- The residue modulo an even number that lies above minus its half and at most its half. -/
def centredMod (n m : Nat) : Int := let r := n % m; if 2 * r ≤ m then (r : Int) else (r : Int) - (m : Int)

/-- A coefficient's high and low parts by 190 464 = 2 γ2. -/
def decompose (n : Nat) : Nat × Int :=
  let r := centredMod n 190464
  if (n : Int) - r = qDsa - 1 then (0, r - 1) else (((n : Int) - r).toNat / 190464, r)

def highPart (n : Nat) : Nat := (decompose n).1
def lowPart (n : Nat) : Int := (decompose n).2

/-- The high part that a hint corrects. -/
def useHint (h : Bool) (n : Nat) : Nat :=
  let d := decompose n
  if !h then d.1 else if 0 < d.2 then (d.1 + 1) % 44 else (d.1 + 43) % 44

/-- A coefficient of t by 2^13. -/
def lowT (n : Nat) : Int := centredMod n 8192
def highT (n : Nat) : Nat := ((n : Int) - lowT n).toNat / 8192

/-! ### Hints -/

/-- The 84 bytes of a hint: the places of its ones in at most 80 bytes, and the count after each polynomial. -/
def packHint (h : List (List Bool)) : List Byte :=
  let places := h.map (fun p => (p.zipIdx.filter (·.1)).map (·.2))
  padTo 0 80 (places.flatten.map (BitVec.ofNat 8)) ++ (List.range 4).map (fun i => BitVec.ofNat 8 ((places.take (i + 1)).flatten.length))

/-- Places rise strictly. -/
def rising : List Nat → Bool
  | a :: b :: l => decide (a < b) && rising (b :: l)
  | _ => true

def unpackHint (bs : List Byte) : Option (List (List Bool)) :=
  let count (i : Nat) : Nat := if i = 0 then 0 else peek bs (79 + i) 1
  let places (i : Nat) : List Nat := (((bs.take 80).drop (count i)).take (count (i + 1) - count i)).map (·.toNat)
  if (List.range 4).all (fun i => decide (count i ≤ count (i + 1)) && decide (count (i + 1) ≤ 80) && rising (places i)) &&
      ((bs.take 80).drop (count 4)).all (· == 0) then
    some ((List.range 4).map (fun i => (List.range 256).map (fun j => (places i).contains j)))
  else none

/-! ### Keys, signatures and verification -/

/-- A key pair: the seed of the matrix, the signing seed, the secret vectors, and t. -/
structure DsaKey where
  rho : List Byte
  seed : List Byte
  s1 : List Poly
  s2 : List Poly
  t : List Poly

/-- ML-DSA.KeyGen_internal of a seed of 32 bytes. -/
def dsaKey (xi : List Byte) : DsaKey :=
  let e := shake256 (padTo 0 32 xi ++ [4, 4]) 128
  let rho := e.take 32
  let small := (e.drop 32).take 64
  let s1 := (List.range 4).map (fun r => sampleSmall (small ++ leBytes 2 r))
  let s2 := (List.range 4).map (fun r => sampleSmall (small ++ leBytes 2 (r + 4)))
  { rho := rho, seed := e.drop 96, s1 := s1, s2 := s2, t := List.zipWith addPoly (mulMatrix (expandMatrix rho) s1) s2 }

/-- The public key: 1 312 bytes. -/
def DsaKey.encoded (k : DsaKey) : List Byte := k.rho ++ k.t.flatMap (fun p => packBits 10 (p.map highT))

/-- What is signed of a message under a public key: its representative, with an empty context string. -/
def representative (pk msg : List Byte) : List Byte := shake256 (shake256 pk 64 ++ [0, 0] ++ msg) 64

/-- The challenge's hash over the high parts of a vector. -/
def challengeHash (mu : List Byte) (w1 : List (List Nat)) : List Byte := shake256 (mu ++ w1.flatMap (packBits 6)) 32

/-- One attempt at a signature, or none where it is rejected. -/
def DsaKey.attempt (k : DsaKey) (a : List (List Poly)) (mu mask : List Byte) (count : Nat) : Option (List Byte) :=
  let y := expandMask mask count
  let w := mulMatrix a y
  let ct := challengeHash mu (w.map (·.map highPart))
  let c := sampleBall ct
  let z := List.zipWith addPoly y (k.s1.map (mulPoly c))
  let r := List.zipWith subPoly w (k.s2.map (mulPoly c))
  let ct0 := k.t.map (fun p => mulPoly c (p.map (fun n => modQ (lowT n))))
  let h := List.zipWith (fun p e => List.zipWith (fun n m => highPart n != highPart ((n + m) % qDsa)) p e) r ct0
  if 2 ^ 17 - 78 ≤ normVector z || 95232 - 78 ≤ (r.flatten.foldl (fun m n => max m (lowPart n).natAbs) 0) || 95232 ≤ normVector ct0 ||
      80 < h.flatten.countP (· == true) then none
  else some (ct ++ z.flatMap (fun p => packBits 18 (p.map (fun n => (2 ^ 17 - centred n).toNat))) ++ packHint h)

/-- The first attempt that is not rejected, of a bounded number. -/
def DsaKey.attempts (k : DsaKey) (a : List (List Poly)) (mu mask : List Byte) : Nat → Nat → List Byte
  | 0, _ => []
  | n + 1, count =>
    match k.attempt a mu mask count with
    | some sig => sig
    | none => k.attempts a mu mask n (count + 4)

/-- The public key of a seed. -/
@[irreducible] def mldsaPublic (xi : List Byte) : List Byte := (dsaKey xi).encoded

/-- The deterministic signature of a message by the key of a seed: 2 420 bytes. FIPS 204 bounds the attempts at no fewer than 814. -/
@[irreducible] def mldsaSign (xi msg : List Byte) : List Byte :=
  let k := dsaKey xi
  let mu := representative k.encoded msg
  k.attempts (expandMatrix k.rho) mu (shake256 (k.seed ++ List.replicate 32 0 ++ mu) 64) 814 0

/-- The verification of a signature over a message under a public key. -/
@[irreducible] def mldsaVerify (pk msg sig : List Byte) : Bool :=
  let z := (List.range 4).map (fun i => (unpackBits 18 256 ((sig.drop (32 + 576 * i)).take 576)).map (fun (n : Nat) => modQ (2 ^ 17 - (n : Int))))
  let t1 := (List.range 4).map (fun i => unpackBits 10 256 ((pk.drop (32 + 320 * i)).take 320))
  match unpackHint ((sig.drop 2336).take 84) with
  | none => false
  | some h =>
    let ct := sig.take 32
    let mu := representative pk msg
    let c := sampleBall ct
    let w := List.zipWith (fun p t => subPoly p (mulPoly c (scalePoly 8192 t))) (mulMatrix (expandMatrix (pk.take 32)) z) t1
    decide (pk.length = 1312) && decide (sig.length = 2420) && decide (normVector z < 2 ^ 17 - 78) &&
      challengeHash mu (List.zipWith (fun hs p => List.zipWith useHint hs p) h w) == ct

end Sys2Proof.Machine
end

