-- ==== Sys2Proof/Machine/Provenance.lean ====
section
/-!
DEFINITION. The provenance journal and its appends, and the extension of measurement registers (R458, R479, R480, R483 to R487).
-/

namespace Sys2Proof.Machine

/-! ### The journal (R483 to R487) -/

/-- Entry slots of the flash (R483). -/
def journalSlots : Nat := 21824

/-- Kinds that can be appended in the last 256 slots (R485). -/
def reserveKind (k : Nat) : Bool := !(k == 3 || k == 8 || k == 9 || k == 0xC)

def Journal.free (j : Journal) : Nat := journalSlots - j.used
def Journal.fullSoon (j : Journal) : Bool := decide (j.free ≤ 256)

/-- An entry that is not appended counts in PRV_LOST and sets bit 1 of the page's interrupt status (R487, R493). -/
def State.loseEntry (s : State) : State := (s.bump (prvPage + 0x050) 1).setIrq prvPage 2

/-- Appends an entry, or loses it (R486, R487). FULL_SOON sets bit 0 of the page's interrupt status as it comes. -/
def State.append (s : State) (kind : Nat) (vals : List Nat) : State :=
  let j := s.journal
  if j.free = 0 || (j.fullSoon && !reserveKind kind) then s.loseEntry
  else
    let e : Entry := { kind := kind, vals := vals, cc := s.cc, boot := s.boot.starts, torn := j.tornDue }
    let s := s.modJournal (fun j => { j with entries := j.entries ++ [e], used := j.used + 1, tornDue := 0 })
    if s.journal.fullSoon && !j.fullSoon then s.setIrq prvPage 1 else s

/-- The bytes of a field of an entry's body: counts have 64 bits but in a thermal entry, a calibration point 16, 8 and 8, and the fields of
a refurbishment entry the widths of its statement (R485, R490). The widths of the rest are open: log entry 8. -/
def entryField (kind i v : Nat) : List Byte :=
  match kind with
  | 6 => leBytes 8 v
  | 7 => leBytes 4 v
  | 0xD => leBytes 8 v
  | 8 => if i = 1 || i = 2 then leBytes 8 v else Config.entryField kind i v
  | 9 => if i = 2 then leBytes 8 v else Config.entryField kind i v
  | 2 => if i < 3 then Config.entryField kind i v else leBytes (if i % 3 = 0 then 2 else 1) v
  | 0x10 => leBytes ((([1, 1, 4, 128, 32] : List Nat)[i]?).getD 0) v
  | kind => Config.entryField kind i v

/-- An entry's body, of at most 448 bytes (R484). -/
def Entry.body (e : Entry) : List Byte := (e.vals.zipIdx.flatMap (fun x => entryField e.kind x.2 x.1)).take 448

/-- Bytes 0x000 to 0x03F + BODY_LEN of a slot (R484). -/
def Entry.signed (e : Entry) (index : Nat) (prev : List Byte) : List Byte :=
  leBytes 2 1 ++ leBytes 2 e.kind ++ leBytes 2 e.body.length ++ leBytes 2 0 ++ leBytes 8 index ++ prev ++ leBytes 8 e.cc.toNat
    ++ leBytes 4 e.boot ++ leBytes 2 e.torn ++ leBytes 2 0 ++ e.body

/-- The seed of the identity key: SHA3-256 of the fused seed and the ASCII bytes of IRORA-ID-1 (R464). -/
def identitySeed : List Byte :=
  sha3 (padTo 0 32 Config.fuseSeed ++ [0x49, 0x52, 0x4F, 0x52, 0x41, 0x2D, 0x49, 0x44, 0x2D, 0x31])

/-- A certificate of the chain: the third is the part's own, with the fused serial number and the identity public key (R464). Where they
stand in it is PRESUMED: log entry 172. -/
def certificate (i : Nat) : List Byte :=
  Config.certPiece i 0 ++ if i = 2 then
    (leBytes 8 Config.fuseSerial.toNat).reverse ++ Config.certPiece i 1 ++ mldsaPublic identitySeed ++ Config.certPiece i 2 else []

def Entry.signature (e : Entry) (index : Nat) (prev : List Byte) : List Byte :=
  padTo 0 2420 (mldsaSign identitySeed (e.signed index prev))

/-- The digest of an entry: over its header, its body and its signature (R484). -/
def Entry.digest (e : Entry) (index : Nat) (prev : List Byte) : List Byte :=
  sha3 (e.signed index prev ++ e.signature index prev)

/-- The digest of the last of a list of entries, from a first index and the digest before it. -/
def headDigest : List Entry → Nat → List Byte → List Byte
  | [], _, prev => prev
  | e :: es, i, prev => headDigest es (i + 1) (e.digest i prev)

def noDigest : List Byte := List.replicate 32 0

/-- PRV_HEAD. -/
def Journal.head (j : Journal) : List Byte := headDigest j.entries 0 noDigest

/-- The 3 072 bytes of the slot of entry i (R484). Bytes that the layout leaves unwritten read as reserved bytes do. -/
def Journal.slot (j : Journal) (i : Nat) : List Byte :=
  match j.entries[i]? with
  | none => List.replicate 3072 0
  | some e =>
    let prev := headDigest (j.entries.take i) 0 noDigest
    padTo 0 0x200 (e.signed i prev) ++ e.signature i prev ++ List.replicate (3072 - 0x200 - 2420) 0

/-! ### Timing revision, spare map and measurement registers (R458, R479, R480) -/

/-- Cross-bank collection remaps applied since manufacture. -/
def State.remaps (s : State) : Nat := s.spares.crossBank.foldl (fun n e => n + e.2) 0

def State.timingRev (s : State) : Nat := min 0xA1FF (0xA100 + s.remaps)

/-- The spare map digest: over the bodies of every spare entry in index order (R480). -/
def State.spareDigest (s : State) : List Byte :=
  sha3 ((s.journal.entries.filter (fun e => e.kind == 0xA)).flatMap (·.body))

/-- Extends a measurement register: SHA3-256 over the old value and the new digest (R458). -/
def extend (mr d : List Byte) : List Byte := sha3 (padTo 0 32 mr ++ d)

/-- MR4 takes the spare map (R480). -/
def State.extendMr4 (s : State) : State :=
  s.modBoot (fun b => { b with mr4 := extend b.mr4 (sha3 (s.spareDigest ++ leBytes 2 s.timingRev)) })

/-- A spare entry: class, unit, element replaced, spare used, spares remaining, timing revision (R485). -/
def State.appendSpare (s : State) (cls unit old spare left : Nat) : State :=
  s.append 0xA [cls, unit, old, spare, left, s.timingRev]

end Sys2Proof.Machine
end

