-- ==== Sys2Proof/Machine/Routes.lean ====
section
/-!
DEFINITION. Seams and the routes between dies, the traffic that seam ends count, and the failure of the part (R18, R21 to R23, R27, R28, R230).
-/

namespace Sys2Proof.Machine

/-! ### Seams and routes (R18, R21, R23) -/

/-- The two dies that a seam joins, first die first (R18). -/
def seamDies : Nat → Nat × Nat
  | 0 => (0, 1)
  | 1 => (2, 3)
  | 2 => (0, 2)
  | 3 => (1, 3)
  | 4 => (0, 4)
  | 5 => (1, 4)
  | 6 => (2, 5)
  | _ => (3, 5)

/-- The page of a seam's end on a die: on an F-die 0 in the row, 1 in the column, 2 to the S-die; on an S-die 0 to the
even F-die and 1 to the odd one (R18). -/
def semPage (seam die : Nat) : Nat :=
  page die 0x08 (if 4 ≤ die then seam % 2 else if seam < 2 then 0 else if seam < 4 then 1 else 2)

/-- The fixed route from the lower of two dies to the higher (R21). -/
def fixedUp (a b : Nat) : List Nat :=
  match a, b with
  | 0, 1 => [0]
  | 0, 2 => [2]
  | 0, 3 => [0, 3]
  | 1, 2 => [0, 2]
  | 1, 3 => [3]
  | 2, 3 => [1]
  | 0, 4 => [4]
  | 1, 4 => [5]
  | 2, 4 => [2, 4]
  | 3, 4 => [3, 5]
  | 0, 5 => [2, 6]
  | 1, 5 => [3, 7]
  | 2, 5 => [6]
  | 3, 5 => [7]
  | 4, 5 => [4, 2, 6]
  | _, _ => []

/-- Between F-dies the route crosses the row seam first from either end: F2 to F1 and F3 to F0 start on seam 1 (R21). -/
def fixedRoute (a b : Nat) : List Nat :=
  if a = 3 && b = 0 then [1, 2]
  else if a = 2 && b = 1 then [1, 3]
  else if a ≤ b then fixedUp a b
  else (fixedUp b a).reverse

/-- The alternate route of management traffic (R23). -/
def altUp (a b : Nat) : List Nat :=
  match a, b with
  | 0, 1 => [2, 1, 3]
  | 2, 3 => [2, 0, 3]
  | 0, 2 => [0, 3, 1]
  | 1, 3 => [0, 2, 1]
  | 0, 3 => [2, 1]
  | 1, 2 => [3, 1]
  | 0, 4 => [0, 5]
  | 1, 4 => [0, 4]
  | 2, 5 => [1, 7]
  | 3, 5 => [1, 6]
  | 0, 5 => [0, 3, 7]
  | 1, 5 => [0, 2, 6]
  | 2, 4 => [1, 3, 5]
  | 3, 4 => [1, 2, 4]
  | 4, 5 => [5, 3, 7]
  | _, _ => []

def State.seamUp (s : State) (n : Nat) : Bool := (s.seam n).state == .active

/-- Whether management traffic between two dies has a route in service (R23). -/
def State.reaches (s : State) (a b : Nat) : Bool :=
  a == b || (fixedUp (min a b) (max a b)).all s.seamUp || (altUp (min a b) (max a b)).all s.seamUp

/-- The route that management traffic takes: the fixed one while it is in service, otherwise the alternate one (R23). -/
def State.managementRoute (s : State) (a b : Nat) : List Nat :=
  if (fixedRoute a b).all s.seamUp then fixedRoute a b
  else if a ≤ b then altUp a b else (altUp b a).reverse

/-! ### Traffic that seam ends count (R222, R230) -/

/-- The die of a target. -/
def Target.die (x : Target) : Nat :=
  match x.space with
  | .hbm => x.dev / 3
  | .depot => 4 + x.dev / 4
  | .col => x.dev
  | .host => 4

/-- The far die of a seam. -/
def seamFar (n die : Nat) : Nat := if (seamDies n).1 = die then (seamDies n).2 else (seamDies n).1

/-- A flit gets through: the run of replays of its direction ends (R225). -/
def Seam.passed (x : Seam) (dir : Bool) : Seam := if dir then { x with run1 := 0 } else { x with run0 := 0 }

/-- The direction in which a message leaves a die: false from the seam's first die to its second (R18). -/
def seamDir (n die : Nat) : Bool := (seamDies n).1 != die

/-- Messages of a count of flits together cross one seam from a die: the sender counts the flits on the channel, and the far end
counts in transit those of the messages that go on (R222, R230). -/
def State.crossSeam (s : State) (n die chan flits onward : Nat) : State :=
  let s := s.bump64 (semPage n die + 0x050 + 8 * chan) flits
  let s := if onward = 0 then s else s.bump64 (semPage n (seamFar n die) + 0x084) onward
  s.modSeam n (fun x => x.passed (seamDir n die))

/-- A count of messages crosses the seams of a route, from the die given. -/
def State.crossSeams (s : State) (die chan flits count : Nat) : List Nat → State
  | [] => s
  | n :: rest => crossSeams (s.crossSeam n die chan flits (if rest.isEmpty then 0 else count)) (seamFar n die) chan flits count rest

/-- Control messages between two dies, each of at most 64 bytes and so one flit, cross the control channels of the route of
management traffic (R23, R219, R222). -/
def State.controlCrosses (s : State) (a b count : Nat) : State :=
  if s.reaches a b && count != 0 then s.crossSeams a 1 count count (s.managementRoute a b) else s

/-- A register access of another die's page: a request and its response. -/
def State.accessCrosses (s : State) (die far : Nat) : State := (s.controlCrosses die far 1).controlCrosses far die 1

/-- The messages that S0's curators send the F-dies of a polder as it is created, started and torn down, whose number the
manual does not give: free values (R219, log entry 6). -/
def State.controlBurst (s : State) (p : Nat) : State :=
  s.forEach (((s.pld p).rows.map (· / 8)).eraseDups) (fun s d => s.draw.2.controlCrosses 4 d s.draw.1.toNat)

/-- Every seam of the fixed route between two dies is in service (R20, R21). -/
def State.routeUp (s : State) (a b : Nat) : Bool := (fixedRoute a b).all s.seamUp

/-- Flits of 256 bytes (R222). -/
def seamFlits (bytes : Nat) : Nat := max 1 ((bytes + 255) / 256)

/-- The seams' virtual channels are 0 sync, 1 control, 2 bulk and 3 reduction, and this is the receive buffer of one, in
events or flits (R222). -/
def seamBuffer (chan : Nat) : Nat := if chan < 2 then 32 else 512

/-- SEM_CRSTALL takes the nc for which a channel of a seam direction has waited for a credit, once it waits no longer (R230). -/
def State.stampStall (s : State) (n die chan : Nat) (stalled : Bool) : State :=
  let key := (if seamDir n die then 4 else 0) + chan
  let now := s.now (ncDom die)
  match Table.get none (s.seam n).stalls key, stalled with
  | none, true => s.modSeam n (fun x => { x with stalls := Table.put none x.stalls key (some now) })
  | some t, false =>
    (s.bump (semPage n die + 0x070 + 4 * chan) (now - t).toNat).modSeam n (fun x => { x with stalls := Table.put none x.stalls key none })
  | _, _ => s

/-- The seams of a route with the die at which each is left. -/
def routeEdges (die : Nat) : List Nat → List (Nat × Nat)
  | [] => []
  | n :: rest => (n, die) :: routeEdges (seamFar n die) rest

/-- A SIGNAL to a tile of another die crosses the sync channels as one event for each seam (R219, R222). -/
def State.signalCrosses (s : State) (die b : Nat) : State := s.crossSeams die 0 1 1 (fixedRoute die (dieOfTile b))

/-- Events that the sync channel of a seam direction holds: the signals on their way over it (R222, R224). -/
def State.syncHeld (s : State) (e : Nat × Nat) : Nat :=
  s.nets.signals.countP (fun g => (routeEdges g.die (fixedRoute g.die (dieOfTile g.dst))).contains e)

/-- A seam in service has sync credits for a count of events (R20, R224). -/
def State.seamTakes (s : State) (count : Nat) (e : Nat × Nat) : Bool := s.seamUp e.1 && decide (s.syncHeld e + count ≤ seamBuffer 0)

/-- The sync network takes one of a count of signals from a die: the seams of its way have credits for them, and the target's
sync port has one, whose queue holds 16 with those that are on their way (R73, R224). -/
def State.syncTakes (s : State) (die count dst : Nat) : Bool :=
  (routeEdges die (fixedRoute die (dieOfTile dst))).all (s.seamTakes count) &&
    decide (s.nets.signals.countP (fun g => g.dst == dst) + (s.tile dst).syncIn.length < 16)

/-- Marks which seams of a signal's way it waits at for a credit. -/
def State.settleSync (s : State) (die count dst : Nat) : State :=
  s.forEach (routeEdges die (fixedRoute die (dieOfTile dst))) (fun s e => s.stampStall e.1 e.2 0 (s.seamUp e.1 && !s.seamTakes count e))

/-- The copy of the translation tables that a walker of a die reads: F0 and F1 read D0's, F2 and F3 D4's, and the
other one where no route to it is in service (R23, R174): the alternate route goes before the other copy. True is D0's. DEDUCED: log
entry 151. -/
def State.readsD0 (s : State) (die : Nat) : Bool :=
  let near := decide (die < 2)
  if s.reaches die (if near then 4 else 5) then near else !near

/-! ### Failure of the part (R27, R28, R358) -/

/-- A polder that a fault tears down (R351, R355). -/
def PolderState.resident : PolderState → Bool
  | .loaded => true
  | .running => true
  | .complete => true
  | _ => false

/-- The code of a polder state (R351). -/
def PolderState.code : PolderState → Nat
  | .free => 0
  | .creating => 1
  | .loaded => 2
  | .running => 3
  | .complete => 4
  | .clearing => 5
  | .draining => 6

/-- The polder of a slot of a shared engine: slots are keyed by engine × 16 + polder. -/
def slotPolder (key : Nat) : Nat := key % 16

/-- Slots by engine and polder: engines 0 to 15 are the ports, 16 and 17 host DMA of S0 and S1, 18 curator 0's reduction sequence. -/
def slotKey (e p : Nat) : Nat := e * 16 + p

def State.slot (s : State) (e p : Nat) : Slot := Table.get default s.links.slots (slotKey e p)
def State.modSlot (s : State) (e p : Nat) (f : Slot → Slot) : State :=
  s.modLinks (fun l => { l with slots := Table.put default l.slots (slotKey e p) (f (s.slot e p)) })

/-- The counter that times an engine's remote waits: curator 2's for S1's link engines (R366). -/
def engineDom (e : Nat) : Nat := if 8 ≤ e && e < 16 then 0x61 else 0x60

/-- PLD_WD_MAX: the longest remote wait, in units of 65 536 cc, saturating (R369). PLD_RED_WAIT_CC counts the reduction's (R304). -/
def State.noteWait (s : State) (e p : Nat) : State :=
  let now := s.now (engineDom e)
  let n := min (2 ^ 32 - 1) ((now - (s.slot e p).entered).toNat / 65536)
  let s := if e = 18 && (s.pld p).train.phase = .reducing then
      (s.bump (pldReg p 0x31C) (now - (s.slot e p).counted).toNat).modSlot e p (fun x => { x with counted := now })
    else s
  if (s.reg (pldReg p 0x058)).toNat < n then s.setReg (pldReg p 0x058) (wordOf n) else s

/-- A shared engine discards what a polder's slot holds. Of S0's host DMA, engine 16, the request that it has issued stays known,
since its completion is still to come (R356, R359). -/
def stopSlot (p : Nat) (e : Nat × Slot) : Option (Nat × Slot) :=
  if slotPolder e.1 != p then some e
  else if e.1 / 16 = 16 && e.2.cur.isSome then some (e.1, { (default : Slot) with cur := e.2.cur })
  else none

/-- A request of a polder's channel that is still under way ends with 0x8008 (R415, R425). -/
def State.endRequest (s : State) (p : Nat) : State :=
  (s.replyEcho (8 + p) 0x8008).modHif (fun h => { h with doorbells := h.doorbells.filter (fun d => d.2 != 8 + p) })

/-- Steps 1 and 2 of clearing, for a teardown with its cause or for a retire without one: the ID is CLEARING, its shared
engines stop and discard its descriptors, whose remote waits end, and a request of its VF that is under way ends (R356, R369, R425). -/
def State.startClearing (s : State) (p : Nat) (cause : Option Cause) : State :=
  let x := s.pld p
  let s := if cause.isSome || x.editChannel.isSome then s.endRequest p else s
  let s := s.modPld p (fun x => { x with
    state := .clearing, cause := cause, causeState := x.state.code, causeCc := s.cc, clearCc := s.cc, editChannel := none, editRange := none })
  let s := s.forEach (List.range 19) (fun s k => if (s.slot k p).remote then s.noteWait k p else s)
  let s := s.modLinks (fun l => { l with slots := l.slots.filterMap (stopSlot p) })
  s.forEach (List.range 12) (fun s n => s.modCns n (fun c => if c.running = some p then { c with running := none, holding := false } else c))

/-- A management response: the opcode, the polder, the refusal code and the assigned row map (R349). -/
def response (op p code : Nat) (map : Word) : List Byte :=
  leBytes 2 op ++ leBytes 1 p ++ [0] ++ leBytes 2 code ++ [0, 0] ++ leBytes 4 map.toNat

/-- Releases the client entry that a CREATE reserved (R367). -/
def State.unreserve (s : State) (tag : Word) : State :=
  if (List.range 16).any (fun p => (s.pld p).state == .creating && (s.pld p).client == tag) then s
  else { s with clients := s.clients.filterMap (fun e =>
    if e.2.reserved == tag && e.2.tag == 0 then none else some e) }

/-- A CREATE under way ends: the ID is FREE and the request is answered (R350, R425). -/
def State.endCreate (s : State) (p code refusal : Nat) : State :=
  let x := s.pld p
  let s := (s.modPld p (fun _ => default)).unreserve x.client
  match x.reqChannel with
  | some c => s.reply c code (response 0x0101 p refusal 0)
  | none => s

/-- A cause as a failure of the same cycle of higher rank changes it: every record carries the code of CAUSE (R28). -/
def recode (old new unit : Nat) (c : Cause) : Cause :=
  if c.kind = 0 && c.code = old then { c with code := new, unit := unit } else c

/-- A part-ending failure of a rank by R28: every polder is torn down with the cause at once, a CREATE under way ends,
STATE is failed, CAUSE holds the first failure or the one of highest rank detected in the same cc, and the record takes
an entry, which keeps its code where a failure of higher rank of the same cc changes CAUSE (DESIGN CHOICE: log entry 137). A polder
that is already clearing completes and records the cause (R371, R425). -/
def State.failPart (s : State) (code rank unit : Nat) : State :=
  if s.boot.part != .failed then
    let s := s.modBoot (fun b => { b with part := .failed, cause := code, failRank := rank, failCc := s.cc })
    let s := s.append 0xE [code]
    s.forEach (List.range 16) (fun s p =>
      let x := s.pld p
      let c : Cause := { polder := p, code := code, kind := 0, unit := unit, addr := 0 }
      if x.state.resident then s.startClearing p (some c)
      else if x.state == .creating then s.endCreate p 0x8008 0
      else if x.state == .clearing then s.modPld p (fun x => { x with cause := some c, causeState := 5, causeCc := s.cc })
      else s)
  else if s.boot.failCc == s.cc && decide (rank < s.boot.failRank) then
    let old := s.boot.cause
    let s := s.modBoot (fun b => { b with cause := code, failRank := rank })
    s.forEach (List.range 16) (fun s p => s.modPld p (fun x => { x with cause := x.cause.map (recode old code unit) }))
  else s

/-- The rank of a failure: die, then seams before stacks and devices, then the number (R28). -/
def failRankOf (die : Nat) (seamFailure : Bool) (number : Nat) : Nat := die * 64 + (if seamFailure then 0 else 16) + number

/-- The lowest-numbered seam of a die (R28). -/
def lowestSeam : Nat → Nat
  | 0 => 0
  | 1 => 0
  | 2 => 1
  | 3 => 1
  | 4 => 4
  | _ => 6

/-- Writes the cause of a seam's last exit from ACTIVE in both its pages (R230). -/
def State.setSeamCause (s : State) (n cause : Nat) : State :=
  (s.setReg (semPage n (seamDies n).1 + 0x044) (wordOf cause)).setReg (semPage n (seamDies n).2 + 0x044) (wordOf cause)

/-- A port that is up goes down: its peer sees link down (R378, R396). -/
def State.dropPort (s : State) (n : Nat) : State :=
  s.modPort n (fun x => if x.state == .off then x else { x with state := .down })

/-- A seam of a lost die fails, with cause 0x3 where it was ACTIVE until then (R28, R29, R230): SEM_CAUSE holds the last exit from ACTIVE,
and that of a seam which was not ACTIVE stays. DEDUCED: log entry 144. -/
def State.failSeam (s : State) (n : Nat) : State :=
  let s := if (s.seam n).state == .active then (s.modSeam n (fun x => { x with cause := 3 })).setSeamCause n 3 else s
  s.modSeam n (fun x => { x with state := .failed })

/-- A die other than S0 is lost: its bit of DIE_UP clears, its seams fail, and the part fails (R28, R31).
The loss of S1 takes ports 8 to 15 down. -/
def State.loseDie (s : State) (die : Nat) : State :=
  let s := s.modBoot (fun b => { b with dieUp := if bitAt b.dieUp die then b.dieUp - 2 ^ die else b.dieUp })
  let mine := (List.range 8).filter (fun n => (seamDies n).1 == die || (seamDies n).2 == die)
  let s := s.forEach mine (fun s n => s.failSeam n)
  let s := if die = 5 then s.forEach ((List.range 8).map (· + 8)) (fun s n => s.dropPort n) else s
  s.failPart (0x0B30 + lowestSeam die) (failRankOf die true (lowestSeam die)) (lowestSeam die)

end Sys2Proof.Machine
end

