-- ==== Sys2Proof/Machine/Mail.lean ====
section
/-!
DEFINITION. Taking up the request of a mailbox channel: which opcodes a channel accepts, the order of doorbells, and the form of a body (R413, R419, R425, R426, R465).
-/

namespace Sys2Proof.Machine

/-- The opcodes that a channel accepts (R426). -/
def accepts (c op : Nat) : Bool :=
  let management := decide (0x0101 ≤ op) && decide (op ≤ 0x0104)
  if c < 8 then management || (decide (0x0301 ≤ op) && decide (op ≤ 0x0303)) || op / 256 == 4
  else if c < 24 then decide (0x0201 ≤ op) && decide (op ≤ 0x0203)
  else management

/-- The opcodes that the manual defines (R349, R413, R427, R465, R490). -/
def definedOpcode (op : Nat) : Bool :=
  [0x0101, 0x0102, 0x0103, 0x0104, 0x0201, 0x0202, 0x0203, 0x0301, 0x0302, 0x0303, 0x0401, 0x0402, 0x0403, 0x0410, 0x0411, 0x0412,
   0x0430].contains op

def requestOpcode (b : List Byte) : Nat := peek b 0 2

/-- The root-of-trust curator serves channels 0 to 7 and curator 0 the others (R419). -/
def sameServer (a b : Nat) : Bool := decide (a < 8) == decide (b < 8)

/-- No other request of the channel's server has an earlier doorbell (R425). -/
def State.firstDoorbell (s : State) (c : Nat) : Bool :=
  match s.hif.doorbells.find? (fun d => sameServer d.2 c) with
  | some d => d.2 == c
  | none => true

/-- The request that waits on a channel, where it has the given opcode, the channel accepts it, and its turn has come.
TEARDOWN acts at once (R425). -/
def State.request (s : State) (c op : Nat) : Option (List Byte) :=
  let x := s.chan c
  if x.state == .busy && !x.taken && x.reply.isNone && requestOpcode x.request == op && accepts c op && (op == 0x0103 || s.firstDoorbell c) then
    some x.request
  else none

/-- The server begins a channel's request. -/
def State.takeRequest (s : State) (c : Nat) : State :=
  (s.modChan c (fun x => { x with taken := true })).modHif (fun h => { h with doorbells := h.doorbells.filter (fun d => d.2 != c) })

/-- Whether every byte of a body outside the fields given as offset and length is 0 (R12, R413). -/
def onlyFields (b : List Byte) (fields : List (Nat × Nat)) : Bool :=
  b.zipIdx.all (fun x => x.1 == 0 || fields.any (fun f => decide (f.1 ≤ x.2) && decide (x.2 < f.1 + f.2)))

/-- A body of at least a length with only its fields used. -/
def formed (b : List Byte) (need : Nat) (fields : List (Nat × Nat)) : Bool := decide (need ≤ b.length) && onlyFields b ((0, 2) :: fields)

end Sys2Proof.Machine
end

