-- ==== Sys2Proof/Machine/Mailbox.lean ====
section
/-!
DEFINITION. Mailbox channels: who reaches them, ownership and rejection, doorbells, releases and acknowledgements, and the I3C and DOE requesters (R404, R412, R418 to R426, R467, R468).
-/

namespace Sys2Proof.Machine

/-! ### Requesters (R404, R405, R412, R501) -/

/-- The endpoint's host reaches PF0. -/
def State.hostReaches (s : State) : Bool := s.boot.s0On && s.hif.linkUp

/-- A VF is frozen by a violation until its next FLR (R412). -/
def State.vfFrozen (s : State) (p : Nat) : Bool := field (s.vfReg p 0x034).toNat 0 16 != 0

/-- VF p + 1 is enabled and reached by the host. -/
def State.vfReached (s : State) (p : Nat) : Bool := s.hostReaches && s.hif.vfEnable && decide (p < s.hif.numVfs)

/-- The PCIe function of a requester, if it is one: 0 is PF0. -/
def functionOf : Requester → Option Nat
  | .pf0 _ => some 0
  | .vf p => some (p.toNat + 1)
  | .bar2 => some 0
  | .config fn => some fn.toNat
  | .curator _ => none
  | .i3c => none

/-- A write that completes as Unsupported Request: a PCIe requester's AER logs it (R8, R412, R424). -/
def State.writeUr (s : State) (r : Requester) (a : Nat) : State :=
  match functionOf r with
  | some fn => (s.sendAer fn false a).answerError
  | none => s.answerError

/-- A refused read: Unsupported Request with all-ones data for a PCIe requester, an error response for any other (R8, R412). -/
def State.readUr (s : State) (r : Requester) : State :=
  match functionOf r with
  | some _ => { s with answer := .unsupported 0xFFFFFFFF }
  | none => s.answerError

/-! ### Access to a channel (R419, R423, R424) -/

/-- The power domain of a channel is up, and the part's state leaves the channel open. -/
def State.chanOpen (s : State) (c : Nat) : Bool :=
  if c < 8 then s.board.vaux && !s.board.sysclkLost && s.boot.boot != 0 && (c == 0 || s.boot.part != .awaiting) else s.boot.mboxOn

/-- PF0's access arrives on the stream bound to it while that stream is Secure (R423). -/
def State.onBoundStream (s : State) (ide : Option (BitVec 2)) : Bool :=
  match ide, s.hif.bound with
  | some i, some b => i.toNat == b && s.hif.secure.contains b
  | _, _ => false

/-- Whether a requester reaches a channel at all. -/
def State.reachesChan (s : State) (r : Requester) (c : Nat) : Bool :=
  s.chanOpen c &&
  match r with
  | .pf0 ide => s.hostReaches && (decide (8 ≤ c) || s.onBoundStream ide)
  | .i3c => decide (c < 8)
  | .vf p => c == 8 + p.toNat && s.vfReached p.toNat && !s.vfFrozen p.toNat
  | .curator _ => true
  | .bar2 => false
  | .config _ => false

/-- The senders of a channel (R419): PF0's writes to a VF's channel and a curator's to any receive an error response. -/
def sends (r : Requester) (c : Nat) : Bool :=
  match r with
  | .pf0 _ => decide (c < 8) || decide (24 ≤ c)
  | .i3c => decide (c < 8)
  | .vf p => c == 8 + p.toNat
  | .curator _ => false
  | .bar2 => false
  | .config _ => false

/-! ### Ownership and rejection (R421, R422) -/

def fromI3c : Requester → Bool
  | .i3c => true
  | .pf0 _ => false
  | .curator _ => false
  | .vf _ => false
  | .bar2 => false
  | .config _ => false

def Channel.owned (x : Channel) (r : Requester) : Bool := x.i3c == fromI3c r && x.owner == (functionOf r).getD 0

/-- A channel is full for a sender: BUSY for all, FILLING and DONE for all but its owner. -/
def Channel.full (x : Channel) (r : Requester) : Bool :=
  match x.state with
  | .idle => false
  | .busy => true
  | _ => !x.owned r

/-- Page offsets and window addresses of a channel's registers and buffer (R420). -/
def mbxPage (c : Nat) : Nat := page 4 0x13 (c / 8)
def mbxOff (c : Nat) : Nat := 0x100 + 0x20 * (c % 8)
def mbxBuf (c : Nat) : Nat := 0x800 + 0x100 * (c % 8)
def mbxReg (c off : Nat) : Nat := mbxPage c + mbxOff c + off

/-- A write is rejected: MBX_REJ, its count and offset; a PCIe sender gets a Completer Abort in AER and its vector 2, and
an on-die sender an error response (R422, R428, R429). -/
def State.rejectWrite (s : State) (r : Requester) (c off : Nat) : State :=
  let s := (s.setReg (mbxReg c 0x10) (if (functionOf r).isSome then 3 else 1)).bump (mbxReg c 0x14) 1
  let s := s.setReg (mbxReg c 0x18) (wordOf off)
  match functionOf r with
  | some fn => (((s.bump (pciPage + 0x06C) 1).sendAer fn true (mbxPage c + off)).sendMsix fn 2).answerWritten
  | none => s.answerError

/-- Stores bytes in a channel's buffer. -/
def bufferPut (b : Table Byte) (off : Nat) : List Byte → Table Byte
  | [] => b
  | x :: xs => bufferPut (Table.put (α := BitVec 8) 0 b off x) (off + 1) xs

def Channel.bytes (x : Channel) (n : Nat) : List Byte := (List.range n).map (fun i => Table.get 0 x.buf i)

/-! ### The acknowledgement (R421, R426, R429) -/

/-- The I3C bridge sends its MCTP requester a response (R467). -/
def State.sendMctp (s : State) (y : Mctp) : State := s.modHif (fun h => { h with mctp := h.mctp ++ [y] })

/-- The response, MBX_ACK and DONE together, and the owner's vector, or the bridge's MCTP response. The buffer holds nothing beyond the response. -/
def State.acknowledge (s : State) (c : Nat) (y : Reply) : State :=
  let x := s.chan c
  let body := y.body.take 256
  let s := s.modChan c (fun x => { x with
    state := .done, buf := bufferPut [] 0 body, respLen := body.length, reply := none, taken := false })
  let s := s.setReg (mbxReg c 0x08) (wordOf (y.code % 2 ^ 16 + x.seq.toNat * 2 ^ 16))
  if x.i3c then s.sendMctp { chan := c, code := y.code % 2 ^ 16, seq := x.seq, body := body } else s.sendMsix x.owner (if x.owner = 0 then 0 else 1)

/-- The answer to a request whose opcode is reserved or not accepted on its channel, or that spells no request (R426). -/
def unaccepted (c : Nat) (x : Channel) : Option Reply :=
  let op := requestOpcode x.request
  let body := if x.request.isEmpty then [] else x.request.take 2 ++ [0, 0]
  if x.request.isEmpty || !definedOpcode op then some { code := 0x8001, body := body }
  else if !accepts c op then some { code := 0x8006, body := body }
  else none

/-- The server acknowledges the request that it has carried out, or one that no channel of the kind accepts. -/
def State.ackChannel (s : State) (n : Nat) : State :=
  let x := s.chan n
  if x.state != .busy || !s.chanOpen n then s
  else match x.reply with
    | some y => s.acknowledge n y
    | none =>
      if x.taken || !s.firstDoorbell n then s
      else match unaccepted n x with
        | some y => (s.takeRequest n).acknowledge n y
        | none => s

/-- MAILBOX_ACK (R421, R426). -/
def execMailboxAck (c : ChannelId) (s : State) : Host.Outcome State Fault Refusal := .next (s.ackChannel c.toNat)

/-- An acknowledgement in the hc of a write to its channel takes effect first: the commands that wait come in the same hc, since the
clocks run while none waits (R425; log entries 3 and 164). -/
def State.ackFirst (s : State) (n : Nat) : State :=
  if s.pending.contains (.mailboxAck (BitVec.ofNat 5 n)) then s.ackChannel n else s

/-! ### Writes of a sender (R420 to R422, R425) -/

/-- A write to a channel's buffer, doorbell or control register by a requester, at an offset of its page. -/
def State.channelWrite (s : State) (r : Requester) (c off : Nat) (act : State → State) : State :=
  if !s.reachesChan r c then s.writeUr r (mbxPage c + off)
  else if !sends r c then s.answerError
  else
    let s := s.ackFirst c
    if (s.chan c).full r then s.rejectWrite r c off else (act s).answerWritten

/-- The sender becomes the owner of a channel that it writes (R421). -/
def Channel.takenBy (x : Channel) (r : Requester) : Channel :=
  { x with i3c := fromI3c r, owner := (functionOf r).getD 0, reply := none, taken := false }

def State.fillBuffer (s : State) (r : Requester) (c off : Nat) (bs : List Byte) : State :=
  s.modChan c (fun x => { x.takenBy r with state := .filling, buf := bufferPut x.buf off bs })

/-- A doorbell's LEN is 4 to 256 and a multiple of 4. -/
def lenOk (n : Nat) : Bool := decide (4 ≤ n) && decide (n ≤ 256) && n % 4 == 0

/-- Doorbells stand in order of their hc stamps, the lower channel first within one hc. -/
def insertBell (d : Nat × Nat) : List (Nat × Nat) → List (Nat × Nat)
  | [] => [d]
  | e :: es => if e.1 < d.1 || (e.1 == d.1 && decide (e.2 ≤ d.2)) then e :: insertBell d es else d :: e :: es

/-- The doorbell: the server copies the request out. A LEN out of range spells no request. -/
def State.ringChannel (s : State) (r : Requester) (c : Nat) (value : Word) : State :=
  let n := field value.toNat 0 9
  let s := s.modChan c (fun x => { x.takenBy r with
    state := .busy, len := n, seq := BitVec.ofNat 16 (field value.toNat 16 16), request := if lenOk n then x.bytes n else [] })
  s.modHif (fun h => { h with doorbells := insertBell ((s.now 0x50).toNat, c) h.doorbells })

/-- MBX_DB (R421). -/
def execMbxDb (r : Requester) (c : ChannelId) (value : Word) (s : State) : Host.Outcome State Fault Refusal :=
  .next (s.channelWrite r c.toNat (mbxOff c.toNat + 4) (fun s => s.ringChannel r c.toNat value))

/-- MAILBOX_BUFFER_WRITE: an aligned word of the buffer (R9, R421, R422). -/
def execMailboxBufferWrite (r : Requester) (c : ChannelId) (off : Byte) (value : Word) (s : State) : Host.Outcome State Fault Refusal :=
  let o := off.toNat
  .next (
    if o % 4 != 0 then
      (if s.reachesChan r c.toNat then s.logError (mbxPage c.toNat) 3 0 (mbxBuf c.toNat + o) 0x1F else s).writeUr r (mbxPage c.toNat + mbxBuf c.toNat + o)
    else s.channelWrite r c.toNat (mbxBuf c.toNat + o) (fun s => s.fillBuffer r c.toNat o (leBytes 4 value.toNat)))

/-- The owner's RELEASE returns FILLING or DONE to IDLE; any other write of MBX_CTL changes nothing. -/
def State.releaseChannel (s : State) (c : Nat) (value : Word) : State :=
  if value.getLsbD 0 && (s.chan c).state != .idle then
    s.modChan c (fun x => { x with state := .idle, i3c := false, owner := 0, reply := none, taken := false })
  else s

/-- RELEASE (R420, R421). -/
def execRelease (r : Requester) (c : ChannelId) (value : Word) (s : State) : Host.Outcome State Fault Refusal :=
  .next (s.channelWrite r c.toNat (mbxOff c.toNat + 12) (fun s => s.releaseChannel c.toNat value))

/-! ### I3C and DOE (R423, R467, R468) -/

/-- The part's static address on I3C (R514). -/
def State.i3cAddress (s : State) : Nat := 0x50 + s.board.idSel

/-- The endpoint accepts a message at its address, of type 0x7F and with Eloamunan's enterprise number (R467). -/
def State.acceptsMctp (s : State) (h : MctpHead) : Bool :=
  decide (h.addr.toNat = s.i3cAddress) && decide (h.type = 0x7F) && decide (h.vendor = Config.enterprise)

/-- I3C_REQUEST: the bridge writes the request's words and rings, as an on-die sender. A rejected write ends it with return
code 0x80FF (R423, R467). -/
def execI3cRequest (h : MctpHead) (seq : Half) (body : List Byte) (s : State) : Host.Outcome State Fault Refusal :=
  let n := h.chan.toNat
  let t := s.channelWrite .i3c n (mbxBuf n) (fun s =>
    (s.fillBuffer .i3c n 0 (body.take 256)).ringChannel .i3c n (wordOf (min 511 body.length + seq.toNat * 2 ^ 16)))
  .next (
    if !s.acceptsMctp h then s
    else if t.answer = .error then t.sendMctp { chan := n, code := 0x80FF, seq := seq, body := [] } else t)

/-- A response goes out over DOE. -/
def State.sendDoe (s : State) (d : Doe) : State := s.modHif (fun h => { h with doe := h.doe ++ [d] })

/-- A count of free bytes of a response whose layout SPDM gives and the manual does not (R468). Log entry 169. -/
def State.freeResponse (s : State) : Nat → List Byte × State
  | 0 => ([], s)
  | n + 1 =>
    let w := s.draw
    let r := State.freeResponse w.2 n
    (leBytes 4 w.1.toNat ++ r.1, r.2)

/-- SPDM_REQUEST: the responder answers over DOE with the chain of slot 0, or with its half of a key exchange, which opens a secured
session; in one, IDE_KM sets a selective stream's state and PF0's binding (R403, R423, R468). The bytes of the exchange, 1 088 of ML-KEM-768
and 2 420 of the signature among them, are free. -/
def execSpdmRequest (r : SpdmRequest) (s : State) : Host.Outcome State Fault Refusal :=
  .next (
    if !s.hostReaches then s
    else match r with
      | .ideKey stream secure bind =>
        if !s.hif.session then s.sendDoe .error
        else
          (s.modHif (fun h => { h with
            secure := if secure then (h.secure ++ [stream.toNat]).eraseDups else h.secure.filter (· != stream.toNat)
            bound := if bind then some stream.toNat else h.bound })).sendDoe (.keysSet stream.toNat)
      | .certificate => s.sendDoe (.chain ((List.range 3).map certificate))
      | .keyExchange =>
        let r := s.freeResponse 877
        (r.2.modHif (fun h => { h with session := true })).sendDoe (.exchange r.1)
      | .other => s.sendDoe .error)

end Sys2Proof.Machine
end

