-- ==== Sys2Proof/Machine/Operands.lean ====
section
/-!
DEFINITION. The operand forms: number formats and their decoding, rows of scratchpad as operands, and the fields of a command.
-/

namespace Sys2Proof.Machine

/-! ### Values -/

/-- The value of an element: a NaN, an infinity with its sign, or the exact number m × 2^e. -/
inductive Val where
  | nan
  | inf (neg : Bool)
  | fin (m : Int) (e : Int)
  deriving DecidableEq, Repr, Inhabited

def Val.zero : Val := .fin 0 0
def Val.one : Val := .fin 1 0

/-- m × 2^k for a count of places k that may not be negative. -/
def shiftUp (m : Int) (k : Int) : Int := m * 2 ^ k.toNat

/-- The exact sum of two dyadic numbers. -/
def Val.addFin (m e m' e' : Int) : Val :=
  let l := min e e'
  .fin (shiftUp m (e - l) + shiftUp m' (e' - l)) l

/-- Addition as IEEE 754 has it for infinities and NaN, exact otherwise (R33, R118). -/
def Val.add : Val → Val → Val
  | .nan, _ => .nan
  | _, .nan => .nan
  | .inf a, .inf b => if a = b then .inf a else .nan
  | .inf a, _ => .inf a
  | _, .inf b => .inf b
  | .fin m e, .fin m' e' => Val.addFin m e m' e'

/-- Multiplication as IEEE 754 has it for infinities and NaN, exact otherwise (R50, R118). -/
def Val.mul : Val → Val → Val
  | .nan, _ => .nan
  | _, .nan => .nan
  | .inf a, .inf b => .inf (a != b)
  | .inf a, .fin m _ => if m = 0 then .nan else .inf (a != decide (m < 0))
  | .fin m _, .inf b => if m = 0 then .nan else .inf (b != decide (m < 0))
  | .fin m e, .fin m' e' => .fin (m * m') (e + e')

def Val.neg : Val → Val
  | .nan => .nan
  | .inf a => .inf (!a)
  | .fin m e => .fin (-m) e

def Val.isFin : Val → Bool
  | .fin _ _ => true
  | _ => false

/-- Greater than zero. -/
def Val.pos : Val → Bool
  | .nan => false
  | .inf a => !a
  | .fin m _ => decide (0 < m)

/-! ### Formats (R36) -/

/-- The element formats of the part. -/
inductive Fmt where
  | e4m3 | e5m2 | e3m2 | e2m3 | e2m1 | mxint8 | bf16 | fp16 | fp32
  deriving DecidableEq, Repr, Inhabited

/-- Width in bits (R36). -/
def Fmt.width : Fmt → Nat
  | .e4m3 => 8 | .e5m2 => 8 | .e3m2 => 6 | .e2m3 => 6 | .e2m1 => 4 | .mxint8 => 8
  | .bf16 => 16 | .fp16 => 16 | .fp32 => 32

/-- Mantissa bits (R36). For MXINT8, the fraction bits of its step. -/
def Fmt.mant : Fmt → Nat
  | .e4m3 => 3 | .e5m2 => 2 | .e3m2 => 2 | .e2m3 => 3 | .e2m1 => 1 | .mxint8 => 6
  | .bf16 => 7 | .fp16 => 10 | .fp32 => 23

/-- Exponent bias (R36). -/
def Fmt.bias : Fmt → Int
  | .e4m3 => 7 | .e5m2 => 15 | .e3m2 => 3 | .e2m3 => 1 | .e2m1 => 1 | .mxint8 => 0
  | .bf16 => 127 | .fp16 => 15 | .fp32 => 127

/-- Exponent bits. -/
def Fmt.expBits (f : Fmt) : Nat := f.width - 1 - f.mant

/-- The exponent of the smallest normal (R45). -/
def Fmt.emin (f : Fmt) : Int := 1 - f.bias

/-- Whether the format has infinities, so that its top exponent is not finite (R36). -/
def Fmt.hasInf : Fmt → Bool
  | .e5m2 => true | .bf16 => true | .fp16 => true | .fp32 => true
  | _ => false

/-- Whether the format is an MX format, which carries block scales (R35). -/
def Fmt.isMx : Fmt → Bool
  | .bf16 => false | .fp16 => false | .fp32 => false
  | _ => true

/-- emax of mx_scale (R49). -/
def Fmt.emax : Fmt → Int
  | .e4m3 => 8 | .e5m2 => 15 | .e3m2 => 4 | .e2m3 => 2 | .e2m1 => 2 | _ => 0

/-- The bits of the largest finite magnitude (R36). -/
def Fmt.maxBits : Fmt → Nat
  | .e4m3 => 0x7E | .e5m2 => 0x7B | .e3m2 => 0x1F | .e2m3 => 0x1F | .e2m1 => 0x7 | .mxint8 => 127
  | .bf16 => 0x7F7F | .fp16 => 0x7BFF | .fp32 => 0x7F7FFFFF

/-- The canonical NaN (R51); for the formats without a NaN, the zero element of a block with scale 0xFF (R50). -/
def Fmt.nanBits : Fmt → Nat
  | .e4m3 => 0x7F | .e5m2 => 0x7E | .bf16 => 0x7FC0 | .fp16 => 0x7E00 | .fp32 => 0x7FC00000
  | _ => 0

/-- A_FMT codes 0x0 to 0x7, and with bit 3 the 2:4 formats of B_FMT (R103). -/
def Fmt.ofA : Nat → Option Fmt
  | 0 => some .e4m3 | 1 => some .e5m2 | 2 => some .e3m2 | 3 => some .e2m3 | 4 => some .e2m1
  | 5 => some .mxint8 | 6 => some .bf16 | 7 => some .fp16
  | _ => none

/-- The element format of a B_FMT code, 2:4 or not (R103). -/
def Fmt.ofB (c : Nat) : Option Fmt :=
  if c < 8 then Fmt.ofA c else if c ≤ 0xD then Fmt.ofA (c - 8) else none

/-- OUT_FMT codes (R103); XR is code 0x9. -/
def Fmt.ofOut : Nat → Option Fmt
  | 0 => some .fp32 | 1 => some .bf16 | 2 => some .fp16 | 3 => some .e4m3 | 4 => some .e5m2
  | 5 => some .e3m2 | 6 => some .e2m3 | 7 => some .e2m1 | 8 => some .mxint8
  | _ => none

/-- OUT_FMT code of the XR format. -/
def outXr : Nat := 9

/-- OUT_FMT codes that R103 does not reserve. -/
def outFmtOk (c : Nat) : Bool := decide (c ≤ 9)

/-- The value of an element's bits, before any scale (R36, R39). -/
def Fmt.decode (f : Fmt) (b : Nat) : Val :=
  if f = .mxint8 then .fin (toSigned 8 b) (-6)
  else
    let neg := bitAt b (f.width - 1)
    let ex := field b f.mant f.expBits
    let man := field b 0 f.mant
    let top := ex = 2 ^ f.expBits - 1
    if f.hasInf && top then if man = 0 then .inf neg else .nan
    else if f = .e4m3 && top && man = 7 then .nan
    else
      let n : Int := if ex = 0 then man else man + 2 ^ f.mant
      let e : Int := (if ex = 0 then 1 else (ex : Int)) - f.bias - f.mant
      .fin (if neg then -n else n) e

/-- Multiplies by an E8M0 scale byte: 0xFF makes every element a NaN (R36, R50). -/
def Val.scaled (v : Val) (scale : Nat) : Val :=
  if scale = 0xFF then .nan
  else match v with
    | .fin m e => .fin m (e + (scale : Int) - 127)
    | x => x

def fp32 (w : Nat) : Val := Fmt.fp32.decode w

/-! ### Rows of scratchpad (R86) -/

/-- The memory key of a scratchpad row's byte. -/
def spadKey (t row b : Nat) : Nat := t * 2 ^ 22 + row * 512 + b

/-- The 512 bytes of a scratchpad row. -/
def State.spadRow (s : State) (t row : Nat) : List Byte := Mem.readN s.store.spad (spadKey t row 0) 512

/-- Writes a whole row. -/
def State.setSpadRow (s : State) (t row : Nat) (bs : List Byte) : State :=
  s.modStore (fun m => { m with spad := Mem.writeN m.spad (spadKey t row 0) (padTo 0 512 bs) })

/-- The bits of element i of a row, elements of w bits from bit 0 on (R37). -/
def rowElem (row : Nat) (w i : Nat) : Nat := field row (w * i) w

/-- Byte i of a row taken as a number. -/
def rowByte (row : Nat) (i : Nat) : Nat := field row (8 * i) 8

/-- Element i of a row in an A_FMT format, with its MX block's scale at byte 496 + block (R112, R141, R151). -/
def rowVal (f : Fmt) (row : Nat) (i : Nat) : Val :=
  let v := f.decode (rowElem row f.width i)
  if f.isMx then v.scaled (rowByte row (496 + i / 32)) else v

/-! ### The data and instruction stores (R76) -/

def dataKey (t a : Nat) : Nat := t * 2 ^ 14 + a
def instrKey (t a : Nat) : Nat := t * 2 ^ 16 + a

def State.dataWord (s : State) (t a : Nat) : Nat := leNat (Mem.readN s.store.dstore (dataKey t a) 4)
def State.setDataBytes (s : State) (t a : Nat) (bs : List Byte) : State :=
  s.modStore (fun m => { m with dstore := Mem.writeN m.dstore (dataKey t a) bs })
def State.instrWord (s : State) (t a : Nat) : Nat := leNat (Mem.readN s.store.istore (instrKey t a) 4)

/-! ### Command fields (R67) -/

def Command.opcode (c : Command) : Nat := field c.w0.toNat 0 8
def Command.waitCtr (c : Command) : Nat := field c.w0.toNat 8 8
def Command.sigCtr (c : Command) : Nat := field c.w0.toNat 16 8
def Command.waitEn (c : Command) : Bool := bitAt c.w0.toNat 24
def Command.sigEn (c : Command) : Bool := bitAt c.w0.toNat 25
/-- Bits [31:26] of word 0 are reserved. -/
def Command.w0Ok (c : Command) : Bool := field c.w0.toNat 26 6 == 0

/-- A field of words 1 to 3. -/
def Command.f1 (c : Command) (lo len : Nat) : Nat := field c.w1.toNat lo len
def Command.f2 (c : Command) (lo len : Nat) : Nat := field c.w2.toNat lo len
def Command.f3 (c : Command) (lo len : Nat) : Nat := field c.w3.toNat lo len
/-- A word of the shape record (R194). -/
def Command.shapeWord (c : Command) (i : Nat) : Nat := ((c.shape[i]?).getD 0).toNat

/-- The virtual address in words 2 and 3 of a DMA or GSTREAM command (R193, R210). -/
def Command.va (c : Command) : Nat := c.f3 0 6 * 2 ^ 42 + c.w2.toNat * 2 ^ 10 + c.f3 6 4 * 2 ^ 6

/-- The output selection of SETOUT, BSSETOUT and VSETOUT (R102). -/
def Command.outSel (c : Command) : OutSel := { tensor := c.w1, base := c.w2, stride := c.f3 0 24 }

end Sys2Proof.Machine
end

