-- ==== Sys2Proof/Machine/Flags.lean ====
section
/-!
DEFINITION. Exact accumulation, the one rounding, block scales, the exact reduction format, and the flags and counts that an output leaves.
-/

namespace Sys2Proof.Machine

/-! ### Rounding (R45, R48) -/

/-- Rounding modes by their code: 0 RNE, 1 RTZ, 2 SR (R102). -/
inductive Rnd where
  | rne | rtz | sr
  deriving DecidableEq, Repr, Inhabited

def Rnd.ofCode (c : Nat) : Rnd := if c = 1 then .rtz else if c = 2 then .sr else .rne

/-- floor(log2(num / den)) for positive numbers. -/
def floorLog2 (num den : Nat) : Int :=
  let k : Int := (Nat.log2 num : Int) - Nat.log2 den
  if num * 2 ^ (-k).toNat < den * 2 ^ k.toNat then k - 1 else k

/-- n of R45: m / 2^q rounded to an integer, for m = num / den. -/
def roundInt (mode : Rnd) (r num den : Nat) (q : Int) : Nat :=
  let a := num * 2 ^ (-q).toNat
  let b := den * 2 ^ q.toNat
  let n := a / b
  let rest := a % b
  match mode with
  | .rne => if b < 2 * rest || (2 * rest == b && n % 2 == 1) then n + 1 else n
  | .rtz => n
  | .sr => if 2 ^ 32 ≤ rest * 2 ^ 32 / b + r then n + 1 else n

/-- The weight q of the result's last bit (R45). -/
def lastBit (f : Fmt) (num den : Nat) : Int :=
  if f = .mxint8 then -6 else max (floorLog2 num den) f.emin - f.mant

/-- The bits of the magnitude n × 2^q, which the format represents. -/
def magBits (f : Fmt) (n : Nat) (q : Int) : Nat :=
  if n < 2 ^ f.mant then n
  else
    let carry := n = 2 ^ (f.mant + 1)
    let man := if carry then 0 else n - 2 ^ f.mant
    let ex := (q + f.mant + f.bias + if carry then 1 else 0).toNat
    ex * 2 ^ f.mant + man

/-- The exponent weight of the last bit of the largest finite value. -/
def maxLast (f : Fmt) : Int := ((f.maxBits / 2 ^ f.mant : Nat) : Int) - f.bias - f.mant

/-- The significand of the largest finite value. -/
def maxSig (f : Fmt) : Nat := f.maxBits % 2 ^ f.mant + 2 ^ f.mant

/-- Whether n × 2^q exceeds the largest finite value (R45). -/
def overflows (f : Fmt) (n : Nat) (q : Int) : Bool :=
  decide (maxLast f < q) && decide (0 < n) || (q == maxLast f && decide (maxSig f < n))

/-- How an output value counts (R52). -/
inductive Kind where
  | finite | nan | inf
  deriving DecidableEq, Repr, Inhabited

def signBit (f : Fmt) (neg : Bool) : Nat := if neg then 2 ^ (f.width - 1) else 0

/-- The bits of an infinity in a format that has one. -/
def infBits (f : Fmt) (neg : Bool) : Nat := signBit f neg + (2 ^ f.expBits - 1) * 2 ^ f.mant

/-- Overflow of R48. -/
def overflowBits (f : Fmt) (mode : Rnd) (neg : Bool) : Nat × Kind :=
  if f.hasInf && mode != .rtz then (infBits f neg, .inf) else (signBit f neg + f.maxBits, .finite)

/-- Rounds an exact MXINT8 value: the nearest end of the range on overflow (R48). -/
def roundInt8 (n : Nat) (neg : Bool) : Nat :=
  if neg then (256 - min n 128) % 256 else min n 127

/-- Rounds the exact nonnegative value num / den with a sign (R45). -/
def roundFrac (f : Fmt) (mode : Rnd) (r : Nat) (neg : Bool) (num den : Nat) : Nat × Kind :=
  if num = 0 then (0, .finite)
  else
    let q := lastBit f num den
    let n := roundInt mode r num den q
    if f = .mxint8 then (roundInt8 n neg, .finite)
    else if overflows f n q then overflowBits f mode neg
    else (signBit f neg + magBits f n q, .finite)

/-- A dyadic number as a fraction. -/
def dyNum (m : Int) (e : Int) : Nat := m.natAbs * 2 ^ e.toNat
def dyDen (e : Int) : Nat := 2 ^ (-e).toNat

/-- Rounds a value once to a format (R45, R48, R50, R51). A format without a NaN takes an element 0, whose block's scale is 0xFF. -/
def roundVal (f : Fmt) (mode : Rnd) (r : Nat) : Val → Nat × Kind
  | .nan => (f.nanBits, .nan)
  | .inf neg => if f.hasInf then (infBits f neg, .inf) else (f.nanBits, .nan)
  | .fin m e => roundFrac f mode r (decide (m < 0)) (dyNum m e) (dyDen e)

/-- Rounds to FP32 by RNE. -/
def toFp32 (v : Val) : Nat := (roundVal .fp32 .rne 0 v).1

/-! ### Stochastic rounding (R46) -/

def mix (x : Dword) : Dword :=
  let x := x ^^^ (x >>> 31)
  let x := x * 0x9E3779B97F4A7C15
  let x := x ^^^ (x >>> 29)
  let x := x * 0xBF58476D1CE4E5B9
  x ^^^ (x >>> 32)

/-- The SR value of an output element (R46). -/
def srValue (seed : Dword) (tensor step : Word) (index : Nat) : Nat :=
  ((mix (seed ^^^ mix ((tensor.setWidth 64 <<< 32) ||| step.setWidth 64) ^^^ mix (dwordOf index))) >>> 32).toNat

/-! ### Block scales (R49) -/

/-- floor(log2) of a magnitude, or none for zero and non-finite values. -/
def Val.log2 : Val → Option Int
  | .fin m e => if m = 0 then none else some ((Nat.log2 m.natAbs : Int) + e)
  | _ => none

/-- The largest floor(log2) over values. -/
def maxLog2 (l : List Val) : Option Int :=
  l.foldl (fun a v => match a, v.log2 with
    | none, b => b
    | a, none => a
    | some a, some b => some (max a b)) none

/-- mx_scale of R49. -/
def mxScale (f : Fmt) (l : List Val) : Nat :=
  match maxLog2 l with
  | none => 0x7F
  | some k => (max (-127) (min 127 (k - f.emax)) + 127).toNat

/-- Whether one non-finite element makes the whole block NaN (R50). -/
def Fmt.blockNan (f : Fmt) : Bool := f.isMx && f.nanBits == 0

/-- Divides a value by the scale that a byte gives. -/
def Val.unscaled (v : Val) (scale : Nat) : Val :=
  match v with
  | .fin m e => .fin m (e + 127 - (scale : Int))
  | x => x

/-- An MX block: its scale byte, and the bits and kind of each element (R49, R50, R52). The second component of an input
is the element's SR value. -/
def mxBlock (f : Fmt) (mode : Rnd) (l : List (Val × Nat)) : Nat × List (Nat × Kind) :=
  let bad := f.blockNan && l.any (fun x => !x.1.isFin)
  if bad then
    (0xFF, l.map (fun x => (0, if x.1.isFin then Kind.finite else Kind.nan)))
  else
    let s := mxScale f (l.map (·.1))
    (s, l.map (fun x => roundVal f mode x.2 (x.1.unscaled s)))

/-- Cuts a list into pieces of a size: at most the given count of pieces. -/
def chunks (size : Nat) : Nat → List α → List (List α)
  | 0, _ => []
  | n + 1, l => l.take size :: chunks size n (l.drop size)

/-- The bits of elements side by side. -/
def pack (w : Nat) : List Nat → Nat
  | [] => 0
  | v :: vs => v + 2 ^ w * pack w vs

/-! ### The exact accumulator (R42, R44, R50) -/

def Acc.zero : Acc := { val := 0, nan := false, pinf := false, ninf := false }

/-- Adds one contribution. Bit 0 of VALUE has weight 2^-286. -/
def Acc.add (a : Acc) (v : Val) : Acc :=
  match v with
  | .nan => { a with nan := true }
  | .inf false => { a with pinf := true }
  | .inf true => { a with ninf := true }
  | .fin m e => { a with val := a.val + BitVec.ofInt 640 (shiftUp m (e + 286)) }

/-- Adds an accumulator to another. -/
def Acc.join (a b : Acc) : Acc :=
  { val := a.val + b.val, nan := a.nan || b.nan, pinf := a.pinf || b.pinf, ninf := a.ninf || b.ninf }

/-- The value that an accumulator rounds from (R50). -/
def Acc.value (a : Acc) : Val :=
  if a.nan || (a.pinf && a.ninf) then .nan
  else if a.pinf then .inf false
  else if a.ninf then .inf true
  else .fin a.val.toInt (-286)

/-- The 96-byte spill record (R44). -/
def Acc.spill (a : Acc) : List Byte :=
  leBytes 80 a.val.toNat ++
    leBytes 16 ((if a.nan then 1 else 0) + (if a.pinf then 2 else 0) + if a.ninf then 4 else 0)

def Acc.ofSpill (bs : List Byte) : Acc :=
  let fl := peek bs 80 1
  { val := BitVec.ofNat 640 (peek bs 0 80), nan := bitAt fl 0, pinf := bitAt fl 1, ninf := bitAt fl 2 }

/-! ### The exact reduction format (R53, R56 to R59, R121) -/

/-- What an output leaves: NaN and infinite elements (R52), and under toe, non-finite and overtopping of XR (R121). -/
structure Tally where
  nan : Nat
  inf : Nat
  under : Nat
  xrNonfin : Nat
  ovt : Bool
  deriving DecidableEq, Repr, Inhabited

def Tally.zero : Tally := { nan := 0, inf := 0, under := 0, xrNonfin := 0, ovt := false }

def Tally.join (a b : Tally) : Tally :=
  { nan := a.nan + b.nan, inf := a.inf + b.inf, under := a.under + b.under,
    xrNonfin := a.xrNonfin + b.xrNonfin, ovt := a.ovt || b.ovt }

/-- What one element counts as where it is written in two copies: it counts once (R117). -/
def Kind.either (a b : Kind) : Kind := if a = .finite then b else a

def Tally.ofKinds (l : List Kind) : Tally :=
  { Tally.zero with nan := l.countP (· == .nan), inf := l.countP (· == .inf) }

def crestOk (crest : Int) : Bool := decide (-224 ≤ crest) && decide (crest ≤ 287)

/-- An integer saturated to 64 signed bits. -/
def sat64 (n : Int) : Int := max (-(2 ^ 63)) (min (2 ^ 63 - 1) n)

/-- m × 2^k truncated toward zero. -/
def truncShift (m : Int) (k : Int) : Int :=
  if 0 ≤ k then shiftUp m k else Int.tdiv m (2 ^ (-k).toNat)

/-- Whether m × 2^k has nonzero bits below 1. -/
def fracBits (m : Int) (k : Int) : Bool := decide (k < 0) && m.natAbs % 2 ^ (-k).toNat != 0

/-- Converts one contribution to XR (R56 to R59, R121): its 64 bits and what it leaves. -/
def toXr (crest : Int) (v : Val) : Nat × Tally :=
  match v with
  | .fin m e =>
    if crestOk crest then
      let k := e - (crest - 62)
      let n := truncShift m k
      ((BitVec.ofInt 64 (sat64 n)).toNat,
       { Tally.zero with under := if fracBits m k then 1 else 0, ovt := decide (n ≠ sat64 n) })
    else (0, { Tally.zero with ovt := true })
  | _ => (0, { Tally.zero with xrNonfin := 1, ovt := !crestOk crest })

/-! ### What outputs leave in the state (R52, R121, R288) -/

/-- Adds to the polder's XR ledger on a tile (R288). The most recently used entry stands last; a 17th entry sends the
least recently used one to curator 0. -/
def State.ledgerAdd (s : State) (t : Nat) (tensor : Word) (y : Tally) : State :=
  let l := (s.tile t).ledger
  let old := (l.find? (fun e => e.tensor == tensor)).getD { tensor := tensor, under := 0, nonfin := 0, ovt := false }
  let new : LedgerRec := { tensor := tensor, under := old.under + dwordOf y.under,
                           nonfin := old.nonfin + dwordOf y.xrNonfin, ovt := old.ovt || y.ovt }
  let rest := l.filter (fun e => e.tensor != tensor)
  let p := ownerCode (s.tileOwner t)
  if rest.length < 16 then s.modTile t (fun x => { x with ledger := rest ++ [new] })
  else
    (s.modTile t (fun x => { x with ledger := rest.drop 1 ++ [new] })).modNets
      (fun n => { n with ledgers := n.ledgers ++ (rest.take 1).map (fun e => { polder := p, tile := t, entry := e }) })

/-- Sends a count of non-finite events of one kind to curator 0 (R52, R274). -/
def State.sendNonFinite (s : State) (t q code count : Nat) (tensor : Word) : State :=
  if count = 0 then s
  else s.modNets (fun n => { n with events := n.events ++
    [{ polder := ownerCode (s.tileOwner t), tile := t, q := q, code := code, tensor := tensor
       step := s.stepOf (ownerCode (s.tileOwner t)), mbIndex := (s.pld (ownerCode (s.tileOwner t))).mbIndex, count := count
       opened := (s.pld (ownerCode (s.tileOwner t))).train.opened }] })

/-- The registers in which an engine reports: non-finite count, XR status and under-toe count (R124, R149, R166). -/
structure OutRegs where
  nonfin : Nat
  xrSts : Nat
  under : Nat

/-- Books what an output left: the engine's registers, the polder's non-finite events and the tile's ledger. -/
def State.book (s : State) (t q : Nat) (rg : OutRegs) (xr : Bool) (tensor : Word) (y : Tally) : State :=
  let s := if y.nan + y.inf = 0 then s else s.bump rg.nonfin (y.nan + y.inf)
  let s := if xr then
      let bits := (if y.ovt then 1 else 0) + (if y.xrNonfin = 0 then 0 else 2) + if y.under = 0 then 0 else 4
      let s := s.setReg rg.xrSts (s.reg rg.xrSts ||| wordOf bits)
      let s := s.bump64 rg.under y.under
      s.ledgerAdd t tensor y
    else s
  let s := s.sendNonFinite t q 0x0701 y.nan tensor
  let s := s.sendNonFinite t q 0x0702 y.inf tensor
  s.sendNonFinite t q 0x0703 y.xrNonfin tensor

end Sys2Proof.Machine
end

