-- ==== Sys2Proof/Machine/Evaluators.lean ====
section
/-!
DEFINITION. The evaluators of the drain and of the vector unit: the exact functions, and the FP32 results that their bounds admit
(R118, R158).
-/

namespace Sys2Proof.Machine

/-! ### Fixed-point numbers: an integer n stands for n × 2^-512 -/

def fxBits : Nat := 512
def fxOne : Int := 2 ^ fxBits
def fxMul (a b : Int) : Int := a * b / fxOne
def fxDiv (a b : Int) : Int := a * fxOne / b

/-- A finite value, which every FP32 number is exactly. -/
def fxOf (m e : Int) : Int := shiftUp m (e + fxBits)

/-- x × 2^n. -/
def fxShift (x n : Int) : Int := x * 2 ^ n.toNat / 2 ^ (-n).toNat

/-- ln 2 as the sum of 1 / (k × 2^k). -/
def fxLn2 : Int := (List.range fxBits).foldl (fun s k => s + fxOne / ((k + 1) * 2 ^ (k + 1) : Nat)) 0

/-- The arc tangent of 1 / m as its series. -/
def fxAtanInv (m : Nat) : Int :=
  (List.range 120).foldl (fun s k => let t := fxOne / ((2 * k + 1) * m ^ (2 * k + 1) : Nat); if k % 2 = 0 then s + t else s - t) 0

/-- 2π by Machin's sum. -/
def fxTwoPi : Int := 8 * (4 * fxAtanInv 5 - fxAtanInv 239)

/-- The square root of a natural number below 4^k on top of a partial root, one bit at a time. -/
def rootBits (n : Nat) : Nat → Nat → Nat
  | 0, r => r
  | k + 1, r => rootBits n k (if (r + 2 ^ k) * (r + 2 ^ k) ≤ n then r + 2 ^ k else r)

def fxSqrt (x : Int) : Int := rootBits (x * fxOne).toNat 704 0

/-- e^r for r in [0, 1), as 1 + r × (1 + r/2 × (1 + r/3 × …)). -/
def fxExpSmall (r : Int) : Int := ((List.range 120).reverse).foldl (fun a k => fxOne + fxMul r a / ((k + 1 : Nat) : Int)) fxOne

/-- e^x: below 2^-1024 it counts as 0, and an x beyond 256 as 256. -/
def fxExp (x : Int) : Int :=
  if x < -1024 * fxOne then 0
  else
    let x := min x (256 * fxOne)
    let n := x / fxLn2
    fxShift (fxExpSmall (x - n * fxLn2)) n

/-- 2^x, in the same range. -/
def fxExp2 (x : Int) : Int :=
  if x < -1024 * fxOne then 0
  else
    let n := min x (256 * fxOne) / fxOne
    fxShift (fxExpSmall (fxMul (min x (256 * fxOne) - n * fxOne) fxLn2)) n

/-- The binary logarithm of m in [1, 2), one bit of weight w at a time. -/
def log2Bits : Nat → Int → Int → Int → Int
  | 0, _, _, a => a
  | k + 1, m, w, a =>
    let q := fxMul m m
    if 2 * fxOne ≤ q then log2Bits k (q / 2) (w / 2) (a + w / 2) else log2Bits k q (w / 2) a

/-- The binary logarithm of a positive FP32 number m × 2^e. -/
def fxLog2 (m e : Int) : Int :=
  let k := Nat.log2 m.toNat
  (e + k) * fxOne + log2Bits 300 (fxOf m (-k)) fxOne 0

/-- 1/√(m × 2^e) of a positive FP32 number. -/
def fxRsqrt (m e : Int) : Int := fxSqrt (fxDiv fxOne (fxOf m e))

def fxSigmoid (x : Int) : Int :=
  if 0 ≤ x then fxDiv fxOne (fxOne + fxExp (-x)) else fxDiv (fxExp x) (fxOne + fxExp x)

def fxTanh (x : Int) : Int :=
  let e := fxExp (-2 * (x.natAbs : Int))
  x.sign * fxDiv (fxOne - e) (fxOne + e)

/-- φ(z), the density of the standard normal distribution. -/
def fxDensity (z : Int) : Int := fxDiv (fxExp (-(fxMul z z) / 2)) (fxSqrt fxTwoPi)

/-- Φ(z), its distribution: 1/2 + φ(z) × (z + z³/3 + z⁵/(3 × 5) + …), and 0 or 1 beyond ±16. -/
def fxNormal (z : Int) : Int :=
  if 16 * fxOne < z then fxOne
  else if z < -16 * fxOne then 0
  else
    let sq := fxMul z z
    let odd := ((List.range 800).reverse).foldl (fun a k => fxOne + fxMul sq a / ((2 * k + 3 : Nat) : Int)) fxOne
    fxOne / 2 + fxMul (fxDensity z) (fxMul z odd)

/-! ### The functions (R118, R158) -/

/-- The value of a function at a finite input of its domain: the vector unit's by OP code, the drain's by DRAIN_FN and 0x100. -/
def exactValue (fn : Nat) (m e : Int) : Int :=
  let x := fxOf m e
  match fn with
  | 0x10 => fxExp2 x
  | 0x11 => fxExp x
  | 0x12 => fxLog2 m e
  | 0x14 => fxRsqrt m e
  | 0x15 => fxSigmoid x
  | 0x16 => fxTanh x
  | 0x105 => fxMul x (fxNormal x)
  | 0x106 => fxNormal x + fxMul x (fxDensity x)
  | 0x107 => fxMul x (fxSigmoid x)
  | 0x108 => fxMul (fxSigmoid x) (fxOne + fxMul x (fxSigmoid (-x)))
  | _ => fxTanh x

/-- The bound of a function in ulp. -/
def ulpBound (fn : Nat) : Nat := if fn = 0x10 || fn = 0x12 || fn = 0x14 then 1 else 2

/-- The weight of the last FP32 bit at a magnitude. -/
def fxUlp (y : Nat) : Int := fxShift fxOne (max ((Nat.log2 y : Int) - fxBits) (-126) - 23)

/-- An FP32 number from a sign and a magnitude that may lie below zero. -/
def signedBits (neg : Bool) (n : Int) : Nat := signBit .fp32 (if n < 0 then !neg else neg) + n.natAbs

/-- The FP32 results within a bound of y: those near its truncation that a comparison admits. A zero takes the sign given. -/
def within (bound : Nat) (y : Int) (neg : Bool) : List Nat :=
  let neg := if y = 0 then neg else decide (y < 0)
  let base := (roundFrac .fp32 .rtz 0 false y.natAbs (2 ^ fxBits)).1
  ((List.range 9).map (fun (d : Nat) => signedBits neg ((base : Int) + d - 4))).filter (fun b =>
    match fp32 b with
    | .fin m e => decide (((fxOf m e - y).natAbs : Int) ≤ bound * fxUlp y.natAbs)
    | _ => false)

/-- A member of a list that a number picks. -/
def pickOf (l : List Nat) (n : Nat) : Nat := (l[n % l.length]?).getD 0

/-- The magnitudes of the finite normal FP32 numbers. -/
def fxNormalRange (y : Nat) : Bool := decide (fxShift fxOne (-126) ≤ y) && decide ((y : Int) < fxShift fxOne 128)

/-- The FP32 result of an evaluator for a finite input: among the results within its bound, the one that the arithmetic revision
has, a free choice. The vector unit's bound holds where the exact result is normal, and any result may come elsewhere (R118, R158;
log entry 5). -/
def evaluate (fn w : Nat) : Nat :=
  let free := (Config.evaluator fn (wordOf w)).toNat
  match fp32 w with
  | .fin m e =>
    let y := exactValue fn m e
    if decide (0x100 ≤ fn) || fxNormalRange y.natAbs then pickOf (within (ulpBound fn) y (bitAt w 31)) free else free
  | _ => free

end Sys2Proof.Machine
end

