-- ==== Sys2Proof/Machine/Counters.lean ====
section
/-!
DEFINITION. Event counters, the schedule monitor that observes them, and what a met checkpoint sets off (R71 to R74, R249 to R255, R288).
-/

namespace Sys2Proof.Machine

/-! ### Schedule monitor -/

/-- The deadline of a checkpoint once its anchor has been stamped (R251). -/
def Monitor.deadline (m : Monitor) (c : Checkpoint) : Option Dword :=
  (m.anchors.find? (fun a => a.1 == c.anchor)).map (fun a => a.2 + dwordOf c.bound)

/-- Whether checkpoint i has been met: OCCUR increments of its counter since the slot start (R249). -/
def Monitor.met (m : Monitor) (c : Checkpoint) : Bool := decide (c.occur ≤ Table.get 0 m.counts c.ctr)

/-- Whether the tile has met the last checkpoint of the slot (R246, R249). -/
def Monitor.slotEnd (m : Monitor) : Bool :=
  match m.cps.getLast? with
  | some c => m.met c
  | none => true

/-- The index of the next checkpoint to meet. -/
def Monitor.nextIdx (m : Monitor) : Nat := (m.cps.takeWhile m.met).length

/-- Whether a counter is marked external (R247). -/
def Monitor.external (m : Monitor) (c : Nat) : Bool := bitAt m.mask.toNat c

/-- The monitor at a slot start stamped by a counter of the die's nc domain (R251). -/
def Monitor.startSlot (m : Monitor) (stamp : Dword) : Monitor :=
  { m with next := 0, anchors := [(0, stamp)], grants := 0, counts := [], overrun := false, suspended := false, late := [] }

/-- TIMING_VOID is set and stays set (R254). -/
def State.setVoid (s : State) (p : Nat) : State :=
  s.setReg (pldReg p 0x100) (s.reg (pldReg p 0x100) ||| 2)

/-- Counts one overrun of a checkpoint, records the first one, and raises 0x0401 at the first under OVERRUN_FATAL (R252, R253). -/
def State.countOverrun (s : State) (p t idx : Nat) (near : Bool) : State :=
  let first := s.reg64 (pldReg p 0x140) == 0
  let s := (s.bump64 (pldReg p 0x140) 1).setVoid p
  let s := s.modTile t (fun x => { x with mon := { x.mon with overrun := true } })
  if first then
    let s := s.setReg (pldReg p 0x148) (wordOf (t + idx * 2 ^ 8 + if near then 2 ^ 14 else 0))
    let s := s.setReg (pldReg p 0x14C) (wordOf ((s.pld p).slotNo - 1))
    let s := s.setIrq (pldReg p 0) (2 ^ 8)
    if (s.pld p).cat.fatal then s.raisePart p 0x0401 0xFFFF 0 else s
  else s

/-- Whether the first overrun on record is the given checkpoint of this slot and its lateness is still to come. -/
def State.firstPending (s : State) (p t idx : Nat) : Bool :=
  s.reg64 (pldReg p 0x140) != 0 && field (s.reg (pldReg p 0x148)).toNat 0 14 == t + idx * 2 ^ 8
    && s.reg (pldReg p 0x14C) == wordOf ((s.pld p).slotNo - 1) && s.reg (pldReg p 0x150) == 0

/-- Records the lateness of a checkpoint that arrives after its deadline (R252, R256, R257). -/
def State.recordLate (s : State) (p t idx lateness : Nat) (near : Bool) : State :=
  let w := wordOf (min lateness (2 ^ 32 - 1))
  let s := s.setReg (tilReg t 0x6C) w
  let s := if s.firstPending p t idx then
      (s.setReg (pldReg p 0x150) w).setReg (pldReg p 0x148)
        (s.reg (pldReg p 0x148) ||| if near then 0x4000 else 0)
    else s
  if s.reg (pldReg p 0x154) < w then s.setReg (pldReg p 0x154) w else s

/-- A checkpoint event is near its deadline by R252, or an edge of its on-time window [anchor, deadline + 1) by R432. -/
def Monitor.nearStamp (m : Monitor) (c : Checkpoint) (deadline stamp : Dword) : Bool :=
  closeTo stamp deadline || closeTo stamp (deadline + 1) || (m.anchors.find? (fun a => a.1 == c.anchor)).any (fun a => closeTo stamp a.2)

/-- A checkpoint event is stamped: on time, or late with its overrun counted once (R251, R252). -/
def State.checkpointMet (s : State) (p t idx : Nat) (c : Checkpoint) : State :=
  let m := (s.tile t).mon
  if m.suspended then s
  else match m.deadline c with
    | none => s.modTile t (fun x => { x with mon := { x.mon with near := false } })
    | some d =>
      let st := s.now (ncDom (dieOfTile t))
      let near := m.nearStamp c d st
      let s := s.modTile t (fun x => { x with mon := { x.mon with near := near } })
      if d < st then
        let s := if m.late.any (fun l => l.1 == idx) then s else s.countOverrun p t idx near
        let s := s.modTile t (fun x => { x with mon := { x.mon with late := x.mon.late.filter (fun l => l.1 != idx) } })
        s.recordLate p t idx (st - d).toNat near
      else s

/-- At its last checkpoint of a slot a tile sends every ledger entry and empties the ledger (R288). -/
def State.flushLedger (s : State) (p t : Nat) : State :=
  let es := ((s.tile t).ledger).map (fun e => ({ polder := p, tile := t, entry := e } : LedgerMsg))
  (s.modTile t (fun x => { x with ledger := [] })).modNets (fun n => { n with ledgers := n.ledgers ++ es })

/-- Every tile of a polder has met its last checkpoint of the slot. -/
def State.slotOver (s : State) (p : Nat) : Bool := (s.pld p).tiles.all (fun t => (s.tile t).mon.slotEnd)

/-- The last tile's last checkpoint is stamped for PLD_PAD_CC, and the Slots phase ends when every index has run (R246, R259). -/
def State.endSlots (s : State) (p : Nat) : State :=
  let s := if s.slotOver p then s.modPld p (fun x => { x with metCc := s.cc }) else s
  let x := s.pld p
  if x.train.phase == .slots && x.train.ran.length == x.cat.mbPerStep && s.slotOver p then
    s.modPld p (fun x => { x with train := { x.train with phase := .reducing } })
  else s

/-- The slot start of the tile's slot has been stamped (R251). -/
def Monitor.inSlot (m : Monitor) : Bool := !m.anchors.isEmpty

/-- The monitor observes an increment of a counter, of which it counts those since the slot start (R249, R251). -/
def State.observe (s : State) (t c : Nat) : State :=
  if !(s.tile t).mon.inSlot then s
  else
  let p := ownerCode (s.tileOwner t)
  let s := s.modTile t (fun x => { x with mon := { x.mon with counts := Table.put 0 x.mon.counts c (Table.get 0 x.mon.counts c + 1) } })
  let m := (s.tile t).mon
  let n := Table.get 0 m.counts c
  let hits := (m.cps.zipIdx).filter (fun e => e.1.ctr == c && e.1.occur == n)
  let s := s.forEach hits (fun s e => s.checkpointMet p t e.2 e.1)
  if hits.any (fun e => e.2 + 1 == m.cps.length) then (s.flushLedger p t).endSlots p else s

/-! ### Counters -/

/-- Increments an event counter, or raises 0x0113 where it would pass 0xFFFF_FFFF (R71, R74). -/
def State.increment (s : State) (t c : Nat) : State :=
  let v := (s.tile t).ctr c
  if v = 0xFFFFFFFF then s.raiseTile t 1 0x0113 0
  else (s.modTile t (fun x => x.setCtr c (v + 1))).observe t c

/-- The part's own increment of SLOT_CTR at a slot start, which no checkpoint counts (R246, R249). -/
def State.incrementSlot (s : State) (t c : Nat) : State :=
  let v := (s.tile t).ctr c
  if v = 0xFFFFFFFF then s.raiseTile t 1 0x0113 0 else s.modTile t (fun x => x.setCtr c (v + 1))

/-- Closes the first watch entry, in completion order, whose descriptor has signalled the counter now granted (R208). -/
def closeWatch (c : Nat) : List Watch → List Watch
  | [] => []
  | w :: ws => if w.signalled && w.ctr == c then ws else w :: closeWatch c ws

/-- Grants a waiter: the counter falls by one, a watch entry may close, and an explicit wait counts and stamps its anchor of the
slot (R71, R208, R247, R249, R251). -/
def State.grant (s : State) (t c : Nat) : State :=
  let p := ownerCode (s.tileOwner t)
  let s := s.modTile t (fun x => { x.setCtr c (x.ctr c - 1) with watches := closeWatch c x.watches })
  if (s.tile t).mon.external c then
    let st := s.now (ncDom (dieOfTile t))
    let s := s.modTile t (fun x => if x.mon.inSlot then { x with mon := { x.mon with
      grants := x.mon.grants + 1, anchors := x.mon.anchors ++ [(x.mon.grants + 1, st)] } } else x)
    s.bump (pldReg p 0x15C) 1
  else s

/-! ### What is in flight on a tile -/

/-- Requests of a tile in flight (R90). -/
def State.inFlight (s : State) (t : Nat) : Nat := s.store.reqs.countP (fun r => r.tile == t)

/-- A queue is empty and its engine has completed all its commands (R78 FENCE). -/
def Tile.drained (x : Tile) (q : Nat) : Bool := (x.engine q).queue.isEmpty && (x.engine q).active.isEmpty

/-- Every queue is empty, every engine has completed and no request is in flight (R94). -/
def State.tileIdle (s : State) (t : Nat) : Bool :=
  (List.range 7).all (fun q => (s.tile t).drained q) && s.inFlight t == 0

/-- The polder of a tile is not stopped by a clearing (R356 step 2). -/
def State.tileLive (s : State) (t : Nat) : Bool :=
  match s.tileOwner t with
  | none => false
  | some p => match (s.pld p).state with
    | .loaded => true
    | .running => true
    | .complete => true
    | _ => false

/-- The TCC enters DONE (R93, R94). -/
def State.enterDone (s : State) (t : Nat) : State :=
  (s.modTcc t (fun x => { x with state := .done })).setIrq (tilePage t) (2 ^ (8 + colOfTile t))

end Sys2Proof.Machine
end

