-- ==== Sys2Proof/Machine/Tcc.lean ====
section
/-!
DEFINITION. The tile control core: instruction words, issue, branches and prediction, stalls, and the meaning of each TCC instruction.
-/

namespace Sys2Proof.Machine

/-! ### Instruction words (R77, R78, R530) -/

/-- A TCC instruction beside its guard. -/
inductive TccOp where
  | alu (rd ra rb : BitVec 5) (func : BitVec 7)
  | addi (rd ra : BitVec 5) (imm : BitVec 12)
  | andi (rd ra : BitVec 5) (imm : BitVec 12)
  | ori (rd ra : BitVec 5) (imm : BitVec 12)
  | xori (rd ra : BitVec 5) (imm : BitVec 12)
  | shi (rd ra : BitVec 5) (imm : BitVec 12)
  | movi (rd : BitVec 5) (imm : BitVec 17)
  | lui (rd : BitVec 5) (imm : BitVec 17)
  | ldw (rd ra : BitVec 5) (imm : BitVec 12)
  | stw (rd ra : BitVec 5) (imm : BitVec 12)
  | cmp (pd : BitVec 3) (ra rb : BitVec 5) (cond : BitVec 3)
  | plog (pd pa pb : BitVec 3) (func : BitVec 2)
  | br (off : BitVec 22)
  | call (off : BitVec 22)
  | jr (ra : BitVec 5)
  | cmd (q : BitVec 3) (ra : BitVec 5)
  | waitev (ra : BitVec 5) (imm : BitVec 12)
  | sigev (ra : BitVec 5) (imm : BitVec 12)
  | fence (imm : BitVec 12)
  | spxr (ra : BitVec 5) (imm : BitVec 12)
  | spxw (ra : BitVec 5) (imm : BitVec 12)
  | rdcsr (rd : BitVec 5) (imm : BitVec 12)
  | halt
  deriving DecidableEq, Repr

/-- Bits [31:22]: opcode and guard (R77). -/
def wordHead (op : Nat) (g : Guard) : Nat := op * 2 ^ 26 + g.pg.toNat * 2 ^ 23 + if g.inv then 2 ^ 22 else 0

/-- The RI and SY layouts, and RR with func and rb in the low 12 bits (R77). -/
def wordRI (op : Nat) (g : Guard) (rd ra : BitVec 5) (low : Nat) : Nat :=
  wordHead op g + rd.toNat * 2 ^ 17 + ra.toNat * 2 ^ 12 + low

/-- The word of an instruction (R77, R78). -/
def encodeTcc (g : Guard) : TccOp → Nat
  | .alu rd ra rb func => wordRI 0x00 g rd ra (rb.toNat * 2 ^ 7 + func.toNat)
  | .addi rd ra imm => wordRI 0x01 g rd ra imm.toNat
  | .andi rd ra imm => wordRI 0x02 g rd ra imm.toNat
  | .ori rd ra imm => wordRI 0x03 g rd ra imm.toNat
  | .xori rd ra imm => wordRI 0x04 g rd ra imm.toNat
  | .shi rd ra imm => wordRI 0x05 g rd ra imm.toNat
  | .movi rd imm => wordHead 0x06 g + rd.toNat * 2 ^ 17 + imm.toNat
  | .lui rd imm => wordHead 0x07 g + rd.toNat * 2 ^ 17 + imm.toNat
  | .ldw rd ra imm => wordRI 0x08 g rd ra imm.toNat
  | .stw rd ra imm => wordRI 0x09 g rd ra imm.toNat
  | .cmp pd ra rb cond => wordHead 0x0A g + pd.toNat * 2 ^ 19 + ra.toNat * 2 ^ 12 + rb.toNat * 2 ^ 7 + cond.toNat
  | .plog pd pa pb func => wordHead 0x0C g + pd.toNat * 2 ^ 19 + pa.toNat * 2 ^ 16 + pb.toNat * 2 ^ 13 + func.toNat
  | .br off => wordHead 0x10 g + off.toNat
  | .call off => wordHead 0x11 g + off.toNat
  | .jr ra => wordRI 0x12 g 0 ra 0
  | .cmd q ra => wordRI 0x18 g (q.setWidth 5) ra 0
  | .waitev ra imm => wordRI 0x19 g 0 ra imm.toNat
  | .sigev ra imm => wordRI 0x1A g 0 ra imm.toNat
  | .fence imm => wordRI 0x1C g 0 0 imm.toNat
  | .spxr ra imm => wordRI 0x1D g 0 ra imm.toNat
  | .spxw ra imm => wordRI 0x1E g 0 ra imm.toNat
  | .rdcsr rd imm => wordRI 0x1F g rd 0 imm.toNat
  | .halt => wordHead 0x3F g

/-- Whether the fields of an instruction use only defined codes and leave its reserved fields 0 (R78, R79, R530). -/
def TccOp.defined : TccOp → Bool
  | .alu _ _ _ func => decide (func.toNat ≤ 0x0D)
  | .shi _ _ imm => field imm.toNat 7 5 == 0 && field imm.toNat 5 2 != 3
  | .lui _ imm => !bitAt imm.toNat 16
  | .cmp _ _ _ cond => decide (cond.toNat ≤ 5)
  | .cmd q _ => decide (q.toNat ≤ 6)
  | .waitev ra imm => field imm.toNat 9 3 == 0 && if bitAt imm.toNat 8 then field imm.toNat 0 8 == 0 else ra == 0
  | .sigev ra imm => field imm.toNat 9 3 == 0 && if bitAt imm.toNat 8 then field imm.toNat 0 8 == 0 else ra == 0
  | .fence imm => field imm.toNat 7 5 == 0
  | .spxr _ imm => field imm.toNat 5 7 == 0
  | .spxw _ imm => field imm.toNat 5 7 == 0
  | .rdcsr _ imm => decide (imm.toNat ≤ 6)
  | _ => true

/-- The fields of a word under its opcode's layout, whatever its reserved fields hold. -/
def readTcc (w : Nat) : Option TccOp :=
  let rd := BitVec.ofNat 5 (field w 17 5)
  let ra := BitVec.ofNat 5 (field w 12 5)
  let rb := BitVec.ofNat 5 (field w 7 5)
  let imm := BitVec.ofNat 12 (field w 0 12)
  let imm17 := BitVec.ofNat 17 (field w 0 17)
  let off := BitVec.ofNat 22 (field w 0 22)
  match field w 26 6 with
  | 0x00 => some (.alu rd ra rb (BitVec.ofNat 7 (field w 0 7)))
  | 0x01 => some (.addi rd ra imm)
  | 0x02 => some (.andi rd ra imm)
  | 0x03 => some (.ori rd ra imm)
  | 0x04 => some (.xori rd ra imm)
  | 0x05 => some (.shi rd ra imm)
  | 0x06 => some (.movi rd imm17)
  | 0x07 => some (.lui rd imm17)
  | 0x08 => some (.ldw rd ra imm)
  | 0x09 => some (.stw rd ra imm)
  | 0x0A => some (.cmp (BitVec.ofNat 3 (field w 19 3)) ra rb (BitVec.ofNat 3 (field w 0 3)))
  | 0x0C => some (.plog (BitVec.ofNat 3 (field w 19 3)) (BitVec.ofNat 3 (field w 16 3)) (BitVec.ofNat 3 (field w 13 3))
      (BitVec.ofNat 2 (field w 0 2)))
  | 0x10 => some (.br off)
  | 0x11 => some (.call off)
  | 0x12 => some (.jr ra)
  | 0x18 => some (.cmd (BitVec.ofNat 3 (field w 17 3)) ra)
  | 0x19 => some (.waitev ra imm)
  | 0x1A => some (.sigev ra imm)
  | 0x1C => some (.fence imm)
  | 0x1D => some (.spxr ra imm)
  | 0x1E => some (.spxw ra imm)
  | 0x1F => some (.rdcsr rd imm)
  | 0x3F => some .halt
  | _ => none

/-- The guard of a word (R77). -/
def guardOf (w : Nat) : Guard := { pg := BitVec.ofNat 3 (field w 23 3), inv := bitAt w 22 }

/-- The instruction that a word spells, or none for an undefined opcode or code or a 1 in a reserved field (R79, R530). -/
def decodeTcc (w : Nat) : Option (Guard × TccOp) :=
  match readTcc w with
  | none => none
  | some op => if op.defined && encodeTcc (guardOf w) op == w then some (guardOf w, op) else none

/-! ### Registers (R76) -/

def Tcc.s (x : Tcc) (i : BitVec 5) : Word := if i = 0 then 0 else Table.get 0 x.sregs i.toNat
def Tcc.setS (x : Tcc) (i : BitVec 5) (v : Word) : Tcc :=
  if i = 0 then x else { x with sregs := Table.put 0 x.sregs i.toNat v }
def Tcc.p (x : Tcc) (i : BitVec 3) : Bool := if i = 0 then true else Table.get false x.pregs i.toNat
def Tcc.setP (x : Tcc) (i : BitVec 3) (v : Bool) : Tcc :=
  if i = 0 then x else { x with pregs := Table.put false x.pregs i.toNat v }

/-- What a guard reads (R77). -/
def Tcc.guard (x : Tcc) (g : Guard) : Bool := x.p g.pg != g.inv

def Tcc.advance (x : Tcc) : Tcc := { x with pc := x.pc + 4 }

/-! ### Operations of R78 -/

def shiftOp (code : Nat) (a : Word) (n : Nat) : Word :=
  match code with
  | 0 => a <<< n
  | 1 => a >>> n
  | _ => a.sshiftRight n

/-- ra func rb. -/
def aluOp (func : Nat) (a b : Word) : Word :=
  match func with
  | 0x00 => a + b
  | 0x01 => a - b
  | 0x02 => a &&& b
  | 0x03 => a ||| b
  | 0x04 => a ^^^ b
  | 0x05 => shiftOp 0 a (b.toNat % 32)
  | 0x06 => shiftOp 1 a (b.toNat % 32)
  | 0x07 => shiftOp 2 a (b.toNat % 32)
  | 0x08 => a * b
  | 0x09 => wordOf (a.toNat * b.toNat / 2 ^ 32)
  | 0x0A => if a.slt b then a else b
  | 0x0B => if a.slt b then b else a
  | 0x0C => if a < b then a else b
  | _ => if a < b then b else a

def compareOp (cond : Nat) (a b : Word) : Bool :=
  match cond with
  | 0 => a == b
  | 1 => a != b
  | 2 => a.slt b
  | 3 => !a.slt b
  | 4 => decide (a < b)
  | _ => !decide (a < b)

def predOp (func : Nat) (a b : Bool) : Bool :=
  match func with
  | 0 => a && b
  | 1 => a || b
  | 2 => a != b
  | _ => a && !b

/-- Counts an instruction as retired (R92). -/
def State.retire (s : State) (t : Nat) (f : Tcc → Tcc) : State := (s.modTcc t f).bump64 (tilReg t 0x40) 1

/-- A TCC stalls at issue: WAITING until the stall's condition ends (R82, R94). -/
def State.stallTcc (s : State) (t : Nat) (r : Stall) : State :=
  s.modTcc t (fun x => { x with state := .waiting, stall := some r, stallAc := s.now (acDom (dieOfTile t)) })

/-- The ac that the stall under way has lasted (R82). -/
def State.stallAge (s : State) (t : Nat) : Nat := (s.now (acDom (dieOfTile t)) - (s.tile t).tcc.stallAc).toNat

/-- The register that counts a stall: TIL_STALL_SPP for a scratchpad slot, TIL_STALL_Q for any other (R92). -/
def Stall.reg : Stall → Nat
  | .port => 0x50
  | _ => 0x4C

/-- The ac of a stall under way that its register shows while it lasts (R92, R96). -/
def State.stallShown (s : State) (t off : Nat) : Nat :=
  match (s.tile t).tcc.stall with
  | some r => if r.reg = off then s.stallAge t else 0
  | none => 0

/-- The stall under way, if any, ends: its ac go to its register. -/
def State.countStall (s : State) (t : Nat) : State :=
  match (s.tile t).tcc.stall with
  | some r => (s.bump (tilReg t r.reg) (s.stallAge t)).modTcc t (fun x => { x with stall := none })
  | none => s

/-- A stall ends and the core runs again (R82, R94). -/
def State.endStall (s : State) (t : Nat) : State := (s.countStall t).modTcc t (fun x => { x with state := .running })

/-! ### Branches (R83) -/

def bhtIndex (pc : BitVec 16) (hist : BitVec 9) : Nat := ((pc.toNat / 4 % 512) ^^^ hist.toNat)

/-- A conditional branch resolves: its counter and the history are updated, and a wrong prediction is counted. The history
holds the newest outcome in bit 0, 1 for taken. DESIGN CHOICE: log entry 125. -/
def State.resolve (s : State) (t : Nat) (taken : Bool) : State :=
  let x := (s.tile t).tcc
  let i := bhtIndex x.pc x.history
  let c := Table.get 1 x.bht i
  let c' : BitVec 2 := if taken then (if c = 3 then 3 else c + 1) else if c = 0 then 0 else c - 1
  let s := s.modTcc t (fun x => { x with bht := Table.put 1 x.bht i c', history := (x.history <<< 1) ||| (if taken then 1 else 0) })
  if (decide (2 ≤ c)) == taken then s else s.bump (tilReg t 0x48) 1

/-- Whether a branch's guard makes it conditional: any guard that names another predicate than p0. -/
def guardConditional (g : Guard) : Bool := g.pg != 0

/-- The return stack holds eight entries; a ninth CALL drops the oldest (log entry 11). -/
def pushRas (l : List (BitVec 16)) (pc : BitVec 16) : List (BitVec 16) := (pc :: l).take 8

def branchTarget (pc : BitVec 16) (off : BitVec 22) : BitVec 16 := pc + BitVec.ofInt 16 (4 * off.toInt)

/-! ### Effects of the instructions -/

/-- The address of LDW and STW (R78). -/
def dataAddr (base : Word) (imm : BitVec 12) : Word := base + imm.signExtend 32

def dataAddrOk (a : Word) : Bool := decide (a.toNat < 2 ^ 14) && a.toNat % 4 == 0

/-- The counter that WAITEV and SIGEV name (R78). -/
def eventOf (x : Tcc) (ra : BitVec 5) (imm : BitVec 12) : Nat :=
  if bitAt imm.toNat 8 then (x.s ra).toNat % 256 else imm.toNat % 256

/-- The command that CMD pushes; a DMA command takes its shape record from row 31 of the data store (R67, R192). -/
def State.commandAt (s : State) (t q : Nat) (ra : BitVec 5) : Command :=
  let x := (s.tile t).tcc
  let w1 := x.s (ra + 1)
  let base := 15872 + 16 * field w1.toNat 13 5
  let shape := if q = 3 || q = 4 then (List.range 4).map (fun i => wordOf (s.dataWord t (base + 4 * i))) else []
  { w0 := x.s ra, w1 := w1, w2 := x.s (ra + 2), w3 := x.s (ra + 3), shape := shape }

/-- The value of a CSR (R80). -/
def State.csr (s : State) (t n : Nat) : Word :=
  let p := ownerCode (s.tileOwner t)
  match n with
  | 0 => wordOf t
  | 1 => wordOf p
  | 2 => s.stepOf p
  | 3 => (s.pld p).mbIndex
  | 4 => (s.now (acDom (dieOfTile t))).setWidth 32
  | 5 => (s.tile t).tcc.csrHigh
  | _ => wordOf (s.inFlight t)

/-- A corrected scratchpad read counts; an uncorrectable one counts and raises class 0x05 (R89, R186, R189). -/
def State.spadCorrected (s : State) (t row : Nat) : State :=
  (s.bump64 (tilReg t 0x58) 1).setReg (tilReg t 0x60) (wordOf row)

/-- The row is marked for a spare (R475). The kind is that of the master that asked for the row (log entry 12). -/
def State.spadLost (s : State) (t kind row : Nat) : State :=
  let s := s.modSpares (fun x => { x with spadPending := (x.spadPending ++ [(t, row)]).eraseDups })
  (s.bump (tilReg t 0x64) 1).raiseTile t kind (0x0550 + dieOfTile t) (row * 512)

/-- HALT's conditions for DONE hold, or the TCC stays HALTED (R94). -/
def State.haltTcc (s : State) (t : Nat) : State :=
  let s := s.retire t (fun x => { x.advance with state := .halted })
  if s.tileIdle t then s.enterDone t else s

/-- JR through s31 to the address on top of the return stack is the only predicted JR (R83). -/
def State.jump (s : State) (t : Nat) (ra : BitVec 5) : State :=
  let x := (s.tile t).tcc
  let a := x.s ra
  if a.toNat % 4 != 0 || decide (4 * x.instrs ≤ a.toNat) then s.raiseTile t 1 0x0110 0
  else
    let hit := ra == 31 && x.ras.head? == some (a.setWidth 16)
    let s := s.retire t (fun x => { x with pc := a.setWidth 16, ras := if ra = 31 then x.ras.drop 1 else x.ras })
    if hit then s else s.bump (tilReg t 0x48) 1

/-- The owner of the slot of a scratchpad port in which the die's ac counter stands: ports 0 and 1 read, port 2 writes (R87). -/
def State.slotOwner (s : State) (t port : Nat) : Nat :=
  let i := (s.now (acDom (dieOfTile t))).toNat % 16
  field (s.reg (tilReg t (0x20 + 8 * port + if i < 8 then 0 else 4))).toNat (4 * (i % 8)) 4

/-- A port grants the TCC's row copy: in a slot of its own always, in any other while no engine has a request, of which
`granted` tells while some engine of the tile runs a command (R87). -/
def State.portGrants (s : State) (t : Nat) (ports : List Nat) (granted : Bool) : Bool :=
  granted || ports.any (fun k => s.slotOwner t k == 9) || (List.range 6).all (fun q => ((s.tile t).engine q).active.isEmpty)

/-- Issues an instruction whose guard reads 1. `granted` is the scratchpad's answer to a row copy, `ecc` what its read finds. -/
def State.issue (s : State) (t : Nat) (op : TccOp) (granted : Bool) (ecc : RowEcc) : State :=
  let x := (s.tile t).tcc
  let write (rd : BitVec 5) (v : Word) := s.retire t (fun x => (x.setS rd v).advance)
  match op with
  | .alu rd ra rb func => write rd (aluOp func.toNat (x.s ra) (x.s rb))
  | .addi rd ra imm => write rd (x.s ra + imm.signExtend 32)
  | .andi rd ra imm => write rd (x.s ra &&& imm.setWidth 32)
  | .ori rd ra imm => write rd (x.s ra ||| imm.setWidth 32)
  | .xori rd ra imm => write rd (x.s ra ^^^ imm.setWidth 32)
  | .shi rd ra imm => write rd (shiftOp (field imm.toNat 5 2) (x.s ra) (imm.toNat % 32))
  | .movi rd imm => write rd (imm.signExtend 32)
  | .lui rd imm => write rd (((imm.setWidth 16).setWidth 32 <<< 16) ||| (x.s rd &&& 0xFFFF))
  | .ldw rd ra imm =>
    let a := dataAddr (x.s ra) imm
    if dataAddrOk a then write rd (wordOf (s.dataWord t a.toNat)) else s.raiseTile t 1 0x0111 0
  | .stw rd ra imm =>
    let a := dataAddr (x.s ra) imm
    if dataAddrOk a then (s.setDataBytes t a.toNat (leBytes 4 (x.s rd).toNat)).retire t Tcc.advance
    else s.raiseTile t 1 0x0111 0
  | .cmp pd ra rb cond => s.retire t (fun y => (y.setP pd (compareOp cond.toNat (x.s ra) (x.s rb))).advance)
  | .plog pd pa pb func => s.retire t (fun y => (y.setP pd (predOp func.toNat (x.p pa) (x.p pb))).advance)
  | .br off => s.retire t (fun y => { y with pc := branchTarget y.pc off })
  | .call off => s.retire t (fun y => { y.setS 31 (wordOf (y.pc.toNat + 4)) with
      pc := branchTarget y.pc off, ras := pushRas y.ras (y.pc + 4) })
  | .jr ra => s.jump t ra
  | .cmd q ra =>
    if 16 ≤ ((s.tile t).engine q.toNat).queue.length then s.stallTcc t (.queueFull q.toNat)
    else
      let c := s.commandAt t q.toNat ra
      (s.modEngine t q.toNat (fun e => { e with queue := e.queue ++ [c] })).retire t Tcc.advance
  | .waitev ra imm => s.stallTcc t (.waitev (eventOf x ra imm))
  | .sigev ra imm =>
    let c := eventOf x ra imm
    if (s.tile t).ctr c = 0xFFFFFFFF then s.increment t c else (s.increment t c).retire t Tcc.advance
  | .fence imm =>
    if (List.range 7).all (fun q => !bitAt imm.toNat q || (s.tile t).drained q) then s.retire t Tcc.advance
    else s.stallTcc t (.fence imm.toNat)
  | .spxr ra imm =>
    let row := (x.s ra).toNat % 2 ^ 13
    if !s.portGrants t [0, 1] granted then s.stallTcc t .port
    else match ecc with
      | .uncorrectable _ =>
        (s.spadLost t 1 row).modTcc t (fun y => { y with state := if y.faulted then y.state else .waiting, stall := none })
      | e =>
        let s := match e with
          | .corrected (_ :: _) => s.spadCorrected t row
          | _ => s
        (s.setDataBytes t (512 * (imm.toNat % 32)) (s.spadRow t row)).retire t Tcc.advance
  | .spxw ra imm =>
    if !s.portGrants t [2] granted then s.stallTcc t .port
    else
      (s.setSpadRow t ((x.s ra).toNat % 2 ^ 13) (Mem.readN s.store.dstore (dataKey t (512 * (imm.toNat % 32))) 512)).retire t
        Tcc.advance
  | .rdcsr rd imm =>
    let v := s.csr t imm.toNat
    let hi := (s.now (acDom (dieOfTile t)) >>> 32).setWidth 32
    s.retire t (fun y => { (y.setS rd v).advance with csrHigh := if imm = 4 then hi else y.csrHigh })
  | .halt => s.haltTcc t

/-- BR and CALL with a guard other than p0 are resolved against their prediction before they retire (R83). -/
def TccOp.branches : TccOp → Bool
  | .br _ => true
  | .call _ => true
  | _ => false

/-- Retires an instruction under its guard (R77). -/
def State.guarded (s : State) (t : Nat) (g : Guard) (op : TccOp) (granted : Bool) (ecc : RowEcc) : State :=
  let taken := (s.tile t).tcc.guard g
  let s := if op.branches && guardConditional g then s.resolve t taken else s
  if taken then s.issue t op granted ecc else s.retire t Tcc.advance

/-- A TCC instruction issues when its core runs and the instruction is the word at its program counter. -/
def State.tccReady (s : State) (t : Nat) (g : Guard) (op : TccOp) : Bool :=
  (s.tile t).tcc.state == .running && s.tileLive t && s.instrWord t (s.tile t).tcc.pc.toNat == encodeTcc g op

/-- The command that a TCC instruction is: nothing happens where the core does not stand at that instruction. -/
def State.tcc (s : State) (t : TileId) (g : Guard) (op : TccOp) (granted : Bool) (ecc : RowEcc) : State :=
  if s.tccReady t.toNat g op then s.guarded t.toNat g op granted ecc else s

/-! ### Meanings -/

def execAlu (t : TileId) (g : Guard) (rd ra rb : BitVec 5) (func : BitVec 7) (s : State) : Host.Outcome State Fault Refusal :=
  .next (s.tcc t g (.alu rd ra rb func) true .clean)

def execAddi (t : TileId) (g : Guard) (rd ra : BitVec 5) (imm : BitVec 12) (s : State) : Host.Outcome State Fault Refusal :=
  .next (s.tcc t g (.addi rd ra imm) true .clean)

def execAndi (t : TileId) (g : Guard) (rd ra : BitVec 5) (imm : BitVec 12) (s : State) : Host.Outcome State Fault Refusal :=
  .next (s.tcc t g (.andi rd ra imm) true .clean)

def execOri (t : TileId) (g : Guard) (rd ra : BitVec 5) (imm : BitVec 12) (s : State) : Host.Outcome State Fault Refusal :=
  .next (s.tcc t g (.ori rd ra imm) true .clean)

def execXori (t : TileId) (g : Guard) (rd ra : BitVec 5) (imm : BitVec 12) (s : State) : Host.Outcome State Fault Refusal :=
  .next (s.tcc t g (.xori rd ra imm) true .clean)

def execShi (t : TileId) (g : Guard) (rd ra : BitVec 5) (imm : BitVec 12) (s : State) : Host.Outcome State Fault Refusal :=
  .next (s.tcc t g (.shi rd ra imm) true .clean)

def execMovi (t : TileId) (g : Guard) (rd : BitVec 5) (imm : BitVec 17) (s : State) : Host.Outcome State Fault Refusal :=
  .next (s.tcc t g (.movi rd imm) true .clean)

def execLui (t : TileId) (g : Guard) (rd : BitVec 5) (imm : BitVec 17) (s : State) : Host.Outcome State Fault Refusal :=
  .next (s.tcc t g (.lui rd imm) true .clean)

def execLdw (t : TileId) (g : Guard) (rd ra : BitVec 5) (imm : BitVec 12) (s : State) : Host.Outcome State Fault Refusal :=
  .next (s.tcc t g (.ldw rd ra imm) true .clean)

def execStw (t : TileId) (g : Guard) (rd ra : BitVec 5) (imm : BitVec 12) (s : State) : Host.Outcome State Fault Refusal :=
  .next (s.tcc t g (.stw rd ra imm) true .clean)

def execCmp (t : TileId) (g : Guard) (pd : BitVec 3) (ra rb : BitVec 5) (cond : BitVec 3) (s : State) :
    Host.Outcome State Fault Refusal :=
  .next (s.tcc t g (.cmp pd ra rb cond) true .clean)

def execPlog (t : TileId) (g : Guard) (pd pa pb : BitVec 3) (func : BitVec 2) (s : State) : Host.Outcome State Fault Refusal :=
  .next (s.tcc t g (.plog pd pa pb func) true .clean)

def execBr (t : TileId) (g : Guard) (off : BitVec 22) (s : State) : Host.Outcome State Fault Refusal :=
  .next (s.tcc t g (.br off) true .clean)

def execCall (t : TileId) (g : Guard) (off : BitVec 22) (s : State) : Host.Outcome State Fault Refusal :=
  .next (s.tcc t g (.call off) true .clean)

def execJr (t : TileId) (g : Guard) (ra : BitVec 5) (s : State) : Host.Outcome State Fault Refusal :=
  .next (s.tcc t g (.jr ra) true .clean)

def execCmd (t : TileId) (g : Guard) (q : BitVec 3) (ra : BitVec 5) (s : State) : Host.Outcome State Fault Refusal :=
  .next (s.tcc t g (.cmd q ra) true .clean)

def execWaitev (t : TileId) (g : Guard) (ra : BitVec 5) (imm : BitVec 12) (s : State) : Host.Outcome State Fault Refusal :=
  .next (s.tcc t g (.waitev ra imm) true .clean)

def execSigev (t : TileId) (g : Guard) (ra : BitVec 5) (imm : BitVec 12) (s : State) : Host.Outcome State Fault Refusal :=
  .next (s.tcc t g (.sigev ra imm) true .clean)

def execFence (t : TileId) (g : Guard) (imm : BitVec 12) (s : State) : Host.Outcome State Fault Refusal :=
  .next (s.tcc t g (.fence imm) true .clean)

def execSpxr (t : TileId) (g : Guard) (ra : BitVec 5) (imm : BitVec 12) (granted : Bool) (ecc : RowEcc) (s : State) :
    Host.Outcome State Fault Refusal :=
  .next (s.tcc t g (.spxr ra imm) granted ecc)

def execSpxw (t : TileId) (g : Guard) (ra : BitVec 5) (imm : BitVec 12) (granted : Bool) (s : State) :
    Host.Outcome State Fault Refusal :=
  .next (s.tcc t g (.spxw ra imm) granted .clean)

def execRdcsr (t : TileId) (g : Guard) (rd : BitVec 5) (imm : BitVec 12) (s : State) : Host.Outcome State Fault Refusal :=
  .next (s.tcc t g (.rdcsr rd imm) true .clean)

def execHalt (t : TileId) (g : Guard) (s : State) : Host.Outcome State Fault Refusal :=
  .next (s.tcc t g .halt true .clean)

/-! ### Stalls, DONE and the register commands of the core -/

/-- Whether the condition that a stall waits for has come (R82). A wait on a counter ends only by its grant. -/
def State.stallOver (s : State) (t : Nat) : Stall → Bool
  | .queueFull q => decide (((s.tile t).engine q).queue.length < 16)
  | .fence m => (List.range 7).all (fun q => !bitAt m q || (s.tile t).drained q)
  | .port => true
  | .waitev _ => false

/-- A stall ends and the TCC resumes issue at the instruction that stalled (R82, R94). -/
def execStallEnd (t : TileId) (s : State) : Host.Outcome State Fault Refusal :=
  let x := (s.tile t.toNat).tcc
  .next (match x.stall with
    | some r => if x.state == .waiting && s.tileLive t.toNat && s.stallOver t.toNat r then s.endStall t.toNat else s
    | none => s)

/-- A HALTED TCC enters DONE (R94). -/
def execTccDone (t : TileId) (s : State) : Host.Outcome State Fault Refusal :=
  .next (if (s.tile t.toNat).tcc.state == .halted && s.tileIdle t.toNat && s.tileLive t.toNat then s.enterDone t.toNat else s)

/-- Starts a program: the branch table at weakly-not-taken, history and return stack empty (R83, R94). -/
def Tcc.start (x : Tcc) : Tcc := { x with state := .running, bht := [], history := 0, ras := [] }

/-- START reaches a TCC: READY runs, and a READY TCC under a debug freeze runs at its release (R94). -/
def State.startTcc (s : State) (t : Nat) : State :=
  s.modTcc t (fun x =>
    if x.state = .ready then x.start
    else if x.state = .frozen && x.held = .ready then { x with startPending := true }
    else x)

/-- TIL_CTL reads back as its bits were last written (R10, R92). DEDUCED: log entry 102. -/
def State.noteCtl (s : State) (t bits : Nat) : State := s.setReg (tilReg t 0x00) (wordOf bits)

/-- A write of START, ignored while the row has no owner (R92). -/
def State.writeStart (s : State) (t : Nat) : State :=
  if (s.tileOwner t).isNone then s.ignoreWrite (tilReg t 0x00)
  else
    let s := s.noteCtl t 1
    if s.tileLive t then s.startTcc t else s

/-- One instruction of a TCC that a debug freeze stopped at an instruction boundary (R92, R498). It runs as at that boundary;
WAITEV retires where its counter allows the grant. -/
def State.stepTcc (s : State) (t : Nat) (ecc : RowEcc) : State :=
  let x := (s.tile t).tcc
  let s1 := (s.countStall t).modTcc t (fun x => { x with state := .running })
  match decodeTcc (s.instrWord t x.pc.toNat) with
  | none => s
  | some (g, op) =>
    let s2 := s1.guarded t g op true ecc
    let s3 := match (s2.tile t).tcc.state, (s2.tile t).tcc.stall with
      | .waiting, some (.waitev c) =>
        if (s2.tile t).ctr c = 0 then s2 else (s2.grant t c).retire t (fun x => { x.advance with state := .running, stall := none })
      | _, _ => s2
    s3.modTcc t (fun y => if y.faulted then y else { y with held := y.state, state := .frozen })

/-- A write of STEP acts on a TCC that a debug freeze stopped at an instruction boundary (R92, R498). -/
def State.writeStep (s : State) (t : Nat) (ecc : RowEcc) : State :=
  let s := s.noteCtl t 2
  let x := (s.tile t).tcc
  if x.state == .frozen && !x.faulted && (x.held == .running || x.held == .waiting) && s.tileLive t then s.stepTcc t ecc else s

end Sys2Proof.Machine
end

