-- ==== Sys2Proof/Machine/Events.lean ====
section
/-!
DEFINITION. Queues and event counters at work: grants, starts and completions of engine commands, the sync engine and the sync port (R64 to R74, R197, R208).
-/

namespace Sys2Proof.Machine

/-! ### Starting commands (R65, R66, R101, R197, R208, R212) -/

/-- Opcodes that a queue defines (R69, R101, R139, R159, R193, R210). -/
def opcodeOk (q op : Nat) : Bool :=
  let top := match q with
    | 0 => 5
    | 1 => 3
    | 2 => 6
    | _ => 2
  decide (1 ≤ op) && decide (op ≤ top)

/-- The fault of a reserved opcode (R69, R104, R142, R167, R216). -/
def opcodeFault : Nat → Nat
  | 0 => 0x0120
  | 1 => 0x0128
  | 2 => 0x0140
  | 5 => 0x0170
  | 6 => 0x0114
  | _ => 0x0160

/-- LOAD uses the shadow set and its own reads; every other MA command belongs to the feed stream (R101, R110). -/
def maLoads (c : Command) : Bool := c.opcode == 1

/-- The stream of a GSTREAM or GRUN (R210). -/
def Command.stream (c : Command) : Nat := c.f1 0 2

/-- A watched LOAD (R193). -/
def Command.watches (c : Command) : Bool := c.opcode == 1 && bitAt c.w1.toNat 18

/-- The engine has the resources that the command at its queue's head needs (R66). -/
def Tile.hasRoom (x : Tile) (q : Nat) (c : Command) : Bool :=
  let a := (x.engine q).active
  match q with
  | 0 => !a.any (fun y => !y.finished && maLoads y.cmd == maLoads c)
  | 3 => decide (a.length < 6) && (!c.watches || decide (x.watches.length < 8))
  | 4 => decide (a.length < 6) && (!c.watches || decide (x.watches.length < 8))
  | 5 => !a.any (fun y => y.cmd.stream == c.stream)
  | _ => a.isEmpty

/-- An item's address (R195). -/
def Command.itemVa (c : Command) (i : Nat) : Nat := c.va + 64 * (c.shapeWord 2) * i

/-- COUNT and UNIT of a shape (R194). -/
def Command.items (c : Command) : Nat := field (c.shapeWord 1) 4 13 + 1
def Command.unitBytes (c : Command) : Nat := 64 * (field (c.shapeWord 1) 0 4 + 1)
def Command.xform (c : Command) : Nat := field (c.shapeWord 0) 0 4
def Command.shapeFmt (c : Command) : Nat := field (c.shapeWord 0) 7 4
def Command.groups (c : Command) : Nat := field (c.shapeWord 1) 17 5 + 1

/-- The bytes of a dense matrix tile with its header (R131). -/
def denseTileBytes (fmt : Nat) : Nat :=
  if fmt = 2 || fmt = 3 then 51264 else if fmt = 4 then 34880 else 67648

/-- The bytes of one item in memory (R195); for a stored matrix tile, the bound of R131. -/
def Command.itemBytes (c : Command) : Nat :=
  match c.xform with
  | 0 => c.unitBytes
  | 1 => 512
  | 2 => 512 * 33 * c.groups
  | 3 => 512 * 33 * c.groups
  | 4 => 65536
  | _ => denseTileBytes c.shapeFmt

/-- The byte ranges that a LOAD reads (R208). -/
def Command.ranges (c : Command) : List (Nat × Nat) :=
  (List.range c.items).map (fun i => (c.itemVa i, c.itemVa i + c.itemBytes))

/-- A command leaves its queue's head for an active slot; a watched LOAD opens its watch entry (R197, R208). -/
def Tile.activate (x : Tile) (q : Nat) (c : Command) : Tile :=
  let e := x.engine q
  let x := if (q = 3 || q = 4) && c.watches then
      { x with watches := x.watches ++ [{ q := q, seq := e.started, ranges := c.ranges, targets := [], ctr := c.sigCtr,
                                          signalled := false }] }
    else x
  x.modEngine q (fun e => { e with
    queue := e.queue.drop 1
    active := e.active ++ [{ cmd := c, seq := e.started, begun := false, finished := false, item := 0, off := 0, flight := 0,
                             got := [], written := 0, stream := 0, rowLo := 0, done := [] }]
    started := e.started + 1 })

/-- Starts the command at a queue's head where its wait can be granted and the engine has room. A reserved opcode faults
as it starts. -/
def State.startHead (s : State) (t q : Nat) : State :=
  let x := s.tile t
  match (x.engine q).queue.head? with
  | none => s
  | some c =>
    if (x.engine q).frozen || !x.hasRoom q c || (c.waitEn && x.ctr c.waitCtr == 0) then s
    else
      let s := if c.waitEn then s.grant t c.waitCtr else s
      let s := s.modTile t (fun x => x.activate q c)
      if opcodeOk q c.opcode then s else s.raiseEngine t q (opcodeFault q) 0

/-- Grants the TCC's WAITEV, which then retires (R71, R82). -/
def State.grantTcc (s : State) (t : Nat) : State :=
  let x := (s.tile t).tcc
  match x.stall with
  | some (.waitev c) =>
    if x.state == .waiting && (s.tile t).ctr c != 0 then
      ((s.grant t c).endStall t).retire t Tcc.advance
    else s
  | _ => s

/-- The sync port delivers one waiting signal in the ac that begins (R73). -/
def State.deliverSync (s : State) (t : Nat) : State :=
  match (s.tile t).syncIn with
  | [] => s.modTile t (fun x => { x with syncBusy := false })
  | c :: cs => (s.modTile t (fun x => { x with syncIn := cs, syncBusy := true })).increment t c

/-- The grants of one ac: TCC first, then queues 0 to 6, each while its counter allows; the next ac then begins (R72). -/
def execWaitGrant (t : TileId) (s : State) : Host.Outcome State Fault Refusal :=
  .next (if s.tileLive t.toNat then
      (((List.range 7).foldl (fun s q => s.startHead t.toNat q) (s.grantTcc t.toNat))).deliverSync t.toNat
    else s)

/-! ### Completion (R68, R197) -/

/-- The first unfinished active command that a predicate picks, where no earlier unfinished one is in its way. -/
def pickActive (pick : Active → Bool) (blocks : Active → Bool) : List Active → Option Active
  | [] => none
  | a :: as =>
    if a.finished then pickActive pick blocks as
    else if pick a then some a
    else if blocks a then none
    else pickActive pick blocks as

/-- Changes the active command of a number. -/
def Engine.modActive (e : Engine) (seq : Nat) (f : Active → Active) : Engine :=
  { e with active := e.active.map (fun a => if a.seq == seq then f a else a) }

def State.modActive (s : State) (t q seq : Nat) (f : Active → Active) : State :=
  s.modEngine t q (fun e => e.modActive seq f)

def State.finish (s : State) (t q seq : Nat) : State := s.modActive t q seq (fun a => { a with finished := true })

/-- The finished command that completes next: on a DMA engine only the oldest, elsewhere the oldest finished one (R197). -/
def Engine.completing (e : Engine) (q : Nat) : Option Active :=
  if q = 3 || q = 4 then e.active.head?.filter (·.finished) else e.active.find? (·.finished)

/-- What a completion counts in its engine's registers (R124, R217). -/
def State.countCompletion (s : State) (t q : Nat) (a : Active) : State :=
  if q = 0 then
    let s := s.modTile t (fun x => { x with ma := { x.ma with lastAc := s.now (acDom (dieOfTile t)) } })
    if a.cmd.opcode = 1 then s.bump (arrReg t 0x1C) 1 else s
  else if q = 3 then s.bump64 (dmaReg t 0x04) 1
  else if q = 4 then s.bump64 (dmaReg t 0x44) 1
  else s

/-- The watch entry of a descriptor that signals goes behind those that have signalled before it (R208). -/
def signalWatch (q seq : Nat) (l : List Watch) : List Watch :=
  let mine (w : Watch) : Bool := w.q == q && w.seq == seq
  l.filter (fun w => !mine w) ++ (l.filter mine).map (fun w => { w with signalled := true })

/-- A command completes: it leaves its active slot, and SIG_CTR is incremented under SIG_EN (R68, R71). -/
def execCommandCompletion (t : TileId) (q : BitVec 3) (s : State) : Host.Outcome State Fault Refusal :=
  let n := t.toNat
  .next (match ((s.tile n).engine q.toNat).completing q.toNat with
    | none => s
    | some a =>
      if s.tileLive n && !((s.tile n).engine q.toNat).frozen then
        let s := s.modEngine n q.toNat (fun e => { e with active := e.active.filter (fun b => b.seq != a.seq) })
        let s := s.countCompletion n q.toNat a
        let s := s.modTile n (fun x => { x with watches := signalWatch q.toNat a.seq x.watches })
        if a.cmd.sigEn then s.increment n a.cmd.sigCtr else s
      else s)

/-! ### The sync engine and the sync port (R69, R70, R73) -/

/-- The active command that an engine's next execution step carries out. -/
def State.current (s : State) (t q op : Nat) : Option Active :=
  if s.tileLive t && !((s.tile t).engine q).frozen then
    pickActive (fun a => a.cmd.opcode == op) (fun _ => true) ((s.tile t).engine q).active
  else none

/-- The tiles that a SIGNAL names (R69). -/
def Command.targets (c : Command) : List Nat :=
  let t := c.f1 0 8
  if bitAt c.w1.toNat 16 then (List.range 8).map (fun i => t / 8 * 8 + i) else [t]

/-- SIGNAL: its checks, then one signal for each target handed to the sync network, which takes them once it has a credit for
each (R69, R70, R73). The record of 0x0112 names the sync engine, which freezes beside the TCC. DESIGN CHOICE: log entry 124. -/
def execSignal (t : TileId) (s : State) : Host.Outcome State Fault Refusal :=
  let n := t.toNat
  .next (match s.current n 6 1 with
    | none => s
    | some a =>
      if !(a.cmd.w0Ok && a.cmd.f1 17 15 == 0 && a.cmd.w2 == 0 && a.cmd.w3 == 0) then s.raiseEngine n 6 0x0114 0
      else if a.cmd.targets.any (fun d => s.tileOwner d != s.tileOwner n) then
        (s.raiseEngine n 6 0x0112 0).freezeMaster n 1
      else
        let die := dieOfTile n
        let s := s.forEach a.cmd.targets (fun s d => s.settleSync die a.cmd.targets.length d)
        if !a.cmd.targets.all (s.syncTakes die a.cmd.targets.length) then s
        else
          let s := s.forEach a.cmd.targets (fun s d => s.signalCrosses die d)
          (s.finish n 6 a.seq).modNets (fun x => { x with
            signals := x.signals ++ a.cmd.targets.map (fun d => { src := n, die := die, dst := d, ctr := a.cmd.f1 8 8 }) }))

/-- MARK: no action beyond its wait and its signal (R69). -/
def execMark (t : TileId) (s : State) : Host.Outcome State Fault Refusal :=
  let n := t.toNat
  .next (match s.current n 6 2 with
    | none => s
    | some a =>
      if a.cmd.w0Ok && a.cmd.w1 == 0 && a.cmd.w2 == 0 && a.cmd.w3 == 0 then s.finish n 6 a.seq
      else s.raiseEngine n 6 0x0114 0)

/-- Removes the first signal for a tile from the network. -/
def takeSignal (t : Nat) : List Sig → List Sig
  | [] => []
  | x :: xs => if x.dst == t then xs else x :: takeSignal t xs

/-- A signal reaches the sync port: it increments its counter, or it waits in the input queue while the port has
delivered one in this ac; a full queue holds it back in the network (R71, R73). -/
def execSignalArrival (t : TileId) (s : State) : Host.Outcome State Fault Refusal :=
  let n := t.toNat
  .next (match s.nets.signals.find? (fun x => x.dst == n) with
    | none => s
    | some g =>
      let taken := s.modNets (fun x => { x with signals := takeSignal n x.signals })
      if !s.tileLive n then taken
      else if !(s.tile n).syncBusy then (taken.modTile n (fun x => { x with syncBusy := true })).increment n g.ctr
      else if (s.tile n).syncIn.length < 16 then taken.modTile n (fun x => { x with syncIn := x.syncIn ++ [g.ctr] })
      else s)

/-! ### START and STEP (R92) -/

/-- The tile page answers PF0 and the curators of S0: its F-die is powered and reached (R8, R23). -/
def State.tilePowered (s : State) (t : Nat) : Bool := bitAt s.boot.dieUp (dieOfTile t) && s.reaches 4 (dieOfTile t)

/-- TIL_CTL_START (R92). -/
def execTilCtlStart (t : TileId) (s : State) : Host.Outcome State Fault Refusal :=
  .next (if s.tilePowered t.toNat then ((s.accessCrosses 4 (dieOfTile t.toNat)).writeStart t.toNat).answerWritten else s.answerError)

/-- TIL_CTL_STEP; `ecc` is what the instruction's row read finds (R92). -/
def execTilCtlStep (t : Meets TileId RowEcc) (s : State) : Host.Outcome State Fault Refusal :=
  .next (if s.tilePowered t.val.toNat then ((s.accessCrosses 4 (dieOfTile t.val.toNat)).writeStep t.val.toNat t.ecc).answerWritten else s.answerError)

end Sys2Proof.Machine
end

