-- ==== Sys2Proof/Machine/Drain.lean ====
section
/-!
DEFINITION. The drain that the matrix array and the block-sparse engine share: fused functions, output rows, and rows withheld for an uncorrectable error.
-/

namespace Sys2Proof.Machine

/-- A value on its way to the one rounding, with the sign of a zero that an evaluator or a limit gives (R118; log entry 13). -/
structure Drained where
  v : Val
  negZero : Bool
  deriving DecidableEq, Repr

def Drained.of (v : Val) : Drained := { v := v, negZero := false }

/-- An FP32 result of an evaluator. -/
def Drained.ofBits (w : Nat) : Drained := { v := fp32 w, negZero := w == 0x80000000 }

/-- Multiplies by +0 as IEEE 754 does (R118). -/
def Val.timesZero (v : Val) : Val := if v.isFin then .zero else .nan

/-- A forward function of z, v rounded to FP32 (R118): GELU and SILU tend to z at +∞ and to -0 at -∞, TANH to ±1. -/
def drainForward (fn : Nat) (v : Val) : Drained :=
  let w := toFp32 v
  match fp32 w with
  | .nan => .of .nan
  | .inf neg =>
    if fn = 9 then .of (if neg then Val.neg .one else .one)
    else if neg then { v := .zero, negZero := true } else .of (.inf false)
  | .fin _ _ => .ofBits (evaluate (0x100 + fn) w)

/-- GELU_BWD and SILU_BWD: v times the derivative at z (R118). -/
def drainBackward (fn : Nat) (v : Val) (b : Nat) : Val :=
  match fp32 b with
  | .nan => .nan
  | .inf false => v
  | .inf true => v.timesZero
  | .fin _ _ => v.mul (fp32 (evaluate (0x100 + fn) b))

/-- The value rounded to OUT_FMT (R118). b is the FP32 bits of the second operand. -/
def drainFn (fn : Nat) (v : Val) (b : Nat) : Drained :=
  let y := fp32 b
  match fn with
  | 0x1 => .of (v.mul y)
  | 0x2 => .of (v.add y)
  | 0x3 => .of (match v with
      | .nan => .nan
      | x => if x.pos then x else .zero)
  | 0x4 => .of (match y with
      | .nan => .nan
      | z => if z.pos then v else v.timesZero)
  | 0x5 => drainForward 5 v
  | 0x6 => .of (drainBackward 6 v b)
  | 0x7 => drainForward 7 v
  | 0x8 => .of (drainBackward 8 v b)
  | 0x9 => drainForward 9 v
  | 0xA => .of (v.mul (Val.one.add (y.mul y).neg))
  | 0xB => .of ((v.mul y).mul (Val.one.add y.neg))
  | _ => .of v

/-- The functions that read b (R118). -/
def drainUsesB (fn : Nat) : Bool := fn = 1 || fn = 2 || fn = 4 || fn = 6 || fn = 8 || fn = 0xA || fn = 0xB

/-! ### Output rows (R117, R141, R151) -/

/-- An element to be rounded with its SR value. -/
structure OutElem where
  d : Drained
  r : Nat
  deriving Repr

/-- Gives a zero its sign in a format that has one. -/
def putSign (f : Fmt) (d : Drained) (bits : Nat) : Nat :=
  if d.negZero && bits == 0 && f != .mxint8 then signBit f true else bits

/-- Elements of a format without block scales. -/
def encodePlain (f : Fmt) (mode : Rnd) (l : List OutElem) : List Nat × Tally :=
  let o := l.map (fun e => let x := roundVal f mode e.r e.d.v; (putSign f e.d x.1, x.2))
  (o.map (·.1), Tally.ofKinds (o.map (·.2)))

/-- How the elements of an MX block count (R52). -/
def blockKinds (f : Fmt) (mode : Rnd) (l : List OutElem) : List Kind :=
  (mxBlock f mode (l.map (fun e => (e.d.v, e.r)))).2.map (·.2)

/-- One MX block: scale, element bits and tally. -/
def encodeBlock (f : Fmt) (mode : Rnd) (l : List OutElem) : Nat × List Nat × Tally :=
  let b := mxBlock f mode (l.map (fun e => (e.d.v, e.r)))
  let bits := if b.1 = 0xFF then b.2.map (·.1) else (l.zip b.2).map (fun x => putSign f x.1.d x.2.1)
  (b.1, bits, Tally.ofKinds (blockKinds f mode l))

def encodeXr (crest : Int) (l : List OutElem) : List Nat × Tally :=
  let o := l.map (fun e => toXr crest e.d.v)
  (o.map (·.1), (o.map (·.2)).foldl Tally.join Tally.zero)

/-- Elements of a row under each OUT_FMT (R141). -/
def perRow (code : Nat) : Nat :=
  if code = 0 then 128 else if code = outXr then 64 else 256

/-- One output row as a number, and what it leaves. The bytes of an MX row beside its elements and scales are 0. DESIGN CHOICE: log
entry 139. -/
def encodeRow (code : Nat) (mode : Rnd) (crest : Int) (l : List OutElem) : Nat × Tally :=
  match Fmt.ofOut code with
  | none => let x := encodeXr crest l; (pack 64 x.1, x.2)
  | some f =>
    if f.isMx then
      let bs := (chunks 32 ((l.length + 31) / 32) l).map (encodeBlock f mode)
      (pack f.width (bs.flatMap (·.2.1)) + 2 ^ (8 * 496) * pack 8 (bs.map (·.1)),
       (bs.map (·.2.2)).foldl Tally.join Tally.zero)
    else let x := encodePlain f mode l; (pack f.width x.1, x.2)

/-- The output rows of a vector or group. -/
def encodeRows (code : Nat) (mode : Rnd) (crest : Int) (l : List OutElem) : List Nat × Tally :=
  let rs := (chunks (perRow code) ((l.length + perRow code - 1) / perRow code) l).map (encodeRow code mode crest)
  (rs.map (·.1), (rs.map (·.2)).foldl Tally.join Tally.zero)

/-- Rows per vector of n elements. -/
def rowsFor (code n : Nat) : Nat := (n + perRow code - 1) / perRow code

/-- Writes rows from a row number on. -/
def State.setRows (s : State) (t row : Nat) (rows : List Nat) : State :=
  s.forEach rows.zipIdx (fun s e => s.setSpadRow t (row + e.2) (leBytes 512 e.1))

/-- A scratchpad row as a number. -/
def State.rowNat (s : State) (t row : Nat) : Nat := leNat (s.spadRow t row)

/-- The FP32 bits of the element at position n of rows from a first row on, 128 to a row. -/
def State.fp32At (s : State) (t row n : Nat) : Nat := rowElem (s.rowNat t (row + n / 128)) 32 (n % 128)

/-- The last row of a range lies within the scratchpad. -/
def rowsFit (row n : Nat) : Bool := decide (row + n ≤ 8192)

/-- The first failing check's fault code. -/
def firstFault (l : List (Bool × Nat)) : Option Nat := (l.find? (·.1)).map (·.2)

/-! ### Execution of an engine command -/

/-- A command of the MA, BSE or VU that has not run: one that met an uncorrectable row waits for the teardown (R89). -/
def State.runnable (s : State) (t q op : Nat) (blocks : Active → Bool) : Option Active :=
  if s.tileLive t && !((s.tile t).engine q).frozen then
    pickActive (fun a => a.cmd.opcode == op && !a.begun) blocks ((s.tile t).engine q).active
  else none

/-- The effect of a command's row reads: an uncorrectable row is withheld and the command never finishes, otherwise
a correction is counted and the command's effect follows (R89, R185). -/
def State.reading (s : State) (t q seq : Nat) (ecc : RowEcc) (act : State → State) : State :=
  match ecc with
  | .clean => act s
  | .corrected rows => act (s.forEach rows (fun s row => s.spadCorrected t row.toNat))
  | .uncorrectable row => (s.modActive t q seq (fun a => { a with begun := true })).spadLost t (q + 2) row.toNat

/-- The SR value of an output element on a tile (R46, R120). -/
def State.srOf (s : State) (t : Nat) (o : OutSel) (index : Nat) : Nat :=
  let p := ownerCode (s.tileOwner t)
  srValue (s.pld p).cat.roundSeed o.tensor (s.stepOf p) index

/-- BASE + m × ROW_STRIDE + n, formed exactly (R120). -/
def OutSel.index (o : OutSel) (m n : Nat) : Nat := o.base.toNat + m * o.stride + n

end Sys2Proof.Machine
end

