-- ==== Sys2Proof/Machine/Memory.lean ====
section
/-!
DEFINITION. The memories of the package, polder address spaces and their translation, errors and seepage, watches, merged reads, and accumulate writes (R169 to R191, R209, R284, R285).
-/

namespace Sys2Proof.Machine

/-! ### Devices -/

/-- Bytes of a stack or depot device. -/
def devBytes : Nat := 40960 * 2 ^ 21

/-- The memory key of a byte of a target. -/
def Target.key (x : Target) : Nat :=
  match x.space with
  | .hbm => x.dev * devBytes + x.off
  | .depot => x.dev * devBytes + x.off
  | .col => x.dev * 2 ^ 27 + x.off
  | .host => x.off

def State.memRead (s : State) (x : Target) (n : Nat) : List Byte :=
  match x.space with
  | .hbm => Mem.readN s.store.hbm x.key n
  | .depot => Mem.readN s.store.depot x.key n
  | .col => Mem.readN s.store.col x.key n
  | .host => Mem.readN s.store.host x.key n

def State.memWrite (s : State) (x : Target) (bs : List Byte) : State :=
  match x.space with
  | .hbm => s.modStore (fun m => { m with hbm := Mem.writeN m.hbm x.key bs })
  | .depot => s.modStore (fun m => { m with depot := Mem.writeN m.depot x.key bs })
  | .col => s.modStore (fun m => { m with col := Mem.writeN m.col x.key bs })
  | .host => s.hostStore x.key bs

/-- The bank and row of a collection offset (R180). -/
def bankOf (off : Nat) : Nat := off / 512 % 64
def bankRow (off : Nat) : Nat := off / 32768

/-- The frame key of an HBM or depot target (R173). -/
def Target.frame (x : Target) : Nat := (if x.space = .depot then 491520 else 0) + x.dev * 40960 + x.off / 2 ^ 21

/-- The page of the unit that counts a target's errors (R188). -/
def Target.page (x : Target) : Nat :=
  match x.space with
  | .hbm => hmcPage x.dev
  | .depot => depPage x.dev
  | .col => colPage x.dev (bankOf x.off)
  | .host => pciPage

/-- The number of the unit whose bytes read make its seepage window (R187): a stack, a depot device or a bank group. -/
def Target.seepUnit (x : Target) : Nat :=
  match x.space with
  | .hbm => x.dev
  | .depot => 12 + x.dev
  | .col => 20 + 8 * x.dev + bankOf x.off / 8
  | .host => 52

/-- What LAST_CE and LAST_UE show (R188). A bank group's offset counts its banks one after another: log entry 18. -/
def Target.lastWord (x : Target) : Nat :=
  match x.space with
  | .col => bankOf x.off % 8 * 4096 + bankRow x.off
  | _ => x.off / 64

/-- The fault code of an uncorrectable error (R186). -/
def Target.errorCode (x : Target) : Nat :=
  match x.space with
  | .hbm => 0x0520 + x.dev
  | .depot => 0x0530 + x.dev
  | .col => 0x0540 + x.dev
  | .host => 0x0D02

/-- Bytes read from a memory add to its seepage window (R187). -/
def State.countRead (s : State) (x : Target) (n : Nat) : State :=
  if x.space = .host then s
  else s.modStore (fun m => { m with readBytes := Table.put 0 m.readBytes x.seepUnit (Table.get 0 m.readBytes x.seepUnit + n) })

/-- One access needed correction (R185, R188). -/
def State.memCorrected (s : State) (x : Target) : State :=
  let s := s.bump64 (x.page + 0x040) 1
  let s := s.bump (x.page + 0x04C) 1
  s.setReg (x.page + 0x05C) (wordOf x.lastWord)

/-- The curator retires a frame and journals it (R186). -/
def State.retireFrame (s : State) (x : Target) (code : Nat) : State :=
  if s.store.retired.contains x.frame then s
  else
    let s := s.modStore (fun m => { m with retired := m.retired ++ [x.frame] })
    let s := (s.bump (x.page + 0x064) 1).setIrq x.page 4
    s.append 0xB [if x.space = .depot then 16 + x.dev else x.dev, x.off / 2 ^ 21, code]

/-- A collection row that met an uncorrectable error is marked for a spare (R475). -/
def State.pendColRow (s : State) (x : Target) : State :=
  s.modSpares (fun y => { y with colPending := (y.colPending ++ [(x.dev * 64 + bankOf x.off, bankRow x.off)]).eraseDups })

/-- An access met an uncorrectable error: the counts, the retirement, and the cause for the polder that owns the memory (R186). -/
def State.memLost (s : State) (x : Target) (p kind unit : Nat) : State :=
  let s := s.bump (x.page + 0x058) 1
  let s := (s.setReg (x.page + 0x060) (wordOf x.lastWord)).setIrq x.page 2
  let s := s.logError x.page 2 x.errorCode unit p
  let s := if x.space = .col then s.pendColRow x else s.retireFrame x x.errorCode
  s.sendCause { polder := p, code := x.errorCode, kind := kind, unit := unit, addr := x.off }

/-! ### Windows and entries (R170 to R172, R177, R180) -/

/-- The window of an address: 0 HBM, 1 depot, 2 collection, 3 host (R170). -/
def windowOf (va : Nat) : Option Nat :=
  if va < 2 ^ 40 then some 0
  else if va < 2 ^ 41 then some 1
  else if va < 2 ^ 41 + 2 ^ 29 then some 2
  else if va < 2 ^ 46 then none
  else if va < 2 ^ 46 + 2 ^ 41 then some 3
  else none

def windowStart (w : Nat) : Nat := if w = 0 then 0 else if w = 1 then 2 ^ 40 else if w = 2 then 2 ^ 41 else 2 ^ 46

/-- The PLD_XL base register of a paged window; its COUNT follows it (R190). -/
def xlReg (p w : Nat) : Nat := pldReg p (0x200 + 8 * (if w = 3 then 2 else w))
def State.xlBase (s : State) (p w : Nat) : Nat := (s.reg (xlReg p w)).toNat
def State.xlCount (s : State) (p w : Nat) : Nat := (s.reg (xlReg p w + 4)).toNat

def pageIndex (w va : Nat) : Nat := (va - windowStart w) / 2 ^ 21

/-- First stripe and size of a polder's share on a die (R180, R190). -/
def State.shareFirst (s : State) (p d : Nat) : Nat := field (s.reg (pldReg p (0x220 + 4 * d))).toNat 0 12
def State.shareSize (s : State) (p d : Nat) : Nat := field (s.reg (pldReg p (0x220 + 4 * d))).toNat 16 13

/-- A translation, or the code of its fault. -/
inductive Xl where
  | at_ (x : Target)
  | fault (code : Nat)
  deriving DecidableEq, Repr

/-- An address of the collection window (R180). -/
def State.colTarget (s : State) (p va : Nat) : Xl :=
  let o := va - 2 ^ 41
  let d := o / 2 ^ 27
  let off := o % 2 ^ 27
  if off / 32768 < s.shareSize p d then .at_ { space := .col, dev := d, off := s.shareFirst p d * 32768 + off }
  else .fault 0x0204

/-- A table entry's meaning (R172, R177). -/
def entryTarget (e va : Nat) (isWrite : Bool) : Xl :=
  let tgt := field e 2 2
  let dev := field e 4 4
  if !bitAt e 0 then .fault 0x0203
  else if tgt = 3 || (tgt = 0 && 12 ≤ dev) || (tgt = 1 && 8 ≤ dev) || (tgt = 2 && dev ≠ 0) || field e 8 13 ≠ 0 then .fault 0x0205
  else if tgt ≠ 2 && (field e 37 27 ≠ 0 || 40960 ≤ field e 21 16) then .fault 0x0205
  else if isWrite && !bitAt e 1 then .fault 0x0150
  else
    let lo := va % 2 ^ 21
    if tgt = 2 then .at_ { space := .host, dev := 0, off := field e 21 43 * 2 ^ 21 + lo }
    else .at_ { space := if tgt = 0 then .hbm else .depot, dev := dev, off := field e 21 16 * 2 ^ 21 + lo }

/-- An entry as a die's walker reads it from its copy of the tables (R23, R174). -/
def State.tableEntry (s : State) (die i : Nat) : Nat :=
  (Table.get (0 : Dword) (if s.readsD0 die then s.store.tabD0 else s.store.tabD4) i).toNat

/-- The curator writes both copies of an entry (R171). -/
def State.setEntry (s : State) (i e : Nat) : State :=
  s.modStore (fun m => { m with tabD0 := Table.put 0 m.tabD0 i (dwordOf e), tabD4 := Table.put 0 m.tabD4 i (dwordOf e) })

/-- A translation by a walker of a die, with no cache between: what the conservators, the curators and host DMA use. -/
def State.translate (s : State) (die p va : Nat) (isWrite : Bool) : Xl :=
  match windowOf va with
  | none => .fault 0x0201
  | some 2 => s.colTarget p va
  | some w =>
    if pageIndex w va < s.xlCount p w then entryTarget (s.tableEntry die (s.xlBase p w + pageIndex w va)) va isWrite
    else .fault 0x0202

/-! ### Serving control regions (R326, R328) -/

/-- VB: bytes of one version of the control regions (R326). -/
def Catalogue.versionBytes (c : Catalogue) : Nat :=
  (c.serve.maxSeqs * c.serve.maxPages * 4 + c.serve.maxBatch * 32 + c.mbMax * 4 + 1023) / 1024 * 1024

/-- The address of the control regions. -/
def Catalogue.controlVa (c : Catalogue) : Nat := 2 ^ 41 + c.serve.tableDie * 2 ^ 27 + c.serve.tableOff

/-- Whether a range touches a table, batch list or token buffer, which tile engines may not write (R328). -/
def Catalogue.controls (c : Catalogue) (va len : Nat) : Bool :=
  let used := c.serve.maxSeqs * c.serve.maxPages * 4 + c.serve.maxBatch * 32 + c.mbMax * 4
  c.kind == 1 && (List.range 2).any (fun v =>
    let lo := c.controlVa + v * c.versionBytes
    decide (va < lo + used) && decide (lo < va + len))

/-! ### Slots of the shared engines (R361) -/

/-! ### Faults of a master (R209, R284, R360) -/

/-- A fault of a conservator's access: its page shows it, and the polder's slot there writes nothing further (R320, R322). -/
def State.stopCns (s : State) (n p code : Nat) : State :=
  ((s.setReg (cnsPage n + 0x068) (wordOf code)).setIrq (cnsPage n) 1).modCns n (fun c => { c with
    stopped := (c.stopped ++ [p]).eraseDups
    frozen := if code / 256 = 1 then (c.frozen ++ [p]).eraseDups else c.frozen
    running := if c.running = some p then none else c.running
    holding := c.holding && c.running != some p })

/-- An access violation freezes a polder's slot of a shared engine (R360). -/
def State.freezeSlot (s : State) (k p code : Nat) : State :=
  if code / 256 = 1 then s.modSlot k p (fun x => { x with frozen := true, running := false }) else s

/-- Raises a fault for a master kind and unit of R360. -/
def State.raiseMaster (s : State) (p kind unit code addr : Nat) : State :=
  let cause : Cause := { polder := p, code := code, kind := kind, unit := unit, addr := addr }
  match kind with
  | 0 => s.sendCause cause
  | 9 => ((s.stopCns unit p code).logError (cnsPage unit) 2 code unit p).sendCause cause
  | 0xA => (s.logError (redPage unit) 2 code unit p).sendCause cause
  | 0xB => ((s.freezeSlot (unit + 12) p code).logError pciPage 2 code unit p).sendCause cause
  | 0xC => ((s.freezeSlot unit p code).logError (prtPage unit) 2 code unit p).sendCause cause
  | 0xD => (s.logError pciPage 2 code unit p).sendCause cause
  | 0xE => ((s.freezeSlot 18 p code).logError (page 4 0x14 0) 2 code unit p).sendCause cause
  | _ => s.raiseTile unit kind code addr

/-! ### Watches and run-ahead data (R208, R209, R214) -/

/-- The targets at which a watch registers: controllers, collection banks, host DMA. -/
def Target.watchIds (x : Target) (len : Nat) : List Nat :=
  match x.space with
  | .hbm => [x.dev]
  | .depot => [12 + x.dev]
  | .col =>
    let a := 32 + 64 * x.dev + bankOf x.off
    let b := 32 + 64 * x.dev + bankOf (x.off + len - 1)
    if a = b then [a] else [a, b]
  | .host => [20]

/-- The engine's FAULT_VA register (R217). -/
def faultVaReg (t q : Nat) : Nat := dmaReg t (if q = 3 then 0x24 else if q = 4 then 0x64 else 0xA0)

/-- The first byte of a write that lies in one of a watch's ranges. -/
def Watch.overlap (w : Watch) (va len : Nat) : Option Nat :=
  let os := w.ranges.filterMap (fun r => if va < r.2 && r.1 < va + len then some (max va r.1) else none)
  match os with
  | [] => none
  | o :: rest => some (rest.foldl min o)

/-- A registration takes effect as a watched request arrives (R208). -/
def State.registerWatch (s : State) (r : Req) (x : Target) : State :=
  if !r.watched then s
  else s.modTile r.tile (fun y => { y with watches := y.watches.map (fun w =>
    if w.q == r.q && w.seq == r.seq then { w with targets := (w.targets ++ x.watchIds r.len).eraseDups } else w) })

/-- A write by a master of a polder lands: open watches registered at its target raise 0x0301 (R209). -/
def State.watchCheck (s : State) (p kind unit va len : Nat) (x : Target) : State :=
  s.forEach (s.pld p).tiles (fun s t =>
    s.forEach (s.tile t).watches (fun s w =>
      if (x.watchIds len).any (fun i => w.targets.contains i) then
        match w.overlap va len with
        | some o => (s.setReg64 (faultVaReg t w.q) o).raiseMaster p kind unit 0x0301 o
        | none => s
      else s))

/-- Bytes of a run-ahead element of a stream. -/
def GStream.unitBytes (g : GStream) : Nat :=
  match g.cfg with
  | some c => 64 * c.unit
  | none => 64

/-- A write discards the run-ahead elements whose 64-byte units it touches (R214). -/
def State.discardRunAhead (s : State) (p va len : Nat) : State :=
  s.forEach (s.pld p).tiles (fun s t =>
    s.forEach (List.range 4) (fun s i =>
      let g := Table.get default (s.tile t).ge i
      let hit (e : RaElem) : Bool := !e.dropped && decide (va < e.va + g.unitBytes) && decide (e.va < va + len)
      if g.ra.any hit then
        let s := s.bump (dmaReg t 0x94) (g.ra.countP hit)
        let ra := g.ra.map (fun e => if hit e then { e with dropped := true, got := [] } else e)
        s.modTile t (fun y => { y with ge := Table.put default y.ge i { g with ra := ra } })
      else s))

/-- A write of the curator lands: the bytes and the run-ahead data, beside the watches (R209, R214). -/
def State.curatorLands (s : State) (p va : Nat) (x : Target) (bs : List Byte) : State :=
  (s.discardRunAhead p va bs.length).memWrite x bs

/-- A write of a polder's master lands at its target: the bytes, the watches and the run-ahead data. In host memory it goes by the
transactions of the polder's VF, which may take Relaxed Ordering (R403, R416). -/
def State.landWrite (s : State) (p kind unit va : Nat) (x : Target) (bs : List Byte) : State :=
  let s := ((s.watchCheck p kind unit va bs.length x).discardRunAhead p va bs.length).memWrite x bs
  if x.space = .host then s.postTlps (p + 1) true x.key bs.length else s

/-! ### Gradient units (R283 to R286, R294) -/

/-- The gradient tensor of a polder that holds an address. -/
def Catalogue.gradientAt (c : Catalogue) (va : Nat) : Option Tensor :=
  c.tensors.find? (fun t => t.kind == 2 && decide (t.va ≤ va) && decide (va < t.va + t.bytes))

/-- The words of a unit. -/
structure Unit64 where
  l : List Int
  w : List Int
  epoch : Word
  deriving DecidableEq, Repr

def Unit64.read (bs : List Byte) : Unit64 :=
  { l := (List.range 64).map (fun e => toSigned 64 (peek bs (8 * e) 8))
    w := (List.range 64).map (fun e => toSigned 32 (peek bs (0x200 + 4 * e) 4))
    epoch := wordOf (peek bs 0x300 4) }

def intBytes (k : Nat) (n : Int) : List Byte := leBytes k (n % 2 ^ (8 * k)).toNat

/-- The first 0x304 bytes of a unit. -/
def Unit64.bytes (u : Unit64) : List Byte :=
  u.l.flatMap (intBytes 8) ++ u.w.flatMap (intBytes 4) ++ leBytes 4 u.epoch.toNat

/-- A unit whose EPOCH differs from the current epoch holds zero (R286). -/
def Unit64.current (u : Unit64) (epoch : Word) : Unit64 :=
  if u.epoch = epoch then u else { l := List.replicate 64 0, w := List.replicate 64 0, epoch := epoch }

/-- One element's addition: the words and whether W changed (R285). -/
def addContribution (l w c dw : Int) : Int × Int × Bool :=
  let t := l + c
  let k := w + dw
  let r := if 2 ^ 63 ≤ t then (t - 2 ^ 64, k + 1) else if t < -(2 ^ 63) then (t + 2 ^ 64, k - 1) else (t, k)
  (r.1, r.2, r.2 != w)

/-- Adds the contributions of a write to a unit, from a first element on. -/
def Unit64.accumulate (u : Unit64) (first : Nat) (cs : List (Int × Int)) : Unit64 × Nat :=
  let r := (u.l.zip u.w).zipIdx.map (fun x =>
    match (if first ≤ x.2 then cs[x.2 - first]? else none) with
    | some c => addContribution x.1.1 x.1.2 c.1 c.2
    | none => (x.1.1, x.1.2, false))
  ({ u with l := r.map (·.1), w := r.map (·.2.1) }, r.countP (·.2.2))

def State.epoch (s : State) (p : Nat) : Word := s.reg (pldReg p 0x304)

/-- The adder's read-modify-write of a unit at a target, for DATA or an accumulate write, with its counts (R285, R303). -/
def State.addWords (s : State) (p : Nat) (x : Target) (first : Nat) (cs : List (Int × Int)) : State :=
  let u := Unit64.read (s.memRead x 1024)
  let r := (u.current (s.epoch p)).accumulate first cs
  let s := (s.memWrite x r.1.bytes).countRead x 1024
  let s := s.bump (redPage x.dev + 0x04C) r.2
  if u.epoch = s.epoch p then s else s.bump (redPage x.dev + 0x05C) 1

/-- An accumulate write is performed, and RED_ACC counts it (R284, R303). -/
def State.addToUnit (s : State) (p : Nat) (x : Target) (first : Nat) (cs : List (Int × Int)) : State :=
  (s.addWords p x first cs).bump64 (redPage x.dev + 0x044) 1

/-! ### Requests -/

def State.findReq (s : State) (id : Nat) : Option Req := s.store.reqs.find? (fun r => r.id == id)

def State.modReq (s : State) (id : Nat) (f : Req → Req) : State :=
  s.modStore (fun m => { m with reqs := m.reqs.map (fun r => if r.id == id then f r else r) })

def State.dropReq (s : State) (id : Nat) : State :=
  s.modStore (fun m => { m with reqs := m.reqs.filter (fun r => r.id != id) })

/-- A request carries no data any more; its message leaves the network. -/
def State.loseReq (s : State) (id : Nat) : State := s.modReq id (fun r => { r with stage := .lost, via := none, path := [] })

/-- The address of a request behind a fault, where it was not run-ahead (R217). -/
def State.noteFaultVa (s : State) (r : Req) : State := if r.runAhead then s else s.setReg64 (faultVaReg r.tile r.q) r.va

/-! #### Waits for request slots (R90, R217) -/

/-- The register that counts the ac in which a request of an engine waits for a slot (R217). -/
def waitSlotReg (t q : Nat) : Nat := dmaReg t (if q = 3 then 0x1C else if q = 4 then 0x5C else 0x9C)

/-- The ac of the wait under way. -/
def State.slotWaitAc (s : State) (t q : Nat) : Nat :=
  match Table.get none (s.tile t).slotWait q with
  | some a => (s.now (acDom (dieOfTile t)) - a).toNat
  | none => 0

/-- A request of an engine waits for a slot from now on, if none waits yet. -/
def State.waitSlot (s : State) (t q : Nat) : State :=
  s.modTile t (fun x => if (Table.get none x.slotWait q).isSome then x
    else { x with slotWait := Table.put none x.slotWait q (some (s.now (acDom (dieOfTile t)))) })

/-- The wait for a slot ends, and its ac count. -/
def State.endSlotWait (s : State) (t q : Nat) : State :=
  if (Table.get none (s.tile t).slotWait q).isSome then
    (s.bump (waitSlotReg t q) (s.slotWaitAc t q)).modTile t (fun x => { x with slotWait := Table.put none x.slotWait q none })
  else s

/-- A request meets an uncorrectable error at its target (R186, R215, R217). -/
def State.requestLost (s : State) (r : Req) (x : Target) : State := (s.noteFaultVa r).memLost x r.polder (r.q + 2) r.tile

/-- Records the first translation fault of a polder (R177, R190). -/
def State.recordXl (s : State) (p code va : Nat) : State :=
  if s.reg (pldReg p 0x238) = 0 then (s.setReg (pldReg p 0x238) (wordOf code)).setReg64 (pldReg p 0x230) va else s

/-- A consumed request of an engine fails translation or a check on the address. -/
def State.requestFault (s : State) (t q code va : Nat) : State :=
  let p := ownerCode (s.tileOwner t)
  let s := if code = 0x0180 then s else s.recordXl p code va
  (s.setReg64 (faultVaReg t q) va).raiseEngine t q code va

/-- The oldest request of a polder that waits at S0's host DMA. -/
def State.hostReq (s : State) (p : Nat) : Option Req :=
  (s.store.reqs.filter (fun r => r.polder == p && r.stage == .hostWait)).foldl (fun o r =>
    match o with
    | none => some r
    | some a => some (if r.arrived < a.arrived then r else a)) none

/-- Host DMA has issued a request on PCIe: its polder's slot has started it (R361, R416). -/
def State.issued (s : State) (r : Req) : Bool := r.stage == .hostWait && (s.slot 16 r.polder).cur == some r.id

/-- Non-posted requests of host DMA outstanding: a host read that it has issued, or an abandoned tag (R359, R428). -/
def State.tagsOut (s : State) : Nat := s.store.reqs.countP (fun r => !r.isWrite && s.issued r) + s.hif.tags.length

/-- PCI_TAGS keeps the highest count since cold start (R428). -/
def State.markTags (s : State) : State :=
  let n := s.tagsOut
  let a := pciPage + 0x064
  if (s.reg a).toNat / 2 ^ 16 < n then s.setReg a (wordOf (n * 2 ^ 16)) else s

/-! ### Messages on their way (R21, R181, R222 to R226)

A request and its response are messages that cross the seams of their route one by one and then wait at their target. Each
seam direction, pseudo-channel, depot channel and collection bank serves one message in a slot of the row frame. -/

/-- The resources that serve messages: 32 pseudo-channels of each stack, 8 channels of each depot device, 64 banks of each
die, and the two directions of each seam (R184, R226). -/
def seamResource (n die : Nat) : Nat := 704 + 2 * n + (if seamDir n die then 1 else 0)

def bankResource (die bank : Nat) : Nat := 448 + 64 * die + bank

/-- The shared engines that start descriptors by the row frame, one in place of one slot: the conservators, and the engines
with slots (R316, R361). -/
def cnsResource (n : Nat) : Nat := 720 + n
def engineResource (e : Nat) : Nat := 732 + e

def Target.resources (x : Target) (len : Nat) : List Nat :=
  match x.space with
  | .hbm => [32 * x.dev + x.off / 1024 % 32]
  | .depot => [384 + 8 * x.dev + x.off / 1024 % 8]
  | .col => [bankResource x.dev (bankOf x.off), bankResource x.dev (bankOf (x.off + len - 1))].eraseDups
  | .host => []

/-- The clock domain of a resource and the length of its slots (R226, R431). -/
def slotClock (res : Nat) : Nat × Nat :=
  if res < 384 then (0x20 + res / 32, 32)
  else if res < 448 then (0x30 + (res - 384) / 8, 64)
  else if res < 704 then (ncDom ((res - 448) / 64), 1)
  else
    let n := (res - 704) / 2
    (ncDom (if res % 2 = 0 then (seamDies n).1 else (seamDies n).2), 1)

/-- The resources at which a message waits: the next seam of its way, or its target. -/
def Req.waitsAt (r : Req) : List Nat :=
  match r.stage, r.path with
  | .routed, n :: _ => [seamResource n r.die]
  | .served, n :: _ => [seamResource n r.die]
  | .routed, [] => match r.tgt with
    | some x => x.resources r.len
    | none => []
  | _, _ => []

/-- Order of arrival; at a bank, what arrives in one nc is read before it is written (R181). -/
def Req.before (res : Nat) (a b : Req) : Bool :=
  if 448 ≤ res && res < 704 then
    decide (a.arrivedNc < b.arrivedNc) ||
      (a.arrivedNc == b.arrivedNc && ((!a.isWrite && b.isWrite) || (a.isWrite == b.isWrite && decide (a.arrived < b.arrived))))
  else decide (a.arrived < b.arrived)

def State.rowFrame (s : State) (res : Nat) : RowFrame := Table.get default s.store.rowFrames res

/-- The first slot from one on that no adder's write has taken as its second (R226). The count bounds how many are taken. -/
def RowFrame.open_ (f : RowFrame) : Nat → Nat → Nat
  | 0, k => k
  | n + 1, k => if f.hold.any (fun e => e.2 == k + 1) then f.open_ n (k + 1) else k

/-- The slot in which a resource serves next: the one in which its counter stands, or the one after the last that it has used, and
none that an adder's write has taken. An engine's frame goes on by a slot with each descriptor.
DESIGN CHOICE: log entry 122. -/
def State.slotOf (s : State) (res : Nat) : Nat :=
  let f := s.rowFrame res
  f.open_ 16 (if 720 ≤ res then f.slot else max f.slot ((s.now (slotClock res).1).toNat / (slotClock res).2))

/-- The message of a list that goes before every other. -/
def firstReq (res : Nat) : List Req → Option Req
  | [] => none
  | r :: l => match firstReq res l with
    | none => some r
    | some x => some (if r.before res x then r else x)

/-- The polder to which a slot is lent. -/
def State.lendsTo (s : State) (res : Nat) (waits : Nat → Bool) : Option Nat :=
  ((List.range 16).map (fun i => ((s.rowFrame res).last + 1 + i) % 16)).find? waits

/-- The polder that a resource serves in its next slot, of those that have something waiting: the one that owns the slot's
row, or else the first after the last one served, in polder ID order (R226). -/
def State.chooses (s : State) (res : Nat) (waits : Nat → Bool) : Option Nat :=
  match s.rowOwner (s.slotOf res % 32) with
  | some p => if waits p then some p else s.lendsTo res waits
  | none => s.lendsTo res waits

/-- The message that a resource serves in its next slot: the oldest one of the polder chosen. A merged read that finds the
merge entries in use is not among the messages given (R182). -/
def State.turn (s : State) (res : Nat) (waiting : List Req) : Option Req :=
  let ws := waiting.filter (fun r => decide (Table.get 0 (s.rowFrame res).hold r.polder ≤ s.slotOf res))
  match s.chooses res (fun p => ws.any (fun r => r.polder == p)) with
  | some p => firstReq res (ws.filter (fun r => r.polder == p))
  | none => none

/-- The slot after a slot that belongs to a polder: a reduction adder's write takes the two (R226). -/
def State.nextOwned (s : State) (p k : Nat) : Nat :=
  match (List.range 32).find? (fun i => s.rowOwner ((k + 1 + i) % 32) == some p) with
  | some i => k + 1 + i
  | none => k + 1

/-- A slot is used for a polder's message; an adder's write takes the polder's next slot as well. -/
def State.useSlot (s : State) (res p : Nat) (twice : Bool) : State :=
  let k := s.slotOf res
  let f := s.rowFrame res
  let hold := if twice then Table.put 0 f.hold p (s.nextOwned p k + 1) else f.hold
  s.modStore (fun m => { m with rowFrames := Table.put default m.rowFrames res { slot := k + 1, last := p, hold := hold } })

/-- The slot of a seam direction goes to another polder than its owner (R226, R230). A slot whose row is in no polder has no owner and
does not count. DEDUCED: log entry 152. -/
def State.lends (s : State) (res p : Nat) : Bool :=
  match s.rowOwner (s.slotOf res % 32) with
  | some o => o != p
  | none => false

/-- A seam direction gives a slot to a polder's message, and counts one that it lends (R226, R230). -/
def State.seamSlot (s : State) (n die p : Nat) : State :=
  let res := seamResource n die
  (if s.lends res p then s.bump (semPage n die + 0x080) 1 else s).useSlot res p false

/-- A polder's bulk or reduction message that crosses a route within one step takes a slot of each seam (R223, R226). -/
def State.polderCrosses (s : State) (p die chan flits : Nat) : List Nat → State
  | [] => s
  | n :: rest =>
    polderCrosses ((s.seamSlot n die p).crossSeam n die chan flits (if rest.isEmpty then 0 else 1)) p (seamFar n die) chan flits rest

/-- An access of a polder's engine takes a slot of each pseudo-channel, depot channel or bank that it touches; an adder's write takes
two (R226). -/
def State.targetSlots (s : State) (p : Nat) (x : Target) (len : Nat) (twice : Bool) : State :=
  s.forEach (x.resources len) (fun s res => s.useSlot res p twice)

/-- The virtual channel of a message: an accumulate write is Reduction, every other request and every response Bulk (R222).
DEDUCED: log entry 22. -/
def State.reqChan (s : State) (r : Req) : Nat :=
  match r.stage, r.tgt with
  | .routed, some x => if r.isWrite && x.space == .hbm && s.store.accFrames.contains x.frame then 3 else 2
  | _, _ => 2

/-- The flits of a message: a read's request and a write's acknowledgement are one flit (R221, R222). -/
def Req.flits (r : Req) : Nat := if r.isWrite == (r.stage == .routed) then seamFlits r.len else 1

/-- The credits of a channel of a seam that are spent: the flits of the messages in its receive buffer at a die (R224). -/
def State.seamHeld (s : State) (n die chan : Nat) : Nat :=
  ((s.store.reqs.filter (fun r => r.via == some n && r.die == die && s.reqChan r == chan)).map Req.flits).sum

/-- A message has the credits to cross a seam (R224). -/
def State.hasCredit (s : State) (r : Req) (n : Nat) : Bool :=
  decide (s.seamHeld n (seamFar n r.die) (s.reqChan r) + r.flits ≤ seamBuffer (s.reqChan r))

/-- A channel of a seam direction has a message that waits for a credit (R224). -/
def State.seamStalled (s : State) (n die chan : Nat) : Bool :=
  s.seamUp n && s.store.reqs.any (fun r => r.waitsAt.contains (seamResource n die) && s.reqChan r == chan && !s.hasCredit r n)

/-- The waits for credits after messages have moved. -/
def State.settleSeams (s : State) : State :=
  s.forEach (List.range 8) (fun s n => s.forEach [(seamDies n).1, (seamDies n).2] (fun s die =>
    (s.stampStall n die 2 (s.seamStalled n die 2)).stampStall n die 3 (s.seamStalled n die 3)))

/-- A message reaches a place where it waits, in the order of arrival. -/
def State.arriveAt (s : State) (id die : Nat) : State :=
  let n := s.store.arrivals
  (s.modReq id (fun r => { r with arrived := n, arrivedNc := (s.now (ncDom die)).toNat })).modStore (fun m => { m with arrivals := n + 1 })

/-- A registration takes effect as a watched request arrives at its target (R208); a request for the host has then reached
S0's host DMA (R179). -/
def State.reachTarget (s : State) (id : Nat) : State :=
  match s.findReq id with
  | none => s
  | some r => match r.tgt with
    | some x =>
      if x.space = .host then (s.modReq id (fun q => { q with stage := .hostWait, via := none })).registerWatch r x
      else s.registerWatch r x
    | none => s

/-- A translated request starts on the fixed route to its target. -/
def State.route (s : State) (id : Nat) (x : Target) : State :=
  match s.findReq id with
  | none => s
  | some r =>
    let die := dieOfTile r.tile
    let way := fixedRoute die x.die
    let s := (s.modReq id (fun q => { q with tgt := some x, stage := .routed, die := die, via := none, path := way })).arriveAt id die
    if way.isEmpty then s.reachTarget id else s

/-- A request has been served: its response starts on the way back. -/
def State.respond (s : State) (id : Nat) (data : List Byte) : State :=
  match s.findReq id with
  | none => s
  | some r =>
    let die := match r.tgt with
      | some x => x.die
      | none => r.die
    (s.modReq id (fun q => { q with data := data, stage := .served, die := die, via := none, path := fixedRoute die (dieOfTile q.tile) })).arriveAt id die

/-- A message crosses the next seam of its way in a slot of the row frame: never a seam out of service (R20), and only with
credits (R224). The message of a polder that is torn down is dropped here (R232). -/
def State.hop (s : State) (r : Req) (n : Nat) (rest : List Nat) : State :=
  if !s.tileLive r.tile then s.dropReq r.id
  else if !s.seamUp n || !s.hasCredit r n then s
  else
    let far := seamFar n r.die
    let s := (s.seamSlot n r.die r.polder).crossSeam n r.die (s.reqChan r) r.flits (if rest.isEmpty then 0 else 1)
    let s := (s.modReq r.id (fun q => { q with die := far, via := some n, path := rest })).arriveAt r.id far
    if rest.isEmpty && r.stage == .routed then s.reachTarget r.id else s

/-! ### Translation buffers (R174, R175) -/

/-- Places an entry at the front of a least-recently-used buffer of a size. -/
def tlbPut (size : Nat) (l : List TlbEntry) (e : TlbEntry) : List TlbEntry :=
  (e :: l.filter (fun x => !(x.win == e.win && x.idx == e.idx))).take size

def tlbFind (l : List TlbEntry) (w i : Nat) : Option TlbEntry := l.find? (fun x => x.win == w && x.idx == i)

/-- The buffer of an engine or stream. -/
def Tile.tlb (x : Tile) (q stream : Nat) : List TlbEntry :=
  if q = 3 then x.dma0.tlb else if q = 4 then x.dma1.tlb else (Table.get default x.ge stream).tlb

def Tile.setTlb (x : Tile) (q stream : Nat) (l : List TlbEntry) : Tile :=
  if q = 3 then { x with dma0 := { x.dma0 with tlb := l } }
  else if q = 4 then { x with dma1 := { x.dma1 with tlb := l } }
  else { x with ge := Table.put default x.ge stream { Table.get default x.ge stream with tlb := l } }

def tlbSize (q : Nat) : Nat := if q = 5 then 4 else 16

def State.fillTlb (s : State) (t q stream : Nat) (e : TlbEntry) : State :=
  s.modTile t (fun x => x.setTlb q stream (tlbPut (tlbSize q) (x.tlb q stream) e))

def State.walkCache (s : State) (die : Nat) : List WalkEntry := Table.get [] s.store.walkers die

def State.setWalkCache (s : State) (die : Nat) (l : List WalkEntry) : State :=
  s.modStore (fun m => { m with walkers := Table.put [] m.walkers die l })

def walkMatch (p w i : Nat) (e : WalkEntry) : Bool := e.polder == p && e.win == w && e.idx == i

/-- The entries of the line around a walked entry that lie inside the walked window (R174). -/
def State.lineEntries (s : State) (die p w i : Nat) : List WalkEntry :=
  let base := s.xlBase p w
  let lo := (base + i) / 8 * 8
  (List.range 8).filterMap (fun k =>
    if base ≤ lo + k && lo + k < base + s.xlCount p w then
      some { polder := p, win := w, idx := lo + k - base, entry := dwordOf (s.tableEntry die (lo + k)) }
    else none)

/-- The depot target of a table line, in the lowest 256 MiB of the firmware region of D0 or D4 (R169, R171). -/
def State.tableTarget (s : State) (die i : Nat) : Target :=
  { space := .depot, dev := if s.readsD0 die then 0 else 4, off := (40960 - 512) * 2 ^ 21 + i / 8 * 64 }

/-- The read of a table line by a die's walker crosses the seams of the route to the copy and back, a flit each way, in slots of the
polder walked for (R23, R174, R226). -/
def State.lineCrosses (s : State) (die p : Nat) (line : Target) : State :=
  let way := s.managementRoute die line.die
  ((s.polderCrosses p die 2 1 way).targetSlots p line 64 false).polderCrosses p line.die 2 1 way.reverse

/-- A walk that misses the walk cache reads the table line (R174, R186, R190). -/
def State.readLine (s : State) (die p w i : Nat) : State :=
  let line := s.tableTarget die (s.xlBase p w + i)
  ((s.bump64 (pldReg p 0x248) 1).countRead line 64).lineCrosses die p line

/-- An uncorrectable error of a table line: the walking polder is torn down, and the curator restores the line from the
other copy (R186). The cause names the master that the walk was for. -/
def State.lineLost (s : State) (line : Target) (p kind unit : Nat) : State :=
  let s := (s.bump (line.page + 0x058) 1).setReg (line.page + 0x060) (wordOf line.lastWord)
  let s := (s.setIrq line.page 2).logError line.page 2 0x0560 unit p
  s.sendCause { polder := p, code := 0x0560, kind := kind, unit := unit, addr := line.off }

/-- A line that was read goes to the walk cache, as far as it lies in the walked window. -/
def State.cacheLine (s : State) (die p w i : Nat) : State :=
  let es := s.lineEntries die p w i
  let rest := (s.walkCache die).filter (fun c => !es.any (fun e => walkMatch e.polder e.win e.idx c))
  s.setWalkCache die ((es ++ rest).take 2048)

/-- A walk for an index of a window by a die's walker: the entry, or none where an uncorrectable error of the line withholds
it (R174, R186, R190). Whether it hits is decided as it is answered, so that a walk behind a miss of the same line hits. DEDUCED: log
entry 153. -/
def State.walk (s : State) (die p w i : Nat) (ecc : Ecc) (kind unit : Nat) : Option Nat × State :=
  let s := s.bump64 (pldReg p 0x240) 1
  match (s.walkCache die).find? (walkMatch p w i) with
  | some c =>
    let rest := (s.walkCache die).filter (fun x => !walkMatch p w i x)
    (some c.entry.toNat, s.setWalkCache die (c :: rest))
  | none =>
    let line := s.tableTarget die (s.xlBase p w + i)
    let s := s.readLine die p w i
    match ecc with
    | .uncorrectable => (none, s.lineLost line p kind unit)
    | _ =>
      let s := if ecc = .corrected then s.memCorrected line else s
      (some (s.tableEntry die (s.xlBase p w + i)), s.cacheLine die p w i)

/-- The walker keeps 16 walks outstanding and answers them in order of arrival (R174). -/
def State.walksOut (s : State) (die : Nat) : List Req :=
  (s.store.reqs.filter (fun r => r.stage == .walking && dieOfTile r.tile == die)).take 16

/-- Before an edit drops a range of a window: the walks in flight in it will answer with the entries as they are, and cache
nothing (R178). -/
def State.holdWalks (s : State) (p : Nat) (hit : Nat → Nat → Bool) : State :=
  s.forEach (List.range 4) (fun s die =>
    s.forEach (s.walksOut die) (fun s r =>
      match windowOf r.va with
      | none => s
      | some w =>
        let i := pageIndex w r.va
        if r.polder == p && hit w i && r.stale.isNone then
          let miss := ((s.walkCache die).find? (walkMatch p w i)).isNone
          let s := if miss then s.readLine die p w i else s
          s.modReq r.id (fun q => { q with stale := some (dwordOf (s.tableEntry die (s.xlBase p w + i))), staleLine := miss })
        else s))

/-- The answer of a walk: the entry goes to the engine's buffer unless an edit has dropped it, and the request goes on or
faults. -/
def State.walkAnswer (s : State) (r : Req) (w i e : Nat) : State :=
  match entryTarget e r.va r.isWrite with
  | .fault code => (s.loseReq r.id).requestFault r.tile r.q code r.va
  | .at_ x =>
    let s := if r.stale.isNone then s.fillTlb r.tile r.q r.stream { win := w, idx := i, entry := dwordOf e } else s
    (s.route r.id x).settleSeams

/-- The answer of a walk whose range an edit has dropped: the entry as it was, and what the error correction finds in the line where
the walk read it (R178, R186). -/
def State.staleAnswer (s : State) (r : Req) (w : Nat) (ecc : Ecc) (e : Nat) : State :=
  let s := s.bump64 (pldReg r.polder 0x240) 1
  let line := s.tableTarget (dieOfTile r.tile) (s.xlBase r.polder w + pageIndex w r.va)
  match ecc, r.staleLine with
  | .uncorrectable, true => ((s.lineLost line r.polder (r.q + 2) r.tile).loseReq r.id).noteFaultVa r
  | .corrected, true => (s.memCorrected line).walkAnswer r w (pageIndex w r.va) e
  | _, _ => s.walkAnswer r w (pageIndex w r.va) e

/-- TABLE_WALK: the die's walker answers its oldest outstanding walk (R174). -/
def execTableWalk (req : Nat) (ecc : Ecc) (s : State) : Host.Outcome State Fault Refusal :=
  .next (match s.findReq req with
    | none => s
    | some r =>
      let die := dieOfTile r.tile
      if (s.walksOut die).head? != some r then s
      else if !s.tileLive r.tile then s.dropReq req
      else match windowOf r.va, r.stale with
        | none, _ => s
        | some w, some e => s.staleAnswer r w ecc e.toNat
        | some w, none =>
          let x := s.walk die r.polder w (pageIndex w r.va) ecc (r.q + 2) r.tile
          match x.1 with
          | some e => x.2.walkAnswer r w (pageIndex w r.va) e
          | none => (x.2.loseReq r.id).noteFaultVa r)

/-! ### Accesses (R181 to R186, R207) -/

/-- The rows of the collection that a request touches: bank and row (R181). -/
def Target.rows (x : Target) (len : Nat) : List (Nat × Nat) :=
  let a := (bankOf x.off, bankRow x.off)
  let b := (bankOf (x.off + len - 1), bankRow (x.off + len - 1))
  if a = b then [a] else [a, b]

def Merge.is (m : Merge) (die bank row : Nat) : Bool := m.die == die && m.bank == bank && m.row == row

/-- A write to a row waits at its bank and has arrived before a read, and closes the row's entry to it (R181, R182, R191). -/
def State.closedTo (s : State) (r : Req) (die bank row : Nat) : Bool :=
  s.store.reqs.any (fun w => w.isWrite && w.waitsAt.contains (bankResource die bank) && w.before (bankResource die bank) r &&
    w.tgt.any (fun y => (y.rows w.len).contains (bank, row)))

/-- The entry that a merged read can join: its row, its polder, still open to joiners, the read arrived within 15 nc and before any
write to the row (R182, R191). -/
def State.joinable (s : State) (r : Req) (die bank row : Nat) (m : Merge) : Bool :=
  m.is die bank row && m.polder == r.polder && m.joinable && decide (r.arrivedNc ≤ m.opened.toNat + 15) && !s.closedTo r die bank row

def State.bankEntries (s : State) (die bank : Nat) : Nat := s.store.merges.countP (fun m => m.die == die && m.bank == bank)

/-- The 512 bytes of a collection row. -/
def State.colRow (s : State) (die bank row : Nat) : List Byte :=
  s.memRead { space := .col, dev := die, off := row * 32768 + bank * 512 } 512

/-- A merged read joins or opens the entry of one row. -/
def State.joinRow (s : State) (r : Req) (die bank row : Nat) : State :=
  if s.store.merges.any (s.joinable r die bank row) then
    s.modStore (fun m => { m with merges := m.merges.map (fun e =>
      if s.joinable r die bank row e then { e with joined := e.joined ++ [r.id] } else e) })
  else
    let e : Merge := { die := die, bank := bank, row := row, polder := r.polder, opened := s.now (ncDom die), joinable := true,
                       joined := [r.id], data := s.colRow die bank row, spoilt := false }
    (s.modStore (fun m => { m with merges := m.merges ++ [e] })).countRead
      { space := .col, dev := die, off := row * 32768 + bank * 512 } 512

/-- A read is served: its data are the bytes at its target now (R207). -/
def State.serveRead (s : State) (r : Req) (x : Target) : State := (s.respond r.id (s.memRead x r.len)).countRead x r.len

/-- A read that requests merging in the collection window is a merged read. -/
def Req.merges (r : Req) (x : Target) : Bool := r.merge && x.space == .col

/-- The rows of a merged read that no open entry holds, each of which opens one. -/
def State.opens (s : State) (r : Req) (x : Target) : List (Nat × Nat) :=
  (x.rows r.len).filter (fun b => !s.store.merges.any (s.joinable r x.dev b.1 b.2))

/-- A merged read waits at a bank whose four entries are in use (R182). -/
def State.mergesFull (s : State) (r : Req) (x : Target) : Bool :=
  (s.opens r x).any (fun b => decide (4 ≤ s.bankEntries x.dev b.1))

/-- A merged read of the collection waits in its rows' entries (R182). -/
def State.serveMerged (s : State) (r : Req) (x : Target) : State :=
  let s := s.modReq r.id (fun q => { q with stage := .merging, via := none, data := List.replicate r.len 0 })
  s.forEach (x.rows r.len) (fun s b => s.joinRow r x.dev b.1 b.2)

/-- A merged read whose rows meet an uncorrectable error: the entries that it opens deliver nothing to any reader (R186). -/
def State.spoilMerged (s : State) (r : Req) (x : Target) : State :=
  let rows := s.opens r x
  let s := (s.requestLost r x).serveMerged r x
  s.modStore (fun m => { m with merges := m.merges.map (fun e =>
    if e.joinable && rows.any (fun b => e.is x.dev b.1 b.2) then { e with spoilt := true } else e) })

/-- A write closes the open entries of its rows to joiners (R182). -/
def State.closeMerges (s : State) (x : Target) (len : Nat) : State :=
  if x.space = .col then
    s.modStore (fun m => { m with merges := m.merges.map (fun e =>
      if (x.rows len).any (fun b => e.is x.dev b.1 b.2) then { e with joinable := false } else e) })
  else s

/-- A write to a frame under the accumulate mark. -/
def State.accumulates (s : State) (x : Target) : Bool := x.space == .hbm && s.store.accFrames.contains x.frame

/-- The accumulate form of R284: wholly within bytes 0x000 to 0x1FF of a unit u ≥ 1. -/
def State.accForm (s : State) (r : Req) : Bool :=
  match (s.pld r.polder).cat.gradientAt r.va with
  | none => false
  | some t => decide (1 ≤ (r.va - t.va) / 1024) && decide (r.va % 1024 + r.len ≤ 512)

/-- The adders' page shows a violation at an accumulate frame (R284, R303). -/
def State.showViolation (s : State) (x : Target) (code : Nat) : State :=
  (s.setReg (redPage x.dev + 0x060) (wordOf code)).setIrq (redPage x.dev) 1

/-- A violation of a tile engine at an accumulate frame: the master freezes (R284, R303). -/
def State.accViolation (s : State) (r : Req) (x : Target) (code : Nat) : State :=
  let s := s.showViolation x code
  ((s.loseReq r.id).setReg64 (faultVaReg r.tile r.q) r.va).raiseEngine r.tile r.q code r.va

/-- A write of a tile engine is served at its target. -/
def State.serveWrite (s : State) (r : Req) (x : Target) : State :=
  ((s.closeMerges x r.len).landWrite r.polder (r.q + 2) r.tile r.va x r.data).respond r.id r.data

/-- The messages that a resource can serve: at a seam those with credits, where none before them of their polder and channel
waits for one (R224); at a bank all but the merged reads that wait for a merge entry (R182), and the writes in the nc of their arrival,
in which a read of the row may still come (R181). -/
def State.waiting (s : State) (res : Nat) : List Req :=
  let ws := s.store.reqs.filter (fun r => r.waitsAt.contains res)
  if 704 ≤ res then
    let n := (res - 704) / 2
    ws.filter (fun r => s.hasCredit r n &&
      !ws.any (fun x => x.polder == r.polder && s.reqChan x == s.reqChan r && x.before res r && !s.hasCredit x n))
  else ws.filter (fun r => match r.tgt with
    | some x => !(r.merges x && s.mergesFull r x) &&
        !(r.isWrite && x.space == .col && r.arrivedNc == (s.now (ncDom x.dev)).toNat)
    | none => true)

/-- The resources at which a message waits serve it next (R226); a message that touches two banks takes a slot of both. -/
def State.isTurn (s : State) (r : Req) : Bool :=
  !r.waitsAt.isEmpty && r.waitsAt.all (fun res => s.turn res (s.waiting res) == some r)

/-- The slots that a message at its target takes. -/
def State.takeSlots (s : State) (r : Req) (twice : Bool) : State := s.forEach r.waitsAt (fun s res => s.useSlot res r.polder twice)

/-- A request that has come to its target is served there. The write of an accumulate unit is the adder's (ACCUMULATE_WRITE). -/
def State.serveAtTarget (s : State) (r : Req) (x : Target) (ecc : Ecc) : State :=
  if r.isWrite then
    if !s.accumulates x then s.serveWrite r x
    else if s.accForm r then s
    else s.accViolation r x 0x0151
  else match ecc with
    | .uncorrectable => if r.merges x then s.spoilMerged r x else (s.loseReq r.id).requestLost r x
    | _ =>
      let s := if ecc = .corrected then s.memCorrected x else s
      if r.merges x then s.serveMerged r x else s.serveRead r x

/-- A merged read whose rows are all held joins their entries as it is there, with no access of its own (R182). -/
def State.joinsAll (s : State) (r : Req) (x : Target) : Bool := !r.isWrite && r.merges x && (s.opens r x).isEmpty

/-- MEMORY_ACCESS: a pseudo-channel, depot channel, collection bank or seam serves a message in a slot of the row frame
(R181, R223, R226). -/
def execMemoryAccess (req : Nat) (ecc : Ecc) (s : State) : Host.Outcome State Fault Refusal :=
  .next (match s.findReq req with
    | none => s
    | some r =>
      match r.path, r.stage, r.tgt with
      | n :: rest, _, _ => if s.isTurn r then (s.hop r n rest).settleSeams else s
      | [], .routed, some x =>
        if s.joinsAll r x then (s.serveMerged r x).settleSeams
        else if !s.isTurn r || (r.isWrite && s.accumulates x && s.accForm r) then s
        else ((s.takeSlots r false).serveAtTarget r x ecc).settleSeams
      | _, _, _ => s)

/-- Replaces the bytes of a joined read that a row covers. -/
def spliceRow (r : Req) (x : Target) (row : List Byte) (bank rowNo : Nat) : List Byte :=
  let base := rowNo * 32768 + bank * 512
  r.data.zipIdx.map (fun b =>
    let a := x.off + b.2
    if base ≤ a && a < base + 512 then (row[a - base]?).getD 0 else b.1)

/-- The row goes to one joined reader, which is served once no other entry holds it. A spoilt entry withholds it. -/
def State.multicast (s : State) (m : Merge) (id : Nat) : State :=
  match s.findReq id with
  | none => s
  | some r =>
    match r.tgt with
    | none => s
    | some x =>
      if m.spoilt then s.loseReq id
      else if r.stage = .lost then s
      else
        let waits := s.store.merges.any (fun e => e.joined.contains id)
        let s := s.modReq id (fun q => { q with data := spliceRow r x m.data m.bank m.row })
        if waits then s
        else if !s.routeUp m.die (dieOfTile r.tile) then s.loseReq id
        else s.modReq id (fun q => { q with stage := .served, die := dieOfTile q.tile, path := [] })

/-- The row crosses each seam towards its joined readers once, however many of them it leads to (R182, R222). The crossing is
part of the one step: log entry 123. -/
def State.multicastCrosses (s : State) (m : Merge) : State :=
  let dies := ((m.joined.filterMap (fun id => s.findReq id)).map (fun r => dieOfTile r.tile)).eraseDups
  let edges := ((dies.filter (fun d => d != m.die && s.routeUp m.die d)).flatMap (fun d => routeEdges m.die (fixedRoute m.die d))).eraseDups
  s.forEach edges (fun s e =>
    (s.seamSlot e.1 e.2 m.polder).crossSeam e.1 e.2 2 (seamFlits 512) (if edges.any (fun f => f.2 == seamFar e.1 e.2) then 1 else 0))

/-- MERGE_WINDOW_CLOSE: at nc t + 16 the bank sends the row to every joined reader (R182). -/
def execMergeWindowClose (die : BitVec 2) (bank : BitVec 6) (row : BitVec 12) (s : State) : Host.Outcome State Fault Refusal :=
  .next (match s.store.merges.find? (fun m => m.is die.toNat bank.toNat row.toNat) with
    | none => s
    | some m =>
      if s.elapsed (ncDom die.toNat) m.opened 16 then
        let s := s.modStore (fun x => { x with merges := x.merges.filter (· != m) })
        let s := if m.spoilt then s else s.multicastCrosses m
        (s.forEach m.joined (fun s id => s.multicast m id)).settleSeams
      else s)

/-- ACCUMULATE_WRITE: a reduction adder adds the words of an accumulate write (R284, R285). -/
def execAccumulateWrite (req : Nat) (ecc : Ecc) (s : State) : Host.Outcome State Fault Refusal :=
  .next (match s.findReq req with
    | none => s
    | some r =>
      match r.stage, r.tgt with
      | .routed, some x =>
        if !(r.isWrite && s.accumulates x && s.accForm r && s.isTurn r && r.path.isEmpty) then s
        else if (s.pld r.polder).train.phase != .slots then ((s.takeSlots r true).accViolation r x 0x0152).settleSeams
        else
          let s := s.takeSlots r true
          let unit : Target := { x with off := x.off / 1024 * 1024 }
          match ecc with
          | .uncorrectable => ((s.loseReq req).requestLost r unit).settleSeams
          | _ =>
            let s := if ecc = .corrected then s.memCorrected unit else s
            let cs := (List.range (r.len / 8)).map (fun i => (toSigned 64 (peek r.data (8 * i) 8), (0 : Int)))
            let s := (s.watchCheck r.polder (r.q + 2) r.tile r.va r.len x).discardRunAhead r.polder r.va r.len
            ((s.addToUnit r.polder unit (x.off % 1024 / 8) cs).respond req r.data).settleSeams
      | _, _ => s)

/-! ### Seepage windows and edits (R178, R187) -/

/-- The page and number of a seepage unit. -/
def seepPlace : SeepUnit → Nat × Nat
  | .hbm n => (hmcPage n.val, n.val)
  | .depot n => (depPage n.toNat, 12 + n.toNat)
  | .collection d g => (page d.toNat 0x02 g.toNat, 20 + 8 * d.toNat + g.toNat)

/-- SEEPAGE_WINDOW_CLOSE: CE_WIN takes the window's count, and a crossing of the threshold is journalled once a usage interval (R187, R485). -/
def execSeepageWindowClose (u : SeepUnit) (s : State) : Host.Outcome State Fault Refusal :=
  let w := seepPlace u
  let size := 2 ^ field (s.reg (w.1 + 0x050)).toNat 0 6
  .next (
    if Table.get 0 s.store.readBytes w.2 < size then s
    else
      let s := s.modStore (fun m => { m with readBytes := Table.put 0 m.readBytes w.2 (Table.get 0 m.readBytes w.2 - size) })
      let win := s.reg (w.1 + 0x04C)
      let s := (s.setReg (w.1 + 0x048) win).setReg (w.1 + 0x04C) 0
      let th := s.reg (w.1 + 0x054)
      if th != 0 && decide (th < win) then
        let s := s.setIrq w.1 1
        if s.journal.seepDone.contains w.2 then s
        else
          (s.modJournal (fun j => { j with seepDone := j.seepDone ++ [w.2] })).append 8
            [w.2, s.reg64 (w.1 + 0x040), win.toNat, field (s.reg (w.1 + 0x050)).toNat 0 6, th.toNat]
      else s)

/-- Drops a polder's translations of a range of a window from every walker and engine (R175, R178). -/
def State.dropXl (s : State) (p : Nat) (hit : Nat → Nat → Bool) : State :=
  let s := s.modStore (fun m => { m with walkers := m.walkers.filterMap (fun e =>
    let l := e.2.filter (fun c => !(c.polder == p && hit c.win c.idx))
    if l.isEmpty then none else some (e.1, l)) })
  s.forEach (s.pld p).tiles (fun s t =>
    let keep (l : List TlbEntry) := l.filter (fun c => !hit c.win c.idx)
    s.modTile t (fun x =>
      let x := (x.setTlb 3 0 (keep (x.tlb 3 0))).setTlb 4 0 (keep (x.tlb 4 0))
      (List.range 4).foldl (fun x i => x.setTlb 5 i (keep (x.tlb 5 i))) x))

/-- TRANSLATION_EDIT_COMPLETE: no request translated by a dropped entry is left (R178, R415). -/
def execTranslationEditComplete (p : PolderId) (s : State) : Host.Outcome State Fault Refusal :=
  let x := s.pld p.toNat
  .next (match x.editChannel, x.editRange with
    | some c, some (first, count) =>
      let lo := windowStart 3 + first * 2 ^ 21
      let hi := lo + count * 2 ^ 21
      if s.store.reqs.any (fun r => r.polder == p.toNat && (r.tgt.isSome || r.stale.isSome) && r.stage != .lost && decide (lo ≤ r.va) && decide (r.va < hi)) then s
      else
        let s := s.modPld p.toNat (fun x => { x with editChannel := none, editRange := none })
        (s.bump (pldReg p.toNat 0x218) 1).replyEcho c 0
    | _, _ => s)

end Sys2Proof.Machine
end

