-- ==== Sys2Proof/Machine/Power.lean ====
section
/-!
DEFINITION. Arithmetic clock steps, power budget and windows, calibration, THROTTLE_N, thermal control and regulators (R243, R433 to R449, R485).
-/

namespace Sys2Proof.Machine

/-! ### Declared power (R242, R243) -/

/-- Watts of a tile row of a load class (R242). -/
def classWatts (c : Nat) : Nat := 16 * (c + 1)

/-- The declared power of a polder's assigned rows, on all dies or on one. -/
def Polder.watts (x : Polder) : Nat := x.rows.length * classWatts x.cat.loadClass
def Polder.wattsOn (x : Polder) (d : Nat) : Nat := x.rows.countP (fun r => r / 8 == d) * classWatts x.cat.loadClass

def sumOver (f : Nat → Nat) (l : List Nat) : Nat := l.foldl (fun n i => n + f i) 0

/-- The load point: the sum over all resident polders (R441). -/
def State.loadPoint (s : State) : Nat := sumOver (fun p => (s.pld p).watts) (List.range 16)
def State.dieLimit (s : State) (d : Nat) : Nat := sumOver (fun p => (s.pld p).wattsOn d) (List.range 16)

/-- The tile budget: the cap less 952 W (R243). -/
def State.tileBudget (s : State) : Nat := (s.reg (pwrPage 4 + 0x064)).toNat - 952

/-! ### Steps (R433 to R435) -/

/-- The step of an AC_MHZ (R433). -/
def acStep (mhz : Nat) : Option Nat := (List.range 8).find? (fun k => 700 + 200 * k == mhz)

/-- A die's target: the highest AC_MHZ among the polders with rows on it, or the floor (R435). -/
def State.target (s : State) (d : Nat) : Nat :=
  (List.range 16).foldl (fun m p =>
    let x := s.pld p
    if x.rows.any (fun r => r / 8 == d) then max m ((acStep x.cat.acMhz).getD 0) else m) 0

/-- The floor holds for THROTTLE_N, a regulator fault, input undervoltage and THERMTRIP_N (R435, R447, R521). -/
def State.atFloor (s : State) (d : Nat) : Bool :=
  s.board.throttled || s.board.undervoltage || s.board.thermtrip || (s.die d).regFault

/-- The step that R435 gives a die. -/
def State.wanted (s : State) (d : Nat) : Nat :=
  if s.atFloor d then 0 else min (s.target d) (min (s.die d).power (s.die d).thermal)

/-- A die goes down to a lower step at once and counts it; a rise starts with the voltage and ends with AC_STEP_UP (R434, R449). A rise
from the floor that the floor abandons counts as a step down too (R451). DEDUCED: log entry 165. -/
def State.retuneDie (s : State) (d : Nat) : State :=
  let w := s.wanted d
  let s := s.modDie d (fun x => { x with target := s.target d })
  if w < (s.die d).step then
    (s.bump (pwrPage d + 0x05C) 1).modDie d (fun x => { x with step := w, upDue := false })
  else if (s.die d).step < w then
    if (s.die d).upDue then s else s.modDie d (fun x => { x with upDue := true, upNc := s.now (ncDom d) })
  else
    let s := if (s.die d).upDue && s.atFloor d then s.bump (pwrPage d + 0x05C) 1 else s
    s.modDie d (fun x => { x with upDue := false })

def State.retune (s : State) : State := s.forEach (List.range 4) (fun s d => s.retuneDie d)

/-- AC_STEP_UP: the frequency follows the voltage after 4 µs, one step at a time (R434). -/
def execAcStepUp (die : BitVec 2) (s : State) : Host.Outcome State Fault Refusal :=
  let d := die.toNat
  .next (
    if (s.die d).upDue && s.elapsed (ncDom d) (s.die d).upNc 6400 then
      (s.modDie d (fun x => { x with step := x.step + 1, upDue := false })).retuneDie d
    else s)

/-! ### Calibration (R441, R442) -/

/-- Linear interpolation between two points, rounded up. -/
def interpolate (p t1 v1 t2 v2 : Nat) : Nat :=
  if v1 ≤ v2 then v1 + ((v2 - v1) * (p - t1) + (t2 - t1 - 1)) / (t2 - t1) else v1 - (v1 - v2) * (p - t1) / (t2 - t1)

/-- The points in order of their tags. -/
def byTag (l : List CalPoint) : List CalPoint := inOrder (fun a b => decide (a.load ≤ b.load)) l

/-- The value of a load point from points in order of their tags, or none in the stale range. -/
def calValue (p : Nat) (pick : CalPoint → Nat) : List CalPoint → Option Nat
  | [] => none
  | [a] => if 10 * p ≤ 11 * a.load then some (pick a) else none
  | a :: b :: rest =>
    if p ≤ a.load then some (pick a)
    else if p ≤ b.load then some (interpolate p a.load (pick a) b.load (pick b))
    else calValue p pick (b :: rest)

/-- The thermal offset that a die's estimate adds, in 0.125 °C. -/
def State.thermalOffset (s : State) (d : Nat) : Nat := field (s.reg (pwrPage d + 0x048)).toNat 8 8

/-- The curator recomputes a die's guard band and offset for the load point (R441, R442). -/
def State.calibrateDie (s : State) (d : Nat) : State :=
  let p := s.loadPoint
  let band := if d < 4 then calValue p (·.mv) (byTag (s.die d).cal) else some 0
  let off := calValue p (·.off) (byTag (s.die d).cal)
  let stale := (if band.isNone then 1 else 0) + (if off.isNone then 2 else 0)
  let s := s.setReg (pwrPage d + 0x048) (wordOf (band.getD 50 % 256 + off.getD 48 % 256 * 2 ^ 8 + p * 2 ^ 16))
  let s := s.setReg (pwrPage d + 0x044) (wordOf stale)
  if stale = 0 then s else s.setIrq (pwrPage d) 1

def State.calibrate (s : State) : State := s.forEach (List.range 6) (fun s d => s.calibrateDie d)

/-! ### Power windows (R437) -/

/-- The energy of a die that nothing measures grows by a free amount. -/
def State.meterEnergy (s : State) (d : Nat) : State :=
  let v := s.draw
  v.2.modDie d (fun x => { x with energy := x.energy + v.1.toNat })

/-- The step that a die ran at before an edge of its power windows, where both requests may fall (R437, R446, R451). -/
def DiePower.ranAt (x : DiePower) (edge : Nat) : Nat := if x.edge = edge then x.ran else x.step

/-- A request falls at an edge. -/
def DiePower.atEdge (x : DiePower) (edge : Nat) : DiePower := { x with ran := x.ranAt edge, edge := edge }

/-- POWER_WINDOW: the die's average of the window that ended moves its power request (R437). The milliwatts are the measurement. -/
def execPowerWindow (die : BitVec 2) (mw : Word) (s : State) : Host.Outcome State Fault Refusal :=
  let d := die.toNat
  .next (
    if !bitAt s.boot.dieUp d || (s.now (ncDom d)).toNat < ((s.die d).windows + 1) * 4096 then s
    else
      let limit := s.dieLimit d * 1000
      let s := s.setReg (pwrPage d + 0x04C) mw
      let s := s.modDie d (fun x =>
        let edge := x.windows + 1
        let x := { x with windows := edge, energy := x.energy + mw.toNat, powerNear := closeTo (s.now (ncDom d)) (dwordOf (edge * 4096)) }
        if limit < mw.toNat then { x.atEdge edge with power := x.ranAt edge - 1, below := 0 }
        else if mw.toNat * 10 < limit * 9 then
          if x.below = 15 then { x with power := min 7 (x.power + 1), below := 0 } else { x with below := x.below + 1 }
        else { x with below := 0 })
      s.retuneDie d)

/-- PWR_ENERGY: 2.56 µs of each milliwatt summed, in mJ (R437, R449). -/
def DiePower.millijoules (x : DiePower) : Nat := x.energy * 256 / 10 ^ 8

/-! ### Thermal control (R446, R447, R485) -/

/-- The thermal band of an estimate in 0.125 °C (R485). -/
def bandOf (e : Int) : Nat := if e < 320 then 0 else min 15 ((e.toNat - 320) / 40 + 1)

/-- An estimate, and the highest since the cold start. -/
def DiePower.heated (x : DiePower) (e : Int) : DiePower := { x with hot := e, hottest := some ((x.hottest.map (max e)).getD e) }

/-- A die's estimate of an evaluation: PWR_TEMP, its thermal cycles and the time in its band. -/
def State.noteEstimate (s : State) (d : Nat) (e : Int) : State :=
  s.modDie d (fun x =>
    let x := { x.heated e with bands := Table.put 0 x.bands (bandOf e) (Table.get 0 x.bands (bandOf e) + 1) }
    if e ≤ 360 then { x with cycleLow := true }
    else if 680 ≤ e && x.cycleLow then { x with cycleLow := false, cycles := x.cycles + 1 }
    else x)

/-- THERMAL_EVALUATION: the hottest sensors of the die and of its seamed S-die and its hottest stack, in 0.125 °C, move the
thermal request (R446). The even F-die of a pair also evaluates its S-die. -/
def execThermalEvaluation (die : BitVec 2) (hot shoreHot stackHot : Int) (s : State) : Host.Outcome State Fault Refusal :=
  let d := die.toNat
  let sd := 4 + d / 2
  .next (
    if !bitAt s.boot.dieUp d || (s.now (ncDom d)).toNat < ((s.die d).thermals + 1) * 131072 then s
    else
      let e := hot + s.thermalOffset d
      let es := shoreHot + s.thermalOffset sd
      let s := s.noteEstimate d e
      let s := if d % 2 = 0 then s.noteEstimate sd es else s
      let edge := ((s.die d).thermals + 1) * 32
      let s := s.modDie d (fun x => { x with thermals := x.thermals + 1, thermalNear := closeTo (s.now (ncDom d)) (dwordOf (edge * 4096)) })
      let run := (s.die d).ranAt edge
      let s :=
        if 800 ≤ e || 800 ≤ es || 760 ≤ stackHot then
          let s := s.modDie d (fun x => { x.atEdge edge with thermal := run - 1 })
          if 0 < run then s.setIrq (pwrPage d) 8 else s
        else if e ≤ 776 && es ≤ 776 && stackHot < 736 then s.modDie d (fun x => { x with thermal := min 7 (x.thermal + 1) })
        else s
      s.retuneDie d)

/-- THERMTRIP: a die's estimate reaches 115 °C (R447). -/
def execThermtrip (die : Fin 6) (hot : Int) (s : State) : Host.Outcome State Fault Refusal :=
  let d := die.val
  let e := hot + s.thermalOffset d
  .next (
    if s.board.thermtrip || !s.board.vaux || !s.board.vin || e < 920 then s
    else
      let s := s.modDie d (fun x => x.heated e)
      let s := s.modBoard (fun b => { b with thermtrip := true })
      let s := s.forEach (List.range 6) (fun s k => s.setIrq (pwrPage k) 16)
      let s := s.logError (pwrPage d) 2 0x0C01 0xFFFF 0x1F
      s.retune.failPart 0x0C01 (failRankOf d false 40) 0xFFFF)

/-- REGULATOR_FAULT: the die is held at the floor and its polders are torn down; a die without any output is lost (R448). -/
def execRegulatorFault (die : BitVec 2) (lost : Bool) (s : State) : Host.Outcome State Fault Refusal :=
  let d := die.toNat
  .next (
    if !bitAt s.boot.dieUp d then s
    else
      let s := (s.modDie d (fun x => { x with regFault := true })).retuneDie d
      let s := (s.setIrq (pwrPage d) 32).logError (pwrPage d) 2 0x0C02 0xFFFF 0x1F
      let s := s.forEach (List.range 16) (fun s p =>
        let x := s.pld p
        if x.state.resident && x.rows.any (fun r => r / 8 == d) then s.raisePart p 0x0C02 0xFFFF 0 else s)
      if lost then s.loseDie d else s)

/-! ### THROTTLE_N (R443 to R445) -/

/-- The report interval in cc (R445). -/
def State.reportCc (s : State) : Nat := field (s.reg (pwrPage 4 + 0x068)).toNat 0 16 * 1200000

/-- A report that the pin is held. -/
def State.reportHeld (s : State) : State := (s.bump (pwrPage 4 + 0x070) 1).setIrq (pwrPage 4) 4

/-- The pin is taken as asserted. An interval of 0 makes its one report here. DEDUCED: log entry 146. -/
def State.acceptThrottle (s : State) : State :=
  let s := s.modBoard (fun b => { b with throttled := true, acceptCc := s.cc, reported := 0 })
  let s := (s.bump (pwrPage 4 + 0x06C) 1).setIrq (pwrPage 4) 2
  (if s.reportCc = 0 then s.reportHeld else s).retune

/-- An edge lies near the start or the end of the windows that the filter keeps from the edges before it: 1 200 or 12 000 cc from the
last one, and 2 400 cc from the first of three (R432, R443, R444). -/
def Board.edgeNear (b : Board) (cc : Dword) : Bool :=
  b.edges.getLast?.any (fun e => closeTo cc e || closeTo cc (e + if b.unstable then 12000 else 1200)) ||
    (match b.edges with
     | [e, _] => closeTo cc (e + 2400)
     | [_, e, _] => closeTo cc (e + 2400)
     | _ => false)

def State.sinceEdge (s : State) (n : Nat) : Bool :=
  match s.board.edges.getLast? with
  | some e => s.elapsed ccDom e n
  | none => false

/-- THROTTLE_N_EDGE: the filter restarts, and the third of three edges within 2 400 cc makes the input unstable, which
takes the pin as asserted (R444). DEDUCED: log entry 24. -/
def execThrottleNEdge (level : Bool) (s : State) : Host.Outcome State Fault Refusal :=
  .next (
    if level != s.board.throttleLow then s
    else
      let old := s.board.edges
      let edges := (old ++ [s.cc]).drop (old.length - 2)
      let s := s.modBoard (fun b => { b with throttleLow := !level, edges := edges, throttleNear := b.edgeNear s.cc })
      let third := match edges with
        | [a, _, _] => decide ((s.cc - a).toNat ≤ 2400)
        | _ => false
      if third then
        let s := s.modBoard (fun b => { b with unstable := true })
        if s.board.throttled then s else s.acceptThrottle
      else s)

/-- THROTTLE_ACCEPT: the pin has stayed low for 1 200 cc (R443). -/
def execThrottleAccept (s : State) : Host.Outcome State Fault Refusal :=
  .next (
    if s.board.throttleLow && !s.board.unstable && !s.board.throttled && s.sinceEdge 1200 then s.acceptThrottle else s)

def State.releaseThrottle (s : State) : State := (s.modBoard (fun b => { b with throttled := false })).retune

/-- THROTTLE_RELEASE: the pin has stayed high for 1 200 cc (R443). -/
def execThrottleRelease (s : State) : Host.Outcome State Fault Refusal :=
  .next (
    if !s.board.throttleLow && !s.board.unstable && s.board.throttled && s.sinceEdge 1200 then s.releaseThrottle else s)

/-- THROTTLE_STABLE: the pin has held one level for 12 000 cc; a low level stays asserted and a high level releases (R444). -/
def execThrottleStable (s : State) : Host.Outcome State Fault Refusal :=
  .next (
    if s.board.unstable && s.sinceEdge 12000 then
      let s := s.modBoard (fun b => { b with unstable := false })
      if s.board.throttleLow then s else s.releaseThrottle
    else s)

/-- THROTTLE_HELD_REPORT: the next multiple of PWR_THR_RPT ms since acceptance (R445). -/
def execThrottleHeldReport (s : State) : Host.Outcome State Fault Refusal :=
  let per := s.reportCc
  let due := (s.board.reported / per + 1) * per
  .next (
    if s.board.throttled && per != 0 && s.elapsed ccDom s.board.acceptCc due then
      (s.modBoard (fun b => { b with reported := due })).reportHeld
    else s)

/-! ### The power cap (R436) -/

/-- PWR_CAP: the part ignores a cap out of range or below the resident sum plus 952 W (R436). -/
def State.writePwrCap (s : State) (w : Word) : State :=
  let a := pwrPage 4 + 0x064
  let cap := field w.toNat 0 12
  if cap < 1000 || 3000 < cap || cap - 952 < s.loadPoint then s.ignoreWrite a else s.setReg a (wordOf cap)

def execPwrCap (value : Word) (s : State) : Host.Outcome State Fault Refusal :=
  .next (if s.boot.s0On then (s.writePwrCap value).answerWritten else s.answerError)

end Sys2Proof.Machine
end

