-- ==== Sys2Proof/Machine/Catalogue.lean ====
section
/-!
DEFINITION. The catalogue image: its layout, the verification checks in their order, and what the curator keeps of it (R233 to R240, R249, R264, R265, R275, R282, R308, R309, R323, R324, R529).
-/

namespace Sys2Proof.Machine

/-! ### Sections (R233, R234) -/

/-- A row of the section table. -/
structure Section where
  type : Nat
  rsv : Nat
  size : Nat
  off : Nat
  deriving DecidableEq, Repr

def sectionTable (img : List Byte) : List Section :=
  (List.range (peek img 0x60 2)).map (fun i =>
    let a := 0x80 + 16 * i
    { type := peek img a 2, rsv := peek img (a + 2) 2, size := peek img (a + 4) 4, off := peek img (a + 8) 8 })

def findSection (img : List Byte) (ty : Nat) : Option Section := (sectionTable img).find? (fun x => x.type == ty)

/-- The contents of a section, empty where the catalogue does not hold it. -/
def sectionBytes (img : List Byte) (ty : Nat) : List Byte :=
  match findSection img ty with
  | some x => (img.drop x.off).take x.size
  | none => []

def hasSection (img : List Byte) (ty : Nat) : Bool := (findSection img ty).isSome

/-- Whether a run of bytes is zero. -/
def zeros (b : List Byte) (off len : Nat) : Bool := ((b.drop off).take len).all (· == 0)

/-- Header fields. -/
def catFlags (img : List Byte) : Nat := peek img 0x06 2
def catKind (img : List Byte) : Nat := field (catFlags img) 2 2
def catRows (img : List Byte) : Nat := peek img 0x17 1
def catMbMax (img : List Byte) : Nat := peek img 0x18 4

/-! ### Checks 1 to 6 (R235, R236, R239) -/

/-- Check 1. The CAT_SIZE of the request bounds the image. -/
def catHeaderOk (img : List Byte) (catSize : Nat) : Bool :=
  decide (0x80 ≤ catSize) && decide (0x80 + 16 * peek img 0x60 2 ≤ catSize) &&
  peek img 0 4 == 0x4C544143 && peek img 4 2 == 1 &&
  decide (peek img 8 8 ≤ 2 ^ 28) && decide (peek img 8 8 ≤ catSize) &&
  catKind img != 3 && field (catFlags img) 4 12 == 0 && zeros img 0x63 29

def sectionsApart (a b : Section) : Bool := decide (a.off + a.size ≤ b.off) || decide (b.off + b.size ≤ a.off)

def pairwise (f : α → α → Bool) : List α → Bool
  | [] => true
  | a :: l => l.all (f a) && pairwise f l

/-- Check 2. -/
def sectionsOk (img : List Byte) : Bool :=
  let t := sectionTable img
  let kind := catKind img
  decide (1 ≤ t.length) && decide (t.length ≤ 64) &&
  t.all (fun x => decide (1 ≤ x.type) && decide (x.type ≤ 10) && x.rsv == 0 && decide (0x80 + 16 * t.length ≤ x.off) &&
    decide (x.off + x.size ≤ peek img 8 8) &&
    (if x.type = 5 || x.type = 7 then x.size == 16 else if x.type = 10 then x.size == 3732 else true)) &&
  pairwise (fun a b => a.type != b.type && sectionsApart a b) t &&
  [1, 2, 3, 4, 5, 6, 7].all (hasSection img) && (kind != 0 || hasSection img 8) && (kind == 2 || hasSection img 9) &&
  (!bitAt (catFlags img) 1 || hasSection img 10)

/-- The bytes that FULL_DIGEST covers (R235). -/
def fullDigestBytes (img : List Byte) : List Byte :=
  let total := peek img 8 8
  let body := (img.drop 0x80).take (total - 0x80)
  let kept := match findSection img 10 with
    | some x => body.take (x.off - 0x80) ++ body.drop (x.off - 0x80 + x.size)
    | none => body
  img.take 0x40 ++ (img.drop 0x60).take 0x20 ++ kept

def fullDigest (img : List Byte) : List Byte := (img.drop 0x40).take 32

/-- Check 4: the policy's signature (R239, R427). -/
def State.signatureOk (s : State) (img : List Byte) : Bool :=
  let sig := sectionBytes img 10
  !s.hif.requireSig || (bitAt (catFlags img) 1 && s.hif.keys.any (fun k => k.2 == sha3 (sig.take 1312)) &&
    mldsaVerify (sig.take 1312) (fullDigest img) (sig.drop 1312))

/-- The arithmetic definition (R236). -/
def arithBytes (img : List Byte) : List Byte :=
  (img.drop 0x10).take 2 ++ (img.drop 0x17).take 1 ++ (img.drop 0x18).take 4 ++ [BitVec.ofNat 8 (catKind img)] ++
  (sectionTable img).flatMap (fun x => if x.type = 1 || x.type = 4 || x.type = 8 || x.type = 9 then (img.drop x.off).take x.size else [])

/-! ### Check 7: quotas (R529) -/

/-- The QUOTAS section. -/
structure Quotas where
  hbm : Nat
  dep : Nat
  host : Nat
  col : List Nat
  seams : Nat
  ports : Nat
  hbmMap : List Byte
  depMap : List Byte
  deriving DecidableEq, Repr

def quotasOf (img : List Byte) : Quotas :=
  let q := sectionBytes img 3
  let hbm := peek q 0 4
  let dep := peek q 4 4
  { hbm := hbm, dep := dep, host := peek q 8 4, col := (List.range 4).map (fun d => peek q (0x10 + 2 * d) 2)
    seams := peek q 0x18 1, ports := peek q 0x1A 2
    hbmMap := (q.drop 0x20).take hbm, depMap := (q.drop (0x20 + hbm)).take dep }

def quotasOk (img : List Byte) : Bool :=
  let q := sectionBytes img 3
  let x := quotasOf img
  let used := 0x20 + x.hbm + x.dep
  decide (1 ≤ catRows img) && decide (catRows img ≤ 32) && q.length == (used + 15) / 16 * 16 &&
  decide (x.hbm ≤ 524288) && decide (x.dep ≤ 524288) && decide (x.host ≤ 1048576) && x.col.all (fun c => decide (c ≤ 4096)) &&
  zeros q 0x0C 4 && zeros q 0x19 1 && zeros q 0x1C 4 && zeros q used 16 &&
  x.hbmMap.all (fun b => decide (b.toNat < 12) || b == 0xFF) && x.depMap.all (fun b => decide (b.toNat < 8) || b == 0xFF)

/-- Whether a run of bytes lies in the HBM window (0) or the depot window (1): each page it touches has an index below
the COUNT and a device in the map (R529). In the host window only the COUNT bounds it. -/
def Quotas.holds (q : Quotas) (w va bytes : Nat) : Bool :=
  let lo := windowStart w
  if va < lo then false
  else if w = 3 then decide (va + bytes ≤ lo + q.host * 2 ^ 21)
  else
    let m := if w = 0 then q.hbmMap else q.depMap
    let first := (va - lo) / 2 ^ 21
    let last := (va - lo + bytes - 1) / 2 ^ 21
    decide (bytes = 0) || ((m.drop first).take (last + 1 - first)).length == last + 1 - first &&
      ((m.drop first).take (last + 1 - first)).all (fun b => b != 0xFF)

/-! ### Checks 8 to 11 (R237, R282, R497) -/

def tensorsOf (img : List Byte) : List Tensor :=
  let b := sectionBytes img 4
  (List.range (b.length / 32)).map (fun i =>
    let a := 32 * i
    { id := wordOf (peek b a 4), fmt := peek b (a + 4) 1, rnd := peek b (a + 5) 1, kind := peek b (a + 6) 1, flags := peek b (a + 7) 1
      maxNnz := peek b (a + 8) 2, shelf := peek b (a + 10) 1, crestInit := toSigned 16 (peek b (a + 12) 2), headroom := peek b (a + 14) 1
      va := peek b (a + 16) 8, bytes := peek b (a + 24) 8 })

/-- An MX element format among the OUT_FMT codes (R103). -/
def mxOut (fmt : Nat) : Bool := decide (3 ≤ fmt) && decide (fmt ≤ 8)

/-- The pages of a tensor in the HBM window: first and past-the-last. -/
def Tensor.pages (t : Tensor) : Nat × Nat := (t.va / 2 ^ 21, (t.va + t.bytes + 2 ^ 21 - 1) / 2 ^ 21)

def Tensor.sharesFrame (a b : Tensor) : Bool :=
  decide (0 < b.bytes) && decide (a.pages.1 < b.pages.2) && decide (b.pages.1 < a.pages.2)

/-- The rules of a gradient tensor (R282). -/
def gradientOk (kind : Nat) (q : Quotas) (all : List Tensor) (t : Tensor) : Bool :=
  t.fmt == 9 && t.va % 1024 == 0 && t.bytes % 1024 == 0 && decide (2048 ≤ t.bytes) && q.holds 0 t.va t.bytes && kind == 0 &&
  all.all (fun u => u.kind == 2 || !t.sharesFrame u)

/-- Check 10 for one entry. -/
def tensorOk (kind : Nat) (q : Quotas) (all : List Tensor) (t : Tensor) : Bool :=
  decide (t.fmt ≤ 9) && decide (t.rnd ≤ 2) && decide (t.kind ≤ 5) && decide (t.flags < 16) && decide (t.maxNnz ≤ 256) &&
  (if t.kind = 3 then decide (t.shelf ≤ 2) else t.shelf == 0xFF) && (t.kind != 2 || gradientOk kind q all t) &&
  (mxOut t.fmt || (decide (field t.flags 2 2 < 2) && !bitAt t.flags 0))

def tensorsOk (img : List Byte) : Bool :=
  let b := sectionBytes img 4
  let ts := tensorsOf img
  b.length % 32 == 0 && (List.range (b.length / 32)).all (fun i => zeros b (32 * i + 11) 1 && zeros b (32 * i + 15) 1) &&
  pairwise (fun (x y : Tensor) => x.id != y.id) ts && ts.all (tensorOk (catKind img) (quotasOf img) ts)

/-- Check 11: crests are fields of gradient tensors, headroom of every entry (R54, R237). -/
def crestsOk (img : List Byte) : Bool :=
  (tensorsOf img).all (fun t => decide (t.headroom ≤ 63) && (t.kind != 2 || (decide (-224 ≤ t.crestInit) && decide (t.crestInit ≤ 287))))

/-! ### Check 12: programs and slots (R79, R87, R91, R529) -/

/-- The layout of a tile's entry in TILE_PROG: instructions, bytes of data and of the entry. -/
structure ProgEntry where
  off : Nat
  instrs : Nat
  data : Nat
  size : Nat
  deriving DecidableEq, Repr

def progEntry (b : List Byte) (off : Nat) : ProgEntry :=
  let n := peek b off 2
  let d := peek b (off + 4) 4
  { off := off, instrs := n, data := d, size := (16 + 4 * n + d + 15) / 16 * 16 }

/-- The entries of a count of tiles, one after another. -/
def progEntries (b : List Byte) : Nat → Nat → List ProgEntry
  | 0, _ => []
  | n + 1, off => progEntry b off :: progEntries b n (off + (progEntry b off).size)

def ProgEntry.layoutOk (e : ProgEntry) (b : List Byte) : Bool :=
  decide (e.data ≤ 16384) && e.data % 4 == 0 && zeros b (e.off + 2) 2 && zeros b (e.off + 8) 8 &&
  zeros b (e.off + 16 + 4 * e.instrs + e.data) (e.size - (16 + 4 * e.instrs + e.data)) && decide (e.off + e.size ≤ b.length)

def ProgEntry.instr (e : ProgEntry) (b : List Byte) (i : Nat) : Nat := peek b (e.off + 16 + 4 * i) 4

/-- The first registers that a CMD can name (R79). -/
def cmdRegister (r : Nat) : Bool := r % 4 == 0 && decide (4 ≤ r)

/-- The detail that an instruction word of a program fails with, if any (R79). -/
def instrDetail (w i count : Nat) : Option Nat :=
  match decodeTcc w with
  | none => some 0x31
  | some (_, op) =>
    let target (off : BitVec 22) : Option Nat :=
      let t : Int := i + off.toInt
      if t < 0 || count ≤ t then some 0x32 else none
    match op with
    | .br off => target off
    | .call off => target off
    | .cmd _ ra => if cmdRegister ra.toNat then none else some 0x33
    | _ => none

/-- The first failure of a tile's entry (R79). -/
def ProgEntry.detail (e : ProgEntry) (b : List Byte) : Option Nat :=
  if !e.layoutOk b then some 0x34
  else if e.instrs = 0 || 16384 < e.instrs then some 0x30
  else (List.range e.instrs).findSome? (fun i => instrDetail (e.instr b i) i e.instrs)

/-- The SLOTS entry of tile i. -/
def slotWord (b : List Byte) (i k : Nat) : Nat := peek b (32 * i + 4 * k) 4

def slotOwnersOk (w : Nat) : Bool := (List.range 8).all (fun k => decide (field w (4 * k) 4 < 10))

def reservationOk (w : Nat) : Bool :=
  field w 6 2 == 0 && field w 14 2 == 0 && field w 22 10 == 0 && decide (field w 0 6 + field w 8 6 + field w 16 6 ≤ 48)

/-- Check 12 and its detail. -/
def programsDetail (img : List Byte) : Option Nat :=
  let b := sectionBytes img 1
  let sl := sectionBytes img 2
  let tiles := 8 * catRows img
  let es := progEntries b tiles 0
  match es.findSome? (fun e => e.detail b) with
  | some d => some d
  | none =>
    if b.length != es.foldl (fun n e => n + e.size) 0 then some 0x34
    else if sl.length != 32 * tiles then some 0x35
    else (List.range tiles).findSome? (fun i =>
      if !(List.range 6).all (fun k => slotOwnersOk (slotWord sl i k)) then some 0x31
      else if !(reservationOk (slotWord sl i 6) && slotWord sl i 7 == 0) then some 0x35
      else none)

/-! ### Check 13: schedules (R249) -/

structure SchedEntry where
  mask : BitVec 256
  rsv : Bool
  cps : List Checkpoint
  size : Nat
  deriving DecidableEq, Repr

def schedEntry (b : List Byte) (off : Nat) : SchedEntry :=
  let n := peek b (off + 32) 1
  { mask := BitVec.ofNat 256 (peek b off 32), rsv := zeros b (off + 33) 7, size := 40 + 8 * n
    cps := (List.range n).map (fun i =>
      let a := off + 40 + 8 * i
      { ctr := peek b a 1, anchor := peek b (a + 1) 1, occur := peek b (a + 2) 2, bound := peek b (a + 4) 4 }) }

def schedEntries (b : List Byte) : Nat → Nat → List SchedEntry
  | 0, _ => []
  | n + 1, off => schedEntry b off :: schedEntries b n (off + (schedEntry b off).size)

def scheduleOk (img : List Byte) : Bool :=
  let b := sectionBytes img 6
  let es := schedEntries b (8 * catRows img) 0
  let q := quotasOf img
  b.length == es.foldl (fun n e => n + e.size) 0 &&
  es.all (fun e => e.rsv && decide (1 ≤ e.cps.length) && decide (e.cps.length ≤ 64) && !bitAt e.mask.toNat (peek img 0x62 1) &&
    e.cps.all (fun c => decide (1 ≤ c.occur) && !bitAt e.mask.toNat c.ctr)) &&
  ((q.host == 0 && q.ports == 0) || es.any (fun e => e.mask != 0))

/-! ### Check 14: MONITORS and JOB (R264, R265, R275, R308, R309, R323, R324) -/

def findTensor (ts : List Tensor) (id : Nat) : Option Tensor := ts.find? (fun t => t.id.toNat == id)

def noTensor : Nat := 0xFFFFFFFF

def monitorsOk (img : List Byte) : Bool :=
  let m := sectionBytes img 8
  let w := peek m 4 2
  let loss := peek m 0x0C 4
  let st := peek m 0x10 8
  let q := quotasOf img
  m.length == 32 && peek m 0 2 == 1 && decide (peek m 2 1 ≤ 2) && decide (peek m 3 1 < 4) && decide (1 ≤ w) && decide (w ≤ 4096) &&
  decide (1 ≤ peek m 6 2) && decide (peek m 6 2 ≤ w) && zeros m 0x0A 2 && zeros m 0x18 8 &&
  (loss == noTensor ||
    ((match findTensor (tensorsOf img) loss with
      | some t => t.kind == 2 && t.fmt == 9
      | none => false) && st % 64 == 0 && decide (st + 64 + 4 * w ≤ q.hbm * 2 ^ 21)))

/-- A checkpoint tensor and its loan address (R264, R265). -/
def checkpointOk (q : Quotas) (inFlight loan : Nat) (t : Tensor) : Bool :=
  let s := t.bytes / inFlight
  t.kind == 3 && decide (t.fmt ≤ 8) && t.va % 1024 == 0 && t.bytes % inFlight == 0 && s % 1024 == 0 &&
  (match t.shelf with
   | 0 => q.holds 0 t.va t.bytes && loan == 0
   | 1 => q.holds 1 t.va t.bytes && loan == 0
   | _ => (q.holds 0 t.va t.bytes || q.holds 1 t.va t.bytes) && loan % 1024 == 0 && q.holds 3 loan t.bytes)

/-- The UPDATES entries of a training plan with B blocks. -/
def updatesOf (j : List Byte) : List Update :=
  let a := 0x10 + 16 * peek j 2 2
  (List.range (peek j a 2)).map (fun i =>
    let o := a + 8 + 64 * i
    let w (k : Nat) : Word := wordOf (peek j (o + k) 4)
    { master := w 0, grad := w 4, mom := w 8, stats := w 12, copy := w 16, copyT := w 20, rows := peek j (o + 24) 4
      cols := peek j (o + 28) 2 + 1, clip := bitAt (peek j (o + 30) 2) 0, lr := w 32, lrd := w 36, beta1 := w 40, beta2 := w 44
      eps1 := w 48, clipD := w 52 })

/-- FP32 tests of R309. -/
def fpPositive (w : Word) : Bool := decide (0 < w.toNat) && decide (w.toNat < 0x7F800000)
def fpUnit (w : Word) : Bool := decide (w.toNat < 0x3F800000) || w == 0x80000000
def fpZero (w : Word) : Bool := w == 0 || w == 0x80000000

/-- The bytes of a COPY tile slot by element format (R314). -/
def copySlot (fmt : Nat) : Nat := if fmt = 5 || fmt = 6 then 52224 else if fmt = 7 then 35840 else 68608

/-- Element width of an MX OUT_FMT code. -/
def outWidth (fmt : Nat) : Nat := if fmt = 5 || fmt = 6 then 6 else if fmt = 7 then 4 else 8

/-- A named tensor of the HBM window with a kind, a format test and a least size. -/
def named (q : Quotas) (ts : List Tensor) (id : Word) (kind : Nat) (fmt : Nat → Bool) (least : Nat) : Bool :=
  match findTensor ts id.toNat with
  | some t => t.kind == kind && fmt t.fmt && q.holds 0 t.va t.bytes && decide (least ≤ t.bytes)
  | none => false

def isNone (w : Word) : Bool := w.toNat == noTensor

/-- The tensors that an entry names. -/
def Update.names (u : Update) : List Word := [u.master, u.grad, u.mom, u.stats, u.copy, u.copyT].filter (fun w => !isNone w)

/-- The SRAM that an entry asks of its conservator: D of R309, with the element format of its copy and the rank of its
thinning, 0 where its gradient is not thinned. -/
def Update.demand (u : Update) (copyFmt r : Nat) : Nat :=
  28 * u.cols + (if isNone u.copy then 0 else (136 + 32 * outWidth copyFmt) * u.cols) + u.cols * r / 8

/-- The rules of an update entry (R309). -/
def updateOk (q : Quotas) (ts : List Tensor) (u : Update) : Bool :=
  let m := u.rows
  let n := u.cols
  let copyFmt := ((findTensor ts u.copy.toNat).map (·.fmt)).getD 0
  decide (1 ≤ m) && decide (m ≤ 1048576) && decide (32 ≤ n) && decide (n ≤ 65536) &&
  named q ts u.master 1 (· == 0) (4 * m * n) && named q ts u.grad 2 (· == 9) (16 * m * n + 1024) &&
  (isNone u.mom || named q ts u.mom 4 (· == 1) (2 * m * n)) &&
  named q ts u.stats 4 (· == 0) (if m = 1 then 64 + 4 * n else 64 + 4 * (m + 2 * n)) &&
  (isNone u.copy || (named q ts u.copy 1 mxOut (m * n / 65536 * copySlot copyFmt) && decide (2 ≤ m) && m % 256 == 0 && n % 256 == 0 &&
    decide (n ≤ 4096))) &&
  (isNone u.copyT || named q ts u.copyT 1 mxOut (4 * m * n)) && n % (if isNone u.copyT then 32 else 128) == 0 &&
  fpPositive u.lr && fpPositive u.lrd && fpPositive u.eps1 && fpUnit u.beta1 && fpUnit u.beta2 && (!isNone u.mom || fpZero u.beta1) &&
  (!u.clip || fpPositive u.clipD) &&
  decide (u.demand copyFmt 0 ≤ 2097152)

/-- A training plan (R264, R308, R309). -/
def trainingPlanOk (img : List Byte) : Bool :=
  let j := sectionBytes img 9
  let q := quotasOf img
  let ts := tensorsOf img
  let nb := peek j 2 2
  let inFlight := peek j 6 1
  let keep := bitAt (peek j 7 1) 0
  let ua := 0x10 + 16 * nb
  let us := updatesOf j
  let block (i : Nat) : Nat := peek j (0x10 + 16 * i) 4
  let named := (List.range nb).filter (fun i => block i != noTensor)
  peek j 0 2 == 1 && decide (1 ≤ nb) && decide (nb ≤ 1024) && decide (1 ≤ peek j 4 2) && decide (peek j 4 2 ≤ 4096) &&
  decide (1 ≤ inFlight) && decide (inFlight ≤ 64) && decide (peek j 7 1 < 2) && zeros j 8 8 &&
  j.length == ua + 8 + 64 * peek j ua 2 && decide (peek j ua 2 ≤ 4096) && zeros j (ua + 2) 6 &&
  (List.range nb).all (fun i => zeros j (0x10 + 16 * i + 4) 4 &&
    (if block i = noTensor then i + 1 == nb && keep && zeros j (0x10 + 16 * i + 8) 8
     else match findTensor ts (block i) with
      | some t => checkpointOk q inFlight (peek j (0x10 + 16 * i + 8) 8) t
      | none => false)) &&
  pairwise (fun i k => block i != block k) named &&
  (List.range us.length).all (fun i => decide (peek j (ua + 8 + 64 * i + 30) 2 < 2) && zeros j (ua + 8 + 64 * i + 56) 8) &&
  us.all (updateOk q ts) && pairwise (fun a b => a != b) (us.flatMap (·.names))

/-- The serving plan (R323). -/
def servePlanOf (img : List Byte) : ServePlan :=
  let j := sectionBytes img 9
  { layers := peek j 2 2, hgCount := peek j 4 1, maxSeqs := peek j 8 2, maxPages := peek j 10 2, maxBatch := peek j 12 2
    tableDie := peek j 14 1, blockBytes := peek j 16 4, poolPages := peek j 20 4, depPages := peek j 24 4, loanPages := peek j 28 4
    kvPool := wordOf (peek j 32 4), kvSpill := wordOf (peek j 36 4), tableOff := peek j 40 4, loanVa := peek j 48 8 }

/-- The bytes of one page on its shelf (R323). -/
def ServePlan.pageBytes (x : ServePlan) : Nat := x.layers * x.hgCount * x.blockBytes

def kvOk (q : Quotas) (ts : List Tensor) (id : Word) (w bytes : Nat) : Bool :=
  match findTensor ts id.toNat with
  | some t => t.kind == 5 && q.holds w t.va t.bytes && decide (bytes ≤ t.bytes)
  | none => false

/-- The bytes of the control regions: two versions and the results (R326). -/
def controlBytes (x : ServePlan) (mbMax : Nat) : Nat :=
  2 * ((x.maxSeqs * x.maxPages * 4 + x.maxBatch * 32 + mbMax * 4 + 1023) / 1024 * 1024) + x.maxBatch * 8

def servingPlanOk (img : List Byte) : Bool :=
  let j := sectionBytes img 9
  let q := quotasOf img
  let ts := tensorsOf img
  let x := servePlanOf img
  let within (lo hi n : Nat) : Bool := decide (lo ≤ n) && decide (n ≤ hi)
  j.length == 64 && peek j 0 2 == 2 && within 1 1024 x.layers && within 1 64 x.hgCount && zeros j 5 1 && within 1 4096 x.maxSeqs &&
  within 1 4096 x.maxPages && within 1 4096 x.maxBatch && decide (x.tableDie < 4) && zeros j 15 1 && x.blockBytes % 1024 == 0 &&
  within 1024 1048576 x.blockBytes && within x.maxPages (2 ^ 24 - 1) x.poolPages && within 0 (2 ^ 24 - 1) x.depPages &&
  within 0 (2 ^ 24 - 1) x.loanPages && zeros j 0x2C 4 && zeros j 0x38 8 && x.tableOff % 1024 == 0 && decide (x.maxBatch ≤ catMbMax img) &&
  kvOk q ts x.kvPool 0 (x.pageBytes * x.poolPages) &&
  (if x.depPages = 0 then x.kvSpill.toNat == noTensor else kvOk q ts x.kvSpill 1 (x.pageBytes * x.depPages)) &&
  (if x.loanPages = 0 then x.loanVa == 0 else x.loanVa % 1024 == 0 && q.holds 3 x.loanVa (x.pageBytes * x.loanPages)) &&
  decide (x.tableOff + controlBytes x (catMbMax img) ≤ (q.col[x.tableDie]?).getD 0 * 32768) && !hasSection img 8

def plansOk (img : List Byte) : Bool :=
  match catKind img with
  | 0 => monitorsOk img && trainingPlanOk img
  | 1 => servingPlanOk img
  | _ => !hasSection img 8 && !hasSection img 9

/-! ### The verification in order (R239) -/

/-- The worst-case slot time of the TIMING section. -/
def timingOk (img : List Byte) : Bool :=
  let t := sectionBytes img 7
  decide (1 ≤ catMbMax img) && decide (peek t 0 4 ≤ peek img 0x1C 4) && zeros t 4 4

/-- The first failing check's detail, or none where the catalogue verifies. -/
def State.verifyDetail (s : State) (img : List Byte) (catSize : Nat) : Option Nat :=
  if !catHeaderOk img catSize then some 0x01
  else if !sectionsOk img then some 0x06
  else if fullDigest img != sha3 (fullDigestBytes img) then some 0x02
  else if !s.signatureOk img then some 0x03
  else if peek img 0x10 2 != Config.arithRev then some 0x04
  else if (img.drop 0x20).take 32 != sha3 (arithBytes img) then some 0x05
  else if !quotasOk img then some 0x07
  else if 3 < peek img 0x16 1 || (acStep (peek img 0x14 2)).isNone then some 0x0B
  else if !timingOk img then some 0x0C
  else if !tensorsOk img then some 0x08
  else if !crestsOk img then some 0x09
  else match programsDetail img with
    | some d => some d
    | none =>
      if !scheduleOk img then some 0x0A
      else if !plansOk img then some 0x0D
      else none

/-- What the curator keeps of a verified catalogue. -/
def catalogueOf (img : List Byte) : Catalogue :=
  let q := quotasOf img
  let seeds := sectionBytes img 5
  let m := sectionBytes img 8
  let j := sectionBytes img 9
  let kind := catKind img
  { kind := kind, loadClass := peek img 0x16 1, rows := catRows img, mbMax := catMbMax img, slotCc := peek img 0x1C 4
    acMhz := peek img 0x14 2, slotCtr := peek img 0x62 1, fatal := bitAt (catFlags img) 0, seams := q.seams, ports := q.ports
    tensors := tensorsOf img, roundSeed := dwordOf (peek seeds 0 8), thinSeed := dwordOf (peek seeds 8 8), action := peek m 2 1
    nfReport := peek m 3 1, window := peek m 4 2, warmup := peek m 6 2, kFactor := peek m 8 2
    lossTensor := wordOf (if kind = 0 then peek m 0x0C 4 else noTensor), stateVa := peek m 0x10 8
    mbPerStep := if kind = 0 then peek j 4 2 else 0, updates := if kind = 0 then updatesOf j else []
    serve := if kind = 1 then servePlanOf img else default }

end Sys2Proof.Machine
end

