-- ==== Sys2Proof/Machine/Loading.lean ====
section
/-!
DEFINITION. Admission and loading of a verified catalogue, and the events that carry out CREATE (R173, R180, R238 to R244, R350, R367).
-/

namespace Sys2Proof.Machine

/-! ### Free resources (R171, R173, R180, R476) -/

def State.rowFree (s : State) (r : Nat) : Bool := (s.rowOwner r).isNone && !s.spares.rowDisabled.contains r

/-- The frames of a device that polders can have: the firmware region lies outside (R169). -/
def openFrames (depot : Bool) (dev : Nat) : Nat := if depot && (dev == 0 || dev == 4) then 40448 else 40960

def frameKey (depot : Bool) (dev : Nat) : Nat := (if depot then 491520 else 0) + dev * 40960

def State.frameFree (s : State) (k : Nat) : Bool := Table.get 0 s.store.frames k == 0 && !s.store.retired.contains k

/-- Free frames of a device: those open to polders less the owned ones and the retired ones in no polder. -/
def State.freeFrames (s : State) (depot : Bool) (dev : Nat) : Nat :=
  let lo := frameKey depot dev
  let mine (k : Nat) : Bool := decide (lo ≤ k) && decide (k < lo + openFrames depot dev)
  openFrames depot dev - s.store.frames.countP (fun e => mine e.1) -
    s.store.retired.countP (fun k => mine k && Table.get 0 s.store.frames k == 0)

/-- The lowest free frame of a device from one on (log entry 26). -/
def State.lowestFrame (s : State) (base : Nat) : Nat → Nat → Option Nat
  | 0, _ => none
  | n + 1, i => if s.frameFree (base + i) then some i else State.lowestFrame s base n (i + 1)

/-- The stripes that the other polders hold on a die, as first and past-the-last. -/
def State.stripesHeld (s : State) (d : Nat) : List (Nat × Nat) :=
  (List.range 16).filterMap (fun p =>
    if s.shareSize p d = 0 then none else some (s.shareFirst p d, s.shareFirst p d + s.shareSize p d))

/-- The lowest run of free stripes of a size on a die, which is whole in the 4 096 (log entry 26). -/
def State.stripeRun (s : State) (d size : Nat) : Option Nat :=
  let held := s.stripesHeld d
  let fits (a : Nat) : Bool := decide (a + size ≤ 4096) && held.all (fun h => decide (a + size ≤ h.1) || decide (h.2 ≤ a))
  let starts := (0 :: held.map (·.2)).filter fits
  match starts with
  | [] => none
  | a :: l => some (l.foldl min a)

/-! ### Admission (R244) -/

/-- The rows that a CREATE is given: those of its map, or the lowest-numbered free ones (R350). -/
def State.rowsFor (s : State) (map : Word) (n : Nat) : List Nat :=
  if map = 0 then ((List.range 32).filter s.rowFree).take n else (List.range 32).filter (fun r => bitAt map.toNat r)

def mapOf (rows : List Nat) : Word := wordOf (rows.foldl (fun n r => n + 2 ^ r) 0)

/-- Frames, rows and stripes suffice. Free stripes that suffice in number without forming the single run of R180 do not. DEDUCED: log entry
156. -/
def State.resourcesFree (s : State) (q : Quotas) (rows : List Nat) (n : Nat) : Bool :=
  rows.length == n && rows.all s.rowFree &&
  (List.range 12).all (fun d => decide (q.hbmMap.count (BitVec.ofNat 8 d) ≤ s.freeFrames false d)) &&
  (List.range 8).all (fun d => decide (q.depMap.count (BitVec.ofNat 8 d) ≤ s.freeFrames true d)) &&
  (List.range 4).all (fun d => (s.stripeRun d ((q.col[d]?).getD 0)).isSome)

/-- The admission refusal of a catalogue, or none (R244). -/
def State.admission (s : State) (q : Quotas) (c : Catalogue) (map : Word) : Option Nat :=
  if s.boot.part == .failed then some 0x0904
  else if s.tileBudget < s.loadPoint + c.rows * classWatts c.loadClass then some 0x0905
  else if !s.resourcesFree q (s.rowsFor map c.rows) c.rows then some 0x0906
  else if (List.range 8).any (fun n => bitAt q.seams n && !s.seamUp n) ||
      (List.range 16).any (fun n => bitAt q.ports n && (s.port n).state != .up) then some 0x0903
  else none

/-! ### Loading (R241) -/

/-- Registers in a range of addresses return to their start values. -/
def State.clearRegs (s : State) (lo hi : Nat) : State := { s with regs := s.regs.filter (fun e => !(decide (lo ≤ e.1) && decide (e.1 < hi))) }

/-- The first table entry of a polder's window (log entry 26). -/
def tableBase (p w : Nat) : Nat := p * 2 ^ 21 + (if w = 0 then 0 else if w = 1 then 2 ^ 19 else 2 ^ 20)

/-- The curator takes a free frame of a device, zeroes it and writes a valid entry (R172, R173). -/
def State.mapFrame (s : State) (p : Nat) (depot : Bool) (dev entry : Nat) : State :=
  let base := frameKey depot dev
  match s.lowestFrame base (openFrames depot dev) 0 with
  | none => s
  | some f =>
    let lo := dev * devBytes + f * 2 ^ 21
    let s := s.modStore (fun m => { m with
      frames := Table.put 0 m.frames (base + f) (p + 1)
      hbm := if depot then m.hbm else Mem.zero m.hbm lo (lo + 2 ^ 21)
      depot := if depot then Mem.zero m.depot lo (lo + 2 ^ 21) else m.depot })
    s.setEntry entry (3 + (if depot then 4 else 0) + dev * 16 + f * 2 ^ 21)

def State.mapWindow (s : State) (p : Nat) (depot : Bool) (map : List Byte) : State :=
  s.forEach map.zipIdx (fun s b =>
    if b.1 = 0xFF then s else s.mapFrame p depot b.1.toNat (tableBase p (if depot then 1 else 0) + b.2))

/-- The translation registers of a new polder (R190). -/
def State.setWindows (s : State) (p : Nat) (q : Quotas) : State :=
  let s := s.forEach [(0, q.hbm), (1, q.dep), (3, q.host)] (fun s w =>
    (s.setReg (xlReg p w.1) (wordOf (if w.2 = 0 then 0 else tableBase p w.1))).setReg (xlReg p w.1 + 4) (wordOf w.2))
  s.forEach (List.range 4) (fun s d =>
    let n := (q.col[d]?).getD 0
    s.setReg (pldReg p (0x220 + 4 * d)) (wordOf ((s.stripeRun d n).getD 0 * (if n = 0 then 0 else 1) + n * 2 ^ 16)))

/-- Where a tile's memories start in the store. -/
def dstoreBase (t : Nat) : Nat := t * 2 ^ 14
def istoreBase (t : Nat) : Nat := t * 2 ^ 16
def spadBase (t : Nat) : Nat := t * 2 ^ 22

/-- The two rows that the part writes: row 29 holds the row map, row 30 starts at zero (R238). -/
def rowMapBytes (rows : List Nat) : List Byte :=
  padTo 0 32 (rows.map (fun r => BitVec.ofNat 8 r)) ++ padTo 0 480 [BitVec.ofNat 8 rows.length]

/-- One tile is loaded: its program and data, its slot registers, its monitor, and READY. Counts since creation restart (R95, R241). -/
def State.loadTile (s : State) (img : List Byte) (rows : List Nat) (t : Nat) (e : ProgEntry) (i : Nat) (sc : SchedEntry) : State :=
  let b := sectionBytes img 1
  let sl := sectionBytes img 2
  let prog := (b.drop (e.off + 16)).take (4 * e.instrs)
  let data := padTo 0 (2 ^ 14) ((b.drop (e.off + 16 + 4 * e.instrs)).take e.data)
  let data := data.take (29 * 512) ++ rowMapBytes rows ++ List.replicate 512 0 ++ data.drop (31 * 512)
  let s := s.modStore (fun m => { m with
    istore := Mem.writeN m.istore (istoreBase t) prog
    dstore := Mem.writeN m.dstore (dstoreBase t) data })
  let s := s.modTile t (fun _ => { (default : Tile) with
    tcc := { (default : Tcc) with state := .ready, instrs := e.instrs }
    mon := { (default : Monitor) with mask := sc.mask, cps := sc.cps }
    gatedRow := true })
  let s := s.forEach (List.range 6) (fun s k => s.setReg (tilReg t (0x20 + 4 * k)) (wordOf (slotWord sl i k)))
  let s := s.setReg (tilReg t 0x1C) (wordOf (slotWord sl i 6))
  let zeros := [tilReg t 0x0C, tilReg t 0x18, arrReg t 0x08, arrReg t 0x0C, tilReg t 0x84, tilReg t 0x88, tilReg t 0xC4, tilReg t 0xC8,
    dmaReg t 0x04, dmaReg t 0x08, dmaReg t 0x44, dmaReg t 0x48, dmaReg t 0x84, dmaReg t 0x88]
  s.forEach zeros (fun s a => s.setReg a 0)

/-- Every tile of the polder in polder-relative order. -/
def State.loadTiles (s : State) (img : List Byte) (rows : List Nat) : State :=
  let tiles := rows.flatMap (fun r => (List.range 8).map (fun c => 8 * r + c))
  let es := progEntries (sectionBytes img 1) tiles.length 0
  let ss := schedEntries (sectionBytes img 6) tiles.length 0
  s.forEach (tiles.zip (es.zip ss)).zipIdx (fun s x => s.loadTile img rows x.1.1 x.1.2.1 x.2 x.1.2.2)

/-- The frames of a gradient tensor accumulate, and unit 0 takes the first crest (R284, R297). -/
def State.loadGradient (s : State) (p : Nat) (t : Tensor) : State :=
  let s := s.forEach (List.range (t.pages.2 - t.pages.1)) (fun s i =>
    match s.translate 0 p ((t.pages.1 + i) * 2 ^ 21) false with
    | .at_ x => s.modStore (fun m => { m with accFrames := (m.accFrames ++ [x.frame]).eraseDups })
    | .fault _ => s)
  match s.translate 0 p t.va true with
  | .at_ x => s.memWrite { x with off := x.off + 2 } (intBytes 2 t.crestInit)
  | .fault _ => s

/-- No page is assigned in any row of the two versions' tables of a serving polder (R326, R327). -/
def State.loadTables (s : State) (p : Nat) (c : Catalogue) : State :=
  if c.kind != 1 then s
  else s.forEach (List.range 2) (fun s v => match s.translate 0 p (c.controlVa + v * c.versionBytes) true with
    | .at_ x => s.memWrite x (List.replicate (c.serve.maxSeqs * c.serve.maxPages * 4) 0xFF)
    | .fault _ => s)

/-- The catalogue and monitor registers of a loaded polder (R256, R280, R286). -/
def State.loadRegisters (s : State) (p : Nat) (img : List Byte) (c : Catalogue) : State :=
  let void := peek img 0x12 2 != s.timingRev
  let on := c.kind = 0 && !isNone c.lossTensor
  let s := s.setReg (pldReg p 0x100) (wordOf (1 + (if void then 6 else 0) + (if c.fatal then 8 else 0) + c.kind * 16 + c.loadClass * 64))
  let s := s.forEach (List.range 8) (fun s k => s.setReg (pldReg p (0x108 + 4 * k)) (wordOf (peek img (0x20 + 4 * k) 4)))
  let s := s.setReg (pldReg p 0x128) (wordOf (peek img 0x12 2 + s.timingRev * 2 ^ 16))
  let s := (s.setReg (pldReg p 0x12C) (wordOf c.mbMax)).setReg (pldReg p 0x130) (wordOf c.slotCc)
  let s := s.setReg (pldReg p 0x304) 1
  let s := s.clearRegs (spkReg p 0x040) (spkReg p 0x100)
  if c.kind = 0 then
    (s.setReg (spkReg p 0x080) (wordOf (c.action + (if on then 4 else 0) + (c.window - 1) * 8 + (c.warmup - 1) * 2 ^ 15))).setReg
      (spkReg p 0x084) (wordOf c.kFactor)
  else s

/-- The link values of a polder ID at creation: its digests and sequence numbers start again (R301, R305). -/
def State.clearDigests (s : State) (p : Nat) : State :=
  let s := s.forEach (List.range 16) (fun s n => s.clearRegs (prtPage n + 0x400 + 0x20 * p) (prtPage n + 0x420 + 0x20 * p))
  s.modLinks (fun l => { l with seqs := l.seqs.filter (fun e => e.1 % 16 != p) })

/-- The tag's client entry is its own from LOADED on (R367). -/
def State.admitTag (s : State) (tag : Word) : State :=
  { s with clients := s.clients.map (fun e => if e.2.reserved == tag then (e.1, { e.2 with tag := tag, reserved := 0 }) else e) }

/-- Loading of an admitted catalogue: rows and power, windows and frames, stores, monitors, and LOADED (R241, R435, R441). -/
def State.loadPolder (s : State) (p : Nat) (img : List Byte) : State :=
  let x := s.pld p
  let c := catalogueOf img
  let q := quotasOf img
  let rows := s.rowsFor x.reqMap c.rows
  let s := s.modPld p (fun y => { (default : Polder) with
    state := .loaded, client := y.client, rowMap := mapOf rows, cat := c
    voidAtLoad := peek img 0x12 2 != s.timingRev })
  let s := (s.calibrate).retune
  let s := s.setWindows p q
  let s := (s.mapWindow p false q.hbmMap).mapWindow p true q.depMap
  let s := s.loadTiles img rows
  let s := (s.loadRegisters p img c).clearDigests p
  let s := (s.forEach (c.tensors.filter (fun t => t.kind == 2)) (fun s t => s.loadGradient p t)).loadTables p c
  let s := ((s.admitTag x.client).controlBurst p).modJournal (fun j => { j with created := j.created + 1 })
  match x.reqChannel with
  | some ch => s.reply ch 0 (response 0x0101 p 0 (mapOf rows))
  | none => s

/-! ### CREATE (R349, R350) -/

/-- The client entry of a tag, or the lowest free one. -/
def State.clientEntry (s : State) (tag : Word) : Option Nat :=
  match s.clients.find? (fun e => e.2.tag == tag || e.2.reserved == tag) with
  | some e => some e.1
  | none => (List.range 64).find? (fun k => (s.client k).tag == 0 && (s.client k).reserved == 0)

def State.reserveClient (s : State) (k : Nat) (tag : Word) : State :=
  s.modClient k (fun e => if e.tag == tag then e else { e with reserved := tag })

/-- A refusal of a management request (R349, R426). -/
def State.refuse (s : State) (c op p code : Nat) : State := s.reply c 0x8002 (response op p code 0)

/-- The ID that a CREATE names, or the lowest free one. -/
def State.createId (s : State) (named : Nat) : Option Nat :=
  if named = 0xFF then (List.range 16).find? (fun p => (s.pld p).state == .free)
  else if (s.pld named).state == .free then some named else none

/-- CREATE: orders 1 to 5 of R350, after which the ID is CREATING and the catalogue is read. -/
def execCreate (c : ChannelId) (s : State) : Host.Outcome State Fault Refusal :=
  let ch := c.toNat
  .next (match s.request ch 0x0101 with
    | none => s
    | some b =>
      let s := s.takeRequest ch
      let named := peek b 2 1
      let tag := wordOf (peek b 4 4)
      let addr := peek b 8 8
      let size := peek b 16 4
      if s.boot.part != .operational && s.boot.part != .failed then s.reply ch 0x8003 (response 0x0101 named 0 0)
      else if !formed b 28 [(2, 1), (4, 24)] || (15 < named && named != 0xFF) || tag = 0 || size = 0 || 2 ^ 28 < size || addr % 4096 != 0 then
        s.reply ch 0x8001 (response 0x0101 named 0 0)
      else if s.boot.part == .failed then s.refuse ch 0x0101 named 0x0904
      else match s.createId named with
        | none => s.refuse ch 0x0101 named (if named = 0xFF then 0x0906 else 0x090E)
        | some p =>
          match s.clientEntry tag with
          | none => s.refuse ch 0x0101 p 0x090D
          | some k =>
            let s := (s.reserveClient k tag).clearRegs (pldReg p 0x040) (pldReg p 0x1000)
            let s := s.setReg (pldReg p 0x054) (wordOf (peek b 24 4))
            s.modPld p (fun _ => { (default : Polder) with
              state := .creating, client := tag, reqChannel := some ch, catAddr := addr, catSize := size, reqMap := wordOf (peek b 20 4) }))

/-- The refusal at orders 6 to 8, or none (R239, R244, R350). -/
def State.createRefusal (s : State) (x : Polder) (img : List Byte) : Option Nat :=
  match s.verifyDetail img x.catSize with
  | some d => some (0x0A00 + d)
  | none =>
    let c := catalogueOf img
    if x.reqMap != 0 && ((List.range 32).countP (fun r => bitAt x.reqMap.toNat r)) != c.rows then some 0x090F
    else s.admission (quotasOf img) c x.reqMap

/-- The curator reads the header and section table, and then the image up to TOTAL_SIZE, within CAT_SIZE (R239). -/
def State.readCatalogue (s : State) (addr size : Nat) : List Byte :=
  let head := s.hostRead addr (min size 0x80)
  s.hostRead addr (min size (max (peek head 8 8) (0x80 + 16 * peek head 0x60 2)))

/-- CATALOGUE_VERIFICATION: the catalogue has been read from the host, and is verified, admitted and loaded (R239 to R244). -/
def execCatalogueVerification (p : PolderId) (rd : HostRead) (s : State) : Host.Outcome State Fault Refusal :=
  let n := p.toNat
  let x := s.pld n
  .next (
    if x.state != .creating then s
    else match rd with
      | .fails _ => s.endCreate n 0x8005 0
      | .success =>
        let img := s.readCatalogue x.catAddr x.catSize
        let s := s.askHost 0 x.catAddr img.length
        match s.createRefusal x img with
        | some code => (s.setReg (pldReg n 0x104) (wordOf code)).endCreate n 0x8002 code
        | none => s.loadPolder n img)

end Sys2Proof.Machine
end

