-- ==== Sys2Proof/Machine/Polder.lean ====
section
/-!
DEFINITION. The life of a polder after loading: RETIRE, TEARDOWN, faults, clearing, job completion, the watchdog and host completions (R347 to R371, R417).
-/

namespace Sys2Proof.Machine

/-! ### Requests (R349, R354, R355, R368) -/

/-- The cause of a TEARDOWN request or of an FLR: CODE 0x0000 (R357, R418). -/
def plainCause (p kind unit : Nat) : Cause := { polder := p, code := 0, kind := kind, unit := unit, addr := 0 }

/-- CLIENT_CLEAR: frees the entry of a tag that no polder carries (R368). -/
def execClientClear (c : ChannelId) (s : State) : Host.Outcome State Fault Refusal :=
  let ch := c.toNat
  .next (match s.request ch 0x0104 with
    | none => s
    | some b =>
      let s := s.takeRequest ch
      let tag := wordOf (peek b 4 4)
      let ok := response 0x0104 (peek b 2 1) 0 0
      if s.boot.part != .operational && s.boot.part != .failed then s.reply ch 0x8003 ok
      else if !formed b 8 [(2, 1), (4, 4)] then s.reply ch 0x8001 ok
      else if (List.range 16).any (fun p => (s.pld p).state.owns && (s.pld p).client == tag) then s.reply ch 0x8003 ok
      else
        let s := if tag = 0 then s else { s with clients := s.clients.filter (fun e => e.2.tag != tag) }
        s.reply ch 0 ok)

/-! ### Faults (R355, R358) -/

/-- The rank of causes received in one cc: the lowest logical tile, then the lowest master kind (R358), and a local
cause before an alarm's (R402). -/
def Cause.rank (c : Cause) : Nat :=
  (if 1 ≤ c.kind && c.kind ≤ 8 then c.unit else 0x100) * 32 + c.kind + if c.code / 16 = 0x063 then 16 else 0

/-- A cause reaches curator 0: the first starts the teardown and fills the record, every later one counts (R358). -/
def State.receiveCause (s : State) (c : Cause) : State :=
  let x := s.pld c.polder
  if x.state.resident then s.startClearing c.polder (some c)
  else match x.state with
    | .clearing =>
      let s := s.bump (pldReg c.polder 0x050) 1
      match x.cause with
      | some old =>
        if x.causeCc == s.cc && old.code != 0 && s.boot.part != .failed && decide (c.rank < old.rank) then
          s.modPld c.polder (fun y => { y with cause := some c })
        else s
      | none => s
    | .draining => s.bump (pldReg c.polder 0x050) 1
    | _ => s

/-- The die of the master that a cause names (R360). -/
def Cause.die (c : Cause) : Nat :=
  if 1 ≤ c.kind && c.kind ≤ 8 then dieOfTile c.unit
  else if c.kind = 9 || c.kind = 0xA then c.unit / 3
  else if c.kind = 0xB then c.unit
  else if c.kind = 0xC then 4 + c.unit / 8
  else 4

/-- FAULT_CAUSE: a message of the control network reaches curator 0, in any order within its bound (R358, R527). -/
def execFaultCause (i : Nat) (s : State) : Host.Outcome State Fault Refusal :=
  .next (match s.nets.causes[i]? with
    | none => s
    | some c => ((s.modNets (fun n => { n with causes := n.causes.eraseIdx i })).controlCrosses c.die 4 1).receiveCause c)

/-! ### Clearing (R356, R357) -/

/-- Every on-package request of a polder has completed at its target (R356 step 3). -/
def State.drained (s : State) (p : Nat) : Bool :=
  !s.store.reqs.any (fun r => r.polder == p && (r.stage == .routed || r.stage == .merging))

/-- The host reads that host DMA has issued become abandoned tags; every other request's response is discarded (R356, R359). -/
def State.abandon (s : State) (p : Nat) : State :=
  let tags := s.store.reqs.filter (fun r => r.polder == p && !r.isWrite && s.issued r)
  let s := s.modHif (fun h => { h with tags := h.tags ++ tags.map (fun r => { req := r.id, polder := p }) })
  s.modStore (fun m => { m with
    reqs := m.reqs.filter (fun r => r.polder != p)
    merges := m.merges.filter (fun e => e.polder != p) })

/-- Zeroes a tile of a cleared polder, whose row gates again: a stall under way ends, and the monitor's state goes
(R92, R95, R258, R438). -/
def State.clearTile (s : State) (t : Nat) : State :=
  let s := s.forEach [3, 4, 5] (fun s q => s.endSlotWait t q)
  let s := ((s.countStall t).setReg (tilReg t 0x6C) 0).modTile t (fun _ => default)
  s.modStore (fun m => { m with
    spad := Mem.zero m.spad (spadBase t) (spadBase t + 2 ^ 22)
    dstore := Mem.zero m.dstore (dstoreBase t) (dstoreBase t + 2 ^ 14)
    istore := Mem.zero m.istore (istoreBase t) (istoreBase t + 2 ^ 16) })

/-- Zeroes a polder's collection share on a die. -/
def State.clearShare (s : State) (p d : Nat) : State :=
  let lo := d * 2 ^ 27 + s.shareFirst p d * 32768
  s.modStore (fun m => { m with col := Mem.zero m.col lo (lo + s.shareSize p d * 32768) })

/-- A polder's slots in the conservators and link engines return to their start, and what waits for it there is dropped
(R232, R321, R356). -/
def State.clearSlots (s : State) (p : Nat) : State :=
  let s := s.forEach (List.range 12) (fun s n =>
    (s.clearRegs (cnsPage n + 0x100 + 16 * p) (cnsPage n + 0x110 + 16 * p)).modCns n (fun c => { c with
      next := Table.put 0 c.next p 0
      carried := c.carried.filter (fun e => e.1 != p)
      stopped := c.stopped.filter (· != p)
      frozen := c.frozen.filter (· != p)
      acc := if c.accOf.map (·.1) = some p then [] else c.acc
      accOf := if c.accOf.map (·.1) = some p then none else c.accOf }))
  s.modLinks (fun l => { l with
    slots := l.slots.filter (fun e => slotPolder e.1 != p)
    asks := l.asks.filter (fun a => a.2.1 != p)
    localIn := l.localIn.filter (fun o => field o.msg.dst.toNat 12 4 != p)
    held := l.held.filter (fun e => e.1 % 16 != p)
    credits := l.credits.filter (fun e => e.1 % 16 != p) })

/-- Frames, rows, stripes, host entries and power return (R356 step 6, R190, R256, R284, R286). -/
def State.release (s : State) (p : Nat) : State :=
  let mine := (s.store.frames.filter (fun e => e.2 == p + 1)).map (·.1)
  let s := s.modStore (fun m => { m with
    accFrames := m.accFrames.filter (fun f => !mine.contains f)
    frames := m.frames.filter (fun e => e.2 != p + 1)
    tabD0 := m.tabD0.filter (fun e => e.1 / 2 ^ 21 != p)
    tabD4 := m.tabD4.filter (fun e => e.1 / 2 ^ 21 != p) })
  let s := (s.clearRegs (pldReg p 0x200) (pldReg p 0x218)).clearRegs (pldReg p 0x220) (pldReg p 0x230)
  let s := s.setReg (pldReg p 0x100) (s.reg (pldReg p 0x100) &&& 0xFFFFFFFC)
  let s := s.setReg (pldReg p 0x304) 0
  let s := s.modPld p (fun x => { x with rowMap := 0 })
  s.calibrate.retune

/-- The job number under way: the slot or the serving step (R357). -/
def Polder.jobSlot (x : Polder) : Nat := if x.cat.kind = 1 then x.serve.started - 1 else x.slotNo - 1

/-- The fault record (R357). -/
def faultRecord (x : Polder) (c : Cause) : List Byte :=
  leBytes 2 c.code ++ leBytes 1 c.polder ++ leBytes 1 (c.kind % 16) ++ leBytes 4 x.client.toNat ++ leBytes 2 c.unit ++
  leBytes 1 x.causeState ++ [0] ++ leBytes 4 x.jobSlot ++ leBytes 8 c.addr ++ leBytes 8 x.causeCc.toNat

def Client.count (c : Client) : Nat → Client
  | 0 => { c with admitted := c.admitted + 1 }
  | 1 => { c with completed := c.completed + 1 }
  | _ => { c with torn := c.torn + 1 }

/-- Counts a client's job and the part's total of its kind: column 0 admitted, 1 completed, 2 torn down (R367, R485). -/
def State.countJob (s : State) (p column : Nat) : State :=
  let x := s.pld p
  let s := { s with clients := s.clients.map (fun (e : Nat × Client) => if e.2.tag == x.client then (e.1, e.2.count column) else e) }
  let k := x.cat.kind * 3 + column
  s.modJournal (fun j => { j with jobs := Table.put 0 j.jobs k (Table.get 0 j.jobs k + 1) })

/-- The record of a teardown is latched and posted (R357, R369, R370). -/
def State.recordFault (s : State) (p : Nat) (x : Polder) (c : Cause) : State :=
  let b := faultRecord x c
  let s := s.forEach (List.range 8) (fun s k => s.setReg (spkReg p (0x100 + 4 * k)) (wordOf (peek b (4 * k) 4)))
  let s := s.setReg (pldReg p 0x04C) (wordOf (c.code + c.kind % 16 * 2 ^ 16))
  let s := (s.postPfFault b).postVfFault p b
  let s := if x.jobOpen then s.countJob p 2 else s
  s.setIrq (pldReg p 0) 2

/-- Clearing disables a VF's queues and sets the indices to 0 (R407). -/
def State.disableQueues (s : State) (p : Nat) : State :=
  s.forEach [0x010, 0x014, 0x024, 0x028, 0x02C] (fun s o => s.setVfReg p o 0)

/-- A channel returns to IDLE (R418, R421). -/
def State.idleChannel (s : State) (c : Nat) : State :=
  let s := (s.modChan c (fun x => { (default : Channel) with report := x.report })).modHif
    (fun h => { h with doorbells := h.doorbells.filter (fun d => d.2 != c) })
  -- a CREATE or an edit that goes on has no request to answer any more
  s.forEach (List.range 16) (fun s p => s.modPld p (fun x => { x with
    reqChannel := if x.reqChannel = some c then none else x.reqChannel
    editChannel := if x.editChannel = some c then none else x.editChannel }))

/-- The reset of a VF's page by an FLR: its control registers, the registers of its channel, its MSI-X table, and its Bus Master Enable
(R406, R418). PRESUMED, the last: log entry 121. -/
def State.resetVf (s : State) (p : Nat) : State :=
  let chan := page 4 0x13 ((8 + p) / 8) + 0x100 + 0x20 * ((8 + p) % 8)
  let s := (s.clearRegs chan (chan + 0x20)).modHif (fun h => { h with
    masters := h.masters.filter (· != p + 1), table := h.table.filter (fun e => e.1 / 32 != p + 1), pba := h.pba.filter (fun x => x.fn != p + 1) })
  ({ s with vfRegs := s.vfRegs.filter (fun e => e.1 / 4096 != p) } : State).idleChannel (8 + p)

/-- The codes of R259. -/
def Phase.code : Phase → Nat
  | .idle => 0
  | .slots => 1
  | .reducing => 2
  | .evaluating => 3
  | .updating => 4

/-- SPK_STEP_STS of a polder that is loaded: PHASE, what the last commit left, and the micro-batches that have run (R280). -/
def State.stepSts (s : State) (p : Nat) : Word :=
  let t := (s.pld p).train
  wordOf (t.phase.code + field (s.reg (spkReg p 0x044)).toNat 3 5 * 2 ^ 3 + t.ran.length * 2 ^ 16)

/-- The ID ends in FREE or, while abandoned tags remain, in DRAINING (R351, R359). -/
def State.freeOrDrain (s : State) (p : Nat) : State :=
  if s.hif.tags.any (fun t => t.polder == p) then
    s.modPld p (fun x => { (default : Polder) with state := .draining, client := x.client, cat := x.cat })
  else s.modPld p (fun _ => default)

/-- Messages of a cleared polder that are still under way are dropped; its late faults count (R232, R358). -/
def State.dropMessages (s : State) (p : Nat) (tiles : List Nat) : State :=
  let late := s.nets.causes.countP (fun c => c.polder == p)
  let s := if late = 0 then s else s.bump (pldReg p 0x050) late
  s.modNets (fun n => { n with
    causes := n.causes.filter (fun c => c.polder != p)
    events := n.events.filter (fun e => e.polder != p)
    ledgers := n.ledgers.filter (fun e => e.polder != p)
    signals := n.signals.filter (fun g => !tiles.contains g.src && !tiles.contains g.dst) })

/-- CLEARING: once the polder's on-package requests have drained, steps 3 to 7 of R356. -/
def execClearing (p : PolderId) (s : State) : Host.Outcome State Fault Refusal :=
  let n := p.toNat
  let x := s.pld n
  .next (
    if x.state != .clearing || !s.drained n then s
    else
      let tiles := x.tiles
      let s := (s.controlBurst n).abandon n
      let s := s.dropXl n (fun _ _ => true)
      let s := s.forEach tiles (fun s t => s.clearTile t)
      let s := s.forEach (List.range 4) (fun s d => s.clearShare n d)
      let s := (s.clearSlots n).dropMessages n tiles
      let s := s.forEach x.rows (fun s r =>
        let a := page (r / 8) 0x01 (r % 8) + 0x008
        s.setReg a 0)
      let s := s.setReg (pldReg n 0x008) 0
      let s := s.release n
      let s := match x.cause with
        | some c => s.recordFault n x c
        | none => s
      let s := (s.setReg (pldReg n 0x064) (wordOf (s.cc - x.clearCc).toNat)).setReg (spkReg n 0x044) (s.stepSts n)
      let s := s.disableQueues n
      let s := if x.flr then s.resetVf n else s
      s.freeOrDrain n)

/-! ### Job completion (R353, R354) -/

/-- The end point of a pending retire (R354). -/
def State.endPoint (s : State) (p : Nat) : Bool :=
  let x := s.pld p
  match x.cat.kind with
  | 0 => x.train.phase == .idle
  | 1 => x.ended
  | _ => !x.slotStarted || x.tiles.all (fun t => (s.tile t).mon.slotEnd)

/-- No slot of a polder in a shared engine holds a descriptor or a message, the page moves that wait at host DMA among them. -/
def State.slotsEmpty (s : State) (p : Nat) : Bool :=
  !s.links.slots.any (fun e => slotPolder e.1 == p && (e.2.running || e.2.parked || !e.2.sends.isEmpty || !e.2.out.isEmpty)) &&
  (s.pld p).serve.moves.isEmpty &&
  (List.range 12).all (fun n => (s.cns n).running != some p)

/-- A tile's queues and engines hold no command. -/
def Tile.idleEngines (x : Tile) : Bool :=
  (List.range 7).all (fun q => (x.engine q).queue.isEmpty && (x.engine q).active.isEmpty)

/-- Whether a debug freeze holds a tile (R94, R507). -/
def State.frozenTile (s : State) (t : Nat) : Bool :=
  bitAt (s.reg (tilePage t + 0x008)).toNat 2 || (match s.tileOwner t with
    | some p => (s.pld p).frozen
    | none => false)

/-- The conditions of R353. A frozen polder reaches its end point only once released (R497). -/
def State.jobDone (s : State) (p : Nat) : Bool :=
  let x := s.pld p
  x.state == .running &&
  (x.tiles.all (fun t => (s.tile t).tcc.state == .done) || (x.retirePending && s.endPoint p && !x.tiles.any s.frozenTile)) &&
  x.tiles.all (fun t => (s.tile t).idleEngines) && !s.store.reqs.any (fun r => r.polder == p) && s.slotsEmpty p &&
  (x.cat.kind != 0 || x.train.phase == .idle)

/-- The job completion record (R410 type 0x04). -/
def State.jobRecord (s : State) (p : Nat) : List Byte :=
  let x := s.pld p
  let void := if bitAt (s.reg (pldReg p 0x100)).toNat 1 then 1 else 0
  leBytes 4 (void + (if x.voidAtLoad then 2 else 0) + if x.retirePending then 4 else 0) ++
  leBytes 4 (s.reg (pldReg p 0x134)).toNat ++ leBytes 8 (s.reg64 (pldReg p 0x140)) ++
  leBytes 4 (if x.cat.kind = 1 then x.jobSlot else (s.reg (spkReg p 0x040)).toNat) ++ leBytes 4 0 ++ leBytes 8 s.cc.toNat

/-- A job completes: the record, the counts, COMPLETE, and clearing where a retire was pending (R353, R354). -/
def State.completeJob (s : State) (n : Nat) : State :=
  s.posting n 1 (fun s =>
    let s := s.postIfOn n 4 (s.jobRecord n)
    let retire := (s.pld n).retirePending
    let s := (s.countJob n 1).setIrq (pldReg n 0) 1
    let s := s.modPld n (fun x => { x with state := .complete, jobOpen := false })
    let s := s.modLinks (fun l => { l with slots := l.slots.filter (fun e => slotPolder e.1 != n) })
    if retire then s.startClearing n none else s)

/-- JOB_COMPLETION (R353, R354). -/
def execJobCompletion (p : PolderId) (s : State) : Host.Outcome State Fault Refusal :=
  .next (if s.jobDone p.toNat then s.completeJob p.toNat else s)

/-! ### The waits of a serving polder (R337, R345) -/

/-- The last step of a serving polder is over, or none has started. -/
def State.stepOver (s : State) (p : Nat) : Bool := !(s.pld p).slotStarted || s.slotOver p

/-- The cc that a boundary has waited for an intake up to now. -/
def State.intakeWait (s : State) (p : Nat) : Nat :=
  let x := s.pld p
  if x.state != .running || x.cat.kind != 1 || x.ended || x.retirePending || x.serve.intakeOk || !s.stepOver p || x.serve.planned then 0
  else (s.cc - (if x.slotStarted && x.serve.waitCc < x.metCc then x.metCc else x.serve.waitCc)).toNat

/-- PLD_SRV_INTAKE_CC takes the wait for an intake, which ends now: the intake is there, or a retire makes it needless. -/
def State.countIntakeWait (s : State) (p : Nat) : State := s.bump (pldReg p 0x42C) (s.intakeWait p)

/-- The cc that a slot start has waited for the page moves of its boundary up to now. -/
def State.moveWait (s : State) (p : Nat) : Nat := if (s.pld p).serve.moves.isEmpty then 0 else (s.cc - (s.pld p).serve.waitCc).toNat

/-! ### RETIRE and TEARDOWN (R349, R354, R355) -/

/-- The response to a request for a polder, with the rows that it is assigned (R349). -/
def State.polderResponse (s : State) (op p : Nat) : List Byte := response op p 0 (if p < 16 then (s.pld p).rowMap else 0)

/-- RETIRE: clearing without a record, or a pending retire of a running job (R354). -/
def execRetire (c : ChannelId) (s : State) : Host.Outcome State Fault Refusal :=
  let ch := c.toNat
  .next (match s.request ch 0x0102 with
    | none => s
    | some b =>
      let s := s.takeRequest ch
      let p := peek b 2 1
      let ok := s.polderResponse 0x0102 p
      if s.boot.part != .operational && s.boot.part != .failed then s.reply ch 0x8003 ok
      else if !formed b 4 [(2, 1)] || 15 < p then s.reply ch 0x8001 ok
      else match (s.pld p).state with
        | .loaded => (s.startClearing p none).reply ch 0 ok
        | .complete => (s.startClearing p none).reply ch 0 ok
        | .running => ((s.countIntakeWait p).modPld p (fun x => { x with retirePending := true })).reply ch 0 ok
        | _ => s.reply ch 0x8003 ok)

/-- A teardown of a running polder on request: a job that completes in the same cc prevails, and the request then acts as a
retire (R371). -/
def State.tearDown (s : State) (p : Nat) : State :=
  let s := if s.jobDone p then s.completeJob p else s
  match (s.pld p).state with
  | .complete => s.startClearing p none
  | .running => s.startClearing p (some (plainCause p 0 0xFFFF))
  | _ => s

/-- TEARDOWN: at once, with a record of code 0x0000; a complete polder is retired (R355). -/
def execTeardown (c : ChannelId) (s : State) : Host.Outcome State Fault Refusal :=
  let ch := c.toNat
  .next (match s.request ch 0x0103 with
    | none => s
    | some b =>
      let s := s.takeRequest ch
      let p := peek b 2 1
      let ok := s.polderResponse 0x0103 p
      if s.boot.part != .operational && s.boot.part != .failed then s.reply ch 0x8003 ok
      else if !formed b 4 [(2, 1)] || 15 < p then s.reply ch 0x8001 ok
      else match (s.pld p).state with
        | .loaded => (s.startClearing p (some (plainCause p 0 0xFFFF))).reply ch 0 ok
        | .running => (s.tearDown p).reply ch 0 ok
        | .complete => (s.startClearing p none).reply ch 0 ok
        | _ => s.reply ch 0x8003 ok)

/-! ### The teardown watchdog (R366) -/

/-- The number of a shared engine. -/
def engineNo : SharedEngine → Nat
  | .link n => n.toNat
  | .hostDma s1 => if s1 then 17 else 16
  | .reduction => 18

/-- WATCHDOG_EXPIRY: a remote wait on a link engine or of the reduction sequence has reached the limit (R366). An arrival stamped in the
cc of expiry prevails: it comes before the expiry among the commands of that cc. DEDUCED: log entry 128. -/
def execWatchdogExpiry (e : SharedEngine) (p : PolderId) (s : State) : Host.Outcome State Fault Refusal :=
  let n := p.toNat
  let k := engineNo e
  let limit := (s.reg (pldReg n 0x054)).toNat * 65536
  .next (
    if k = 16 || k = 17 || !(s.slot k n).remote || limit = 0 || !s.elapsed (engineDom k) (s.slot k n).since limit then s
    else
      let s := s.noteWait k n
      let s := s.modSlot k n (fun x => { x with since := s.now (engineDom k) })
      if k = 18 then s.raiseMaster n 0xE 0 0x0E02 0 else s.raiseMaster n 0xC k 0x0E01 0)

/-! ### Host requests (R359, R417) -/

/-- An abandoned tag ends; the last one of a draining ID frees it (R359, R369). -/
def State.endTag (s : State) (req : Nat) : State :=
  match s.hif.tags.find? (fun t => t.req == req) with
  | none => s
  | some g =>
    let s := s.modHif (fun h => { h with tags := h.tags.filter (fun t => t.req != req) })
    if (s.pld g.polder).state == .draining && !s.hif.tags.any (fun t => t.polder == g.polder) then
      (s.modPld g.polder (fun _ => default)).setIrq (pldReg g.polder 0) 8
    else s

/-- The code of a failed completion (R417). -/
def hostCode : HostStatus → Nat
  | .unsupported => 0x0D02
  | .poisoned => 0x0D03
  | .ideFailure => 0x0D04
  | .timeout => 0x0D01
  | .success => 0

/-- A descriptor of a polder's slot in host DMA ends. -/
def State.endHostDesc (s : State) (k p : Nat) : State :=
  s.modSlot k p (fun x => { x with running := false, remote := false, parked := false, cur := none })

/-- The data of a host read land: the response goes out where the slot still runs, and a parked slot becomes ready (R363). -/
def State.landHost (s : State) (r : Req) (x : Target) : State :=
  let bs := s.memRead x r.len
  let s := if (s.slot 16 r.polder).remote then s.noteWait 16 r.polder else s
  if (s.slot 16 r.polder).parked then
    (s.modReq r.id (fun q => { q with data := bs, stage := .landed })).modSlot 16 r.polder (fun y => { y with remote := false })
  else (s.respond r.id bs).endHostDesc 16 r.polder

/-- A host request fails: the fault names the address (R217, R417). -/
def State.failHost (s : State) (r : Req) (code : Nat) : State :=
  let s := if (s.slot 16 r.polder).remote then s.noteWait 16 r.polder else s
  (((s.loseReq r.id).noteFaultVa r).hostError r.polder code 4 r.va).endHostDesc 16 r.polder

/-- HOST_COMPLETION: host DMA receives the completion of a read that it has issued, or has issued a posted write (R179, R359,
R363, R417). -/
def execHostCompletion (req : Nat) (st : HostStatus) (s : State) : Host.Outcome State Fault Refusal :=
  .next (match s.findReq req with
    | none => s.endTag req
    | some r =>
      match r.tgt with
      | none => s
      | some x =>
        if !s.issued r then s
        else if r.isWrite then
          ((s.landWrite r.polder (r.q + 2) r.tile r.va x r.data).respond req r.data).endHostDesc 16 r.polder
        else if st = .success then s.landHost r x
        else s.failHost r (hostCode st))

/-- COMPLETION_TIMEOUT: no completion of a read has come (R359, R365, R417). -/
def execCompletionTimeout (req : Nat) (s : State) : Host.Outcome State Fault Refusal :=
  .next (match s.findReq req with
    | none => s.endTag req
    | some r => if s.issued r && !r.isWrite then s.failHost r 0x0D01 else s)

end Sys2Proof.Machine
end

