-- ==== Sys2Proof/Machine/Links.lean ====
section
/-!
DEFINITION. Message transport over the link ports: identity and routes, digests, flits and frames, slots and credits, link down and alarms (R301, R361 to R366, R379 to R398).
-/

namespace Sys2Proof.Machine

/-! ### Accesses by shared engines (R177, R186, R360) -/

/-- A range cut at 1 KiB boundaries, as addresses and lengths. The first argument bounds the pieces. -/
def splitKiB : Nat → Nat → Nat → List (Nat × Nat)
  | 0, _, _ => []
  | k + 1, va, len =>
    if len = 0 then []
    else
      let n := min len (1024 - va % 1024)
      (va, n) :: splitKiB k (va + n) (len - n)

def kibs (va len : Nat) : List (Nat × Nat) := splitKiB (len / 1024 + 2) va len

/-- The die whose copy of the tables a shared engine reads: D0's for S0's engines and D4's for S1's (R171). An S-die has no walker
(R174), so that no walk is counted for them. DEDUCED: log entry 154. -/
def walkerDie (die : Nat) : Nat := if die = 4 then 0 else if die = 5 then 2 else die

/-- A shared engine on a die reads a run of bytes: the request crosses the seams to the target as one flit, and the response
comes back as Bulk flits, in slots of the polder that the access is for (R221, R222, R226, R307). -/
def State.engineReads (s : State) (p die : Nat) (x : Target) (n : Nat) : State :=
  ((s.polderCrosses p die 2 1 (fixedRoute die x.die)).targetSlots p x n false).polderCrosses p x.die 2 (seamFlits n) (fixedRoute x.die die)

/-- A shared engine on a die writes a run of bytes: the data cross the seams to the target, and the acknowledgement comes back
as one flit. -/
def State.engineWrites (s : State) (p die : Nat) (x : Target) (n : Nat) : State :=
  ((s.polderCrosses p die 2 (seamFlits n) (fixedRoute die x.die)).targetSlots p x n false).polderCrosses p x.die 2 1 (fixedRoute x.die die)

/-- A shared engine's access fails translation. -/
def State.engineFault (s : State) (p kind unit code va : Nat) : State := (s.recordXl p code va).raiseMaster p kind unit code va

/-- An access of a polder to host memory is due while its VF's Bus Master Enable is 0 (R416, R417). -/
def State.hostBarred (s : State) (p : Nat) (x : Target) : Bool := x.space == .host && !s.masters (p + 1)

/-- A shared engine reads one piece for a polder, or raises what the translation or the error correction finds. A seam out of
service carries no request of it, whose polder is being torn down (R20, R31). -/
def State.readPiece (s : State) (die p kind unit va len : Nat) (ecc : Ecc) : Option (List Byte) × State :=
  match s.translate (walkerDie die) p va false with
  | .fault code => (none, s.engineFault p kind unit code va)
  | .at_ x =>
    if !s.routeUp die x.die then (none, s)
    else if s.hostBarred p x then (none, s.hostError p 0x0D05 4 va)
    else
    let s := (s.engineReads p die x len).countRead x len
    match ecc with
    | .uncorrectable => (none, s.memLost x p kind unit)
    | .corrected => (some (s.memRead x len), s.memCorrected x)
    | .clean => (some (s.memRead x len), s)

/-- What the error correction finds in an access of a run of them: clean where nothing is said. -/
def eccAt (ecc : List Ecc) (i : Nat) : Ecc := (ecc[i]?).getD .clean

def State.readPieces (s : State) (die p kind unit : Nat) (ecc : List Ecc) : List (Nat × Nat) → Option (List Byte) × State
  | [] => (some [], s)
  | c :: cs =>
    match s.readPiece die p kind unit c.1 c.2 (eccAt ecc 0) with
    | (none, s) => (none, s)
    | (some bs, s) =>
      match State.readPieces s die p kind unit (ecc.drop 1) cs with
      | (none, s) => (none, s)
      | (some r, s) => (some (bs ++ r), s)

/-- A shared engine reads a range for a polder, an access for each piece, of which the error correction speaks in turn (R185). -/
def State.masterRead (s : State) (die p kind unit va len : Nat) (ecc : List Ecc) : Option (List Byte) × State :=
  s.readPieces die p kind unit ecc (kibs va len)

def State.writePieces (s : State) (die p kind unit : Nat) (bs : List Byte) : List (Nat × Nat) → Bool × State
  | [] => (true, s)
  | c :: cs =>
    match s.translate (walkerDie die) p c.1 true with
    | .fault code => (false, s.engineFault p kind unit code c.1)
    | .at_ x =>
      if s.accumulates x && kind != 0xC then (false, (s.showViolation x 0x0151).raiseMaster p kind unit 0x0151 c.1)
      else if !s.routeUp die x.die then (false, s)
      else if s.hostBarred p x then (false, s.hostError p 0x0D05 4 c.1)
      else
        let s := (s.engineWrites p die x c.2).closeMerges x c.2
        State.writePieces (s.landWrite p kind unit c.1 x (bs.take c.2)) die p kind unit (bs.drop c.2) cs

/-- A shared engine writes a range for a polder, and answers whether all of it was performed. -/
def State.masterWrite (s : State) (die p kind unit va : Nat) (bs : List Byte) : Bool × State :=
  s.writePieces die p kind unit bs (kibs va bs.length)

/-! ### Identity and routes (R388 to R390) -/

def State.partId (s : State) : Nat := field (s.reg (prtPage 0 + 0x800)).toNat 0 12

def ringOf (a : Nat) : Nat := field a 6 6
def posOf (a : Nat) : Nat := field a 0 6
def polderOf (a : Nat) : Nat := field a 12 4

/-- The short address of a polder of this part. -/
def State.shortAddr (s : State) (p : Nat) : Half := BitVec.ofNat 16 (s.partId + p * 4096)

/-- Where a message goes on: here, by a port, or nowhere, which the named port's page counts. -/
inductive Egress where
  | here
  | by_ (n : Nat)
  | drop (n : Nat)
  deriving DecidableEq, Repr

/-- The route of a destination (R389). An entry that names a port of another mode is no entry. -/
def State.egress (s : State) (dst : Nat) : Egress :=
  let own := s.partId
  if ringOf dst != ringOf own then
    let e := (s.reg (prtPage 0 + 0x910 + 4 * ringOf dst)).toNat
    let n := field e 0 4
    if bitAt e 8 && (s.port n).mode == 2 && (s.port n).state == .up then .by_ n else .drop n
  else if posOf dst != posOf own then
    let e := (s.reg (prtPage 0 + 0x810 + 4 * posOf dst)).toNat
    let n := field e 0 4
    if bitAt e 4 && (s.port n).mode == 1 && (s.port n).state == .up then .by_ n else .drop n
  else .here

def State.prtCtlReg (s : State) (n : Nat) : Nat := (s.reg (prtPage n + 0x040)).toNat
def State.dateline (s : State) (n : Nat) : Bool := bitAt (s.prtCtlReg n) 2
def State.dimOf (s : State) (n : Nat) : Nat := field (s.prtCtlReg n) 3 2

/-- The class in which a message leaves by a port, from the class and port by which it came (R390). -/
def State.leaveClass (s : State) (n : Nat) (from_ : Option (Nat × Bool)) : Bool :=
  let cls := match from_ with
    | some (a, c) => c && s.dimOf a == s.dimOf n
    | none => false
  cls || s.dateline n

/-- A message is dropped (R389, R395, R398, R399). -/
def State.dropMessage (s : State) (n : Nat) : State := (s.bump (prtPage n + 0x06C) 1).setIrq (prtPage n) 32

/-! ### Digests (R301, R305) -/

def digestTerm (seq : Dword) (payload : List Byte) : Dword := mix (seq ^^^ mix (crc64 payload))

/-- A message counts in a digest and a count. -/
def State.digest (s : State) (sum count : Nat) (m : LinkMsg) : State :=
  (s.bump64 sum (digestTerm m.seq m.payload).toNat).bump64 count 1

def digestPage (n p : Nat) : Nat := prtPage n + 0x400 + 0x20 * p

/-! ### Leaving by a port (R380 to R387) -/

def lcDom (n : Nat) : Nat := 0x40 + n

/-- The header of a message (R384). -/
def msgHeader (type : Nat) (m : LinkMsg) : List Byte :=
  leBytes 1 type ++ leBytes 1 ((if m.last then 1 else 0) + if m.sigEn then 2 else 0) ++ leBytes 2 m.payload.length ++
  leBytes 2 m.dst.toNat ++ leBytes 2 m.src.toNat ++ leBytes 8 m.seq.toNat ++ leBytes 4 m.dstOff.toNat ++ [m.sigTile, m.sigCtr] ++
  leBytes 2 m.credit.toNat ++ leBytes 4 m.psn.toNat ++ leBytes 4 0

/-- The size of a message with its header, and its flits (R384). -/
def msgBytes (m : LinkMsg) : Nat := 32 + m.payload.length
def msgFlits (m : LinkMsg) : Nat := (msgBytes m + 239) / 240

/-- Receive buffers of a native channel, per class (R381). -/
def vcBuffer (vc : Nat) : Nat := if vc = 0 then 16 else if vc = 1 then 64 else 1024

def creditKey (m : LinkMsg) : Nat := m.vc.toNat * 2 + if m.cls then 1 else 0

def PeerCtx.is (c : PeerCtx) (n peer : Nat) : Bool := c.port == n && c.peer == peer

/-- A new peer context of an S-die has a place: fewer than 4 096, or one without an unacknowledged message (R387). -/
def State.ctxRoom (s : State) (n peer : Nat) : Bool :=
  let mine := s.links.ctxs.filter (fun c => c.port / 8 == n / 8)
  mine.any (fun c => c.is n peer) || decide (mine.length < 4096) || mine.any (fun c => c.unacked.isEmpty)

/-- Removes the least recently used context of an S-die that has no unacknowledged message. -/
def evictCtx (die : Nat) (l : List PeerCtx) : List PeerCtx :=
  match (l.reverse.zipIdx).find? (fun c => c.1.port / 8 == die && c.1.unacked.isEmpty) with
  | some c => (l.reverse.eraseIdx c.2).reverse
  | none => l

def State.ctx (s : State) (n peer : Nat) : PeerCtx := (s.links.ctxs.find? (fun c => c.is n peer)).getD { (default : PeerCtx) with port := n, peer := peer }

/-- Changes a context and makes it the most recently used one. PSNs start at 0 (log entry 28). -/
def State.useCtx (s : State) (n peer : Nat) (f : PeerCtx → PeerCtx) : State :=
  let c := f (s.ctx n peer)
  s.modLinks (fun l =>
    let rest := l.ctxs.filter (fun c => !c.is n peer)
    let full := decide (4096 ≤ rest.countP (fun c => c.port / 8 == n / 8))
    { l with ctxs := c :: (if full then evictCtx (n / 8) rest else rest) })

/-- The part that a message leaves for. -/
def peerPart (m : LinkMsg) : Nat := field m.dst.toNat 0 12

/-- An Ethernet port can send a message: no pause holds its channel, and it has a peer context (R386, R387). -/
def State.canFrame (s : State) (n : Nat) (o : OutMsg) : Bool :=
  !(s.port n).paused.contains o.msg.vc.toNat && (o.type == 8 || s.ctxRoom n (peerPart o.msg))

/-- Flits pass on a native port: it is up, or waits for IDENT (R379, R383). -/
def Port.linked (x : Port) : Bool := x.mode == 1 && (x.state == .up || x.waitIdent)

/-- What waits at a port may leave. -/
def Port.sends (x : Port) : Bool := x.state == .up || x.linked

/-! #### Native flits (R380 to R383) -/

/-- The flits of a message, 240 bytes each; they take their numbers as they leave. -/
def cutFlits (type : Nat) (m : LinkMsg) : List Flit :=
  let b := msgHeader type m ++ m.payload
  (List.range (msgFlits m)).map (fun i =>
    { fseq := 0, vc := m.vc.toNat, cls := m.cls, som := i == 0, eom := i + 1 == msgFlits m, payload := (b.drop (240 * i)).take 240 })

/-- The header of a flit that a port sends: the last number that it has received in order, a replay request that is due, and
credits of one channel and class (R380). -/
def Port.flitHeader (x : Port) (null : Bool) (f : Flit) (credits : Nat × Nat) : Nat :=
  f.vc + (if f.cls then 4 else 0) + (if f.som then 8 else 0) + (if f.eom then 16 else 0) + (if null then 32 else 0) +
  (if x.nakDue then 64 else 0) + f.fseq.toNat * 2 ^ 8 + (x.rxSeq - 1).toNat * 2 ^ 20 + credits.1 / 2 * 2 ^ 32 +
  credits.1 % 2 * 2 ^ 34 + credits.2 * 2 ^ 35

/-- The 256 bytes of a flit (R380). -/
def flitBytes (header number : Nat) (payload : List Byte) : List Byte :=
  let b := leBytes 8 header ++ payload ++ (List.range (240 - payload.length)).map (fun i => Config.flitPad number (payload.length + i))
  b ++ leBytes 8 (crc64 b).toNat

/-- The credits that the next flit returns: those owed of the lowest channel and class, at most 511 (R382). -/
def Port.credits (x : Port) : Nat × Nat :=
  match x.owed with
  | [] => (0, 0)
  | (k, n) :: _ => (k, min n 511)

/-- A flit goes out with what the port has to tell its peer, and is counted. -/
def State.putFlit (s : State) (n : Nat) (null : Bool) (f : Flit) : State :=
  let x := s.port n
  let c := x.credits
  let w : Sent := { port := n, bytes := flitBytes (x.flitHeader null f c) (if null then 4096 else f.fseq.toNat) f.payload }
  let s := (s.bump64 (prtPage n + 0x070) 1).modLinks (fun l => { l with wire := l.wire ++ [w] })
  s.modPort n (fun x => { x with nakDue := false, ackDue := false, owed := Table.put 0 x.owed c.1 (Table.get 0 x.owed c.1 - c.2) })

/-- A flit takes the next number and stays in the retry buffer until it is acknowledged (R383). -/
def State.putNew (s : State) (n : Nat) (f : Flit) : State :=
  let f := { f with fseq := (s.port n).nextSeq }
  (s.putFlit n false f).modPort n (fun x => { x with
    retry := x.retry ++ [f], nextSeq := x.nextSeq + 1, ackLc := if x.retry.isEmpty then s.now (lcDom n) else x.ackLc
    gap := if f.vc < 2 then 15 else x.gap - 1, redNext := if f.vc < 2 then x.redNext else f.vc == 2 })

/-- The first messages of each channel and class, which send their flits (R381). -/
def firstOfKind : List OutMsg → List OutMsg
  | [] => []
  | o :: rest => o :: (firstOfKind rest).filter (fun k => creditKey k.msg != creditKey o.msg)

/-- The next flit of a message, if its channel and class has a credit for it and the retry buffer space (R382, R383). -/
def Port.flitOf (x : Port) (o : OutMsg) : Option Flit :=
  if Table.get 0 x.spent (creditKey o.msg) < vcBuffer o.msg.vc.toNat ∧ x.retry.length < 256 then
    (cutFlits o.type o.msg)[Table.get 0 x.started (creditKey o.msg)]?
  else none

/-- The flit of a list of waiting flits that goes next: a sync or control flit at the next boundary, though one at most in 16
flit times while others wait, and otherwise bulk and reduction in turn (R381). -/
def nextFlit (gap : Nat) (redNext : Bool) (l : List Flit) : Option Flit :=
  let pri := (l.find? (fun f => f.vc == 0)).or (l.find? (fun f => f.vc == 1))
  let bulk := l.find? (fun f => f.vc == 2)
  let red := l.find? (fun f => f.vc == 3)
  let shared := if redNext then red.or bulk else bulk.or red
  if gap = 0 then pri.or shared else shared.or pri

/-- Whether a port has something to tell its peer that no flit has taken yet. -/
def Port.owes (x : Port) : Bool := x.nakDue || x.ackDue || !x.owed.isEmpty

/-- NULL flits go out while credits, an acknowledgement or a replay request are due and no other flit is (R380, R382).
DESIGN CHOICE: log entry 127. -/
def State.putNulls (s : State) (n : Nat) : Nat → State
  | 0 => s
  | k + 1 => if (s.port n).owes then State.putNulls (s.putFlit n true default) n k else s

/-- Every native port that is up tells its peer what is due. -/
def State.settlePorts (s : State) : State :=
  s.forEach (List.range 16) (fun s n => if (s.port n).linked then s.putNulls n 32 else s)

/-- The receive buffer that a message came through has room again for some of its flits: their credits go back (R382). -/
def State.giveFlits (s : State) (o : OutMsg) (count : Nat) : State :=
  match o.came with
  | some (n, k) =>
    if (s.port n).mode = 1 && (s.port n).state = .up then
      s.modPort n (fun x => { x with owed := Table.put 0 x.owed k (Table.get 0 x.owed k + count) })
    else s
  | none => s

def State.giveBack (s : State) (o : OutMsg) : State := s.giveFlits o (msgFlits o.msg)

/-- A flit of the first message of its channel and class goes out and spends a credit; the last one takes the message with it. -/
def State.sendFlit (s : State) (n : Nat) (o : OutMsg) (f : Flit) : State :=
  let key := creditKey o.msg
  let s := ((s.putNew n f).modPort n (fun x => { x with
    spent := Table.put 0 x.spent key (Table.get 0 x.spent key + 1)
    started := Table.put 0 x.started key (if f.eom then 0 else Table.get 0 x.started key + 1)
    waitTx := if f.eom then x.waitTx.erase o else x.waitTx })).giveFlits o 1
  if f.eom then s.modLinks (fun l => { l with sent := l.sent ++ [o] }) else s

/-- The flits of the waiting messages go out one by one, in the order of R381. The count bounds how many. -/
def State.pumpFlits (s : State) (n : Nat) : Nat → State
  | 0 => s
  | k + 1 =>
    let x := s.port n
    let first := firstOfKind x.waitTx
    match nextFlit x.gap x.redNext (first.filterMap x.flitOf) with
    | none => s
    | some f =>
      match first.find? (fun o => x.flitOf o == some f) with
      | none => s
      | some o => State.pumpFlits (s.sendFlit n o f) n k

/-! #### Ethernet frames (R385, R388) -/

/-- A number as a given count of bytes, most significant first, as Ethernet, IPv6 and UDP lay fields out. PRESUMED: log entry 170. -/
def beBytes (k n : Nat) : List Byte := (leBytes k n).reverse

/-- The IPv6 address of a port of a part (R388). -/
def State.v6Addr (s : State) (part n : Nat) : Nat :=
  s.reg64 (prtPage 0 + 0x804) * 2 ^ 64 + ((s.reg (prtPage 0 + 0x80C)).toNat * 2 ^ 16 + part * 16 + n) % 2 ^ 64

/-- The sum of the 16-bit words of a run of bytes in one's complement, as UDP's checksum takes it. -/
def onesSum : List Byte → Nat
  | [] => 0
  | [a] => a.toNat * 256
  | a :: b :: l =>
    let t := a.toNat * 256 + b.toNat + onesSum l
    if 65536 ≤ t then t - 65535 else t

/-- The checksum over the pseudo-header of IPv6, the UDP header and the message; 0 is sent as 0xFFFF. -/
def udpChecksum (src dst : Nat) (udp : List Byte) : Nat :=
  let t := onesSum (beBytes 16 src ++ beBytes 16 dst ++ beBytes 4 udp.length ++ beBytes 4 17 ++ udp)
  if t = 65535 then 65535 else 65535 - t

/-- The far port that frames for a destination are addressed to (R389). -/
def State.farPort (s : State) (dst : Nat) : Nat := field (s.reg (prtPage 0 + 0x910 + 4 * ringOf dst)).toNat 4 4

/-- The frame of a message (R385): the FCS is the MAC's. -/
def State.frameBytes (s : State) (n type : Nat) (m : LinkMsg) : List Byte :=
  let pcp := (s.reg (prtPage n + 0x090)).toNat
  let prio := field pcp (4 * m.vc.toNat) 3
  let b := msgHeader type m ++ m.payload
  let src := s.v6Addr s.partId n
  let dst := s.v6Addr (field m.dst.toNat 0 12) (s.farPort m.dst.toNat)
  let udp (sum : Nat) := beBytes 2 (0xC000 + m.src.toNat % 2 ^ 14) ++ beBytes 2 (field (s.reg (prtPage n + 0x098)).toNat 0 16) ++
    beBytes 2 (8 + b.length) ++ beBytes 2 sum ++ b
  beBytes 6 (s.reg64 (prtPage n + 0x088) % 2 ^ 48) ++ beBytes 6 (s.reg64 (prtPage n + 0x080) % 2 ^ 48) ++
  (if bitAt (s.prtCtlReg n) 5 then beBytes 2 0x8100 ++ beBytes 2 (prio * 2 ^ 13 + field pcp 20 12) else []) ++ beBytes 2 0x86DD ++
  beBytes 4 (6 * 2 ^ 28 + prio * 2 ^ 25) ++ beBytes 2 (8 + b.length) ++ [17, 64] ++ beBytes 16 src ++ beBytes 16 dst ++
  udp (udpChecksum src dst (udp 0))

/-- A frame goes out. -/
def State.putFrame (s : State) (n type : Nat) (m : LinkMsg) : State :=
  let w : Sent := { port := n, bytes := s.frameBytes n type m }
  (s.bump64 (prtPage n + 0x070) 1).modLinks (fun l => { l with wire := l.wire ++ [w] })

/-- A frame that arrives is for the port's own MAC and IPv6 address, and passes its checks (R385). -/
def State.frameOk (s : State) (n : Nat) (m : LinkMsg) : Bool :=
  m.frame.mac.toNat == s.reg64 (prtPage n + 0x080) % 2 ^ 48 && m.frame.addr.toNat == s.v6Addr s.partId n && m.frame.intact

/-- The frame of 802.1Qbb by which a port pauses a priority (R386). PRESUMED: log entry 170. -/
def State.pauseFrame (s : State) (n prio : Nat) : List Byte :=
  beBytes 6 0x0180C2000001 ++ beBytes 6 (s.reg64 (prtPage n + 0x080) % 2 ^ 48) ++ beBytes 2 0x8808 ++ beBytes 2 0x0101 ++ beBytes 2 (2 ^ prio) ++
  (List.range 8).flatMap (fun i => beBytes 2 (if i = prio then (Config.pauseTime n).toNat else 0)) ++ List.replicate 26 0

/-- The receive space of a channel may have fallen below 16 KiB, of which the port then sends a pause: how much space a channel has and
how fast it empties is not given (R386). DESIGN CHOICE: log entry 160. -/
def State.pauseChannel (s : State) (n : Nat) (vc : BitVec 2) : State :=
  let x := s.draw
  if x.1.getLsbD 0 then
    let w : Sent := { port := n, bytes := x.2.pauseFrame n (field (x.2.reg (prtPage n + 0x090)).toNat (4 * vc.toNat) 3) }
    (x.2.bump64 (prtPage n + 0x070) 1).modLinks (fun l => { l with wire := l.wire ++ [w] })
  else x.2

/-! #### What waits at a port -/

/-- A frame of a message leaves. Every message but an ACK takes the next PSN of its context (R387). -/
def State.emit (s : State) (n : Nat) (o : OutMsg) : State :=
  if o.type = 8 then ((s.putFrame n o.type o.msg).giveBack o).modLinks (fun l => { l with sent := l.sent ++ [o] })
  else
    let lc := s.now (lcDom n)
    let peer := peerPart o.msg
    let o := { o with msg := { o.msg with psn := (s.ctx n peer).nextPsn } }
    (((s.putFrame n o.type o.msg).giveBack o).useCtx n peer (fun c => { c with
      nextPsn := c.nextPsn + 1, unacked := c.unacked ++ [o], lc := if c.unacked.isEmpty then lc else c.lc })).modLinks
      (fun l => { l with sent := l.sent ++ [o] })

/-- The waiting messages of an Ethernet port that can go leave, each behind the ones of its channel and class, and the others are kept. -/
def State.pumpFrames (s : State) (n : Nat) (kept : List OutMsg) : List OutMsg → State
  | [] => s.modPort n (fun x => { x with waitTx := kept })
  | o :: rest =>
    if kept.any (fun k => creditKey k.msg == creditKey o.msg) || !s.canFrame n o then State.pumpFrames s n (kept ++ [o]) rest
    else State.pumpFrames (s.emit n o) n kept rest

/-- Sync and then control messages go ahead of the others (R381). -/
def byPriority (l : List OutMsg) : List OutMsg :=
  l.filter (fun o => o.msg.vc == 0) ++ l.filter (fun o => o.msg.vc == 1) ++ l.filter (fun o => decide (1 < o.msg.vc.toNat))

/-- Whether a waiting message waits for a credit or a pause, and not for a peer context or retry space (R399). -/
def Port.stalls (x : Port) (o : OutMsg) : Bool :=
  if x.mode = 1 then decide (vcBuffer o.msg.vc.toNat ≤ Table.get 0 x.spent (creditKey o.msg)) else x.paused.contains o.msg.vc.toNat

/-- The lc for which a message has waited at a port for a credit or a pause and that PRT_CRSTALL does not hold yet (R399). -/
def State.portStall (s : State) (n : Nat) : Nat :=
  match (s.port n).waitTx.find? (s.port n).stalls with
  | some o => (s.now (lcDom n) - o.since).toNat
  | none => 0

/-- PRT_CRSTALL takes in the wait up to now, from which the messages that still wait count on. -/
def State.countPortStall (s : State) (n : Nat) : State :=
  (s.bump (prtPage n + 0x064) (s.portStall n)).modPort n (fun x => { x with waitTx := x.waitTx.map (fun o => { o with since := s.now (lcDom n) }) })

/-- The flits of a waiting message that have not left. -/
def Port.flitsLeft (x : Port) (o : OutMsg) : Nat :=
  msgFlits o.msg - if (firstOfKind x.waitTx).contains o then Table.get 0 x.started (creditKey o.msg) else 0

/-- What waits at a port that leaves its mode or goes down is dropped, and the buffers that it came through have room again. -/
def State.dropWaiting (s : State) (n : Nat) : State :=
  ((s.forEach (s.port n).waitTx (fun t o => (t.giveFlits o ((s.port n).flitsLeft o)).dropMessage n)).countPortStall n).modPort n
    (fun x => { x with waitTx := [], started := [] })

/-- A port sends what waits at it, as far as credits, retry space, pauses and contexts allow. -/
def State.pumpPort (s : State) (n : Nat) : State :=
  let x := s.port n
  if !x.sends || x.waitTx.isEmpty then s
  else
    let s := s.countPortStall n
    let l := (s.port n).waitTx
    if x.mode = 1 then s.pumpFlits n (l.map (fun o => msgFlits o.msg)).sum else s.pumpFrames n [] (byPriority l)

/-- A message is handed to a port, from a polder of the part or from the receive buffer of another port. -/
def State.enqueue (s : State) (n type : Nat) (m : LinkMsg) (came : Option (Nat × Nat)) : State :=
  let o : OutMsg := { port := n, type := type, msg := m, since := s.now (lcDom n), came := came }
  (s.modPort n (fun x => { x with waitTx := x.waitTx ++ [o] })).pumpPort n

/-- A port takes a message of a polder of this part: it numbers it and counts it (R301). -/
def State.number (s : State) (n p : Nat) (m : LinkMsg) : LinkMsg × State :=
  let k := n * 16 + p
  let seq := Table.get 0 s.links.seqs k
  let m := { m with seq := seq }
  (m, (s.modLinks (fun l => { l with seqs := Table.put 0 l.seqs k (seq + 1) })).digest (digestPage n p) (digestPage n p + 0x10) m)

/-- A message of a polder of this part is handed to a port. -/
def State.handOver (s : State) (n p type : Nat) (m : LinkMsg) : State :=
  let x := s.number n p { m with cls := s.leaveClass n none }
  x.2.enqueue n type x.1 none

/-- A message of a polder that needs no message slot (R394). -/
def State.sendDirect (s : State) (p type : Nat) (m : LinkMsg) : State :=
  match s.egress m.dst.toNat with
  | .by_ n => s.handOver n p type m
  | .drop n => s.dropMessage n
  | .here => s

/-- A control message without payload fields of its own. -/
def State.controlMsg (s : State) (p : Nat) (dst : Half) (type : Nat) (vals : List Nat) : LinkMsg :=
  { (default : LinkMsg) with vc := 1, dst := dst, src := s.shortAddr p, payload := Config.messageBody type vals }

/-! ### Signals of the link engines (R392, R395) -/

/-- The engine of a port increments a counter of a polder-relative tile over the sync network, whose seams the increment crosses
(R219), and which a seam out of service does not carry (R20). It waits for no credit: log entry 129. -/
def State.signalTile (s : State) (n p tile ctr : Nat) : State :=
  match (s.pld p).tiles[tile]? with
  | some t =>
    if !s.routeUp (4 + n / 8) (dieOfTile t) then s
    else (s.signalCrosses (4 + n / 8) t).modNets (fun y => { y with signals := y.signals ++ [{ src := t, die := 4 + n / 8, dst := t, ctr := ctr }] })
  | none => s

/-! ### Slots and credits (R361 to R366, R394) -/

/-- An engine can take another polder's descriptor: what runs on it, if anything, is in a remote wait (R361, R363). -/
def State.engineFree (s : State) (k p : Nat) : Bool :=
  (List.range 16).all (fun q => q == p || !(s.slot k q).running || (s.slot k q).remote)

/-- A polder's slot has a descriptor ready, the engine can take it, and the frame's next slot goes to it (R226, R361). -/
def State.startTurn (s : State) (k p : Nat) (ready : Nat → Bool) : Bool :=
  ready p && s.engineFree k p && s.chooses (engineResource k) ready == some p

/-- An engine parks the descriptor that waits on it, for another polder's, and starts or resumes the polder's own in a slot of the
frame (R361, R363). BLK_IRQ_STS bit 2 marks the first park of a polder: log entry 130. -/
def State.takeEngine (s : State) (k p : Nat) : State :=
  let s := s.forEach ((List.range 16).filter (fun q => q != p && (s.slot k q).running)) (fun s q =>
    let s := (s.modSlot k q (fun x => { x with running := false, parked := true })).bump (pldReg q 0x060) 1
    if (s.pld q).parkedYet then s else (s.modPld q (fun x => { x with parkedYet := true })).setIrq (pldReg q 0) 4)
  (s.useSlot (engineResource k) p false).modSlot k p (fun x => { x with running := true, parked := false })

/-- Messages that take a message slot at the receiving engine. -/
def needsSlot (type : Nat) : Bool := decide (1 ≤ type) && decide (type ≤ 6)

/-- A slot enters a remote wait, or stays in it (R362, R366). -/
def State.remoteWait (s : State) (k p : Nat) : State :=
  let now := s.now (engineDom k)
  if (s.slot k p).remote then s else s.modSlot k p (fun x => { x with remote := true, since := now, entered := now, counted := now })

/-- An arrival for a slot: the watchdog times from it, and it may lie near an edge of the wait that it ends (R366, R369, R432). -/
def State.noteArrival (s : State) (k p : Nat) : State :=
  if (s.slot k p).remote then
    let now := s.now (engineDom k)
    let limit := dwordOf ((s.reg (pldReg p 0x054)).toNat * 65536)
    (s.noteWait k p).modSlot k p (fun x => { x with near := closeTo now x.since || (limit != 0 && closeTo now (x.since + limit)), since := now })
  else s

/-- What a slot waits for has landed. -/
def State.endWait (s : State) (k p : Nat) : State :=
  if (s.slot k p).remote then (s.noteWait k p).modSlot k p (fun x => { x with remote := false }) else s

/-- A violation of a polder's descriptor or message in a link engine, which freezes its slot there (R360, R393). -/
def State.linkViolation (s : State) (n p code va : Nat) : State := s.raiseMaster p 0xC n code va

/-- A WRITE is delivered to a polder of this part by the engine of a port, or dropped (R395). The answer says whether
it was written. A slot that a violation has frozen writes nothing further (R360). -/
def State.deliverWrite (s : State) (n p : Nat) (m : LinkMsg) : Bool × State :=
  let x := s.pld p
  match x.links.find? (fun e => e.port == n) with
  | none => (false, s.dropMessage n)
  | some e =>
    if x.state != .running || !x.peers.contains m.src.toNat || (s.slot n p).frozen then (false, s.dropMessage n)
    else if e.recvBytes < m.dstOff.toNat + m.payload.length then (false, s.linkViolation n p 0x0190 (e.recvVa + m.dstOff.toNat))
    else
      let r := s.masterWrite (4 + n / 8) p 0xC n (e.recvVa + m.dstOff.toNat) m.payload
      (r.1, if r.1 && m.last && m.sigEn then r.2.signalTile n p m.sigTile.toNat m.sigCtr.toNat else r.2)

/-- A message stays in the part: a WRITE is delivered at once, and any other waits for the reduction sequence. -/
def State.deliverHere (s : State) (k : Nat) (o : OutMsg) : State :=
  if o.type = 1 then (s.deliverWrite k (polderOf o.msg.dst.toNat) o.msg).2
  else s.modLinks (fun l => { l with localIn := l.localIn ++ [o] })

/-- The message slots that a polder holds at the engine of a destination polder. -/
def State.slotCredit (s : State) (p : Nat) (dst : Half) : Nat := Table.get 0 s.links.credits (dst.toNat * 16 + p)
def State.setCredit (s : State) (p : Nat) (dst : Half) (n : Nat) : State :=
  s.modLinks (fun l => { l with credits := Table.put 0 l.credits (dst.toNat * 16 + p) n })

/-- A slot with no credit for its destination asks for it once and waits (R394). -/
def State.askCredit (s : State) (n k p : Nat) (dst : Half) : State :=
  let s := s.remoteWait k p
  if (s.slot k p).asked then s
  else (s.modSlot k p (fun x => { x with asked := true })).handOver n p 7 (s.controlMsg p dst 7 [0])

/-- A slot sends its messages in order, until one has no credit. -/
def State.sendAll (s : State) (k p : Nat) : List OutMsg → State
  | [] => s.modSlot k p (fun x => { x with out := [] })
  | o :: rest =>
    match s.egress o.msg.dst.toNat with
    | .here => State.sendAll (s.deliverHere k o) k p rest
    | .drop n => State.sendAll (s.dropMessage n) k p rest
    | .by_ n =>
      let c := s.slotCredit p o.msg.dst
      if c = 0 then (s.modSlot k p (fun x => { x with out := o :: rest })).askCredit n k p o.msg.dst
      else State.sendAll ((s.setCredit p o.msg.dst (c - 1)).handOver n p o.type o.msg) k p rest

def State.pumpSlot (s : State) (k p : Nat) : State := s.sendAll k p (s.slot k p).out

/-- A descriptor ends: DONE is incremented and the engine is free (R392). -/
def State.endSend (s : State) (k p : Nat) : State :=
  match (s.slot k p).sends with
  | [] => s
  | d :: _ =>
    let s := (s.endWait k p).modSlot k p (fun x => { x with sends := x.sends.drop 1, running := false, parked := false })
    if d.doneEn then s.signalTile k p d.doneTile d.doneCtr else s

/-- A descriptor sends as far as it can: it then waits for a credit or for its acknowledgement, or it has stayed in the part. -/
def State.runSend (s : State) (k p : Nat) : State :=
  let s := s.pumpSlot k p
  let x := s.slot k p
  match x.sends with
  | [] => s
  | d :: _ =>
    if !x.out.isEmpty then s
    else if s.egress d.dst == .here then s.endSend k p
    else
      let no := s.links.sendNo
      ((s.remoteWait k p).modSlot k p (fun x => { x with sentNo := no })).modLinks (fun l => { l with sendNo := no + 1 })

/-- A slot waits for the acknowledgement of a descriptor to a destination, in a channel where that is known. -/
def State.awaits (s : State) (p : Nat) (dst : Half) (vc : Option Nat) (k : Nat) : Bool :=
  let x := s.slot k p
  x.remote && !x.frozen && x.out.isEmpty && (match x.sends with
    | d :: _ => d.begun && d.dst == dst.toNat && (match vc with
      | some v => d.vc == v
      | none => true)
    | [] => false)

/-- The slot of some whose last message was handed over first. -/
def State.firstSent (s : State) (p : Nat) : List Nat → Option Nat
  | [] => none
  | k :: rest =>
    match State.firstSent s p rest with
    | some j => if (s.slot j p).sentNo < (s.slot k p).sentNo then some j else some k
    | none => some k

/-- The last message of a descriptor to a destination is acknowledged: of the slots that wait for that, the one that sent first ends it,
or becomes ready where it is parked (R363, R392). DEDUCED: log entry 161. -/
def State.ackWrite (s : State) (p : Nat) (dst : Half) (vc : Option Nat) : State :=
  match s.firstSent p ((List.range 16).filter (s.awaits p dst vc)) with
  | none => s
  | some k => if (s.slot k p).parked then s.endWait k p else s.endSend k p

/-- The gradient tensors of a polder, in ascending order of ID (R293). -/
def Catalogue.gradients (c : Catalogue) : List Tensor := inOrder (fun a b => decide (a.id ≤ b.id)) (c.tensors.filter (fun t => t.kind == 2))

/-- The completion tokens of the step are all there (R259, R296). -/
def Polder.allComplete (x : Polder) : Bool := x.cat.gradients.all (fun t => x.red.complete.contains t.id)

/-- A reduction sequence that has nothing left to send, after its step's last completion token, leaves its engine. -/
def State.restRed (s : State) (p : Nat) : State :=
  let x := s.pld p
  if !(s.slot 18 p).out.isEmpty || (x.train.phase == .reducing && !x.allComplete) then s
  else (s.endWait 18 p).modSlot 18 p (fun y => { y with running := false, parked := false })

/-- Message slots for a destination are granted to a polder: its slots that wait for them go on, or become ready where
they are parked; a frozen one sends nothing further (R360). Engine 18 is the reduction sequence. -/
def State.takeCredit (s : State) (p : Nat) (dst : Half) (n : Nat) : State :=
  if n = 0 then s
  else
    let s := s.setCredit p dst (s.slotCredit p dst + n)
    s.forEach ((List.range 16) ++ [18]) (fun s k =>
      match (s.slot k p).out with
      | [] => s
      | o :: _ =>
        if o.msg.dst != dst || !(s.slot k p).asked || (s.slot k p).frozen then s
        else
          let s := (s.endWait k p).modSlot k p (fun x => { x with asked := false })
          if (s.slot k p).parked then s
          else if k = 18 then (s.pumpSlot k p).restRed p else s.runSend k p)

/-- Grants message slots as they free, up to 8 a grant, in order of the requests, by the port of the route to the asker (R389, R394). -/
def State.serveAsks (s : State) (n p : Nat) : State :=
  match s.links.asks.find? (fun a => a.1 == n && a.2.1 == p) with
  | none => s
  | some a =>
    let used := Table.get 0 s.links.held (n * 16 + p)
    let k := min 8 (64 - used)
    if k = 0 then s
    else
      let s := s.modLinks (fun l => { l with asks := l.asks.erase a, held := Table.put 0 l.held (n * 16 + p) (used + k) })
      s.sendDirect p 7 { s.controlMsg p (BitVec.ofNat 16 a.2.2) 7 [k] with credit := BitVec.ofNat 16 k }

/-- A message's slot at the receiving engine frees. -/
def State.freeSlot (s : State) (n p : Nat) : State :=
  (s.modLinks (fun l => { l with held := Table.put 0 l.held (n * 16 + p) (Table.get 0 l.held (n * 16 + p) - 1) })).serveAsks n p

/-! ### Arrivals (R385, R387, R389, R394) -/

/-- A message for a polder of this part: its digest, the credits it carries, which a polder that does not run no longer takes, and its
delivery (R371). -/
def State.receive (s : State) (n type : Nat) (m : LinkMsg) (deliver : Nat → State → State) : State :=
  let p := polderOf m.dst.toNat
  let s := (s.digest (digestPage n p + 0x08) (digestPage n p + 0x18) m).noteArrival n p
  let s := if decide (2 ≤ type) && decide (type ≤ 6) then s.noteArrival 18 p else s
  let s := if (s.pld p).state == .running then s.takeCredit p m.src m.credit.toNat else s
  let s := deliver p s
  if needsSlot type then s.freeSlot n p else s

/-- A native message in transit goes on by the port that its destination names, over the seams where that is on the
other S-die (R389, R390). -/
def State.forward (s : State) (n type : Nat) (m : LinkMsg) : State :=
  let s := s.digest (prtPage n + 0x608) (prtPage n + 0x618) m
  match s.egress m.dst.toNat with
  | .by_ k =>
    let came := some (n, creditKey m)
    let m := { m with cls := s.leaveClass k (some (n, m.cls)), flits := [] }
    if s.routeUp (4 + n / 8) (4 + k / 8) then
      let s := s.crossSeams (4 + n / 8) m.vc.toNat (seamFlits (msgBytes m)) 1 (fixedRoute (4 + n / 8) (4 + k / 8))
      (s.digest (prtPage k + 0x600) (prtPage k + 0x610) m).enqueue k type m came
    else (s.giveBack { port := k, type := type, msg := m, since := 0, came := came }).dropMessage n
  | _ => (s.giveBack { port := n, type := type, msg := m, since := 0, came := some (n, creditKey m) }).dropMessage n

/-- The part acknowledges the last PSN that it accepted in order, by the port of the route to the sender (R387, R389). -/
def State.ackPsn (s : State) (n : Nat) (m : LinkMsg) : State :=
  let psn := (s.ctx n (field m.src.toNat 0 12)).expect - 1
  let p := polderOf m.dst.toNat
  s.sendDirect p 8 { s.controlMsg p m.src 8 [psn.toNat] with psn := psn }

/-! #### Flits and frames that arrive (R380 to R383, R385) -/

/-- The flits of a retry buffer after one of a number, or all of them where it holds none. -/
def unacknowledged (ack : BitVec 12) (l : List Flit) : List Flit :=
  match l.findIdx? (fun f => f.fseq == ack) with
  | some i => l.drop (i + 1)
  | none => l

/-- An ACK covers flits of the retry buffer; progress restarts the count of failures and the time (R383). -/
def State.takeAck (s : State) (n : Nat) (ack : BitVec 12) : State :=
  let rest := unacknowledged ack (s.port n).retry
  if rest.length = (s.port n).retry.length then s
  else s.modPort n (fun x => { x with retry := rest, acked := ack, fails := 0, ackLc := s.now (lcDom n) })

/-- The peer returns credits (R382). -/
def State.takeCredits (s : State) (n key count : Nat) : State :=
  (s.countPortStall n).modPort n (fun x => { x with spent := Table.put 0 x.spent key (Table.get 0 x.spent key - count) })

/-- A flit is none that the receiver has already taken (R383). -/
def Port.fresh (x : Port) (f : FlitHdr) : Bool := decide ((f.fseq - x.rxSeq).toNat < 2048) && !x.rxAhead.contains f.fseq

/-- Whether the flits of a message are the ones that the receiver takes: it has not taken the last one yet, and while it
discards flits, the replay has come with the one that it expects next (R383). -/
def Port.takes (x : Port) (m : LinkMsg) : Bool :=
  m.flits.length == msgFlits m &&
  (match m.flits.getLast? with
   | some f => x.fresh f
   | none => false) &&
  (!x.discarding || m.flits.any (fun f => f.fseq == x.rxSeq))

/-- A flit is the whole of a message that the receiver takes. -/
def Port.takesOne (x : Port) (f : FlitHdr) : Bool := x.fresh f && (!x.discarding || f.fseq == x.rxSeq)

/-- The expected number moves over the numbers received after it. The count bounds how many. -/
def advanceSeq : Nat → BitVec 12 → List (BitVec 12) → BitVec 12 × List (BitVec 12)
  | 0, q, l => (q, l)
  | k + 1, q, l => if l.contains q then advanceSeq k (q + 1) (l.filter (· != q)) else (q, l)

/-- The receiver takes flits: their numbers, and an acknowledgement that is due. -/
def State.takeFlits (s : State) (n : Nat) (fs : List FlitHdr) : State :=
  let x := s.port n
  let r := advanceSeq 4096 x.rxSeq (x.rxAhead ++ fs.map (·.fseq)).eraseDups
  (s.modPort n (fun x => { x with rxSeq := r.1, rxAhead := r.2, ackDue := true, discarding := false })).bump64 (prtPage n + 0x078) fs.length

/-- The flits of a message free the receive buffer. -/
def State.freeBuffer (s : State) (n : Nat) (m : LinkMsg) : State :=
  s.giveBack { port := n, type := 0, msg := m, since := 0, came := some (n, creditKey m) }

/-- Bits that the FEC did not mend: whether it found a codeword uncorrectable is free (R399). DESIGN CHOICE: log entry 145. -/
def State.badCodeword (s : State) (n : Nat) : State :=
  if s.draw.1.getLsbD 0 then s.draw.2.setIrq (prtPage n) 16 else s.draw.2

/-- A message arrives at a port that is up (R385, R387, R389). -/
def State.arriveMsg (s : State) (n type : Nat) (m : LinkMsg) (deliver : Nat → State → State) : State :=
  if (s.port n).mode = 1 then
    if peerPart m = s.partId then (s.freeBuffer n m).receive n type m deliver else s.forward n type m
  else
    let s := s.bump64 (prtPage n + 0x078) 1
    let peer := field m.src.toNat 0 12
    if !s.frameOk n m || peerPart m != s.partId then (if m.frame.intact then s else s.badCodeword n).dropMessage n
    else
    let s := s.pauseChannel n m.vc
    if type = 8 then s.receive n type m deliver
    else if !s.ctxRoom n peer then s
    else
      let c := s.ctx n peer
      if m.psn != c.expect then s.ackPsn n m
      else
        let s := s.useCtx n peer (fun c => { c with expect := c.expect + 1 })
        (s.ackPsn n m).receive n type m deliver

/-! ### Link down and alarms (R396 to R398) -/

def linkCode (cause n : Nat) : Nat := 0x0600 + cause * 16 + n

def State.isNative (s : State) (n : Nat) : Bool := (s.port n).mode == 1

/-- Whether a polder's port bitmap names any native port of the part. -/
def State.namesNative (s : State) (x : Polder) : Bool := (List.range 16).any (fun n => bitAt x.cat.ports n && s.isNative n)

/-- Faults every resident polder that a predicate picks. -/
def State.faultPolders (s : State) (code unit : Nat) (pick : Polder → Bool) : State :=
  s.forEach (List.range 16) (fun s p => if (s.pld p).state.resident && pick (s.pld p) then s.raisePart p code unit 0 else s)

/-- ALARM goes out on a port, in the class of the port by which it came, if it did (R390, R397). IDENT and ALARM, which no polder
sends, count at the address of polder 0. DESIGN CHOICE: log entry 136. -/
def State.sendAlarm (s : State) (ring origin number : Nat) (from_ : Option (Nat × Bool)) (n : Nat) : State :=
  let x := s.number n 0 { (default : LinkMsg) with
    src := s.shortAddr 0, payload := Config.messageBody 0xA [ring, origin, number], cls := s.leaveClass n from_ }
  (x.2.enqueue n 0xA x.1 none).setIrq (prtPage n) 8

/-- Every native port in UP but one. -/
def State.otherNative (s : State) (n : Nat) : List Nat :=
  (List.range 16).filter (fun k => k != n && s.isNative k && (s.port k).state == .up)

/-- A port begins a native link: numbers, credits and buffers start anew (R380 to R383). -/
def State.freshLink (s : State) (n : Nat) : State :=
  s.modPort n (fun x => { x with
    retry := [], spent := [], nextSeq := 0, acked := 0xFFF, rxSeq := 0, rxAhead := [], nakDue := false, ackDue := false
    discarding := false, owed := [], started := [], gap := 0, redNext := false, fails := 0 })

/-- A port in UP goes down: its status. What waits at it is dropped (R396, R399). -/
def State.portDown (s : State) (n cause : Nat) : State :=
  let code := linkCode cause n
  let s := s.modPort n (fun x => { x with state := .down, downCc := s.now (engineDom n) })
  let s := (s.dropWaiting n).freshLink n
  let s := (s.setReg (prtPage n + 0x044) (wordOf (cause * 2 ^ 7))).setReg (prtPage n + 0x04C) (wordOf code)
  (s.setIrq (prtPage n) 1).logError (prtPage n) 2 code n 0x1F

/-- A port in UP goes down, and with it the polders that name it and, where it is native, those of every native port, and the alarm
goes to the ring (R396, R397). -/
def State.linkDown (s : State) (n cause : Nat) : State :=
  let code := linkCode cause n
  let s := s.portDown n cause
  if s.isNative n then
    let s := s.faultPolders code n (fun x => bitAt x.cat.ports n || s.namesNative x)
    let no := s.links.alarmNo
    let s := s.modLinks (fun l => { l with alarmNo := (no + 1) % 2 ^ 16 })
    s.forEach (s.otherNative n) (fun s k => s.sendAlarm (ringOf s.partId) s.partId no none k)
  else s.faultPolders code n (fun x => bitAt x.cat.ports n)

/-- A replay of the retry buffer; the sixteenth in a row without progress ends the link with cause 0x2, where the port is in UP (R383,
R396). -/
def State.replay (s : State) (n : Nat) : State :=
  let l := (s.port n).retry
  if l.isEmpty then s
  else
    let s := (s.forEach l (fun s f => s.putFlit n false f)).bump (prtPage n + 0x05C) l.length
    let s := s.modPort n (fun x => { x with fails := x.fails + 1, ackLc := s.now (lcDom n) })
    if (s.port n).state = .up && decide (16 ≤ (s.port n).fails) then s.linkDown n 2 else s

/-- What the header of an arriving flit asks of the sender's side (R382, R383). -/
def State.takeHeader (s : State) (n : Nat) (f : FlitHdr) : State :=
  let s := (s.takeAck n f.ack).takeCredits n (f.crVc.toNat * 2 + if f.crCls then 1 else 0) f.crCount.toNat
  if f.nak then s.replay n else s

/-- A message arrives at a port that is up: in native mode by flits whose headers are taken first (R380, R385, R389). -/
def State.arrive (s : State) (n type : Nat) (m : LinkMsg) (deliver : Nat → State → State) : State :=
  if (s.port n).state != .up then s
  else if (s.port n).mode != 1 then s.arriveMsg n type m deliver
  else if !(s.port n).takes m then s
  else
    let s := (s.forEach m.flits (fun s f => s.takeHeader n f)).takeFlits n m.flits
    if (s.port n).state != .up then s
    else ((s.arriveMsg n type { m with flits := [] } deliver).pumpPort n).settlePorts

/-- A port enters UP; every entry after the first takes a provenance entry, once a usage interval (R378, R485). -/
def State.enterUp (s : State) (n : Nat) : State :=
  let again := (s.port n).everUp
  let s := s.modPort n (fun x => { x with
    state := .up, everUp := true, waitIdent := false })
  let s := (s.bump (prtPage n + 0x060) 1).setIrq (prtPage n) 2
  if !again then s
  else
    let k := Table.get 0 s.journal.retrains n + 1
    if s.journal.retrainDone.contains n then s.modJournal (fun j => { j with retrains := Table.put 0 j.retrains n k })
    else
      let s := s.modJournal (fun j => { j with retrains := Table.put 0 j.retrains n 0, retrainDone := j.retrainDone ++ [n] })
      s.append 9 [n, field (s.reg (prtPage n + 0x044)).toNat 7 4, k]

end Sys2Proof.Machine
end

