-- ==== Sys2Proof/Machine/Ports.lean ====
section
/-!
DEFINITION. Events of the link ports: modes and training, link-level retry, pauses, signal and clock loss, and the messages WRITE, CREDIT, ACK and ALARM (R376 to R402, R450).
-/

namespace Sys2Proof.Machine

/-! ### Modes and training (R376 to R379, R401) -/

/-- A polder outside FREE names a port. -/
def State.portNamed (s : State) (n : Nat) : Bool := (List.range 16).any (fun p => (s.pld p).state.owns && bitAt (s.pld p).cat.ports n)

/-- Why the part ignores a value for PRT_CTL (R376, R377, R401): a polder names the port, the mode is none of the three,
or the part has no identity for it. -/
def State.prtCtlIgnored (s : State) (n mode : Nat) : Bool :=
  let assigned := bitAt (s.reg (prtPage 0 + 0x800)).toNat 12
  s.portNamed n || mode == 3 || (mode == 1 && !assigned) ||
  (mode == 2 && (!assigned || s.reg64 (prtPage n + 0x080) == 0 || s.reg64 (prtPage 0 + 0x804) == 0))

/-- The port goes to a mode: what its link held is gone, and other ports tell their peers of the buffers that this frees (R382). -/
def State.enterMode (s : State) (n mode : Nat) : State :=
  (((s.dropWaiting n).modPort n (fun x => { x with
    mode := mode, state := if mode = 0 then .off else .training, waitIdent := false, lanes := 0 })).freshLink n).settlePorts

/-- PRT_CTL: MODE, DATELINE, DIM and the VLAN tag (R377, R399). -/
def State.writePrtCtl (s : State) (n : Nat) (value : Word) : State :=
  let a := prtPage n + 0x040
  let mode := field value.toNat 0 2
  if s.prtCtlIgnored n mode then s.ignoreWrite a
  else
    let s := s.setReg a (wordOf (field value.toNat 0 6))
    if mode = (s.port n).mode then s else s.enterMode n mode

/-- The S-die of a port is powered. -/
def State.portPowered (s : State) (n : Nat) : Bool := bitAt s.boot.dieUp (4 + n / 8)

/-- The page of a port answers an access from S0 (R8, R16, R23, R31). -/
def State.portReached (s : State) (n : Nat) : Bool := s.portPowered n && s.reaches 4 (4 + n / 8) && !s.boot.s0Lost

/-- PRT_CTL: the write crosses the seams to the port's page (R16, R219). -/
def execPrtCtl (n : PortId) (value : Word) (s : State) : Host.Outcome State Fault Refusal :=
  .next (if s.portReached n.toNat then ((s.accessCrosses 4 (4 + n.toNat / 8)).writePrtCtl n.toNat value).answerWritten else s.answerError)

/-- A message of another part's own arrives, with its number and its payload (R301; log entry 136). -/
def State.countOwn (s : State) (n : Nat) (seq : Dword) (payload : List Byte) : State :=
  s.digest (digestPage n 0 + 0x08) (digestPage n 0 + 0x18) { (default : LinkMsg) with seq := seq, payload := payload }

/-- IDENT goes out on the control channel (R379), in the mode of the port. -/
def State.sendIdent (s : State) (n : Nat) : State :=
  let x := s.number n 0 { (default : LinkMsg) with
    vc := 1, cls := s.leaveClass n none, src := s.shortAddr 0, payload := Config.messageBody 9 [s.partId, n, (s.port n).mode] }
  x.2.enqueue n 9 x.1 none

/-- Training of a port ends with the lanes that trained: with all four the port is up, or in native mode waits for IDENT;
otherwise the lanes that failed are marked for a spare (R378, R475). -/
def State.endTraining (s : State) (k : Nat) (lanes : BitVec 4) : State :=
  let s := s.modPort k (fun x => { x with lanes := lanes.toNat })
  if lanes = 15 then
    if (s.port k).mode = 1 then
      ((s.freshLink k).modPort k (fun x => { x with waitIdent := true, identCc := s.now (engineDom k) })).sendIdent k
    else s.enterUp k
  else
    let bad := ((List.range 4).filter (fun i => !bitAt lanes.toNat i)).map (fun i => k * 4 + i)
    (s.modPort k (fun x => { x with state := .laneFault })).modSpares (fun y => { y with lanePending := (y.lanePending ++ bad).eraseDups })

/-- PORT_TRAINING (R378). -/
def execPortTraining (n : PortId) (lanes : BitVec 4) (s : State) : Host.Outcome State Fault Refusal :=
  let k := n.toNat
  .next (if (s.port k).state != .training || (s.port k).waitIdent then s else s.endTraining k lanes)

/-- A port whose peer is not accepted (R378). -/
def State.miswire (s : State) (n : Nat) : State :=
  (s.modPort n (fun x => { x with state := .miswired, waitIdent := false, downCc := s.now (engineDom n) })).setIrq (prtPage n) 4

/-- IDENT: accepted from the port's own ring, and shown in PRT_PEER in every case (R379). -/
def execIdent (n : PortId) (peer : BitVec 12) (peerPort : InFlit (BitVec 4)) (s : State) : Host.Outcome State Fault Refusal :=
  let k := n.toNat
  .next (
    if (s.port k).mode != 1 || !(s.port k).waitIdent || !(s.port k).takesOne peerPort.flit then s
    else
      let s := ((s.takeHeader k peerPort.flit).takeFlits k [peerPort.flit]).countOwn k peerPort.seq (Config.messageBody 9 [peer.toNat, peerPort.val.toNat, 1])
      let s := s.setReg (prtPage k + 0x048) (wordOf (peer.toNat + peerPort.val.toNat * 2 ^ 12 + 2 ^ 16))
      if ringOf peer.toNat = ringOf s.partId then ((s.modPort k (fun x => { x with owed := Table.put 0 x.owed (if peerPort.cls then 3 else 2) 1 })).enterUp k).settlePorts
      else s.miswire k)

/-- IDENT_TIMEOUT: no IDENT within 1 200 000 cc of training (R378). -/
def execIdentTimeout (n : PortId) (s : State) : Host.Outcome State Fault Refusal :=
  let k := n.toNat
  .next (
    if (s.port k).waitIdent && s.elapsed (engineDom k) (s.port k).identCc 1200000 then s.miswire k else s)

/-- PORT_RETRY: the curator of the die trains a DOWN or MISWIRED port again (R378). -/
def execPortRetry (n : PortId) (s : State) : Host.Outcome State Fault Refusal :=
  let k := n.toNat
  let x := s.port k
  .next (
    if (x.state == .down || x.state == .miswired) && x.mode != 0 && s.portPowered k && !s.boot.s0Lost && s.elapsed (engineDom k) x.downCc 1200000 then
      s.modPort k (fun x => { x with state := .training, waitIdent := false, lanes := 0 })
    else s)

/-! ### Lanes, clocks and retry (R382, R383, R396, R450) -/

/-- LINK_SIGNAL_LOSS: a lane has been lost for 4 096 lc (R396). -/
def execLinkSignalLoss (n : PortId) (lane : BitVec 2) (s : State) : Host.Outcome State Fault Refusal :=
  let k := n.toNat
  .next (
    if (s.port k).state != .up then s
    else
      ((s.modPort k (fun x => { x with lanes := if bitAt x.lanes lane.toNat then x.lanes - 2 ^ lane.toNat else x.lanes })).linkDown k 1).settlePorts)

/-- LINK_FLIT_CRC_ERROR: the receiver discards flits until the replay and sets NAK in its next flit (R383). -/
def execLinkFlitCrcError (n : PortId) (s : State) : Host.Outcome State Fault Refusal :=
  let k := n.toNat
  .next (
    if !(s.port k).linked then s
    else ((s.badCodeword k).modPort k (fun x => { x with discarding := true, nakDue := true })).settlePorts)

/-- LINK_NAK: in a flit without a message the peer asks for a replay from ACK + 1 (R383). A receiver that discards takes none. DEDUCED:
log entry 162. -/
def execLinkNak (n : PortId) (ack : BitVec 12) (s : State) : Host.Outcome State Fault Refusal :=
  let k := n.toNat
  .next (
    if !(s.port k).linked || (s.port k).discarding then s
    else ((((s.bump64 (prtPage k + 0x078) 1).takeAck k ack).replay k).pumpPort k).settlePorts)

/-- LINK_ACK_TIMEOUT: no progress of ACK for 2 048 lc (R383). -/
def execLinkAckTimeout (n : PortId) (s : State) : Host.Outcome State Fault Refusal :=
  let k := n.toNat
  .next (
    if (s.port k).linked && s.elapsed (lcDom k) (s.port k).ackLc 2048 then (s.replay k).settlePorts else s)

/-- NULL_FLIT: an ACK, and sluice credits of a channel and class (R380, R382). A receiver that discards flits until the replay discards
this one (R383). DEDUCED: log entry 162. -/
def execNullFlit (n : PortId) (ack : BitVec 12) (vc : BitVec 2) (cls : Bool) (count : BitVec 9) (s : State) : Host.Outcome State Fault Refusal :=
  let k := n.toNat
  let key := vc.toNat * 2 + if cls then 1 else 0
  .next (
    if !(s.port k).linked || (s.port k).discarding then s
    else
      let s := (s.bump64 (prtPage k + 0x078) 1).takeAck k ack
      ((s.takeCredits k key count.toNat).pumpPort k).settlePorts)

/-- RESEND_TIMEOUT: PRT_RTO × 1 024 lc without progress of a peer's PSNs. A channel that a pause holds sends nothing (R386, R387). -/
def execResendTimeout (n : PortId) (peer : BitVec 12) (s : State) : Host.Outcome State Fault Refusal :=
  let k := n.toNat
  let c := s.ctx k peer.toNat
  let rto := field (s.reg (prtPage k + 0x094)).toNat 0 16 * 1024
  .next (
    if (s.port k).state != .up || (s.port k).mode != 2 || c.unacked.isEmpty || !s.elapsed (lcDom k) c.lc rto then s
    else
      let again := c.unacked.filter (fun o => !(s.port k).paused.contains o.msg.vc.toNat)
      let s := (s.forEach again (fun s o => s.putFrame k o.type o.msg)).bump (prtPage k + 0x05C) again.length
      let s := s.modLinks (fun l => { l with sent := l.sent ++ again })
      s.useCtx k peer.toNat (fun c => { c with lc := s.now (lcDom k) }))

/-- The channels that PRT_PCP maps to a priority and lets a pause hold (R386, R399). -/
def State.pausedBy (s : State) (n pcp : Nat) : List Nat :=
  let w := (s.reg (prtPage n + 0x090)).toNat
  (List.range 4).filter (fun v => field w (4 * v) 3 == pcp && bitAt w (16 + v))

/-- PFC_PAUSE: a pause frame holds the channels of its priority (R386). -/
def execPfcPause (n : PortId) (pcp : BitVec 3) (s : State) : Host.Outcome State Fault Refusal :=
  let k := n.toNat
  .next (
    if (s.port k).state != .up || (s.port k).mode != 2 then s
    else
      let held := s.pausedBy k pcp.toNat
      ((s.countPortStall k).bump (prtPage k + 0x068) 1).modPort k (fun x => { x with paused := (x.paused ++ held).eraseDups }))

/-- PFC_PAUSE_END: the pause lasts out and the channels send again (R386). -/
def execPfcPauseEnd (n : PortId) (pcp : BitVec 3) (s : State) : Host.Outcome State Fault Refusal :=
  let k := n.toNat
  .next (
    if (s.port k).mode != 2 then s
    else
      let free := s.pausedBy k pcp.toNat
      ((s.countPortStall k).modPort k (fun x => { x with paused := x.paused.filter (fun v => !free.contains v) })).pumpPort k)

/-- LANE_PLL_LOCK: the lane PLL of a port of a powered S-die locks to LREFCLK, and its lc counter runs (R450). -/
def execLanePllLock (n : PortId) (s : State) : Host.Outcome State Fault Refusal :=
  let k := n.toNat
  .next (
    if (if k < 8 then s.boot.s0On else s.portPowered k) then
      (s.modPort k (fun x => { x with locked := true })).modBoard (fun b =>
        if k < 8 then { b with lrefLost0 := false } else { b with lrefLost1 := false })
    else s)

/-- LREFCLK_LOSS: the lane PLLs of an S-die lose lock and their lc counters stop (R450). -/
def execLrefclkLoss (s1 : Bool) (s : State) : Host.Outcome State Fault Refusal :=
  let s := s.modBoard (fun b => if s1 then { b with lrefLost1 := true } else { b with lrefLost0 := true })
  .next (s.forEach ((List.range 8).map (fun i => if s1 then i + 8 else i)) (fun s n => s.modPort n (fun x => { x with locked := false })))

/-! ### Messages (R387, R394, R395, R398) -/

/-- WRITE: delivered to its polder, which acknowledges the last one of a descriptor, or forwarded (R389, R392, R395). -/
def execWrite (n : PortId) (m : LinkMsg) (s : State) : Host.Outcome State Fault Refusal :=
  let k := n.toNat
  .next (s.arrive k 1 m (fun p s =>
    let r := s.deliverWrite k p m
    if r.1 && m.last && s.isNative k then r.2.sendDirect p 8 (r.2.controlMsg p m.src 8 []) else r.2))

/-- Whether a polder takes messages from a source: a peer of its link map or a member of its groups (R395). -/
def Polder.knows (x : Polder) (src : Nat) : Bool :=
  x.peers.contains src || x.red.groups.any (fun g => g.members.any (fun m => field m.toNat 0 16 == src))

/-- CREDIT: a request for message slots, or a grant, whose count every message may carry (R394). -/
def execCredit (n : PortId) (m : LinkMsg) (grant : Bool) (s : State) : Host.Outcome State Fault Refusal :=
  let k := n.toNat
  .next (s.arrive k 7 m (fun p s =>
    if grant then s
    else if (s.pld p).state != .running || !(s.pld p).knows m.src.toNat then s.dropMessage k
    else (s.modLinks (fun l => { l with asks := l.asks ++ [(k, p, m.src.toNat)] })).serveAsks k p))

/-- The messages of a context that an acknowledged PSN covers. -/
def covered (psn : Word) (l : List OutMsg) : Nat :=
  match l.findIdx? (fun o => o.msg.psn == psn) with
  | some i => i + 1
  | none => 0

/-- ACK: of every PSN up to its own in Ethernet mode, or of a descriptor's last message in native mode (R387, R392). -/
def execAck (n : PortId) (m : LinkMsg) (s : State) : Host.Outcome State Fault Refusal :=
  let k := n.toNat
  .next (s.arrive k 8 m (fun p s =>
    if s.isNative k then s.ackWrite p m.src none
    else
      let peer := field m.src.toNat 0 12
      let c := s.ctx k peer
      let i := covered m.psn c.unacked
      if i = 0 then s
      else
        let s := s.useCtx k peer (fun c => { c with unacked := c.unacked.drop i, lc := s.now (lcDom k) })
        let s := s.forEach ((c.unacked.take i).filter (fun o => o.type == 1 && o.msg.last)) (fun s o =>
          s.ackWrite (polderOf o.msg.src.toNat) o.msg.dst (some o.msg.vc.toNat))
        s.pumpPort k))

/-- ALARM of the part's ring: acted on once. The port that it came by goes down with cause 0x3, every polder that names a native port is
torn down, and the alarm goes on by the other native ports (R390, R396, R398). DEDUCED: log entry 27. -/
def State.actOnAlarm (s : State) (k : Nat) (cls : Bool) (ring origin number : Nat) : State :=
  let s := s.modLinks (fun l => { l with alarms := (l.alarms ++ [(origin, number)]).drop (l.alarms.length - 63) })
  let s := ((s.setIrq (prtPage k) 8).portDown k 3).faultPolders (linkCode 3 k) k (fun x => s.namesNative x)
  s.forEach (s.otherNative k) (fun s j => s.sendAlarm ring origin number (some (k, cls)) j)

/-- ALARM (R398): one of another ring, and one acted on before, is dropped. -/
def execAlarm (n : PortId) (ring : BitVec 6) (origin : BitVec 12) (number : InFlit Half) (s : State) : Host.Outcome State Fault Refusal :=
  let k := n.toNat
  .next (
    if (s.port k).state != .up || !s.isNative k || !(s.port k).takesOne number.flit then s
    else
      let s := s.takeHeader k number.flit
      if (s.port k).state != .up then s.settlePorts
      else
      let s := (s.takeFlits k [number.flit]).countOwn k number.seq (Config.messageBody 0xA [ring.toNat, origin.toNat, number.val.toNat])
      let key := if number.cls then 1 else 0
      let s := s.modPort k (fun x => { x with owed := Table.put 0 x.owed key (Table.get 0 x.owed key + 1) })
      (if ring.toNat != ringOf s.partId || s.links.alarms.contains (origin.toNat, number.val.toNat) then s.dropMessage k
      else s.actOnAlarm k number.cls ring.toNat origin.toNat number.val.toNat).settlePorts)

/-! ### Send rings (R392, R393) -/

/-- The fields of a descriptor. -/
def sendDescOf (b : List Byte) : SendDesc :=
  { vc := peek b 1 1, doneEn := bitAt (peek b 0 1) 2, doneTile := peek b 2 1, doneCtr := peek b 3 1, sigEn := bitAt (peek b 0 1) 1
    dst := peek b 4 2, sigTile := peek b 6 1, sigCtr := peek b 7 1, srcVa := peek b 8 8, dstOff := peek b 0x10 4, len := peek b 0x14 4
    begun := false }

/-- The form that R392 and R393 ask of a descriptor. -/
def sendDescOk (b : List Byte) : Bool :=
  let d := sendDescOf b
  field (peek b 0 1) 3 5 == 0 && peek b 0x18 8 == 0 && (d.vc == 2 || d.vc == 3) && d.srcVa % 64 == 0 && d.dstOff % 64 == 0 &&
  d.len % 64 == 0 && decide (64 ≤ d.len) && decide (d.len ≤ 1048576) &&
  (match windowOf d.srcVa with
   | some 3 => false
   | _ => true)

/-- SEND_DESCRIPTOR: the engine reads its ring position and takes the descriptor whose PHASE is the ring's (R392, R393). -/
def execSendDescriptor (n : PortId) (p : Meets PolderId Ecc) (s : State) : Host.Outcome State Fault Refusal :=
  let k := n.toNat
  let q := p.val.toNat
  let x := s.pld q
  .next (match x.links.find? (fun e => e.port == k) with
    | none => s
    | some e =>
      if x.state != .running || (s.slot k q).frozen || (s.slot k q).stopped then s
      else
        let size := 4 + e.log2
        let va := 2 ^ 41 + e.die * 2 ^ 27 + e.off + 32 * (e.pos % 2 ^ size)
        match s.masterRead (4 + k / 8) q 0xC k va 32 [p.ecc] with
        | (none, s) => s.modSlot k q (fun y => { y with stopped := true })
        | (some b, s) =>
          if bitAt (peek b 0 1) 0 == bitAt e.pos size then s
          else if !sendDescOk b then s.linkViolation k q 0x0191 va
          else
            let s := s.modPld q (fun x => { x with links := x.links.map (fun f => if f.port == k then { f with pos := f.pos + 1 } else f) })
            s.modSlot k q (fun y => { y with sends := y.sends ++ [sendDescOf b] }))

/-- The WRITE messages of a descriptor: 4 096 bytes each, the last one with LAST (R392). -/
def writesOf (src : Half) (d : SendDesc) (payload : List Byte) : List LinkMsg :=
  let count := (payload.length + 4095) / 4096
  (List.range count).map (fun i =>
    { (default : LinkMsg) with
      vc := BitVec.ofNat 2 d.vc, last := i + 1 == count, sigEn := d.sigEn, dst := BitVec.ofNat 16 d.dst, src := src
      dstOff := wordOf (d.dstOff + 4096 * i), sigTile := BitVec.ofNat 8 d.sigTile, sigCtr := BitVec.ofNat 8 d.sigCtr
      payload := (payload.drop (4096 * i)).take 4096 })

/-- A slot of a link engine has a descriptor ready: queued behind none, or parked with its arrival landed (R361, R363). -/
def Slot.ready (x : Slot) : Bool := !x.frozen && !x.stopped && !x.running && !x.sends.isEmpty && (!x.parked || !x.remote)

/-- A link engine starts or resumes a polder's descriptor, reading its source first (R361, R363, R392). A fault on the way stops the
slot. -/
def State.startLink (s : State) (k p : Nat) (ecc : List Ecc) : State :=
  if !s.startTurn k p (fun q => (s.slot k q).ready) then s
  else match (s.slot k p).sends with
    | [] => s
    | d :: rest =>
      let resumed := (s.slot k p).parked
      let s := s.takeEngine k p
      if d.begun then
        -- a resumed descriptor that has sent everything was waiting for its acknowledgement, which has landed
        if resumed && (s.slot k p).out.isEmpty then s.endSend k p else s.runSend k p
      else match s.masterRead (4 + k / 8) p 0xC k d.srcVa d.len ecc with
        | (none, s) => s.modSlot k p (fun x => { x with running := false, stopped := true })
        | (some bs, s) =>
          let msgs := (writesOf (s.shortAddr p) d bs).map (fun m => { port := k, type := 1, msg := m, since := 0, came := none : OutMsg })
          (s.modSlot k p (fun x => { x with sends := { d with begun := true } :: rest, out := msgs })).runSend k p

end Sys2Proof.Machine
end

