-- ==== Sys2Proof/Machine/Reduction.lean ====
section
/-!
DEFINITION. The reduction of a step: ledgers, the messages OPEN, DATA, DONE, TOKEN and FINAL, sealing, and completion tokens (R282 to R297, R304).
-/

namespace Sys2Proof.Machine

/-! ### Tensors, groups and slices (R283, R290, R292) -/

/-- U: the units of a tensor beside unit 0. -/
def Tensor.units (t : Tensor) : Nat := t.bytes / 1024 - 1

/-- The group of a gradient tensor. -/
def Reduction.groupOf (r : Reduction) (id : Word) : Nat := (r.assigns.find? (fun a => a.1 == id)).elim r.dflt (·.2)

def Reduction.group (r : Reduction) (g : Nat) : Group := (r.groups[g]?).getD default

/-- The gradient tensors of a group. -/
def Polder.groupTensors (x : Polder) (g : Nat) : List Tensor := x.cat.gradients.filter (fun t => x.red.groupOf t.id == g)

/-- The units of slice j of a tensor in a group of a size (R292). -/
def Tensor.slice (t : Tensor) (j size : Nat) : List Nat :=
  let lo := j * t.units / size
  (List.range ((j + 1) * t.units / size - lo)).map (· + 1 + lo)

/-- The short address of a member. -/
def Group.addr (g : Group) (h : Nat) : Half := BitVec.ofNat 16 (((g.members[h]?).getD 0).toNat)

/-- The member of a group that a source names. -/
def Group.memberOf (g : Group) (src : Half) : Option Nat := (List.range g.size).find? (fun h => g.addr h == src)

def Group.others (g : Group) : List Nat := (List.range g.size).filter (· != g.self)

def State.modRed (s : State) (p : Nat) (f : Reduction → Reduction) : State := s.modPld p (fun x => { x with red := f x.red })

def State.modGroup (s : State) (p g : Nat) (f : Group → Group) : State :=
  s.modRed p (fun r => { r with groups := r.groups.zipIdx.map (fun e => if e.2 = g then f e.1 else e.1) })

/-- The crest of a gradient tensor in this step (R297). -/
def Polder.crest (x : Polder) (t : Tensor) : Int := (x.red.crests.find? (fun c => c.1 == t.id)).elim t.crestInit (·.2)

def State.mapTag (s : State) (p : Nat) : Nat := (s.reg (pldReg p 0x314)).toNat

/-! ### Local contributions (R288, R289) -/

def LedgerRec.plus (a b : LedgerRec) : LedgerRec :=
  { a with under := a.under + b.under, nonfin := a.nonfin + b.nonfin, ovt := a.ovt || b.ovt }

/-- Curator 0 adds an entry into the member ledger of its tensor. -/
def addLedger (e : LedgerRec) : List LedgerRec → List LedgerRec
  | [] => [e]
  | l :: ls => if l.tensor = e.tensor then l.plus e :: ls else l :: addLedger e ls

/-- LEDGER_ENTRY: an entry reaches curator 0 over the control network, in any order within its bound (R288, R527). -/
def execLedgerEntry (i : Nat) (s : State) : Host.Outcome State Fault Refusal :=
  .next (match s.nets.ledgers[i]? with
    | none => s
    | some e =>
      let s := (s.modNets (fun n => { n with ledgers := n.ledgers.eraseIdx i })).controlCrosses (dieOfTile e.tile) 4 1
      if (s.pld e.polder).state.resident then s.modRed e.polder (fun r => { r with ledger := addLedger e.entry r.ledger }) else s)

/-- The member's ledger of a tensor. -/
def Reduction.ledgerOf (r : Reduction) (id : Word) : LedgerRec :=
  (r.ledger.find? (fun l => l.tensor == id)).getD { tensor := id, under := 0, nonfin := 0, ovt := false }

/-- The Slots phase of the step is over and its reduction is not yet evaluated (R259). -/
def Phase.reduces : Phase → Bool
  | .reducing => true
  | .evaluating => true
  | _ => false

/-- The member's local contributions are complete: no accumulate write and no ledger entry of the polder is under way (R289). -/
def State.contributed (s : State) (p : Nat) : Bool :=
  (s.pld p).train.phase.reduces && !s.nets.ledgers.any (fun e => e.polder == p) &&
  !s.store.reqs.any (fun r => r.polder == p && r.isWrite && r.stage != .served && ((s.pld p).cat.gradientAt r.va).isSome)

/-! ### Units in memory (R283, R286, R294) -/

/-- The target of a unit of a tensor. -/
def State.unitAt (s : State) (p : Nat) (t : Tensor) (u : Nat) : Option Target :=
  match s.translate 0 p (t.va + 1024 * u) true with
  | .at_ x => some x
  | .fault _ => none

/-- A unit as this step sees it: zero where its EPOCH is an older one. -/
def State.unit (s : State) (p : Nat) (x : Target) : Unit64 := (Unit64.read (s.memRead x 1024)).current (s.epoch p)

/-- The low words of a unit, and its carry words unless all are zero (R292, R384). -/
def Unit64.lows (u : Unit64) : List Byte := u.l.flatMap (intBytes 8)
def Unit64.carries (u : Unit64) : List Byte := if u.w.all (· == 0) then [] else u.w.flatMap (intBytes 4)

/-- The first 12 bytes of a DATA or FINAL message: tensor, epoch and unit (R384). -/
def unitHead (t : Tensor) (epoch : Word) (u : Nat) : List Byte := leBytes 4 t.id.toNat ++ leBytes 4 epoch.toNat ++ leBytes 4 u

/-- The slots, the watches and the run-ahead data at an adder's write of a unit (R209, R214, R226). -/
def State.adderWrites (s : State) (p : Nat) (t : Tensor) (u : Nat) (x : Target) : State :=
  ((s.targetSlots p x 0x304 true).watchCheck p 0xA x.dev (t.va + 1024 * u) 0x304 x).discardRunAhead p (t.va + 1024 * u) 0x304

/-- A unit that comes by a port crosses the seams to its stack as Reduction flits, in slots of its polder (R222, R226). -/
def State.unitCrosses (s : State) (p : Nat) (via : Option PortId) (m : LinkMsg) (x : Target) : State :=
  match via with
  | some n => s.polderCrosses p (4 + n.toNat / 8) 3 (seamFlits m.payload.length) (fixedRoute (4 + n.toNat / 8) x.die)
  | none => s

/-- A message of the polder's reduction sequence to a member. -/
def redMsg (s : State) (p type : Nat) (dst : Half) (payload : List Byte) : OutMsg :=
  { port := 0, type := type, since := 0, came := none
    msg := { (default : LinkMsg) with vc := if type = 3 || type = 6 then 3 else 1, dst := dst, src := s.shortAddr p, payload := payload } }

/-- Appends messages to the slot of the reduction sequence and sends what can go. -/
def State.redSend (s : State) (p : Nat) (msgs : List OutMsg) : State :=
  if msgs.isEmpty then s
  else
    let waits := !(s.slot 18 p).out.isEmpty
    let s := s.modSlot 18 p (fun x => { x with out := x.out ++ msgs })
    if waits then s else s.pumpSlot 18 p

/-- OPEN to every other member of every group, at job start and at a commit (R292). -/
def State.sendOpens (s : State) (p : Nat) : State :=
  let x := s.pld p
  s.redSend p (x.red.groups.zipIdx.flatMap (fun e => e.1.others.map (fun h =>
    redMsg s p 2 (e.1.addr h) (Config.messageBody 2 [e.2, (s.epoch p).toNat]))))

/-! ### DATA and DONE (R293) -/

/-- The next home of a group that has no DATA yet, once its OPEN for the epoch has arrived. -/
def Group.sendable (g : Group) (epoch : Word) : Option Nat :=
  match g.others.find? (fun h => !g.sent.contains h) with
  | some h => if g.opened.contains (h, epoch) then some h else none
  | none => none

/-- The DATA messages for a slice, and DONE with their count. -/
def State.dataFor (s : State) (p g h : Nat) : List OutMsg :=
  let x := s.pld p
  let gr := x.red.group g
  let datas := (x.groupTensors g).flatMap (fun t => (t.slice h gr.size).filterMap (fun u =>
    (s.unitAt p t u).map (fun tg =>
      let un := s.unit p tg
      redMsg s p 3 (gr.addr h) (unitHead t (s.epoch p) u ++ un.lows ++ un.carries))))
  datas ++ [redMsg s p 4 (gr.addr h) (Config.messageBody 4 [g, (s.epoch p).toNat, datas.length])]

/-- The group and home to which the member can send now. -/
def State.nextHome (s : State) (p : Nat) : Option (Nat × Nat) :=
  if s.contributed p then ((s.pld p).red.groups.zipIdx).findSome? (fun e => (e.1.sendable (s.epoch p)).map (fun h => (e.2, h))) else none

/-- Every other member's DONE and the DATA it counts have arrived, and the member has sent its own to every home. -/
def Group.collected (g : Group) : Bool :=
  g.others.all (fun h => g.sent.contains h && Table.get 0 g.done h != 0 && decide (Table.get 0 g.done h ≤ Table.get 0 g.got h + 1))

/-- A slice can be sealed: the first one of its group, by tensor ID, that is not. -/
def State.sealable (s : State) (p g : Nat) : Option Tensor :=
  let x := s.pld p
  if s.contributed p && decide (g < x.red.groups.length) && (x.red.group g).collected then
    (x.groupTensors g).find? (fun t => !(x.red.group g).sealed.contains t.id)
  else none

/-- Whether the reduction sequence has something to do that waits on no other part (R362). -/
def State.redCanGo (s : State) (p : Nat) : Bool :=
  !s.contributed p || (s.nextHome p).isSome || (List.range (s.pld p).red.groups.length).any (fun g => (s.sealable p g).isSome)

/-- The reduction sequence ends, waits on a remote member, or does neither (R362, R365). A message that waits for a credit keeps it
waiting. -/
def State.settleRed (s : State) (p : Nat) : State :=
  let x := s.pld p
  let y := s.slot 18 p
  if !y.out.isEmpty then s
  else if x.train.phase != .reducing || x.allComplete then s.restRed p
  else if !(y.running || y.parked) then s
  else if s.redCanGo p then s.endWait 18 p
  else s.remoteWait 18 p

/-- The reduction sequence of a polder is ready for its engine: one of the step's Reducing phase, or a parked one whose awaited arrival
has landed, whatever the phase by then (R361, R363). -/
def State.redReady (s : State) (p : Nat) : Bool :=
  let y := s.slot 18 p
  (s.pld p).state == .running && !y.frozen && !y.running &&
  (if y.parked then !y.remote else (s.pld p).train.phase == .reducing && !(s.pld p).allComplete)

/-- A unit is read for a DATA message: the bytes count for its stack, and a unit of an older epoch counts as taken as zero (R187, R303). -/
def State.readUnit (s : State) (p : Nat) (x : Target) : State :=
  let s := s.countRead x 1024
  if (Unit64.read (s.memRead x 1024)).epoch = s.epoch p then s else s.bump (redPage x.dev + 0x05C) 1

/-- A step of the sequence: DATA and DONE to the next home that is open (R293). -/
def State.redStep (s : State) (p : Nat) : State :=
  match s.nextHome p with
  | none => (s.pumpSlot 18 p).settleRed p
  | some (g, h) =>
    let msgs := s.dataFor p g h
    let s := s.forEach (((s.pld p).groupTensors g).flatMap (fun t => (t.slice h ((s.pld p).red.group g).size).filterMap (s.unitAt p t)))
      (fun s x => s.readUnit p x)
    ((s.modGroup p g (fun y => { y with sent := y.sent ++ [h] })).redSend p msgs).settleRed p

/-- The reduction sequence of a polder takes its turn on curator 0, or goes on there (R293, R361, R363). -/
def State.startReduction (s : State) (p : Nat) : State :=
  if (s.slot 18 p).running then
    if (s.slot 18 p).remote || (s.pld p).state != .running then s
    else if (s.pld p).train.phase == .reducing then s.redStep p
    else (s.pumpSlot 18 p).settleRed p
  else if s.startTurn 18 p s.redReady then
    if (s.pld p).train.phase == .reducing then (s.takeEngine 18 p).redStep p else ((s.takeEngine 18 p).pumpSlot 18 p).settleRed p
  else s

/-! ### Tokens and completion (R295, R296) -/

/-- The 64 bytes of a slice token. -/
def tokenBytes (k : Token) (epoch : Word) (tag : Nat) (crest : Int) : List Byte :=
  leBytes 2 1 ++ leBytes 2 k.slice ++ leBytes 4 k.tensor.toNat ++ leBytes 4 epoch.toNat ++ leBytes 4 tag ++ leBytes 2 k.flags ++
  intBytes 2 k.maxExp ++ leBytes 4 k.finals ++ leBytes 8 k.under.toNat ++ leBytes 8 k.nonfin.toNat ++ leBytes 8 k.ovtElems.toNat ++
  intBytes 2 crest ++ List.replicate 14 0

def tokenOf (b : List Byte) : Token :=
  { slice := peek b 2 2, tensor := wordOf (peek b 4 4), flags := peek b 0x10 1, maxExp := toSigned 16 (peek b 0x12 2), finals := peek b 0x14 4
    under := dwordOf (peek b 0x18 8), nonfin := dwordOf (peek b 0x20 8), ovtElems := dwordOf (peek b 0x28 8) }

/-- The tokens of a tensor. -/
def Reduction.tokensOf (r : Reduction) (id : Word) : List Token := r.tokens.filter (fun k => k.tensor == id)

def sumSat (l : List Nat) : Nat := min (2 ^ 64 - 1) (l.foldl (· + ·) 0)

/-- The header that a tensor's tokens give (R55, R296). -/
def xrHeaderBytes (t : Tensor) (crest : Int) (ks : List Token) : List Byte :=
  let under := sumSat (ks.map (·.under.toNat))
  let has (i : Nat) := ks.any (fun k => bitAt k.flags i)
  let flags := (if has 0 || has 1 then 1 else 0) + (if has 2 then 2 else 0) + if under = 0 then 0 else 4
  leBytes 2 1 ++ intBytes 2 crest ++ leBytes 4 flags ++ leBytes 8 (64 * t.units) ++ leBytes 8 under ++
  leBytes 8 (ks.foldl (fun n k => n + k.nonfin.toNat) 0) ++ intBytes 2 (ks.foldl (fun m k => max m k.maxExp) (-32768)) ++ List.replicate 30 0

/-- The last completion token of a step ends its Reducing phase (R259). -/
def State.endReducing (s : State) (p : Nat) : State :=
  if (s.pld p).train.phase == .reducing && (s.pld p).allComplete then
    let s := if (s.slot 18 p).remote then s.noteWait 18 p else s
    s.modPld p (fun x => { x with train := { x.train with phase := .evaluating } })
  else s

/-- Forms a tensor's completion token once its slice tokens and the FINALs that they count are there (R296). -/
def State.complete (s : State) (p : Nat) (id : Word) : State :=
  let x := s.pld p
  match x.cat.gradients.find? (fun t => t.id == id) with
  | none => s
  | some t =>
    let g := x.red.group (x.red.groupOf id)
    let ks := x.red.tokensOf id
    let need := (ks.filter (fun k => k.slice != g.self)).foldl (fun n k => n + k.finals) 0
    if x.red.complete.contains id || ks.length < g.size || Table.get 0 x.red.finals id.toNat < need then s
    else
      let s := match s.unitAt p t 0 with
        | some tg => s.curatorLands p t.va tg (xrHeaderBytes t (x.crest t) ks)
        | none => s
      (s.modRed p (fun r => { r with complete := r.complete ++ [id] })).endReducing p

/-- A message of the sequence is dropped for its epoch, tag or crest (R295). -/
def State.badMessage (s : State) (p : Nat) : State := (s.bump (pldReg p 0x310) 1).setIrq (pldReg p 0) (2 ^ 10)

/-- A member takes a slice token. -/
def State.takeToken (s : State) (p : Nat) (b : List Byte) : State :=
  let x := s.pld p
  let k := tokenOf b
  let s := s.bump (pldReg p 0x30C) 1
  match x.cat.gradients.find? (fun t => t.id == k.tensor) with
  | none => s.badMessage p
  | some t =>
    if wordOf (peek b 8 4) != s.epoch p || peek b 0xC 4 != s.mapTag p || toSigned 16 (peek b 0x30 2) != x.crest t then s.badMessage p
    else if x.red.tokens.any (fun o => o.tensor == k.tensor && o.slice == k.slice) then s
    else (s.modRed p (fun r => { r with tokens := r.tokens ++ [k] })).complete p k.tensor

/-! ### Sealing (R294) -/

/-- An element sealed: its low word, whether it overtopped, and floor(log2 |S|) where S is not zero. -/
def sealElem (l w : Int) : Int × Bool × Option Int :=
  let sum := l + w * 2 ^ 64
  let top := if sum = 0 then none else some (sum.natAbs.log2 : Int)
  if w = 0 then (l, false, top) else if 0 < w then (2 ^ 63 - 1, true, top) else (-(2 ^ 63), true, top)

/-- A unit sealed: its new words, the elements that overtopped, and the largest exponent. -/
def Unit64.sealed (u : Unit64) (toe : Int) : Unit64 × Nat × Int :=
  let r := (u.l.zip u.w).map (fun e => sealElem e.1 e.2)
  ({ u with l := r.map (·.1), w := u.w.map (fun _ => 0) }, r.countP (·.2.1),
   r.foldl (fun m e => match e.2.2 with
     | some k => max m (k + toe)
     | none => m) (-32768))

/-- Seals the units of a slice in turn, each with what the error correction finds in it; the answer is the count of overtopped
elements, MAX_EXP and the sealed units. An uncorrectable error ends it without an answer (R186). -/
def State.sealUnits (s : State) (p : Nat) (t : Tensor) (toe : Int) (ecc : List Ecc) : List Nat → Option (Nat × Int × List (Nat × Unit64)) × State
  | [] => (some (0, -32768, []), s)
  | u :: us =>
    match s.unitAt p t u, eccAt ecc 0 with
    | none, _ => State.sealUnits s p t toe (ecc.drop 1) us
    | some x, .uncorrectable => (none, s.memLost x p 0xA x.dev)
    | some x, e =>
      let s := if e = .corrected then s.memCorrected x else s
      let raw := Unit64.read (s.memRead x 1024)
      let r := (raw.current (s.epoch p)).sealed toe
      let s := ((s.adderWrites p t u x).memWrite x r.1.bytes).countRead x 1024
      let s := (s.bump64 (redPage x.dev + 0x050) 1).bump (redPage x.dev + 0x058) r.2.1
      let s := if raw.epoch = s.epoch p then s else s.bump (redPage x.dev + 0x05C) 1
      match State.sealUnits s p t toe (ecc.drop 1) us with
      | (none, s) => (none, s)
      | (some rest, s) => (some (r.2.1 + rest.1, max r.2.2 rest.2.1, (u, r.1) :: rest.2.2), s)

/-- The token of the member's slice of a tensor, from the member's ledger and what sealing found. -/
def Polder.sliceToken (x : Polder) (g : Nat) (t : Tensor) (above : Nat) (maxExp : Int) : Token :=
  let gr := x.red.group g
  let led := x.red.ledgerOf t.id
  { slice := gr.self, tensor := t.id, maxExp := maxExp, finals := (t.slice gr.self gr.size).length
    flags := (if led.ovt then 1 else 0) + (if above = 0 then 0 else 2) + (if led.nonfin = 0 then 0 else 4)
    under := led.under, nonfin := led.nonfin, ovtElems := dwordOf above }

/-- A sealed slice goes out: TOKEN to every member and FINAL to every other one (R293). -/
def State.sendSealed (s : State) (p g : Nat) (t : Tensor) (r : Nat × Int × List (Nat × Unit64)) : State :=
  let gr := (s.pld p).red.group g
  let token := tokenBytes ((s.pld p).sliceToken g t r.1 r.2.1) (s.epoch p) (s.mapTag p) ((s.pld p).crest t)
  let finals := r.2.2.map (fun e => unitHead t (s.epoch p) e.1 ++ e.2.lows)
  let s := s.modGroup p g (fun y => { y with sealed := y.sealed ++ [t.id] })
  let s := s.redSend p (gr.others.flatMap (fun h =>
    redMsg s p 5 (gr.addr h) token :: finals.map (fun f => redMsg s p 6 (gr.addr h) f)))
  (s.takeToken p token).settleRed p

/-- SEAL_SLICE: the sequence seals the member's slice of a tensor and sends it (R293, R294). -/
def execSealSlice (p : PolderId) (group : BitVec 4) (tensor : Meets Word (List Ecc)) (s : State) : Host.Outcome State Fault Refusal :=
  let n := p.toNat
  let x := s.pld n
  let g := group.toNat
  .next (match s.sealable n g with
    | none => s
    | some t =>
      if x.state != .running || !(s.slot 18 n).running || t.id != tensor.val then s
      else
        let gr := x.red.group g
        match s.sealUnits n t (x.crest t - 62) tensor.ecc (t.slice gr.self gr.size) with
        | (none, s) => s
        | (some r, s) => s.sendSealed n g t r)

/-! ### Arrivals (R293, R295) -/

/-- Takes a message that has stayed in the part: the first one of its source, destination and channel. -/
def State.takeLocal (s : State) (type : Nat) (m : LinkMsg) : Option State :=
  match s.links.localIn.find? (fun o => o.msg.src == m.src && o.msg.dst == m.dst && o.msg.vc == m.vc) with
  | some o => if o.type = type && o.msg = m then some (s.modLinks (fun l => { l with localIn := l.localIn.erase o })) else none
  | none => none

/-- A polder's reduction sequence takes messages while it runs, from members of its groups (R395). -/
def State.redAccepts (s : State) (p : Nat) (src : Half) : Bool :=
  (s.pld p).state == .running && (s.pld p).red.groups.any (fun g => (g.memberOf src).isSome)

/-- A message of the sequence arrives by a port or from a polder of the part. -/
def State.redArrive (s : State) (via : Option PortId) (type : Nat) (m : LinkMsg) (act : Nat → State → State) : State :=
  match via with
  | some n => s.arrive n.toNat type m (fun p s =>
      if s.redAccepts p m.src then (act p s).settleRed p else s.dropMessage n.toNat)
  | none =>
    match s.takeLocal type m with
    | none => s
    | some s =>
      let p := polderOf m.dst.toNat
      if s.redAccepts p m.src then (act p (s.noteArrival 18 p)).settleRed p else s

/-- OPEN: a home is ready for the DATA of an epoch (R292). -/
def execOpenMsg (via : Option PortId) (m : LinkMsg) (group : BitVec 4) (epoch : Word) (s : State) : Host.Outcome State Fault Refusal :=
  .next (if via.isNone && m.payload != Config.messageBody 2 [group.toNat, epoch.toNat] then s else s.redArrive via 2 m (fun p s =>
    match ((s.pld p).red.group group.toNat).memberOf m.src with
    | none => s
    | some h => s.modGroup p group.toNat (fun g => { g with opened := (g.opened ++ [(h, epoch)]).eraseDups })))

/-- The tensor, its group's member of a source and the unit that a DATA or FINAL message names. -/
def State.namedUnit (s : State) (p : Nat) (m : LinkMsg) : Option (Tensor × Nat × Nat × Nat) :=
  let x := s.pld p
  match x.cat.gradients.find? (fun t => t.id == wordOf (peek m.payload 0 4)) with
  | none => none
  | some t =>
    let g := x.red.groupOf t.id
    (((x.red.group g).memberOf m.src)).map (fun h => (t, g, h, peek m.payload 8 4))

/-- DATA: the adder adds both words of the unit's elements (R285, R293). -/
def execDataMsg (via : Option PortId) (m : LinkMsg) (ecc : Ecc) (s : State) : Host.Outcome State Fault Refusal :=
  .next (s.redArrive via 3 m (fun p s =>
    match s.namedUnit p m with
    | none => s.badMessage p
    | some (t, g, h, u) =>
      let gr := (s.pld p).red.group g
      if wordOf (peek m.payload 4 4) != s.epoch p || !(t.slice gr.self gr.size).contains u then s.badMessage p
      else match s.unitAt p t u with
        | none => s
        | some x =>
          match ecc with
          | .uncorrectable => s.memLost x p 0xA x.dev
          | _ =>
            let s := if ecc = .corrected then s.memCorrected x else s
            let cs := (List.range 64).map (fun e => (toSigned 64 (peek m.payload (12 + 8 * e) 8), toSigned 32 (peek m.payload (524 + 4 * e) 4)))
            (((s.unitCrosses p via m x).adderWrites p t u x).addWords p x 0 cs).modGroup p g (fun y => { y with got := Table.put 0 y.got h (Table.get 0 y.got h + 1) })))

/-- DONE: the count of DATA messages that a member has sent (R293). -/
def execDoneMsg (via : Option PortId) (m : LinkMsg) (group : BitVec 4) (epoch count : Word) (s : State) : Host.Outcome State Fault Refusal :=
  .next (if via.isNone && m.payload != Config.messageBody 4 [group.toNat, epoch.toNat, count.toNat] then s else s.redArrive via 4 m (fun p s =>
    match ((s.pld p).red.group group.toNat).memberOf m.src with
    | none => s
    | some h =>
      if epoch != s.epoch p then s.badMessage p
      else s.modGroup p group.toNat (fun g => { g with done := Table.put 0 g.done h (count.toNat + 1) })))

/-- TOKEN: a slice token from its home (R295). -/
def execToken (via : Option PortId) (m : LinkMsg) (s : State) : Host.Outcome State Fault Refusal :=
  .next (s.redArrive via 5 m (fun p s => s.takeToken p m.payload))

/-- FINAL: the unit's low words are overwritten, its carries cleared and its EPOCH set (R293). -/
def execFinal (via : Option PortId) (m : LinkMsg) (s : State) : Host.Outcome State Fault Refusal :=
  .next (s.redArrive via 6 m (fun p s =>
    match s.namedUnit p m with
    | none => s.badMessage p
    | some (t, _, _, u) =>
      if wordOf (peek m.payload 4 4) != s.epoch p || u = 0 || t.units < u then s.badMessage p
      else match s.unitAt p t u with
        | none => s
        | some x =>
          let un : Unit64 := { l := (List.range 64).map (fun e => toSigned 64 (peek m.payload (12 + 8 * e) 8)), w := List.replicate 64 0, epoch := s.epoch p }
          let s := ((s.unitCrosses p via m x).adderWrites p t u x).memWrite x un.bytes
          let id := t.id.toNat
          (s.modRed p (fun r => { r with finals := Table.put 0 r.finals id (Table.get 0 r.finals id + 1) })).complete p t.id))

end Sys2Proof.Machine
end

