-- ==== Sys2Proof/Machine/Schedule.lean ====
section
/-!
DEFINITION. Submission entries, slot starts, missed deadlines and the staggered start of tile rows (R245 to R255, R262, R408, R438).
-/

namespace Sys2Proof.Machine

/-! ### Submission entries (R245, R262, R325, R408) -/

/-- A refusal record (R410 type 0x05). -/
def refusalRecord (code tag index step seqId : Nat) : List Byte :=
  leBytes 2 code ++ leBytes 2 tag ++ leBytes 4 index ++ leBytes 4 step ++ leBytes 4 0 ++ leBytes 8 seqId

/-- The entry form (R408). -/
def entryFormed (e : List Byte) (serving : Bool) : Bool :=
  let ty := peek e 0 1
  zeros e 1 1 && zeros e 0x18 8 &&
  (if ty = 1 then zeros e 0x10 8
   else ty == 2 && serving && zeros e 4 4 && zeros e 8 4 && zeros e 0x0C 4 && peek e 0x10 8 % 64 == 0)

/-- The code with which a well-formed micro-batch is refused, if any (R245, R262, R325). -/
def State.microBatchCode (s : State) (p : Nat) (index step len : Nat) : Option Nat :=
  let x := s.pld p
  if x.cat.kind = 1 then some 0x090B
  else if len = 0 then some 0x0902
  else if x.cat.mbMax < len then some 0x0901
  else if x.cat.kind = 0 && wordOf step != s.reg (spkReg p 0x040) then some 0x0907
  else if x.cat.kind = 0 && (x.cat.mbPerStep ≤ index || x.train.ran.contains index) then some 0x0908
  else none

/-- Whether the part takes an entry now: not beside a waiting micro-batch, not for a step before the last one has
committed, and not beyond the end point of a pending retire (R262, R354). -/
def Polder.takesEntries (x : Polder) : Bool :=
  x.state == .running &&
  match x.cat.kind with
  | 0 => x.mbWaiting.isNone && (if x.train.phase = .idle then !x.retirePending
      else x.train.phase == .slots && decide (x.train.ran.length < x.cat.mbPerStep))
  | 1 => !x.retirePending
  | _ => x.mbWaiting.isNone && !x.retirePending

/-- The first micro-batch of a step starts its counts of non-finite events (R259, R273, R280). -/
def State.openStep (s : State) (p : Nat) : State :=
  if (s.pld p).cat.kind = 0 && (s.pld p).train.phase = .idle then
    (s.forEach [0x058, 0x05C, 0x060] (fun s o => s.setReg (spkReg p o) 0)).modPld p (fun x => { x with train := { x.train with nfIndex := none, opened := x.train.opened + 1 } })
  else s

/-- How a read of a host structure by a VF comes out: one due while its Bus Master Enable is 0 fails at once (R413, R417). -/
def State.vfRead (s : State) (p : Nat) (rd : HostRead) (a : Nat) : HostRead := if s.masters (p + 1) then rd else .fails (dwordOf a)

/-- SUBMISSION_ENTRY: the part reads the next entry of a VF's queue and takes it; a read that fails tears the polder down with the bus
address (R408, R416, R417). -/
def execSubmissionEntry (p : Meets PolderId HostStatus) (s : State) : Host.Outcome State Fault Refusal :=
  let n := p.val.toNat
  let x := s.pld n
  let head := (s.vfReg n 0x014).toNat
  .next (
    if !x.takesEntries || !s.queuesOn n || s.vfReg n 0x010 == s.vfReg n 0x014 then s
    else
      let size := 2 ^ field (s.vfReg n 0x00C).toNat 0 5
      let at_ := s.vfReg64 n 0x004 + 32 * (head % size)
      let e := s.hostRead at_ 32
      let code := if s.masters (n + 1) then hostCode p.ecc else 0x0D05
      if code != 0 then s.hostError n code 4 at_
      else
      let s := s.askHost (n + 1) at_ 32
      let tag := peek e 2 2
      let index := peek e 4 4
      let step := peek e 8 4
      let len := peek e 12 4
      let take (s : State) : State := s.setVfReg n 0x014 (wordOf (head + 1))
      if !entryFormed e (x.cat.kind == 1) then
        s.posting n 1 (fun s => (take s).postIfOn n 5 (refusalRecord 0x0910 tag index step 0))
      else if peek e 0 1 = 2 then
        (take s).modPld n (fun x => { x with intakes := x.intakes ++ [(BitVec.ofNat 16 tag, dwordOf (peek e 16 8))] })
      else match s.microBatchCode n index step len with
        | some code =>
          s.posting n 1 (fun s =>
            let s := (take s).postIfOn n 5 (refusalRecord code tag index step 0)
            if x.cat.kind = 1 then s else (s.bump (pldReg n 0x13C) 1).setIrq (pldReg n 0) (2 ^ 9))
        | none =>
          (State.openStep (take s) n).modPld n (fun x => { x with
            mbWaiting := some (wordOf index, wordOf step, wordOf len, BitVec.ofNat 16 tag), mbCc := s.cc
            train := if x.cat.kind = 0 then { x.train with phase := .slots } else x.train }))

/-! ### Slot starts (R238, R246) -/

/-- SLOT_CC has passed since the previous slot started, and every tile has met its last checkpoint. -/
def State.slotReady (s : State) (p : Nat) : Bool :=
  let x := s.pld p
  !x.slotStarted || (s.slotOver p && s.elapsed ccDom x.slotCc x.cat.slotCc)

/-- The cc up to a moment in which the start was held only because SLOT_CC had not passed (R246). -/
def Polder.padCc (x : Polder) (now : Dword) : Nat :=
  let due := x.slotCc + dwordOf x.cat.slotCc
  let upTo := if now < due then now else due
  let since := if x.metCc < x.mbCc then x.mbCc else x.metCc
  if x.slotStarted && since < upTo then (upTo - since).toNat else 0

/-- Every tile receives the slot record, then the increment of SLOT_CTR, and its monitor stamps the slot start; a debug freeze of any tile of
the polder keeps monitoring suspended (R246, R251, R255). -/
def State.startOnTile (s : State) (p t : Nat) (record : List Byte) : State :=
  let s := s.modStore (fun m => { m with dstore := Mem.writeN m.dstore (dstoreBase t + 30 * 512) record })
  let s := s.incrementSlot t (s.pld p).cat.slotCtr
  s.modTile t (fun x => { x with mon := { x.mon.startSlot (s.now (ncDom (dieOfTile t))) with suspended := (s.pld p).tiles.any s.frozenTile } })

/-- Starts a slot with its record's first 12 bytes and what follows the slot number. -/
def State.startSlot (s : State) (p : Nat) (head tail : List Byte) : State :=
  let x := s.pld p
  let record := head ++ leBytes 4 x.slotNo ++ tail
  let s := (s.bump64 (pldReg p 0x134) 1).bump (pldReg p 0x158) (x.padCc s.cc)
  let s := s.modPld p (fun x => { x with slotNo := x.slotNo + 1, slotStarted := true, slotCc := s.cc })
  (s.controlBurst p).forEach x.tiles (fun s t => s.startOnTile p t record)

/-- SLOT_START of a micro-batch (R246). -/
def State.startMicroBatch (s : State) (p : Nat) : State :=
  let x := s.pld p
  match x.mbWaiting with
  | none => s
  | some (index, _, len, _) =>
    let s := s.modPld p (fun x => { x with
      mbWaiting := none, mbIndex := index, mbLen := len
      train := if x.cat.kind = 0 then { x.train with ran := x.train.ran ++ [index.toNat] } else x.train })
    s.startSlot p (leBytes 4 index.toNat ++ leBytes 4 len.toNat ++ leBytes 4 (s.stepOf p).toNat) (List.replicate 16 0)

/-! ### Missed deadlines (R252) -/

/-- The first armed checkpoint whose deadline has passed unmet and uncounted. -/
def State.missed (s : State) (t : Nat) : Option (Nat × Dword) :=
  let m := (s.tile t).mon
  let now := s.now (ncDom (dieOfTile t))
  (m.cps.zipIdx).findSome? (fun e =>
    match m.deadline e.1 with
    | some d => if !m.met e.1 && decide (d < now) && !m.late.any (fun l => l.1 == e.2) then some (e.2, d) else none
    | none => none)

/-- CHECKPOINT_DEADLINE: an armed checkpoint is overrun, once in its slot (R252). -/
def execCheckpointDeadline (t : TileId) (s : State) : Host.Outcome State Fault Refusal :=
  let n := t.toNat
  .next (
    if !s.tileLive n || (s.tile n).mon.suspended then s
    else match s.missed n with
      | none => s
      | some (idx, d) =>
        (s.modTile n (fun x => { x with mon := { x.mon with late := x.mon.late ++ [(idx, d)] } })).countOverrun
          (ownerCode (s.tileOwner n)) n idx false)

/-! ### Staggered start (R94, R438) -/

/-- ROW_WAVE: the die ungates the polder's next row, 32 ac after the one before, and its TCCs see START, which curator 0 writes on each
of the eight (R219, R438). -/
def execRowWave (p : PolderId) (die : BitVec 2) (s : State) : Host.Outcome State Fault Refusal :=
  let n := p.toNat
  let d := die.toNat
  let x := s.pld n
  let now := s.now (acDom d)
  .next (match x.wavesDue.find? (fun r => r / 8 == d) with
    | none => s
    | some r =>
      let due := match x.waveAc.find? (fun e => e.1 == d) with
        | some e => s.elapsed (acDom d) e.2 32
        | none => true
      if x.state != .running || !due then s
      else
        let s := s.modPld n (fun x => { x with
          wavesDue := x.wavesDue.filter (· != r), waveAc := Table.insert d now x.waveAc })
        let s := (s.controlCrosses 4 d 8).controlCrosses d 4 8
        s.forEach ((List.range 8).map (fun c => 8 * r + c)) (fun s t =>
          (s.modTile t (fun y => { y with gatedRow := false })).startTcc t))

end Sys2Proof.Machine
end

