-- ==== Sys2Proof/Machine/Training.lean ====
section
/-!
DEFINITION. The end of a training step: non-finite events, the loss-spike monitor, the verdict and the commit, and the probes of low-rank thinning (R259 to R263, R273 to R281, R297 to R299).
-/

namespace Sys2Proof.Machine

/-! ### The curator's own accesses to a polder's memory -/

/-- The curator writes a run of bytes at a polder address that the catalogue has checked to be mapped. -/
def State.curatorWrite (s : State) (p va : Nat) (bs : List Byte) : State :=
  (s.forEach (kibs va bs.length) (fun s c =>
    match s.translate 0 p c.1 true with
    | .at_ x => s.curatorLands p c.1 x ((bs.drop (c.1 - va)).take c.2)
    | .fault _ => s))

/-- The curator reads a run of bytes; a page that is not mapped reads as zero. -/
def State.curatorRead (s : State) (p va len : Nat) : List Byte :=
  (kibs va len).flatMap (fun c =>
    match s.translate 0 p c.1 false with
    | .at_ x => s.memRead x c.2
    | .fault _ => List.replicate c.2 0)

/-! ### Non-finite events (R52, R273, R274) -/

/-- The 32-byte record of an event. -/
def nfRecord (s : State) (e : NfEvent) : List Byte :=
  leBytes 2 e.code ++ leBytes 1 e.tile ++ leBytes 1 e.q ++ leBytes 1 e.polder ++ [0, 0, 0] ++ leBytes 4 e.step.toNat ++
  leBytes 4 e.mbIndex.toNat ++ leBytes 4 e.tensor.toNat ++ leBytes 4 0 ++ leBytes 8 s.cc.toNat

/-- The order of events received in one cc. -/
def nfRank (tile q : Nat) : Nat := tile * 8 + q

/-- The event is latched as the step's first. -/
def State.latchNf (s : State) (e : NfEvent) : State :=
  let s := s.setReg (spkReg e.polder 0x05C) (wordOf (e.code + e.tile * 2 ^ 16 + e.q * 2 ^ 24))
  (s.setReg (spkReg e.polder 0x060) e.tensor).modPld e.polder (fun x => { x with train := { x.train with nfCc := s.cc } })

/-- The record of the step's first event is posted (R274). -/
def State.postNf (s : State) (e : NfEvent) : State :=
  if bitAt (s.pld e.polder).cat.nfReport 0 && s.queuesOn e.polder then
    let index := s.vfReg e.polder 0x028
    (s.postVf e.polder 2 (nfRecord s e)).modPld e.polder (fun x => { x with train := { x.train with nfIndex := some index } })
  else s

/-- An event of the same cc goes before the one whose record has been posted, and takes its place in the ring (R274, R281). -/
def State.repostNf (s : State) (e : NfEvent) : State :=
  match (s.pld e.polder).train.nfIndex with
  | some i =>
    if !s.masters (e.polder + 1) then s
    else s.hostWrite (e.polder + 1) (s.vfReg64 e.polder 0x018 + 64 * (i.toNat % 2 ^ s.cqLog e.polder)) (ringEntry 2 i.toNat (s.cqLog e.polder) (nfRecord s e))
  | none => s

/-- The step of an event is the open one, or the last one while none is open: the next step has not begun since. -/
def State.ofOpenStep (s : State) (e : NfEvent) : Bool := e.opened == (s.pld e.polder).train.opened

/-- An event reaches curator 0: it counts, and the first of a step is latched and reported (R274). One that arrives after the next step
has begun counts in SPK_NONFIN alone (R61, R273). -/
def State.receiveNf (s : State) (e : NfEvent) : State :=
  let p := e.polder
  let s := s.bump64 (spkReg p 0x050) e.count
  if !s.ofOpenStep e then s
  else
  let s := s.bumpSat (spkReg p 0x058) e.count
  let w := (s.reg (spkReg p 0x05C)).toNat
  if field w 0 16 = 0 then
    let s := (s.latchNf e).postNf e
    if bitAt (s.pld p).cat.nfReport 1 then s.setIrq (spkReg p 0) 2 else s
  else if (s.pld p).train.nfCc == s.cc && decide (nfRank e.tile e.q < nfRank (field w 16 8) (field w 24 3)) then (s.latchNf e).repostNf e
  else s

/-- NON_FINITE_EVENT: an event reaches curator 0 over the control network, in any order within its bound (R274, R527). -/
def execNonFiniteEvent (i : Nat) (s : State) : Host.Outcome State Fault Refusal :=
  .next (match s.nets.events[i]? with
    | none => s
    | some e =>
      let take (s : State) : State := (s.modNets (fun n => { n with events := n.events.eraseIdx i })).controlCrosses (dieOfTile e.tile) 4 1
      if !(s.pld e.polder).state.resident then take s
      else if s.ofOpenStep e && field (s.reg (spkReg e.polder 0x05C)).toNat 0 16 = 0 && bitAt (s.pld e.polder).cat.nfReport 0 then
        s.posting e.polder 1 (fun s => (take s).receiveNf e)
      else (take s).receiveNf e)

/-! ### The loss-spike monitor (R276 to R279) -/

/-- The monitor is on. -/
def Catalogue.monitorOn (c : Catalogue) : Bool := c.kind == 0 && !isNone c.lossTensor

/-- A finite FP32 value in units of 2^-149. -/
def fpUnits (w : Word) : Int :=
  match fp32 w.toNat with
  | .fin m e => shiftUp m (e + 149)
  | _ => 0

/-- The losses in the window: the COUNT most recently written. -/
def Training.window (x : Training) (w : Nat) : List Word :=
  (List.range x.count).map (fun i => (x.losses[(x.pos + w - 1 - i) % w]?).getD 0)

/-- n, S1 and S2 in units of 2^-149 and 2^-298. -/
def sums (l : List Word) : Int × Int × Int :=
  ((l.length : Int), (l.map fpUnits).foldl (· + ·) 0, (l.map (fun w => fpUnits w * fpUnits w)).foldl (· + ·) 0)

/-- The largest integer whose square is at most n, from its top bit down. -/
def isqrtBits : Nat → Nat → Nat → Nat
  | 0, r, _ => r
  | k + 1, r, n => if (r + 2 ^ k) * (r + 2 ^ k) ≤ n then isqrtBits k (r + 2 ^ k) n else isqrtBits k r n

def isqrt (n : Nat) : Nat := isqrtBits (n.log2 / 2 + 1) 0 n

/-- The mean and the population standard deviation of the window, FP32 by RNE. The bit below the root's last one is
sticky, so that the one rounding is that of the exact value. -/
def meanBits (l : List Word) : Nat :=
  let s := sums l
  if l.isEmpty then 0 else (roundFrac .fp32 .rne 0 (decide (s.2.1 < 0)) s.2.1.natAbs (l.length * 2 ^ 149)).1

def sigmaBits (l : List Word) : Nat :=
  let s := sums l
  let v := (s.1 * s.2.2 - s.2.1 * s.2.1).toNat * 16
  let r := isqrt v
  let num := 2 * r + if r * r = v then 0 else 1
  if l.isEmpty then 0 else (roundFrac .fp32 .rne 0 false num (l.length * 2 ^ 152)).1

/-- The monitor's test of a finite loss (R277). -/
def spike (l : List Word) (warmup k : Nat) (loss : Word) : Bool :=
  let s := sums l
  let d := s.1 * fpUnits loss - s.2.1
  decide (warmup ≤ l.length) && decide (0 < d) && decide ((k : Int) * k * (s.1 * s.2.2 - s.2.1 * s.2.1) < d * d * 65536)

/-- Whether an FP32 value is infinite. -/
def isInf (w : Word) : Bool := w == 0x7F800000 || w == 0xFF800000

/-- L: the final element 0 of the loss tensor, rounded (R60, R276). -/
def State.loss (s : State) (p : Nat) (t : Tensor) : Word :=
  match s.unitAt p t 1 with
  | some x => wordOf (toFp32 (.fin (((s.unit p x).l[0]?).getD 0) ((s.pld p).crest t - 62)))
  | none => 0

/-- SPK_WIN_STS shows n and POS beside RESET and FLAGGED (R280). -/
def State.showWindow (s : State) (p : Nat) (reset flagged : Bool) : State :=
  let t := (s.pld p).train
  s.setReg (spkReg p 0x070) (wordOf (t.count + t.pos * 2 ^ 16 + (if reset then 2 ^ 30 else 0) + if flagged then 2 ^ 31 else 0))

/-- The Evaluating phase of the monitor: the loss and whether it flags it (R276 to R278). -/
def State.evaluateLoss (s : State) (p : Nat) (t : Tensor) : Word × Bool × State :=
  let x := s.pld p
  let loss := s.loss p t
  let win := x.train.window x.cat.window
  let flag := isInf loss || spike win x.cat.warmup x.cat.kFactor loss
  let s := s.setReg (spkReg p 0x064) loss
  let s := (s.setReg (spkReg p 0x068) (wordOf (meanBits win))).setReg (spkReg p 0x06C) (wordOf (sigmaBits win))
  let s := s.showWindow p (bitAt (s.reg (spkReg p 0x070)).toNat 30) flag
  let s := if flag then s.bump64 (spkReg p 0x074) 1 else s
  (loss, flag, if flag && decide (1 ≤ x.cat.action) then s.setIrq (spkReg p 0) 1 else s)

/-! ### The verdict (R263, R297) -/

def Reduction.flag (r : Reduction) (id : Word) (i : Nat) : Bool := (r.tokensOf id).any (fun k => bitAt k.flags i)

/-- A gradient tensor's candidate crest. -/
def Polder.candidate (x : Polder) (t : Tensor) : Int :=
  let m := (x.red.tokensOf t.id).foldl (fun m k => max m k.maxExp) (-32768)
  if m = -32768 then x.crest t else max (m + t.headroom) (-224)

/-- A tensor's class 0x08 code, or 0 (R296, R297, R410). -/
def Polder.overtopCode (x : Polder) (t : Tensor) : Nat :=
  if x.red.flag t.id 0 then 0x0801 else if x.red.flag t.id 1 then 0x0802 else if 287 < x.candidate t then 0x0803 else 0

/-- The monitor's part of a verdict: the loss, whether the update is held, and the state after the evaluation; nothing
where the loss tensor gave no value (R279). -/
def State.lossPart (s : State) (p : Nat) : Option Tensor → Option Word × Bool × State
  | some t =>
    let r := s.evaluateLoss p t
    (some r.1, r.2.1 && (s.pld p).cat.action == 2, r.2.2)
  | none => (none, false, s)

/-- The part evaluates the loss and the crests and forms the verdict: under apply the Updating phase follows, and under skip the
commit (R259, R260, R263, R276). -/
def State.formVerdict (s : State) (p : Nat) : State :=
  let x := s.pld p
  let gs := x.cat.gradients
  let nonfin := gs.any (fun t => x.red.flag t.id 2)
  let topped (t : Tensor) : Bool := x.red.flag t.id 0 || x.red.flag t.id 1
  let crest := gs.any (fun t => decide (287 < x.candidate t))
  let code := ((gs.map x.overtopCode).find? (· != 0)).getD 0
  let s := s.setReg (pldReg p 0x318) ((gs.find? topped).elim 0xFFFFFFFF (·.id))
  let e := s.lossPart p (if x.cat.monitorOn then gs.find? (fun t => t.id == x.cat.lossTensor && !topped t && !x.red.flag t.id 2) else none)
  let ovt := gs.any topped
  let v : Verdict := { skip := nonfin || ovt || crest || e.2.1, nonfin := nonfin, ovt := ovt, crest := crest, hold := e.2.1, loss := e.1, code := code }
  e.2.2.modPld p (fun x => { x with train := { x.train with phase := if v.skip then .evaluating else .updating, verdict := some v } })

/-- Under skip a conservator discards every descriptor that it has started for the polder (R317, R320). -/
def State.discardHeld (s : State) (n p : Nat) : State :=
  if (s.cns n).running = some p then
    let s := (s.bump (cnsPage n + 0x060) 1).setIrq (cnsPage n) 2
    s.modCns n (fun c => { c with running := none, holding := false })
  else s

/-- Under apply a conservator goes on with the descriptor that it held for the polder (R317). -/
def State.releaseHeld (s : State) (n p : Nat) : State :=
  if (s.cns n).running = some p then s.modCns n (fun c => { c with holding := false }) else s

/-- The step can be evaluated: every completion token is present, and every non-finite event of its passes has reached curator 0
(R259, R273). That the verdict waits for the events is a DESIGN CHOICE: log entry 131. -/
def State.evaluable (s : State) (p : Nat) : Bool :=
  let x := s.pld p
  x.train.phase.reduces && x.train.verdict.isNone && x.allComplete && s.contributed p && !s.nets.events.any (fun e => e.polder == p)

/-- STEP_VERDICT: the verdict, after which the conservators discard under skip what they started, and go on under apply (R263, R317). -/
def execStepVerdict (p : PolderId) (s : State) : Host.Outcome State Fault Refusal :=
  let n := p.toNat
  let x := s.pld n
  .next (
    if x.state != .running || x.cat.kind != 0 || !s.evaluable n then s
    else
      let s := (s.formVerdict n).settleRed n
      match (s.pld n).train.verdict with
      | some v => s.forEach (List.range 12) (fun s k => if v.skip then s.discardHeld k n else s.releaseHeld k n)
      | none => s)

/-! ### The commit (R260, R279, R297, R299) -/

/-- The window after a commit (R279). -/
def Training.commit (x : Training) (v : Verdict) (w : Nat) : Training :=
  match v.skip, v.loss with
  | false, some l =>
    if isInf l then x
    else { x with
      losses := (padTo 0 w x.losses).set x.pos l
      pos := (x.pos + 1) % w
      count := min (x.count + 1) w }
  | _, _ => x

/-- The state tensor at STATE_VA. W is 0 in the empty state, which a skip or an infinite loss leaves as it is (R279). -/
def State.stateTensor (s : State) (p : Nat) : List Byte :=
  let x := s.pld p
  let hold := (s.reg (spkReg p 0x07C)).toNat
  let w := if x.train.count = 0 && x.train.pos = 0 && hold = 0 then 0 else x.cat.window
  leBytes 2 x.train.count ++ leBytes 2 x.train.pos ++ leBytes 2 w ++ [0, 0] ++ leBytes 4 hold ++
  List.replicate 52 0 ++ (padTo 0 x.cat.window x.train.losses).flatMap (fun w => leBytes 4 w.toNat)

/-- Step 1 of the commit: the monitor's window, HOLD_RUN and state tensor. -/
def State.commitMonitor (s : State) (p : Nat) (v : Verdict) : State :=
  let x := s.pld p
  if !x.cat.monitorOn then s
  else
    let a := spkReg p 0x07C
    let s := s.modPld p (fun x => { x with train := x.train.commit v x.cat.window })
    let s := if v.hold then s.bump a 1 else if !v.skip && v.loss.isSome then s.setReg a 0 else s
    let w := (s.reg (spkReg p 0x070)).toNat
    let s := s.showWindow p (bitAt w 30) (bitAt w 31)
    s.curatorWrite p x.cat.stateVa (s.stateTensor p)

/-- An element of a probe: +1 or -1 in BF16 (R299). -/
def probeElem (seed : Dword) (id step : Word) (q : Nat) : List Byte :=
  leBytes 2 (if (mix (seed ^^^ mix ((id.setWidth 64 <<< 32) ||| step.setWidth 64) ^^^ mix (dwordOf q))).msb then 0xBF80 else 0x3F80)

/-- The curator fills every probe that a thinning entry names, for the step that SPK_STEP counts. -/
def State.fillProbes (s : State) (p : Nat) : State :=
  let x := s.pld p
  s.forEach x.red.thins (fun s h =>
    match x.cat.tensors.find? (fun t => t.id == h.probe) with
    | some t => s.curatorWrite p t.va ((List.range (t.bytes / 2)).flatMap (probeElem x.cat.thinSeed h.probe (s.stepOf p)))
    | none => s)

/-- Step 3 of the commit: each tensor takes its candidate crest, which the curator writes into unit 0. -/
def State.commitCrests (s : State) (p : Nat) : State :=
  let x := s.pld p
  let new := x.cat.gradients.map (fun t => (t, if x.candidate t ≤ 287 then x.candidate t else x.crest t))
  let s := s.modRed p (fun r => { r with crests := new.map (fun c => (c.1.id, c.2)) })
  s.forEach new (fun s c => s.curatorWrite p (c.1.va + 2) (intBytes 2 c.2))

/-- CAUSES of a skip: non-finite, overtopping, crest out of range, hold (R280, R410). -/
def Verdict.causes (v : Verdict) : Nat :=
  (if v.nonfin then 1 else 0) + (if v.ovt then 2 else 0) + (if v.crest then 4 else 0) + if v.hold then 8 else 0

/-- The step record (R410 type 0x01), whose STEP and epoch are those before the commit. -/
def State.stepRecord (s : State) (p : Nat) (v : Verdict) (step epoch : Word) : List Byte :=
  leBytes 4 step.toNat ++ leBytes 1 (if v.skip then 1 else 0) ++ leBytes 1 v.causes ++ [0, 0] ++
  leBytes 4 (v.loss.getD 0x7FC00000).toNat ++ leBytes 4 epoch.toNat ++ leBytes 4 v.code ++
  leBytes 4 (s.reg (pldReg p 0x318)).toNat ++ leBytes 8 (s.reg64 (spkReg p 0x048)) ++
  leBytes 4 (s.reg (spkReg p 0x058)).toNat ++ leBytes 4 0 ++ leBytes 8 s.cc.toNat

/-- The reduction starts the next epoch with nothing received but the OPENs for it (R286, R293). -/
def Reduction.nextEpoch (r : Reduction) (epoch : Word) : Reduction :=
  { r with
    groups := r.groups.map (fun g => { g with opened := g.opened.filter (fun o => o.2 == epoch), sent := [], got := [], done := [], sealed := [] })
    ledger := [], tokens := [], finals := [], complete := [] }

/-- The commit, in the order of R260. -/
def State.commit (s : State) (p : Nat) (v : Verdict) : State :=
  let step := s.reg (spkReg p 0x040)
  let epoch := s.epoch p
  let s := s.commitMonitor p v
  let s := if v.skip then (s.bump64 (spkReg p 0x048) 1).setIrq (spkReg p 0) 4 else s.setReg (spkReg p 0x040) (step + 1)
  let s := s.commitCrests p
  let next := if epoch = 0xFFFFFFFF then 1 else epoch + 1
  let s := s.setReg (pldReg p 0x304) next
  let s := (s.modRed p (fun r => r.nextEpoch next)).fillProbes p
  let s := s.setReg (spkReg p 0x044) (wordOf (if v.skip then 8 + 16 * v.causes else 0))
  let s := s.postIfOn p 1 (s.stepRecord p v step epoch)
  let s := s.modPld p (fun x => { x with train := { x.train with phase := .idle, ran := [], verdict := none } })
  let s := s.forEach (List.range 12) (fun s n => s.modCns n (fun c => { c with next := Table.put 0 c.next p 0 }))
  s.sendOpens p

/-- Every conservator has completed its descriptors of the step (R259). -/
def State.updated (s : State) (p : Nat) : Bool :=
  (List.range 12).all (fun n => Table.get 0 (s.cns n).next p == (s.reg (cnsPage n + 0x104 + 16 * p)).toNat)

/-- STEP_COMMIT: after the Updating phase under apply, and directly after the verdict under skip (R260, R411). -/
def execStepCommit (p : PolderId) (s : State) : Host.Outcome State Fault Refusal :=
  let n := p.toNat
  .next (match (s.pld n).state, (s.pld n).train.verdict with
    | .running, some v => if v.skip || s.updated n then s.posting n 1 (fun s => s.commit n v) else s
    | _, _ => s)

end Sys2Proof.Machine
end

