-- ==== Sys2Proof/Machine/Serving.lean ====
section
/-!
DEFINITION. Serving: intakes, the step boundary, pages and their moves, control regions and versions, and the slot start of every job kind (R246, R323 to R346).
-/

namespace Sys2Proof.Machine

/-! ### Records that wait for ring space (R411) -/

def State.modServe (s : State) (p : Nat) (f : Serving → Serving) : State := s.modPld p (fun x => { x with serve := f x.serve })

/-- Posts records while the ring has room, and answers those that wait. -/
def State.postRecords (s : State) (p : Nat) : List (Nat × List Byte) → List (Nat × List Byte) × State
  | [] => ([], s)
  | r :: rest => if s.queuesOn p && !s.cqRoom p 1 then (r :: rest, s) else State.postRecords (s.postIfOn p r.1 r.2) p rest

/-- The next step of a serving polder waits for nothing but SLOT_CC (R246, R325, R337). -/
def Serving.ready (v : Serving) : Bool := v.planned && v.moves.isEmpty

/-- From now on the next step waits for nothing but SLOT_CC (R246). -/
def State.stampPlanned (s : State) (p : Nat) : State :=
  if (s.pld p).serve.ready then s.modPld p (fun x => { x with mbCc := s.cc }) else s

/-- Posts a polder's waiting serving records as far as its ring takes them. -/
def State.flushRecords (s : State) (p : Nat) : State :=
  if (s.pld p).serve.records.isEmpty then s
  else
    let r := s.postRecords p (s.pld p).serve.records
    (r.2.modServe p (fun v => { v with records := r.1 })).setHeld p !r.1.isEmpty

def State.queueRecords (s : State) (p : Nat) (l : List (Nat × List Byte)) : State :=
  (s.modServe p (fun v => { v with records := v.records ++ l })).flushRecords p

/-! ### Control regions (R326, R327, R331) -/

def versionVa (c : Catalogue) (v : Nat) : Nat := c.controlVa + v * c.versionBytes
def rowVa (c : Catalogue) (v slot : Nat) : Nat := versionVa c v + slot * c.serve.maxPages * 4
def batchVa (c : Catalogue) (v : Nat) : Nat := versionVa c v + c.serve.maxSeqs * c.serve.maxPages * 4
def tokenVa (c : Catalogue) (v : Nat) : Nat := batchVa c v + c.serve.maxBatch * 32
def resultVa (c : Catalogue) (i : Nat) : Nat := c.controlVa + 2 * c.versionBytes + 8 * i

/-- The curator writes a control region, which a watch of the polder sees (R209). -/
def State.controlWrite (s : State) (p va : Nat) (bs : List Byte) : State :=
  s.forEach (kibs va bs.length) (fun s c =>
    match s.translate 0 p c.1 true with
    | .at_ x => (s.closeMerges x c.2).landWrite p 0 0xFFFF c.1 x ((bs.drop (c.1 - va)).take c.2)
    | .fault _ => s)

/-- A table entry of a page (R327). -/
def pageEntry (g : Page) : Nat := g.shelf * 2 ^ 24 + g.num

/-- The bytes of a row of table entries: the pages of its sequence and none beyond. -/
def rowBytes (maxPages : Nat) (pages : List Page) : List Byte :=
  (List.range maxPages).flatMap (fun i => leBytes 4 (match pages[i]? with
    | some g => pageEntry g
    | none => 0xFFFFFFFF))

/-- Writes the row of a sequence slot into a version. -/
def State.writeRow (s : State) (p v slot : Nat) (pages : List Page) : State :=
  let c := (s.pld p).cat
  s.controlWrite p (rowVa c v slot) (rowBytes c.serve.maxPages pages)

/-- An edit of a row empties it in the pending version at once, or once the row's copy has run (R333, R338). -/
def State.emptyRow (s : State) (p slot : Nat) : State :=
  let v := (s.pld p).serve
  if v.toCopy.contains slot then s.modServe p (fun v => { v with deferred := v.deferred ++ [slot] })
  else (s.writeRow p (1 - v.live) slot []).modServe p (fun v => { v with edited := (v.edited ++ [slot]).eraseDups })

/-! ### Intakes (R332, R333) -/

/-- A descriptor's sequence. -/
def seqOf (b : List Byte) (arrival : Nat) : Sequence :=
  { (default : Sequence) with
    id := dwordOf (peek b 0 8), state := .waiting, prompt := peek b 8 8, promptLen := peek b 16 4, maxNew := peek b 20 4
    prio := peek b 24 1, seed := dwordOf (peek b 32 8), arrival := arrival }

/-- The fields of a descriptor are in range (R332, R333). -/
def descriptorOk (v : ServePlan) (b : List Byte) : Bool :=
  let va := peek b 8 8
  let len := peek b 16 4
  let last := va + 4 * len - 1
  va % 64 == 0 && windowOf va == some 3 && windowOf last == some 3 && decide (1 ≤ len) && decide (1 ≤ peek b 20 4) &&
  decide (peek b 24 1 ≤ 7) && zeros b 25 7 && zeros b 40 24 && decide (len + peek b 20 4 ≤ v.maxPages * 64)

/-- A counted refusal under R333 with its record. -/
def State.refuseItem (s : State) (p tag code : Nat) (id : Nat) : State :=
  (s.bump (pldReg p 0x434) 1).queueRecords p [(5, refusalRecord code tag 0 0 id)]

/-- One descriptor of an accepted intake, with the IDs of the intake's earlier ones (R333). -/
def State.takeDescriptor (s : State) (p tag : Nat) (earlier : List Nat) (b : List Byte) : State :=
  let v := (s.pld p).serve
  let id := peek b 0 8
  if !descriptorOk (s.pld p).cat.serve b then s.refuseItem p tag 0x0909 id
  else if earlier.contains id || v.seqs.any (fun q => q.id == dwordOf id) then s.refuseItem p tag 0x090A id
  else s.modServe p (fun v => { v with seqs := v.seqs ++ [seqOf b v.arrivals], arrivals := v.arrivals + 1 })

/-- One cancel of an accepted intake. -/
def State.takeCancel (s : State) (p : Nat) (id : Dword) : State :=
  match (s.pld p).serve.seqs.find? (fun q => q.id == id) with
  | none => s.bump (pldReg p 0x434) 1
  | some q =>
    let s := s.modServe p (fun v => { v with seqs := v.seqs.map (fun q => if q.id == id then { q with cancelled := true } else q) })
    match q.slot with
    | some k => if q.cancelled then s else s.emptyRow p k
    | none => s

/-- What is read of an intake record: its header gives it (R332). -/
def intakeBytes (head : List Byte) : Nat := 16 + 64 * peek head 8 2 + 8 * peek head 10 2

/-- Takes an intake record, which was read. -/
def State.takeIntake (s : State) (p tag : Nat) (va : Nat) : State :=
  let head := s.hostRead va 16
  let news := peek head 8 2
  let cancels := peek head 10 2
  if !(peek head 0 2 == 1 && zeros head 2 2 && zeros head 12 4 && decide (news ≤ 1024) && decide (cancels ≤ 4096)) then s.refuseItem p tag 0x0910 0
  else if peek head 4 4 != (s.pld p).serve.started % 2 ^ 32 then s.refuseItem p tag 0x090C 0
  else
    let s := (s.countIntakeWait p).modServe p (fun v => { v with intakeOk := true })
    let id (i : Nat) : Nat := leNat (s.hostRead (va + 16 + 64 * i) 8)
    let s := s.forEach (List.range news) (fun s i => s.takeDescriptor p tag ((List.range i).map id) (s.hostRead (va + 16 + 64 * i) 64))
    s.forEach (List.range cancels) (fun s i => s.takeCancel p (dwordOf (leNat (s.hostRead (va + 16 + 64 * news + 8 * i) 8))))

/-- INTAKE: the part takes the next intake record, or refuses the entry of one that cannot be read (R333, R408). The curator
takes none while it carries out a boundary, which ends with the slot start: it edits a row for a cancel during a step only
(R327, R331, R335). -/
def execIntake (p : PolderId) (rd : HostRead) (s : State) : Host.Outcome State Fault Refusal :=
  let n := p.toNat
  let x := s.pld n
  .next (match x.intakes with
    | [] => s
    | (tag, va) :: rest =>
      if x.state != .running || !x.serve.records.isEmpty || x.serve.planned || x.serve.boundary.isSome then s
      else
        let s := s.modPld n (fun x => { x with intakes := rest })
        match s.vfRead n rd va.toNat with
        | .fails _ => s.queueRecords n [(5, refusalRecord 0x0911 tag.toNat 0 0 0)]
        | .success => (s.askHost (n + 1) va.toNat (intakeBytes (s.hostRead va.toNat 16))).takeIntake n tag.toNat va.toNat)

/-! ### The curator's reads (R185 to R187) -/

/-- The curator reads a run of bytes piece by piece, with what the error correction finds in each; an uncorrectable error withholds
all of them (R185, R186). -/
def State.curatorFetch (s : State) (p : Nat) (ecc : List Ecc) : List (Nat × Nat) → Option (List Byte) × State
  | [] => (some [], s)
  | c :: cs =>
    match s.translate 0 p c.1 false, eccAt ecc 0 with
    | .fault _, _ => (none, s)
    | .at_ x, .uncorrectable => (none, (s.countRead x c.2).memLost x p 0xE 0)
    | .at_ x, e =>
      let s := s.countRead x c.2
      let s := if e = .corrected then s.memCorrected x else s
      match State.curatorFetch s p (ecc.drop 1) cs with
      | (none, s) => (none, s)
      | (some bs, s) => (some (s.memRead x c.2 ++ bs), s)

/-! ### The boundary (R335, R336) -/

/-- A boundary's plan as it grows. -/
structure Plan where
  seqs : List Sequence
  moves : List Move
  budget : Nat
  batch : List BatchEntry
  records : List (Nat × List Byte)
  edited : List Nat
  admissions : Nat
  preempts : Nat
  evicts : Nat
  resumes : Nat

def pagesOf (tokens : Nat) : Nat := (tokens + 63) / 64
def Sequence.decodes (q : Sequence) : Bool := decide (q.promptLen ≤ q.len)
def Sequence.hbmPages (q : Sequence) : Nat := q.pages.countP (fun g => g.shelf == 0)

def Plan.find (b : Plan) (id : Dword) : Option Sequence := b.seqs.find? (fun q => q.id == id)
def Plan.mod (b : Plan) (id : Dword) (f : Sequence → Sequence) : Plan :=
  { b with seqs := b.seqs.map (fun q => if q.id == id then f q else q) }
def Plan.edit (b : Plan) (q : Sequence) : Plan := { b with edited := (b.edited ++ q.slot.toList).eraseDups }

def ServePlan.shelf (c : ServePlan) (k : Nat) : Nat := if k = 0 then c.poolPages else if k = 1 then c.depPages else c.loanPages

/-- The pages of a shelf that sequences hold. -/
def heldPages (l : List Sequence) (k : Nat) : List Nat := l.flatMap (fun q => (q.pages.filter (fun g => g.shelf == k)).map (·.num))

def Plan.free (b : Plan) (c : ServePlan) (k : Nat) : Nat := c.shelf k - (heldPages b.seqs k).length

/-- The lowest free page of a shelf beyond the ones already chosen. -/
def lowestPage (c : ServePlan) (l : List Sequence) (k : Nat) (taken : List Page) : Option Page :=
  let held := heldPages l k ++ (taken.filter (fun g => g.shelf == k)).map (·.num)
  ((List.range (min (c.shelf k) (held.length + 1))).find? (fun i => !held.contains i)).map (fun i => { shelf := k, num := i })

/-- A count of the lowest free pages of a shelf. -/
def takePages (c : ServePlan) (l : List Sequence) (k : Nat) : Nat → List Page → List Page
  | 0, taken => taken
  | n + 1, taken => match lowestPage c l k taken with
    | some g => takePages c l k n (taken ++ [g])
    | none => taken

/-- An end record (R410 type 0x07). -/
def endRecord (q : Sequence) (reason step : Nat) : Nat × List Byte :=
  (7, leBytes 8 q.id.toNat ++ leBytes 4 reason ++ leBytes 4 q.new ++ leBytes 4 q.len ++ leBytes 4 step)

def Plan.remove (b : Plan) (q : Sequence) (reason step : Nat) : Plan :=
  { (b.edit q) with seqs := b.seqs.filter (fun r => r.id != q.id), records := b.records ++ [endRecord q reason step] }

/-- Pre-empts a victim, or evicts it where the depot and the loan have too few free pages (R336). What it was given in
this boundary returns. -/
def Plan.preempt (b : Plan) (c : ServePlan) (step : Nat) (v : Sequence) : Plan :=
  let placed := b.batch.find? (fun e => e.seqId == v.id)
  let back := if v.decodes then 1 else placed.elim 0 (·.count)
  let held := v.pages.take (pagesOf v.len)
  let b := ({ b with batch := b.batch.filter (fun e => e.seqId != v.id), budget := b.budget + back } : Plan).mod v.id (fun q => { q with pages := held })
  if b.free c 1 + b.free c 2 < held.length then { b.remove v 3 step with evicts := b.evicts + 1 }
  else
    let dep := takePages c b.seqs 1 (min held.length (b.free c 1)) []
    let dst := dep ++ takePages c b.seqs 2 (held.length - dep.length) []
    let b := b.mod v.id (fun q => { q with state := .preempted, pages := dst })
    { b.edit v with moves := b.moves ++ (held.zip dst).map (fun m => { src := m.1, dst := m.2, arrived := 0 }), preempts := b.preempts + 1 }

/-- The running sequence of lowest priority, then of highest admission number. -/
def Plan.victim (b : Plan) : Option Sequence :=
  b.seqs.foldl (fun m q =>
    if q.state != .running then m
    else match m with
      | none => some q
      | some r => if q.prio < r.prio || (q.prio == r.prio && decide (r.admission < q.admission)) then some q else m) none

/-- Pre-empts until a sequence finds its pages or is pre-empted itself. -/
def Plan.makeRoom (c : ServePlan) (step : Nat) (id : Dword) (need : Nat) : Nat → Plan → Plan
  | 0, b => b
  | k + 1, b =>
    match b.find id with
    | none => b
    | some r =>
      if r.state != .running || need ≤ b.free c 0 then b
      else match b.victim with
        | none => b
        | some v => Plan.makeRoom c step id need k (b.preempt c step v)

/-- The tokens that a sequence would run. -/
def Plan.tokensFor (b : Plan) (q : Sequence) : Nat := if q.decodes then 1 else min 512 (min (q.promptLen - q.len) b.budget)

/-- The batch entry of a sequence (R329). -/
def entryOf (q : Sequence) (n : Nat) : BatchEntry :=
  { seqId := q.id, slot := q.slot.getD 0, prefill := !q.decodes, sample := q.decodes || q.len + n == q.promptLen, pos := q.len, count := n
    seed := q.seed, new := q.new }

/-- Reserves a sequence's pages for its tokens and appends its entry. -/
def Plan.place (b : Plan) (c : ServePlan) (q : Sequence) (n : Nat) : Plan :=
  let more := takePages c b.seqs 0 (pagesOf (q.len + n) - q.pages.length) []
  let b := b.mod q.id (fun q => { q with pages := q.pages ++ more })
  let b := if more.isEmpty then b else b.edit q
  { b with batch := b.batch ++ [entryOf q n] }

/-- Growth of one running sequence. -/
def Plan.grow (c : ServePlan) (step : Nat) (b : Plan) (id : Dword) : Plan :=
  match b.find id with
  | none => b
  | some r =>
    if r.state != .running then b
    else
      let n := b.tokensFor r
      let b := Plan.makeRoom c step id (pagesOf (r.len + n) - pagesOf r.len) (b.seqs.length + 1) b
      match b.find id with
      | none => b
      | some q =>
        if q.state != .running || n = 0 then b
        else
          let b := b.place c q n
          if q.decodes then b else { b with budget := b.budget - n }

/-- Order: priority from high to low, then admission number from low to high. -/
def runOrder (a b : Sequence) : Bool := decide (b.prio < a.prio) || (a.prio == b.prio && decide (a.admission ≤ b.admission))

/-- The order of joiners: pre-empted before waiting at equal priority. -/
def joinOrder (a b : Sequence) : Bool :=
  decide (b.prio < a.prio) || (a.prio == b.prio &&
    (match a.state, b.state with
     | .preempted, .waiting => true
     | .waiting, .preempted => false
     | .waiting, _ => decide (a.arrival ≤ b.arrival)
     | _, _ => decide (a.admission ≤ b.admission)))

def freeSlotOf (c : ServePlan) (l : List Sequence) : Option Nat :=
  (List.range (min c.maxSeqs (l.length + 1))).find? (fun k => !l.any (fun q => q.slot == some k))

/-- Brings a resumed sequence's other pages into HBM, in page order. -/
def Plan.bringIn (b : Plan) (c : ServePlan) (q : Sequence) : Plan :=
  let away := q.pages.filter (fun g => g.shelf != 0)
  let dst := takePages c b.seqs 0 away.length []
  let pairs := away.zip dst
  let b := b.mod q.id (fun q => { q with pages := q.pages.map (fun g => (pairs.find? (fun m => m.1 == g)).elim g (·.2)) })
  if pairs.isEmpty then b else { b.edit q with moves := b.moves ++ pairs.map (fun m => { src := m.1, dst := m.2, arrived := 0 }) }

/-- Joining: the first joiner that does not fit ends it. -/
def Plan.join (c : ServePlan) : List Dword → Plan → Plan
  | [], b => b
  | id :: ids, b =>
    match b.find id with
    | none => Plan.join c ids b
    | some j =>
      let n := b.tokensFor j
      let running := b.seqs.countP (fun q => q.state == .running)
      let slot := if j.slot.isSome then j.slot else freeSlotOf c b.seqs
      if c.maxBatch ≤ running || n = 0 || b.budget < n || slot.isNone || b.free c 0 < pagesOf (j.len + n) - j.hbmPages then b
      else
        let fresh := j.state == .waiting
        let b := b.mod id (fun q => { q with state := .running, slot := slot, admission := if fresh then b.admissions else q.admission })
        let b := { b with admissions := if fresh then b.admissions + 1 else b.admissions, resumes := if fresh then b.resumes else b.resumes + 1 }
        match b.find id with
        | none => b
        | some q =>
          let b := b.bringIn c q
          match b.find id with
          | none => b
          | some q =>
            let b := b.place c q n
            Plan.join c ids { b with budget := b.budget - n }

/-- The live batch has run: lengths, samples and token records (R335). -/
def State.takeResults (s : State) (p : Nat) (b : Plan) (e : BatchEntry × Nat) (step : Nat) : Plan :=
  let x := s.pld p
  match b.find e.1.seqId with
  | none => b
  | some q =>
    let len := e.1.pos + e.1.count
    if !e.1.sample then b.mod q.id (fun q => { q with len := len })
    else
      let w := leNat (s.curatorRead p (resultVa x.cat e.2) 8)
      let token := field w 0 32
      let b := b.mod q.id (fun q => { q with len := len, new := q.new + 1, last := wordOf token, sampledEnd := bitAt w 32 })
      if q.cancelled then b
      else { b with records := b.records ++ [(6, leBytes 8 q.id.toNat ++ leBytes 4 token ++ leBytes 4 (q.new + 1) ++ leBytes 4 len ++
              leBytes 4 (if bitAt w 32 then 1 else 0) ++ leBytes 4 step)] }

/-- The reason for which a sequence leaves at this boundary, if it does (R334). -/
def Sequence.leaves (q : Sequence) (all : Bool) : Option Nat :=
  if q.cancelled || all then some 2 else if q.sampledEnd then some 0 else if q.state != .waiting && q.maxNew ≤ q.new then some 1 else none

/-- Whether a boundary ends the job: a retire was pending as it began (R354). -/
def Polder.lastBoundary (x : Polder) : Bool := x.serve.boundary.getD x.retirePending

/-- The plan of a boundary. Where it ends the job every sequence leaves (R354). -/
def State.planBoundary (s : State) (p : Nat) : Plan :=
  let x := s.pld p
  let c := x.cat.serve
  let step := x.serve.started - 1
  let b : Plan := { seqs := x.serve.seqs, moves := [], budget := 0, batch := [], records := [], edited := [], admissions := x.serve.admissions
                    preempts := 0, evicts := 0, resumes := 0 }
  let b := x.serve.batch.zipIdx.foldl (fun b e => s.takeResults p b e step) b
  let b := b.seqs.foldl (fun b q => match q.leaves x.lastBoundary with
    | some r => b.remove q r step
    | none => b) b
  if x.lastBoundary then b
  else
    let running := b.seqs.filter (fun q => q.state == .running)
    let b := { b with budget := x.cat.mbMax - running.countP (·.decodes) }
    let b := ((inOrder runOrder running).map (·.id)).foldl (Plan.grow c step) b
    Plan.join c ((inOrder joinOrder (b.seqs.filter (fun q => q.state != .running))).map (·.id)) b

/-! ### Writing the plan (R329, R331, R335) -/

/-- The token IDs of an entry: the last sampled one, or a run of the prompt in host memory, which host DMA reads for the polder. -/
def State.entryTokens (s : State) (p : Nat) (q : Sequence) (e : BatchEntry) : List Nat × State :=
  if !e.prefill then ([q.last.toNat], s)
  else
    let r := s.masterRead 4 p 0xB 4 (q.prompt + 4 * e.pos) (4 * e.count) []
    ((List.range e.count).map (fun i => peek (r.1.getD []) (4 * i) 4), r.2)

/-- The token buffer of a batch. -/
def State.batchTokens (s : State) (p : Nat) (seqs : List Sequence) : List BatchEntry → List Nat × State
  | [] => ([], s)
  | e :: es =>
    let q := (seqs.find? (fun q => q.id == e.seqId)).getD default
    let a := s.entryTokens p q e
    let b := State.batchTokens a.2 p seqs es
    (a.1 ++ b.1, b.2)

/-- The bytes of a batch list, from a first token index. -/
def batchBytes : List BatchEntry → Nat → List Byte
  | [], _ => []
  | e :: es, off =>
    leBytes 2 e.slot ++ leBytes 1 (if e.prefill then 1 else 0) ++ leBytes 1 (if e.sample then 1 else 0) ++ leBytes 4 e.pos ++ leBytes 2 e.count ++
    [0, 0] ++ leBytes 4 off ++ leBytes 8 e.seed.toNat ++ leBytes 4 e.new ++ leBytes 4 0 ++ batchBytes es (off + e.count)

/-- The plan goes into the pending version: the edited rows, the batch list and the token buffer, whole. -/
def State.writePlan (s : State) (p : Nat) (b : Plan) : State :=
  let c := (s.pld p).cat
  let v := 1 - (s.pld p).serve.live
  let s := s.forEach b.edited (fun s k => s.writeRow p v k (((b.seqs.find? (fun q => q.slot == some k)).map (·.pages)).getD []))
  let t := s.batchTokens p b.seqs b.batch
  let s := t.2.controlWrite p (batchVa c v) (padTo 0 (c.serve.maxBatch * 32) (batchBytes b.batch 0))
  s.controlWrite p (tokenVa c v) (padTo 0 (c.mbMax * 4) (t.1.flatMap (leBytes 4)))

/-- The boundary's moves go to host DMA, in order of arrival there (R336, R361). -/
def State.giveMoves (s : State) (p : Nat) (l : List Move) : State :=
  let k := s.store.arrivals
  (s.modServe p (fun v => { v with moves := l.zipIdx.map (fun m => { m.1 with arrived := k + m.2 }) })).modStore (fun m => { m with arrivals := k + l.length })

/-- The pieces of the result words that a boundary reads: those of the sampled entries of the live batch (R326, R335). -/
def Polder.resultPieces (x : Polder) : List (Nat × Nat) :=
  x.serve.batch.zipIdx.flatMap (fun e => if e.1.sample then kibs (resultVa x.cat e.2) 8 else [])

/-- A boundary of a serving polder can begin, or has begun (R335): the last checkpoint is met, the intake is accepted, or a retire
makes it needless, and the row copies of the last flip, the moves of the last boundary and the records before it are done. -/
def State.boundaryDue (s : State) (p : Nat) : Bool :=
  let x := s.pld p
  x.state == .running && x.cat.kind == 1 && !x.ended && s.stepOver p && !x.serve.planned && (x.serve.intakeOk || x.retirePending) &&
  x.serve.toCopy.isEmpty && x.serve.moves.isEmpty && x.serve.records.isEmpty

/-- The rest of a boundary, once its records are posted: the plan is written and the moves go to host DMA. -/
def State.takePlan (s : State) (n : Nat) (b : Plan) : State :=
  let s := s.writePlan n b
  let s := (s.bump (pldReg n 0x420) b.preempts).bump (pldReg n 0x424) b.resumes
  let s := s.bump (pldReg n 0x428) b.evicts
  let s := if b.preempts = 0 then s else s.setIrq (pldReg n 0) (2 ^ 11)
  let s := if b.evicts = 0 then s else s.setIrq (pldReg n 0) (2 ^ 12)
  let s := s.modPld n (fun x => { x with
    ended := x.lastBoundary
    serve := { x.serve with
      seqs := b.seqs, moves := [], batch := [], next := b.batch, planned := !b.batch.isEmpty, intakeOk := !b.batch.isEmpty
      admissions := b.admissions, preempts := b.preempts, evicts := b.evicts, waitCc := s.cc, boundary := none
      edited := (x.serve.edited ++ b.edited).eraseDups } })
  (s.giveMoves n b.moves).stampPlanned n

/-- The boundary posts its records, and goes on to the plan where the ring took them all; else it waits with the record that
the full ring holds back (R411). -/
def State.postBoundary (s : State) (n : Nat) (b : Plan) : State :=
  let s := (s.modServe n (fun v => { v with boundary := some (s.pld n).lastBoundary })).queueRecords n b.records
  if (s.pld n).serve.records.isEmpty then s.takePlan n b else s

/-- STEP_BOUNDARY: the curator ends the serving step and plans the next one (R335). It reads the result words first, whose
uncorrectable error ends the boundary with the polder (R186). Where the ring was full, the command after the last record has
gone out carries out the rest (R411). -/
def execStepBoundary (p : Meets PolderId (List Ecc)) (s : State) : Host.Outcome State Fault Refusal :=
  let n := p.val.toNat
  let x := s.pld n
  .next (
    if !s.boundaryDue n then s
    else if x.serve.boundary.isSome then s.takePlan n (s.planBoundary n)
    else match s.curatorFetch n p.ecc x.resultPieces with
      | (none, s) => s
      | (some _, s) => s.postBoundary n (s.planBoundary n))

/-! ### Page moves (R323, R336, R337) -/

/-- The address of block i of a page on its shelf. -/
def blockVa (c : Catalogue) (g : Page) (i : Nat) : Nat :=
  let base (id : Word) : Nat := ((c.tensors.find? (fun t => t.id == id)).map (·.va)).getD 0
  let b := if g.shelf = 0 then base c.serve.kvPool else if g.shelf = 1 then base c.serve.kvSpill else c.serve.loanVa
  b + (i * c.serve.shelf g.shelf + g.num) * c.serve.blockBytes

/-- The S-die whose host DMA moves a page: that of the depot device which holds its first block, and S0 between HBM and a loan page
(R17, R336). -/
def State.moveDie (s : State) (p : Nat) (m : Move) : Nat :=
  let c := (s.pld p).cat
  match [m.src, m.dst].find? (fun g => g.shelf == 1) with
  | some g => (match s.translate 0 p (blockVa c g 0) false with
    | .at_ x => x.die
    | .fault _ => 4)
  | none => 4

/-- The blocks of a move, one after another, as far as no access fails. -/
def State.moveBlocks (s : State) (p die : Nat) (m : Move) (ecc : List Ecc) : List Nat → Bool × State
  | [] => (true, s)
  | i :: is =>
    let c := (s.pld p).cat
    match s.masterRead die p 0xB die (blockVa c m.src i) c.serve.blockBytes ecc with
    | (none, s) => (false, s)
    | (some bs, s) =>
      match s.masterWrite die p 0xB die (blockVa c m.dst i) bs with
      | (false, s) => (false, s)
      | (true, s) => State.moveBlocks s p die m (ecc.drop (kibs (blockVa c m.src i) c.serve.blockBytes).length) is

/-- A polder's next descriptor in host DMA of an S-die: the oldest of its host requests, which are S0's, and its next move. -/
inductive HostWork where
  | request (r : Req)
  | move (m : Move)

def State.hostWork (s : State) (k p : Nat) : Option HostWork :=
  let move := (s.pld p).serve.moves.head?.filter (fun m => s.moveDie p m == k - 12)
  match (if k = 16 then s.hostReq p else none), move with
  | some r, some m => some (if r.arrived < m.arrived then .request r else .move m)
  | some r, none => some (.request r)
  | none, some m => some (.move m)
  | none, none => none

/-- A running polder's slot in host DMA has a descriptor ready: a new one, or a parked one whose completion has landed (R356, R361,
R363). -/
def State.hostReady (s : State) (k p : Nat) : Bool :=
  let y := s.slot k p
  (s.pld p).state == .running && !y.frozen && !y.stopped && !y.running && (if y.parked then !y.remote else (s.hostWork k p).isSome)

/-- Host DMA issues or resumes a polder's descriptor: a read of host memory waits for its PCIe completion (R361 to R363, R416). -/
def State.startHostDma (s : State) (k p : Nat) : State :=
  if !s.startTurn k p (s.hostReady k) then s
  else
    let resumed := (s.slot k p).parked
    let cur := (s.slot k p).cur
    let s := s.takeEngine k p
    match (if resumed then s.store.reqs.find? (fun r => cur == some r.id && r.stage == .landed) else none) with
    | some r => (s.respond r.id r.data).endHostDesc k p
    | none =>
      if resumed then s
      else match s.hostWork k p with
        | some (.request r) =>
          let s := s.modSlot k p (fun x => { x with cur := some r.id })
          if r.isWrite then s else ((s.remoteWait k p).askHost (p + 1) ((r.tgt.map Target.key).getD 0) r.len).markTags
        | some (.move m) => if m.src.shelf = 2 then s.remoteWait k p else s
        | none => s

/-- SHARED_DESCRIPTOR_START: a shared engine starts or resumes a ready descriptor of a polder's slot by the row frame. -/
def execSharedDescriptorStart (e : SharedEngine) (p : PolderId) (ecc : List Ecc) (s : State) : Host.Outcome State Fault Refusal :=
  .next (match e with
    | .link n => s.startLink n.toNat p.toNat ecc
    | .hostDma s1 => s.startHostDma (if s1 then 17 else 16) p.toNat
    | .reduction => s.startReduction p.toNat)

/-- The running move of a polder: its engine and the move. -/
def State.runningMove (s : State) (p : Nat) : Option (Nat × Move) :=
  match (s.pld p).serve.moves with
  | [] => none
  | m :: _ =>
    let k := s.moveDie p m + 12
    let y := s.slot k p
    if (y.running || (y.parked && y.remote)) && y.cur.isNone then some (k, m) else none

/-- PAGE_MOVE_COMPLETE: S-die host DMA has moved the blocks of the page whose descriptor runs (R336). Where that is parked, its
completions have landed and it waits for its turn (R363). -/
def execPageMoveComplete (p : Meets PolderId (List Ecc)) (s : State) : Host.Outcome State Fault Refusal :=
  let n := p.val.toNat
  let x := s.pld n
  .next (match s.runningMove n with
    | none => s
    | some (k, m) =>
      if x.state != .running then s
      else if (s.slot k n).parked then s.endWait k n
      else
        match (s.endWait k n).moveBlocks n (k - 12) m p.ecc (List.range (x.cat.serve.layers * x.cat.serve.hgCount)) with
        | (false, s) => s.modSlot k n (fun y => { y with running := false, stopped := true })
        | (true, s) =>
          let s := (s.endHostDesc k n).modServe n (fun v => { v with moves := v.moves.drop 1 })
          if (s.pld n).serve.moves.isEmpty then (s.bump (pldReg n 0x430) (s.cc - x.serve.waitCc).toNat).stampPlanned n else s)

/-- TABLE_ROW_COPY: a row edited before the flip is copied into the new pending version, and an edit that waited for it
is made (R338). -/
def execTableRowCopy (p : PolderId) (slot : Meets (BitVec 12) (List Ecc)) (s : State) : Host.Outcome State Fault Refusal :=
  let n := p.toNat
  let k := slot.val.toNat
  let x := s.pld n
  .next (
    if x.state != .running || !x.serve.toCopy.contains k then s
    else match s.curatorFetch n slot.ecc (kibs (rowVa x.cat x.serve.live k) (x.cat.serve.maxPages * 4)) with
      | (none, s) => s
      | (some row, s) =>
        let s := s.controlWrite n (rowVa x.cat (1 - x.serve.live) k) row
        let s := s.modServe n (fun v => { v with toCopy := v.toCopy.filter (· != k), deferred := v.deferred.filter (· != k) })
        if x.serve.deferred.contains k then s.emptyRow n k else s)

/-! ### The slot start (R246, R325, R334, R344) -/

/-- The plan digest over 8-byte words (R344). -/
def planDigest (bs : List Byte) : Dword :=
  (List.range ((bs.length + 7) / 8)).foldl (fun d i => mix (d ^^^ dwordOf (peek bs (8 * i) 8))) 0

/-- The step record (R410 type 0x08). -/
def serveRecord (s : State) (v : Serving) (len : Nat) (digest : Dword) : List Byte :=
  leBytes 4 v.started ++ leBytes 4 len ++ leBytes 2 v.next.length ++ leBytes 2 v.preempts ++ leBytes 2 v.evicts ++ [0, 0] ++ leBytes 8 digest.toNat ++
  leBytes 8 s.cc.toNat

/-- Free pages of a shelf. -/
def Serving.freePages (v : Serving) (c : ServePlan) (k : Nat) : Nat := c.shelf k - (heldPages v.seqs k).length

/-- The tokens of a batch. -/
def batchLen (l : List BatchEntry) : Nat := l.foldl (fun n e => n + e.count) 0

/-- The pieces of the planned batch list and token buffer, whose digest the slot start forms (R344). -/
def Polder.planPieces (x : Polder) : List (Nat × Nat) :=
  kibs (batchVa x.cat (1 - x.serve.live)) (32 * x.serve.next.length) ++ kibs (tokenVa x.cat (1 - x.serve.live)) (4 * batchLen x.serve.next)

/-- The flip and the start of a serving step: the pending version is live and its edited rows are to be copied. -/
def State.startServing (s : State) (p : Nat) (bytes : List Byte) : State :=
  let x := s.pld p
  let v := x.serve
  let live := 1 - v.live
  let len := batchLen v.next
  let digest := planDigest bytes
  let s := s.postIfOn p 8 (serveRecord s v len digest)
  let c := x.cat.serve
  let s := ((s.setReg (pldReg p 0x414) (wordOf (v.freePages c 0))).setReg (pldReg p 0x418) (wordOf (v.freePages c 1))).setReg (pldReg p 0x41C)
    (wordOf (v.freePages c 2))
  let s := (s.bump64 (pldReg p 0x438) len).setReg64 (pldReg p 0x440) digest.toNat
  let s := (s.setReg (pldReg p 0x448) (wordOf v.next.length)).setReg (pldReg p 0x44C) (wordOf len)
  let s := s.modPld p (fun x => { x with
    mbIndex := wordOf v.started, mbLen := wordOf len
    serve := { x.serve with
      started := v.started + 1, live := live, batch := v.next, next := [], planned := false, intakeOk := false, tokens := len
      toCopy := v.edited, edited := [] } })
  s.startSlot p (leBytes 4 v.started ++ leBytes 4 len ++ leBytes 4 0) (leBytes 2 v.next.length ++ leBytes 1 live ++ List.replicate 13 0)

/-- A serving step starts with the digest of what the curator reads of its plan; an uncorrectable error there ends it with the
polder (R186, R344). -/
def State.fetchPlan (s : State) (p : Nat) (ecc : List Ecc) : State :=
  match s.curatorFetch p ecc (s.pld p).planPieces with
  | (none, s) => s
  | (some bytes, s) => s.startServing p bytes

/-- SLOT_START: SLOT_CC has passed since the last slot started and every tile has met its last checkpoint; a micro-batch
waits, or a serving plan is written and its moves are complete (R246, R335, R337). -/
def execSlotStart (p : Meets PolderId (List Ecc)) (s : State) : Host.Outcome State Fault Refusal :=
  let n := p.val.toNat
  let x := s.pld n
  .next (
    if x.state != .running || !s.slotReady n then s
    else if x.cat.kind = 1 then
      if x.serve.ready && !x.ended then s.posting n 1 (fun s => s.fetchPlan n p.ecc) else s
    else if x.mbWaiting.isSome && !(x.cat.kind = 2 && x.retirePending) then s.startMicroBatch n
    else s)

end Sys2Proof.Machine
end

