-- ==== Sys2Proof/Machine/Host.lean ====
section
/-!
DEFINITION. The VF pages and their queues, the fault ring's head, VF Enable, and the resets of the PCIe side (R405 to R412, R418, R520).
-/

namespace Sys2Proof.Machine

/-! ### The VF page's own writes (R407, R409, R412) -/

/-- A violation freezes the VF and tears its polder down (R360, R412). -/
def State.vfViolation (s : State) (p code : Nat) : State :=
  (s.setVfReg p 0x034 (wordOf code)).raiseMaster p 0xD (p + 1) code 0

/-- A write to a VF's page by its host: Unsupported Request while the VF is out of reach or frozen. -/
def State.vfWrite (s : State) (p off : Nat) (act : State → State) : State :=
  if !s.vfReached p then s.answerError
  else if s.vfFrozen p then (s.sendAer (p + 1) false off).answerError
  else (act s).answerWritten

/-- The submission doorbell; writes to a disabled queue's doorbells are ignored. -/
def State.writeSqTail (s : State) (p : Nat) (v : Word) : State :=
  if !s.queuesOn p then s
  else if 2 ^ field (s.vfReg p 0x00C).toNat 0 5 < (v - s.vfReg p 0x014).toNat then s.vfViolation p 0x01A0
  else s.setVfReg p 0x010 v

/-- VF_SQ_TAIL (R408, R412). -/
def execVfSqTail (p : PolderId) (value : Word) (s : State) : Host.Outcome State Fault Refusal :=
  .next (s.vfWrite p.toNat 0x010 (fun s => s.writeSqTail p.toNat value))

/-- The completion doorbell: records consumed; those left unconsumed send vector 0, and records that waited are posted. -/
def State.writeCqHead (s : State) (p : Nat) (v : Word) : State :=
  if !s.queuesOn p then s
  else if 2 ^ s.cqLog p < (s.vfReg p 0x028 - v).toNat then s.vfViolation p 0x01A1
  else
    let s := s.setVfReg p 0x024 v
    let s := if s.cqUsed p = 0 then s else s.sendMsix (p + 1) 0
    s.flushRecords p

/-- VF_CQ_HEAD (R409, R411, R412). -/
def execVfCqHead (p : PolderId) (value : Word) (s : State) : Host.Outcome State Fault Refusal :=
  .next (s.vfWrite p.toNat 0x024 (fun s => s.writeCqHead p.toNat value))

/-- A queue or ring size of 4 to 16; other values are ignored. -/
def sizeOk (w : Word) : Bool := decide (4 ≤ field w.toNat 0 5) && decide (field w.toNat 0 5 ≤ 16)

/-- A write to a base or size register: a violation while the queues are enabled. Bases are 4 KiB aligned. -/
def State.writeQueueConfig (s : State) (p off : Nat) (v : Word) : State :=
  if s.queuesOn p then s.vfViolation p 0x01A2
  else if off = 0x004 || off = 0x018 then s.setVfReg p off (v &&& 0xFFFFF000)
  else if off = 0x008 || off = 0x01C then s.setVfReg p off v
  else if sizeOk v then s.setVfReg p off (v &&& 0x1F)
  else s

def isQueueConfig (off : Nat) : Bool := [0x004, 0x008, 0x00C, 0x018, 0x01C, 0x020].contains off

/-- VF_QUEUE_CONFIG_WRITE (R407, R412). -/
def execVfQueueConfigWrite (p : PolderId) (off : BitVec 12) (value : Word) (s : State) : Host.Outcome State Fault Refusal :=
  .next (s.vfWrite p.toNat off.toNat (fun s => if isQueueConfig off.toNat then s.writeQueueConfig p.toNat off.toNat value else s))

/-- PF0 reports consumed fault records; those left unconsumed send vector 1 (R409, R428). -/
def State.writeFrHead (s : State) (v : Word) : State :=
  let s := s.setReg (pciPage + 0x054) v
  if s.reg (pciPage + 0x058) == v then s else s.sendMsix 0 1

/-- PCI_FR_HEAD (R409). -/
def execPciFrHead (value : Word) (s : State) : Host.Outcome State Fault Refusal :=
  .next (if s.hostReaches then (s.writeFrHead value).answerWritten else s.answerError)

/-! ### Function-level resets (R405, R418) -/

/-- An FLR of VF p + 1: its polder is torn down, and its page and channel are reset at once or where clearing ends. -/
def State.flrVf (s : State) (p : Nat) : State :=
  let x := s.pld p
  let c := plainCause p 0xD (p + 1)
  if x.state.resident then (s.startClearing p (some c)).modPld p (fun x => { x with flr := true })
  else if x.state == .clearing then (s.endRequest p).modPld p (fun x => { x with flr := true })
  else if x.state == .creating then (s.endCreate p 0x8008 0).resetVf p
  else s.resetVf p

/-- VF_FLR (R418). -/
def execVfFlr (p : PolderId) (s : State) : Host.Outcome State Fault Refusal :=
  .next (if s.vfReached p.toNat then s.flrVf p.toNat else s)

/-- Clearing VF Enable acts as an FLR of every VF (R405, R418). -/
def State.disableVfs (s : State) : State :=
  if s.hif.vfEnable then
    let s := s.forEach (List.range s.hif.numVfs) (fun s p => s.flrVf p)
    s.modHif (fun h => { h with vfEnable := false })
  else s

/-- TotalVFs and InitialVFs (R405). -/
def totalVfs : Nat := 16
def initialVfs : Nat := 16

/-- NumVFs takes a value up to TotalVFs while VF Enable is clear (R405). -/
def State.setNumVfs (s : State) (n : Nat) : State :=
  s.modHif (fun h => { h with numVfs := if !h.vfEnable && decide (n ≤ totalVfs) then n else h.numVfs })

/-- VF_ENABLE, a write of VF Enable and NumVFs: one that sets VF Enable takes effect only while the part is operational (R405). -/
def execVfEnable (on : Bool) (numVfs : BitVec 5) (s : State) : Host.Outcome State Fault Refusal :=
  .next (
    if !s.hostReaches then s
    else if !on then s.disableVfs.setNumVfs numVfs.toNat
    else if s.boot.part == .operational && decide (numVfs.toNat ≤ totalVfs) then (s.setNumVfs numVfs.toNat).modHif (fun h => { h with vfEnable := true })
    else s)

/-- PF0_FLR: the fault ring's registers, channels 24 to 31 and the secure channels that PF0 owns, and VF Enable (R418). -/
def execPf0Flr (s : State) : Host.Outcome State Fault Refusal :=
  .next (
    if !s.hostReaches then s
    else
      let s := { s with regs := s.regs.filter (fun e => !(decide (pciPage + 0x048 ≤ e.1) && decide (e.1 < pciPage + 0x060))) }
      let s := s.forEach (List.range 8) (fun s i => s.idleChannel (24 + i))
      let s := s.forEach (List.range 8) (fun s c => if (s.chan c).state != .idle && !(s.chan c).i3c then s.idleChannel c else s)
      s.disableVfs)

/-! ### Hot reset, link down and PERST_N (R418, R471, R520) -/

/-- A staged image that is still being received is discarded (R471). -/
def State.dropStaging (s : State) : State :=
  s.modBoot (fun b => if b.stg = 1 then { b with stg := 0, offset := 0 } else b)

/-- Every polder is torn down with 0x0D06 and every channel returns to IDLE; the configuration stays (R418, R428). -/
def State.hotReset (s : State) : State :=
  let s := s.setIrq pciPage 4
  let s := s.forEach (List.range 16) (fun s p =>
    let x := s.pld p
    let c : Cause := { polder := p, code := 0x0D06, kind := 0xB, unit := 4, addr := 0 }
    if x.state.resident then (s.setReg (pciPage + 0x060) (wordOf (0x0D06 + p * 2 ^ 16))).startClearing p (some c)
    else if x.state == .creating then s.endCreate p 0x8008 0
    else s)
  ((s.forEach (List.range 32) (fun s c => s.idleChannel c)).modHif (fun h => { h with session := false })).dropStaging

/-- PCIE_LINK_DOWN: a hot reset, or a link down after which the link trains again; where PCIE_REFCLK has stopped, which the row leaves
open, it does so only after PERST_N (R418, R520, R525). DEDUCED: log entry 168. -/
def execPcieLinkDown (s : State) : Host.Outcome State Fault Refusal :=
  .next (
    if !s.hostReaches then s
    else
      let d := s.hotReset.draw
      if d.1.getLsbD 0 then (d.2.modBoard (fun b => { b with pcieClkLost := true })).modHif (fun h => { h with linkUp := false })
      else d.2.trainLink)

/-- PERST_N: its assertion while VIN is good acts as a hot reset and holds the link down; its deassertion lets the link
train (R520). -/
def execPerstN (level : Bool) (s : State) : Host.Outcome State Fault Refusal :=
  .next (
    if level == s.board.perst then s
    else if level then
      let s := s.modBoard (fun b => { b with perst := true, pcieClkLost := false })
      if s.boot.s0On then s.trainLink else s
    else
      let s := if s.hostReaches then s.hotReset else s
      (s.modBoard (fun b => { b with perst := false })).modHif (fun h => { h with linkUp := false }))

end Sys2Proof.Machine
end

