-- ==== Sys2Proof/Machine/Array.lean ====
section
/-!
DEFINITION. The matrix array: modes, stationary sets, the feed ring, the exact sums and their drain, and its commands (R97 to R125, R133 to R136).
-/

namespace Sys2Proof.Machine

/-! ### Modes (R98) -/

/-- Formats whose pairs run in D2 and S2. -/
def Fmt.narrow : Fmt → Bool
  | .e3m2 => true | .e2m3 => true | .e2m1 => true
  | _ => false

/-- The mode of an operand pair by A_FMT and B_FMT codes, or none outside R38: 1 D1, 2 D2, 3 S1, 4 S2, 5 H. -/
def pairMode (a b : Nat) : Option Nat :=
  match Fmt.ofA a, Fmt.ofB b with
  | some fa, some fb =>
    if fa.isMx && fb.isMx then
      let both := fa.narrow && fb.narrow
      if 8 ≤ b then some (if both then 4 else 3) else some (if both then 2 else 1)
    else if fa = fb && !fa.isMx then some 5
    else none
  | _, _ => none

/-- The mode that A_FMT gives alone where the active set is empty (R104). -/
def aloneMode (a : Nat) : Nat := if 6 ≤ a then 5 else if a = 2 || a = 3 || a = 4 then 2 else 1

/-- Whether a B_FMT fits a LOAD's MODE (R98, R104). -/
def fmtFits (mode b : Nat) : Bool :=
  match mode with
  | 1 => decide (b ≤ 5)
  | 2 => b == 2 || b == 3 || b == 4
  | 3 => decide (8 ≤ b) && decide (b ≤ 0xD)
  | 4 => b == 0xA || b == 0xB || b == 0xC
  | 5 => b == 6 || b == 7
  | _ => false

/-- Stationary elements per PE (R98). -/
def perPe (mode : Nat) : Nat := if mode = 2 || mode = 4 then 2 else 1

/-- PE rows per MX block (R98); 128 in H, which has no blocks. -/
def rowsPerBlock (mode : Nat) : Nat :=
  match mode with
  | 1 => 32 | 2 => 16 | 3 => 16 | 4 => 8 | _ => 128

/-- The skew step of moving element k (R112). -/
def skewOf (mode k : Nat) : Nat :=
  match mode with
  | 1 => k % 32 | 2 => k / 2 % 16 | 3 => k / 4 % 8 | 4 => k / 4 % 8 | _ => 0

/-! ### Stationary sets (R105, R133) -/

def StatSet.isEmpty (x : StatSet) : Bool := x.mode == 0

/-- Row i of a loaded image as a number. -/
def StatSet.row (x : StatSet) (i : Nat) : Nat := leNat ((x.image[i]?).getD [])

/-- The stationary value of element e of the PE at row r and column c, with its block's scale (R105, R107, R108). -/
def StatSet.value (x : StatSet) (r c e : Nat) : Val :=
  match Fmt.ofB x.fmt with
  | none => .nan
  | some f =>
    let n := perPe x.mode
    let rpb := rowsPerBlock x.mode
    if x.transposed then
      let v := f.decode (rowElem (x.row c) f.width (n * r + e))
      if f.isMx then v.scaled (rowByte (x.row c) (496 + r / rpb)) else v
    else
      let v := f.decode (rowElem (x.row r) f.width (n * c + e))
      if f.isMx then v.scaled (rowByte (x.row (r - r % rpb)) (256 + c)) else v

/-- The K index that element e of the PE at row r and column c multiplies (R105, R134). -/
def StatSet.kIndex (x : StatSet) (r c e : Nat) : Nat :=
  match x.mode with
  | 2 => 2 * r + e
  | 3 => 4 * (r / 2) + field (x.row r) (8 * 384 + 2 * c) 2
  | 4 => 4 * r + field (x.row r) (8 * 384 + 4 * c + 2 * e) 2
  | _ => r

/-- The mode of the PEs when a set is active, for a moving format. -/
def StatSet.modeWith (x : StatSet) (aFmt : Nat) : Nat := if x.isEmpty then aloneMode aFmt else x.mode

/-! ### The moving operand (R112) -/

/-- Moving element k of the vector in a slot: the row at its skew offset, with the scale from the row at offset 0. -/
def State.movingVal (s : State) (t : Nat) (fd : Feed) (f : Fmt) (slot k : Nat) : Val :=
  let at_ (d : Nat) := s.rowNat t (fd.row + (slot + d) % fd.ring)
  let v := f.decode (rowElem (at_ (skewOf fd.mode k)) f.width k)
  if f.isMx then v.scaled (rowByte (at_ 0) (496 + k / 32)) else v

/-- The products of one slot in one column, added exactly (R33, R99). An empty PE forms none. -/
def State.columnSum (s : State) (t : Nat) (x : StatSet) (fd : Feed) (f : Fmt) (slot c : Nat) (a : Acc) : Acc :=
  if x.isEmpty || decide (x.cols ≤ c) then a
  else
    (List.range x.rows).foldl (fun a r =>
      (List.range (perPe x.mode)).foldl (fun a e =>
        a.add ((s.movingVal t fd f slot (x.kIndex r c e)).mul (x.value r c e))) a) a

/-! ### Commands (R101, R102, R104) -/

def Command.reserved123 (c : Command) : Bool := c.w1 == 0 && c.w2 == 0 && c.w3 == 0

/-- An MA command ungates the PE rows where they are gated; the array holds 16 ac (R439). -/
def State.ungate (s : State) (t : Nat) : State :=
  let m := (s.tile t).ma
  let now := s.now (acDom (dieOfTile t))
  let s := if m.gated then s.bump (pwrPage (dieOfTile t) + 0x060) 16 else s
  s.modTile t (fun x => { x with ma := { x.ma with gated := false, lastAc := now } })

/-- LOAD's checks, the lowest fault code first (R104; log entry 14). A count of rows or columns above 128 is a reserved code. DEDUCED: log
entry 140. -/
def maLoadFault (c : Command) : Option Nat :=
  let b := c.f1 13 4
  let tr := bitAt c.w1.toNat 17
  let mode := c.f1 18 3
  let rows := c.f1 21 8 + 1
  let cols := c.f2 0 8 + 1
  let reads := if tr then cols else rows
  firstFault [
    (!(c.w0Ok && c.f1 29 3 == 0 && c.f2 8 24 == 0 && c.w3 == 0 && decide (1 ≤ mode) && decide (mode ≤ 5)
        && decide (b ≤ 0xD) && decide (rows ≤ 128) && decide (cols ≤ 128)), 0x0120),
    (!rowsFit (c.f1 0 13) reads, 0x0122),
    (!fmtFits mode b, 0x0123),
    (tr && (decide (8 ≤ b) || mode == 3 || mode == 4), 0x0124)]

/-- What a LOAD writes into the shadow set (R105 to R108). -/
def State.loadSet (s : State) (t : Nat) (c : Command) : StatSet :=
  let tr := bitAt c.w1.toNat 17
  let rows := c.f1 21 8 + 1
  let cols := c.f2 0 8 + 1
  { mode := c.f1 18 3, fmt := c.f1 13 4, transposed := tr, rows := rows, cols := cols,
    image := (List.range (if tr then cols else rows)).map (fun i => s.spadRow t (c.f1 0 13 + i)) }

/-- A LOAD waits for an earlier SWAP or LOAD, every other command for an earlier one of the stream; a SWAP waits for every
earlier command (R101, R110). -/
def maBlocks (op : Nat) (a : Active) : Bool :=
  if op = 1 then a.cmd.opcode == 1 || a.cmd.opcode == 2 else if op = 2 then true else !maLoads a.cmd

def State.maCurrent (s : State) (t op : Nat) : Option Active := s.runnable t 0 op (maBlocks op)

def execMaLoad (t : TileId) (ecc : RowEcc) (s : State) : Host.Outcome State Fault Refusal :=
  let n := t.toNat
  .next (match s.maCurrent n 1 with
    | none => s
    | some a =>
      match maLoadFault a.cmd with
      | some code => s.raiseEngine n 0 code 0
      | none => (s.ungate n).reading n 0 a.seq ecc (fun s =>
          let x := s.loadSet n a.cmd
          (s.modTile n (fun y => { y with ma := { y.ma with shadow := x, shadowFull := true } })).finish n 0 a.seq))

/-- SWAP exchanges the sets and takes one slot of the stream (R109, R112). -/
def MatrixArray.swapSets (m : MatrixArray) : MatrixArray :=
  { m with active := m.shadow, shadow := m.active, shadowFull := false,
           feed := m.feed.map (fun f => { f with next := f.next + 1 }) }

/-- SWAP. Its slot waits for a feed row, and for a LOAD (R109, R110, R115). -/
def execSwap (t : Meets TileId RowEcc) (s : State) : Host.Outcome State Fault Refusal :=
  let n := t.val.toNat
  .next (match s.maCurrent n 2 with
    | none => s
    | some a =>
      if a.cmd.w0Ok && a.cmd.reserved123 then
        (s.ungate n).reading n 0 a.seq t.ecc (fun s =>
          ((((s.modTile n (fun y => { y with ma := y.ma.swapSets })).bump64 (arrReg n 0x08) 1).bumpHeld (arrReg n 0x10)).bumpHeld
            (arrReg n 0x18)).finish n 0 a.seq)
      else s.raiseEngine n 0 0x0120 0)

/-- The fields of SETMODE (R102). -/
def Command.passMode (c : Command) : PassMode :=
  { aFmt := c.f1 0 4, outFmt := c.f1 4 4, rnd := c.f1 8 2, colblk := bitAt c.w1.toNat 10, dual := bitAt c.w1.toNat 11,
    crest := toSigned 10 (c.f1 12 10), cFmt := c.f1 22 2, bRow := c.f2 0 13, cRow := c.f2 13 13,
    drainFn := c.f2 26 4, cMode := c.f2 30 2 }

/-- SETMODE: no reserved code, no reserved bit (R102, R103). -/
def setmodeOk (c : Command) : Bool :=
  c.w0Ok && c.f1 24 8 == 0 && c.w3 == 0 && decide (c.f1 0 4 ≤ 7) && outFmtOk (c.f1 4 4) && c.f1 8 2 != 3
    && c.f1 22 2 != 3 && decide (c.f2 26 4 ≤ 0xB)

def execSetmode (t : TileId) (s : State) : Host.Outcome State Fault Refusal :=
  let n := t.toNat
  .next (match s.maCurrent n 4 with
    | none => s
    | some a =>
      if setmodeOk a.cmd then
        (((s.modTile n (fun y => { y with ma := { y.ma with cfg := a.cmd.passMode } })).setReg (arrReg n 0x20) 0).setReg64
          (arrReg n 0x28) 0).finish n 0 a.seq
      else s.raiseEngine n 0 0x0120 0)

def execSetout (t : TileId) (s : State) : Host.Outcome State Fault Refusal :=
  let n := t.toNat
  .next (match s.maCurrent n 5 with
    | none => s
    | some a =>
      if a.cmd.w0Ok && a.cmd.f3 24 8 == 0 then
        (s.modTile n (fun y => { y with ma := { y.ma with out := a.cmd.outSel } })).finish n 0 a.seq
      else s.raiseEngine n 0 0x0120 0)

/-! ### PASS (R100, R112 to R121) -/

/-- The fields of PASS (R102). -/
structure PassCmd where
  feedRow : Nat
  ring : Nat
  cont : Bool
  accIn : Bool
  accOut : Bool
  m : Nat
  outRow : Nat
  out2Row : Nat

def Command.pass (c : Command) : PassCmd :=
  { feedRow := c.f1 0 13, ring := 2 ^ (6 + c.f1 13 3), cont := bitAt c.w1.toNat 16, accIn := bitAt c.w1.toNat 17,
    accOut := bitAt c.w1.toNat 18, m := c.f1 19 12 + 1, outRow := c.f2 0 13, out2Row := c.f2 13 13 }

/-- Elements of an addend row (R119). -/
def addendPerRow (cFmt : Nat) : Nat := if cFmt = 0 then 128 else 256

/-- The output, b and c rows of a pass lie within the scratchpad (R104, R117, R119): under ACC_OUT it writes no output row and reads no
b row, and none is checked. DEDUCED: log entry 143. -/
def passRowsFit (k : PassMode) (p : PassCmd) : Bool :=
  let colRows := 33 * (p.m / 32)
  let out :=
    if p.accOut then true
    else if k.dual then rowsFit p.outRow p.m && rowsFit p.out2Row colRows
    else if k.colblk then rowsFit p.outRow colRows
    else rowsFit p.outRow (rowsFor k.outFmt 128 * p.m)
  let b := p.accOut || !drainUsesB k.drainFn || rowsFit k.bRow p.m
  let c := match k.cMode with
    | 0 => true
    | 1 => rowsFit k.cRow 1
    | 2 => rowsFit k.cRow p.m
    | _ => rowsFit k.cRow ((p.m - 1) / addendPerRow k.cFmt + 1)
  rowsFit p.feedRow p.ring && out && b && c

/-- Whether CONT names the stream of the previous pass (R104, R112). -/
def contOk (feed : Option Feed) (mode : Nat) (p : PassCmd) : Bool :=
  match feed with
  | none => false
  | some f => f.mode == mode && f.row == p.feedRow && f.ring == p.ring

/-- PASS's checks, the lowest fault code first (R104). The earlier pass's mode is compared with the active set's where that is loaded.
DEDUCED: log entry 141. -/
def passFault (m : MatrixArray) (c : Command) : Option Nat :=
  let p := c.pass
  let k := m.cfg
  let mx := match Fmt.ofOut k.outFmt with
    | some f => f.isMx
    | none => false
  let blk := k.colblk || k.dual
  let pair := pairMode k.aFmt m.active.fmt
  firstFault [
    (!(c.w0Ok && c.f1 31 1 == 0 && c.f2 26 6 == 0 && c.w3 == 0), 0x0120),
    ((p.accIn || p.accOut || blk) && decide (128 < p.m), 0x0121),
    (!passRowsFit k p, 0x0122),
    (!m.active.isEmpty && pair.isNone, 0x0123),
    (p.cont && !contOk m.feed (m.active.modeWith k.aFmt) p, 0x0125),
    (blk && (!mx || p.m % 32 != 0 || p.accOut), 0x0126),
    (!m.active.isEmpty && pair != some m.active.mode, 0x0127)]

/-- The feed stream that a pass reads from: a new one at slot 0, or the previous pass's at its next slot. -/
def passFeed (m : MatrixArray) (p : PassCmd) : Feed :=
  let fresh : Feed := { mode := m.active.modeWith m.cfg.aFmt, row := p.feedRow, ring := p.ring, next := 0 }
  if p.cont then m.feed.getD fresh else fresh

/-- The addend of an output (R119). -/
def State.addend (s : State) (t : Nat) (k : PassMode) (m c : Nat) : Val :=
  let f : Fmt := if k.cFmt = 0 then .fp32 else if k.cFmt = 1 then .bf16 else .fp16
  let at_ (row i : Nat) := f.decode (rowElem (s.rowNat t row) f.width i)
  match k.cMode with
  | 0 => .zero
  | 1 => at_ k.cRow c
  | 2 => at_ (k.cRow + m) c
  | _ => at_ (k.cRow + m / addendPerRow k.cFmt) (m % addendPerRow k.cFmt)

def accKey (c m : Nat) : Nat := c * 128 + m

/-- The exact value of one slot in one column: its products, entry m under ACC_IN, and the addend (R100). -/
def State.slotValue (s : State) (t : Nat) (p : PassCmd) (fd : Feed) (m c : Nat) : Acc :=
  let x := (s.tile t).ma
  let base := if p.accIn then Table.get Acc.zero x.acc (accKey c m) else Acc.zero
  let base := if x.cfg.cMode = 0 then base else base.add (s.addend t x.cfg m c)
  match Fmt.ofA x.cfg.aFmt with
  | none => base
  | some f => s.columnSum t x.active fd f (fd.next + m) c base

/-- The drained element (m, c) of a pass. -/
def State.passElem (s : State) (t : Nat) (a : Acc) (m c : Nat) : OutElem :=
  let x := (s.tile t).ma
  let b := if drainUsesB x.cfg.drainFn then rowElem (s.rowNat t (x.cfg.bRow + m)) 32 c else 0
  { d := drainFn x.cfg.drainFn a.value b, r := s.srOf t x.out (x.out.index m c) }

/-- Columns of a matrix of elements given by rows. -/
def columnOf (l : List (List OutElem)) (c : Nat) : List OutElem := l.filterMap (fun row => row[c]?)

/-- The 33 rows of 32 output rows in the column-block layout (R117). -/
def colBlockRows (f : Fmt) (mode : Rnd) (l : List (List OutElem)) : List Nat × Tally :=
  let cols := (List.range 128).map (fun c => encodeBlock f mode (columnOf l c))
  let rows := (List.range 32).map (fun i => pack f.width (cols.map (fun b => (b.2.1[i]?).getD 0)))
  (rows ++ [pack 8 (cols.map (·.1))], (cols.map (·.2.2)).foldl Tally.join Tally.zero)

/-- The column-block copy of a pass. -/
def colBlocks (f : Fmt) (mode : Rnd) (l : List (List OutElem)) : List Nat × Tally :=
  let bs := (chunks 32 (l.length / 32) l).map (colBlockRows f mode)
  (bs.flatMap (·.1), (bs.map (·.2)).foldl Tally.join Tally.zero)

/-- How the elements of 32 output rows count under DUAL: row by row in the row-block copy, and column by column in the other.
An element whose value rounds to NaN or ±∞ in either copy counts, once (R52, R117). DEDUCED: log entry 135. -/
def dualKinds (f : Fmt) (mode : Rnd) (l : List (List OutElem)) : List Kind :=
  let rows := l.map (fun r => (chunks 32 ((r.length + 31) / 32) r).flatMap (blockKinds f mode))
  let cols := (List.range 128).map (fun c => blockKinds f mode (columnOf l c))
  rows.zipIdx.flatMap (fun r => r.1.zipIdx.map (fun k => k.1.either (((cols[k.2]?).bind (·[r.2]?)).getD .finite)))

def dualTally (f : Fmt) (mode : Rnd) (l : List (List OutElem)) : Tally :=
  Tally.ofKinds ((chunks 32 (l.length / 32) l).flatMap (dualKinds f mode))

/-- What a pass writes: each list of rows with its first row, and the tally of its elements counted once (R117). -/
def passRows (k : PassMode) (p : PassCmd) (l : List (List OutElem)) : List (Nat × List Nat) × Tally :=
  let mode := Rnd.ofCode k.rnd
  let rb := l.map (encodeRows k.outFmt mode k.crest)
  let rowCopy := (rb.flatMap (·.1), (rb.map (·.2)).foldl Tally.join Tally.zero)
  match Fmt.ofOut k.outFmt with
  | none => ([(p.outRow, rowCopy.1)], rowCopy.2)
  | some f =>
    if k.dual then ([(p.outRow, rowCopy.1), (p.out2Row, (colBlocks f mode l).1)], dualTally f mode l)
    else if k.colblk then let x := colBlocks f mode l; ([(p.outRow, x.1)], x.2)
    else ([(p.outRow, rowCopy.1)], rowCopy.2)

/-- The registers of the array (R124). -/
def arrRegs (t : Nat) : OutRegs := { nonfin := arrReg t 0x30, xrSts := arrReg t 0x20, under := arrReg t 0x28 }

/-- The 128 exact values of each of the pass's vectors. -/
def State.passValues (s : State) (t : Nat) (p : PassCmd) (fd : Feed) : List (List Acc) :=
  (List.range p.m).map (fun m => (List.range 128).map (fun c => s.slotValue t p fd m c))

/-- Writes the values of a pass into the accumulator file (R100, R117). -/
def putAccs (acc : Table Acc) (vs : List (List Acc)) : Table Acc :=
  vs.zipIdx.foldl (fun acc row => row.1.zipIdx.foldl (fun acc x => Table.put Acc.zero acc (accKey x.2 row.2) x.1) acc) acc

/-- A pass's effect: entries under ACC_OUT, output rows otherwise, and both under COLBLK or DUAL (R100, R117). -/
def State.runPass (s : State) (t seq : Nat) (c : Command) : State :=
  let x := (s.tile t).ma
  let p := c.pass
  let fd := passFeed x p
  let vs := s.passValues t p fd
  let s1 := s.modTile t (fun y => { y with ma := { y.ma with
    feed := some { fd with next := fd.next + p.m }
    acc := if p.accOut || x.cfg.colblk || x.cfg.dual then putAccs y.ma.acc vs else y.ma.acc } })
  let s1 := ((s1.bump64 (arrReg t 0x08) p.m).bumpHeld (arrReg t 0x10)).bumpHeld (arrReg t 0x14)
  let s1 := if p.accOut then s1
    else
      let el := vs.zipIdx.map (fun row => row.1.zipIdx.map (fun a => s.passElem t a.1 row.2 a.2))
      let o := passRows x.cfg p el
      let s1 := s1.forEach o.1 (fun s e => s.setRows t e.1 e.2)
      s1.book t 0 (arrRegs t) (x.cfg.outFmt == outXr) x.out.tensor o.2
  s1.finish t 0 seq

def execPass (t : TileId) (ecc : RowEcc) (s : State) : Host.Outcome State Fault Refusal :=
  let n := t.toNat
  .next (match s.maCurrent n 3 with
    | none => s
    | some a =>
      match passFault (s.tile n).ma a.cmd with
      | some code => s.raiseEngine n 0 code 0
      | none => (s.ungate n).reading n 0 a.seq ecc (fun s => s.runPass n a.seq a.cmd))

/-- The array gates its PE rows after 256 ac with no LOAD, SWAP or PASS in progress (R439). -/
def execArrayGate (t : TileId) (s : State) : Host.Outcome State Fault Refusal :=
  let n := t.toNat
  let x := s.tile n
  let idle := !(x.engine 0).active.any (fun a => decide (1 ≤ a.cmd.opcode) && decide (a.cmd.opcode ≤ 3))
  .next (if idle && s.elapsed (acDom (dieOfTile n)) x.ma.lastAc 256 then
      s.modTile n (fun y => { y with ma := { y.ma with gated := true } })
    else s)

end Sys2Proof.Machine
end

