-- ==== Sys2Proof/Machine/Sparse.lean ====
section
/-!
DEFINITION. Matrix tiles in their stored forms, and the block-sparse engine (R126 to R150).
-/

namespace Sys2Proof.Machine

/-! ### Density headers (R127) -/

/-- The fields of a 64-byte density header. -/
structure TileHeader where
  format : Nat
  elem : Nat
  kind : Nat
  nnz : Nat
  payload : Nat
  bitmap : Nat
  /-- every reserved bit is 0 -/
  clean : Bool
  deriving DecidableEq, Repr

def TileHeader.read (bs : List Byte) : TileHeader :=
  { format := peek bs 0 2, elem := peek bs 2 1 % 16, kind := peek bs 3 1 % 4, nnz := peek bs 4 2, payload := peek bs 8 4,
    bitmap := peek bs 0x20 32,
    clean := peek bs 2 1 / 16 == 0 && peek bs 3 1 / 4 == 0 && peek bs 6 2 == 0 && peek bs 0x0C 20 == 0 }

/-- Stored blocks in ascending bit order of BITMAP. -/
def TileHeader.blocks (h : TileHeader) : List Nat := (List.range 256).filter (fun b => bitAt h.bitmap b)

/-- The header that a writer forms (R127). -/
def headerBytes (elem kind nnz payload bitmap : Nat) : List Byte :=
  leBytes 2 2 ++ leBytes 1 elem ++ leBytes 1 kind ++ leBytes 2 nnz ++ leBytes 2 0 ++ leBytes 4 payload ++ leBytes 20 0
    ++ leBytes 32 bitmap

/-- Element width in bits of an ELEM code. -/
def elemWidth (elem : Nat) : Nat := if elem = 2 || elem = 3 then 6 else if elem = 4 then 4 else 8

/-- Bytes of 256 elements, and the payloads of R131. -/
def blockBytes (elem : Nat) : Nat := 32 * elemWidth elem + 16
def densePayload (elem : Nat) : Nat := 8192 * elemWidth elem + 2048
def twoFourPayload (elem : Nat) : Nat := 4096 * elemWidth elem + 8192 + 2048

/-- The payload size that a kind and NNZ give (R131). -/
def payloadOf (elem kind nnz : Nat) : Nat :=
  match kind with
  | 0 => nnz * blockBytes elem
  | 1 => densePayload elem
  | _ => twoFourPayload elem

/-- A stored block as its 256 element codes and 16 scales. -/
structure TileBlock where
  elems : List Nat
  scales : List Nat
  deriving DecidableEq, Repr

/-- A block of +0 elements with a scale of 0 (R129). -/
def TileBlock.zero : TileBlock := { elems := List.replicate 256 0, scales := List.replicate 16 0x7F }

/-- Cuts a number into a count of fields of w bits. -/
def unpack (w : Nat) : Nat → Nat → List Nat
  | 0, _ => []
  | n + 1, x => x % 2 ^ w :: unpack w n (x / 2 ^ w)

/-! ### Work stealing (R143 to R145) -/

/-- The lanes: unstarted blocks of each queue, the ac at which each lane is idle again, and the blocks stolen. -/
structure Lanes where
  queues : List Nat
  free : List Nat
  steals : Nat
  deriving DecidableEq, Repr

def setAt (l : List Nat) (i v : Nat) : List Nat := l.set i v
def getAt (l : List Nat) (i : Nat) : Nat := (l[i]?).getD 0

/-- Every idle lane with a block in its own queue takes its head. -/
def Lanes.takeOwn (x : Lanes) (t : Nat) : Lanes :=
  (List.range 16).foldl (fun x i =>
    if getAt x.free i ≤ t && getAt x.queues i != 0 then
      { x with queues := setAt x.queues i (getAt x.queues i - 1), free := setAt x.free i (t + 16) }
    else x) x

/-- The nearest queue to the left, and failing that to the right, that holds an unstarted block. -/
def Lanes.victim (x : Lanes) (i : Nat) : Option Nat :=
  ((List.range i).reverse ++ (List.range 16).filter (fun j => decide (i < j))).find? (fun j => getAt x.queues j != 0)

/-- In lane order, every idle lane whose queue is empty steals a tail block. -/
def Lanes.steal (x : Lanes) (t : Nat) : Lanes :=
  (List.range 16).foldl (fun x i =>
    if getAt x.free i ≤ t && getAt x.queues i == 0 then
      match x.victim i with
      | none => x
      | some j => { queues := setAt x.queues j (getAt x.queues j - 1), free := setAt x.free i (t + 18), steals := x.steals + 1 }
    else x) x

/-- The next ac at which a lane becomes idle. -/
def Lanes.nextIdle (x : Lanes) (t : Nat) : Nat :=
  (x.free.filter (fun f => decide (t < f))).foldl min (t + 18)

/-- Runs the takes until no block is unstarted. Each round takes at least one block. -/
def Lanes.run (x : Lanes) (t : Nat) : Nat → Lanes
  | 0 => x
  | n + 1 =>
    if x.queues.all (· == 0) then x
    else
      let x := (x.takeOwn t).steal t
      Lanes.run x (x.nextIdle t) n

/-- The take schedule of a BITMAP: blocks stolen, and the compute time in ac. -/
def stealSchedule (bitmap : Nat) : Nat × Nat :=
  let q := (List.range 16).map (fun r => (List.range 16).countP (fun j => bitAt bitmap (16 * r + j)))
  let x := Lanes.run { queues := q, free := List.replicate 16 0, steals := 0 } 0 257
  (x.steals, x.free.foldl max 0)

/-! ### The block-sparse engine's commands (R139 to R142) -/

structure BsPassCmd where
  hdrRow : Nat
  vecRow : Nat
  m : Nat
  accIn : Bool
  accOut : Bool
  outRow : Nat

def Command.bspass (c : Command) : BsPassCmd :=
  { hdrRow := c.f1 0 13, vecRow := c.f1 13 13, m := c.f1 26 4 + 1, accIn := bitAt c.w1.toNat 30,
    accOut := bitAt c.w1.toNat 31, outRow := c.f2 0 13 }

def headerOk (h : TileHeader) : Bool :=
  h.format == 2 && decide (h.elem ≤ 5) && decide (h.kind ≤ 1) && h.clean && h.blocks.length == h.nnz

/-- The rows that the command reads and writes lie within the scratchpad (R142): under ACC_OUT it writes no output row and reads no b
row, and none is checked. DEDUCED: log entry 143. -/
def bsRowsFit (k : PassMode) (p : BsPassCmd) (h : TileHeader) : Bool :=
  rowsFit p.hdrRow (1 + h.nnz) && rowsFit p.vecRow 16
    && (p.accOut || (rowsFit p.outRow (p.m * rowsFor k.outFmt 256)
          && (!drainUsesB k.drainFn || rowsFit k.bRow (2 * p.m))))

/-- BSPASS's checks, the lowest fault code first (R142). -/
def bspassFault (k : PassMode) (c : Command) (h : TileHeader) : Option Nat :=
  let p := c.bspass
  firstFault [
    (!(c.w0Ok && c.f2 13 19 == 0 && c.w3 == 0), 0x0128),
    (!bsRowsFit k p h, 0x0129),
    (!headerOk h, 0x012A),
    (decide (6 ≤ k.aFmt), 0x012B)]

def State.bsCurrent (s : State) (t op : Nat) : Option Active := s.runnable t 1 op (fun _ => true)

/-- One block's contribution to output n of a vector, where the block's block-row holds n (R128, R137, R141). -/
def State.blockSum (s : State) (t : Nat) (f fa : Fmt) (blkRow vecRow j i : Nat) (a : Acc) : Acc :=
  let b := s.rowNat t blkRow
  let v := s.rowNat t vecRow
  (List.range 16).foldl (fun a k =>
    a.add (((f.decode (rowElem b f.width (16 * i + k))).scaled (rowByte b (496 + i))).mul (rowVal fa v (16 * j + k)))) a

/-- What an omitted block contributes: products of +0, which leave an exact sum as it is unless the vector holds a NaN or an infinity
there (R50, R129). -/
def State.omittedSum (s : State) (t : Nat) (fa : Fmt) (vecRow j : Nat) (a : Acc) : Acc :=
  let v := s.rowNat t vecRow
  (List.range 16).foldl (fun a k => a.add (Val.zero.mul (rowVal fa v (16 * j + k)))) a

/-- The exact value of output (m, n): the sixteen blocks of its block-row, an omitted one read as +0 (R129, R137), and entry (m, n)
under ACC_IN. -/
def State.bsValue (s : State) (t : Nat) (p : BsPassCmd) (h : TileHeader) (m n : Nat) : Acc :=
  let x := (s.tile t).bse
  let base := if p.accIn then Table.get Acc.zero x.acc (m * 256 + n) else Acc.zero
  match Fmt.ofB h.elem, Fmt.ofA x.cfg.aFmt with
  | some f, some fa =>
    (List.range 16).foldl (fun a j =>
      match h.blocks.idxOf? (16 * (n / 16) + j) with
      | some b => s.blockSum t f fa (p.hdrRow + 1 + b) (p.vecRow + m) j (n % 16) a
      | none => s.omittedSum t fa (p.vecRow + m) j a) base
  | _, _ => base

def State.bsElem (s : State) (t : Nat) (a : Acc) (m n : Nat) : OutElem :=
  let x := (s.tile t).bse
  let b := if drainUsesB x.cfg.drainFn then s.fp32At t (x.cfg.bRow + 2 * m) n else 0
  { d := drainFn x.cfg.drainFn a.value b, r := s.srOf t x.out (x.out.index m n) }

def bseRegs (t : Nat) : OutRegs := { nonfin := tilReg t 0xA0, xrSts := tilReg t 0x94, under := tilReg t 0x98 }

/-- The counts of a BSPASS: block products, blocks stolen, and BSE_LAST (R149). Its compute ac are those of the schedule without holds,
and the ac held, a free number (R144, R146; log entry 142). -/
def State.bsCounts (s : State) (t : Nat) (h : TileHeader) : State :=
  let x := stealSchedule h.bitmap
  let s := s.bump64 (tilReg t 0x84) h.nnz
  let d := ((s.bump (tilReg t 0x8C) x.1).bumpHeld (tilReg t 0x90)).draw
  let ac := if h.nnz = 0 then 0 else min 511 (x.2 + d.1.toNat)
  d.2.setReg (tilReg t 0xA4) (wordOf (h.nnz + ac * 2 ^ 16))

/-- Writes the values of a pass into the accumulator file, entry (m, n) at m × 256 + n (R138). -/
def putBsAccs (acc : Table Acc) (vs : List (List Acc)) : Table Acc :=
  vs.zipIdx.foldl (fun acc row => row.1.zipIdx.foldl (fun acc x => Table.put Acc.zero acc (row.2 * 256 + x.2) x.1) acc) acc

/-- A BSPASS's effect: entries under ACC_OUT, output rows otherwise (R137, R138, R141). -/
def State.runBspass (s : State) (t seq : Nat) (c : Command) (h : TileHeader) : State :=
  let x := (s.tile t).bse
  let p := c.bspass
  let vs := (List.range p.m).map (fun m => (List.range 256).map (fun n => s.bsValue t p h m n))
  let s1 := s.bsCounts t h
  let s1 :=
    if p.accOut then
      s1.modTile t (fun y => { y with bse := { y.bse with acc := putBsAccs y.bse.acc vs } })
    else
      let rb := vs.zipIdx.map (fun row => encodeRows x.cfg.outFmt (Rnd.ofCode x.cfg.rnd) x.cfg.crest
        (row.1.zipIdx.map (fun a => s.bsElem t a.1 row.2 a.2)))
      let s1 := s1.setRows t p.outRow (rb.flatMap (·.1))
      s1.book t 1 (bseRegs t) (x.cfg.outFmt == outXr) x.out.tensor ((rb.map (·.2)).foldl Tally.join Tally.zero)
  s1.finish t 1 seq

/-- Whether an uncorrectable error withholds a row (R89). -/
def RowEcc.loses (ecc : RowEcc) (row : Nat) : Bool :=
  match ecc with
  | .uncorrectable r => r.toNat == row
  | _ => false

/-- A correction of the header row counts also where the header is refused (R185). -/
def State.headerCorrected (s : State) (t row : Nat) (ecc : RowEcc) : State :=
  match ecc with
  | .corrected rows => s.forEach (rows.filter (fun r => r.toNat == row)) (fun s _ => s.spadCorrected t row)
  | _ => s

/-- BSPASS. A header row that an uncorrectable error withholds is checked for nothing that it holds (R142, R150). -/
def execBspass (t : TileId) (ecc : RowEcc) (s : State) : Host.Outcome State Fault Refusal :=
  let n := t.toNat
  .next (match s.bsCurrent n 1 with
    | none => s
    | some a =>
      let p := a.cmd.bspass
      let h := TileHeader.read (s.spadRow n p.hdrRow)
      match bspassFault (s.tile n).bse.cfg a.cmd h, RowEcc.loses ecc p.hdrRow with
      | some 0x0128, _ => s.raiseEngine n 1 0x0128 0
      | some code, false => (s.headerCorrected n p.hdrRow ecc).raiseEngine n 1 code 0
      | _, _ => s.reading n 1 a.seq ecc (fun s => s.runBspass n a.seq a.cmd h))

/-- The fields of BSSETMODE (R140). -/
def Command.bsMode (c : Command) : PassMode :=
  { aFmt := c.f1 0 4, outFmt := c.f1 4 4, rnd := c.f1 8 2, colblk := false, dual := false, crest := toSigned 10 (c.f1 12 10),
    cFmt := 0, bRow := c.f2 0 13, cRow := 0, drainFn := c.f2 26 4, cMode := 0 }

/-- BSSETMODE: a non-MX A_FMT is left to BSPASS, which raises 0x012B for it (R497). -/
def bssetmodeOk (c : Command) : Bool :=
  c.w0Ok && c.f1 10 2 == 0 && c.f1 22 10 == 0 && c.f2 13 13 == 0 && c.f2 30 2 == 0 && c.w3 == 0
    && decide (c.f1 0 4 ≤ 7) && outFmtOk (c.f1 4 4) && c.f1 8 2 != 3 && decide (c.f2 26 4 ≤ 0xB)

def execBssetmode (t : TileId) (s : State) : Host.Outcome State Fault Refusal :=
  let n := t.toNat
  .next (match s.bsCurrent n 2 with
    | none => s
    | some a =>
      if bssetmodeOk a.cmd then
        (((s.modTile n (fun y => { y with bse := { y.bse with cfg := a.cmd.bsMode } })).setReg (tilReg n 0x94) 0).setReg64
          (tilReg n 0x98) 0).finish n 1 a.seq
      else s.raiseEngine n 1 0x0128 0)

def execBssetout (t : TileId) (s : State) : Host.Outcome State Fault Refusal :=
  let n := t.toNat
  .next (match s.bsCurrent n 3 with
    | none => s
    | some a =>
      if a.cmd.w0Ok && a.cmd.f3 24 8 == 0 then
        (s.modTile n (fun y => { y with bse := { y.bse with out := a.cmd.outSel } })).finish n 1 a.seq
      else s.raiseEngine n 1 0x0128 0)

end Sys2Proof.Machine
end

