-- ==== Sys2Proof/Machine/Transforms.lean ====
section
/-!
DEFINITION. The transforms of the DMA engines: transposes, the scratchpad forms of a stored matrix tile, and its packing (R128 to R133, R199 to R206).
-/

namespace Sys2Proof.Machine

/-! ### Rows with bytes that the manual leaves open -/

/-- Free bytes, and the state that has drawn them (log entry 19). -/
def State.freeBytes (s : State) (n : Nat) : List Byte × State :=
  ((List.range n).map (fun i => (Config.freeWord (s.drawn + i)).setWidth 8), { s with drawn := s.drawn + n })

/-- Writes a row of which the manual states only the bytes of the given ranges. -/
def State.setLooseRow (s : State) (t row : Nat) (bs : List Byte) (known : List (Nat × Nat)) : State :=
  let f := s.freeBytes 512
  let out := (padTo 0 512 bs).zip f.1 |>.zipIdx.map (fun x =>
    if known.any (fun k => decide (k.1 ≤ x.2) && decide (x.2 < k.2)) then x.1.1 else x.1.2)
  f.2.setSpadRow t row out

/-! ### Transposes (R201, R202) -/

/-- Cuts bytes into rows of 512, each as a number. -/
def rowsOf (bs : List Byte) (n : Nat) : List Nat := (chunks 512 n bs).map leNat

def rowAt (l : List Nat) (i : Nat) : Nat := (l[i]?).getD 0

/-- TRANS_V: output row j of an item of g groups (R201). -/
def transVRow (w g : Nat) (src : List Nat) (j : Nat) : List Byte :=
  let elems := (List.range (32 * g)).map (fun k => rowElem (rowAt src (33 * (k / 32) + k % 32)) w j)
  let scales := (List.range g).map (fun q => rowByte (rowAt src (33 * q + 32)) j)
  leBytes 512 (pack w elems + 2 ^ (8 * 496) * pack 8 scales)

/-- TRANS_I: image row r (R202). -/
def transIRow (w mode : Nat) (src : List Nat) (r : Nat) : List Byte :=
  let e := perPe mode
  let elems := (List.range 128).flatMap (fun c => (List.range e).map (fun i => rowElem (rowAt src c) w (e * r + i)))
  let scales := (List.range 128).map (fun c => if mode = 5 then 0 else rowByte (rowAt src c) (496 + e * r / 32))
  leBytes 512 (pack w elems + 2 ^ (8 * 256) * pack 8 scales)

/-! ### Stored matrix tiles (R128) -/

/-- A matrix tile read from its stored form: element (K, n), the scale of MX block q of n for the block-sparse form and
for the image form, and for a two-four tile non-zero i and its index in column n. -/
structure TileView where
  elem : Nat → Nat → Nat
  scale : Nat → Nat → Nat
  nz : Nat → Nat → Nat
  ix : Nat → Nat → Nat

/-- The position of a block among the stored ones. -/
def storedAt (bitmap b : Nat) : Nat := (List.range b).countP (fun i => bitAt bitmap i)

def viewBlock (h : TileHeader) (w : Nat) (bs : List Byte) : TileView :=
  let size := 32 * w + 16
  let blk (b : Nat) : Nat := peek bs (storedAt h.bitmap b * size) size
  { elem := fun k n =>
      let b := 16 * (n / 16) + k / 16
      if bitAt h.bitmap b then rowElem (blk b) w (16 * (n % 16) + k % 16) else 0
    scale := fun n q =>
      let b := 16 * (n / 16) + 2 * q
      if bitAt h.bitmap b then rowByte (blk b) (32 * w + n % 16)
      else if bitAt h.bitmap (b + 1) then rowByte (blk (b + 1)) (32 * w + n % 16) else 0x7F
    nz := fun _ _ => 0
    ix := fun _ _ => 0 }

def viewDense (w : Nat) (bs : List Byte) : TileView :=
  { elem := fun k n => rowElem (peek bs (32 * w * n) (32 * w)) w k
    scale := fun n q => peek bs (8192 * w + 8 * n + q) 1
    nz := fun _ _ => 0
    ix := fun _ _ => 0 }

/-- A two-four tile. Where both indices of a group are equal, the element is a free value (log entry 20). -/
def viewTwoFour (free : Nat → Nat) (w : Nat) (bs : List Byte) : TileView :=
  let nz (n i : Nat) : Nat := rowElem (peek bs (16 * w * n) (16 * w)) w i
  let ix (n i : Nat) : Nat := field (peek bs (4096 * w + 32 * n) 32) (4 * (i / 2) + 2 * (i % 2)) 2
  { elem := fun k n =>
      let g := k / 4
      let a := ix n (2 * g) == k % 4
      let b := ix n (2 * g + 1) == k % 4
      if a && b then free (256 * n + k) % 2 ^ w
      else if a then nz n (2 * g) else if b then nz n (2 * g + 1) else 0
    scale := fun n q => peek bs (4096 * w + 8192 + 8 * n + q) 1
    nz := nz
    ix := ix }

def viewTile (free : Nat → Nat) (h : TileHeader) (bs : List Byte) : TileView :=
  let w := elemWidth h.elem
  match h.kind with
  | 0 => viewBlock h w bs
  | 1 => viewDense w bs
  | _ => viewTwoFour free w bs

/-! ### TILE_BSE (R203) and TILE_IMAGE (R204) -/

/-- One block row of the block-sparse form: a stored block's own scales, or the dense tile's. -/
def bseBlockRow (h : TileHeader) (bs : List Byte) (v : TileView) (b : Nat) : List Byte :=
  let w := elemWidth h.elem
  let elems := (List.range 256).map (fun x => v.elem (16 * (b % 16) + x % 16) (16 * (b / 16) + x / 16))
  let scales := (List.range 16).map (fun i =>
    if h.kind = 0 then peek bs (storedAt h.bitmap b * (32 * w + 16) + 32 * w + i) 1 else v.scale (16 * (b / 16) + i) (b % 16 / 2))
  leBytes 512 (pack w elems + 2 ^ (8 * 496) * pack 8 scales)

/-- The blocks whose rows the block-sparse form holds. -/
def bseBlocks (h : TileHeader) : List Nat := if h.kind = 0 then h.blocks else List.range 256

/-- Stationary sets of a tile per MODE (R204). -/
def setsPerTile (mode : Nat) : Nat := if mode = 1 then 4 else 2

/-- Image rows of one set: 64 in S2, which is half a set. -/
def rowsPerSet (mode : Nat) : Nat := if mode = 4 then 64 else 128

/-- Image row r of set j (R105, R133, R204). -/
def tileImageRow (v : TileView) (w mode j r : Nat) : List Byte :=
  let n0 := if mode = 1 then 128 * (j / 2) else 128 * j
  let k0 := if mode = 1 then 128 * (j % 2) else 0
  let col (c : Nat) : List Nat :=
    match mode with
    | 1 => [v.elem (k0 + r) (n0 + c)]
    | 2 => [v.elem (2 * r) (n0 + c), v.elem (2 * r + 1) (n0 + c)]
    | 3 => [v.nz (n0 + c) r]
    | _ => [v.nz (n0 + c) (2 * r), v.nz (n0 + c) (2 * r + 1)]
  let q :=
    match mode with
    | 1 => (k0 + r) / 32
    | 2 => 2 * r / 32
    | 3 => 4 * (r / 2) / 32
    | _ => 4 * r / 32
  let elems := (List.range 128).flatMap col
  let scales := (List.range 128).map (fun c => v.scale (n0 + c) q)
  let metas := if mode = 3 then (List.range 128).map (fun c => v.ix (n0 + c) r)
    else if mode = 4 then (List.range 128).flatMap (fun c => [v.ix (n0 + c) (2 * r), v.ix (n0 + c) (2 * r + 1)])
    else []
  leBytes 512 (pack w elems + 2 ^ (8 * 256) * pack 8 scales + 2 ^ (8 * 384) * pack 2 metas)

/-- The bytes of an image row that R105 and R133 state. -/
def imageKnown (w mode : Nat) : List (Nat × Nat) :=
  [(0, 16 * w * perPe mode), (256, 384)] ++ (if mode = 3 then [(384, 416)] else if mode = 4 then [(384, 448)] else [])

/-! ### TILE_PACK (R130, R205) -/

/-- An element that encodes +0 or -0 (R129). -/
def elemZero (fmt bits : Nat) : Bool :=
  match Fmt.ofA fmt with
  | some f => (match f.decode bits with
    | .fin m _ => m == 0
    | _ => false)
  | none => false

/-- A block is zero (R129). -/
def blockZero (fmt : Nat) (v : TileView) (b : Nat) : Bool :=
  (List.range 256).all (fun x => elemZero fmt (v.elem (16 * (b % 16) + x % 16) (16 * (b / 16) + x / 16)))
    && (List.range 16).all (fun i => v.scale (16 * (b / 16) + i) (b % 16 / 2) != 0xFF)

/-- The K offsets in a group that hold non-zero elements. -/
def groupNonzero (fmt : Nat) (v : TileView) (n g : Nat) : List Nat :=
  (List.range 4).filter (fun i => !elemZero fmt (v.elem (4 * g + i) n))

/-- Every group of four in every column holds at most two non-zero elements (R130). -/
def twoFourFits (fmt : Nat) (v : TileView) : Bool :=
  (List.range 256).all (fun n => (List.range 64).all (fun g => decide ((groupNonzero fmt v n g).length ≤ 2)))

/-- The two indices that a writer stores for a group: the non-zero ones, then the lowest unused, smaller first (R130). -/
def groupIndices (fmt : Nat) (v : TileView) (n g : Nat) : List Nat :=
  let nz := groupNonzero fmt v n g
  let fill := ((List.range 4).filter (fun i => !nz.contains i)).take (2 - nz.length)
  (List.range 4).filter (fun i => nz.contains i || fill.contains i)

def scaleBytes (v : TileView) : List Byte :=
  (List.range 256).flatMap (fun n => (List.range 8).map (fun q => BitVec.ofNat 8 (v.scale n q)))

/-- The two-four payload (R128). -/
def twoFourBytes (fmt : Nat) (v : TileView) : List Byte :=
  let w := elemWidth fmt
  let cols := (List.range 256).map (fun n => (List.range 64).flatMap (fun g =>
    (groupIndices fmt v n g).map (fun i => (v.elem (4 * g + i) n, i))))
  cols.flatMap (fun c => leBytes (16 * w) (pack w (c.map (·.1)))) ++ cols.flatMap (fun c => leBytes 32 (pack 2 (c.map (·.2))))
    ++ scaleBytes v

/-- One stored block (R128). -/
def blockPayload (fmt : Nat) (v : TileView) (b : Nat) : List Byte :=
  let w := elemWidth fmt
  leBytes (32 * w) (pack w ((List.range 256).map (fun x => v.elem (16 * (b % 16) + x % 16) (16 * (b / 16) + x / 16))))
    ++ (List.range 16).map (fun i => BitVec.ofNat 8 (v.scale (16 * (b / 16) + i) (b % 16 / 2)))

def allBlocks : Nat := 2 ^ 256 - 1

/-- The header and payload that a writer of matrix tiles stores for a dense payload (R130). An all-zero tile is block, with NNZ 0, unless
its tensor is structured, where the order of R130 gives two-four (R205, R218). DEDUCED: log entry 159. -/
def packTile (fmt : Nat) (struct : Bool) (dense : List Byte) : List Byte :=
  let v := viewDense (elemWidth fmt) dense
  if struct && twoFourFits fmt v then headerBytes fmt 2 256 (twoFourPayload fmt) allBlocks ++ twoFourBytes fmt v
  else
    let stored := (List.range 256).filter (fun b => !blockZero fmt v b)
    let n := stored.length
    if n * blockBytes fmt < densePayload fmt then
      headerBytes fmt 0 n (n * blockBytes fmt) (stored.foldl (fun m b => m + 2 ^ b) 0) ++ stored.flatMap (blockPayload fmt v)
    else headerBytes fmt 1 256 (densePayload fmt) allBlocks ++ dense.take (densePayload fmt)

/-! ### Headers as they arrive (R206) -/

/-- Whether a transform accepts a kind (R203, R204). -/
def kindOk (xform mode kind : Nat) : Bool :=
  if xform = 5 then decide (kind ≤ 1)
  else if mode = 3 || mode = 4 then kind == 2
  else decide (kind ≤ 2)

/-- The header check of R206. -/
def tileHeaderOk (xform mode fmt : Nat) (h : TileHeader) : Bool :=
  h.format == 2 && decide (h.elem ≤ 5) && decide (h.kind ≤ 2) && h.elem == fmt && h.blocks.length == h.nnz
    && h.payload == payloadOf h.elem h.kind h.nnz && kindOk xform mode h.kind

end Sys2Proof.Machine
end

