-- ==== Sys2Proof/Machine/Vector.lean ====
section
/-!
DEFINITION. The vector unit: lane arithmetic, function evaluators, micro-ops, streams and its commands (R151 to R168).
-/

namespace Sys2Proof.Machine

/-! ### FP32 lane arithmetic (R154, R155, R158) -/

def fpNan : Nat := 0x7FC00000
def fpInf (neg : Bool) : Nat := infBits .fp32 neg
def isNan32 (w : Nat) : Bool := fp32 w == .nan

/-- The place of an FP32 number in the order of R155: +0 is greater than -0. -/
def fpKey (w : Nat) : Int := if bitAt w 31 then -(w - 2 ^ 31 : Nat) - 1 else w

def fpMax (a b : Nat) : Nat := if isNan32 a || isNan32 b then fpNan else if fpKey a < fpKey b then b else a
def fpMin (a b : Nat) : Nat := if isNan32 a || isNan32 b then fpNan else if fpKey a < fpKey b then a else b

def fpAdd (a b : Nat) : Nat := toFp32 ((fp32 a).add (fp32 b))
def fpMul (a b : Nat) : Nat := toFp32 ((fp32 a).mul (fp32 b))
def fpNeg (a : Nat) : Nat := if bitAt a 31 then a - 2 ^ 31 else a + 2 ^ 31
def fpAbs (a : Nat) : Nat := a % 2 ^ 31
def fpFma (a b c : Nat) : Nat := toFp32 (((fp32 a).mul (fp32 b)).add (fp32 c))

/-- 1/x correctly rounded (R158). -/
def fpRcp (w : Nat) : Nat :=
  match fp32 w with
  | .nan => fpNan
  | .inf neg => signBit .fp32 neg
  | .fin m e =>
    if m = 0 then fpInf (bitAt w 31)
    else (roundFrac .fp32 .rne 0 (bitAt w 31) (2 ^ (-e).toNat) (m.natAbs * 2 ^ e.toNat)).1

/-- A function micro-op, OP 0x10 to 0x16: the special inputs of R158 and the evaluator otherwise. -/
def fpFunction (op w : Nat) : Nat :=
  let neg := bitAt w 31
  let zero := fpAbs w == 0
  let eval := evaluate op w
  match fp32 w with
  | .nan => fpNan
  | .inf _ =>
    match op with
    | 0x10 => if neg then 0 else fpInf false
    | 0x11 => if neg then 0 else fpInf false
    | 0x12 => if neg then fpNan else fpInf false
    | 0x13 => fpRcp w
    | 0x14 => if neg then fpNan else 0
    | 0x15 => if neg then 0 else 0x3F800000
    | _ => if neg then 0xBF800000 else 0x3F800000
  | .fin _ _ =>
    match op with
    | 0x10 => if !neg && decide (0x43000000 ≤ w) then fpInf false else eval
    | 0x11 => if !neg && decide (0x42B17218 ≤ w) then fpInf false else eval
    | 0x12 => if zero then fpInf true else if neg then fpNan else eval
    | 0x13 => fpRcp w
    | 0x14 => if zero then fpInf neg else if neg then fpNan else eval
    | _ => eval

/-! ### Micro-ops (R161) -/

def uOp (w : Nat) : Nat := field w 0 6
def uDst (w : Nat) : Nat := field w 6 3
def uSrc (w i : Nat) : Nat := field w (9 + 5 * i) 5

/-- How many sources an OP reads, or none for a reserved micro-op. -/
def uSources (op : Nat) : Option Nat :=
  match op with
  | 0x01 => some 2 | 0x02 => some 2 | 0x03 => some 2 | 0x04 => some 3 | 0x05 => some 2 | 0x06 => some 2
  | 0x07 => some 1 | 0x08 => some 1 | 0x09 => some 3
  | 0x10 => some 1 | 0x11 => some 1 | 0x12 => some 1 | 0x13 => some 1 | 0x14 => some 1 | 0x15 => some 1 | 0x16 => some 1
  | 0x20 => some 1 | 0x21 => some 1 | 0x22 => some 1 | 0x23 => some 1
  | _ => none

def uSrcOk (c : Nat) : Bool := decide (c ≤ 0x0B) || decide (0x10 ≤ c)

/-- A micro-op with no reserved code, source or bit. The source fields that an OP does not read may hold anything (log entry 15). -/
def uOk (w : Nat) : Bool :=
  field w 24 8 == 0 && match uSources (uOp w) with
    | none => false
    | some n => (List.range n).all (fun i => uSrcOk (uSrc w i))

def uReads (w code : Nat) : Bool := (List.range ((uSources (uOp w)).getD 0)).any (fun i => uSrc w i == code)

/-- What one lane takes in and gives out in a group. -/
structure LaneIn where
  a : Nat
  b : Nat
  p : Nat
  q : Nat

structure LaneOut where
  regs : List Nat
  y : Nat
  sum : Nat
  mx : Nat
  col : Nat
  deriving Repr

def laneSource (consts : List Word) (x : LaneIn) (regs : List Nat) (c : Nat) : Nat :=
  if c < 8 then getAt regs c
  else if c = 8 then x.a else if c = 9 then x.b else if c = 0xA then x.p else if c = 0xB then x.q
  else ((consts[c - 0x10]?).getD 0).toNat

/-- The result of an arithmetic or function micro-op. -/
def uResult (op s1 s2 s3 : Nat) : Nat :=
  match op with
  | 0x01 => fpAdd s1 s2
  | 0x02 => fpAdd s1 (fpNeg s2)
  | 0x03 => fpMul s1 s2
  | 0x04 => fpFma s1 s2 s3
  | 0x05 => fpMin s1 s2
  | 0x06 => fpMax s1 s2
  | 0x07 => fpAbs s1
  | 0x08 => fpNeg s1
  | 0x09 => if (fp32 s1).pos then s2 else s3
  | _ => fpFunction op s1

/-- One micro-op on one lane. -/
def laneStep (consts : List Word) (x : LaneIn) (o : LaneOut) (w : Nat) : LaneOut :=
  let s (i : Nat) := laneSource consts x o.regs (uSrc w i)
  match uOp w with
  | 0x20 => { o with y := s 0 }
  | 0x21 => { o with sum := s 0 }
  | 0x22 => { o with mx := s 0 }
  | 0x23 => { o with col := s 0 }
  | op => { o with regs := setAt o.regs (uDst w) (uResult op (s 0) (s 1) (s 2)) }

def laneRun (ops : List Nat) (consts : List Word) (regs : List Nat) (x : LaneIn) : LaneOut :=
  ops.foldl (laneStep consts x) { regs := regs, y := 0, sum := 0, mx := 0, col := 0 }

/-! ### Streams (R151, R153) -/

def VStream.rowOf (x : VStream) (v g : Nat) : Nat := x.row + v * x.vstride + g * x.gstride

/-- Element i of a row as FP32: the conversion is exact and keeps the sign of a zero; a value beyond FP32 becomes infinite (R48,
R154; log entry 16). -/
def elem32 (f : Fmt) (row i : Nat) : Nat :=
  let w := toFp32 (rowVal f row i)
  if w = 0 && f != .mxint8 then signBit .fp32 (bitAt (rowElem row f.width i) (f.width - 1)) else w

/-- The 256 FP32 values of a group of an input stream. -/
def State.groupIn (s : State) (t : Nat) (st : Option VStream) (v g : Nat) : List Nat :=
  match st with
  | none => List.replicate 256 0
  | some x =>
    match Fmt.ofOut x.fmt with
    | none => List.replicate 256 0
    | some .fp32 => (List.range 256).map (fun e => s.fp32At t (x.rowOf v g) e)
    | some f =>
      let row := s.rowNat t (x.rowOf v g)
      (List.range 256).map (fun e => elem32 f row e)

/-- The P and Q values of a vector. -/
def State.pairIn (s : State) (t : Nat) (st : Option VStream) (v : Nat) : Nat × Nat :=
  match st with
  | none => (0, 0)
  | some x =>
    let row := s.rowNat t (x.row + v / 64)
    (rowElem row 32 (2 * (v % 64)), rowElem row 32 (2 * (v % 64) + 1))

/-- Bytes of a row that the manual leaves open: free values. -/
def State.drawBytes (s : State) : Nat → List Byte × State
  | 0 => ([], s)
  | n + 1 =>
    let x := s.draw
    let y := State.drawBytes x.2 n
    (x.1.setWidth 8 :: y.1, y.2)

/-- Writes FP32 pairs, 64 to a row; what a last row holds beyond its pairs is open (log entry 17). -/
def State.setPairs (s : State) (t row : Nat) (l : List (Nat × Nat)) : State :=
  let bytes := l.flatMap (fun x => leBytes 4 x.1 ++ leBytes 4 x.2)
  let pad := s.drawBytes ((512 - bytes.length % 512) % 512)
  let all := bytes ++ pad.1
  pad.2.forEach (List.range (all.length / 512)) (fun s i => s.setSpadRow t (row + i) ((all.drop (512 * i)).take 512))

/-! ### Commands (R159, R167) -/

def State.vuCurrent (s : State) (t op : Nat) : Option Active := s.runnable t 2 op (fun _ => true)

def execVprog (t : TileId) (ecc : RowEcc) (s : State) : Host.Outcome State Fault Refusal :=
  let n := t.toNat
  .next (match s.vuCurrent n 1 with
    | none => s
    | some a =>
      if a.cmd.w0Ok && a.cmd.f1 13 19 == 0 && a.cmd.w2 == 0 && a.cmd.w3 == 0 then
        s.reading n 2 a.seq ecc (fun s =>
          let row := s.rowNat n (a.cmd.f1 0 13)
          let ws := (unpack 32 128 row).map wordOf
          ((s.modTile n (fun y => { y with vu := { y.vu with prog := ws.take 112, consts := ws.drop 112 } })).bumpHeld (tilReg n 0xCC)).finish
            n 2 a.seq)
      else s.raiseEngine n 2 0x0140 0)

/-- VSTRM's checks: SEL, the format code that the stream takes, reserved bits, and no record format for P (R159, R167). -/
def vstrmFault (c : Command) : Option Nat :=
  let sel := c.f1 0 3
  let fmt := c.f1 16 4
  let fmtOk := match sel with
    | 0 => decide (fmt ≤ 8)
    | 1 => decide (fmt ≤ 8)
    | 2 => outFmtOk fmt
    | _ => decide (fmt ≤ 1)
  firstFault [
    (!(c.w0Ok && c.f1 20 12 == 0 && c.f2 26 6 == 0 && c.w3 == 0 && decide (sel ≤ 4) && fmtOk), 0x0140),
    (sel == 3 && fmt == 1, 0x0144)]

def VectorUnit.setStream (x : VectorUnit) (sel : Nat) (v : VStream) : VectorUnit :=
  match sel with
  | 0 => { x with a := some v }
  | 1 => { x with b := some v }
  | 2 => { x with y := some v }
  | 3 => { x with p := some v }
  | _ => { x with s := some v }

def execVstrm (t : TileId) (s : State) : Host.Outcome State Fault Refusal :=
  let n := t.toNat
  .next (match s.vuCurrent n 2 with
    | none => s
    | some a =>
      match vstrmFault a.cmd with
      | some code => s.raiseEngine n 2 code 0
      | none =>
        let v : VStream := { row := a.cmd.f1 3 13, fmt := a.cmd.f1 16 4, gstride := a.cmd.f2 0 13, vstride := a.cmd.f2 13 13 }
        (s.modTile n (fun y => { y with vu := y.vu.setStream (a.cmd.f1 0 3) v })).finish n 2 a.seq)

def execVsetout (t : TileId) (s : State) : Host.Outcome State Fault Refusal :=
  let n := t.toNat
  .next (match s.vuCurrent n 3 with
    | none => s
    | some a =>
      if a.cmd.w0Ok && a.cmd.f3 24 8 == 0 then
        (s.modTile n (fun y => { y with vu := { y.vu with out := a.cmd.outSel } })).finish n 2 a.seq
      else s.raiseEngine n 2 0x0140 0)

/-- The fields of VRUN (R159). -/
structure VrunCmd where
  pc : Nat
  len : Nat
  v : Nat
  gpv : Nat
  rnd : Nat
  caccClr : Bool
  last : Nat
  crest : Int

def Command.vrun (c : Command) : VrunCmd :=
  { pc := c.f1 0 7, len := c.f1 7 5 + 1, v := c.f1 12 13 + 1, gpv := c.f1 25 6 + 1, rnd := c.f2 0 2,
    caccClr := bitAt c.w2.toNat 2, last := c.f2 3 8 + 1, crest := toSigned 10 (c.f2 11 10) }

/-- The executed micro-ops: those that no VPROG has loaded are 0 (log entry 134). -/
def VectorUnit.ops (x : VectorUnit) (r : VrunCmd) : List Nat :=
  (((x.prog ++ List.replicate (112 - x.prog.length) 0).drop r.pc).take r.len).map (fun w : Word => w.toNat)

def countOp (ops : List Nat) (op : Nat) : Nat := ops.countP (fun w => uOp w == op)

/-- The rows of a stream used by a run lie within the scratchpad (R167). -/
def streamFits (st : Option VStream) (used : Bool) (v gpv rows : Nat) : Bool :=
  match st with
  | none => true
  | some x => !used || rowsFit (x.rowOf (v - 1) (gpv - 1)) rows

/-- VRUN's checks, the lowest fault code first (R167). A configured stream that no executed micro-op uses is not checked. DEDUCED: log
entry 150. -/
def vrunFault (x : VectorUnit) (c : Command) : Option Nat :=
  let r := c.vrun
  let ops := x.ops r
  let reads (code : Nat) := ops.any (fun w => uReads w code)
  let a := reads 8
  let b := reads 9
  let pq := reads 0xA || reads 0xB
  let y := countOp ops 0x20 != 0
  let sOut := countOp ops 0x21 != 0 || countOp ops 0x22 != 0
  let rowsOf (st : Option VStream) := rowsFor ((st.map (·.fmt)).getD 0) 256
  let sRows := if (x.s.map (·.fmt)).getD 0 = 0 then (r.v - 1) / 64 + 1 else (r.v - 1) / 4 + 1
  firstFault [
    (!(c.w0Ok && c.f1 31 1 == 0 && c.f2 21 11 == 0 && c.w3 == 0 && r.rnd != 3 && ops.all uOk), 0x0140),
    (!(streamFits x.a a r.v r.gpv (rowsOf x.a) && streamFits x.b b r.v r.gpv (rowsOf x.b)
        && streamFits x.y y r.v r.gpv (rowsOf x.y)
        && (!pq || rowsFit ((x.p.map (·.row)).getD 0) ((r.v - 1) / 64 + 1))
        && (!sOut || rowsFit ((x.s.map (·.row)).getD 0) sRows)), 0x0141),
    (decide (112 < r.pc + r.len), 0x0142),
    ([0x20, 0x21, 0x22, 0x23].any (fun op => decide (1 < countOp ops op)), 0x0143),
    ((a && x.a.isNone) || (b && x.b.isNone) || (pq && x.p.isNone) || (y && x.y.isNone) || (sOut && x.s.isNone), 0x0144)]

/-- A run between groups: the state, what the rows that the run has written held before each write, the lane registers, the
vector's sum and maximum, and the tally. -/
structure VrunState where
  s : State
  old : List (Nat × List Byte)
  regs : List (List Nat)
  sum : Acc
  mx : Option Nat
  tally : Tally

/-- The rows that a group reads from a stream. -/
def VStream.reads (st : Option VStream) (v g : Nat) : List Nat :=
  match st with
  | none => []
  | some x => (List.range (rowsFor x.fmt 256)).map (x.rowOf v g + ·)

/-- The scratchpad as a group reads rows of it. A row that the run has written before gives what it held before that write or after it,
by a free choice, since the result depends on timing (R163; log entry 79). -/
def State.viewRows (s : State) (t : Nat) (old : List (Nat × List Byte)) (reads : List Nat) : State × State :=
  (old.filter (fun e => reads.contains e.1)).foldl (fun (x : State × State) e =>
    let d := x.2.draw
    (if d.1.getLsbD 0 then x.1.setSpadRow t e.1 e.2 else x.1, d.2)) (s, s)

/-- One group (R154 to R157) of a vector whose P and Q are given: all its rows are read, then its Y rows are written (R163). -/
def VrunState.group (t : Nat) (r : VrunCmd) (ops : List Nat) (pq : Nat × Nat) (k : VrunState) (v g : Nat) : VrunState :=
  let x := (k.s.tile t).vu
  let valid := if g + 1 = r.gpv then r.last else 256
  let seen := k.s.viewRows t k.old (VStream.reads x.a v g ++ VStream.reads x.b v g)
  let k := { k with s := seen.2 }
  let a := seen.1.groupIn t x.a v g
  let b := seen.1.groupIn t x.b v g
  let outs := k.regs.zipIdx.map (fun l => laneRun ops x.consts l.1
    { a := getAt a l.2, b := getAt b l.2, p := pq.1, q := pq.2 })
  let live := outs.take valid
  let sum := if countOp ops 0x21 = 0 then k.sum else live.foldl (fun acc o => acc.add (fp32 o.sum)) k.sum
  let mx := if countOp ops 0x22 = 0 then k.mx
    else live.foldl (fun m o => some (match m with
      | none => if isNan32 o.mx then fpNan else o.mx
      | some z => fpMax z o.mx)) k.mx
  let cacc := if countOp ops 0x23 = 0 then x.cacc
    else live.zipIdx.foldl (fun c o => Table.put Acc.zero c o.2 ((Table.get Acc.zero c o.2).add (fp32 o.1.col))) x.cacc
  let s := k.s.modTile t (fun y => { y with vu := { y.vu with cacc := cacc } })
  let k := { k with regs := outs.map LaneOut.regs, sum := sum, mx := mx }
  match x.y with
  | none => { k with s := s }
  | some st =>
    if countOp ops 0x20 = 0 then { k with s := s }
    else
      let el := outs.zipIdx.map (fun o =>
        if o.2 < valid then
          ({ d := .of (fp32 o.1.y), r := k.s.srOf t x.out (x.out.index v (256 * g + o.2)) } : OutElem)
        else { d := .of .zero, r := 0 })
      let w := encodeRows st.fmt (Rnd.ofCode r.rnd) r.crest el
      let rows := (List.range w.1.length).map (st.rowOf v g + ·)
      { k with s := s.setRows t (st.rowOf v g) w.1, old := k.old ++ rows.map (fun i => (i, s.spadRow t i)), tally := k.tally.join w.2 }

/-- Kind of an FP32 result. -/
def kind32 (w : Nat) : Kind :=
  match fp32 w with
  | .nan => .nan
  | .inf _ => .inf
  | _ => .finite

/-- The RSUM and RMAX results of a vector. One that the run did not form is a free value (log entry 17). -/
def State.sumResult (s : State) (ops : List Nat) (sum : Acc) : Acc × State :=
  if countOp ops 0x21 = 0 then
    let d := s.drawBytes 96
    (Acc.ofSpill d.1, d.2)
  else (sum, s)

def State.maxResult (s : State) (mx : Option Nat) : Nat × State :=
  match mx with
  | some m => (m, s)
  | none => (s.draw.1.toNat, s.draw.2)

/-- Puts entry v of stream S, the rows divided into entries of its length. What the rest of a row holds when its first entry is written
is free (log entry 17). -/
def State.putEntry (s : State) (t row v : Nat) (bytes : List Byte) : State :=
  let n := bytes.length
  let at_ := row + v / (512 / n)
  let i := v % (512 / n)
  if i = 0 then
    let rest := s.drawBytes (512 - n)
    rest.2.setSpadRow t at_ (bytes ++ rest.1)
  else s.setSpadRow t at_ ((s.spadRow t at_).take (n * i) ++ bytes ++ (s.spadRow t at_).drop (n * (i + 1)))

/-- The end of a vector: its results go to S in the stream's format, and those that are not finite count (R153, R155, R157). -/
def VrunState.endVector (t : Nat) (ops : List Nat) (k : VrunState) (v : Nat) : VrunState :=
  if countOp ops 0x21 = 0 && countOp ops 0x22 = 0 then k
  else match (k.s.tile t).vu.s with
    | none => k
    | some st =>
      let a := k.s.sumResult ops k.sum
      let b := a.2.maxResult k.mx
      let sum := roundVal .fp32 .rne 0 a.1.value
      let pairs := decide (st.fmt = 0)
      let kinds := (if countOp ops 0x21 = 0 || !pairs then [] else [sum.2]) ++ if countOp ops 0x22 = 0 then [] else [kind32 b.1]
      let bytes := if pairs then leBytes 4 sum.1 ++ leBytes 4 b.1 else a.1.spill ++ leBytes 32 b.1
      let row := st.row + v / (512 / bytes.length)
      { k with s := b.2.putEntry t st.row v bytes, old := k.old ++ [(row, k.s.spadRow t row)], tally := k.tally.join (Tally.ofKinds kinds) }

/-- One vector: its P and Q once, its groups in order, then what it hands to S (R153). -/
def VrunState.vector (t : Nat) (r : VrunCmd) (ops : List Nat) (k : VrunState) (v : Nat) : VrunState :=
  let x := (k.s.tile t).vu
  let seen := k.s.viewRows t k.old (x.p.map (fun p => p.row + v / 64)).toList
  let pq := seen.1.pairIn t x.p v
  ((List.range r.gpv).foldl (fun k g => VrunState.group t r ops pq k v g) { k with s := seen.2, sum := Acc.zero, mx := none }).endVector t ops v

def vuRegs (t : Nat) : OutRegs := { nonfin := tilReg t 0xE0, xrSts := tilReg t 0xD0, under := tilReg t 0xD8 }

/-- VU_XR_STS and VU_XR_UNDER count from the start of a command with XR output (R166). -/
def State.clearVuXr (s : State) (t : Nat) : State := (s.setReg (tilReg t 0xD0) 0).setReg64 (tilReg t 0xD8) 0

/-- A VRUN's effect. -/
def State.runVrun (s : State) (t seq : Nat) (c : Command) : State :=
  let x := (s.tile t).vu
  let r := c.vrun
  let ops := x.ops r
  let xr := countOp ops 0x20 != 0 && (x.y.map (·.fmt)) == some outXr
  let s := if xr then s.clearVuXr t else s
  let s := if r.caccClr then s.modTile t (fun y => { y with vu := { y.vu with cacc := [] } }) else s
  let k := (List.range r.v).foldl (VrunState.vector t r ops)
    { s := s, old := [], regs := List.replicate 256 (List.replicate 8 0), sum := Acc.zero, mx := none, tally := Tally.zero }
  let s := (k.s.bump64 (tilReg t 0xC4) (r.v * r.gpv)).bumpHeld (tilReg t 0xCC)
  (s.book t 2 (vuRegs t) xr x.out.tensor k.tally).finish t 2 seq

def execVrun (t : TileId) (ecc : RowEcc) (s : State) : Host.Outcome State Fault Refusal :=
  let n := t.toNat
  .next (match s.vuCurrent n 4 with
    | none => s
    | some a =>
      match vrunFault (s.tile n).vu a.cmd with
      | some code => s.raiseEngine n 2 code 0
      | none => s.reading n 2 a.seq ecc (fun s => s.runVrun n a.seq a.cmd))

/-- VCOMB's checks (R159, R167). More than 4 096 vectors raise 0x0140. DEDUCED: log entry 140. -/
def vcombFault (c : Command) : Option Nat :=
  let n := c.f1 13 5 + 1
  let v := c.f1 18 13 + 1
  firstFault [
    (!(c.w0Ok && c.f1 31 1 == 0 && c.f2 13 19 == 0 && c.w3 == 0 && decide (v ≤ 4096)), 0x0140),
    (!(rowsFit (c.f1 0 13) ((n * v + 3) / 4) && rowsFit (c.f2 0 13) ((v + 63) / 64)), 0x0141)]

/-- Record i of a run of records, 4 to a row (R160). -/
def State.record (s : State) (t row i : Nat) : List Byte := ((s.spadRow t (row + i / 4)).drop (128 * (i % 4))).take 128

/-- The combined pair of a vector (R160). -/
def State.combine (s : State) (t row n vs v : Nat) : (Nat × Kind) × Nat :=
  let recs := (List.range n).map (fun i => s.record t row (i * vs + v))
  let sum := recs.foldl (fun a b => a.join (Acc.ofSpill b)) Acc.zero
  let mxs := recs.map (fun b => peek b 96 4)
  (roundVal .fp32 .rne 0 sum.value, (mxs.drop 1).foldl fpMax (fpMax (getAt mxs 0) (getAt mxs 0)))

def State.runVcomb (s : State) (t seq : Nat) (c : Command) : State :=
  let n := c.f1 13 5 + 1
  let v := c.f1 18 13 + 1
  let o := (List.range v).map (fun i => s.combine t (c.f1 0 13) n v i)
  let s := (s.setPairs t (c.f2 0 13) (o.map (fun x => (x.1.1, x.2)))).bumpHeld (tilReg t 0xCC)
  (s.book t 2 (vuRegs t) false (s.tile t).vu.out.tensor
    (Tally.ofKinds (o.map (·.1.2) ++ o.map (fun x => kind32 x.2)))).finish t 2 seq

def execVcomb (t : TileId) (ecc : RowEcc) (s : State) : Host.Outcome State Fault Refusal :=
  let n := t.toNat
  .next (match s.vuCurrent n 5 with
    | none => s
    | some a =>
      match vcombFault a.cmd with
      | some code => s.raiseEngine n 2 code 0
      | none => s.reading n 2 a.seq ecc (fun s => s.runVcomb n a.seq a.cmd))

/-- VFLUSH's checks (R159, R167). -/
def vflushFault (c : Command) : Option Nat :=
  let fmt := c.f1 13 4
  firstFault [
    (!(c.w0Ok && c.f1 28 4 == 0 && c.w2 == 0 && c.w3 == 0 && outFmtOk fmt), 0x0140),
    (!rowsFit (c.f1 0 13) (rowsFor fmt 256), 0x0141)]

/-- VFLUSH writes the 256 column entries as one group, rounded by RNE (R156). -/
def State.runVflush (s : State) (t seq : Nat) (c : Command) : State :=
  let x := (s.tile t).vu
  let fmt := c.f1 13 4
  let s := if fmt = outXr then s.clearVuXr t else s
  let el := (List.range 256).map (fun e => ({ d := .of (Table.get Acc.zero x.cacc e).value, r := 0 } : OutElem))
  let w := encodeRows fmt .rne (toSigned 10 (c.f1 17 10)) el
  let s := (s.setRows t (c.f1 0 13) w.1).bumpHeld (tilReg t 0xCC)
  let s := if bitAt c.w1.toNat 27 then s.modTile t (fun y => { y with vu := { y.vu with cacc := [] } }) else s
  (s.book t 2 (vuRegs t) (fmt == outXr) x.out.tensor w.2).finish t 2 seq

def execVflush (t : TileId) (s : State) : Host.Outcome State Fault Refusal :=
  let n := t.toNat
  .next (match s.vuCurrent n 6 with
    | none => s
    | some a =>
      match vflushFault a.cmd with
      | some code => s.raiseEngine n 2 code 0
      | none => s.runVflush n a.seq a.cmd)

end Sys2Proof.Machine
end

