-- ==== Sys2Proof/Machine/Conservator.lean ====
section
/-!
DEFINITION. The conservators: descriptors, the update rule, compute copies, holds and carries (R307 to R322).
-/

namespace Sys2Proof.Machine

/-! ### Descriptors (R307, R315) -/

/-- A descriptor: its entry, its first row and its count of rows. -/
structure UpdDesc where
  entry : Nat
  first : Nat
  rows : Nat
  deriving DecidableEq, Repr

def Catalogue.find (c : Catalogue) (id : Word) : Option Tensor := c.tensors.find? (fun t => t.id == id)

/-- The conservator of an entry: beside the stack that holds the first byte of its master tensor. -/
def State.entryStack (s : State) (p : Nat) (u : Update) : Option Nat :=
  match (s.pld p).cat.find u.master with
  | none => none
  | some t =>
    match s.translate 0 p t.va true with
    | .at_ x => some x.dev
    | .fault _ => none

/-- The descriptors of an entry in ascending row order. -/
def Update.descs (u : Update) (entry : Nat) : List UpdDesc :=
  let size := min 256 (1048576 / u.cols)
  (List.range ((u.rows + size - 1) / size)).map (fun i => { entry := entry, first := i * size, rows := min size (u.rows - i * size) })

/-- The descriptors of a polder at a conservator, in the order of the catalogue. -/
def State.cnsDescs (s : State) (n p : Nat) : List UpdDesc :=
  ((s.pld p).cat.updates.zipIdx).flatMap (fun e => if s.entryStack p e.1 = some n then e.1.descs e.2 else [])

/-- The next descriptor of a slot in the step. -/
def State.nextDesc (s : State) (n p : Nat) : Option UpdDesc := (s.cnsDescs n p)[Table.get 0 (s.cns n).next p]?

def Polder.update (x : Polder) (i : Nat) : Update := (x.cat.updates[i]?).getD default

/-- The curator writes the slots at job start (R321). The list's place in the firmware region is a free value (log entry 6). -/
def State.loadSlots (s : State) (p : Nat) : State :=
  s.forEach (List.range 12) (fun s n =>
    let k := (s.cnsDescs n p).length
    if k = 0 then s
    else
      let w := s.draw
      (w.2.setReg (cnsPage n + 0x100 + 16 * p) w.1).setReg (cnsPage n + 0x104 + 16 * p) (wordOf k))

/-! ### Readiness and start (R316, R317) -/

/-- The verdict apply stands. -/
def Polder.applying (x : Polder) : Bool := x.train.phase == .updating

/-- A slot has a descriptor ready: under apply, or early once its gradient's completion token is there. -/
def State.cnsReady (s : State) (n p : Nat) (early : Bool) : Bool :=
  let x := s.pld p
  x.state == .running && x.cat.kind == 0 && !(s.cns n).stopped.contains p &&
  (match s.nextDesc n p with
   | none => false
   | some d => x.applying ||
       (early && x.train.phase.reduces && x.train.verdict.isNone && x.red.complete.contains (x.update d.entry).grad))

/-! ### Accesses (R174, R186, R307, R320) -/

/-- A run of accesses of a conservator for a polder: whether all have been performed, what the error correction finds in the table
line and in the data of each of those to come (clean where nothing is said), and the state. -/
structure CnsRun where
  ok : Bool
  ecc : List (Ecc × Ecc)
  state : State

def CnsRun.begin (s : State) (ecc : List (Ecc × Ecc)) : CnsRun := { ok := true, ecc := ecc, state := s }

/-- What the error correction finds in the next access. -/
def CnsRun.next (r : CnsRun) : Ecc × Ecc := (r.ecc.head?).getD (.clean, .clean)

/-- A conservator translates an address by its F-die's walker (R174, R307): the target, or none with the fault raised. -/
def State.cnsXl (s : State) (n p va : Nat) (isWrite : Bool) (ecc : Ecc) : Option Target × State :=
  let answer (x : Xl) (s : State) : Option Target × State :=
    match x with
    | .at_ y => (some y, s)
    | .fault code => (none, s.engineFault p 9 n code va)
  match windowOf va with
  | none => answer (.fault 0x0201) s
  | some 2 => answer (s.colTarget p va) s
  | some w =>
    if s.xlCount p w ≤ pageIndex w va then answer (.fault 0x0202) s
    else match s.walk (n / 3) p w (pageIndex w va) ecc 9 n with
      | (none, s) => (none, s.stopCns n p 0x0560)
      | (some e, s) => answer (entryTarget e va isWrite) s

/-- A conservator reads one piece: the walk, the traffic and the window of its target, the bytes of its page, and what the error
correction finds, where an uncorrectable error stops the slot (R185 to R187, R320, R322). -/
def CnsRun.read (r : CnsRun) (n p : Nat) (c : Nat × Nat) : CnsRun :=
  if !r.ok then r
  else match r.state.cnsXl n p c.1 false r.next.1 with
    | (none, s) => { ok := false, ecc := r.ecc.drop 1, state := s }
    | (some x, s) =>
      if !s.routeUp (n / 3) x.die then { ok := false, ecc := r.ecc.drop 1, state := s }
      else
        let s := ((s.engineReads p (n / 3) x c.2).countRead x c.2).bump64 (cnsPage n + 0x04C) c.2
        match r.next.2 with
        | .uncorrectable => { ok := false, ecc := r.ecc.drop 1, state := (s.memLost x p 9 n).stopCns n p x.errorCode }
        | .corrected => { r with ecc := r.ecc.drop 1, state := s.memCorrected x }
        | .clean => { r with ecc := r.ecc.drop 1, state := s }

/-- A conservator reads a range. -/
def CnsRun.readAll (r : CnsRun) (n p va len : Nat) : CnsRun := (kibs va len).foldl (fun r c => r.read n p c) r

/-- The ranges of a named tensor's elements of a descriptor. -/
def CnsRun.readRows (r : CnsRun) (n p : Nat) (id : Word) (u : Update) (d : UpdDesc) (size : Nat) : CnsRun :=
  match (r.state.pld p).cat.find id with
  | some t => r.readAll n p (t.va + size * u.cols * d.first) (size * u.cols * d.rows)
  | none => r

/-- The low words of a count of elements of a gradient tensor, 64 in each unit of 1 KiB (R283, R315). -/
def CnsRun.readElems (r : CnsRun) (n p va first count : Nat) : CnsRun :=
  (List.range ((first + count + 63) / 64 - first / 64)).foldl (fun (r : CnsRun) i =>
    let u := first / 64 + i
    let lo := max first (64 * u)
    r.readAll n p (va + 1024 * (u + 1) + 8 * (lo - 64 * u)) (8 * (min (first + count) (64 * u + 64) - lo))) r

/-- Factored: more than one row (R308). -/
def Update.factored (u : Update) : Bool := u.rows != 1

/-- What a descriptor reads: master, momentum, gradient or factor, R or V, and at the start of its entry or on a resume
C, CARRY and the probe (R315). -/
def CnsRun.readDesc (r : CnsRun) (n p : Nat) (d : UpdDesc) (resume : Bool) : CnsRun :=
  let x := r.state.pld p
  let u := x.update d.entry
  let r := r.readRows n p u.master u d 4
  let r := if isNone u.mom then r else r.readRows n p u.mom u d 2
  let thin := x.red.thins.find? (fun h => h.factor == u.grad)
  let width := thin.elim u.cols (·.r)
  let r := match x.cat.find u.grad with
    | some t => r.readElems n p t.va (width * d.first) (width * d.rows)
    | none => r
  let r := match x.cat.find u.stats with
    | some t =>
      if u.factored then
        let r := r.readAll n p (t.va + 0x40 + 4 * d.first) (4 * d.rows)
        let r := if d.first = 0 then r.readAll n p t.va 64 else r
        if d.first = 0 || resume then r.readAll n p (t.va + 0x40 + 4 * u.rows) (4 * u.cols * if resume then 2 else 1) else r
      else r.readAll n p t.va (64 + 4 * u.cols)
    | none => r
  match thin with
  | some h => if d.first = 0 || resume then (match x.cat.find h.probe with
      | some t => r.readAll n p t.va (2 * u.cols * h.r)
      | none => r) else r
  | none => r

/-- A conservator writes one piece: an accumulate frame is a violation (R284), and a seam out of service carries nothing (R20). -/
def CnsRun.writePiece (r : CnsRun) (n p va : Nat) (bs : List Byte) : CnsRun :=
  if !r.ok then r
  else match r.state.cnsXl n p va true r.next.1 with
    | (none, s) => { ok := false, ecc := r.ecc.drop 1, state := s }
    | (some x, s) =>
      if s.accumulates x then { ok := false, ecc := r.ecc.drop 1, state := (s.showViolation x 0x0151).raiseMaster p 9 n 0x0151 va }
      else if !s.routeUp (n / 3) x.die then { ok := false, ecc := r.ecc.drop 1, state := s }
      else
        let s := ((s.engineWrites p (n / 3) x bs.length).closeMerges x bs.length).landWrite p 9 n va x bs
        { r with ecc := r.ecc.drop 1, state := s.bump64 (cnsPage n + 0x054) bs.length }

/-- A conservator's write for an entry: the watches, the bytes and the count of its page (R319, R320). -/
def CnsRun.write (r : CnsRun) (n p va : Nat) (bs : List Byte) : CnsRun :=
  (kibs va bs.length).foldl (fun r c => r.writePiece n p c.1 ((bs.drop (c.1 - va)).take c.2)) r

def wordsBytes (l : List Word) : List Byte := l.flatMap (fun w => leBytes 4 w.toNat)

/-- The address of CARRY in an entry's stats tensor (R310). -/
def carryVa (t : Tensor) (u : Update) : Nat := t.va + 0x40 + 4 * u.rows + 4 * u.cols

/-- The frozen flag of an entry's master (R237, R318). -/
def Polder.frozenEntry (x : Polder) (u : Update) : Bool := (x.cat.find u.master).any (fun t => bitAt t.flags 1)

/-- The bytes of a[] that CARRY takes when a conservator leaves an entry for another slot: only a running polder's (R315, R322). -/
def State.carryOf (s : State) (n q e : Nat) : Option (Nat × List Byte) :=
  let u := (s.pld q).update e
  match (s.pld q).cat.find u.stats with
  | some t =>
    if u.factored && !(s.pld q).frozenEntry u && (s.pld q).state == .running && !(s.cns n).stopped.contains q then
      some (carryVa t u, wordsBytes (s.cns n).acc)
    else none
  | none => none

/-- A conservator that leaves an entry for another slot writes a[] to CARRY (R315). -/
def CnsRun.saveCarry (r : CnsRun) (n p : Nat) : CnsRun :=
  match (r.state.cns n).accOf with
  | none => r
  | some (q, e) =>
    if q = p then r
    else
      let w := match r.state.carryOf n q e with
        | some c =>
          let w := r.write n q c.1 c.2
          { w with state := if w.ok then w.state.bump (cnsPage n + 0x05C) 1 else w.state }
        | none => r
      { w with
        ok := r.ok
        state := w.state.modCns n (fun c => { c with acc := [], accOf := none, carried := if w.ok then c.carried ++ [(q, e)] else c.carried }) }

/-- The held work of a slot is given up (R316, R317, R320). -/
def State.yieldHeld (s : State) (n : Nat) : State :=
  if (s.cns n).running.isSome && (s.cns n).holding then
    (s.bump (cnsPage n + 0x060) 1).modCns n (fun c => { c with running := none, holding := false })
  else s

/-- A slot's next descriptor may start: under apply on a conservator that nothing has begun to write on, and before the verdict only
on an idle one and with no other slot ready under apply; in either case in the frame's order (R226, R316, R317). -/
def State.cnsStarts (s : State) (n p : Nat) : Bool :=
  let c := s.cns n
  let first (early : Bool) : Bool := s.chooses (cnsResource n) (fun q => s.cnsReady n q early) == some p
  if s.cnsReady n p false then (c.running.isNone || (c.holding && c.running != some p)) && first false
  else c.running.isNone && s.cnsReady n p true && (List.range 16).all (fun q => !s.cnsReady n q false) && first true

/-- A descriptor starts: the CARRY of the entry that the conservator leaves, and its reads. It then runs, or holds before its first
write until the verdict (R315 to R317). -/
def State.startDesc (s : State) (n p : Nat) (d : UpdDesc) (ecc : List (Ecc × Ecc)) : State :=
  let s := (s.yieldHeld n).useSlot (cnsResource n) p false
  let r := (CnsRun.begin s ecc).saveCarry n p
  let r := r.readDesc n p d ((r.state.cns n).carried.contains (p, d.entry))
  if r.ok then r.state.modCns n (fun c => { c with running := some p, holding := !(r.state.pld p).applying }) else r.state

/-- CONSERVATOR_DESCRIPTOR_START: a slot's next descriptor starts (R316, R317). -/
def execConservatorDescriptorStart (n : Fin 12) (p : Meets PolderId (List (Ecc × Ecc))) (s : State) : Host.Outcome State Fault Refusal :=
  .next (match s.nextDesc n.val p.val.toNat with
    | none => s
    | some d => if s.cnsStarts n.val p.val.toNat then s.startDesc n.val p.val.toNat d p.ecc else s)

/-! ### The update rule (R311 to R313) -/

/-- f: one rounding to FP32 by RNE. -/
def f1 (v : Val) : Val := fp32 (toFp32 v)

/-- f(v / d) for a positive integer. -/
def fDiv (v : Val) (d : Nat) : Val :=
  match v with
  | .fin m e => fp32 (roundFrac .fp32 .rne 0 (decide (m < 0)) (dyNum m e) (dyDen e * d)).1
  | x => x

/-- f(a / b), as IEEE 754 has it for zeros and non-finite values. -/
def fQuot (a b : Val) : Val :=
  match a, b with
  | .fin m e, .fin m' e' =>
    if m' = 0 then if m = 0 then .nan else .inf (decide (m < 0) != decide (m' < 0))
    else fp32 (roundFrac .fp32 .rne 0 (decide (m < 0) != decide (m' < 0)) (dyNum m e * dyDen e') (dyDen e * dyNum m' e')).1
  | .fin _ _, .inf _ => .zero
  | .inf s, .fin m _ => .inf (s != decide (m < 0))
  | _, _ => .nan

def Val.sub (a b : Val) : Val := a.add b.neg
def sumVals (l : List Val) : Val := l.foldl Val.add .zero

/-- RSQRT of R158. -/
def rsqrt (v : Val) : Val := fp32 (fpFunction 0x14 (toFp32 v))

/-- The smaller of two values that are not NaN; a NaN stays. -/
def Val.least (a b : Val) : Val :=
  match a, b with
  | .nan, _ => .nan
  | _, .nan => .nan
  | .inf s, x => if s then .inf s else x
  | x, .inf s => if s then .inf s else x
  | a, b => if (a.sub b).pos then b else a

/-- The numbers of an entry that its rows share. -/
structure EntryCtx where
  n : Nat
  factored : Bool
  clip : Bool
  momentum : Bool
  k : Nat
  lr : Val
  lrd : Val
  beta1 : Val
  b2 : Val
  eps1 : Val
  clipD : Val
  cbar : Val
  c : List Val

/-- The clipping of blocks of 32 (R312). -/
def clipRow (d : Val) (u : List Val) : List Val :=
  (chunks 32 (u.length / 32) u).flatMap (fun b =>
    let h := Val.least .one (f1 (d.mul (rsqrt (fDiv (sumVals (b.map (fun x => x.mul x))) 32))))
    b.map (fun x => f1 (x.mul h)))

/-- f(f(b × old) + f(f(1 - b) × new)). -/
def blend (b old new : Val) : Val := f1 ((f1 (b.mul old)).add (f1 ((f1 (Val.one.sub b)).mul new)))

/-- f(g × g + eps1). -/
def square (x : EntryCtx) (g : Val) : Val := f1 ((g.mul g).add x.eps1)

/-- A row's u[] with its new R or V: R is one value, V one for each column. -/
def rowUpdate (x : EntryCtx) (g stat : List Val) : List Val × List Val :=
  if x.factored then
    let rho := fDiv (sumVals (g.map (fun v => (v.mul v).add x.eps1))) x.n
    let r := blend x.b2 ((stat.head?).getD .zero) rho
    ((g.zip x.c).map (fun e =>
      let v := if x.k = 0 then r else fQuot (f1 (r.mul e.2)) x.cbar
      f1 (e.1.mul (rsqrt v))), [r])
  else
    let vv := (g.zip stat).map (fun e => blend x.b2 e.2 (square x e.1))
    ((g.zip vv).map (fun e => f1 (e.1.mul (rsqrt e.2))), vv)

/-- The BF16 bits of a value by RNE, whose zero keeps the sign of what it rounds (R45, R63). -/
def bf16 (v : Val) : Nat := (roundVal .bf16 .rne 0 v).1

/-- An element's new momentum, as its BF16 bits, and master value. -/
def applyElem (x : EntryCtx) (w m u : Val) : Nat × Val :=
  let m := bf16 (blend x.beta1 m u)
  let d := if x.momentum then Fmt.bf16.decode m else u
  (m, f1 ((f1 (w.sub (f1 (x.lr.mul d)))).sub (f1 (x.lrd.mul w))))

/-- A row: its new R or V, momentum and master. -/
def updateRow (x : EntryCtx) (w m g stat : List Val) : List Val × List Nat × List Val :=
  let r := rowUpdate x g stat
  let u := if x.clip then clipRow x.clipD r.1 else r.1
  let e := (w.zip (m.zip u)).map (fun y => applyElem x y.1 y.2.1 y.2.2)
  (r.2, e.map (·.1), e.map (·.2))

/-! ### Reading an entry's tensors -/

def wordsAt (s : State) (p va count : Nat) : List Val :=
  let b := s.curatorRead p va (4 * count)
  (List.range count).map (fun i => fp32 (peek b (4 * i) 4))

/-- The low word of an element of a gradient tensor, 0 in a unit of an older epoch (R311). -/
def State.gradLow (s : State) (p : Nat) (t : Tensor) (e : Nat) : Int :=
  match s.unitAt p t (1 + e / 64) with
  | some x => ((s.unit p x).l[e % 64]?).getD 0
  | none => 0

/-- Row i of the gradient of an entry (R298, R311). -/
def State.gradRow (s : State) (p : Nat) (u : Update) (i : Nat) : List Val :=
  let x := s.pld p
  match x.cat.find u.grad with
  | none => []
  | some t =>
    let toe := x.crest t - 62
    match x.red.thins.find? (fun h => h.factor == u.grad) with
    | none => (List.range u.cols).map (fun j => f1 (.fin (s.gradLow p t (i * u.cols + j)) toe))
    | some h =>
      let fac := (List.range h.r).map (fun k => s.gradLow p t (i * h.r + k))
      let probe := s.curatorRead p (((x.cat.find h.probe).map (·.va)).getD 0) (2 * u.cols * h.r)
      (List.range u.cols).map (fun j =>
        let sum := fac.zipIdx.foldl (fun (n : Int) e => if bitAt (peek probe (2 * (j * h.r + e.2)) 2) 15 then n - e.1 else n + e.1) 0
        fDiv (.fin sum toe) h.r)

/-- K, and whether the stats tensor has the entry's shape: another one counts as zero (R310). -/
def State.entryK (s : State) (p : Nat) (u : Update) (t : Tensor) : Nat × Bool :=
  let b := s.curatorRead p t.va 12
  let ok := peek b 4 4 == u.rows && peek b 8 4 == u.cols
  (if ok then peek b 0 4 else 0, ok)

/-- The shared numbers of an entry, read from its stats tensor. -/
def State.entryCtx (s : State) (p : Nat) (u : Update) (t : Tensor) : EntryCtx :=
  let k := s.entryK p u t
  let c := if u.factored then
      if k.2 then wordsAt s p (t.va + 0x40 + 4 * u.rows) u.cols else List.replicate u.cols .zero
    else []
  let v (w : Word) : Val := fp32 w.toNat
  { n := u.cols, factored := u.factored, clip := u.clip, momentum := !isNone u.mom, k := k.1
    lr := v u.lr, lrd := v u.lrd, beta1 := v u.beta1, eps1 := v u.eps1, clipD := v u.clipD
    b2 := Val.least (v u.beta2) (f1 (Val.one.sub (fDiv .one (k.1 + 1))))
    cbar := fDiv (sumVals c) u.cols, c := c }

/-- The values that a descriptor computes: per row R or V, momentum and master, and its a[]. -/
structure DescResult where
  stat : List (List Val)
  mom : List (List Nat)
  master : List (List Val)
  acc : List Val

def bits32 (v : Val) : Word := wordOf (toFp32 v)

/-- A descriptor's rows. -/
def State.runRows (s : State) (p : Nat) (u : Update) (d : UpdDesc) (x : EntryCtx) (master mom stats : Tensor) (valid : Bool) (acc : List Val) :
    DescResult :=
  (List.range d.rows).foldl (fun (r : DescResult) i =>
    let i := d.first + i
    let g := s.gradRow p u i
    let w := wordsAt s p (master.va + 4 * u.cols * i) u.cols
    let mb := s.curatorRead p (mom.va + 2 * u.cols * i) (2 * u.cols)
    let m := if x.momentum then (List.range u.cols).map (fun j => Fmt.bf16.decode (peek mb (2 * j) 2)) else List.replicate u.cols .zero
    let old := if u.factored then wordsAt s p (stats.va + 0x40 + 4 * i) 1 else wordsAt s p (stats.va + 0x40) u.cols
    let y := updateRow x w m g (if valid then old else old.map (fun _ => .zero))
    { stat := r.stat ++ [y.1], mom := r.mom ++ [y.2.1], master := r.master ++ [y.2.2]
      acc := (r.acc.zip g).map (fun e => f1 (e.1.add (square x e.2))) })
    { stat := [], mom := [], master := [], acc := acc }

/-! ### Compute copies (R314) -/

/-- The element format of a copy, and its code in matrix tiles. -/
def copyFmt (t : Tensor) : Fmt := (Fmt.ofOut t.fmt).getD .e4m3

/-- A matrix element of the updated master. -/
def elemAt (m : List (List Val)) (i j : Nat) : Val := (((m[i]?).getD [])[j]?).getD .zero

/-- The SR value of an element of a copy. -/
def State.copySr (s : State) (p : Nat) (t : Tensor) (u : Update) (i j : Nat) : Nat :=
  srValue (s.pld p).cat.roundSeed t.id (s.stepOf p) (i * u.cols + j)

/-- MX blocks of 32 elements, as pairs of the values and their SR values, and the scale and bits that each gives. -/
def blockOf (f : Fmt) (rnd : Rnd) (l : List (Val × Nat)) : Nat × List Nat :=
  let b := mxBlock f rnd l
  (b.1, b.2.map (·.1))

/-- The stored form of tile j of a block row of 256 rows, whose MX blocks run along i. -/
def State.copyTile (s : State) (p : Nat) (t : Tensor) (u : Update) (m : List (List Val)) (first jt : Nat) : List Byte :=
  let f := copyFmt t
  let rnd := Rnd.ofCode t.rnd
  let cols := (List.range 256).map (fun c => (List.range 8).map (fun q => blockOf f rnd ((List.range 32).map (fun k =>
    (elemAt m (32 * q + k) (256 * jt + c), s.copySr p t u (first + 32 * q + k) (256 * jt + c))))))
  let elems := cols.flatMap (fun c => c.flatMap (·.2))
  let scales := cols.flatMap (fun c => c.map (fun b => BitVec.ofNat 8 b.1))
  packTile (t.fmt - 3) (bitAt t.flags 0) (leBytes (8192 * f.width) (pack f.width elems) ++ scales)

/-- COPY: the tiles of a descriptor's 256 rows. -/
def CnsRun.writeCopy (r : CnsRun) (n p : Nat) (t : Tensor) (u : Update) (d : UpdDesc) (m : List (List Val)) : CnsRun :=
  (List.range (u.cols / 256)).foldl (fun r jt =>
    r.write n p (t.va + (d.first / 256 * (u.cols / 256) + jt) * copySlot t.fmt) (r.state.copyTile p t u m d.first jt)) r

/-- COPY_T: one row-block row for each row and 128 columns; the units that hold neither elements nor scales stay. -/
def CnsRun.writeCopyT (r : CnsRun) (n p : Nat) (t : Tensor) (u : Update) (d : UpdDesc) (m : List (List Val)) : CnsRun :=
  let f := copyFmt t
  ((List.range d.rows).flatMap (fun i => (List.range (u.cols / 128)).map (fun jb => (i, jb)))).foldl (fun r e =>
    let bs := (List.range 4).map (fun q => blockOf f (Rnd.ofCode t.rnd) ((List.range 32).map (fun k =>
      let j := 128 * e.2 + 32 * q + k
      (elemAt m e.1 j, r.state.copySr p t u (d.first + e.1) j))))
    let va := t.va + 512 * (e.2 * u.rows + d.first + e.1)
    let elems := leBytes (16 * f.width) (pack f.width (bs.flatMap (·.2)))
    (r.write n p va (padTo 0 ((elems.length + 63) / 64 * 64) elems)).write n p (va + 448)
      (List.replicate 48 0 ++ bs.map (fun b => BitVec.ofNat 8 b.1) ++ List.replicate 12 0)) r

/-! ### A descriptor completes (R315, R318) -/

/-- End of a factored entry: C; of every entry: K and the shape, as the header of 64 bytes (R310, R312, R319). Its reserved bytes are
written as 0: log entry 132. -/
def CnsRun.endEntry (r : CnsRun) (n p : Nat) (t : Tensor) (u : Update) (x : EntryCtx) (acc : List Val) : CnsRun :=
  let r := if u.factored then
      r.write n p (t.va + 0x40 + 4 * u.rows) (wordsBytes ((x.c.zip acc).map (fun e => bits32 (blend x.b2 e.1 (fDiv e.2 u.rows)))))
    else r
  r.write n p t.va (padTo 0 64 (leBytes 4 (min (x.k + 1) (2 ^ 32 - 1)) ++ leBytes 4 u.rows ++ leBytes 4 u.cols))

/-- What a descriptor writes. -/
def CnsRun.writeDesc (w : CnsRun) (n p : Nat) (u : Update) (d : UpdDesc) (x : EntryCtx) (master mom stats : Tensor) (r : DescResult) : CnsRun :=
  let c := (w.state.pld p).cat
  let w := w.write n p (master.va + 4 * u.cols * d.first) (wordsBytes (r.master.flatMap (fun row => row.map bits32)))
  let w := if x.momentum then w.write n p (mom.va + 2 * u.cols * d.first) (r.mom.flatMap (fun row => row.flatMap (leBytes 2))) else w
  let w := w.write n p (stats.va + 0x40 + if u.factored then 4 * d.first else 0) (wordsBytes (r.stat.flatMap (fun row => row.map bits32)))
  let w := match c.find u.copy with
    | some t => if isNone u.copy then w else w.writeCopy n p t u d r.master
    | none => w
  let w := match c.find u.copyT with
    | some t => if isNone u.copyT then w else w.writeCopyT n p t u d r.master
    | none => w
  if d.first + d.rows = u.rows then w.endEntry n p stats u x r.acc else w

/-- The column sums at the start of a descriptor: zero at the start of its entry, the conservator's own, or CARRY (R312, R315). -/
def State.startSums (s : State) (n p : Nat) (u : Update) (d : UpdDesc) (stats : Tensor) : List Val :=
  let c := s.cns n
  if d.first = 0 then List.replicate u.cols .zero
  else if c.accOf = some (p, d.entry) then c.acc.map (fun w => fp32 w.toNat)
  else wordsAt s p (carryVa stats u) u.cols

/-- Runs a descriptor: its rows and its writes, as far as no access fails. -/
def CnsRun.runDesc (w : CnsRun) (n p : Nat) (d : UpdDesc) : CnsRun :=
  let s := w.state
  let y := s.pld p
  let u := y.update d.entry
  match y.cat.find u.master, y.cat.find u.stats with
  | some master, some stats =>
    let mom := (y.cat.find u.mom).getD master
    let x := s.entryCtx p u stats
    let r := s.runRows p u d x master mom stats (s.entryK p u stats).2 (s.startSums n p u d stats)
    let w := if y.frozenEntry u then { w with state := s.bump (cnsPage n + 0x064) 1 } else w.writeDesc n p u d x master mom stats r
    let last := d.first + d.rows == u.rows
    { w with state := w.state.modCns n (fun c => { c with
      acc := if last || !u.factored then [] else r.acc.map bits32
      accOf := if last || !u.factored then none else some (p, d.entry)
      carried := c.carried.filter (fun e => e != (p, d.entry)) }) }
  | _, _ => w

/-- The running descriptor completes under the verdict apply: its one-pass update, which counts where all of it was performed. A
fault on the way stops the slot and the rest is not written (R186, R315, R322). -/
def State.endDesc (s : State) (n p : Nat) (d : UpdDesc) (ecc : List (Ecc × Ecc)) : State :=
  let w := (CnsRun.begin s ecc).runDesc n p d
  let s := if w.ok then
      (w.state.bump64 (cnsPage n + 0x044) 1).modCns n (fun c => { c with next := Table.put 0 c.next p (Table.get 0 c.next p + 1) })
    else w.state
  s.modCns n (fun c => { c with running := none, holding := false })

/-- CONSERVATOR_DESCRIPTOR_DONE (R315). -/
def execConservatorDescriptorDone (n : Fin 12) (ecc : List (Ecc × Ecc)) (s : State) : Host.Outcome State Fault Refusal :=
  .next (match (s.cns n.val).running with
    | none => s
    | some p =>
      match s.nextDesc n.val p with
      | none => s.modCns n.val (fun c => { c with running := none, holding := false })
      | some d => if (s.pld p).applying then s.endDesc n.val p d ecc else s)

end Sys2Proof.Machine
end

