-- ==== Sys2Proof/Machine/Jobs.lean ====
section
/-!
DEFINITION. The requests of a VF's channel: job starts with their reduction map, link map and crest table, and host-window registration and release (R290, R291, R298, R309, R352, R391, R413 to R415).
-/

namespace Sys2Proof.Machine

/-- A failed read of a host structure is answered with its bus address at 0x08 (R413). -/
def State.replyUnread (s : State) (c : Nat) (addr : Dword) : State :=
  s.reply c 0x8005 ((s.chan c).request.take 2 ++ List.replicate 6 0 ++ leBytes 8 addr.toNat)

/-! ### The reduction map (R290, R291, R298, R309) -/

/-- A group record: its members' addresses follow it. -/
def groupAt (m : List Byte) (a : Nat) : Group :=
  let g := peek m a 2
  { (default : Group) with size := g, self := peek m (a + 2) 2, members := (List.range g).map (fun i => dwordOf (peek m (a + 8 + 8 * i) 8)) }

def groupBytes (m : List Byte) (a : Nat) : Nat := 8 + 8 * peek m a 2

/-- Fields in range and reserved bits 0: a member address has bits [63:16] reserved (R388). -/
def groupOk (m : List Byte) (a : Nat) : Bool :=
  let g := groupAt m a
  decide (1 ≤ g.size) && decide (g.size ≤ 4096) && decide (g.self < g.size) && peek m (a + 4) 4 == 0 &&
  g.members.all (fun x => decide (x.toNat < 2 ^ 16))

/-- The addresses of a count of group records, and the address after them. -/
def groupOffsets (m : List Byte) : Nat → Nat → List Nat × Nat
  | 0, a => ([], a)
  | n + 1, a =>
    let r := groupOffsets m n (a + groupBytes m a)
    (a :: r.1, r.2)

/-- A reduction map. -/
structure RedMap where
  red : Reduction
  tag : Nat

def mapAssign (m : List Byte) (a : Nat) : Word × Nat := (wordOf (peek m a 4), field (peek m a 8) 32 4)
def mapThin (m : List Byte) (a : Nat) : Thin :=
  { factor := wordOf (peek m a 4), probe := wordOf (peek m (a + 4) 4), residual := wordOf (peek m (a + 8) 4), r := field (peek m (a + 12) 4) 0 6 + 1 }

/-- Whether a tensor lies wholly within the polder's mapped entries of the HBM or depot window (R298). -/
def State.liesMapped (s : State) (p : Nat) (t : Tensor) : Bool :=
  (windowOf t.va == some 0 || windowOf t.va == some 1) && windowOf (t.va + t.bytes - 1) == windowOf t.va &&
  (List.range (t.pages.2 - t.pages.1)).all (fun i =>
    match s.translate 0 p ((t.pages.1 + i) * 2 ^ 21) false with
    | .at_ _ => true
    | .fault _ => false)

/-- A thinning entry keeps R298, and the update entry of its factor has its m × r and n × r elements and its SRAM demand
(R309). DEDUCED: log entry 133. -/
def State.thinOk (s : State) (p : Nat) (h : Thin) : Bool :=
  let c := (s.pld p).cat
  let find (id : Word) := c.tensors.find? (fun t => t.id == id)
  match find h.factor, find h.probe, find h.residual with
  | some f, some q, some e =>
    f.kind == 2 && q.kind == 4 && q.fmt == 1 && q.bytes % (2 * h.r) == 0 && e.kind == 4 && e.fmt == 0 &&
    s.liesMapped p f && s.liesMapped p q && s.liesMapped p e &&
    (c.updates.filter (fun u => u.grad == h.factor)).all (fun u => decide (u.rows * h.r ≤ 64 * f.units) && decide (2 * u.cols * h.r ≤ q.bytes) &&
      decide (u.demand (((find u.copy).map (·.fmt)).getD 0) h.r ≤ 2097152))
  | _, _, _ => false

/-- What is read of a reduction map: its header bounds it. -/
def redMapBytes (head : List Byte) : Nat := 16 + peek head 2 1 * (8 + 8 * 4096) + 8 * peek head 4 2 + 16 * peek head 3 1

/-- The reduction map at a host address, or none where it is malformed. -/
def State.redMapAt (s : State) (p addr : Nat) : Option RedMap :=
  let head := s.hostRead addr 16
  let groups := peek head 2 1
  let thins := peek head 3 1
  let assigns := peek head 4 2
  let m := s.hostRead addr (redMapBytes head)
  let gs := groupOffsets m groups 16
  let as := (List.range assigns).map (fun i => gs.2 + 8 * i)
  let ts := (List.range thins).map (fun i => gs.2 + 8 * assigns + 16 * i)
  let grads := (s.pld p).cat.gradients
  if peek head 0 2 == 1 && decide (1 ≤ groups) && decide (groups ≤ 16) && decide (thins ≤ 64) && decide (assigns ≤ 4096) &&
     decide (peek head 6 1 < groups) && zeros head 7 1 && zeros head 12 4 && gs.1.all (groupOk m) &&
     as.all (fun a => decide (field (peek m a 8) 32 32 < groups) && grads.any (fun t => t.id == (mapAssign m a).1)) &&
     ts.all (fun a => decide (peek m (a + 12) 4 < 64) && s.thinOk p (mapThin m a)) then
    some { tag := peek head 8 4, red := { (default : Reduction) with
      loaded := true, groups := gs.1.map (groupAt m), assigns := as.map (mapAssign m), dflt := peek head 6 1, thins := ts.map (mapThin m) } }
  else none

/-- One group of G = 1 without thinning: what a RED_MAP of 0 gives a training job (R414). -/
def soleMap (kind : Nat) : RedMap :=
  { tag := 0, red := if kind = 0 then { (default : Reduction) with loaded := true, groups := [{ (default : Group) with size := 1, members := [0] }] } else default }

/-! ### The link map and the crest table (R391, R413) -/

def linkEntry (m : List Byte) (a : Nat) : LinkEntry :=
  { port := field (peek m a 1) 0 4, die := field (peek m a 1) 4 2, log2 := field (peek m (a + 1) 1) 0 3, off := peek m (a + 4) 4
    recvVa := peek m (a + 8) 8, recvBytes := peek m (a + 16) 8, pos := 0 }

/-- An entry keeps R391: its port, its ring within the polder's share, its receive region, its reserved bits. -/
def State.linkEntryOk (s : State) (p : Nat) (m : List Byte) (a : Nat) : Bool :=
  let e := linkEntry m a
  bitAt (s.pld p).cat.ports e.port && e.off % 1024 == 0 && decide (e.off + 32 * 2 ^ (4 + e.log2) ≤ s.shareSize p e.die * 32768) &&
  e.recvBytes % 1024 == 0 && (windowOf e.recvVa == some 0 || windowOf e.recvVa == some 2) &&
  windowOf (e.recvVa + e.recvBytes - 1) == windowOf e.recvVa &&
  decide (field (peek m a 4) 6 2 = 0) && decide (field (peek m a 4) 11 21 = 0) && zeros m (a + 24) 8

/-- What is read of a link map: its header gives it. -/
def linkMapBytes (head : List Byte) : Nat := 16 + 32 * peek head 2 1 + 2 * peek head 4 2

/-- The link map at a host address, or none where it is malformed. -/
def State.linkMapAt (s : State) (p addr : Nat) : Option (List LinkEntry × List Nat) :=
  let head := s.hostRead addr 16
  let n := peek head 2 1
  let peers := peek head 4 2
  let m := s.hostRead addr (linkMapBytes head)
  let es := (List.range n).map (fun i => 16 + 32 * i)
  if peek head 0 2 == 1 && decide (n ≤ 16) && zeros head 3 1 && decide (peers ≤ 4096) && zeros head 6 10 && es.all (s.linkEntryOk p m) then
    some (es.map (linkEntry m), (List.range peers).map (fun i => peek m (16 + 32 * n + 2 * i) 2))
  else none

/-- The crest table at a host address, or none where it is malformed. A later entry of a tensor goes before an earlier one. -/
def State.crestTableAt (s : State) (p addr count : Nat) : Option (List (Word × Int)) :=
  let m := s.hostRead addr (8 * count)
  let es := (List.range count).map (fun i => (wordOf (peek m (8 * i) 4), toSigned 16 (peek m (8 * i + 4) 2), peek m (8 * i + 6) 2))
  if es.all (fun e => e.2.2 == 0 && decide (-224 ≤ e.2.1) && decide (e.2.1 ≤ 287) && (s.pld p).cat.gradients.any (fun t => t.id == e.1)) then
    some ((es.map (fun e => (e.1, e.2.1))).reverse)
  else none

/-! ### The monitor state at job start (R279) -/

/-- Reads the state tensor: the empty state, the state it holds, or the empty state with RESET. -/
def State.readMonitor (s : State) (p : Nat) : State :=
  let c := (s.pld p).cat
  if !c.monitorOn then s
  else
    let b := s.curatorRead p c.stateVa (64 + 4 * c.window)
    let losses := (List.range c.window).map (fun i => wordOf (peek b (64 + 4 * i) 4))
    let x : Training := { (default : Training) with count := peek b 0 2, pos := peek b 2 2, losses := losses }
    let empty := b.all (· == 0)
    let bad := decide (c.window < x.count) || decide (c.window ≤ x.pos) || peek b 4 2 != c.window ||
      (x.window c.window).any (fun w => field w.toNat 23 8 == 255)
    if empty || bad then (s.setReg (spkReg p 0x07C) 0).showWindow p (!empty) false
    else
      let s := s.modPld p (fun y => { y with train := { y.train with count := x.count, pos := x.pos, losses := losses } })
      (s.setReg (spkReg p 0x07C) (wordOf (peek b 8 4))).showWindow p false false

/-! ### JOB_START (R414) -/

/-- The crest table's crests go into unit 0 of their tensors (R297). -/
def State.writeCrests (s : State) (p : Nat) (crests : List (Word × Int)) : State :=
  s.forEach ((s.pld p).cat.gradients) (fun s t =>
    match crests.find? (fun c => c.1 == t.id) with
    | some c => s.curatorWrite p (t.va + 2) (intBytes 2 c.2)
    | none => s)

/-- Order 5: the step counter, crests, monitor, conservator slots, probes and OPENs, and R352. -/
def State.startJob (s : State) (p : Nat) (step : Word) (m : RedMap) (links : List LinkEntry × List Nat) (crests : List (Word × Int)) : State :=
  let s := s.modPld p (fun x => { x with
    train := default, serve := { (default : Serving) with waitCc := s.cc }, red := { m.red with crests := crests }
    links := links.1, peers := links.2 })
  let s := (s.setReg (spkReg p 0x040) step).setReg (pldReg p 0x314) (wordOf m.tag)
  let s := (s.writeCrests p crests).readMonitor p
  let s := (s.loadSlots p).fillProbes p
  let s := (s.countJob p 0).setVfReg p 0x02C 1
  let s := s.modPld p (fun x => { x with state := .running, started := true, jobOpen := true, parkedYet := false, wavesDue := x.rows, waveAc := [] })
  s.sendOpens p

/-- The pieces of the monitor's state tensor, which a job start reads where the monitor is on (R279). -/
def Catalogue.monitorPieces (c : Catalogue) : List (Nat × Nat) := if c.monitorOn then kibs c.stateVa (64 + 4 * c.window) else []

/-- The reads of the maps and the table that a job start names, with the VF's requester ID (R414, R416). -/
def State.askMaps (s : State) (p red link tab count : Nat) : State :=
  let s := if red = 0 then s else s.askHost (p + 1) red (redMapBytes (s.hostRead red 16))
  let s := if link = 0 then s else s.askHost (p + 1) link (linkMapBytes (s.hostRead link 16))
  if tab = 0 then s else s.askHost (p + 1) tab (8 * count)

/-- JOB_START of polder p on its channel: the order of R414. An uncorrectable error of the monitor's state tensor tears the polder
down, which answers the request (R186, R371). -/
def State.jobStart (s : State) (p c : Nat) (b : List Byte) (rd : Meets HostRead (List Ecc)) : State :=
  let x := s.pld p
  let step := wordOf (peek b 4 4)
  let red := peek b 8 8
  let link := peek b 16 8
  let tab := peek b 24 8
  let count := peek b 32 2
  if x.state != .loaded || !s.hif.vfEnable || s.vfReg64 p 0x004 == 0 || s.vfReg64 p 0x018 == 0 then s.replyEcho c 0x8003
  else if !formed b 34 [(4, 4), (8, 26)] || 4096 < count || (x.cat.kind != 0 && (step != 0 || red != 0 || tab != 0)) then s.replyEcho c 0x8001
  else
    match (([red, link, tab].find? (· != 0)).map (s.vfRead p rd.val)).getD .success with
    | .fails a => s.replyUnread c a
    | .success =>
      let s := s.askMaps p red link tab count
      match (if red = 0 then some (soleMap x.cat.kind) else s.redMapAt p red),
            (if link = 0 then some ([], []) else s.linkMapAt p link),
            (if tab = 0 then some [] else s.crestTableAt p tab count) with
      | some m, some l, some t =>
        match s.curatorFetch p rd.ecc x.cat.monitorPieces with
        | (none, s) => s
        | (some _, s) => (s.startJob p step m l t).replyEcho c 0
      | _, _, _ => s.replyEcho c 0x8004

/-- The polder of a VF's channel (R419). -/
def channelPolder (c : Nat) : Nat := c - 8

/-- JOB_START (R352, R414). -/
def execJobStart (c : ChannelId) (rd : Meets HostRead (List Ecc)) (s : State) : Host.Outcome State Fault Refusal :=
  let ch := c.toNat
  .next (match s.request ch 0x0201 with
    | none => s
    | some b => (s.takeRequest ch).jobStart (channelPolder ch) ch b rd)

/-! ### HOST_REG and HOST_REL (R178, R415) -/

/-- The order of R178 up to the wait: the walks in flight keep the entries as they are, the new entries are written, each at its
number in the host window, the range is dropped everywhere, and TRANSLATION_EDIT_COMPLETE acknowledges. A registration drops
entries through which no request was translated, so it waits for none. -/
def State.beginEdit (s : State) (p c first count waits : Nat) (entries : List (Nat × Nat)) : State :=
  let hit (w i : Nat) : Bool := w == 3 && decide (first ≤ i) && decide (i < first + count)
  let s := (s.holdWalks p hit).forEach entries (fun s e => s.setEntry (s.xlBase p 3 + e.1) e.2)
  (s.dropXl p hit).modPld p (fun x => { x with editChannel := some c, editRange := some (first, waits) })

def State.hostEntry (s : State) (p i : Nat) : Nat := s.tableEntry 0 (s.xlBase p 3 + i)

/-- The entry that a LIST value registers: V = 1, TGT 2, and ADDR and W from the value. -/
def listedEntry (v : Nat) : Nat := 1 + 2 * field v 0 1 + 8 + field v 21 43 * 2 ^ 21

def State.hostReg (s : State) (p c : Nat) (b : List Byte) (rd : HostRead) : State :=
  let first := peek b 4 4
  let count := peek b 8 4
  let st := (s.pld p).state
  if st != .loaded && st != .running then s.replyEcho c 0x8003
  else if !formed b 24 [(4, 8), (16, 8)] || count = 0 || 1048576 < count || s.xlCount p 3 < first + count ||
      (List.range count).any (fun i => bitAt (s.hostEntry p (first + i)) 0) then s.replyEcho c 0x8001
  else match s.vfRead p rd (peek b 16 8) with
    | .fails a => s.replyUnread c a
    | .success =>
      let s := s.askHost (p + 1) (peek b 16 8) (8 * count)
      let vals := (List.range count).map (fun i => leNat (s.hostRead (peek b 16 8 + 8 * i) 8))
      if vals.any (fun v => field v 1 20 != 0) then s.replyEcho c 0x8001
      else
        s.beginEdit p c first count 0 (vals.zipIdx.map (fun v => (first + v.2, listedEntry v.1)))

/-- HOST_REG (R415). -/
def execHostReg (c : ChannelId) (rd : HostRead) (s : State) : Host.Outcome State Fault Refusal :=
  let ch := c.toNat
  .next (match s.request ch 0x0202 with
    | none => s
    | some b => (s.takeRequest ch).hostReg (channelPolder ch) ch b rd)

def State.hostRel (s : State) (p c : Nat) (b : List Byte) : State :=
  let first := peek b 4 4
  let count := peek b 8 4
  let st := (s.pld p).state
  if st != .loaded && st != .running && st != .complete then s.replyEcho c 0x8003
  else if !formed b 12 [(4, 8)] || count = 0 || 1048576 < count || s.xlCount p 3 < first + count then s.replyEcho c 0x8001
  else
    let held := ((List.range count).map (first + ·)).filter (fun i => bitAt (s.hostEntry p i) 0)
    s.beginEdit p c first count count (held.map (fun i => (i, 0)))

/-- HOST_REL (R415). -/
def execHostRel (c : ChannelId) (s : State) : Host.Outcome State Fault Refusal :=
  let ch := c.toNat
  .next (match s.request ch 0x0203 with
    | none => s
    | some b => (s.takeRequest ch).hostRel (channelPolder ch) ch b)

end Sys2Proof.Machine
end

