-- ==== Sys2Proof/Machine/Seam.lean ====
section
/-!
DEFINITION. Events of the seams and of the part: replays, a lane lost beyond retry, training, a controller that stops, and the heartbeat between the S-dies (R18 to R31, R225, R230, R231).
-/

namespace Sys2Proof.Machine

/-- Direction false runs from the seam's first die to its second (R18). -/
def seamSender (seam : Nat) (dir : Bool) : Nat := if dir then (seamDies seam).2 else (seamDies seam).1

def Seam.used (x : Seam) (dir : Bool) : Nat := if dir then x.used1 else x.used0
def Seam.run (x : Seam) (dir : Bool) : Nat := if dir then x.run1 else x.run0
def Seam.flit (x : Seam) (dir : Bool) : Nat := if dir then x.flit1 else x.flit0
def Seam.setRun (x : Seam) (dir : Bool) (n flit : Nat) : Seam :=
  if dir then { x with run1 := n, flit1 := flit } else { x with run0 := n, flit0 := flit }
def Seam.lose (x : Seam) (dir : Bool) (lane : Nat) : Seam :=
  if dir then { x with lost1 := x.lost1 ++ [lane] } else { x with lost0 := x.lost0 ++ [lane] }

/-- The code of a failure of a seam with a cause of R29. -/
def seamCode (seam cause : Nat) : Nat := 0x0B00 + 16 * cause + seam

/-- Step 2 of bring-up has trained every seam (R459). -/
def State.seamsTrained (s : State) : Bool :=
  s.boot.part == .operational || (s.boot.part == .failed && s.boot.trained) || (s.boot.part == .bringUp && decide (2 ≤ s.boot.stage))

/-- The part treats as lost every die that S0's curators no longer reach, and every F-die that S1's curators no longer reach
while the two S-dies reach each other (R23). DEDUCED: log entry 91. -/
def State.unreached (s : State) : List Nat :=
  (List.range 6).filter (fun d => d != 4 && (!s.reaches 4 d || (d != 5 && s.reaches 4 5 && !s.reaches 5 d)))

def State.loseUnreached (s : State) : State :=
  if !s.seamsTrained then s
  else s.forEach (s.unreached.filter (fun d => bitAt s.boot.dieUp d)) (fun s d => s.loseDie d)

/-- A seam leaves ACTIVE with a cause of R29: with spare lanes left in the direction it goes out of service and tears
down the polders that name it, otherwise it fails and the part with it (R31, R231). -/
def State.endSeam (s : State) (n cause : Nat) (dir : Bool) : State :=
  let code := seamCode n cause
  let a := (seamDies n).1
  let s := s.setSeamCause n cause
  let s := (s.logError (semPage n a) 2 code n 0x1F).logError (semPage n (seamDies n).2) 2 code n 0x1F
  if (s.seam n).used dir < 64 then
    let s := s.modSeam n (fun x => { x with state := .outOfService, cause := cause })
    let s := s.forEach (List.range 16) (fun s p =>
      let x := s.pld p
      if x.state.resident && bitAt x.cat.seams n then s.raisePart p code n 0 else s)
    s.loseUnreached
  else
    ((s.modSeam n (fun x => { x with state := .failed, cause := cause })).failPart code (failRankOf (min a (seamDies n).2) true n) n).loseUnreached

/-- SEAM_CRC_ERROR: the sender replays a flit from its retry buffer of 64, and a flit that fails eight times in a row ends the
seam with cause 0x2 (R225, R230). An error replays one flit. DEDUCED: log entry 155. -/
def execSeamCrcError (seam : SeamId) (dir : SeamFlit) (s : State) : Host.Outcome State Fault Refusal :=
  let n := seam.toNat
  .next (
    if (s.seam n).state != .active then s
    else
      let pg := semPage n (seamSender n dir.dir)
      let k := if (s.seam n).flit dir.dir = dir.flit.toNat then (s.seam n).run dir.dir + 1 else 1
      let s := s.bump (pg + 0x048) 1
      let s := s.modSeam n (fun x => x.setRun dir.dir k dir.flit.toNat)
      let s := if (s.reg (pg + 0x04C)).toNat < k then s.setReg (pg + 0x04C) (wordOf k) else s
      if k = 8 then s.endSeam n 2 dir.dir else s)

/-- SEAM_LANE_LOSS: a lane of an active seam is lost beyond retry and marked for a spare (R31, R475). -/
def execSeamLaneLoss (seam : SeamId) (dir : Bool) (lane : BitVec 11) (s : State) : Host.Outcome State Fault Refusal :=
  let n := seam.toNat
  .next (
    if (s.seam n).state != .active || 1664 ≤ lane.toNat then s
    else (s.modSeam n (fun x => x.lose dir lane.toNat)).endSeam n 1 dir)

/-- Training of a seam ends: all 1 600 lanes pass and the seam is active, or it fails and the part with it (R231, R459). A lost lane
that no spare has replaced does not pass (R20). -/
def State.endSeamTraining (s : State) (n : Nat) (ok : Bool) : State :=
  if ok && (s.seam n).lost0.isEmpty && (s.seam n).lost1.isEmpty then s.modSeam n (fun x => { x with state := .active, run0 := 0, run1 := 0 })
  else
    let s := s.modSeam n (fun x => { x with state := .failed })
    (s.failPart (seamCode n 1) (failRankOf (min (seamDies n).1 (seamDies n).2) true n) n).loseUnreached

/-- SEAM_TRAINING (R231, R459). -/
def execSeamTraining (seam : SeamId) (ok : Bool) (s : State) : Host.Outcome State Fault Refusal :=
  .next (if (s.seam seam.toNat).state != .training then s else s.endSeamTraining seam.toNat ok)

/-- MEMORY_CONTROLLER_FAILURE: a stack or depot controller of a die in service stops, which is part-ending (R31). -/
def execMemoryControllerFailure (depot : Bool) (n : Fin 12) (s : State) : Host.Outcome State Fault Refusal :=
  .next (
    if !bitAt s.boot.dieUp (if depot then 4 + n.val / 4 else n.val / 3) then s
    else if depot then
      if n.val < 8 then
        (s.logError (depPage n.val) 2 (0x0510 + n.val) n.val 0x1F).failPart (0x0510 + n.val) (failRankOf (4 + n.val / 4) false n.val) n.val
      else s
    else (s.logError (hmcPage n.val) 2 (0x0500 + n.val) n.val 0x1F).failPart (0x0500 + n.val) (failRankOf (n.val / 3) false n.val) n.val)

/-- The cc domains of S0 and S1 (R431). -/
def ccOf (s1 : Bool) : Nat := if s1 then 0x61 else 0x60

/-- HEARTBEAT: an S-die receives its peer's heartbeat over a route in service (R23, R31). -/
def execHeartbeat (fromS1 : Bool) (s : State) : Host.Outcome State Fault Refusal :=
  .next (
    if !s.reaches 5 4 then s
    else if fromS1 then (s.controlCrosses 5 4 1).modBoot (fun b => { b with beat0 := s.now (ccOf false) })
    else (s.controlCrosses 4 5 1).modBoot (fun b => { b with beat1 := s.now (ccOf true) }))

/-- HEARTBEAT_TIMEOUT: after 1 200 000 cc without an answer S0 declares S1 lost, which ends the part, or S1 declares S0
lost and takes ports 8 to 15 down; S0's endpoint and ports are then gone until the next cold start (R31). -/
def execHeartbeatTimeout (lostS1 : Bool) (s : State) : Host.Outcome State Fault Refusal :=
  .next (
    if !s.seamsTrained || !bitAt s.boot.dieUp 5 || s.boot.s0Lost then s
    else if lostS1 then
      if s.elapsed (ccOf false) s.boot.beat0 1200000 then s.loseDie 5 else s
    else if s.elapsed (ccOf true) s.boot.beat1 1200000 then
      let s := s.modBoot (fun b => { b with s0Lost := true, s0On := false })
      let s := s.modHif (fun h => { h with linkUp := false })
      s.forEach (List.range 16) (fun s n => s.dropPort n)
    else s)

end Sys2Proof.Machine
end

