-- ==== Sys2Proof/Machine/Boot.lean ====
section
/-!
DEFINITION. Cold start, staging and verification of the image, bring-up and cross-check, the supplies and SYSCLK, and the lifetime totals of the record (R26, R31, R452 to R463, R485, R486, R520, R521, R525).
-/

namespace Sys2Proof.Machine

/-! ### Lifetime totals (R485, R486) -/

/-- The 49 clock domain instances in ID order (R431). -/
def domainIds : List Nat :=
  List.range 4 ++ (List.range 6).map (· + 0x10) ++ (List.range 12).map (· + 0x20) ++ (List.range 8).map (· + 0x30) ++
  (List.range 16).map (· + 0x40) ++ [0x50, 0x60, 0x61]

/-- The values of the last entry of a kind that an earlier cold start left: totals restart from them. -/
def State.carriedVals (s : State) (kind : Nat) : List Nat :=
  ((s.journal.entries.reverse.find? (fun e => e.kind == kind && e.boot != s.boot.starts)).map (·.vals)).getD []

def nth (l : List Nat) (i : Nat) : Nat := (l[i]?).getD 0

/-- Joules of a die, of which each milliwatt of a window is 2.56 nJ. -/
def DiePower.joules (x : DiePower) : Nat := x.energy * 256 / 10 ^ 11

/-- Cycles of every domain instance, energy of each die, and the energy at VIN. The manual gives the part no rule to measure the energies
of the S-dies and at VIN: they grow freely (log entry 6). -/
def State.usageVals (s : State) : List Nat × State :=
  let base := s.carriedVals 6
  let last := ((s.journal.entries.reverse.find? (fun e => e.kind == 6)).map (·.vals)).getD []
  let cycles := domainIds.zipIdx.map (fun d => nth base d.2 + Table.get 0 s.journal.cycles d.1 + (s.now d.1).toNat)
  let s := (s.meterEnergy 4).meterEnergy 5
  let dies := (List.range 6).map (fun d => nth base (49 + d) + (s.die d).joules)
  let v := s.draw
  (cycles ++ dies ++ [nth last 55 + v.1.toNat], v.2)

/-- Thermal cycles and seconds in each band, one evaluation of 131 072 nc being 81.92 µs; each count saturates. -/
def State.thermalVals (s : State) : List Nat :=
  let base := s.carriedVals 7
  let sat (n : Nat) : Nat := min n (2 ^ 32 - 1)
  (List.range 6).flatMap (fun d =>
    sat (nth base (17 * d) + (s.die d).cycles) ::
    (List.range 16).map (fun k => sat (nth base (17 * d + 1 + k) + Table.get 0 (s.die d).bands k * 8192 / 10 ^ 8)))

/-- Jobs by kind and point of R367, and polders created. The table restarts at each cold start from the last entry. -/
def State.jobVals (s : State) : List Nat :=
  (List.range 9).map (fun k => (Table.get 0 s.journal.jobs k).toNat) ++ [s.journal.created.toNat]

/-- Usage, thermal and jobs entries, after which a usage interval begins (R485, R488). -/
def State.appendTotals (s : State) : State :=
  let u := s.usageVals
  let s := u.2.append 6 u.1
  let s := (s.append 7 s.thermalVals).append 0xD s.jobVals
  s.modJournal (fun j => { j with usageCc := s.cc, scrubbed := false, seepDone := [], retrainDone := [] })

/-- The index of the last usage entry, if any. -/
def Journal.lastUsage (j : Journal) : List Nat := ((j.entries.zipIdx.reverse.find? (fun e => e.1.kind == 6)).map (·.2)).toList

/-! ### Cold start (R452, R453, R458, R486) -/

/-- The calibration points in force for a die: those of its last calibration entry (R441). -/
def Journal.calibration (j : Journal) (d : Nat) : List CalPoint :=
  match j.entries.reverse.find? (fun e => e.kind == 2 && nth e.vals 0 == d) with
  | some e => (List.range (nth e.vals 2)).map (fun i => { load := nth e.vals (3 + 3 * i), mv := nth e.vals (4 + 3 * i), off := nth e.vals (5 + 3 * i) })
  | none => []

/-- The record as the ROM finds it: a torn tail slot is used and skipped, and counts restart from the last jobs entry. -/
def Journal.atStart (j : Journal) (torn : Bool) : Journal :=
  let t := if torn && decide (0 < j.free) then 1 else 0
  let jobs := ((j.entries.reverse.find? (fun e => e.kind == 0xD)).map (·.vals)).getD []
  { j with
    used := j.used + t, tornSlots := j.tornSlots + t, tornDue := j.tornDue + t, tornTail := t == 1
    usageCc := 0, cycles := [], scrubbed := false, seepDone := [], retrainDone := [], retrains := []
    jobs := (List.range 9).foldl (fun l k => Table.put 0 l k (dwordOf (nth jobs k))) [], created := dwordOf (nth jobs 9) }

/-- Seams without power keep their lane repairs (R475). -/
def Seam.down (x : Seam) : Seam := { (default : Seam) with used0 := x.used0, used1 := x.used1, lost0 := x.lost0, lost1 := x.lost1 }

def State.seamsDown (s : State) : State := s.forEach (List.range 8) (fun s n => s.modSeam n Seam.down)

/-- Registers that hold since manufacture: the retired frames (R188), and the lane last replaced, beside the lanes in use (R482). -/
def sinceManufacture (a : Nat) : Bool :=
  ((classOfPage a == 0x03 || classOfPage a == 0x12) && a % 4096 == 0x064) || (classOfPage a == 0x08 && a % 4096 == 0xF04)

/-- What a cold start leaves: the record, the spares, the fuses and the pins; everything else starts again. -/
def State.cleared (s : State) (torn : Bool) : State :=
  let s := s.seamsDown
  { State.reset with
    pending := s.pending
    drawn := s.drawn
    regs := s.regs.filter (fun e => sinceManufacture e.1)
    store := { (default : Store) with host := s.store.host }
    seams := s.seams
    hif := { HostIf.reset with msix := s.hif.msix, aer := s.hif.aer, tlps := s.hif.tlps }
    links := { (default : Links) with sent := s.links.sent }
    power := (List.range 6).foldl (fun l d => Table.put default l d { (default : DiePower) with cal := s.journal.calibration d }) []
    board := { s.board with
      vaux := true, sysclkLost := false, stoppedOn := 0, vinLost := false, throttled := false, unstable := false, acceptCc := 0, reported := 0
      edges := if s.board.throttleLow then [0] else [] }
    boot := { (default : Boot) with
      boot := 1, starts := s.boot.starts + 1, svnMin := s.boot.svnMin
      mr0 := extend (extend noDigest Config.romDigest) (sha3 (Config.fuseBlock s.boot.svnMin)), mr1 := noDigest, mr2 := noDigest, mr3 := noDigest, mr4 := noDigest }
    journal := s.journal.atStart torn
    spares := s.spares }

/-- The last power entry of the record is a clean shutdown (R453, R463). -/
def Journal.cleanTail (j : Journal) : Bool :=
  (j.entries.reverse.find? (fun e => e.kind == 3 || e.kind == 4 || e.kind == 5)).any (fun e => e.kind == 4)

/-- ROM step 3: the S0 core is powered, and the endpoint is there once PERST_N is released. -/
def State.powerS0 (s : State) : State :=
  let s := s.modBoot (fun b => { b with s0On := true, boot := 2, part := .awaiting, dieUp := 16 })
  if s.board.perst then s.trainLink else s

def State.coldStart (s : State) (torn : Bool) : State :=
  let soon := s.journal.fullSoon
  let broken := s.boot.broken
  let s := s.cleared torn
  let s := if s.journal.fullSoon && !soon then s.setIrq prvPage 1 else s
  let s := if s.journal.cleanTail && !broken then s else s.append 5 s.journal.lastUsage
  if s.board.vin then s.powerS0 else s

/-- COLD_START: VAUX rises, which samples ID_SEL, or VIN has risen again after a loss while VAUX stayed up and SYSCLK runs (R452, R453,
R514, R525). -/
def execColdStart (start : PowerRise) (s : State) : Host.Outcome State Fault Refusal :=
  .next (
    if !s.board.vaux then (s.coldStart start.tornTail).modBoard (fun b => { b with idSel := start.straps.toNat })
    else if s.board.vin && s.board.vinLost && !s.board.sysclkLost then s.coldStart start.tornTail else s)

/-! ### Supplies and SYSCLK (R31, R520, R521, R525) -/

/-- The pages of power domain 0 on S0: mailbox page 0, curators, root of trust and provenance (R509). -/
def vauxPage (a : Nat) : Bool :=
  dieOfPage a == 4 && ((classOfPage a == 0x13 && instOfPage a == 0) || classOfPage a == 0x14 || classOfPage a == 0x15 || classOfPage a == 0x16)

/-- Every core domain stops at once: no teardown runs and no record is written (R31). -/
def State.stopCores (s : State) : State :=
  let s := s.seamsDown
  { s with
    tiles := [], nets := default, polders := [], conservators := [], links := { (default : Links) with sent := s.links.sent }, vfRegs := []
    store := { (default : Store) with host := s.store.host }
    regs := s.regs.filter (fun e => vauxPage e.1 || sinceManufacture e.1)
    channels := s.channels.filter (fun e => decide (e.1 < 8))
    hif := { HostIf.reset with
      msix := s.hif.msix, aer := s.hif.aer, tlps := s.hif.tlps, requireSig := s.hif.requireSig, lock := s.hif.lock, keys := s.hif.keys, mctp := s.hif.mctp
      doorbells := s.hif.doorbells.filter (fun d => decide (d.2 < 8)) }
    boot := { s.boot with
      s0On := false, mboxOn := false, dieUp := 0, boot := 1, stage := 0, maint := 0, trained := false, memories := 0, start0 := none, start2 := none, warm := false, stg := 0, svnRun := 0
      part := if s.boot.part == .failed then .failed else .awaiting } }

/-- VIN_GOOD: VIN is good. After VAUX the ROM powers the S0 core, except that a rise after a loss waits for the cold start
that it is (R452, R453). -/
def execVinGood (s : State) : Host.Outcome State Fault Refusal :=
  .next (
    if s.board.vin then s
    else
      let s := s.modBoard (fun b => { b with vin := true, undervoltage := false })
      if s.board.vaux && !s.board.vinLost && !s.board.sysclkLost && s.boot.boot = 1 then s.powerS0 else s)

/-- VIN_LOSS (R31). A loss during bring-up is noted for the next cold start's unclean-shutdown entry (R471). DEDUCED: log entry 166. -/
def execVinLoss (s : State) : Host.Outcome State Fault Refusal :=
  .next (
    if !s.board.vin then s
    else
      let s := s.modBoot (fun b => { b with broken := b.broken || b.part == .bringUp })
      let s := s.modBoard (fun b => { b with vin := false, undervoltage := false, stoppedOn := 0, vinLost := b.vaux })
      if s.board.vaux then s.stopCores else s)

/-- VAUX_LOSS: the regulators switch off, the VAUX domain stops too, and THERMTRIP_N is released (R447, R514, R520). -/
def execVauxLoss (s : State) : Host.Outcome State Fault Refusal :=
  .next (
    if !s.board.vaux then s
    else
      let s := s.stopCores
      let s := { s with channels := [], regs := s.regs.filter (fun e => sinceManufacture e.1) }
      (s.modBoot (fun b => { b with boot := 0 })).modBoard (fun b => { b with
        vaux := false, vinLost := false, undervoltage := false, sysclkLost := false, stoppedOn := 0, thermtrip := false, throttled := false, unstable := false, edges := [], tapIr := .idcode, tapBypass := false, tapChain := [], tapDriven := [] }))

/-- VIN_UNDERVOLTAGE: every F-die goes to the floor and bit 6 of S0's power page is set; a dip while the floor of an earlier one holds
begins anew (R521). -/
def execVinUndervoltage (s : State) : Host.Outcome State Fault Refusal :=
  .next (
    if !s.boot.s0On then s
    else ((s.modBoard (fun b => { b with undervoltage := true, dipCc := s.cc })).setIrq (pwrPage 4) 64).retune)

/-- UNDERVOLTAGE_END: 1 ms after VIN has returned, so at least 1 ms after the last dip began (R521). DEDUCED: log entry 167. -/
def execUndervoltageEnd (s : State) : Host.Outcome State Fault Refusal :=
  .next (
    if s.board.undervoltage && s.elapsed ccDom s.board.dipCc 1200000 then (s.modBoard (fun b => { b with undervoltage := false })).retune else s)

/-- SYSCLK_LOSS: the domains that it feeds stop, and with them everything of the part that its commands could reach; hc and lc count on
from clocks of their own. The part cannot recover without a cycle of VAUX (R517, R525). -/
def execSysclkLoss (s : State) : Host.Outcome State Fault Refusal :=
  .next (
    if !s.board.vaux || s.board.sysclkLost then s
    else
      let locks := s.links.ports.filterMap (fun e => if e.2.locked then some (e.1, { (default : Port) with locked := true }) else none)
      (s.stopCores.modLinks (fun l => { l with ports := locks })).modBoard (fun b => { b with sysclkLost := true, stoppedOn := s.boot.dieUp }))

/-! ### Staging (R454, R457) -/

/-- Firmware runs: in bring-up and after it (R454). -/
def Boot.firmware (b : Boot) : Bool := decide (4 ≤ b.boot)

def Boot.image (b : Boot) (bank : Nat) : List Byte := if bank = 0 then b.image0 else b.image1

def Boot.setImage (b : Boot) (bank : Nat) (img : List Byte) : Boot := if bank = 0 then { b with image0 := img } else { b with image1 := img }

/-- A rejection discards the bank (R457). -/
def State.rejectImage (s : State) (reason : Nat) : State :=
  let s := s.modBoot (fun b => { (b.setImage b.bank []) with
    stg := 4, reason := reason, lastReason := reason, offset := 0
    boot := if b.boot = 3 then 2 else b.boot
    otherVerified := if b.bank = b.active then b.otherVerified else false })
  s.setIrq rotPage 2

/-- PF0 reaches the staging window. -/
def State.staging (s : State) : Bool := s.boot.s0On && s.hif.linkUp

/-- Any staged or verifying image is discarded, and staging starts at offset 0 of bank 0, or of the bank that is not active while
firmware runs (R454, R471). -/
def State.stgBegin (s : State) : State :=
  if !s.staging then s
  else s.modBoot (fun b => { b with
    stg := 1, reason := 0, offset := 0, bank := if b.firmware then 1 - b.active else 0
    boot := if b.boot = 3 then 2 else b.boot, otherVerified := false })

/-- STG_BEGIN (R454). -/
def execStgBegin (s : State) : Host.Outcome State Fault Refusal := .next s.stgBegin

/-- A number of bytes of STG_DATA are appended; a chunk outside receiving, in a warm restart or with a LEN out of range is ignored and
counted (R454, R457, R506). -/
def State.stgChunk (s : State) (n : Nat) (data : List Byte) : State :=
  if !s.staging then s
  else if s.boot.stg != 1 || s.boot.warm || n < 64 || 16384 < n || n % 64 != 0 then s.logError rotPage 1 0 0 0x1F
  else if 2 ^ 24 < s.boot.offset + n then s.rejectImage 8
  else s.modBoot (fun b => { (b.setImage b.bank ((b.image b.bank).take b.offset ++ padTo 0 n data)) with offset := b.offset + n })

/-- STG_CHUNK, with the data of the aperture (R454). -/
def execStgChunk (len : BitVec 15) (data : List Byte) (s : State) : Host.Outcome State Fault Refusal := .next (s.stgChunk len.toNat data)

/-- Verification starts (R454, R456). -/
def State.stgCommit (s : State) : State :=
  if s.staging && s.boot.stg = 1 then s.modBoot (fun b => { b with stg := 2, boot := if b.boot = 2 then 3 else b.boot })
  else s

/-- STG_COMMIT (R454). -/
def execStgCommit (s : State) : Host.Outcome State Fault Refusal := .next s.stgCommit

/-! ### Verification (R455 to R457) -/

def imageSize (b : List Byte) : Nat := peek b 8 4

/-- The bytes that D covers, and D (R456). -/
def imageDigest (b : List Byte) : List Byte := sha3 (b.take (imageSize b - 2420))

/-- The first failing check of an image of a number of staged bytes, or none. -/
def imageReason (b : List Byte) (staged svnMin : Nat) : Option Nat :=
  let size := imageSize b
  let key := (b.drop 0x100).take 1312
  if peek b 0 4 != 0x574D4946 || peek b 4 2 != 1 || peek b 6 1 != Config.stepping || !((b.drop 7).take 1 ++ (b.drop 0x18).take 0xE8).all (· == 0) then some 1
  else if 2 ^ 24 < size || staged != size then some 2
  else if sha3 key != Config.fuseFirmwareKey then some 3
  else if !mldsaVerify key (imageDigest b) ((b.drop (size - 2420)).take 2420) then some 4
  else if peek b 0x0C 2 < svnMin then some 5
  else if peek b 0x0E 2 != Config.arithRev then some 6
  else none

/-- An image takes effect: MR1 and MR2, the running SVN, and no cross-check yet (R458); curator 0 starts from ENTRY_S0 (R455, R459). -/
def State.takeEffect (s : State) : State :=
  let img := s.boot.image s.boot.active
  let d := imageDigest img
  s.modBoot (fun b => { b with mr1 := extend b.mr1 d, mr2 := d, svnRun := peek img 0x0C 2, start0 := some (wordOf (peek img 0x10 4)), xDone := false, xMatch := false })

/-- IMAGE_VERIFICATION: the image is rejected, or verified; at a cold start it takes effect at once, except in a failed part,
which only another cold start leaves (R27, R457, R459). -/
def execImageVerification (s : State) : Host.Outcome State Fault Refusal :=
  .next (
    if s.boot.stg != 2 then s
    else match imageReason (s.boot.image s.boot.bank) s.boot.offset s.boot.svnMin with
      | some r => s.rejectImage r
      | none =>
        let s := (s.modBoot (fun b => { b with stg := 3 })).setIrq rotPage 1
        if s.boot.part == .failed then s
        else if s.boot.boot = 3 then
          (s.modBoot (fun b => { b with active := b.bank, boot := 4, part := .bringUp, stage := 0 })).takeEffect
        else s.modBoot (fun b => { b with otherVerified := true }))

/-! ### Bring-up (R459, R460) -/

/-- The order in which seams train. -/
def seamOrder : List Nat := [4, 5, 0, 2, 1, 3, 6, 7]

/-- Step 1 as far as a count of dies of its order: the F-dies at the floor with their requests at the top step (log entry 23), then S1.
DIE_UP shows S0, the first four as bits 0 to 3 and S1 as bit 5. -/
def State.powerDies (s : State) (n : Nat) : State :=
  (s.modBoot (fun b => { b with dieUp := 16 + (2 ^ min n 4 - 1) + if n = 5 then 32 else 0 })).forEach (List.range (min n 4)) (fun s d =>
    s.modDie d (fun x => { x with step := 0, power := 7, thermal := 7 }))

/-- A die that step 1 loses: those before it are up, and the part fails before it powers those after it (R31, R459). -/
def State.powerFails (s : State) (d : Nat) : State := (s.powerDies (if d = 5 then 4 else d)).loseDie d

/-- Classes of the spare entry, in the order of R475. The numbers are the model's (log entry 8). -/
def spareTile : Nat := 0
def spareSpad : Nat := 1
def spareCol : Nat := 2
def spareSeam : Nat := 3
def spareLane : Nat := 4
def spareHbm : Nat := 5
def spareDepot : Nat := 7

/-- The lost lanes of one direction of a seam take spares; SEM_SPR_LAST at the receiving end names the last (R482). -/
def State.spareSeamLanes (s : State) (n : Nat) (dir : Bool) : State :=
  let lost := if dir then (s.seam n).lost1 else (s.seam n).lost0
  let receiver := if dir then (seamDies n).1 else (seamDies n).2
  s.forEach lost (fun s lane =>
    let used := (s.seam n).used dir
    if 64 ≤ used then s
    else
      let s := s.modSeam n (fun x =>
        if dir then { x with used1 := used + 1, lost1 := x.lost1.filter (· != lane) } else { x with used0 := used + 1, lost0 := x.lost0.filter (· != lane) })
      (s.setReg (semPage n receiver + 0xF04) (wordOf lane)).appendSpare spareSeam (2 * n + if dir then 1 else 0) lane used (63 - used))

/-- A seam at its maintenance point takes the spares that are pending for it, and trains (R231, R473, R475). -/
def State.trainSeam (s : State) (n : Nat) : State :=
  let changed := !((s.seam n).lost0.isEmpty && (s.seam n).lost1.isEmpty)
  let s := (s.spareSeamLanes n false).spareSeamLanes n true
  let s := if changed then s.extendMr4 else s
  s.modSeam n (fun x => { x with state := .training })

/-- Step 2: the next seam of the order trains, until every seam is active and the heartbeat runs. -/
def State.trainSeams (s : State) : State :=
  if seamOrder.any (fun n => (s.seam n).state == .training) then s
  else match seamOrder.find? (fun n => (s.seam n).state != .active) with
    | some n => s.trainSeam n
    | none => s.modBoot (fun b => { b with stage := 2, trained := true, beat0 := s.now 0x60, beat1 := s.now 0x61 })

/-- Frames that the record retires and does not restore. Its stacks are numbered from 0 and its depot devices from 16. -/
def Journal.retiredFrames (j : Journal) : List Nat :=
  j.entries.foldl (fun l e =>
    let dev := nth e.vals 0
    let k := (if dev < 16 then dev else dev - 4) * 40960 + nth e.vals 1
    if e.kind = 0xB then (l ++ [k]).eraseDups else if e.kind = 0xC then l.filter (· != k) else l) []

/-- Step 5: empty tables, the free frame pool and the default seepage thresholds (R188, R459). -/
def State.buildPool (s : State) : State :=
  let s := s.modStore (fun m => { m with tabD0 := [], tabD4 := [], frames := [], accFrames := [], retired := s.journal.retiredFrames })
  let s := s.forEach (List.range 12) (fun s n => s.setReg (hmcPage n + 0x054) 256)
  let s := s.forEach (List.range 8) (fun s n => s.setReg (depPage n + 0x054) 64)
  s.forEach (List.range 32) (fun s i => s.setReg (colPage (i / 8) (8 * (i % 8)) + 0x054) 16)

/-- Step 6: MR4, the boot entry, the mailbox domain, and STATE operational. -/
def State.operate (s : State) : State :=
  let s := s.extendMr4
  let s := s.append 3 [leNat s.boot.mr2, s.boot.svnRun, s.timingRev, leNat s.spareDigest]
  let s := s.modBoot (fun b => { b with
    mboxOn := true, part := .operational, boot := 5, stage := 0, warm := false })
  s.calibrate.retune

/-- A stack fails its training, which is part-ending (R31). -/
def State.stackFails (s : State) (n : Nat) : State :=
  (((s.logError (hmcPage n) 2 (0x0500 + n) n 0x1F).modBoot (fun b => { b with untrained := some n })).failPart (0x0500 + n)
    (failRankOf (n / 3) false n) n)

/-- A depot device fails its training. -/
def State.depotFails (s : State) (n : Nat) : State :=
  (((s.logError (depPage n) 2 (0x0510 + n) n 0x1F).modBoot (fun b => { b with untrained := some (12 + n) })).failPart (0x0510 + n)
    (failRankOf (4 + n / 4) false n) n)

/-- A TSV lane that fails its training takes a repair lane of its stack, of spare class 6 (log entry 8); with none left the
stack fails its training (R475). -/
def State.spareTsvLane (s : State) (n : Nat) : State :=
  let k := Table.get 0 s.spares.tsvUsed n
  if Config.tsvLanes n ≤ k then s.stackFails n
  else
    ((s.modSpares (fun y => { y with tsvUsed := Table.put 0 y.tsvUsed n (k + 1) })).appendSpare 6 n k k (Config.tsvLanes n - k - 1)).extendMr4

/-- Step 4: the memory that trains ends its training, and the next of H0 to H11 and D0 to D7 is powered; what fails is the memory
that trains (R440). A failure is part-ending (R31). -/
def State.trainMemories (s : State) (e : BringUpEvent) : State :=
  let k := s.boot.memories
  match e with
  | .hbmFails n => if n.val + 1 = k then s.stackFails n.val else s
  | .tsvLaneFails n => if n.val + 1 = k then s.spareTsvLane n.val else s
  | .depotFails n => if 13 + n.toNat = k then s.depotFails n.toNat else s
  | .ok => if k < 20 then s.modBoot (fun b => { b with memories := k + 1 }) else s.modBoot (fun b => { b with stage := 5 })
  | .dieLost _ => s

/-- Step 3: the image crosses seams 4, 2 and 6 to S1's boot SRAM, on their control channels, once they are in service (R20). DEDUCED:
log entry 149. -/
def State.copyImage (s : State) : State :=
  let img := s.boot.image s.boot.active
  let n := seamFlits img.length
  if !([4, 2, 6].all s.seamUp) then s
  else (s.crossSeams 4 1 n n [4, 2, 6]).modBoot (fun b => { b with stage := 3, copied := img })

/-- BRING_UP: curator 0 ends the next step of R459; a warm restart runs steps 3, 5 and 6 (R461). Step 2 goes on with
SEAM_TRAINING and step 3 with CROSS_CHECK. -/
def execBringUp (e : BringUpEvent) (s : State) : Host.Outcome State Fault Refusal :=
  .next (
    if s.boot.part != .bringUp then s
    else match s.boot.stage, e with
      | 0, .ok => (s.powerDies 5).modBoot (fun b => { b with stage := 1 })
      | 0, .dieLost d => if d.val = 4 then s else s.powerFails d.val
      | 1, .ok => s.trainSeams
      | 2, .ok => s.copyImage
      | 4, e => s.trainMemories e
      | 5, .ok => s.buildPool.modBoot (fun b => { b with stage := 6 })
      | 6, .ok => s.operate
      | _, _ => s)

/-- The F-dies and the S1 core lose power. The lc counters of S1 start again at their next lock (R450). -/
def State.powerDown (s : State) : State :=
  let s := s.seamsDown
  let s := s.modJournal (fun j => { j with cycles := (List.range 8).foldl (fun l i =>
    Table.put 0 l (0x48 + i) (Table.get 0 l (0x48 + i) + (s.now (0x48 + i)).toNat)) j.cycles })
  let s := { s with time := s.time.filter (fun e => !(decide (0x48 ≤ e.1) && decide (e.1 < 0x50))) }
  let s := { s with regs := s.regs.filter (fun e => dieOfPage e.1 == 4 || sinceManufacture e.1), tiles := [], conservators := [] }
  let s := s.modLinks (fun l => { l with ports := l.ports.filter (fun e => decide (e.1 < 8)) })
  s.modBoot (fun b => { b with dieUp := if b.s0On then 16 else 0, trained := false, memories := 0, start2 := none })

/-- Back to awaiting an image, or VIN where the S0 core has no power: the mailbox domain is down, which returns channels 8 to 31 to IDLE (R424). -/
def State.awaitImage (s : State) : State :=
  (s.forEach ((List.range 24).map (· + 8)) (fun s c => s.idleChannel c)).modBoot (fun b => { b with
    mboxOn := false, part := .awaiting, boot := if b.s0On then 2 else 1, stage := 0, maint := 0, warm := false, active := 0, otherVerified := false, svnRun := 0, start0 := none })

/-- Free bytes: the digest that a spoilt copy has. -/
def State.spoiltDigest (s : State) : Nat → List Byte × State
  | 0 => ([], s)
  | n + 1 =>
    let a := s.draw
    let b := State.spoiltDigest a.2 n
    (leBytes 4 a.1.toNat ++ b.1, b.2)

/-- A failed cross-check at a cold start returns to awaiting an image; in a warm restart the old image is active again
and the new bank is rejected (R460, R461). -/
def State.crossFails (s : State) : State :=
  let s := s.setIrq rotPage 4
  if s.boot.warm then
    if s.boot.otherVerified then
      let s := (s.modBoot (fun b => { b with bank := b.active, active := 1 - b.active, stage := 2 })).rejectImage 7
      s.takeEffect
    else (s.modBoot (fun b => { b with stage := 2 })).takeEffect
  else ((s.modBoot (fun b => { b with bank := b.active })).rejectImage 7).powerDown.awaitImage

/-- CROSS_CHECK: S1's instance has hashed the copy and compares its digest with MR2 (R460). Curators 2 and 3 start from ENTRY_S1 once it
matches (R455, R459). -/
def execCrossCheck (intact : Bool) (s : State) : Host.Outcome State Fault Refusal :=
  .next (
    if s.boot.part != .bringUp || s.boot.stage != 3 then s
    else if intact then
      s.modBoot (fun b => { b with
        xDone := true, xMatch := true, xDigest := imageDigest b.copied, start2 := some (wordOf (peek b.copied 0x14 4))
        stage := if b.warm then 5 else 4, memories := if b.warm then b.memories else 1 })
    else
      let d := s.spoiltDigest 8
      (d.2.modBoot (fun b => { b with xDone := true, xMatch := false, xDigest := d.1 })).crossFails)

end Sys2Proof.Machine
end

