-- ==== Sys2Proof/Machine/Secure.lean ====
section
/-!
DEFINITION. The requests of the secure channels: catalogue policy and keys, restart, shutdown and minimum version, attestation, and refurbishment (R427, R458, R461 to R466, R490, R491).
-/

namespace Sys2Proof.Machine

/-- Every polder is FREE. -/
def State.allFree (s : State) : Bool := (List.range 16).all (fun p => (s.pld p).state == .free)

/-- A request of a secure channel whose opcode is given: it is taken, and its meaning runs on its body. -/
def State.serveSecure (s : State) (c op : Nat) (act : List Byte → State → State) : State :=
  match s.request c op with
  | none => s
  | some b => act b (s.takeRequest c)

/-! ### Catalogue policy and keys (R427, R458) -/

/-- A carried-out policy request extends MR3 with the digest of its body. -/
def State.extendMr3 (s : State) (b : List Byte) : State := s.modBoot (fun x => { x with mr3 := extend x.mr3 (sha3 b) })

/-- The policy requests are accepted outside the awaiting-image state, with every polder FREE and no LOCK (R427, R465). -/
def State.policyOpen (s : State) : Bool := s.boot.part != .awaiting && s.allFree && !s.hif.lock

/-- A policy request with its form check and effect. -/
def State.policyRequest (s : State) (c : Nat) (b : List Byte) (ok : Bool) (act : HostIf → HostIf) : State :=
  if !s.policyOpen then s.reply c 0x8003 []
  else if !ok then s.reply c 0x8001 []
  else ((s.modHif act).extendMr3 b).reply c 0 []

/-- CAT_POLICY (R427). -/
def execCatPolicy (c : ChannelId) (s : State) : Host.Outcome State Fault Refusal :=
  .next (s.serveSecure c.toNat 0x0301 (fun b s =>
    let v := peek b 4 4
    s.policyRequest c.toNat b (formed b 8 [(4, 4)] && decide (v < 4)) (fun h => { h with requireSig := bitAt v 0, lock := bitAt v 1 })))

/-- KEY_ADD (R427). -/
def execKeyAdd (c : ChannelId) (s : State) : Host.Outcome State Fault Refusal :=
  .next (s.serveSecure c.toNat 0x0302 (fun b s =>
    let slot := peek b 4 4
    s.policyRequest c.toNat b (formed b 40 [(4, 4), (8, 32)] && decide (slot < 8)) (fun h => { h with
      keys := Table.put [] h.keys slot ((b.drop 8).take 32) })))

/-- KEY_REMOVE (R427). -/
def execKeyRemove (c : ChannelId) (s : State) : Host.Outcome State Fault Refusal :=
  .next (s.serveSecure c.toNat 0x0303 (fun b s =>
    let slot := peek b 4 4
    s.policyRequest c.toNat b (formed b 8 [(4, 4)] && decide (slot < 8)) (fun h => { h with keys := Table.put [] h.keys slot [] })))

/-! ### Restart, shutdown and minimum version (R461 to R463) -/

/-- The other bank's image becomes active and bring-up runs again from step 3. -/
def State.warmRestart (s : State) : State :=
  let s := s.forEach ((List.range 24).map (· + 8)) (fun s c => s.idleChannel c)
  (s.modBoot (fun b => { b with
    mboxOn := false, maint := 0, part := .bringUp, boot := 6, warm := true, stage := 2, start2 := none, active := 1 - b.active, restarts := b.restarts + 1 })).takeEffect

/-- RESTART (R461). -/
def execRestart (c : ChannelId) (s : State) : Host.Outcome State Fault Refusal :=
  .next (s.serveSecure c.toNat 0x0401 (fun b s =>
    if s.boot.part != .operational || !s.allFree || !s.boot.otherVerified then s.reply c.toNat 0x8003 []
    else if !formed b 4 [] then s.reply c.toNat 0x8001 []
    else (s.reply c.toNat 0 []).warmRestart))

/-- SHUTDOWN: the totals and a clean-shutdown entry, and back to awaiting an image. Only a cold start leaves the failed
state (R27, R463, R485). -/
def execShutdown (c : ChannelId) (s : State) : Host.Outcome State Fault Refusal :=
  .next (s.serveSecure c.toNat 0x0402 (fun b s =>
    if s.boot.part == .failed || !s.allFree then s.reply c.toNat 0x8003 []
    else if !formed b 4 [] then s.reply c.toNat 0x8001 []
    else
      let s := s.appendTotals
      let s := s.append 4 s.journal.lastUsage
      ((s.reply c.toNat 0 []).powerDown).awaitImage))

/-- SVN_COMMIT: the fused minimum rises to the running image's SVN, and never falls (R462). -/
def execSvnCommit (c : ChannelId) (s : State) : Host.Outcome State Fault Refusal :=
  .next (s.serveSecure c.toNat 0x0403 (fun b s =>
    if s.boot.part != .operational then s.reply c.toNat 0x8003 []
    else if !formed b 4 [] then s.reply c.toNat 0x8001 []
    else if s.boot.svnRun ≤ s.boot.svnMin then s.reply c.toNat 0 []
    else ((s.modBoot (fun x => { x with svnMin := x.svnRun })).append 0xF [s.boot.svnRun]).reply c.toNat 0 []))

/-! ### Attestation (R465, R466) -/

/-- STATE as CUR_PART_STS shows it (R26). -/
def PartState.code : PartState → Nat
  | .awaiting => 0
  | .bringUp => 1
  | .operational => 2
  | .failed => 3

/-- Bytes 0x000 to 0x10F of the report. -/
def State.reportBody (s : State) (nonce : List Byte) : List Byte :=
  let b := s.boot
  leBytes 2 1 ++ leBytes 1 (b.part.code + if b.xMatch then 128 else 0) ++ [0] ++ leBytes 4 2692 ++ leBytes 8 Config.fuseSerial.toNat ++
  padTo 0 32 nonce ++ padTo 0 32 b.mr0 ++ padTo 0 32 b.mr1 ++ padTo 0 32 b.mr2 ++ padTo 0 32 b.mr3 ++ padTo 0 32 b.mr4 ++
  leBytes 2 b.svnRun ++ leBytes 2 b.svnMin ++ leBytes 4 b.restarts ++ leBytes 2 Config.arithRev ++ leBytes 2 s.timingRev ++ leBytes 4 0 ++
  leBytes 8 s.journal.entries.length ++ s.journal.head ++ leBytes 8 s.cc.toNat

def State.report (s : State) (nonce : List Byte) : List Byte :=
  let b := s.reportBody nonce
  b ++ padTo 0 2420 (mldsaSign identitySeed b)

/-- The echoed opcode with its reserved half. -/
def echo (b : List Byte) : List Byte := b.take 2 ++ [0, 0]

/-- ATTEST: the report replaces the channel's previous one (R466). -/
def execAttest (c : ChannelId) (s : State) : Host.Outcome State Fault Refusal :=
  .next (s.serveSecure c.toNat 0x0410 (fun b s =>
    if !formed b 40 [(8, 32)] then s.reply c.toNat 0x8001 (echo b)
    else
      (s.modChan c.toNat (fun x => { x with report := s.report ((b.drop 8).take 32) })).reply c.toNat 0 (echo b ++ leBytes 4 2692)))

/-- Up to 240 bytes of a text from an offset below its length. -/
def pieceOf (text : List Byte) (off : Nat) : List Byte := (text.drop off).take 240

/-- REPORT_READ (R465). -/
def execReportRead (c : ChannelId) (s : State) : Host.Outcome State Fault Refusal :=
  .next (s.serveSecure c.toNat 0x0411 (fun b s =>
    let text := (s.chan c.toNat).report
    let off := peek b 4 4
    if !formed b 8 [(4, 4)] || text.length ≤ off then s.reply c.toNat 0x8001 (echo b)
    else s.reply c.toNat 0 (echo b ++ leBytes 4 (pieceOf text off).length ++ leBytes 8 0 ++ pieceOf text off)))

/-- CERT_READ (R464, R465). -/
def execCertRead (c : ChannelId) (s : State) : Host.Outcome State Fault Refusal :=
  .next (s.serveSecure c.toNat 0x0412 (fun b s =>
    let text := certificate (peek b 4 4)
    let off := peek b 8 4
    if !formed b 12 [(4, 8)] || 2 < peek b 4 4 || text.length ≤ off then s.reply c.toNat 0x8001 (echo b)
    else s.reply c.toNat 0 (echo b ++ leBytes 4 text.length ++ leBytes 4 (pieceOf text off).length ++ leBytes 4 0 ++ pieceOf text off)))

/-! ### Refurbishment (R490, R491) -/

/-- A calibration record of a statement: die, source 1, and its points. -/
def statementCal (m : List Byte) (a : Nat) : List Nat :=
  calVals (peek m a 1) 1 ((List.range (peek m (a + 1) 1)).map (fun i =>
    (peek m (a + 2 + 4 * i) 2, peek m (a + 4 + 4 * i) 1, peek m (a + 5 + 4 * i) 1)))

def calRecordOk (m : List Byte) (a : Nat) : Bool := decide (peek m a 1 < 4) && decide (peek m (a + 1) 1 ≤ 8) && zeros m (a + 34) 2

/-- The largest COUNTER of the record's refurbishment entries plus one, or 0. -/
def Journal.counterAbove (j : Journal) : Nat := j.entries.foldl (fun m e => if e.kind = 0x10 then max m (nth e.vals 2 + 1) else m) 0

/-- The REASON for which a statement is refused, or none (R491). -/
def State.statementReason (s : State) (m : List Byte) : Option Nat :=
  let n := peek m 0x90 1
  let key := (m.drop 0x130).take 1312
  if peek m 0 2 != 1 || (n != 0 && n != 4) || 2 < peek m 3 1 || !zeros m 0x91 15 || !(List.range n).all (fun i => calRecordOk m (0xA0 + 36 * i)) then some 1
  else if peek m 8 8 != Config.fuseSerial.toNat then some 2
  else if peek m 4 4 < s.journal.counterAbove then some 3
  else if sha3 key != Config.fuseRefurbKey then some 4
  else if !mldsaVerify key (m.take 0x650) ((m.drop 0x650).take 2420) then some 5
  else none

/-- The statement's entries, whose calibrations take effect at once (R441, R491). -/
def State.takeStatement (s : State) (m : List Byte) : State :=
  let s := s.append 0x10 [peek m 2 1, peek m 3 1, peek m 4 4, peek m 0x10 128, leNat (sha3 ((m.drop 0x130).take 1312))]
  let s := s.forEach (List.range (peek m 0x90 1)) (fun s i => s.append 2 (statementCal m (0xA0 + 36 * i)))
  (s.forEach (List.range 6) (fun s d => s.modDie d (fun x => { x with cal := s.journal.calibration d }))).calibrate

/-- REFURB (R490, R491). -/
def execRefurb (c : ChannelId) (rd : HostRead) (s : State) : Host.Outcome State Fault Refusal :=
  .next (s.serveSecure c.toNat 0x0430 (fun b s =>
    if s.boot.part != .operational || !s.allFree then s.reply c.toNat 0x8003 []
    else if !formed b 16 [(8, 8)] || peek b 8 8 % 64 != 0 then s.reply c.toNat 0x8001 (leBytes 8 0)
    else match rd with
      | .fails _ => s.reply c.toNat 0x8005 []
      | .success =>
        let m := s.hostRead (peek b 8 8) 0xFC4
        let s := s.askHost 0 (peek b 8 8) 0xFC4
        match s.statementReason m with
        | some r => s.reply c.toNat 0x8001 (leBytes 4 0 ++ leBytes 4 r)
        | none => (s.takeStatement m).reply c.toNat 0 []))

end Sys2Proof.Machine
end

