-- ==== Sys2Proof/Machine/Service.lean ====
section
/-!
DEFINITION. Maintenance points and spares, part-wide maintenance and the usage interval (R472 to R482, R488).
-/

namespace Sys2Proof.Machine

/-! ### Maintenance points (R472) -/

def State.pairFree (s : State) (row : Nat) : Bool := (s.rowOwner (row / 2 * 2)).isNone && (s.rowOwner (row / 2 * 2 + 1)).isNone

/-- No polder outside FREE names a seam, or a port, in its catalogue. -/
def State.seamUnused (s : State) (n : Nat) : Bool := (List.range 16).all (fun p => !(s.pld p).state.owns || !bitAt (s.pld p).cat.seams n)

def State.stripeFree (s : State) (d row : Nat) : Bool := (s.stripesHeld d).all (fun h => decide (row < h.1) || decide (h.2 ≤ row))

def State.dieUnused (s : State) (d : Nat) : Bool := (List.range 8).all (fun r => (s.rowOwner (8 * d + r)).isNone)

/-! ### Substitutions (R473, R475 to R477) -/

/-- A management request is under way: it has been begun and not yet answered, or it is a CREATE that loads. -/
def State.managing (s : State) : Bool :=
  (List.range 32).any (fun c =>
    let x := s.chan c
    x.state == .busy && x.taken && x.reply.isNone && requestOpcode x.request / 256 == 1) ||
  (List.range 16).any (fun p => (s.pld p).reqChannel.isSome)

/-- The slot of a logical tile's regular position in its row pair, and a physical tile ID (R477). -/
def regularSlot (t : Nat) : Nat := rowOfTile t % 2 * 8 + colOfTile t
def pairOf (t : Nat) : Nat := t / 16
def physId (pair slot : Nat) : Nat := pair / 4 * 128 + pair % 4 * 32 + slot

/-- Counts a substitution in a row and extends MR4 after its entry (R473, R481). -/
def State.noteSub (s : State) (row : Nat) : State := s.modSpares (fun y => { y with subs := Table.put 0 y.subs row (Table.get 0 y.subs row + 1) })

/-- The pair's spare takes a tile's place, with scratchpad rows of its own; without one the tile's row is disabled. -/
def State.spareTileUnit (s : State) (t : Nat) : State :=
  let pair := pairOf t
  let slot := regularSlot t
  if !s.spares.tilePending.contains t || !s.pairFree (t / 8) then s
  else
    let s := s.modSpares (fun y => { y with tilePending := y.tilePending.filter (· != t), spadPending := y.spadPending.filter (fun e => e.1 != t) })
    if Table.get 0 s.spares.tileOf pair != 0 then s.modSpares (fun y => { y with rowDisabled := (y.rowDisabled ++ [t / 8]).eraseDups })
    else
      let s := s.modSpares (fun y => { y with tileOf := Table.put 0 y.tileOf pair (slot + 1), spadUsed := Table.put 0 y.spadUsed t 0 })
      ((s.noteSub (t / 8)).appendSpare spareTile t (physId pair slot) (physId pair 16) 0).extendMr4

/-- A spare row of the tile's scratchpad; without one the tile is marked pending. -/
def State.spareSpadRow (s : State) (t row : Nat) : State :=
  let n := Table.get 0 s.spares.spadUsed t
  if !s.spares.spadPending.contains (t, row) || !s.pairFree (t / 8) then s
  else
    let s := s.modSpares (fun y => { y with spadPending := y.spadPending.filter (· != (t, row)) })
    if 164 ≤ n then s.modSpares (fun y => { y with tilePending := (y.tilePending ++ [t]).eraseDups })
    else
      let s := s.modSpares (fun y => { y with spadUsed := Table.put 0 y.spadUsed t (n + 1) })
      ((s.noteSub (t / 8)).appendSpare spareSpad t row n (163 - n)).extendMr4

/-- A spare row of the bank, or of the other bank of its pair: a cross-bank remap, which raises the timing revision (R479). -/
def State.spareColRow (s : State) (d bank row : Nat) : State :=
  let key := d * 64 + bank
  let other := if bank % 2 = 0 then key + 1 else key - 1
  let n := Table.get 0 s.spares.colUsed key
  let m := Table.get 0 s.spares.colUsed other
  if !s.spares.colPending.contains (key, row) || !s.stripeFree d row || (82 ≤ n && 82 ≤ m) then s
  else
    let s := s.modSpares (fun y => { y with colPending := y.colPending.filter (· != (key, row)) })
    if n < 82 then
      ((s.modSpares (fun y => { y with colUsed := Table.put 0 y.colUsed key (n + 1) })).appendSpare spareCol key row n (81 - n)).extendMr4
    else
      let s := s.modSpares (fun y => { y with
        colUsed := Table.put 0 y.colUsed other (m + 1), crossBank := Table.put 0 y.crossBank (key / 8) (Table.get 0 y.crossBank (key / 8) + 1) })
      (s.appendSpare spareCol key row (82 + m) (81 - m)).extendMr4

/-- An out-of-service seam takes its spares and trains, which SEAM_TRAINING ends (R231, R526). -/
def State.spareSeamUnit (s : State) (n : Nat) : State :=
  if (s.seam n).state != .outOfService || !s.seamUnused n then s
  else s.trainSeam n

/-- Unused spare link lanes of an S-die: a spare that has failed stays used (R378, R482). -/
def State.lanesLeft (s : State) (sdie : Nat) : Nat := 2 - Table.get 0 s.spares.laneUsed sdie

/-- The first unused spare lane of an S-die: 1 is lane 32, 2 is lane 33. -/
def State.spareLaneOf (s : State) (sdie : Nat) : Option Nat := if s.lanesLeft sdie = 0 then none else some (3 - s.lanesLeft sdie)

/-- A port lane that failed takes a spare lane of its S-die, and the port trains once no lane of it is pending. -/
def State.spareLinkLane (s : State) (n lane : Nat) (ok : Bool) : State :=
  let key := n * 4 + lane
  if !s.spares.lanePending.contains key || s.portNamed n || (s.port n).state != .laneFault then s
  else match s.spareLaneOf (n / 8) with
    | none => s
    | some k =>
      let s := s.modSpares (fun y => { y with
        lanePending := y.lanePending.filter (· != key)
        laneMap := Table.put 0 y.laneMap key k
        laneUsed := Table.put 0 y.laneUsed (n / 8) k })
      let s := (s.appendSpare spareLane n lane (31 + k) (s.lanesLeft (n / 8))).extendMr4
      if s.spares.lanePending.any (fun e => e / 4 == n) then s
      else (s.modPort n (fun x => { x with state := .training })).endTraining n (if ok then 15 else 15 ^^^ BitVec.ofNat 4 (2 ^ lane))

/-- SPARE_SUBSTITUTION: curator 0 applies what is pending for a unit at its maintenance point; the Bool is the outcome of
the training that follows on a port. A regulator leaves its fault there (R448, R473, R475). -/
def execSpareSubstitution (u : SpareUnit) (ok : Bool) (s : State) : Host.Outcome State Fault Refusal :=
  .next (
    if (s.boot.part != .operational && s.boot.part != .bringUp) || s.managing then s
    else match u with
      | .tile t => s.spareTileUnit t.toNat
      | .scratchpadRow t row => s.spareSpadRow t.toNat row.toNat
      | .collectionRow d bank row => s.spareColRow d.toNat bank.toNat row.toNat
      | .seamLane n => s.spareSeamUnit n.toNat
      | .linkLane n lane => s.spareLinkLane n.toNat lane.toNat ok
      | .regulator d =>
        if (s.die d.toNat).regFault && s.dieUnused d.toNat then (s.modDie d.toNat (fun x => { x with regFault := false })).retuneDie d.toNat else s)

/-! ### Part-wide maintenance (R474, R475) -/

/-- The scrub of a free frame finds an uncorrectable error: the frame is retired (R186). -/
def State.scrubFrame (s : State) (depot : Bool) (dev f : Nat) : State :=
  let x : Target := { space := if depot then .depot else .hbm, dev := dev, off := f * 2 ^ 21 }
  if openFrames depot dev ≤ f || !s.frameFree (frameKey depot dev + f) then s
  else
    let s := s.bump (x.page + 0x058) 1
    let s := (s.setReg (x.page + 0x060) (wordOf x.lastWord)).setIrq x.page 2
    (s.logError x.page 2 x.errorCode dev 0x1F).retireFrame x x.errorCode

/-- The row repair of a retired frame passes its check: the frame returns to the pool (R475). -/
def State.repairFrame (s : State) (depot : Bool) (dev f : Nat) : State :=
  let k := frameKey depot dev + f
  let unit := if depot then 16 + dev else dev
  let n := Table.get 0 s.spares.repairs unit
  if !s.store.retired.contains k || Config.rowRepairs unit ≤ n then s
  else
    let s := s.modSpares (fun y => { y with
      repairs := Table.put 0 y.repairs unit (n + 1), restored := Table.put 0 y.restored unit (Table.get 0 y.restored unit + 1) })
    let s := s.modStore (fun m => { m with retired := m.retired.filter (· != k) })
    let s := (s.appendSpare (if depot then spareDepot else spareHbm) unit f n (Config.rowRepairs unit - n - 1)).extendMr4
    s.append 0xC [unit, f]

/-- Step 1: the logic self-test of the tiles. -/
def State.selfTest (s : State) (f : MaintFindings) : State :=
  s.modSpares (fun y => { y with
    tilePending := (y.tilePending ++ f.tiles.map (·.toNat)).eraseDups
    spadPending := (y.spadPending ++ f.spadRows.map (fun x => (x.1.toNat, x.2.toNat))).eraseDups
    colPending := (y.colPending ++ f.colRows.map (fun (x : BitVec 2 × BitVec 6 × BitVec 12) => (64 * x.1.toNat + x.2.1.toNat, x.2.2.toNat))).eraseDups })

/-- A 64-byte unit of a free frame that the scrub reads needs correction (R185). -/
def State.scrubCorrected (s : State) (depot : Bool) (dev f unit : Nat) : State :=
  if openFrames depot dev ≤ f || !s.frameFree (frameKey depot dev + f) || (if depot then 8 else 12) ≤ dev then s
  else s.memCorrected { space := if depot then .depot else .hbm, dev := dev, off := f * 2 ^ 21 + unit * 64 }

/-- Every free frame of a device has been read (R187). -/
def State.scrubDevice (s : State) (depot : Bool) (dev : Nat) : State :=
  s.countRead { space := if depot then .depot else .hbm, dev := dev, off := 0 } (s.freeFrames depot dev * 2 ^ 21)

/-- Step 2: the scrub of the free frames, whose reads count once it has ended. DEDUCED: log entry 72. -/
def State.scrub (s : State) (f : MaintFindings) (ends : Bool) : State :=
  let s := if ends then (s.forEach (List.range 12) (fun s n => s.scrubDevice false n)).forEach (List.range 8) (fun s n => s.scrubDevice true n) else s
  let s := s.forEach f.corrected (fun s x => s.scrubCorrected x.1 x.2.1.toNat x.2.2.1.toNat x.2.2.2.toNat)
  let s := s.forEach f.hbmFrames (fun s x => s.scrubFrame false x.1.val x.2.toNat)
  s.forEach f.depotFrames (fun s x => s.scrubFrame true x.1.toNat x.2.toNat)

/-- Step 3: the row repair of retired frames; a TSV lane that fails its training takes a spare. -/
def State.repairRows (s : State) (f : MaintFindings) : State :=
  let s := s.forEach f.hbmRepaired (fun s x => s.repairFrame false x.1.val x.2.toNat)
  let s := s.forEach f.depotRepaired (fun s x => s.repairFrame true x.1.toNat x.2.toNat)
  s.forEach f.tsvLanes (fun s n => s.spareTsvLane n.val)

/-- Step 4: the appends. The scrub counts for the usage interval that begins here (log entry 29). -/
def State.endMaintenance (s : State) : State :=
  ((s.appendTotals).modJournal (fun j => { j with scrubbed := true })).modBoot (fun b => { b with maint := 0 })

/-- PART_WIDE_MAINTENANCE: self-test, scrub, row repair and appends, with every polder FREE (R474). A run goes on from the step in which
the last one paused, and ends with the appends or in the step in which a CREATE makes it pause (R474, R494). -/
def execPartWideMaintenance (f : MaintFindings) (s : State) : Host.Outcome State Fault Refusal :=
  let first := max 1 s.boot.maint
  let last := match f.pause with
    | some k => k.toNat
    | none => 4
  .next (
    if s.boot.part != .operational || !(List.range 16).all (fun p => (s.pld p).state == .free) || last < first ||
       (s.boot.maint = 0 && s.journal.scrubbed && s.store.retired.isEmpty) then s
    else
      let s := if first ≤ 1 then s.selfTest f else s
      let s := if first ≤ 2 && 2 ≤ last then s.scrub f (3 ≤ last) else s
      let s := if 3 ≤ last then s.repairRows f else s
      if s.boot.part == .failed then s
      else if last = 4 then s.endMaintenance
      else s.modBoot (fun b => { b with maint := last }))

/-! ### The usage interval (R487, R488) -/

/-- The usage interval in cc of S0: 24 h, or 30 days once FULL_SOON is set. -/
def Journal.interval (j : Journal) : Nat := if j.fullSoon then 30 * 103680000000000 else 103680000000000

/-- USAGE_INTERVAL (R485, R488). -/
def execUsageInterval (s : State) : Host.Outcome State Fault Refusal :=
  .next (if s.board.vaux && s.elapsed ccDom s.journal.usageCc s.journal.interval then s.appendTotals else s)

end Sys2Proof.Machine
end

