-- ==== Sys2Proof/Machine/Registers.lean ====
section
/-!
DEFINITION. What every register of the management window reads as: the page index, the common header, the die control page
and the registers of each class (R7, R92 to R94, R124, R149, R166, R188 to R190, R217, R230, R256, R257, R280, R303 to R305, R320,
R321, R345, R369, R370, R399 to R401, R420, R428, R449, R450, R469, R470, R481, R482, R493, R500, R504 to R509).
-/

namespace Sys2Proof.Machine

/-- A word from fields: values with the bit at which each begins. -/
def wordOfFields (l : List (Nat × Nat)) : Word := wordOf (l.foldl (fun n e => n + e.1 * 2 ^ e.2) 0)

def flag (b : Bool) : Nat := if b then 1 else 0

/-! ### The page index (R509) -/

/-- How many instances of a class a die holds. -/
def instancesOf (die cls : Nat) : Nat :=
  let onF (n : Nat) : Nat := if die < 4 then n else 0
  let onS (n : Nat) : Nat := if die = 4 || die = 5 then n else 0
  let onS0 (n : Nat) : Nat := if die = 4 then n else 0
  match cls with
  | 0x00 => if die < 6 then 1 else 0
  | 0x01 => onF 8
  | 0x02 => onF 8
  | 0x03 => onF 3
  | 0x04 => onF 3
  | 0x05 => onF 3
  | 0x06 => onF 8
  | 0x07 => if die < 6 then 1 else 0
  | 0x08 => if die < 4 then 3 else onS 2
  | 0x09 => onS0 16
  | 0x10 => onS 8
  | 0x11 => onS0 1
  | 0x12 => onS 4
  | 0x13 => onS0 4
  | 0x14 => onS 2
  | 0x15 => onS 1
  | 0x16 => onS0 1
  | 0x17 => onS0 16
  | _ => 0

def pageExists (pg : Nat) : Bool := decide (instOfPage pg < instancesOf (dieOfPage pg) (classOfPage pg))

/-- The power domain of a page (R431, R509). -/
def powerDomain (pg : Nat) : Nat :=
  let die := dieOfPage pg
  let core := if die < 4 then 4 + die else if die = 4 then 1 else 3
  match classOfPage pg with
  | 0x03 => 8 + die
  | 0x12 => 8 + die
  | 0x13 => if instOfPage pg = 0 then 0 else 2
  | 0x14 => if die = 4 then 0 else 3
  | 0x15 => if die = 4 then 0 else 3
  | 0x16 => 0
  | _ => core

/-- Bring-up has powered a memory, the stacks as 0 to 11 and the depot devices as 12 to 19, and its die has power still (R440, R459). -/
def State.memoryOn (s : State) (k : Nat) : Bool :=
  decide (k < s.boot.memories) && (if k < 12 then bitAt s.boot.dieUp (k / 3) else if k < 16 then s.boot.s0On else bitAt s.boot.dieUp 5)

/-- Whether a power domain is up; a domain of memories is with its first one. DEDUCED: log entry 101. -/
def State.domainUp (s : State) (n : Nat) : Bool :=
  match n with
  | 0 => s.board.vaux && s.boot.boot != 0
  | 1 => s.boot.s0On
  | 2 => s.boot.mboxOn
  | 3 => bitAt s.boot.dieUp 5
  | 12 => s.memoryOn 12
  | 13 => s.memoryOn 16
  | n => if n < 8 then bitAt s.boot.dieUp (n % 4) else s.memoryOn (3 * (n % 4))

/-- A page answers while it exists, its power domain is up and SYSCLK has not stopped (R8, R525). -/
def State.pageUp (s : State) (pg : Nat) : Bool := pageExists pg && s.domainUp (powerDomain pg) && !s.board.sysclkLost

/-! ### Units of a page -/

/-- The seam whose end a page is (R18). -/
def seamOf (pg : Nat) : Nat :=
  ((List.range 8).find? (fun n => semPage n (seamDies n).1 == pg || semPage n (seamDies n).2 == pg)).getD 0

/-- The direction that a seam end receives. -/
def receives (pg : Nat) : Bool := (seamDies (seamOf pg)).1 == dieOfPage pg

def portOf (pg : Nat) : Nat := 8 * (dieOfPage pg - 4) + instOfPage pg
def stackOf (pg : Nat) : Nat := 3 * dieOfPage pg + instOfPage pg
def depotOf (pg : Nat) : Nat := 4 * (dieOfPage pg - 4) + instOfPage pg
def rowOf (pg : Nat) : Nat := 8 * dieOfPage pg + instOfPage pg

/-- The number of a stack or device as a unit of the spares, and the frames of a device. -/
def memoryUnit (pg : Nat) : Nat := if classOfPage pg = 0x03 then stackOf pg else 16 + depotOf pg
def memoryFrame (pg : Nat) : Nat := if classOfPage pg = 0x03 then frameKey false (stackOf pg) else frameKey true (depotOf pg)

/-- The keys of the banks of a collection bank group. -/
def banksOf (pg : Nat) : List Nat := (List.range 8).map (fun i => 64 * dieOfPage pg + 8 * instOfPage pg + i)

/-- The tiles of a tile page. -/
def tilesOf (pg : Nat) : List Nat := (List.range 8).map (fun c => 8 * rowOf pg + c)

/-! ### The common header (R504, R505, R507, R528) -/

def classUnits (cls : Nat) : Nat := if cls = 0x01 || cls = 0x02 || cls = 0x06 || cls = 0x13 then 8 else 1
def freezable (cls : Nat) : Bool := cls == 0x01 || cls == 0x17
def ownable (cls : Nat) : Bool := cls == 0x01 || cls == 0x06 || cls == 0x09 || cls == 0x17
def sparing (cls : Nat) : Bool := [0x01, 0x02, 0x03, 0x08, 0x10, 0x12].contains cls

/-- The polder that BLK_OWNER shows (R507). -/
def State.pageOwner (s : State) (pg : Nat) : Nat :=
  let cls := classOfPage pg
  if cls = 0x01 || cls = 0x06 then ownerCode (s.rowOwner (rowOf pg))
  else if cls = 0x17 || cls = 0x09 then if (s.pld (instOfPage pg)).state.owns then instOfPage pg else 0x1F
  else 0x1F

/-- STATE (R505): the units of a page can carry a polder's work while the part is operational, except as listed. -/
def State.pageState (s : State) (pg : Nat) : Nat :=
  let base := if s.boot.part == .operational then 1 else 0
  match classOfPage pg with
  | 0x01 => if s.spares.rowDisabled.contains (rowOf pg) then 2 else base
  | 0x08 =>
    match (s.seam (seamOf pg)).state with
    | .failed => 2
    | .active => base
    | _ => 0
  | 0x10 =>
    match (s.port (portOf pg)).state with
    | .laneFault => if s.lanesLeft (dieOfPage pg - 4) = 0 then 2 else 0
    | .up => base
    | _ => 0
  | 0x06 => if s.spares.rowDisabled.contains (rowOf pg) then 0 else base
  | 0x03 => if s.boot.untrained == some (stackOf pg) then 2 else base
  | 0x12 => if s.boot.untrained == some (12 + depotOf pg) then 2 else base
  | _ => base

/-- A violation has frozen some slot of a shared engine. -/
def State.slotFrozen (s : State) (k : Nat) : Bool := (List.range 16).any (fun p => (s.slot k p).frozen)

/-- A master of a page is frozen, or a freeze of BLK_CTL holds (R360, R504). -/
def State.pageFrozen (s : State) (pg : Nat) : Bool :=
  match classOfPage pg with
  | 0x01 => bitAt (s.reg (pg + 0x008)).toNat 2 || (tilesOf pg).any (fun t =>
      (s.tile t).tcc.faulted || [0, 1, 2, 6].any (fun q => ((s.tile t).engine q).frozen))
  | 0x06 => (tilesOf pg).any (fun t => [3, 4, 5].any (fun q => ((s.tile t).engine q).frozen))
  | 0x04 => !(s.cns (stackOf pg)).frozen.isEmpty
  | 0x10 => s.slotFrozen (portOf pg)
  | 0x11 => s.slotFrozen 16 || s.slotFrozen 17 || (List.range 16).any s.vfFrozen
  | 0x14 => dieOfPage pg == 4 && instOfPage pg == 0 && s.slotFrozen 18
  | 0x17 => (s.pld (instOfPage pg)).frozen
  | _ => false

/-- A substitution has been applied to a unit of the page since manufacture (R504). -/
def State.pageSpared (s : State) (pg : Nat) : Bool :=
  match classOfPage pg with
  | 0x01 => Table.get 0 s.spares.subs (rowOf pg) != 0
  | 0x02 => (banksOf pg).any (fun k => Table.get 0 s.spares.colUsed k != 0) || Table.get 0 s.spares.crossBank (8 * dieOfPage pg + instOfPage pg) != 0
  | 0x03 => Table.get 0 s.spares.repairs (memoryUnit pg) != 0 || Table.get 0 s.spares.tsvUsed (stackOf pg) != 0
  | 0x12 => Table.get 0 s.spares.repairs (memoryUnit pg) != 0
  | 0x08 => (s.seam (seamOf pg)).used (receives pg) != 0
  | 0x10 => s.spares.laneMap.any (fun e => e.1 / 4 == portOf pg)
  | _ => false

/-- The row pair of a tile page has a substitution pending (R481). -/
def State.rowPending (s : State) (pg : Nat) : Bool :=
  s.spares.tilePending.any (fun t => t / 8 == rowOf pg) || s.spares.spadPending.any (fun e => e.1 / 8 == rowOf pg)

/-- The lost lanes of the direction that a seam end receives. -/
def State.lanesLost (s : State) (pg : Nat) : List Nat :=
  if receives pg then (s.seam (seamOf pg)).lost1 else (s.seam (seamOf pg)).lost0

/-- A substitution for a unit of the page is pending (R475, R504). -/
def State.pagePending (s : State) (pg : Nat) : Bool :=
  match classOfPage pg with
  | 0x01 => s.rowPending pg
  | 0x02 => s.spares.colPending.any (fun e => (banksOf pg).contains e.1)
  | 0x03 => s.store.retired.any (fun f => decide (memoryFrame pg ≤ f) && decide (f < memoryFrame pg + 40960))
  | 0x12 => s.store.retired.any (fun f => decide (memoryFrame pg ≤ f) && decide (f < memoryFrame pg + 40960))
  | 0x08 => !(s.lanesLost pg).isEmpty
  | 0x10 => s.spares.lanePending.any (fun k => k / 4 == portOf pg)
  | _ => false

/-- The FREEZE field of BLK_CTL: row bit of a tile page, debug freeze of a polder page, 0 elsewhere (R507). -/
def State.pageFreeze (s : State) (pg : Nat) : Bool :=
  match classOfPage pg with
  | 0x01 => bitAt (s.reg (pg + 0x008)).toNat 2
  | 0x17 => (s.pld (instOfPage pg)).frozen
  | _ => false

/-- The bits of BLK_IRQ_STS that the chapter of a page assigns (R93, R188, R256, R280, R295, R303, R320, R345, R369, R399, R428,
R449, R469, R493, R521). -/
def irqAssigned (pg : Nat) : Nat :=
  match classOfPage pg with
  | 0x01 => 0xFFFF
  | 0x02 => 0x3
  | 0x03 => 0x7
  | 0x04 => 0x3
  | 0x05 => 0x1
  | 0x07 => if dieOfPage pg = 4 then 0x7F else 0x3F
  | 0x09 => 0x7
  | 0x10 => 0x3F
  | 0x11 => 0x7
  | 0x12 => 0x7
  | 0x15 => if dieOfPage pg = 4 then 0x7 else 0
  | 0x16 => 0x3
  | 0x17 => 0x1F0F
  | _ => 0

/-- The page of a row of tiles that is clock-gated: a row in no polder, or one that START has not reached (R431, R438). -/
def State.pageGated (s : State) (pg : Nat) : Bool :=
  let row := 8 * dieOfPage pg + instOfPage pg
  [0x01, 0x06].contains (classOfPage pg) && ((s.rowOwner row).isNone || (s.tile (8 * row)).gatedRow)

/-- The header of a page (R504). -/
def State.readHeader (s : State) (pg off : Nat) : Word :=
  let cls := classOfPage pg
  match off with
  | 0x000 => wordOfFields [(1, 0), (dieOfPage pg, 8), (instOfPage pg, 12), (cls, 24)]
  | 0x004 => wordOfFields [(classUnits cls, 0), (flag (freezable cls), 8), (flag (ownable cls), 9), (flag (sparing cls), 10)]
  | 0x008 => wordOfFields [(flag (s.pageState pg == 1), 0), (flag (s.pageFreeze pg), 2)]
  | 0x00C => wordOfFields [(s.pageState pg, 0), (flag (s.pageFrozen pg), 2), (flag (s.pageSpared pg), 3), (flag (s.pagePending pg), 4)]
  | 0x018 => 0
  | 0x030 => wordOf (s.pageOwner pg)
  | 0x034 => wordOfFields [(pageDomain pg, 0), (powerDomain pg, 8), (if s.pageGated pg then 2 else 1, 12)]
  | _ => s.reg (pg + off)

/-! ### The die control page (R508) -/

/-- A page has a status bit set and enabled. -/
def State.pageIrq (s : State) (pg : Nat) : Bool := (s.reg (pg + 0x010) &&& s.reg (pg + 0x014)) != 0

/-- BLK_IRQ_SUM k of a die. -/
def State.irqSum (s : State) (die k : Nat) : Nat :=
  (List.range 32).foldl (fun n i =>
    let pg := page die (2 * k + i / 16) (i % 16)
    if pageExists pg && s.pageIrq pg then n + 2 ^ i else n) 0

/-- BLK_DIE_SUM: the dies that have an interrupt pending. -/
def State.dieSum (s : State) : Nat :=
  (List.range 6).foldl (fun n d =>
    if s.domainUp (powerDomain (page d 0x00 0)) && (List.range 12).any (fun k => s.irqSum d k != 0) then n + 2 ^ d else n) 0

def State.readDie (s : State) (die off : Nat) : Word :=
  match off with
  | 0x040 => wordOfFields [(Config.stepping, 0), (die, 8), (flag (decide (4 ≤ die)), 12)]
  | 0x044 => wordOfFields [(Config.arithRev, 0), (s.timingRev, 16)]
  | 0x048 => if die = 4 then wordOf s.dieSum else 0
  | off => if 0x060 ≤ off && off < 0x090 && off % 4 == 0 then wordOf (s.irqSum die ((off - 0x060) / 4)) else 0

/-! ### Tiles and their engines (R92 to R94, R124, R149, R166, R217, R257, R481) -/

/-- The codes of R94. -/
def TccState.code : TccState → Nat
  | .empty => 0
  | .ready => 1
  | .running => 2
  | .waiting => 3
  | .halted => 4
  | .done => 5
  | .frozen => 6

def Tile.occupancy (x : Tile) (q : Nat) : Nat := (x.engine q).queue.length

/-- The command that an engine runs. -/
def Tile.busyWith (x : Tile) (q : Nat) : Option Active := (x.engine q).active.find? (fun a => !a.finished)

/-- TIL_SCHED_STS: the checkpoint to meet next; the last one stands once all are met (R257). -/
def Monitor.status (m : Monitor) : Word :=
  let i := min m.nextIdx (m.cps.length - 1)
  let armed := match m.cps[m.nextIdx]? with
    | some c => (m.deadline c).isSome
    | none => false
  wordOfFields [(i % 64, 0), (flag armed, 6), (flag m.overrun, 7), (flag m.near, 8)]

/-- A TIL, BSE or VU register of a tile, at an offset of its column. -/
def State.readColumn (s : State) (t off : Nat) : Word :=
  let x := s.tile t
  match off with
  | 0x04 => wordOf (x.tcc.state.code + (List.range 7).foldl (fun n q => if x.occupancy q = 0 then n else n + 2 ^ (4 + q)) 0)
  | 0x08 => wordOf x.tcc.pc.toNat
  | 0x10 => wordOfFields [(x.occupancy 0, 0), (x.occupancy 1, 8), (x.occupancy 2, 16), (x.occupancy 3, 24)]
  | 0x14 => wordOfFields [(x.occupancy 4, 0), (x.occupancy 5, 8), (x.occupancy 6, 16)]
  | 0x18 => wordOf (s.inFlight t + (s.reg (tilReg t 0x18)).toNat)
  | 0x4C => s.reg (tilReg t 0x4C) + wordOf (s.stallShown t 0x4C)
  | 0x50 => s.reg (tilReg t 0x50) + wordOf (s.stallShown t 0x50)
  | 0x3C => x.ctr (field (s.reg (tilReg t 0x38)).toNat 0 8)
  | 0x68 => x.mon.status
  | 0x80 => wordOf (flag (x.busyWith 1).isSome)
  | 0xC0 => wordOfFields [(flag (x.busyWith 2).isSome, 0), (((x.busyWith 2).map (fun a => a.cmd.opcode % 8)).getD 0, 1)]
  | off => if off % 4 = 0 then s.reg (tilReg t off) else 0

/-- An ARR register of a tile. -/
def State.readArray (s : State) (t off : Nat) : Word :=
  let x := s.tile t
  match off with
  | 0x00 =>
    let runs (p : Command → Bool) : Bool := (x.engine 0).active.any (fun a => !a.finished && p a.cmd)
    wordOfFields [(flag (runs maLoads), 0), (flag (runs (fun c => c.opcode == 3)), 1), (flag x.ma.shadowFull, 2)]
  | 0x04 => wordOfFields [(x.ma.active.mode, 0), (x.ma.active.fmt, 3)]
  | off => if off % 4 = 0 then s.reg (arrReg t off) else 0

/-- The row sparing registers of a tile page (R477, R481). -/
def State.readRowSpares (s : State) (pg off : Nat) : Word :=
  let row := rowOf pg
  let pair := row / 2
  let spare := Table.get 0 s.spares.tileOf pair
  let phys (c : Nat) : Nat :=
    let slot := row % 2 * 8 + c
    physId pair (if spare = slot + 1 then 16 else slot)
  let left (c : Nat) : Nat := 164 - Table.get 0 s.spares.spadUsed (8 * row + c)
  let bytes (c : Nat) : Word := wordOfFields [(left c, 0), (left (c + 1), 8), (left (c + 2), 16), (left (c + 3), 24)]
  match off with
  | 0xF00 => wordOfFields [(flag (spare != 0), 0), (spare - 1, 1), (flag (s.rowPending pg), 5), (flag (s.spares.rowDisabled.contains row), 6)]
  | 0xF24 => bytes 0
  | 0xF28 => bytes 4
  | 0xF2C => wordOf (Table.get 0 s.spares.subs row)
  | off => if 0xF04 ≤ off && off < 0xF24 && off % 4 == 0 then wordOf (phys ((off - 0xF04) / 4)) else 0

def State.readTilePage (s : State) (pg off : Nat) : Word :=
  if off < 0x100 then 0
  else if off < 0x900 then s.readColumn (8 * rowOf pg + (off - 0x100) / 0x100) (off % 0x100)
  else if off < 0xD00 then s.readArray (8 * rowOf pg + (off - 0x900) / 0x80) (off % 0x80)
  else if off < 0xF00 then 0
  else s.readRowSpares pg off

def DmaEngine.status (e : DmaEngine) (x : Tile) (q : Nat) : Word :=
  wordOfFields [((x.engine q).active.length, 0), (x.watches.length, 3), (flag e.skew.isSome, 7)]

def State.readDmaPage (s : State) (pg off : Nat) : Word :=
  if off < 0x100 || 0x900 ≤ off then 0
  else
    let t := 8 * rowOf pg + (off - 0x100) / 0x100
    let x := s.tile t
    match off % 0x100 with
    | 0x00 => x.dma0.status x 3
    | 0x40 => x.dma1.status x 4
    | 0x80 =>
      let bits (p : GStream → Bool) : Nat := (List.range 4).foldl (fun n i => if p (Table.get default x.ge i) then n + 2 ^ i else n) 0
      wordOfFields [(bits (·.run.isSome), 0), (bits (fun g => g.ra.any (fun e => !e.dropped && !e.got.isEmpty)), 4)]
    | 0x1C => s.reg (pg + off) + wordOf (s.slotWaitAc t 3)
    | 0x5C => s.reg (pg + off) + wordOf (s.slotWaitAc t 4)
    | 0x9C => s.reg (pg + off) + wordOf (s.slotWaitAc t 5)
    | _ => s.reg (pg + off)

/-! ### Memories and their units (R188, R303, R320, R321, R482) -/

def State.readCollection (s : State) (pg off : Nat) : Word :=
  let left (i : Nat) : Nat := 82 - Table.get 0 s.spares.colUsed (64 * dieOfPage pg + 8 * instOfPage pg + i)
  let bytes (i : Nat) : Word := wordOfFields [(left i, 0), (left (i + 1), 8), (left (i + 2), 16), (left (i + 3), 24)]
  match off with
  | 0x080 => bytes 0
  | 0x084 => bytes 4
  | 0x088 => wordOf (Table.get 0 s.spares.crossBank (8 * dieOfPage pg + instOfPage pg))
  | _ => s.reg (pg + off)

def State.readMemory (s : State) (pg off : Nat) : Word :=
  let u := memoryUnit pg
  let left := (Config.rowRepairs u - Table.get 0 s.spares.repairs u) % 2 ^ 16
  match off with
  | 0x080 => wordOfFields [(left, 0), (if classOfPage pg = 0x03 then (Config.tsvLanes u - Table.get 0 s.spares.tsvUsed u) % 256 else 0, 16)]
  | 0x084 => wordOf (Table.get 0 s.spares.restored u)
  | _ => s.reg (pg + off)

/-- A conservator's page with its slots. -/
def State.readConservator (s : State) (pg off : Nat) : Word :=
  let c := s.cns (stackOf pg)
  let p := (off - 0x100) / 16
  if off = 0x040 then wordOfFields [(flag c.running.isSome, 0), (c.running.getD 0, 1), (flag c.holding, 5)]
  else if 0x100 ≤ off && off < 0x200 && off % 16 == 4 then wordOf (field (s.reg (pg + off)).toNat 0 16)
  else if 0x100 ≤ off && off < 0x200 && off % 16 == 8 then wordOf (Table.get 0 c.next p % 2 ^ 16)
  else if 0x100 ≤ off && off < 0x200 && off % 16 == 12 then
    let mine := c.running == some p
    wordOfFields [(flag (s.reg (pg + off - 8) != 0), 0), (flag (mine && !c.holding), 1), (flag (mine && c.holding), 2),
                  (flag (c.carried.any (fun e => e.1 == p)), 3)]
  else s.reg (pg + off)

/-- Accumulate writes outstanding at a stack that a predicate picks. -/
def State.accWrites (s : State) (n : Nat) (p : Req → Bool) : Nat :=
  s.store.reqs.countP (fun r => p r && r.isWrite && r.stage == .routed && s.accForm r &&
    (match r.tgt with
     | some x => x.dev == n && s.accumulates x
     | none => false))

def State.readAdders (s : State) (pg off : Nat) : Word :=
  if off = 0x040 then wordOf (flag (s.accWrites (stackOf pg) (fun _ => true) != 0))
  else if 0x080 ≤ off && off < 0x0C0 && off % 4 == 0 then s.epoch ((off - 0x080) / 4)
  else if 0x0C0 ≤ off && off < 0x100 && off % 4 == 0 then
    let p := (off - 0x0C0) / 4
    wordOf (s.accWrites (stackOf pg) (fun r => r.polder == p) % 2 ^ 16)
  else s.reg (pg + off)

/-! ### Power and clocks, seams (R230, R231, R449, R450, R482) -/

/-- The domain of counter k of a die's page. -/
def domainOf (die k : Nat) : Option Nat :=
  if die < 4 then
    match k with
    | 0 => some (acDom die)
    | 1 => some (ncDom die)
    | k => if k < 5 then some (0x20 + 3 * die + (k - 2)) else none
  else
    match k with
    | 0 => some (0x60 + (die - 4))
    | 1 => some (ncDom die)
    | k => if k < 6 then some (0x30 + 4 * (die - 4) + (k - 2)) else if k < 14 then some (0x40 + 8 * (die - 4) + (k - 6))
           else if k = 14 && die = 4 then some 0x50 else none

/-- A signed count as 16 bits. -/
def half (n : Int) : Nat := (BitVec.ofInt 16 n).toNat

def State.readPower (s : State) (pg off : Nat) : Word :=
  let d := dieOfPage pg
  let x := s.die d
  match off with
  | 0x040 =>
    if d < 4 then wordOfFields [(x.step, 0), (x.target, 3), (x.power, 6), (x.thermal, 9), (flag s.board.throttled, 12), (flag x.regFault, 13), (flag x.upDue, 14)]
    else 0
  | 0x044 => wordOfFields [(field (s.reg (pg + off)).toNat 0 2, 0), (flag (d == 4 && s.board.throttled), 2), (flag (d == 4 && s.board.unstable), 3),
                           (flag s.board.thermtrip, 4), (flag x.regFault, 5)]
  | 0x050 => wordOfFields [(half x.hot, 0), (half (x.hottest.getD 0), 16)]
  | 0x054 => wordOf x.millijoules
  | 0x058 => wordOf (x.millijoules / 2 ^ 32)
  | off =>
    if 0x100 ≤ off && off < 0x178 && off % 4 == 0 then
      match domainOf d ((off - 0x100) / 8) with
      | some k => wordOf ((s.now k).toNat / (if off % 8 = 0 then 1 else 2 ^ 32))
      | none => 0
    else s.reg (pg + off)

/-- The codes of R231. -/
def SeamState.code : SeamState → Nat
  | .down => 0
  | .training => 1
  | .active => 2
  | .outOfService => 3
  | .failed => 4

/-- The nc for which a channel of a seam end's sending direction has been waiting for a credit (R230). -/
def State.stallNc (s : State) (pg chan : Nat) : Nat :=
  match Table.get none (s.seam (seamOf pg)).stalls ((if seamDir (seamOf pg) (dieOfPage pg) then 4 else 0) + chan) with
  | some t => (s.now (ncDom (dieOfPage pg)) - t).toNat
  | none => 0

def State.readSeam (s : State) (pg off : Nat) : Word :=
  let x := s.seam (seamOf pg)
  match off with
  | 0x070 => s.reg (pg + off) + wordOf (s.stallNc pg 0)
  | 0x078 => s.reg (pg + off) + wordOf (s.stallNc pg 2)
  | 0x07C => s.reg (pg + off) + wordOf (s.stallNc pg 3)
  | 0x040 => wordOfFields [(x.state.code, 0), (64 - x.used (receives pg), 3)]
  | 0xF00 => wordOfFields [(x.used (receives pg), 0), (flag !(s.lanesLost pg).isEmpty, 7)]
  | _ => s.reg (pg + off)

/-! ### Ports (R305, R378, R399, R400, R482) -/

/-- The codes of R378. -/
def PortState.code : PortState → Nat
  | .off => 0
  | .training => 1
  | .up => 2
  | .down => 3
  | .laneFault => 4
  | .miswired => 5

/-- QUIET: no message sent and unacknowledged, and none partly received. -/
def State.quiet (s : State) (n : Nat) : Bool :=
  (s.port n).retry.isEmpty && (s.port n).waitTx.isEmpty && (s.port n).rxAhead.isEmpty && s.links.ctxs.all (fun c => c.port != n || c.unacked.isEmpty)

def State.readPort (s : State) (pg off : Nat) : Word :=
  let n := portOf pg
  let x := s.port n
  match off with
  | 0x044 => wordOfFields [(x.state.code, 0), (x.lanes, 3), (field (s.reg (pg + off)).toNat 7 4, 7)]
  | 0x064 => s.reg (pg + off) + wordOf (s.portStall n)
  | 0x620 => wordOf (flag (s.quiet n))
  | 0xF00 =>
    wordOfFields (((List.range 4).map (fun k => (Table.get 0 s.spares.laneMap (4 * n + k), 2 * k))) ++
      [(flag (s.spares.lanePending.any (fun k => k / 4 == n)), 8), (s.lanesLeft (dieOfPage pg - 4), 9)])
  | _ => s.reg (pg + off)

/-! ### Polders (R190, R256, R259, R280, R304, R345, R369, R370) -/

/-- Tensors of the step without a completion token. -/
def State.redPending (s : State) (p : Nat) : Nat :=
  let x := s.pld p
  if x.cat.kind = 0 && x.state.owns then x.cat.gradients.countP (fun t => !x.red.complete.contains t.id) else 0

/-- PHASE of a serving polder: idle, a step, its boundary, or waiting for moves or an intake (R345). -/
def State.servePhase (s : State) (p : Nat) : Nat :=
  let x := s.pld p
  if x.state != .running || x.cat.kind != 1 || x.ended then 0
  else if !s.stepOver p then 1
  else if (x.serve.planned && !x.serve.moves.isEmpty) || (!x.serve.planned && !x.serve.intakeOk) then 3
  else 2

def Serving.countIn (v : Serving) (st : SeqState) : Nat := v.seqs.countP (fun q => q.state == st)

/-- Slots of a polder parked now. -/
def State.parkedSlots (s : State) (p : Nat) : Nat := s.links.slots.countP (fun e => slotPolder e.1 == p && e.2.parked)

/-- PLD_WD_MAX with the waits that go on (R369). -/
def State.longestWait (s : State) (p : Nat) : Nat :=
  (s.links.slots.filter (fun e => slotPolder e.1 == p && e.2.remote)).foldl (fun n e =>
    max n (min (2 ^ 32 - 1) ((s.now (engineDom (e.1 / 16)) - e.2.entered).toNat / 65536))) (s.reg (pldReg p 0x058)).toNat

/-- The cc of the reduction's remote wait that PLD_RED_WAIT_CC does not hold yet (R304). -/
def State.redWait (s : State) (p : Nat) : Nat :=
  if (s.slot 18 p).remote && (s.pld p).train.phase == .reducing then (s.now (engineDom 18) - (s.slot 18 p).counted).toNat else 0

def State.readPolder (s : State) (pg off : Nat) : Word :=
  let p := instOfPage pg
  let x := s.pld p
  let v := x.serve
  match off with
  | 0x040 => wordOfFields [(x.state.code, 0), (flag x.started, 3), (flag x.retirePending, 4), (flag (s.parkedSlots p != 0), 5)]
  | 0x044 => x.client
  | 0x048 => x.rowMap
  | 0x058 => wordOf (s.longestWait p)
  | 0x05C => wordOf (s.parkedSlots p)
  | 0x068 => wordOf (s.hif.tags.countP (fun g => g.polder == p))
  | 0x300 => wordOfFields [(flag x.red.loaded, 0), (flag (s.slot 18 p).remote, 1), (x.red.groups.length, 2)]
  | 0x308 => wordOf (s.redPending p)
  | 0x31C => s.reg (pg + off) + wordOf (s.redWait p)
  | 0x42C => s.reg (pg + off) + wordOf (s.intakeWait p)
  | 0x430 => s.reg (pg + off) + wordOf (s.moveWait p)
  | 0x400 =>
    wordOfFields [(flag (x.cat.kind == 1 && x.state.resident), 0), (s.servePhase p, 1), (v.live, 3), (flag !v.toCopy.isEmpty, 4)]
  | 0x404 => wordOf v.started
  | 0x408 => wordOf (v.started / 2 ^ 32)
  | 0x40C => wordOfFields [(v.countIn .running, 0), (v.countIn .preempted, 16)]
  | 0x410 => wordOf (v.countIn .waiting)
  | _ => s.reg (pg + off)

/-- The polders from CREATING to DRAINING that carry a tag. -/
def State.carrying (s : State) (tag : Word) : Nat :=
  (List.range 16).countP (fun p => (s.pld p).state.owns && (s.pld p).client == tag)

/-- A client entry's word at an offset of the entry (R370). -/
def State.readClient (s : State) (k off : Nat) : Word :=
  let c := s.client k
  match off with
  | 0x00 => c.tag
  | 0x04 => if c.tag = 0 then 0 else wordOf (s.carrying c.tag)
  | 0x08 => wordOf c.admitted.toNat
  | 0x0C => wordOf (c.admitted.toNat / 2 ^ 32)
  | 0x10 => wordOf c.completed.toNat
  | 0x14 => wordOf (c.completed.toNat / 2 ^ 32)
  | 0x18 => wordOf c.torn.toNat
  | 0x1C => wordOf (c.torn.toNat / 2 ^ 32)
  | _ => 0

def State.readSpike (s : State) (pg off : Nat) : Word :=
  let p := instOfPage pg
  let st := (s.pld p).state
  if off = 0x044 && (st.resident || st == .clearing) then s.stepSts p
  else if 0x200 ≤ off && off < 0x280 then s.readClient (4 * p + (off - 0x200) / 0x20) (off % 0x20)
  else s.reg (pg + off)

/-! ### Host interface (R420, R428) -/

def ChanState.code : ChanState → Nat
  | .idle => 0
  | .filling => 1
  | .busy => 2
  | .done => 3

def State.readMailbox (s : State) (pg off : Nat) : Word :=
  if 0x800 ≤ off then
    if off % 4 = 0 then wordOf (leNat (((List.range 4).map (fun i => Table.get 0 (s.chan (8 * instOfPage pg + (off - 0x800) / 0x100)).buf (off % 0x100 + i))))) else 0
  else if 0x100 ≤ off && off < 0x200 then
    let c := 8 * instOfPage pg + (off - 0x100) / 0x20
    let x := s.chan c
    match off % 0x20 with
    | 0x00 => wordOfFields [(x.state.code, 0), (flag x.i3c, 2), (flag (s.chanOpen c), 3), (x.respLen, 16)]
    | 0x04 => 0
    | 0x0C => 0
    | _ => s.reg (pg + off)
  else 0

/-- PCI_LINK shows what the link has trained to (R403, R428). -/
def State.readPcie (s : State) (pg off : Nat) : Word :=
  let h := s.hif
  match off with
  | 0x040 => if h.linkUp then wordOfFields [(h.pcie.rate, 0), (h.pcie.width, 4), (flag h.pcie.flit, 9)] else 0
  | 0x044 => wordOfFields [(h.numVfs, 0), (flag h.vfEnable, 5)]
  | 0x064 => wordOf (s.tagsOut + (s.reg (pg + off)).toNat)
  | 0x068 => wordOfFields (((List.range 4).map (fun i => (flag (h.secure.contains i), i))) ++ [(h.bound.getD 0, 4), (flag h.bound.isSome, 6)])
  | _ => s.reg (pg + off)

/-! ### Curator 0, root of trust and provenance (R26, R469, R470, R474, R493) -/

def State.readCurator (s : State) (pg off : Nat) : Word :=
  if pg = page 4 0x14 0 && off = 0x040 then wordOfFields [(s.boot.part.code, 0), (s.boot.dieUp, 8), (if s.boot.part == .failed then s.boot.cause else 0, 16)]
  else if pg = page 4 0x14 0 && off = 0x044 then wordOfFields [(flag (s.boot.maint != 0 && s.boot.part == .operational && s.allFree), 0), (s.boot.maint, 1)]
  else 0

/-- A word of a byte string. -/
def wordAt (l : List Byte) (i : Nat) : Word := wordOf (peek l (4 * i) 4)

def Boot.register (b : Boot) : Nat → List Byte
  | 0 => b.mr0
  | 1 => b.mr1
  | 2 => b.mr2
  | 3 => b.mr3
  | _ => b.mr4

def State.readRoot (s : State) (pg off : Nat) : Word :=
  let b := s.boot
  if dieOfPage pg = 5 then
    if off = 0x040 then wordOfFields [(flag b.xDone, 0), (flag b.xMatch, 1)]
    else if 0x060 ≤ off && off < 0x080 && off % 4 == 0 then wordAt b.xDigest ((off - 0x060) / 4)
    else 0
  else
    match off with
    | 0x040 => wordOfFields [(if b.part == .failed then 7 else b.boot, 0), (flag b.xMatch, 3), (b.lastReason, 8)]
    | 0x044 => wordOfFields [(b.svnMin, 0), (b.svnRun, 16)]
    | 0x048 => wordOf b.restarts
    | 0x04C => wordOfFields [(b.active, 0), (flag b.otherVerified, 1)]
    | 0x120 => wordOf Config.fuseSerial.toNat
    | 0x124 => wordOf (Config.fuseSerial.toNat / 2 ^ 32)
    | off =>
      if off % 4 != 0 then 0
      else if 0x060 ≤ off && off < 0x100 then wordAt (b.register ((off - 0x060) / 32)) (off % 32 / 4)
      else if 0x100 ≤ off && off < 0x120 then wordAt (sha3 (mldsaPublic identitySeed)) ((off - 0x100) / 4)
      else 0

def State.readProvenance (s : State) (pg off : Nat) : Word :=
  let j := s.journal
  let i := s.reg64 (prvPage + 0x080)
  let n := j.entries.length
  match off with
  | 0x040 => wordOfFields [(flag j.fullSoon, 1), (flag (j.free == 0), 2), (flag j.tornTail, 3)]
  | 0x044 => wordOf n
  | 0x048 => wordOf (n / 2 ^ 32)
  | 0x04C => wordOf j.free
  | 0x054 => wordOf j.tornSlots
  | 0x088 => wordOf (flag (decide (i < n)))
  | off =>
    if 0x060 ≤ off && off < 0x080 && off % 4 == 0 then wordAt j.head ((off - 0x060) / 4)
    else if 0x400 ≤ off then if off % 4 = 0 then wordAt (j.slot i) ((off - 0x400) / 4) else 0
    else s.reg (pg + off)

/-! ### A word of the window -/

/-- What a register reads as, without the effects of reading it. Reserved offsets read 0 (R12). -/
def State.peekReg (s : State) (a : Nat) : Word :=
  let pg := a / 4096 * 4096
  let off := a % 4096
  if off < 0x040 then s.readHeader pg off
  else match classOfPage pg with
    | 0x00 => s.readDie (dieOfPage pg) off
    | 0x01 => s.readTilePage pg off
    | 0x02 => s.readCollection pg off
    | 0x03 => s.readMemory pg off
    | 0x04 => s.readConservator pg off
    | 0x05 => s.readAdders pg off
    | 0x06 => s.readDmaPage pg off
    | 0x07 => s.readPower pg off
    | 0x08 => s.readSeam pg off
    | 0x09 => s.readSpike pg off
    | 0x10 => s.readPort pg off
    | 0x11 => s.readPcie pg off
    | 0x12 => s.readMemory pg off
    | 0x13 => s.readMailbox pg off
    | 0x14 => s.readCurator pg off
    | 0x15 => s.readRoot pg off
    | 0x16 => s.readProvenance pg off
    | _ => s.readPolder pg off

end Sys2Proof.Machine
end

