-- ==== Sys2Proof/Machine/Clocks.lean ====
section
/-!
DEFINITION. The clock domains at an idle step: which of them run, and what they count (R4, R431, R450, R526).
-/

namespace Sys2Proof.Machine

/-- Whether a clock domain counts: its block has power and its clock runs. SYSCLK feeds every domain but hc and lc, which
PCIE_REFCLK and LREFCLK feed (R450, R517). -/
def State.running (s : State) (dom : Nat) : Bool :=
  let i := dom % 16
  match dom / 16 with
  | 0 => bitAt s.boot.dieUp i
  | 1 => if i = 4 then s.boot.s0On else bitAt s.boot.dieUp i
  | 2 => s.memoryOn i
  | 3 => s.memoryOn (12 + i)
  | 4 => (s.port i).locked && ((if i < 8 then s.boot.s0On else bitAt s.boot.dieUp 5) || bitAt s.board.stoppedOn (4 + i / 8))
  | 5 => !s.board.pcieClkLost && (s.boot.s0On || bitAt s.board.stoppedOn 4)
  | _ => if i = 0 then s.board.vaux && !s.board.sysclkLost else bitAt s.boot.dieUp 5

/-- Time passes: every running domain counts on by a free number of cycles of its own. Nothing else happens of itself: every
event of the part is a command. DESIGN CHOICE: log entry 3. -/
def State.tick (s : State) : State :=
  { s with
    time := domainIds.foldl (fun t d => if s.running d then Table.put 0 t d (Table.get 0 t d + Config.elapse d s.drawn) else t) s.time
    drawn := s.drawn + 1 }

end Sys2Proof.Machine
end

