-- ==== Sys2Proof/Machine/Access.lean ====
section
/-!
DEFINITION. Accesses to the management window and the VF pages: who reaches what, access codes, 64-bit registers, errors, the
debug freeze and the interrupt registers (R8 to R12, R92, R94, R188, R366, R377, R400, R401, R406, R407, R420, R428, R498 to R507, R511).
-/

namespace Sys2Proof.Machine

/-! ### Requesters and their latches (R501, R502) -/

def requesterNo : Requester → Nat
  | .pf0 _ => 0
  | .curator n => 1 + n.toNat
  | .i3c => 5
  | .vf p => 6 + p.toNat
  | .bar2 => 22
  | .config fn => 23 + fn.toNat

/-- The key of what a requester holds at an address of the window. -/
def heldKey (r : Requester) (a : Nat) : Nat := requesterNo r * 2 ^ 28 + a

/-- The mailbox channel whose registers or buffer hold a page offset. -/
def channelAt (pg off : Nat) : Option Nat :=
  if classOfPage pg != 0x13 then none
  else if 0x800 ≤ off then some (8 * instOfPage pg + (off - 0x800) / 0x100)
  else if 0x100 ≤ off && off < 0x200 then some (8 * instOfPage pg + (off - 0x100) / 0x20)
  else none

/-- The die from which a requester's accesses come: the endpoint, the bridge and curators 0 and 1 are on S0, curators 2 and 3
on S1 (R16, R17). -/
def requesterDie : Requester → Nat
  | .curator n => if n.toNat < 2 then 4 else 5
  | _ => 4

/-- A page answers accesses from a die: it is up, and the seams of the route of management traffic are in service (R8, R16, R23).
DEDUCED: log entry 107. -/
def State.pageReached (s : State) (die pg : Nat) : Bool := s.pageUp pg && s.reaches die (dieOfPage pg) && !(die == 4 && s.boot.s0Lost)

/-- Whether a requester reaches an address of the window (R8, R423, R501, R509). -/
def State.reachesReg (s : State) (r : Requester) (a : Nat) : Bool :=
  let pg := a / 4096 * 4096
  let chan := channelAt pg (a % 4096)
  s.pageReached (requesterDie r) pg && (match chan with
    | some c => s.reachesChan r c
    | none => true) &&
  match r with
  | .pf0 _ => s.hostReaches
  | .curator n => if n.toNat < 2 then s.domainUp 0 else s.domainUp 3
  | .i3c => pg == mbxPage 0 && chan.isSome
  | .vf _ => false
  | .bar2 => false
  | .config _ => false

/-! ### Reads (R9, R10, R502) -/

/-- Read-clear registers by class and offset. -/
def readClears (a : Nat) : Bool :=
  let off := a % 4096
  match classOfPage a with
  | 0x01 =>
    if 0x100 ≤ off && off < 0x900 then [0x48, 0x4C, 0x50, 0x8C, 0x90, 0xA0, 0xCC, 0xE0].contains (off % 0x100)
    else 0x900 ≤ off && off < 0xD00 && [0x10, 0x14, 0x18, 0x1C, 0x30].contains (off % 0x80)
  | 0x04 => [0x05C, 0x060, 0x064].contains off
  | 0x05 => [0x04C, 0x058, 0x05C].contains off
  | 0x06 => 0x100 ≤ off && off < 0x900 && [0x1C, 0x20, 0x5C, 0x60, 0x8C, 0x90, 0x94, 0x98, 0x9C].contains (off % 0x100)
  | 0x07 => [0x05C, 0x060, 0x06C, 0x070].contains off
  | 0x08 => [0x048, 0x070, 0x074, 0x078, 0x07C, 0x080].contains off
  | 0x10 => [0x058, 0x05C, 0x064, 0x068, 0x06C].contains off
  | 0x11 => [0x05C, 0x06C].contains off
  | 0x13 => 0x100 ≤ off && off < 0x200 && off % 0x20 == 0x14
  | 0x16 => off == 0x050
  | 0x17 => [0x050, 0x060, 0x13C, 0x158, 0x15C, 0x30C, 0x310, 0x31C, 0x420, 0x424, 0x428, 0x42C, 0x430, 0x434].contains off
  | _ => false

/-- The low words of 64-bit registers by class and offset. -/
def lowWord (a : Nat) : Bool :=
  let off := a % 4096
  off == 0x028 ||
  match classOfPage a with
  | 0x01 =>
    if 0x100 ≤ off && off < 0x900 then [0x40, 0x58, 0x84, 0x98, 0xC4, 0xD8].contains (off % 0x100)
    else 0x900 ≤ off && off < 0xD00 && [0x08, 0x28].contains (off % 0x80)
  | 0x02 => off == 0x040
  | 0x03 => off == 0x040
  | 0x12 => off == 0x040
  | 0x04 => [0x044, 0x04C, 0x054].contains off
  | 0x05 => [0x044, 0x050].contains off
  | 0x06 => 0x100 ≤ off && off < 0x900 && [0x04, 0x0C, 0x14, 0x24, 0x44, 0x4C, 0x54, 0x64, 0x84, 0xA0].contains (off % 0x100)
  | 0x07 => off == 0x054 || (0x100 ≤ off && off < 0x178 && off % 8 == 0 && (domainOf (dieOfPage a) ((off - 0x100) / 8)).isSome)
  | 0x08 => [0x050, 0x058, 0x060, 0x068, 0x084].contains off
  | 0x09 => [0x048, 0x050, 0x074].contains off || (0x200 ≤ off && off < 0x280 && [0x08, 0x10, 0x18].contains (off % 0x20))
  | 0x10 => [0x050, 0x070, 0x078, 0x080, 0x088].contains off || (0x400 ≤ off && off < 0x620 && off % 8 == 0) ||
      (off == 0x804 && portOf (a / 4096 * 4096) == 0)
  | 0x11 => off == 0x048
  | 0x15 => off == 0x120 && dieOfPage a == 4
  | 0x16 => [0x044, 0x080].contains off
  | 0x17 => [0x134, 0x140, 0x230, 0x240, 0x248, 0x404, 0x438, 0x440].contains off
  | _ => false

/-- PWR_ENERGY of an S-die, whose energy the manual gives the part no rule to measure: it grows freely, and a read finds it so far (log
entry 6). -/
def shoreEnergy (a : Nat) : Bool := classOfPage a == 0x07 && decide (4 ≤ dieOfPage a) && a % 4096 == 0x054

/-- Registers that show free values (log entry 6): the nc in which a control flit waited for a credit, which rest on the times of single flits (R224,
R230), and the codewords that a port's FEC corrected or could not correct, for which no command stands (R375, R399; log entry
145). -/
def freeMeter (a : Nat) : Bool :=
  (classOfPage a == 0x08 && a % 4096 == 0x074) ||
    (classOfPage a == 0x10 && [0x050, 0x054, 0x058].contains (a % 4096))

/-- The bits of ARR_STS, BSE_STS and VU_STS that show where an engine stands inside its command: HOLD, DRAINING and the drain
queue's occupancy of a pass, the lanes and the phase of a BSPASS, the micro-op of a run. The model runs a command whole, and these
bits are free while it is active (log entries 6 and 79). -/
def State.midRun (s : State) (a : Nat) (d : Nat) : Option Word :=
  let off := a % 4096
  if classOfPage a != 0x01 then none
  else if 0x100 ≤ off && off < 0x900 then
    let x := s.tile (8 * rowOf (a / 4096 * 4096) + (off - 0x100) / 0x100)
    match off % 0x100 with
    | 0x80 => if (x.busyWith 1).any (fun c => c.cmd.opcode == 1) then some (wordOfFields [(d % 2 ^ 16, 1), (1 + d / 2 ^ 16 % 3, 17)]) else none
    | 0xC0 =>
      match x.busyWith 2 with
      | some c => if c.cmd.opcode = 4 then some (wordOfFields [((c.cmd.vrun.pc + d % c.cmd.vrun.len) % 128, 4)]) else none
      | none => none
    | _ => none
  else if 0x900 ≤ off && off < 0xD00 && off % 0x80 == 0 then
    let x := s.tile (8 * rowOf (a / 4096 * 4096) + (off - 0x900) / 0x80)
    let runs (op : Nat) := (x.engine 0).active.any (fun c => !c.finished && c.cmd.opcode == op)
    if runs 3 then some (wordOfFields [(d % 4, 3), (d / 4 % 17, 5)]) else if runs 2 then some (wordOfFields [(d % 2, 3)]) else none
  else none

/-- A word of the window as an access finds it. -/
def State.fetchReg (s : State) (a : Nat) : Word × State :=
  let s := if shoreEnergy a then s.meterEnergy (dieOfPage a) else s
  let d := s.draw
  if freeMeter a then d
  else match s.midRun a d.1.toNat with
    | some bits => (s.peekReg a ||| bits, d.2)
    | none => (s.peekReg a, s)

/-- A read-clear counter of a wait that goes on counts on from the read (R82, R217, R230, R304, R345, R399). -/
def State.restartWait (s : State) (a : Nat) : State :=
  let pg := a / 4096 * 4096
  match classOfPage a with
  | 0x01 =>
    let t := 8 * rowOf pg + (a % 4096 - 0x100) / 0x100
    match (s.tile t).tcc.stall with
    | some r => if a = tilReg t r.reg then s.modTcc t (fun x => { x with stallAc := s.now (acDom (dieOfTile t)) }) else s
    | none => s
  | 0x06 =>
    let t := 8 * rowOf pg + (a % 4096 - 0x100) / 0x100
    match [3, 4, 5].find? (fun q => waitSlotReg t q == a) with
    | some q => s.modTile t (fun x => if (Table.get none x.slotWait q).isSome then
        { x with slotWait := Table.put none x.slotWait q (some (s.now (acDom (dieOfTile t)))) } else x)
    | none => s
  | 0x08 =>
    let chan := (a % 4096 - 0x070) / 4
    let key := (if seamDir (seamOf pg) (dieOfPage pg) then 4 else 0) + chan
    if 0x070 ≤ a % 4096 && a % 4096 < 0x080 then
      s.modSeam (seamOf pg) (fun x => if (Table.get none x.stalls key).isSome then
        { x with stalls := Table.put none x.stalls key (some (s.now (ncDom (dieOfPage pg)))) } else x)
    else s
  | 0x10 =>
    if a % 4096 = 0x064 then s.modPort (portOf pg) (fun x => { x with waitTx := x.waitTx.map (fun o => { o with since := s.now (lcDom (portOf pg)) }) })
    else s
  | 0x17 =>
    if a % 4096 = 0x31C && (s.slot 18 (instOfPage pg)).remote then
      s.modSlot 18 (instOfPage pg) (fun x => { x with counted := s.now (engineDom 18) })
    else if (a % 4096 = 0x42C && s.intakeWait (instOfPage pg) != 0) || (a % 4096 = 0x430 && s.moveWait (instOfPage pg) != 0) then
      s.modPld (instOfPage pg) (fun x => { x with serve := { x.serve with waitCc := s.cc } })
    else s
  | _ => s

/-- A read-clear register is cleared. -/
def State.clearReg (s : State) (a : Nat) : State := (s.setReg a 0).restartWait a

/-- Returns a word and has the effects of its read: a low word latches the high one, which a read of the high word
returns, and a read-clear register clears. -/
def State.returnReg (s : State) (r : Requester) (a : Nat) : State :=
  let key := heldKey r (a / 4096 * 4096)
  if lowWord a then
    let low := s.fetchReg a
    let high := low.2.fetchReg (a + 4)
    { high.2 with answer := .value low.1, latches := Table.put 0 high.2.latches key high.1 }
  else if 4 ≤ a % 4096 && lowWord (a - 4) then s.answerValue (Table.get 0 s.latches key)
  else
    let w := s.fetchReg a
    (if readClears a then w.2.clearReg a else w.2).answerValue w.1

/-- The MSI-X table of a function stands at an offset of its BAR, and its PBA at another (R404, R406). An access to either is of 32 or
of 64 aligned bits (R511). -/
structure MsixMap where
  fn : Nat
  table : Nat
  pba : Nat
  words : Nat
  deriving DecidableEq, Repr

def pf0Msix : MsixMap := { fn := 0, table := 0x0000, pba := 0x0800, words := 32 }
def vfMsix (p : Nat) : MsixMap := { fn := p + 1, table := 0x2000, pba := 0x3000, words := 16 }

def MsixMap.inTable (m : MsixMap) (off : Nat) : Bool := decide (m.table ≤ off) && decide (off < m.table + 4 * m.words)
def MsixMap.inPba (m : MsixMap) (off : Nat) : Bool := decide (m.pba ≤ off) && decide (off < m.pba + 8)

/-- An aligned access of 32 or 64 bits to a function's MSI-X table or PBA. -/
def MsixMap.takes (m : MsixMap) (off size : Nat) : Bool := (m.inTable off || m.inPba off) && (size == 4 || size == 8) && off % size == 0

/-- A word of the table or of the PBA. -/
def State.msixAt (s : State) (m : MsixMap) (off : Nat) : Word :=
  if m.inTable off then s.msixWord m.fn ((off - m.table) / 4)
  else if off = m.pba then wordOfFields ((s.hif.pba.filter (fun x => x.fn == m.fn)).map (fun x => (1, x.vec)))
  else 0

def State.readMsix (s : State) (m : MsixMap) (off size : Nat) : State :=
  if size = 8 then { s with answer := .value64 (s.msixAt m (off + 4) ++ s.msixAt m off) } else s.answerValue (s.msixAt m off)

/-- A write of the table; the PBA is read-only. -/
def State.writeMsixAt (s : State) (m : MsixMap) (off size : Nat) (v : Dword) : State :=
  if !m.inTable off then s
  else
    let i := (off - m.table) / 4
    let s := s.writeMsix m.fn i (v.setWidth 32)
    if size = 8 then s.writeMsix m.fn (i + 1) (v.extractLsb' 32 32) else s

/-- A read of a VF page (R406, R407, R412, R511). -/
def State.readVf (s : State) (p off size : Nat) : State :=
  let r : Requester := .vf (BitVec.ofNat 4 p)
  if !s.vfReached p || s.vfFrozen p || 0x4000 ≤ off then s.readUr r
  else if (vfMsix p).takes off size then s.readMsix (vfMsix p) off size
  else if off % 4 != 0 || size != 4 then s.readUr r
  else if off = 0x000 then s.answerValue (wordOfFields [(p, 0), ((s.pld p).state.code, 4)])
  else if off = 0x030 then (s.answerValue (s.vfReg p 0x030)).setVfReg p 0x030 0
  else if off < 0x038 then s.answerValue (s.vfReg p off)
  else if 0x1000 ≤ off && off < 0x1020 then
    if s.reachesChan r (8 + p) then s.returnReg r (mbxReg (8 + p) (off - 0x1000)) else s.readUr r
  else if 0x1100 ≤ off && off < 0x1200 then
    if s.reachesChan r (8 + p) then s.returnReg r (mbxPage (8 + p) + mbxBuf (8 + p) + (off - 0x1100)) else s.readUr r
  else s.answerValue 0

/-! ### PF0's BAR2 and the configuration space (R404, R417, R454, R511) -/

/-- STG_STS and STG_OFFSET; what is write-only reads 0 (R454). -/
def State.readStaging (s : State) (off : Nat) : Word :=
  if off = 0x8004 then wordOfFields [(s.boot.stg, 0), (s.boot.reason, 4), (s.boot.bank, 8)]
  else if off = 0x8008 then wordOf s.boot.offset
  else 0

/-- A read by BAR2: the MSI-X table and PBA, the staging registers, and 0 of STG_DATA and of reserved offsets. -/
def State.readBar2 (s : State) (off size : Nat) : State :=
  if !s.hostReaches || 0x10000 ≤ off then s.readUr .bar2
  else if pf0Msix.takes off size then s.readMsix pf0Msix off size
  else if 0xC000 ≤ off then s.answerValue 0
  else if off % 4 != 0 || size != 4 then s.readUr .bar2
  else s.answerValue (s.readStaging off)

/-- A write by BAR2. STG_DATA takes aligned writes, which a chunk appends (R454, R511). -/
def State.writeBar2 (s : State) (off size : Nat) (v : Dword) : State :=
  let low : Word := v.setWidth 32
  if !s.hostReaches || 0x10000 ≤ off then s.writeUr .bar2 off
  else if pf0Msix.takes off size then (s.writeMsixAt pf0Msix off size v).answerWritten
  else if 0xC000 ≤ off then
    if (size == 4 || size == 8) && off % size == 0 then
      (s.modBoot (fun b => { b with stgData := bufferPut b.stgData (off - 0xC000) (leBytes size v.toNat) })).answerWritten
    else s.writeUr .bar2 off
  else if off % 4 != 0 || size != 4 then s.writeUr .bar2 off
  else if off = 0x8000 then
    let s := if low.getLsbD 0 then s.stgBegin else s
    (if low.getLsbD 1 then s.stgCommit else s).answerWritten
  else if off = 0x800C then
    let n := field low.toNat 0 15
    (s.stgChunk n ((List.range n).map (fun i => Table.get 0 s.boot.stgData i))).answerWritten
  else s.answerWritten

/-- A function answers configuration accesses: PF0, and the VFs that are enabled. -/
def State.configReached (s : State) (fn : Nat) : Bool := s.hostReaches && (fn == 0 || s.vfReached (fn - 1))

/-- A read of configuration space: the Command register's Bus Master Enable, and of the rest, which the manual does not lay out, a free
value. PRESUMED, the register's place: log entry 121. -/
def State.readConfig (s : State) (fn off : Nat) : State :=
  if !s.configReached fn then s.readUr (.config (BitVec.ofNat 5 fn))
  else if off = 0x004 then s.answerValue (if s.masters fn then 4 else 0)
  else s.draw.2.answerValue s.draw.1

/-- A write of the Command register sets or clears the function's Bus Master Enable (R417, R430). -/
def State.writeConfig (s : State) (fn off : Nat) (v : Word) : State :=
  if !s.configReached fn then s.writeUr (.config (BitVec.ofNat 5 fn)) off
  else if off = 0x004 then
    (s.modHif (fun h => { h with masters := if v.getLsbD 2 then (if h.masters.contains fn then h.masters else h.masters ++ [fn]) else h.masters.filter (· != fn) })).answerWritten
  else s.answerWritten

/-! ### The management window (R8, R9) -/

/-- The request of an access crosses the seams to its page, and its response back to the requester (R16, R219). -/
def State.toPage (s : State) (r : Requester) (pg : Nat) : State := s.controlCrosses (requesterDie r) (dieOfPage pg) 1
def State.fromPage (s : State) (r : Requester) (pg : Nat) : State := s.controlCrosses (dieOfPage pg) (requesterDie r) 1

/-- An access that a page answers has crossed the seams between it and its requester. -/
def State.access (s : State) (r : Requester) (pg : Nat) : State := (s.toPage r pg).fromPage r pg

/-- A read of a size in bytes by a requester: refused where nothing answers, and with a log entry where the size or the
alignment is wrong (R8, R9, R506, R512). -/
def State.readAccess (s : State) (r : Requester) (a size : Nat) : State :=
  match r with
  | .vf p => s.readVf p.toNat a size
  | .bar2 => s.readBar2 a size
  | .config fn => s.readConfig fn.toNat a
  | r =>
    let pg := a / 4096 * 4096
    if !s.reachesReg r a then s.readUr r
    else if size != 4 || a % 4 != 0 then ((s.access r pg).logError pg 3 0 (a % 4096) 0x1F).readUr r
    else ((s.toPage r pg).returnReg r a).fromPage r pg

/-- READ_CLEAR (R10). -/
def execReadClear (r : Requester) (addr : RegRead) (s : State) : Host.Outcome State Fault Refusal :=
  .next (s.readAccess r addr.addr.toNat addr.size.toNat)

/-- LOW_WORD_READ (R9, R502). -/
def execLowWordRead (r : Requester) (addr : RegRead) (s : State) : Host.Outcome State Fault Refusal :=
  .next (s.readAccess r addr.addr.toNat addr.size.toNat)

/-! ### The debug freeze (R94, R255, R498, R507) -/

/-- A freeze takes a TCC to FROZEN, which it enters with the state that it leaves. -/
def State.freezeTile (s : State) (t : Nat) : State :=
  s.modTcc t (fun x => if x.state = .frozen then x else { x with held := x.state, state := .frozen })

/-- A freeze of any tile suspends the monitors of the whole polder until the next slot (R255). -/
def State.suspendMonitors (s : State) (p : Nat) : State :=
  s.forEach (s.pld p).tiles (fun s t => s.modTile t (fun x => { x with mon := { x.mon with suspended := true } }))

/-- A release returns a TCC to the state it left once no freeze holds it: READY runs after a START, and HALTED is DONE where
its conditions have been met. -/
def State.releaseTile (s : State) (t : Nat) : State :=
  let x := (s.tile t).tcc
  if s.frozenTile t || x.state != .frozen || x.faulted then s
  else
    let s := s.modTcc t (fun x => if x.held = .ready && x.startPending then { x.start with startPending := false } else { x with state := x.held })
    if (s.tile t).tcc.state == .halted && s.tileIdle t then s.enterDone t else s

def State.freezeTiles (s : State) (p : Nat) (ts : List Nat) (on : Bool) : State :=
  if on then ((s.forEach ts (fun s t => s.freezeTile t)).suspendMonitors p).setVoid p else s.forEach ts (fun s t => s.releaseTile t)

/-- A write of FREEZE: accepted while the polder concerned is RUNNING, otherwise ignored and logged. On a class without the field a 0
logs nothing. DEDUCED: log entry 36. -/
def State.writeFreeze (s : State) (pg : Nat) (on : Bool) : State :=
  if !freezable (classOfPage pg) then if on then s.ignoreWrite (pg + 0x008) else s
  else
    let p := s.pageOwner pg
    if p = 0x1F || (s.pld p).state != .running then s.ignoreWrite (pg + 0x008)
    else if s.pageFreeze pg == on then s
    else if classOfPage pg = 0x01 then
      (s.setReg (pg + 0x008) (if on then 4 else 0)).freezeTiles p (tilesOf pg) on
    else (s.modPld p (fun x => { x with frozen := on })).freezeTiles p (s.pld p).tiles on

/-! ### Header writes (R504, R506, R507) -/

/-- RESET zeroes the error count and log. -/
def State.resetErrors (s : State) (pg : Nat) : State :=
  s.forEach [0x01C, 0x020, 0x024, 0x028, 0x02C] (fun s o => s.setReg (pg + o) 0)

/-- BLK_CTL: RESET, then FREEZE. -/
def State.writeCtl (s : State) (pg : Nat) (v : Word) : State :=
  let s := if v.getLsbD 1 then s.resetErrors pg else s
  s.writeFreeze pg (v.getLsbD 2)

/-- BLK_IRQ_STS: each 1 clears its bit; vector 3 goes out again while any page has an enabled bit set. -/
def State.clearIrq (s : State) (pg : Nat) (v : Word) : State :=
  let s := s.setReg (pg + 0x010) (s.reg (pg + 0x010) &&& ~~~v)
  if s.irqAny then s.sendMsix 0 3 else s

/-- BLK_IRQ_FORCE: each 1 sets an assigned bit. -/
def State.forceIrq (s : State) (pg : Nat) (v : Word) : State := s.setIrq pg (v &&& wordOf (irqAssigned pg)).toNat

/-- BLK_IRQ_EN: one enable for each assigned bit. -/
def State.writeIrqEn (s : State) (pg : Nat) (v : Word) : State :=
  (s.setReg (pg + 0x014) (v &&& wordOf (irqAssigned pg))).irqEdge s

/-- FREEZE (R498, R507). -/
def execFreeze (page : BitVec 28) (on : Bool) (s : State) : Host.Outcome State Fault Refusal :=
  let pg := page.toNat / 4096 * 4096
  .next (if s.pageReached 4 pg then ((s.accessCrosses 4 (dieOfPage pg)).writeFreeze pg on).answerWritten else s.answerError)

/-- BLK_CTL_RESET (R504). -/
def execBlkCtlReset (page : BitVec 28) (s : State) : Host.Outcome State Fault Refusal :=
  let pg := page.toNat / 4096 * 4096
  .next (if s.pageReached 4 pg then ((s.accessCrosses 4 (dieOfPage pg)).resetErrors pg).answerWritten else s.answerError)

/-- BLK_IRQ_STS_CLEAR (R507). -/
def execBlkIrqStsClear (page : BitVec 28) (bits : Word) (s : State) : Host.Outcome State Fault Refusal :=
  let pg := page.toNat / 4096 * 4096
  .next (if s.pageReached 4 pg then ((s.accessCrosses 4 (dieOfPage pg)).clearIrq pg bits).answerWritten else s.answerError)

/-- BLK_IRQ_FORCE (R507). -/
def execBlkIrqForce (page : BitVec 28) (bits : Word) (s : State) : Host.Outcome State Fault Refusal :=
  let pg := page.toNat / 4096 * 4096
  .next (if s.pageReached 4 pg then ((s.accessCrosses 4 (dieOfPage pg)).forceIrq pg bits).answerWritten else s.answerError)

/-- PLD_WD_LIMIT applies to the next comparison (R366). -/
def execPldWdLimit (p : PolderId) (value : Word) (s : State) : Host.Outcome State Fault Refusal :=
  .next (if s.hostReaches then (s.setReg (pldReg p.toNat 0x054) value).answerWritten else s.answerError)

/-! ### Writes by class (R92, R188, R377, R400, R428, R436) -/

/-- The sum of the three reservations of a TIL_REQ_RSV value. -/
def reservedSum (v : Word) : Nat := field v.toNat 0 6 + field v.toNat 8 6 + field v.toNat 16 6

/-- A write to a TIL register of a column. Reservations and slot owners are ignored while the row has no owner. -/
def State.writeColumn (s : State) (t off : Nat) (v : Word) : State :=
  let a := tilReg t off
  if off = 0x00 then
    let s := if v.getLsbD 0 then s.writeStart t else s
    let s := if v.getLsbD 1 then s.writeStep t .clean else s
    s.noteCtl t (field v.toNat 0 2 - if v.getLsbD 0 && (s.tileOwner t).isNone then 1 else 0)
  else if off = 0x1C then
    if (s.tileOwner t).isNone || 48 < reservedSum v then s.ignoreWrite a else s.setReg a (v &&& 0x3F3F3F)
  else if 0x20 ≤ off && off < 0x38 then if (s.tileOwner t).isNone then s.ignoreWrite a else s.setReg a v
  else if off = 0x38 then s.setReg a (v &&& 0xFF)
  else s

/-- WIN_CTL takes 30 to 46. -/
def State.writeSeepage (s : State) (a : Nat) (v : Word) : State :=
  if a % 4096 = 0x050 then
    let e := field v.toNat 0 6
    if 30 ≤ e && e ≤ 46 then s.setReg a (wordOf e) else s.ignoreWrite a
  else if a % 4096 = 0x054 then s.setReg a v
  else s

/-- A polder outside FREE names some port. -/
def State.anyPortNamed (s : State) : Bool := (List.range 16).any (fun p => (s.pld p).state.owns && (s.pld p).cat.ports != 0)

/-- The part's identity and routes, in port 0's page (R400, R401). -/
def State.writeIdentity (s : State) (a : Nat) (v : Word) : State :=
  let off := a % 4096
  if s.anyPortNamed then s.ignoreWrite a
  else if off = 0x800 then s.setReg a ((v &&& 0xFFF) ||| 0x1000)
  else if off = 0x80C then s.setReg a v
  else if off < 0x910 then s.setReg a (v &&& 0x1F)
  else s.setReg a (v &&& 0x1FF)

def State.writePort (s : State) (a : Nat) (v : Word) : State :=
  let off := a % 4096
  let n := portOf (a / 4096 * 4096)
  if off = 0x040 then s.writePrtCtl n v
  else if off = 0x090 then s.setReg a (v &&& 0xFFFF7777)
  else if off = 0x094 || off = 0x098 then s.setReg a (v &&& 0xFFFF)
  else if n = 0 && (off == 0x800 || (0x80C ≤ off && off < 0xA10)) then s.writeIdentity a v
  else s

def State.writePcie (s : State) (a : Nat) (v : Word) : State :=
  if a % 4096 = 0x050 then if sizeOk v then s.setReg a (v &&& 0x11F) else s.ignoreWrite a
  else if a % 4096 = 0x054 then s.writeFrHead v
  else s

def State.writePower (s : State) (a : Nat) (v : Word) : State :=
  if dieOfPage a != 4 then s
  else if a % 4096 = 0x064 then s.writePwrCap v
  else if a % 4096 = 0x068 then s.setReg a (v &&& 0xFFFF)
  else s

/-- The low words of 64-bit RW registers: the MACs, the IPv6 prefix, the fault ring's base and the record's index. -/
def holdsLow (a : Nat) : Bool :=
  let off := a % 4096
  match classOfPage a with
  | 0x10 => off == 0x080 || off == 0x088 || (off == 0x804 && portOf (a / 4096 * 4096) == 0)
  | 0x11 => off == 0x048
  | 0x16 => off == 0x080
  | _ => false

/-- A 64-bit RW register takes both halves together. -/
def State.writePair (s : State) (a : Nat) (low high : Word) : State :=
  let put (s : State) (l h : Word) : State := (s.setReg a l).setReg (a + 4) h
  match classOfPage a with
  | 0x10 =>
    if a % 4096 = 0x804 then if s.anyPortNamed then s.ignoreWrite a else put s low high
    else put s low (high &&& 0xFFFF)
  | 0x11 => if bitAt (s.reg (pciPage + 0x050)).toNat 8 then s.ignoreWrite a else put s (low &&& 0xFFFFF000) high
  | _ => put s low high

/-- The high word's write takes effect with the low word that the requester wrote, or else with the current one (R502). -/
def State.writeHigh (s : State) (r : Requester) (a : Nat) (v : Word) : State :=
  let low := a - 4
  let key := heldKey r low
  let s' := s.writePair low ((Table.get none s.heldLow key).getD (s.reg low)) v
  { s' with heldLow := Table.put none s'.heldLow key none }

/-- The write of a word that reaches a page, by access code: what is not listed is read-only or reserved and stays. -/
def State.applyWrite (s : State) (r : Requester) (a : Nat) (v : Word) : State :=
  let pg := a / 4096 * 4096
  let off := a % 4096
  if off < 0x040 then
    match off with
    | 0x008 => s.writeCtl pg v
    | 0x010 => s.clearIrq pg v
    | 0x014 => s.writeIrqEn pg v
    | 0x018 => s.forceIrq pg v
    | _ => s
  else if holdsLow a then { s with heldLow := Table.put none s.heldLow (heldKey r a) (some v) }
  else if holdsLow (a - 4) then s.writeHigh r a v
  else match classOfPage pg with
    | 0x01 => if 0x100 ≤ off && off < 0x900 then s.writeColumn (8 * rowOf pg + (off - 0x100) / 0x100) (off % 0x100) v else s
    | 0x02 => s.writeSeepage a v
    | 0x03 => s.writeSeepage a v
    | 0x12 => s.writeSeepage a v
    | 0x07 => s.writePower a v
    | 0x10 => s.writePort a v
    | 0x11 => s.writePcie a v
    | 0x17 => if off = 0x054 then s.setReg a v else s
    | _ => s

/-! ### Mailbox registers and VF pages (R406, R420, R511) -/

/-- A write to a channel's register or buffer at a page offset: MBX_DB, MBX_CTL and the buffer are the sender's, and
MBX_REJ clears by 1s. -/
def State.writeChannel (s : State) (r : Requester) (c off : Nat) (v : Word) : State :=
  if 0x800 ≤ off then s.channelWrite r c off (fun s => s.fillBuffer r c (off % 0x100) (leBytes 4 v.toNat))
  else if off % 0x20 = 0x04 then s.channelWrite r c off (fun s => s.ringChannel r c v)
  else if off % 0x20 = 0x0C then s.channelWrite r c off (fun s => s.releaseChannel c v)
  else if !s.reachesChan r c then s.writeUr r (mbxPage c + off)
  else if !sends r c then s.answerError
  else if off % 0x20 = 0x10 then (s.setReg (mbxReg c 0x10) (s.reg (mbxReg c 0x10) &&& ~~~v)).answerWritten
  else s.answerWritten

/-- A write of a VF to its page. -/
def State.writeVf (s : State) (p off size : Nat) (v : Dword) : State :=
  let r : Requester := .vf (BitVec.ofNat 4 p)
  let low : Word := v.setWidth 32
  if 0x4000 ≤ off then s.writeUr r off
  else if (vfMsix p).takes off size then s.vfWrite p off (fun s => s.writeMsixAt (vfMsix p) off size v)
  else if off % 4 != 0 || size != 4 then s.writeUr r off
  else if 0x1000 ≤ off && off < 0x1020 then s.writeChannel r (8 + p) (mbxOff (8 + p) + (off - 0x1000)) low
  else if 0x1100 ≤ off && off < 0x1200 then s.writeChannel r (8 + p) (mbxBuf (8 + p) + (off - 0x1100)) low
  else s.vfWrite p off (fun s =>
    if off = 0x010 then s.writeSqTail p low
    else if off = 0x024 then s.writeCqHead p low
    else if isQueueConfig off then s.writeQueueConfig p off low
    else s)

/-- A write of a size in bytes by a requester (R8, R9, R501, R506). -/
def State.writeAccess (s : State) (r : Requester) (a size : Nat) (v : Dword) : State :=
  let low : Word := v.setWidth 32
  match r with
  | .vf p => s.writeVf p.toNat a size v
  | .bar2 => s.writeBar2 a size v
  | .config fn => s.writeConfig fn.toNat a low
  | r =>
    let pg := a / 4096 * 4096
    if !s.reachesReg r a then s.writeUr r a
    else if size != 4 || a % 4 != 0 then ((s.access r pg).logError pg 3 0 (a % 4096) 0x1F).writeUr r a
    else match channelAt pg (a % 4096) with
      | some c => (s.access r pg).writeChannel r c (a % 4096) low
      | none => ((s.access r pg).applyWrite r a low).answerWritten

/-- REGISTER_WRITE (R10). -/
def execRegisterWrite (r : Requester) (addr : BitVec 28) (size : BitVec 4) (value : Dword) (s : State) : Host.Outcome State Fault Refusal :=
  .next (s.writeAccess r addr.toNat size.toNat value)

end Sys2Proof.Machine
end

