-- ==== Sys2Proof/Machine/Dma.lean ====
section
/-!
DEFINITION. The DMA engines: command checks, held skew streams, the next request of an engine, and the rows that arriving data write (R192 to R207, R216, R531).
-/

namespace Sys2Proof.Machine

/-! ### Fields and checks (R193, R194, R216, R531) -/

def Command.spRow (c : Command) : Nat := c.f1 0 13
def Command.ringRows (c : Command) : Nat := 2 ^ (6 + field (c.shapeWord 0) 11 3)
def Command.shapeMode (c : Command) : Nat := field (c.shapeWord 0) 4 3
def Command.sstep (c : Command) : Nat := field (c.shapeWord 3) 0 13
def Command.slot0 (c : Command) : Nat := c.f3 10 13
def Command.flush (c : Command) : Bool := bitAt c.w1.toNat 20
def Command.cont (c : Command) : Bool := bitAt c.w1.toNat 21
def Command.half (c : Command) : Bool := bitAt c.w1.toNat 22

/-- Skew transforms place rows by slot. -/
def Command.skews (c : Command) : Bool := c.xform == 1 || c.xform == 3

/-- Transforms that read a stored matrix tile. -/
def Command.tiles (c : Command) : Bool := c.xform == 5 || c.xform == 6

/-- Element width of the shape's FMT. -/
def Command.width (c : Command) : Nat :=
  match Fmt.ofA c.shapeFmt with
  | some f => f.width
  | none => 0

/-- Skew depth of a mode (R98). -/
def skewDepth (mode : Nat) : Nat :=
  match mode with
  | 1 => 32 | 2 => 16 | 3 => 8 | 4 => 8 | _ => 1

/-- Vectors of a skew descriptor. -/
def Command.vectors (c : Command) : Nat := if c.xform = 3 then 128 * c.items else c.items

/-- Reserved fields, reserved codes and fields that the transform does not use (R531). TILE_PACK takes the six MX formats; that FMT 0x6
and 0x7 are refused here is a DESIGN CHOICE: log entry 157. -/
def dmaFieldsOk (c : Command) : Bool :=
  let x := c.xform
  let s0 := c.shapeWord 0
  let s1 := c.shapeWord 1
  let usesMode := c.skews || x == 4 || x == 6
  c.w0Ok && c.f1 23 9 == 0 && c.f3 23 9 == 0 && field s0 15 17 == 0 && field s1 22 10 == 0 && field (c.shapeWord 3) 13 19 == 0
    && decide (x ≤ 7) && decide (c.shapeFmt ≤ 7) && decide (field s1 0 4 ≤ 7) && decide (field s1 17 5 ≤ 15)
    && (if usesMode then decide (1 ≤ c.shapeMode) && decide (c.shapeMode ≤ 5) else c.shapeMode == 0)
    && (c.skews || (!c.flush && !c.cont && c.slot0 == 0))
    && ((x == 6 && c.shapeMode == 4) || !c.half)
    && (x != 0 || c.shapeFmt == 0)
    && (x == 7 || !bitAt s0 14)
    && (x == 0 || x == 1 || field s1 0 4 == 0)
    && (x == 2 || x == 3 || field s1 17 5 == 0)
    && (!c.skews || c.sstep == 0)
    && (x != 7 || decide (c.shapeFmt ≤ 5))

/-- The transform is not allowed for the opcode or its parameters (0x0162). -/
def dmaXformOk (c : Command) (store : Bool) : Bool :=
  let x := c.xform
  (if store then x == 0 || x == 7 else decide (x ≤ 6))
    && !(c.skews && c.shapeMode == 5) && !(x == 1 && c.unitBytes != 512)
    && !((x == 2 || x == 3) && decide (96 < c.width * c.groups))
    && !(x == 4 && (c.shapeMode == 3 || c.shapeMode == 4)) && !(x == 6 && c.shapeMode == 5)

/-- CONT = 1 continues the held stream (R200). -/
def skewContOk (held : Option Skew) (c : Command) : Bool :=
  if !(c.skews && c.cont) then true
  else match held with
    | none => false
    | some k => k.spRow == c.spRow && k.ring == c.ringRows && k.mode == c.shapeMode && decide (k.next ≤ c.slot0)

/-- The first failing check of a DMA command (R216). -/
def dmaFault (held : Option Skew) (c : Command) (store : Bool) : Option Nat :=
  firstFault [
    (!dmaFieldsOk c, 0x0160),
    (decide (8191 < c.spRow + c.ringRows - 1), 0x0161),
    (!dmaXformOk c store, 0x0162),
    (!skewContOk held c, 0x0163),
    (if store then bitAt c.w1.toNat 18 || bitAt c.w1.toNat 19 else bitAt c.w1.toNat 18 && !c.sigEn, 0x0165)]

/-! ### Starting a descriptor -/

def Tile.dma (x : Tile) (q : Nat) : DmaEngine := if q = 3 then x.dma0 else x.dma1
def Tile.setDma (x : Tile) (q : Nat) (d : DmaEngine) : Tile := if q = 3 then { x with dma0 := d } else { x with dma1 := d }

/-- The skew stream that a descriptor leaves held: its own under CONT or a new one, or none under FLUSH (R199, R200). -/
def nextSkew (held : Option Skew) (c : Command) (seq : Nat) : Option Skew :=
  if !c.skews then held
  else if c.flush then none
  else
    let id := if c.cont then (held.map (·.stream)).getD seq else seq
    some { stream := id, spRow := c.spRow, ring := c.ringRows, mode := c.shapeMode, next := c.slot0 + c.vectors }

/-! ### Items -/

def itemKey (i off : Nat) : Nat := i * 2 ^ 20 + off

/-- The bytes of an item that have arrived or are staged, lowest offset first. -/
def Active.itemGot (a : Active) (i : Nat) : List Byte := (a.got.filter (fun e => e.1 / 2 ^ 20 == i)).flatMap (·.2)

def Active.clearItem (a : Active) (i : Nat) : Active := { a with got := a.got.filter (fun e => e.1 / 2 ^ 20 != i) }

/-- The header of a tile item, once it has arrived. -/
def Active.header (a : Active) (i : Nat) : Option TileHeader :=
  (a.got.find? (fun e => e.1 == itemKey i 0)).map (fun e => TileHeader.read e.2)

/-- The bytes that an item takes in memory, where they are known. -/
def Active.itemTotal (a : Active) (i : Nat) : Option Nat :=
  if a.cmd.tiles then (a.header i).map (fun h => 64 + h.payload)
  else if a.cmd.xform = 7 then some (a.itemGot i).length
  else some a.cmd.itemBytes

/-- Every item's requests have been issued. -/
def Active.issuedAll (a : Active) : Bool := decide (a.cmd.items ≤ a.item)

/-! ### The next request of an engine (R196, R197) -/

/-- A request that an engine has ready to issue. -/
structure Need where
  seq : Nat
  key : Nat
  va : Nat
  len : Nat
  isWrite : Bool
  data : List Byte
  merge : Bool
  watched : Bool
  sigEn : Bool
  sigCtr : Nat
  deriving Repr

/-- The scratchpad row at a ring offset of a descriptor. -/
def Command.ringRow (c : Command) (o : Nat) : Nat := c.spRow + o % c.ringRows

/-- The bytes that a STORE sends for an item, read from its rows (R195, R205). -/
def State.storeBytes (s : State) (t : Nat) (c : Command) (i : Nat) : List Byte :=
  if c.xform = 7 then
    let n := densePayload c.shapeFmt
    packTile c.shapeFmt (bitAt (c.shapeWord 0) 14)
      (((List.range (n / 512)).flatMap (fun k => s.spadRow t (c.ringRow (i * c.sstep + k)))).take n)
  else (s.spadRow t (c.ringRow (i * c.sstep))).take c.unitBytes

/-- The descriptor whose requests come next: the oldest that has any to issue, if it has begun. -/
def Engine.issuing (e : Engine) : Option Active :=
  match e.active.find? (fun a => !a.finished && !a.issuedAll) with
  | some a => if a.begun then some a else none
  | none => none

/-- The length of a request at an address for a count of bytes left: up to the next kilobyte boundary, in whole 64 bytes (R90, R196). -/
def requestLen (va left : Nat) : Nat := min ((left + 63) / 64 * 64) (1024 - va % 1024)

/-- The next request of a descriptor, where its item's size is known. A tile's header goes first and alone. -/
def Active.need (a : Active) (staged : List Byte) : Option Need :=
  let c := a.cmd
  let va := c.itemVa a.item + a.off
  let mk (len : Nat) : Need :=
    { seq := a.seq, key := itemKey a.item a.off, va := va, len := len, isWrite := c.opcode == 2,
      data := if c.opcode == 2 then (staged.drop a.off).take len else [], merge := bitAt c.w1.toNat 19 && c.opcode == 1,
      watched := c.watches, sigEn := c.sigEn, sigCtr := c.sigCtr }
  if c.tiles && a.off = 0 then some (mk 64)
  else
    let total := if c.opcode = 2 then some staged.length else a.itemTotal a.item
    total.map (fun n => mk (requestLen va (n - a.off)))

/-- A descriptor after a request has been issued. -/
def Active.advance (a : Active) (len total : Nat) : Active :=
  let a := { a with flight := a.flight + 1 }
  if total ≤ a.off + len then { a with item := a.item + 1, off := 0 } else { a with off := a.off + len }

/-! ### Rows written as data arrive -/

/-- Writes rows of which all bytes are stated, from a ring offset on. -/
def State.ringWrite (s : State) (t : Nat) (c : Command) (o : Nat) (rows : List (List Byte)) : State :=
  s.forEach rows.zipIdx (fun s e => s.setSpadRow t (c.ringRow (o + e.2)) e.1)

/-- Writes rows of which only some bytes are stated. -/
def State.ringLoose (s : State) (t : Nat) (c : Command) (o : Nat) (known : List (Nat × Nat)) (rows : List (List Byte)) : State :=
  s.forEach rows.zipIdx (fun s e => s.setLooseRow t (c.ringRow (o + e.2)) e.1 known)

/-- A tile item in the form of its transform (R203, R204). -/
def State.writeTile (s : State) (t : Nat) (c : Command) (i : Nat) (bs : List Byte) : State :=
  let h := TileHeader.read bs
  let w := elemWidth h.elem
  let body := bs.drop 64
  let v := viewTile (fun k => (Config.freeWord (s.drawn + k)).toNat) h body
  let s := if h.kind = 2 then { s with drawn := s.drawn + 65536 } else s
  let o := i * c.sstep
  if c.xform = 5 then
    let s := s.ringWrite t c o [padTo 0 512 (bs.take 64)]
    s.ringLoose t c (o + 1) [(0, 32 * w), (496, 512)] ((bseBlocks h).map (bseBlockRow h body v))
  else
    let m := c.shapeMode
    s.forEach (List.range (setsPerTile m)) (fun s j =>
      s.ringLoose t c (o + 128 * j + if c.half then 64 else 0) (imageKnown w m)
        ((List.range (rowsPerSet m)).map (tileImageRow v w m j)))

/-- The vectors that an item of a skew transform gives, in slot order. -/
def itemVectors (c : Command) (bs : List Byte) : List (List Byte) :=
  if c.xform = 3 then
    let src := rowsOf bs (33 * c.groups)
    (List.range 128).map (transVRow c.width c.groups src)
  else [bs.take 512]

def vecKey (stream slot : Nat) : Nat := stream * 2 ^ 24 + slot

/-- An item has arrived whole: its rows are written, or its vectors join the skew stream. -/
def State.writeItem (s : State) (t q : Nat) (a : Active) (i : Nat) (bs : List Byte) : State :=
  let c := a.cmd
  match c.xform with
  | 0 => s.ringWrite t c (i * c.sstep) [padTo 0 512 (bs.take c.unitBytes)]
  | 2 => s.ringWrite t c (i * c.sstep) ((List.range 128).map (transVRow c.width c.groups (rowsOf bs (33 * c.groups))))
  | 4 => s.ringLoose t c (i * c.sstep) [(0, 16 * c.width * perPe c.shapeMode), (256, 384)]
      ((List.range 128).map (transIRow c.width c.shapeMode (rowsOf bs 128)))
  | 5 => s.writeTile t c i bs
  | 6 => s.writeTile t c i bs
  | _ =>
    let vs := itemVectors c bs
    let base := c.slot0 + vs.length * i
    s.modTile t (fun x => x.setDma q { x.dma q with
      vecs := vs.zipIdx.foldl (fun m v => Table.put [] m (vecKey a.stream (base + v.2)) v.1) (x.dma q).vecs })

/-- Ring row ρ of a skew stream: lane k from the vector of slot ρ - s(k), the scales from the vector of slot ρ (R199). -/
def skewRow (w mode : Nat) (vec : Nat → List Byte) (rho : Nat) : List Byte :=
  let rows := (List.range (skewDepth mode)).map (fun d => if d ≤ rho then leNat (vec (rho - d)) else 0)
  let lanes := (List.range (3072 / w)).map (fun k => rowElem (rowAt rows (skewOf mode k)) w k)
  padTo 0 384 (leBytes 384 (pack w lanes)) ++ List.replicate 112 0 ++ ((padTo 0 512 (vec rho)).drop 496)

/-- The first row that a skew descriptor leaves to the next one of its stream: under FLUSH it writes the tail as well (R199). -/
def Command.skewStop (c : Command) : Nat := c.slot0 + c.vectors + if c.flush then skewDepth c.shapeMode - 1 else 0

/-- The descriptors of a skew stream whose vectors are still arriving. -/
def Engine.ofStream (e : Engine) (stream : Nat) : List Active :=
  e.active.filter (fun b => b.begun && !b.finished && b.cmd.skews && b.stream == stream)

/-- The vector of a slot of a skew stream, empty while it has not arrived. -/
def DmaEngine.vec (d : DmaEngine) (stream slot : Nat) : List Byte := Table.get [] d.vecs (vecKey stream slot)

/-- Every vector that a ring row of a skew descriptor holds has arrived. -/
def State.skewReady (s : State) (t q : Nat) (a : Active) (rho : Nat) : Bool :=
  (List.range (min (rho + 1) (skewDepth a.cmd.shapeMode))).all (fun k =>
    (((s.tile t).engine q).ofStream a.stream).all (fun b =>
      !(decide (b.cmd.slot0 ≤ rho - k) && decide (rho - k < b.cmd.slot0 + b.cmd.vectors))
        || !(((s.tile t).dma q).vec a.stream (rho - k)).isEmpty))

/-- A skew descriptor after rows have been written: the first row still to write moves past those that are. -/
def Active.wrote (a : Active) (rows : List Nat) : Active :=
  let done := a.done ++ rows
  let n := ((List.range done.length).takeWhile (fun i => done.contains (a.rowLo + i))).length
  { a with rowLo := a.rowLo + n, done := done.filter (fun r => decide (a.rowLo + n ≤ r)) }

/-- Writes the ring rows of a skew descriptor, each once and as soon as every vector that it holds has arrived (R199). -/
def State.skewRows (s : State) (t q : Nat) (a : Active) : State :=
  let c := a.cmd
  let rows := ((List.range (c.skewStop - a.rowLo)).map (a.rowLo + ·)).filter (fun r => !a.done.contains r && s.skewReady t q a r)
  let vec := ((s.tile t).dma q).vec a.stream
  (s.forEach rows (fun s r => s.setSpadRow t (c.ringRow r) (skewRow c.width c.shapeMode vec r))).modActive t q a.seq (fun b => b.wrote rows)

/-- A skew descriptor that has written its last row finishes, and vectors that no later row needs are dropped. -/
def State.skewFinish (s : State) (t q : Nat) (a : Active) : State :=
  let c := a.cmd
  if a.rowLo < c.skewStop then s
  else
    let held := ((s.tile t).dma q).skew
    let others := (((s.tile t).engine q).ofStream a.stream).filter (fun b => b.seq != a.seq)
    let needs (slot row : Nat) : Bool := decide (row < slot + skewDepth c.shapeMode)
    let keep (k : Nat) : Bool :=
      k / 2 ^ 24 != a.stream || others.any (fun b => needs (k % 2 ^ 24) b.rowLo)
        || held.any (fun h => h.stream == a.stream && needs (k % 2 ^ 24) h.next)
    let s := s.modTile t (fun x => x.setDma q { x.dma q with vecs := (x.dma q).vecs.filter (fun e => keep e.1) })
    s.finish t q a.seq

/-- Writes what the skew descriptors of a stream can write now. -/
def State.skewProgress (s : State) (t q stream : Nat) : State :=
  s.forEach (((s.tile t).engine q).ofStream stream) (fun s a =>
    let s := s.skewRows t q a
    match ((s.tile t).engine q).active.find? (fun b => b.seq == a.seq) with
    | some b => s.skewFinish t q b
    | none => s)

/-! ### The start of a descriptor (R199, R200) -/

/-- A checked descriptor begins: it joins its skew stream, and its requests may be issued. Under CONT the rows that hold no vector of
its own, left by slots that it skips, are written where their vectors are there already (R199). -/
def State.beginDma (s : State) (t q : Nat) (a : Active) : State :=
  let held := ((s.tile t).dma q).skew
  let stream := if a.cmd.cont then (held.map (·.stream)).getD a.seq else a.seq
  let lo := if a.cmd.cont then (held.map (·.next)).getD a.cmd.slot0 else a.cmd.slot0
  let live (k : Nat) : Bool := k == stream
    || ((s.tile t).engine q).active.any (fun b => b.begun && !b.finished && b.cmd.skews && b.stream == k)
  let s := s.modTile t (fun x => x.setDma q { x.dma q with
    skew := nextSkew held a.cmd a.seq
    vecs := if a.cmd.skews then (x.dma q).vecs.filter (fun e => live (e.1 / 2 ^ 24)) else (x.dma q).vecs })
  let s := s.modActive t q a.seq (fun b => { b with begun := true, stream := stream, rowLo := lo })
  if a.cmd.skews && a.cmd.cont then (s.bumpHeld (dmaReg t (if q = 3 then 0x20 else 0x60))).skewProgress t q stream else s

/-- The oldest descriptor of an engine that has not begun, of an opcode. -/
def State.dmaCurrent (s : State) (t q op : Nat) : Option Active :=
  if s.tileLive t && !((s.tile t).engine q).frozen then
    pickActive (fun a => a.cmd.opcode == op && !a.begun) (fun a => !a.begun) ((s.tile t).engine q).active
  else none

/-- A DMA command's checks and its start. -/
def State.startDma (s : State) (t q : Nat) (store : Bool) : State :=
  match s.dmaCurrent t q (if store then 2 else 1) with
  | none => s
  | some a =>
    match dmaFault ((s.tile t).dma q).skew a.cmd store with
    | some code => s.raiseEngine t q code 0
    | none => s.beginDma t q a

/-- DMA_LOAD: the descriptor starts; its reads are REQUEST_ISSUE to RESPONSE_ARRIVAL, and the rows are written as the data
arrive (R195, R207). -/
def execDmaLoad (t : TileId) (e : Bool) (s : State) : Host.Outcome State Fault Refusal :=
  .next (s.startDma t.toNat (if e then 4 else 3) false)

/-- DMA_STORE: the descriptor starts; its rows are read and its writes issued by REQUEST_ISSUE (R195, R205). -/
def execDmaStore (t : TileId) (e : Bool) (s : State) : Host.Outcome State Fault Refusal :=
  .next (s.startDma t.toNat (if e then 4 else 3) true)

/-! ### Arrivals -/

/-- A part of an item has arrived. The header of a refused tile freezes the engine and writes no row (R206). -/
def State.loadArrived (s : State) (t q : Nat) (r : Req) : State :=
  match ((s.tile t).engine q).active.find? (fun a => a.seq == r.seq) with
  | none => s
  | some a =>
    let i := r.key / 2 ^ 20
    let off := r.key % 2 ^ 20
    let s := s.bump64 (dmaReg t (if q = 3 then 0x0C else 0x4C)) r.len
    let a := { a with flight := a.flight - 1, got := Table.put [] a.got r.key r.data }
    let bad := a.cmd.tiles && off == 0
      && !tileHeaderOk a.cmd.xform a.cmd.shapeMode a.cmd.shapeFmt (TileHeader.read r.data)
    if bad then (s.setReg64 (faultVaReg t q) r.va).raiseEngine t q 0x0164 r.va
    else
      -- a header of an item without payload ends the item
      let a := if a.cmd.tiles && off == 0 && a.itemTotal i == some 64 && a.item == i then { a with item := i + 1, off := 0 } else a
      let whole := match a.itemTotal i with
        | some n => decide (n ≤ (a.itemGot i).length)
        | none => false
      if whole then
        let bs := a.itemGot i
        let s := s.modActive t q a.seq (fun _ => { a.clearItem i with written := a.written + 1 })
        let s := (s.writeItem t q a i bs).bumpHeld (dmaReg t (if q = 3 then 0x20 else 0x60))
        if a.cmd.skews then s.skewProgress t q a.stream
        else if a.written + 1 = a.cmd.items then s.finish t q a.seq else s
      else s.modActive t q a.seq (fun _ => a)

/-- A write has been acknowledged: the last acknowledgement finishes the descriptor. -/
def State.storeAcked (s : State) (t q : Nat) (r : Req) : State :=
  match ((s.tile t).engine q).active.find? (fun a => a.seq == r.seq) with
  | none => s
  | some a =>
    let s := s.bump64 (dmaReg t (if q = 3 then 0x14 else 0x54)) r.data.length
    let a := { a with flight := a.flight - 1 }
    s.modActive t q a.seq (fun _ => { a with finished := a.issuedAll && a.flight == 0 })

end Sys2Proof.Machine
end

