-- ==== Sys2Proof/Machine/Gather.lean ====
section
/-!
DEFINITION. The gather engine: stream configuration, runs, run-ahead data and the next request of a stream (R210 to R216).
-/

namespace Sys2Proof.Machine

def Tile.stream (x : Tile) (i : Nat) : GStream := Table.get default x.ge i
def State.modStream (s : State) (t i : Nat) (f : GStream → GStream) : State :=
  s.modTile t (fun x => { x with ge := Table.put default x.ge i (f (x.stream i)) })

/-- Discards a stream's run-ahead data and counts it (R211, R217). -/
def State.clearRunAhead (s : State) (t i : Nat) : State :=
  let g := (s.tile t).stream i
  (s.bump (dmaReg t 0x94) (g.ra.countP (fun e => !e.dropped))).modStream t i (fun g => { g with ra := [] })

/-- The oldest command of queue 5 of an opcode that has not begun. Streams are independent (R212). -/
def State.geCurrent (s : State) (t op : Nat) : Option Active :=
  if s.tileLive t && !((s.tile t).engine 5).frozen then
    pickActive (fun a => a.cmd.opcode == op && !a.begun) (fun _ => false) ((s.tile t).engine 5).active
  else none

/-! ### GSTREAM (R210, R211, R216) -/

def Command.gconfig (c : Command) : GConfig :=
  { indexed := bitAt c.w1.toNat 2, merge := bitAt c.w1.toNat 3, runahead := bitAt c.w1.toNat 4, unit := c.f1 5 4 + 1,
    dst := c.f1 9 13, ring := 2 ^ (6 + c.f1 22 3), base := c.va, estride := c.f3 10 22 }

def gstreamFault (c : Command) : Option Nat :=
  let k := c.gconfig
  firstFault [
    (!(c.w0Ok && c.f1 25 7 == 0 && decide (k.unit ≤ 8)), 0x0170),
    (decide (8191 < k.dst + k.ring - 1), 0x0171)]

def execGstream (t : TileId) (s : State) : Host.Outcome State Fault Refusal :=
  let n := t.toNat
  .next (match s.geCurrent n 1 with
    | none => s
    | some a =>
      match gstreamFault a.cmd with
      | some code => s.raiseEngine n 5 code 0
      | none =>
        let s := s.clearRunAhead n a.cmd.stream
        (s.modStream n a.cmd.stream (fun g => { g with cfg := some a.cmd.gconfig, pos := 0, past := none })).finish n 5 a.seq)

/-! ### GRUN (R210, R211, R212, R216) -/

structure GrunCmd where
  stream : Nat
  count : Nat
  idxRow : Nat
  cont : Bool
  start : Nat

def Command.grun (c : Command) : GrunCmd :=
  { stream := c.stream, count := c.f1 2 13 + 1, idxRow := c.f1 15 13, cont := bitAt c.w1.toNat 28, start := c.w2.toNat }

/-- Rows of an index list of a count of entries. -/
def indexRows (count : Nat) : Nat := (count + 127) / 128

/-- GRUN's checks. IDX_ROW is a field of indexed runs, START of strided runs with CONT = 0. -/
def grunFault (cfg : Option GConfig) (c : Command) : Option Nat :=
  let r := c.grun
  let indexed := match cfg with
    | some k => k.indexed
    | none => false
  firstFault [
    (!(c.w0Ok && c.f1 29 3 == 0 && c.w3 == 0), 0x0170),
    (indexed && decide (8192 < r.idxRow + indexRows r.count), 0x0171),
    (cfg.isNone, 0x0172)]

/-- The index list of a run as its rows hold it. -/
def State.indexList (s : State) (t row count : Nat) : List Word :=
  (List.range count).map (fun p => wordOf (leNat (Mem.readN s.store.spad (spadKey t (row + p / 128) (4 * (p % 128))) 4)))

/-- A strided run that continues starts after the last element number; where no run came before, at a free value (log entry 21). -/
def State.runStart (s : State) (g : GStream) (r : GrunCmd) : Nat × State :=
  if !r.cont then (r.start, s)
  else match g.lastX with
    | some x => (x + 1, s)
    | none => (s.draw.1.toNat, s.draw.2)

def State.beginGrun (s : State) (t seq : Nat) (c : Command) : State :=
  let r := c.grun
  let s := if r.cont then s else (s.clearRunAhead t r.stream).modStream t r.stream (fun g => { g with pos := 0 })
  let g := (s.tile t).stream r.stream
  let indexed := match g.cfg with
    | some k => k.indexed
    | none => false
  let st := if indexed then (0, s) else s.runStart g r
  let idx := if indexed then s.indexList t r.idxRow r.count else []
  let last := if indexed then (idx.getLast?).map (·.toNat) else some (st.1 + r.count - 1)
  let run : GRun := { seq := seq, count := r.count, idxRow := r.idxRow, start := st.1, idx := idx, off := 0, got := [], issued := 0, written := 0,
                      startPos := g.pos, raStopped := false }
  (st.2.modStream t r.stream (fun g => { g with run := some run, past := none, pos := g.pos + r.count, lastX := last })).modActive t 5 seq
    (fun a => { a with begun := true })

/-- GRUN: the run starts, with its index list read; REQUEST_ISSUE and RESPONSE_ARRIVAL fetch its elements. -/
def execGrun (t : TileId) (ecc : RowEcc) (s : State) : Host.Outcome State Fault Refusal :=
  let n := t.toNat
  .next (match s.geCurrent n 2 with
    | none => s
    | some a =>
      match grunFault ((s.tile n).stream a.cmd.stream).cfg a.cmd with
      | some code => s.raiseEngine n 5 code 0
      | none => s.reading n 5 a.seq ecc (fun s => s.beginGrun n a.seq a.cmd))

/-! ### Elements (R211, R213, R214) -/

/-- Element number of element p of a run. -/
def GRun.elem (r : GRun) (indexed : Bool) (p : Nat) : Nat :=
  if indexed then ((r.idx[p]?).getD 0).toNat else r.start + p

def GConfig.va (k : GConfig) (x : Nat) : Nat := k.base + 64 * k.estride * x

def GConfig.bytes (k : GConfig) : Nat := 64 * k.unit

/-- An element's row is written; the run completes with its last (R211, R212). -/
def State.writeElem (s : State) (t i p : Nat) (bs : List Byte) : State :=
  let g := (s.tile t).stream i
  match g.cfg, g.run with
  | some k, some r =>
    let s := s.setSpadRow t (k.dst + (r.startPos + p) % k.ring) (padTo 0 512 (bs.take k.bytes))
    let s := s.bump64 (dmaReg t 0x84) 1
    if r.written + 1 = r.count then (s.modStream t i (fun g => { g with run := none, past := some { r with got := [] } })).finish t 5 r.seq
    else s.modStream t i (fun g => { g with run := some { r with written := r.written + 1 } })
  | _, _ => s

/-- Marks the running run's next element as issued. -/
def GStream.issue (g : GStream) : GStream :=
  { g with run := g.run.map (fun r => { r with issued := r.issued + 1, off := 0 }) }

/-- The run that a stream runs ahead of: the running one, or the last one (R213). -/
def GStream.ahead (g : GStream) : Option GRun := if g.run.isSome then g.run else g.past

/-- Run-ahead of that run issues nothing more (R213). -/
def GStream.stopAhead (g : GStream) : GStream :=
  { g with run := g.run.map (fun r => { r with raStopped := true }), past := g.past.map (fun r => { r with raStopped := true }) }

/-- The element number of the next run-ahead element: the next ones of the stream, or list entries beyond COUNT. An entry whose row
would lie beyond row 8 191 is none, and run-ahead stops there. DESIGN CHOICE: log entry 158. -/
def State.aheadElem (s : State) (t i : Nat) : Option Nat :=
  let g := (s.tile t).stream i
  match g.cfg, g.ahead with
  | some k, some r =>
    let n := r.count + g.ra.length
    if k.indexed then
      if r.idxRow + n / 128 < 8192 then some (((s.indexList t (r.idxRow + n / 128) 128)[n % 128]?).getD 0).toNat else none
    else some (r.start + n)
  | _, _ => none

/-- The requests of an element: one, or two where it crosses a kilobyte boundary (R90). -/
def elemPieces (va len : Nat) : List (Nat × Nat) :=
  let k := 1024 - va % 1024
  if len ≤ k then [(0, len)] else [(0, k), (k, len - k)]

/-- The parts of an element that have arrived, lowest offset first. -/
def gotElem (got : Table (List Byte)) (p : Nat) : List Byte := (got.filter (fun e => e.1 / 2 ^ 20 == p)).flatMap (·.2)

/-- The row of a consumed element is written once all its bytes are there. -/
def State.tryElem (s : State) (t i p : Nat) : State :=
  let g := (s.tile t).stream i
  match g.cfg, g.run with
  | some k, some r =>
    let bs := gotElem r.got p
    if k.bytes ≤ bs.length then
      (s.modStream t i (fun g => { g with run := some { r with got := r.got.filter (fun e => e.1 / 2 ^ 20 != p) } })).writeElem t i p bs
    else s
  | _, _ => s

/-- A part of a run-ahead element, or of a consumed one, has arrived. A discarded element's data are dropped. -/
def State.gatherArrived (s : State) (t : Nat) (r : Req) : State :=
  if r.runAhead then
    s.modStream t r.stream (fun g => { g with ra := g.ra.map (fun e =>
      if e.reqs.contains r.id && !e.dropped then { e with got := Table.put [] e.got r.key r.data } else e) })
  else
    (s.modStream t r.stream (fun g => { g with run := g.run.map (fun x => { x with got := Table.put [] x.got r.key r.data }) })).tryElem
      t r.stream (r.key / 2 ^ 20)

end Sys2Proof.Machine
end

