-- ==== Sys2Proof/Machine/Requests.lean ====
section
/-!
DEFINITION. Memory requests of a tile: issue under the request slots, translation through the engine's buffer, run-ahead, and the arrival of responses (R90, R91, R175 to R177, R196, R197, R213, R214, R250).
-/

namespace Sys2Proof.Machine

/-! ### Request slots (R90, R91) -/

/-- Requests in flight of one engine of a tile. -/
def State.flying (s : State) (t q : Nat) : Nat := s.store.reqs.countP (fun r => r.tile == t && r.q == q)

def State.flyingStream (s : State) (t i : Nat) : Nat := s.store.reqs.countP (fun r => r.tile == t && r.q == 5 && r.stream == i)

/-- The reservation of the engine of queue 3, 4 or 5. -/
def State.reserved (s : State) (t q : Nat) : Nat := field (s.reg (tilReg t 0x1C)).toNat (8 * (q - 3)) 6

/-- A reserved slot of an engine is left. -/
def State.ownSlot (s : State) (t q : Nat) : Bool := decide (s.flying t q < s.reserved t q)

/-- A DMA engine has a request to issue and no reserved slot for it, so that it takes the next shared one before the engines
after it in the order of R91. -/
def State.wantsShared (s : State) (t q : Nat) : Bool :=
  !((s.tile t).engine q).frozen && !s.ownSlot t q &&
  match ((s.tile t).engine q).issuing with
  | some a => (a.need (if a.cmd.opcode = 2 && a.off != 0 then a.itemGot a.item else if a.cmd.opcode = 2 then s.storeBytes t a.cmd a.item else [])).isSome
  | none => false

/-- An engine has a slot: of the 48 one is left, and it is reserved for the engine, or shared with no engine before it in the
order DMA engine 0, DMA engine 1, GE waiting for it (R90, R91). -/
def State.slotFree (s : State) (t q : Nat) : Bool :=
  let shared := 48 - (s.reserved t 3 + s.reserved t 4 + s.reserved t 5)
  let used := (s.flying t 3 - s.reserved t 3) + (s.flying t 4 - s.reserved t 4) + (s.flying t 5 - s.reserved t 5)
  decide (s.inFlight t < 48) &&
    (s.ownSlot t q || (decide (used < shared) && [3, 4].all (fun k => !(decide (k < q) && s.wantsShared t k))))

/-- TIL_INFLIGHT keeps the highest count since polder creation (R92). -/
def State.markFlight (s : State) (t : Nat) : State :=
  let n := s.inFlight t
  let a := tilReg t 0x18
  if (s.reg a).toNat / 2 ^ 16 < n then s.setReg a (wordOf (n * 2 ^ 16)) else s

/-! ### Translation at issue (R175 to R177) -/

/-- What an engine's translation of an address answers: a target, a miss, or a fault. -/
inductive IssueXl where
  | hit (x : Target)
  | miss
  | fault (code : Nat)
  deriving DecidableEq, Repr

/-- Translates an address of a request through an engine's buffer. -/
def State.engineXl (s : State) (t q stream va len : Nat) (isWrite : Bool) : IssueXl :=
  let p := ownerCode (s.tileOwner t)
  let ofXl (x : Xl) : IssueXl :=
    match x with
    | .at_ y => .hit y
    | .fault c => .fault c
  if isWrite && (s.pld p).cat.controls va len then .fault 0x0150
  else match windowOf va with
    | none => .fault 0x0201
    | some 2 => if isWrite && q == 5 then .fault 0x0150 else ofXl (s.colTarget p va)
    | some w =>
      if s.xlCount p w ≤ pageIndex w va then .fault 0x0202
      else match tlbFind ((s.tile t).tlb q stream) w (pageIndex w va) with
        | some e => ofXl (entryTarget e.entry.toNat va isWrite)
        | none => .miss

/-- A hit makes its entry the most recently used. -/
def State.touchTlb (s : State) (t q stream va : Nat) : State :=
  match windowOf va with
  | none => s
  | some w =>
    match tlbFind ((s.tile t).tlb q stream) w (pageIndex w va) with
    | some e => s.fillTlb t q stream e
    | none => s

/-- A request takes its slot. -/
def State.addReq (s : State) (t q stream : Nat) (n : Need) (runAhead : Bool) : State :=
  let r : Req := { id := s.store.nextReq, tile := t, q := q, stream := stream, polder := ownerCode (s.tileOwner t), seq := n.seq,
                   key := n.key, va := n.va, len := n.len, isWrite := n.isWrite, merge := n.merge, runAhead := runAhead,
                   watched := n.watched, data := n.data, tgt := none, stage := .walking, stale := none, staleLine := false, die := dieOfTile t,
                   via := none, path := [], arrivedNc := 0, arrived := 0 }
  (s.modStore (fun m => { m with reqs := m.reqs ++ [r], nextReq := m.nextReq + 1 })).markFlight t

/-- A request in the host window without a signal on an external counter (R250). -/
def State.hostUnordered (s : State) (t : Nat) (n : Need) : Bool :=
  windowOf n.va == some 3 && !(n.sigEn && (s.tile t).mon.external n.sigCtr)

/-- A request to the host of a VF whose Bus Master Enable is 0 (R417). -/
def State.masterOff (s : State) (t : Nat) (n : Need) : Bool :=
  windowOf n.va == some 3 && !s.masters (ownerCode (s.tileOwner t) + 1)

/-- A consumed request issues: it takes a slot and its one translation, or faults (R176, R177). -/
def State.issueNeed (s : State) (t q stream : Nat) (n : Need) : State :=
  let id := s.store.nextReq
  let p := ownerCode (s.tileOwner t)
  let r := s.addReq t q stream n false
  if s.hostUnordered t n then (r.loseReq id).requestFault t q 0x0180 n.va
  else if s.masterOff t n then ((r.loseReq id).setReg64 (faultVaReg t q) n.va).hostError p 0x0D05 4 n.va
  else match s.engineXl t q stream n.va n.len n.isWrite with
    | .fault code => (r.loseReq id).requestFault t q code n.va
    | .hit x => (r.touchTlb t q stream n.va).route id x
    | .miss => r

/-! ### DMA engines -/

/-- The descriptor after its request, with the item's staged bytes kept while the item has more to send. -/
def Active.issued (a : Active) (n : Need) (staged : List Byte) : Active :=
  if a.cmd.opcode = 2 then
    let b := { a with got := if a.off = 0 then Table.put [] a.got (itemKey a.item 0) staged else a.got }
    let c := b.advance n.len staged.length
    if c.item = a.item then c else c.clearItem a.item
  else if a.cmd.tiles && a.off = 0 then a.advance n.len (2 ^ 20)
  else a.advance n.len ((a.itemTotal a.item).getD 0)

/-- A DMA engine issues its next request. -/
def State.issueDma (s : State) (t q : Nat) (ecc : RowEcc) : State :=
  match ((s.tile t).engine q).issuing with
  | none => s
  | some a =>
    let fresh := a.cmd.opcode == 2 && a.off == 0
    let staged := if a.cmd.opcode = 2 then (if a.off = 0 then s.storeBytes t a.cmd a.item else a.itemGot a.item) else []
    match a.need staged with
    | none => s
    | some n =>
      if !s.slotFree t q then s.waitSlot t q
      else
        let go (s : State) : State := ((s.endSlotWait t q).modActive t q a.seq (fun b => b.issued n staged)).issueNeed t q 0 n
        if fresh then (s.bumpHeld (dmaReg t (if q = 3 then 0x20 else 0x60))).reading t q a.seq ecc go else go s

/-! ### The gather engine -/

/-- One request of an element of a stream. -/
def geNeed (k : GConfig) (seq key va len : Nat) (cmd : Command) : Need :=
  { seq := seq, key := key, va := va, len := len, isWrite := false, data := [], merge := k.merge,
    watched := false, sigEn := cmd.sigEn, sigCtr := cmd.sigCtr }

/-- A consumed element of a stream waits for a request slot: the held run-ahead data do not serve it, and the stream has fewer than 16
requests in flight (R212, R214). -/
def State.wantsSlot (s : State) (t j : Nat) : Bool :=
  let g := (s.tile t).stream j
  match g.cfg, g.run with
  | some k, some r =>
    decide (r.issued < r.count) && decide (s.flyingStream t j < 16) &&
    (r.off != 0 || (match g.ra with
      | [] => true
      | e :: _ => e.dropped || e.va != k.va (r.elem k.indexed r.issued)))
  | _, _ => false

/-- A stream has a run-ahead element to issue (R213). -/
def State.wantsAhead (s : State) (t j : Nat) : Bool :=
  let g := (s.tile t).stream j
  match g.cfg, g.ahead with
  | some k, some r =>
    decide (r.count ≤ r.issued) && k.runahead && !r.raStopped && decide (g.ra.length < 16) &&
    decide (s.flyingStream t j + (((s.aheadElem t j).map k.va).map (fun a => (elemPieces a k.bytes).length)).getD 1 ≤ 16)
  | _, _ => false

/-- It is a stream's turn among those that want a slot: the GE takes slots for its streams in rotation (R212). -/
def State.geTurn (s : State) (t i : Nat) (wants : Nat → Bool) : Bool :=
  let first := (s.tile t).geNext
  (List.range ((i + 4 - first) % 4)).all (fun d => !wants ((first + d) % 4))

/-- A slot has gone to a stream, and the turn passes on. -/
def State.passTurn (s : State) (t i : Nat) : State := s.modTile t (fun x => { x with geNext := (i + 1) % 4 })

/-- The command of a run. -/
def State.runCommand (s : State) (t seq : Nat) : Command :=
  match ((s.tile t).engine 5).active.find? (fun a => a.seq == seq) with
  | some a => a.cmd
  | none => default

/-- A consumed element needs requests of its own: the next of them issues. -/
def State.issueElem (s : State) (t i : Nat) (k : GConfig) (r : GRun) (va : Nat) : State :=
  if decide (16 ≤ s.flyingStream t i) then s
  else if !s.slotFree t 5 then s.waitSlot t 5
  else if !s.geTurn t i (s.wantsSlot t) then s
  else
    let len := min (k.bytes - r.off) (1024 - (va + r.off) % 1024)
    let n := geNeed k r.seq (r.issued * 2 ^ 20 + r.off) (va + r.off) len (s.runCommand t r.seq)
    let step (g : GStream) : GStream :=
      if k.bytes ≤ r.off + len then g.issue else { g with run := g.run.map (fun x => { x with off := r.off + len }) }
    (((s.endSlotWait t 5).passTurn t i).modStream t i step).issueNeed t 5 i n

/-- Element p consumes the held run-ahead element at its address, with no new request (R214). -/
def State.consumeAhead (s : State) (t i : Nat) (r : GRun) (e : RaElem) : State :=
  let base := r.issued * 2 ^ 20
  let s := (s.bump (dmaReg t 0x90) 1).modStream t i (fun g => { g.issue with ra := g.ra.drop 1 })
  let s := s.modStream t i (fun g => { g with run := g.run.map (fun x =>
    { x with got := e.got.foldl (fun m b => Table.put [] m (base + b.1) b.2) x.got }) })
  let s := s.forEach e.reqs (fun s id => s.modReq id (fun q => { q with runAhead := false, key := base + q.key, seq := r.seq }))
  s.tryElem t i r.issued

/-- A stream issues its next consumed element. -/
def State.issueConsumed (s : State) (t i : Nat) (k : GConfig) (r : GRun) : State :=
  let va := k.va (r.elem k.indexed r.issued)
  match (if r.off = 0 then ((s.tile t).stream i).ra else []) with
  | [] => s.issueElem t i k r va
  | e :: _ =>
    if e.dropped then
      let s' := s.issueElem t i k r va
      if s'.store.nextReq = s.store.nextReq then s' else s'.modStream t i (fun g => { g with ra := g.ra.drop 1 })
    else if e.va = va then s.consumeAhead t i r e
    else (s.clearRunAhead t i).issueElem t i k r va

/-- The requests of a run-ahead element with their targets, where R213 lets it issue. -/
def State.aheadTargets (s : State) (t i va len : Nat) : Option (List (Nat × Nat × Target)) :=
  let ps := elemPieces va len
  let reserved := decide (s.flying t 5 + ps.length ≤ s.reserved t 5) && decide (s.inFlight t + ps.length ≤ 48)
  let waiting := (List.range 4).any (s.wantsSlot t)
  let xs := ps.filterMap (fun b => match s.engineXl t 5 i (va + b.1) b.2 false with
    | .hit x => if x.space = .host then none else some (b.1, b.2, x)
    | _ => none)
  if windowOf va == some 3 || !reserved || waiting || xs.length != ps.length then none else some xs

/-- A stream issues its next run-ahead element, or issues none for the rest of this run (R213). -/
def State.issueAhead (s : State) (t i : Nat) (k : GConfig) (r : GRun) : State :=
  let n := ((s.tile t).stream i).ra.length
  let va := (s.aheadElem t i).map k.va
  if !s.wantsAhead t i || !s.geTurn t i (s.wantsAhead t) then s
  else
    match va.bind (fun a => (s.aheadTargets t i a k.bytes).map (fun y => (a, y))) with
    | none => (s.bump (dmaReg t 0x98) (16 - n)).modStream t i GStream.stopAhead
    | some (va, xs) =>
      let ids := (List.range xs.length).map (fun j => s.store.nextReq + j)
      let s := (s.passTurn t i).modStream t i (fun g => { g with ra := g.ra ++ [{ va := va, reqs := ids, got := [], dropped := false }] })
      s.forEach xs (fun s y =>
        let id := s.store.nextReq
        let s := (s.addReq t 5 i (geNeed k r.seq y.1 (va + y.1) y.2.1 default) true).touchTlb t 5 i (va + y.1)
        (s.bump (dmaReg t 0x8C) 1).route id y.2.2)

/-- A gather stream issues: a consumed element while any is left, run-ahead afterwards, which the end of the run does not
stop (R213). -/
def State.issueGe (s : State) (t i : Nat) (ecc : RowEcc) : State :=
  match ((s.tile t).stream i).cfg, ((s.tile t).stream i).ahead with
  | some k, some r =>
    if r.issued < r.count then s.issueConsumed t i k r
    else if k.indexed && k.runahead then s.reading t 5 r.seq ecc (fun s => s.issueAhead t i k r)
    else s.issueAhead t i k r
  | _, _ => s

/-- REQUEST_ISSUE: a tile engine issues its next memory request. The queue names the engine, stream the gather stream. -/
def execRequestIssue (t : TileId) (q : BitVec 3) (stream : BitVec 2) (ecc : RowEcc) (s : State) :
    Host.Outcome State Fault Refusal :=
  let n := t.toNat
  .next (if !s.tileLive n || ((s.tile n).engine q.toNat).frozen then s
    else if q = 3 || q = 4 then s.issueDma n q.toNat ecc
    else if q = 5 then s.issueGe n stream.toNat ecc
    else s)

/-- RESPONSE_ARRIVAL: read data or an acknowledgement releases the request's slot and reaches its engine. A stopped or
frozen engine discards it (R197, R356). -/
def execResponseArrival (req : Nat) (s : State) : Host.Outcome State Fault Refusal :=
  .next (match s.findReq req with
    | none => s
    | some r =>
      if r.stage != .served || !r.path.isEmpty then s
      else
        let s := (s.dropReq req).settleSeams
        if !s.tileLive r.tile || ((s.tile r.tile).engine r.q).frozen then s
        else if r.q = 5 then s.gatherArrived r.tile r
        else if r.isWrite then s.storeAcked r.tile r.q r
        else s.loadArrived r.tile r.q r)

end Sys2Proof.Machine
end

