-- ==== Sys2Proof/Machine/Tap.lean ====
section
/-!
DEFINITION. The boundary-scan TAP and the open-drain outputs (R514, R516).
-/

namespace Sys2Proof.Machine

/-- FAULT_N is asserted while the part has failed and VAUX is good (R514, R515). -/
def State.faultPin (s : State) : Bool := s.board.vaux && s.boot.part == .failed

/-- THERMTRIP_N is asserted from a trip until VAUX falls (R447, R514). -/
def State.thermtripPin (s : State) : Bool := s.board.vaux && s.board.thermtrip

/-- EXTEST drives the boundary pins only while the part awaits an image (R516). -/
def State.pinsDriven (s : State) : Option (List Bool) :=
  if s.board.tapIr = .extest && s.boot.part = .awaiting then some s.board.tapDriven else none

/-- The TAP acts while VAUX is good (R514). -/
def State.tap (s : State) (f : Board → Board) : State := if s.board.vaux then s.modBoard f else s

/-- One bit through the bypass register: the bit that it held comes out (R516). -/
def Board.bypass (b : Board) (tdi : Bool) : Board := { b with tapBypass := tdi, tdo := [b.tapBypass] }

/-- BYPASS (R516). -/
def execBypass (tdi : Bool) (s : State) : Host.Outcome State Fault Refusal :=
  .next (s.tap (fun b => { b.bypass tdi with tapIr := .bypass }))

/-- The identification code (R516). -/
def tapId : Nat := 0x1A104E5D

/-- IDCODE: its 32 bits, least significant first (R516). -/
def execIdcode (s : State) : Host.Outcome State Fault Refusal :=
  .next (s.tap (fun b => { b with tapIr := .idcode, tdo := (List.range 32).map (bitAt tapId) }))

/-- The lands of the boundary-scan chain: the nine sideband signals and the two lands of each of four reference clocks (R513, R514, R516). -/
inductive Land where
  | perst | throttle | thermtrip | fault | scl | sda
  | idSel (i : Fin 3)
  | clock (i : Fin 8)
  deriving DecidableEq, Repr

/-- The lands in one order, of which the chain's own order is a free rearrangement. -/
def lands : List Land :=
  [.perst, .throttle, .thermtrip, .fault, .scl, .sda, .idSel 0, .idSel 1, .idSel 2, .clock 0, .clock 1, .clock 2, .clock 3, .clock 4, .clock 5,
   .clock 6, .clock 7]

/-- How many cells the chain has. -/
def chainLength : Nat := 17

/-- The land of a cell, counted from TDI. -/
def landAt (i : Nat) : Land := (lands[(Config.scanOrder i).val]?).getD .perst

/-- The cells of the chain. -/
def Board.cells (b : Board) : List Bool := padTo false chainLength b.tapChain

/-- The level of a land. Those of ID_SEL's straps, of I3C and of the clocks are not in the state: free values (log entry 6). -/
def State.landLevel (s : State) (l : Land) (free : Bool) : Bool :=
  match l with
  | .perst => s.board.perst
  | .throttle => !s.board.throttleLow
  | .thermtrip => !s.thermtripPin
  | .fault => !s.faultPin
  | _ => free

/-- The levels that the chain captures, from TDI on. -/
def State.captured (s : State) (w : Word) : List Bool := (List.range chainLength).map (fun i => s.landLevel (landAt i) (w.getLsbD i))

/-- SAMPLE_PRELOAD: the chain captures the levels, and bits shift in from TDI as the cells shift out to TDO; the pins keep their levels
(R516). -/
def execSamplePreload (bits : List Bool) (s : State) : Host.Outcome State Fault Refusal :=
  .next (
    if s.board.vaux then
      let w := s.draw
      let l := s.captured w.1
      w.2.modBoard (fun b => { b with
        tapIr := .sample, tapChain := (bits.reverse ++ l).take chainLength, tdo := (l.reverse ++ bits).take bits.length })
    else s)

/-- EXTEST: while the part awaits an image the pins take the cells and one bit is shifted through the chain; otherwise it
is BYPASS (R516). -/
def execExtest (tdi : Bool) (s : State) : Host.Outcome State Fault Refusal :=
  .next (
    if s.boot.part = .awaiting then
      s.tap (fun b => { b with
        tapIr := .extest, tapDriven := b.cells, tapChain := (tdi :: b.cells).take chainLength, tdo := b.cells.getLast?.toList })
    else s.tap (fun b => { b.bypass tdi with tapIr := .extest }))

end Sys2Proof.Machine
end

