-- ==== Sys2Proof/Machine/Dispatch.lean ====
section
/-!
DEFINITION. The dispatch: one arm for each command.
-/

namespace Sys2Proof.Machine

def exec (i : Instr) (s : State) : Host.Outcome State Fault Refusal :=
  match i with
  | .alu t g rd ra rb func => Sys2Proof.Machine.execAlu t g rd ra rb func s
  | .addi t g rd ra imm => Sys2Proof.Machine.execAddi t g rd ra imm s
  | .andi t g rd ra imm => Sys2Proof.Machine.execAndi t g rd ra imm s
  | .ori t g rd ra imm => Sys2Proof.Machine.execOri t g rd ra imm s
  | .xori t g rd ra imm => Sys2Proof.Machine.execXori t g rd ra imm s
  | .shi t g rd ra imm => Sys2Proof.Machine.execShi t g rd ra imm s
  | .movi t g rd imm => Sys2Proof.Machine.execMovi t g rd imm s
  | .lui t g rd imm => Sys2Proof.Machine.execLui t g rd imm s
  | .ldw t g rd ra imm => Sys2Proof.Machine.execLdw t g rd ra imm s
  | .stw t g rd ra imm => Sys2Proof.Machine.execStw t g rd ra imm s
  | .cmp t g pd ra rb cond => Sys2Proof.Machine.execCmp t g pd ra rb cond s
  | .plog t g pd pa pb func => Sys2Proof.Machine.execPlog t g pd pa pb func s
  | .br t g off => Sys2Proof.Machine.execBr t g off s
  | .call t g off => Sys2Proof.Machine.execCall t g off s
  | .jr t g ra => Sys2Proof.Machine.execJr t g ra s
  | .cmd t g q ra => Sys2Proof.Machine.execCmd t g q ra s
  | .waitev t g ra imm => Sys2Proof.Machine.execWaitev t g ra imm s
  | .sigev t g ra imm => Sys2Proof.Machine.execSigev t g ra imm s
  | .fence t g imm => Sys2Proof.Machine.execFence t g imm s
  | .spxr t g ra imm granted ecc => Sys2Proof.Machine.execSpxr t g ra imm granted ecc s
  | .spxw t g ra imm granted => Sys2Proof.Machine.execSpxw t g ra imm granted s
  | .rdcsr t g rd imm => Sys2Proof.Machine.execRdcsr t g rd imm s
  | .halt t g => Sys2Proof.Machine.execHalt t g s
  | .stallEnd t => Sys2Proof.Machine.execStallEnd t s
  | .tccDone t => Sys2Proof.Machine.execTccDone t s
  | .waitGrant t => Sys2Proof.Machine.execWaitGrant t s
  | .commandCompletion t q => Sys2Proof.Machine.execCommandCompletion t q s
  | .signal t => Sys2Proof.Machine.execSignal t s
  | .mark t => Sys2Proof.Machine.execMark t s
  | .signalArrival t => Sys2Proof.Machine.execSignalArrival t s
  | .maLoad t ecc => Sys2Proof.Machine.execMaLoad t ecc s
  | .swap t => Sys2Proof.Machine.execSwap t s
  | .pass t ecc => Sys2Proof.Machine.execPass t ecc s
  | .setmode t => Sys2Proof.Machine.execSetmode t s
  | .setout t => Sys2Proof.Machine.execSetout t s
  | .arrayGate t => Sys2Proof.Machine.execArrayGate t s
  | .bspass t ecc => Sys2Proof.Machine.execBspass t ecc s
  | .bssetmode t => Sys2Proof.Machine.execBssetmode t s
  | .bssetout t => Sys2Proof.Machine.execBssetout t s
  | .vprog t ecc => Sys2Proof.Machine.execVprog t ecc s
  | .vstrm t => Sys2Proof.Machine.execVstrm t s
  | .vsetout t => Sys2Proof.Machine.execVsetout t s
  | .vrun t ecc => Sys2Proof.Machine.execVrun t ecc s
  | .vcomb t ecc => Sys2Proof.Machine.execVcomb t ecc s
  | .vflush t => Sys2Proof.Machine.execVflush t s
  | .dmaLoad t e => Sys2Proof.Machine.execDmaLoad t e s
  | .dmaStore t e => Sys2Proof.Machine.execDmaStore t e s
  | .gstream t => Sys2Proof.Machine.execGstream t s
  | .grun t ecc => Sys2Proof.Machine.execGrun t ecc s
  | .requestIssue t q stream ecc => Sys2Proof.Machine.execRequestIssue t q stream ecc s
  | .tableWalk req ecc => Sys2Proof.Machine.execTableWalk req ecc s
  | .memoryAccess req ecc => Sys2Proof.Machine.execMemoryAccess req ecc s
  | .mergeWindowClose die bank row => Sys2Proof.Machine.execMergeWindowClose die bank row s
  | .responseArrival req => Sys2Proof.Machine.execResponseArrival req s
  | .accumulateWrite req ecc => Sys2Proof.Machine.execAccumulateWrite req ecc s
  | .seepageWindowClose u => Sys2Proof.Machine.execSeepageWindowClose u s
  | .translationEditComplete p => Sys2Proof.Machine.execTranslationEditComplete p s
  | .seamCrcError seam dir => Sys2Proof.Machine.execSeamCrcError seam dir s
  | .seamLaneLoss seam dir lane => Sys2Proof.Machine.execSeamLaneLoss seam dir lane s
  | .seamTraining seam ok => Sys2Proof.Machine.execSeamTraining seam ok s
  | .memoryControllerFailure depot n => Sys2Proof.Machine.execMemoryControllerFailure depot n s
  | .heartbeatTimeout lostS1 => Sys2Proof.Machine.execHeartbeatTimeout lostS1 s
  | .create c => Sys2Proof.Machine.execCreate c s
  | .catalogueVerification p rd => Sys2Proof.Machine.execCatalogueVerification p rd s
  | .retire c => Sys2Proof.Machine.execRetire c s
  | .teardown c => Sys2Proof.Machine.execTeardown c s
  | .clientClear c => Sys2Proof.Machine.execClientClear c s
  | .faultCause k => Sys2Proof.Machine.execFaultCause k s
  | .clearing p => Sys2Proof.Machine.execClearing p s
  | .jobCompletion p => Sys2Proof.Machine.execJobCompletion p s
  | .watchdogExpiry e p => Sys2Proof.Machine.execWatchdogExpiry e p s
  | .sharedDescriptorStart e p ecc => Sys2Proof.Machine.execSharedDescriptorStart e p ecc s
  | .hostCompletion req st => Sys2Proof.Machine.execHostCompletion req st s
  | .completionTimeout req => Sys2Proof.Machine.execCompletionTimeout req s
  | .submissionEntry p => Sys2Proof.Machine.execSubmissionEntry p s
  | .slotStart p => Sys2Proof.Machine.execSlotStart p s
  | .checkpointDeadline t => Sys2Proof.Machine.execCheckpointDeadline t s
  | .ledgerEntry k => Sys2Proof.Machine.execLedgerEntry k s
  | .nonFiniteEvent k => Sys2Proof.Machine.execNonFiniteEvent k s
  | .openMsg via m group epoch => Sys2Proof.Machine.execOpenMsg via m group epoch s
  | .dataMsg via m ecc => Sys2Proof.Machine.execDataMsg via m ecc s
  | .doneMsg via m group epoch count => Sys2Proof.Machine.execDoneMsg via m group epoch count s
  | .sealSlice p group tensor => Sys2Proof.Machine.execSealSlice p group tensor s
  | .token via m => Sys2Proof.Machine.execToken via m s
  | .final via m => Sys2Proof.Machine.execFinal via m s
  | .stepVerdict p => Sys2Proof.Machine.execStepVerdict p s
  | .conservatorDescriptorStart n p => Sys2Proof.Machine.execConservatorDescriptorStart n p s
  | .conservatorDescriptorDone n ecc => Sys2Proof.Machine.execConservatorDescriptorDone n ecc s
  | .stepCommit p => Sys2Proof.Machine.execStepCommit p s
  | .intake p rd => Sys2Proof.Machine.execIntake p rd s
  | .stepBoundary p => Sys2Proof.Machine.execStepBoundary p s
  | .pageMoveComplete p => Sys2Proof.Machine.execPageMoveComplete p s
  | .tableRowCopy p slot => Sys2Proof.Machine.execTableRowCopy p slot s
  | .jobStart c rd => Sys2Proof.Machine.execJobStart c rd s
  | .rowWave p die => Sys2Proof.Machine.execRowWave p die s
  | .hostReg c rd => Sys2Proof.Machine.execHostReg c rd s
  | .hostRel c => Sys2Proof.Machine.execHostRel c s
  | .catPolicy c => Sys2Proof.Machine.execCatPolicy c s
  | .keyAdd c => Sys2Proof.Machine.execKeyAdd c s
  | .keyRemove c => Sys2Proof.Machine.execKeyRemove c s
  | .restart c => Sys2Proof.Machine.execRestart c s
  | .shutdown c => Sys2Proof.Machine.execShutdown c s
  | .svnCommit c => Sys2Proof.Machine.execSvnCommit c s
  | .attest c => Sys2Proof.Machine.execAttest c s
  | .reportRead c => Sys2Proof.Machine.execReportRead c s
  | .certRead c => Sys2Proof.Machine.execCertRead c s
  | .refurb c rd => Sys2Proof.Machine.execRefurb c rd s
  | .mbxDb r c value => Sys2Proof.Machine.execMbxDb r c value s
  | .mailboxBufferWrite r c off value => Sys2Proof.Machine.execMailboxBufferWrite r c off value s
  | .release r c value => Sys2Proof.Machine.execRelease r c value s
  | .mailboxAck c => Sys2Proof.Machine.execMailboxAck c s
  | .i3cRequest head seq body => Sys2Proof.Machine.execI3cRequest head seq body s
  | .spdmRequest r => Sys2Proof.Machine.execSpdmRequest r s
  | .vfSqTail p value => Sys2Proof.Machine.execVfSqTail p value s
  | .vfCqHead p value => Sys2Proof.Machine.execVfCqHead p value s
  | .vfQueueConfigWrite p off value => Sys2Proof.Machine.execVfQueueConfigWrite p off value s
  | .pciFrHead value => Sys2Proof.Machine.execPciFrHead value s
  | .vfEnable on numVfs => Sys2Proof.Machine.execVfEnable on numVfs s
  | .vfFlr p => Sys2Proof.Machine.execVfFlr p s
  | .pf0Flr => Sys2Proof.Machine.execPf0Flr s
  | .pcieLinkDown => Sys2Proof.Machine.execPcieLinkDown s
  | .perstN level => Sys2Proof.Machine.execPerstN level s
  | .stgBegin => Sys2Proof.Machine.execStgBegin s
  | .stgChunk len data => Sys2Proof.Machine.execStgChunk len data s
  | .stgCommit => Sys2Proof.Machine.execStgCommit s
  | .imageVerification => Sys2Proof.Machine.execImageVerification s
  | .bringUp e => Sys2Proof.Machine.execBringUp e s
  | .crossCheck intact => Sys2Proof.Machine.execCrossCheck intact s
  | .coldStart start => Sys2Proof.Machine.execColdStart start s
  | .vinGood => Sys2Proof.Machine.execVinGood s
  | .vinLoss => Sys2Proof.Machine.execVinLoss s
  | .vauxLoss => Sys2Proof.Machine.execVauxLoss s
  | .vinUndervoltage => Sys2Proof.Machine.execVinUndervoltage s
  | .undervoltageEnd => Sys2Proof.Machine.execUndervoltageEnd s
  | .sysclkLoss => Sys2Proof.Machine.execSysclkLoss s
  | .throttleNEdge level => Sys2Proof.Machine.execThrottleNEdge level s
  | .throttleAccept => Sys2Proof.Machine.execThrottleAccept s
  | .throttleRelease => Sys2Proof.Machine.execThrottleRelease s
  | .throttleStable => Sys2Proof.Machine.execThrottleStable s
  | .throttleHeldReport => Sys2Proof.Machine.execThrottleHeldReport s
  | .powerWindow die mw => Sys2Proof.Machine.execPowerWindow die mw s
  | .thermalEvaluation die hot shoreHot stackHot => Sys2Proof.Machine.execThermalEvaluation die hot shoreHot stackHot s
  | .thermtrip die hot => Sys2Proof.Machine.execThermtrip die hot s
  | .regulatorFault die lost => Sys2Proof.Machine.execRegulatorFault die lost s
  | .acStepUp die => Sys2Proof.Machine.execAcStepUp die s
  | .prtCtl n value => Sys2Proof.Machine.execPrtCtl n value s
  | .portTraining n lanes => Sys2Proof.Machine.execPortTraining n lanes s
  | .ident n peer peerPort => Sys2Proof.Machine.execIdent n peer peerPort s
  | .identTimeout n => Sys2Proof.Machine.execIdentTimeout n s
  | .portRetry n => Sys2Proof.Machine.execPortRetry n s
  | .linkSignalLoss n lane => Sys2Proof.Machine.execLinkSignalLoss n lane s
  | .linkFlitCrcError n => Sys2Proof.Machine.execLinkFlitCrcError n s
  | .linkNak n ack => Sys2Proof.Machine.execLinkNak n ack s
  | .linkAckTimeout n => Sys2Proof.Machine.execLinkAckTimeout n s
  | .resendTimeout n peer => Sys2Proof.Machine.execResendTimeout n peer s
  | .pfcPause n pcp => Sys2Proof.Machine.execPfcPause n pcp s
  | .write n m => Sys2Proof.Machine.execWrite n m s
  | .credit n m grant => Sys2Proof.Machine.execCredit n m grant s
  | .ack n m => Sys2Proof.Machine.execAck n m s
  | .alarm n ring origin number => Sys2Proof.Machine.execAlarm n ring origin number s
  | .sendDescriptor n p => Sys2Proof.Machine.execSendDescriptor n p s
  | .spareSubstitution u ok => Sys2Proof.Machine.execSpareSubstitution u ok s
  | .partWideMaintenance f => Sys2Proof.Machine.execPartWideMaintenance f s
  | .usageInterval => Sys2Proof.Machine.execUsageInterval s
  | .bypass tdi => Sys2Proof.Machine.execBypass tdi s
  | .idcode => Sys2Proof.Machine.execIdcode s
  | .samplePreload bits => Sys2Proof.Machine.execSamplePreload bits s
  | .extest tdi => Sys2Proof.Machine.execExtest tdi s
  | .tilCtlStart t => Sys2Proof.Machine.execTilCtlStart t s
  | .tilCtlStep t => Sys2Proof.Machine.execTilCtlStep t s
  | .freeze page on => Sys2Proof.Machine.execFreeze page on s
  | .blkCtlReset page => Sys2Proof.Machine.execBlkCtlReset page s
  | .blkIrqStsClear page bits => Sys2Proof.Machine.execBlkIrqStsClear page bits s
  | .blkIrqForce page bits => Sys2Proof.Machine.execBlkIrqForce page bits s
  | .pldWdLimit p value => Sys2Proof.Machine.execPldWdLimit p value s
  | .pwrCap value => Sys2Proof.Machine.execPwrCap value s
  | .readClear r addr => Sys2Proof.Machine.execReadClear r addr s
  | .lowWordRead r addr => Sys2Proof.Machine.execLowWordRead r addr s
  | .registerWrite r addr size value => Sys2Proof.Machine.execRegisterWrite r addr size value s
  | .heartbeat fromS1 => Sys2Proof.Machine.execHeartbeat fromS1 s
  | .nullFlit n ack vc cls count => Sys2Proof.Machine.execNullFlit n ack vc cls count s
  | .pfcPauseEnd n pcp => Sys2Proof.Machine.execPfcPauseEnd n pcp s
  | .lanePllLock n => Sys2Proof.Machine.execLanePllLock n s
  | .lrefclkLoss s1 => Sys2Proof.Machine.execLrefclkLoss s1 s

end Sys2Proof.Machine
end

