-- ==== Sys2Proof/Safety.lean ====
section
/-!
DEFINITION. What claims about runs speak of: a step that completes, states in canonical form, and what no step may undo.
-/

namespace Sys2Proof.Machine

/-- A step completes: it answers a next state. -/
def Completes (o : Host.Outcome State Fault Refusal) : Prop := ∃ t, o = .next t

/-- The keys of a table rise strictly. -/
def Table.Sorted (t : Table α) : Prop := t.Pairwise (fun a b => a.1 < b.1)

/-- The requests in flight have numbers of their own, all below the next one, and belong to tiles and polders of the part (31
stands for none). -/
def Numbered (l : List Req) (next : Nat) : Prop :=
  l.Pairwise (fun a b => a.id ≠ b.id) ∧ ∀ r ∈ l, r.id < next ∧ r.tile < 256 ∧ r.polder < 32

/-- Every memory of the part and the host is in canonical form, and the requests in flight are numbered apart. -/
def Store.Wf (m : Store) : Prop :=
  m.hbm.wf = true ∧ m.depot.wf = true ∧ m.col.wf = true ∧ m.spad.wf = true ∧ m.dstore.wf = true ∧ m.istore.wf = true ∧
  m.host.wf = true ∧ Numbered m.reqs m.nextReq

/-- The tables of a TCC and of a tile that its registers, counters, engines, accumulators and streams are looked up in. -/
def Tcc.Wf (x : Tcc) : Prop := Table.Sorted x.sregs ∧ Table.Sorted x.pregs ∧ Table.Sorted x.bht

def Tile.Wf (x : Tile) : Prop :=
  x.tcc.Wf ∧ Table.Sorted x.ctrs ∧ Table.Sorted x.engines ∧ Table.Sorted x.ma.acc ∧ Table.Sorted x.bse.acc ∧ Table.Sorted x.vu.cacc ∧
  Table.Sorted x.ge

/-- The form that every state of a run has: memories canonical, requests numbered apart, and the keys of every indexed family
of units rising. -/
structure State.Wf (s : State) : Prop where
  store : s.store.Wf
  time : Table.Sorted s.time
  regs : Table.Sorted s.regs
  vfRegs : Table.Sorted s.vfRegs
  latches : Table.Sorted s.latches
  heldLow : Table.Sorted s.heldLow
  tiles : Table.Sorted s.tiles
  tile : ∀ t, (s.tile t).Wf
  polders : Table.Sorted s.polders
  clients : Table.Sorted s.clients
  conservators : Table.Sorted s.conservators
  channels : Table.Sorted s.channels
  buffers : ∀ c, Table.Sorted (s.chan c).buf
  seams : Table.Sorted s.seams
  power : Table.Sorted s.power
  ports : Table.Sorted s.links.ports
  slots : Table.Sorted s.links.slots

/-- A state in which a run has kept what no step may undo: its form, a queue of waiting commands, a number of VFs of at
most 16 (R405), a fused minimum version that has not fallen below a value (R462), and a provenance record that still begins
with a list of entries (R483). -/
structure State.Keeps (queue : List Instr) (svn : Nat) (record : List Entry) (s : State) : Prop where
  wf : s.Wf
  pending : s.pending = queue
  vfs : s.hif.numVfs ≤ 16
  svn : svn ≤ s.boot.svnMin
  record : record <+: s.journal.entries

/-! ### What claims about the tile control core say -/

/-- The command that a TCC instruction of a tile is; SPXR and SPXW carry the scratchpad's answer. -/
def TccOp.command (op : TccOp) (t : TileId) (g : Guard) (granted : Bool) (ecc : RowEcc) : Instr :=
  match op with
  | .alu rd ra rb func => .alu t g rd ra rb func
  | .addi rd ra imm => .addi t g rd ra imm
  | .andi rd ra imm => .andi t g rd ra imm
  | .ori rd ra imm => .ori t g rd ra imm
  | .xori rd ra imm => .xori t g rd ra imm
  | .shi rd ra imm => .shi t g rd ra imm
  | .movi rd imm => .movi t g rd imm
  | .lui rd imm => .lui t g rd imm
  | .ldw rd ra imm => .ldw t g rd ra imm
  | .stw rd ra imm => .stw t g rd ra imm
  | .cmp pd ra rb cond => .cmp t g pd ra rb cond
  | .plog pd pa pb func => .plog t g pd pa pb func
  | .br off => .br t g off
  | .call off => .call t g off
  | .jr ra => .jr t g ra
  | .cmd q ra => .cmd t g q ra
  | .waitev ra imm => .waitev t g ra imm
  | .sigev ra imm => .sigev t g ra imm
  | .fence imm => .fence t g imm
  | .spxr ra imm => .spxr t g ra imm granted ecc
  | .spxw ra imm => .spxw t g ra imm granted
  | .rdcsr rd imm => .rdcsr t g rd imm
  | .halt => .halt t g

/-- The core of tile n runs, stands at the instruction, and its guard reads 1, in a state of the right form (R77, R82). -/
structure State.Issues (s : State) (n : Nat) (g : Guard) (op : TccOp) : Prop where
  wf : s.Wf
  ready : s.tccReady n g op = true
  guard : (s.tile n).tcc.guard g = true

/-- u is s after an instruction of tile n has retired and left its core as x: the count of retired instructions is one
higher, and nothing else has changed (R77, R92). -/
structure State.Retired (s : State) (n : Nat) (x : Tcc) (u : State) : Prop where
  tile : u.tile n = { s.tile n with tcc := x }
  others : ∀ k, k ≠ n → u.tile k = s.tile k
  count : u.reg64 (tilReg n 0x40) = (s.reg64 (tilReg n 0x40) + 1) % 2 ^ 64
  regs : ∀ a, a ≠ tilReg n 0x40 → a ≠ tilReg n 0x44 → u.reg a = s.reg a
  rest : { u with tiles := s.tiles, regs := s.regs } = s

/-! ### What claims about engine commands say -/

/-- The command of a number on queue q is finished and waits for its completion (R68, R197). -/
def Tile.finish (x : Tile) (q seq : Nat) : Tile :=
  x.modEngine q (fun e => e.modActive seq (fun a => { a with finished := true }))

/-- u is s after the engine of queue q on tile n has carried out the active command a, which leaves the tile as x before it
is marked finished: beside the tile, only the listed registers may differ. -/
structure State.Ran (s : State) (n q : Nat) (a : Active) (x : Tile) (own : List Nat) (u : State) : Prop where
  tile : u.tile n = x.finish q a.seq
  others : ∀ k, k ≠ n → u.tile k = s.tile k
  regs : ∀ b, b ∉ own → u.reg b = s.reg b
  rest : { u with tiles := s.tiles, regs := s.regs } = s

/-- The registers that a corrected scratchpad row of a tile writes: TIL_SP_CE and TIL_SP_CE_ADDR (R89, R92). -/
def correctedRegs (n : Nat) : List Nat := [tilReg n 0x58, tilReg n 0x5C, tilReg n 0x60]

/-! ### Parts of the state, and what a command may change -/

/-- What a command may change, by part: cycle counters; VF control registers; tiles; the HBM, depot and collection bytes;
scratchpads; data stores; instruction stores; host memory; translation tables; frames' owners; seams; polders; clients;
conservators; mailbox channels; SR-IOV, link, interrupt and policy settings of the host interface; links; power of the dies; pins and
supplies; STATE and its cause; measurement registers; images, boot progress and SVNs; the provenance record; spares. -/
inductive Part where
  | time | vfRegs | tiles | memory | spad | dstore | istore | host | translation | frames | seams | polders
  | clients | conservators | channels | policy | links | power | board | status | measurements | firmware | journal | spares
  deriving DecidableEq, Repr

def HostIf.samePolicy (y x : HostIf) : Prop :=
  y.vfEnable = x.vfEnable ∧ y.numVfs = x.numVfs ∧ y.linkUp = x.linkUp ∧ y.pcie = x.pcie ∧ y.masters = x.masters ∧ y.table = x.table ∧
  y.secure = x.secure ∧ y.bound = x.bound ∧ y.session = x.session ∧ y.requireSig = x.requireSig ∧ y.lock = x.lock ∧ y.keys = x.keys

def Boot.sameStatus (y x : Boot) : Prop :=
  y.part = x.part ∧ y.cause = x.cause ∧ y.failRank = x.failRank ∧ y.failCc = x.failCc ∧ y.dieUp = x.dieUp

def Boot.sameMeasurements (y x : Boot) : Prop :=
  y.mr0 = x.mr0 ∧ y.mr1 = x.mr1 ∧ y.mr2 = x.mr2 ∧ y.mr3 = x.mr3 ∧ y.mr4 = x.mr4

def Boot.sameFirmware (y x : Boot) : Prop :=
  y.boot = x.boot ∧ y.stage = x.stage ∧ y.warm = x.warm ∧ y.stg = x.stg ∧ y.reason = x.reason ∧
  y.lastReason = x.lastReason ∧ y.offset = x.offset ∧ y.bank = x.bank ∧ y.active = x.active ∧
  y.otherVerified = x.otherVerified ∧ y.image0 = x.image0 ∧ y.image1 = x.image1 ∧ y.copied = x.copied ∧
  y.xDone = x.xDone ∧ y.xMatch = x.xMatch ∧ y.xDigest = x.xDigest ∧ y.svnMin = x.svnMin ∧ y.svnRun = x.svnRun ∧
  y.restarts = x.restarts ∧ y.starts = x.starts ∧ y.mboxOn = x.mboxOn ∧ y.s0On = x.s0On ∧ y.beat0 = x.beat0 ∧
  y.beat1 = x.beat1 ∧ y.s0Lost = x.s0Lost ∧ y.trained = x.trained ∧ y.memories = x.memories ∧ y.untrained = x.untrained ∧
  y.maint = x.maint ∧ y.broken = x.broken ∧ y.start0 = x.start0 ∧ y.start2 = x.start2 ∧ y.stgData = x.stgData

/-- A part is the same in two states. -/
def Part.same (t s : State) : Part → Prop
  | .time => t.time = s.time
  | .vfRegs => t.vfRegs = s.vfRegs
  | .tiles => t.tiles = s.tiles
  | .memory => t.store.hbm = s.store.hbm ∧ t.store.depot = s.store.depot ∧ t.store.col = s.store.col
  | .spad => t.store.spad = s.store.spad
  | .dstore => t.store.dstore = s.store.dstore
  | .istore => t.store.istore = s.store.istore
  | .host => t.store.host = s.store.host
  | .translation => t.store.tabD0 = s.store.tabD0 ∧ t.store.tabD4 = s.store.tabD4
  | .frames => t.store.frames = s.store.frames ∧ t.store.retired = s.store.retired ∧ t.store.accFrames = s.store.accFrames
  | .seams => t.seams = s.seams
  | .polders => t.polders = s.polders
  | .clients => t.clients = s.clients
  | .conservators => t.conservators = s.conservators
  | .channels => t.channels = s.channels
  | .policy => HostIf.samePolicy t.hif s.hif
  | .links => t.links = s.links
  | .power => t.power = s.power
  | .board => t.board = s.board
  | .status => Boot.sameStatus t.boot s.boot
  | .measurements => Boot.sameMeasurements t.boot s.boot
  | .firmware => Boot.sameFirmware t.boot s.boot
  | .journal => t.journal = s.journal
  | .spares => t.spares = s.spares

/-- What each command may change: a part that its list leaves out is as before, whatever the command's operands. -/
def touches : Instr → List Part
  | .alu _ _ _ _ _ _ => [.tiles]
  | .addi _ _ _ _ _ => [.tiles]
  | .andi _ _ _ _ _ => [.tiles]
  | .ori _ _ _ _ _ => [.tiles]
  | .xori _ _ _ _ _ => [.tiles]
  | .shi _ _ _ _ _ => [.tiles]
  | .movi _ _ _ _ => [.tiles]
  | .lui _ _ _ _ => [.tiles]
  | .ldw _ _ _ _ _ => [.tiles]
  | .stw _ _ _ _ _ => [.tiles, .dstore]
  | .cmp _ _ _ _ _ _ => [.tiles]
  | .plog _ _ _ _ _ _ => [.tiles]
  | .br _ _ _ => [.tiles]
  | .call _ _ _ => [.tiles]
  | .jr _ _ _ => [.tiles]
  | .cmd _ _ _ _ => [.tiles]
  | .waitev _ _ _ _ => [.tiles]
  | .sigev _ _ _ _ => [.tiles, .polders]
  | .fence _ _ _ => [.tiles]
  | .spxr _ _ _ _ _ _ => [.tiles, .dstore, .spares]
  | .spxw _ _ _ _ _ => [.tiles, .spad]
  | .rdcsr _ _ _ _ => [.tiles]
  | .halt _ _ => [.tiles]
  | .stallEnd _ => [.tiles]
  | .tccDone _ => [.tiles]
  | .waitGrant _ => [.tiles, .polders]
  | .commandCompletion _ _ => [.tiles, .polders]
  | .signal _ => [.tiles, .seams]
  | .mark _ => [.tiles]
  | .signalArrival _ => [.tiles, .polders]
  | .maLoad _ _ => [.tiles, .spares]
  | .swap _ => [.tiles, .spares]
  | .pass _ _ => [.tiles, .spad, .spares]
  | .setmode _ => [.tiles]
  | .setout _ => [.tiles]
  | .arrayGate _ => [.tiles]
  | .bspass _ _ => [.tiles, .spad, .spares]
  | .bssetmode _ => [.tiles]
  | .bssetout _ => [.tiles]
  | .vprog _ _ => [.tiles, .spares]
  | .vstrm _ => [.tiles]
  | .vsetout _ => [.tiles]
  | .vrun _ _ => [.tiles, .spad, .spares]
  | .vcomb _ _ => [.tiles, .spad, .spares]
  | .vflush _ => [.tiles, .spad]
  | .dmaLoad _ _ => [.tiles, .spad]
  | .dmaStore _ _ => [.tiles, .spad]
  | .gstream _ => [.tiles]
  | .grun _ _ => [.tiles, .spares]
  | .requestIssue _ _ _ _ => [.tiles, .spad, .spares]
  | .tableWalk _ _ => [.tiles, .seams]
  | .memoryAccess _ _ => [.tiles, .memory, .host, .frames, .seams, .conservators, .links, .journal, .spares]
  | .mergeWindowClose _ _ _ => [.seams]
  | .responseArrival _ => [.tiles, .spad, .seams]
  | .accumulateWrite _ _ => [.tiles, .memory, .host, .frames, .seams, .conservators, .links, .journal, .spares]
  | .seepageWindowClose _ => [.journal]
  | .translationEditComplete _ => [.polders, .channels]
  | .seamCrcError _ _ => [.seams, .polders, .clients, .conservators, .channels, .links, .status, .journal]
  | .seamLaneLoss _ _ _ => [.seams, .polders, .clients, .conservators, .channels, .links, .status, .journal]
  | .seamTraining _ _ => [.seams, .polders, .clients, .conservators, .channels, .links, .status, .journal]
  | .memoryControllerFailure _ _ => [.polders, .clients, .conservators, .channels, .links, .status, .journal]
  | .heartbeatTimeout _ => [.seams, .polders, .clients, .conservators, .channels, .policy, .links, .status, .firmware, .journal]
  | .create _ => [.polders, .clients, .channels]
  | .catalogueVerification _ _ => [.tiles, .memory, .dstore, .istore, .host, .translation, .frames, .seams, .polders, .clients, .channels, .links, .power, .journal]
  | .retire _ => [.polders, .conservators, .channels, .links]
  | .teardown _ => [.vfRegs, .host, .polders, .clients, .conservators, .channels, .links, .journal]
  | .clientClear _ => [.clients, .channels]
  | .faultCause _ => [.seams, .polders, .conservators, .channels, .links]
  | .clearing _ => [.vfRegs, .tiles, .memory, .spad, .dstore, .istore, .host, .translation, .frames, .seams, .polders, .clients, .conservators, .channels, .policy, .links, .power, .journal]
  | .jobCompletion _ => [.vfRegs, .host, .polders, .clients, .conservators, .channels, .links, .journal]
  | .watchdogExpiry _ _ => [.tiles, .conservators, .links]
  | .sharedDescriptorStart _ _ _ => [.tiles, .memory, .host, .frames, .seams, .polders, .conservators, .links, .journal, .spares]
  | .hostCompletion _ _ => [.tiles, .memory, .host, .polders, .conservators, .links]
  | .completionTimeout _ => [.polders, .links]
  | .submissionEntry _ => [.vfRegs, .host, .polders]
  | .slotStart _ => [.vfRegs, .tiles, .dstore, .host, .frames, .seams, .polders, .journal, .spares]
  | .checkpointDeadline _ => [.tiles]
  | .ledgerEntry _ => [.seams, .polders]
  | .nonFiniteEvent _ => [.vfRegs, .host, .seams, .polders]
  | .openMsg _ _ _ _ => [.tiles, .memory, .host, .seams, .polders, .conservators, .links]
  | .dataMsg _ _ _ => [.tiles, .memory, .host, .frames, .seams, .polders, .conservators, .links, .journal, .spares]
  | .doneMsg _ _ _ _ _ => [.tiles, .memory, .host, .seams, .polders, .conservators, .links]
  | .sealSlice _ _ _ => [.tiles, .memory, .host, .frames, .seams, .polders, .conservators, .links, .journal, .spares]
  | .token _ _ => [.tiles, .memory, .host, .seams, .polders, .conservators, .links]
  | .final _ _ => [.tiles, .memory, .host, .seams, .polders, .conservators, .links]
  | .stepVerdict _ => [.polders, .conservators, .links]
  | .conservatorDescriptorStart _ _ => [.tiles, .memory, .host, .frames, .seams, .conservators, .links, .journal, .spares]
  | .conservatorDescriptorDone _ _ => [.tiles, .memory, .host, .seams, .conservators, .links]
  | .stepCommit _ => [.vfRegs, .tiles, .memory, .host, .seams, .polders, .conservators, .links]
  | .intake _ _ => [.vfRegs, .tiles, .memory, .host, .polders, .conservators, .links]
  | .stepBoundary _ => [.vfRegs, .tiles, .memory, .host, .frames, .seams, .polders, .conservators, .links, .journal, .spares]
  | .pageMoveComplete _ => [.tiles, .memory, .host, .frames, .seams, .polders, .conservators, .links, .journal, .spares]
  | .tableRowCopy _ _ => [.tiles, .memory, .host, .frames, .polders, .conservators, .links, .journal, .spares]
  | .jobStart _ _ => [.vfRegs, .tiles, .memory, .host, .frames, .seams, .polders, .clients, .conservators, .channels, .links, .journal, .spares]
  | .rowWave _ _ => [.tiles, .seams, .polders]
  | .hostReg _ _ => [.tiles, .translation, .seams, .polders, .channels]
  | .hostRel _ => [.tiles, .translation, .seams, .polders, .channels]
  | .catPolicy _ => [.channels, .policy, .measurements]
  | .keyAdd _ => [.channels, .policy, .measurements]
  | .keyRemove _ => [.channels, .policy, .measurements]
  | .restart _ => [.polders, .channels, .status, .measurements, .firmware]
  | .shutdown _ => [.time, .tiles, .seams, .polders, .conservators, .channels, .links, .power, .status, .firmware, .journal]
  | .svnCommit _ => [.channels, .firmware, .journal]
  | .attest _ => [.channels]
  | .reportRead _ => [.channels]
  | .certRead _ => [.channels]
  | .refurb _ _ => [.channels, .power, .journal]
  | .mbxDb _ _ _ => [.channels]
  | .mailboxBufferWrite _ _ _ _ => [.channels]
  | .release _ _ _ => [.channels]
  | .mailboxAck _ => [.channels]
  | .i3cRequest _ _ _ => [.channels]
  | .spdmRequest _ => [.policy]
  | .vfSqTail _ _ => [.vfRegs, .tiles, .conservators, .links]
  | .vfCqHead _ _ => [.vfRegs, .tiles, .host, .polders, .conservators, .links]
  | .vfQueueConfigWrite _ _ _ => [.vfRegs, .tiles, .conservators, .links]
  | .pciFrHead _ => []
  | .vfEnable _ _ => [.vfRegs, .polders, .clients, .conservators, .channels, .policy, .links]
  | .vfFlr _ => [.vfRegs, .polders, .clients, .conservators, .channels, .policy, .links]
  | .pf0Flr => [.vfRegs, .polders, .clients, .conservators, .channels, .policy, .links]
  | .pcieLinkDown => [.polders, .clients, .conservators, .channels, .policy, .links, .board, .firmware]
  | .perstN _ => [.polders, .clients, .conservators, .channels, .policy, .links, .board, .firmware]
  | .stgBegin => [.firmware]
  | .stgChunk _ _ => [.firmware]
  | .stgCommit => [.firmware]
  | .imageVerification => [.status, .measurements, .firmware]
  | .bringUp _ => [.translation, .frames, .seams, .polders, .clients, .conservators, .channels, .links, .power, .status, .measurements, .firmware, .journal, .spares]
  | .crossCheck _ => [.time, .tiles, .seams, .polders, .conservators, .channels, .links, .status, .measurements, .firmware, .journal]
  | .coldStart _ => [.time, .vfRegs, .tiles, .memory, .spad, .dstore, .istore, .host, .translation, .frames, .seams, .polders, .clients, .conservators, .channels, .policy, .links, .power, .board, .status, .measurements, .firmware, .journal, .spares]
  | .vinGood => [.policy, .board, .status, .firmware]
  | .vinLoss => [.vfRegs, .tiles, .memory, .spad, .dstore, .istore, .host, .translation, .frames, .seams, .polders, .conservators, .channels, .policy, .links, .board, .status, .firmware]
  | .vauxLoss => [.vfRegs, .tiles, .memory, .spad, .dstore, .istore, .host, .translation, .frames, .seams, .polders, .conservators, .channels, .policy, .links, .board, .status, .firmware]
  | .vinUndervoltage => [.power, .board]
  | .undervoltageEnd => [.power, .board]
  | .sysclkLoss => [.vfRegs, .tiles, .memory, .spad, .dstore, .istore, .host, .translation, .frames, .seams, .polders, .conservators, .channels, .policy, .links, .board, .status, .firmware]
  | .throttleNEdge _ => [.power, .board]
  | .throttleAccept => [.power, .board]
  | .throttleRelease => [.power, .board]
  | .throttleStable => [.power, .board]
  | .throttleHeldReport => [.board]
  | .powerWindow _ _ => [.power]
  | .thermalEvaluation _ _ _ _ => [.power]
  | .thermtrip _ _ => [.polders, .clients, .conservators, .channels, .links, .power, .board, .status, .journal]
  | .regulatorFault _ _ => [.seams, .polders, .clients, .conservators, .channels, .links, .power, .status, .journal]
  | .acStepUp _ => [.power]
  | .prtCtl _ _ => [.seams, .links]
  | .portTraining _ _ => [.links, .journal, .spares]
  | .ident _ _ _ => [.links, .journal]
  | .identTimeout _ => [.links]
  | .portRetry _ => [.links]
  | .linkSignalLoss _ _ => [.links]
  | .linkFlitCrcError _ => [.links]
  | .linkNak _ _ => [.links]
  | .linkAckTimeout _ => [.links]
  | .resendTimeout _ _ => [.links]
  | .pfcPause _ _ => [.links]
  | .write _ _ => [.tiles, .memory, .host, .seams, .conservators, .links]
  | .credit _ _ _ => [.tiles, .memory, .host, .seams, .conservators, .links]
  | .ack _ _ => [.tiles, .memory, .host, .seams, .conservators, .links]
  | .alarm _ _ _ _ => [.links]
  | .sendDescriptor _ _ => [.tiles, .frames, .seams, .polders, .conservators, .links, .journal, .spares]
  | .spareSubstitution _ _ => [.seams, .links, .power, .measurements, .journal, .spares]
  | .partWideMaintenance _ => [.frames, .polders, .clients, .conservators, .channels, .links, .power, .status, .measurements, .firmware, .journal, .spares]
  | .usageInterval => [.power, .journal]
  | .bypass _ => [.board]
  | .idcode => [.board]
  | .samplePreload _ => [.board]
  | .extest _ => [.board]
  | .tilCtlStart _ => [.tiles, .seams]
  | .tilCtlStep _ => [.tiles, .spad, .dstore, .seams, .polders, .spares]
  | .freeze _ _ => [.tiles, .seams, .polders]
  | .blkCtlReset _ => [.seams]
  | .blkIrqStsClear _ _ => [.seams]
  | .blkIrqForce _ _ => [.seams]
  | .pldWdLimit _ _ => []
  | .pwrCap _ => []
  | .readClear _ _ => [.vfRegs, .tiles, .seams, .polders, .links, .power]
  | .lowWordRead _ _ => [.vfRegs, .tiles, .seams, .polders, .links, .power]
  | .registerWrite _ _ _ _ => [.vfRegs, .tiles, .spad, .dstore, .host, .seams, .polders, .conservators, .channels, .policy, .links, .firmware, .spares]
  | .heartbeat _ => [.seams, .firmware]
  | .nullFlit _ _ _ _ _ => [.links]
  | .pfcPauseEnd _ _ => [.links]
  | .lanePllLock _ => [.links, .board]
  | .lrefclkLoss _ => [.links, .board]

end Sys2Proof.Machine
end

