-- ==== Sys2Proof/Certificates/Slice0/Obligations.lean ====
section
/-!
DEFINITION. The statements for the provers. Each docstring names the rules of the manual that its statement rests on.
-/

open Sys2Proof Sys2Proof.Machine

/-! ### The tile control core (R76 to R83, R92, R94) -/

/-- R78: each function of ALU writes rd with its value, for every operand, and retires. R78: the instructions with an immediate write
rd with their value and retire. R78: SHI shifts ra by imm12[4:0], to the left, to the right with zeros, or to the right with the sign,
by imm12[6:5]. R78: CMP and PLOG write pd with their value, for every code that the manual defines, and retire. -/
def Obligations.ScalarInstructionsWriteResults : Prop :=
  (∀ (s : State) (t : TileId) (g : Guard) (rd ra rb : BitVec 5) (func : BitVec 7) (value : Word),
      let x := (s.tile t.toNat).tcc
      let a := x.s ra
      let b := x.s rb
      (func, value) ∈ [
        (0x00#7, a + b), (0x01#7, a - b), (0x02#7, a &&& b), (0x03#7, a ||| b), (0x04#7, a ^^^ b),
        (0x05#7, a <<< (b.toNat % 32)), (0x06#7, a >>> (b.toNat % 32)), (0x07#7, a.sshiftRight (b.toNat % 32)),
        (0x08#7, BitVec.ofNat 32 (a.toNat * b.toNat)), (0x09#7, BitVec.ofNat 32 (a.toNat * b.toNat / 2 ^ 32)),
        (0x0A#7, BitVec.ofInt 32 (min a.toInt b.toInt)), (0x0B#7, BitVec.ofInt 32 (max a.toInt b.toInt)),
        (0x0C#7, BitVec.ofNat 32 (min a.toNat b.toNat)), (0x0D#7, BitVec.ofNat 32 (max a.toNat b.toNat))] →
      s.Issues t.toNat g (.alu rd ra rb func) →
      ∃ u, exec (.alu t g rd ra rb func) s = .next u ∧ s.Retired t.toNat (x.setS rd value).advance u) ∧
  (∀ (s : State) (t : TileId) (g : Guard) (rd ra : BitVec 5) (imm : BitVec 12) (wide : BitVec 17) (c : Instr) (op : TccOp) (value : Word),
      let x := (s.tile t.toNat).tcc
      let a := x.s ra
      (c, op, value) ∈ [
        (.addi t g rd ra imm, .addi rd ra imm, BitVec.ofInt 32 (a.toInt + imm.toInt)),
        (.andi t g rd ra imm, .andi rd ra imm, a &&& BitVec.ofNat 32 imm.toNat),
        (.ori t g rd ra imm, .ori rd ra imm, a ||| BitVec.ofNat 32 imm.toNat),
        (.xori t g rd ra imm, .xori rd ra imm, a ^^^ BitVec.ofNat 32 imm.toNat),
        (.movi t g rd wide, .movi rd wide, BitVec.ofInt 32 wide.toInt),
        (.lui t g rd wide, .lui rd wide, wide.extractLsb' 0 16 ++ (x.s rd).extractLsb' 0 16)] →
      s.Issues t.toNat g op →
      ∃ u, exec c s = .next u ∧ s.Retired t.toNat (x.setS rd value).advance u) ∧
  (∀ (s : State) (t : TileId) (g : Guard) (rd ra : BitVec 5) (imm : BitVec 12) (value : Word),
      let x := (s.tile t.toNat).tcc
      let a := x.s ra
      let n := imm.toNat % 32
      (imm.toNat / 32 % 4, value) ∈ [(0, a <<< n), (1, a >>> n), (2, a.sshiftRight n)] →
      s.Issues t.toNat g (.shi rd ra imm) →
      ∃ u, exec (.shi t g rd ra imm) s = .next u ∧ s.Retired t.toNat (x.setS rd value).advance u) ∧
  (∀ (s : State) (t : TileId) (g : Guard) (pd pa pb : BitVec 3) (ra rb : BitVec 5) (c : Instr) (op : TccOp) (value : Bool),
      let x := (s.tile t.toNat).tcc
      let a := x.s ra
      let b := x.s rb
      (c, op, value) ∈ [
        (.cmp t g pd ra rb 0, .cmp pd ra rb 0, decide (a = b)),
        (.cmp t g pd ra rb 1, .cmp pd ra rb 1, decide (a ≠ b)),
        (.cmp t g pd ra rb 2, .cmp pd ra rb 2, decide (a.toInt < b.toInt)),
        (.cmp t g pd ra rb 3, .cmp pd ra rb 3, decide (b.toInt ≤ a.toInt)),
        (.cmp t g pd ra rb 4, .cmp pd ra rb 4, decide (a.toNat < b.toNat)),
        (.cmp t g pd ra rb 5, .cmp pd ra rb 5, decide (b.toNat ≤ a.toNat)),
        (.plog t g pd pa pb 0, .plog pd pa pb 0, x.p pa && x.p pb),
        (.plog t g pd pa pb 1, .plog pd pa pb 1, x.p pa || x.p pb),
        (.plog t g pd pa pb 2, .plog pd pa pb 2, xor (x.p pa) (x.p pb)),
        (.plog t g pd pa pb 3, .plog pd pa pb 3, x.p pa && !x.p pb)] →
      s.Issues t.toNat g op →
      ∃ u, exec c s = .next u ∧ s.Retired t.toNat (x.setP pd value).advance u)

/-- R78, R83: BR and CALL whose guard reads 1 move the program counter by 4 × off22, and CALL writes s31 with the address of the next
instruction and pushes it on the return stack, which holds eight; a branch whose guard names a predicate other than p0 resolves first.
That a ninth CALL drops the oldest entry is the model's choice (log entry 11). R83: a conditional branch that resolves steps its 2-bit
counter towards its outcome, shifts the outcome into the history of nine, and counts a misprediction where the counter's upper half did
not name the outcome; nothing else changes. R78, R83: JR to an address in the program that is a multiple of 4 moves the program counter
there; through s31 it pops the return stack, and it counts as mispredicted unless it goes through s31 to the stack's top. -/
def Obligations.BranchesAndReturnsMoveThePc : Prop :=
  (∀ (s : State) (t : TileId) (g : Guard) (off : BitVec 22),
      let n := t.toNat
      let x := (s.tile n).tcc
      let v := if g.pg = 0 then s else s.resolve n true
      let y := (v.tile n).tcc
      let target := x.pc + BitVec.ofInt 16 (4 * off.toInt)
      (s.Issues n g (.br off) →
        ∃ u, exec (.br t g off) s = .next u ∧ v.Retired n { y with pc := target } u) ∧
      (s.Issues n g (.call off) →
        ∃ u, exec (.call t g off) s = .next u ∧
          v.Retired n { y.setS 31 (wordOf (x.pc.toNat + 4)) with pc := target, ras := ((x.pc + 4) :: x.ras).take 8 } u)) ∧
  (∀ (s : State) (n : Nat) (taken : Bool), s.Wf →
      let x := (s.tile n).tcc
      let i := (x.pc.toNat / 4 % 512) ^^^ x.history.toNat
      let c := Table.get 1 x.bht i
      let u := s.resolve n taken
      let y := (u.tile n).tcc
      Table.get 1 y.bht i = (if taken then BitVec.ofNat 2 (min 3 (c.toNat + 1)) else BitVec.ofNat 2 (c.toNat - 1)) ∧
      (∀ j, j ≠ i → Table.get 1 y.bht j = Table.get 1 x.bht j) ∧
      y.history = x.history.extractLsb' 0 8 ++ BitVec.ofBool taken ∧
      { y with bht := x.bht, history := x.history } = x ∧
      u.reg (tilReg n 0x48) = s.reg (tilReg n 0x48) + (if (c = 2 ∨ c = 3) ↔ taken = true then 0 else 1) ∧
      (∀ a, a ≠ tilReg n 0x48 → u.reg a = s.reg a) ∧
      (∀ k, k ≠ n → u.tile k = s.tile k) ∧ { u.tile n with tcc := x } = s.tile n ∧
      { u with tiles := s.tiles, regs := s.regs } = s) ∧
  (∀ (s : State) (t : TileId) (g : Guard) (ra : BitVec 5),
      let n := t.toNat
      let x := (s.tile n).tcc
      let a := x.s ra
      s.Issues n g (.jr ra) → a.toNat % 4 = 0 → a.toNat < 4 * x.instrs →
      ∃ v u, exec (.jr t g ra) s = .next u ∧
        s.Retired n { x with pc := a.setWidth 16, ras := if ra = 31 then x.ras.drop 1 else x.ras } v ∧
        u = if ra = 31 ∧ x.ras.head? = some (a.setWidth 16) then v else v.bump (tilReg n 0x48) 1)

/-- R81: a JR to an address outside the program or not a multiple of 4 raises 0x0110, and an LDW or STW outside the data store
or not at a multiple of 4 raises 0x0111. Each shows the code, freezes the TCC, and sends the fault whose cause tears the
polder down; nothing retires. -/
def Obligations.TccFaultsFreeze : Prop :=
  ∀ (s : State) (t : TileId) (g : Guard) (ra rd : BitVec 5) (imm : BitVec 12) (c : Instr) (op : TccOp) (code : Nat),
    let n := t.toNat
    let x := (s.tile n).tcc
    let a := (x.s ra).toNat
    let d := (x.s ra + imm.signExtend 32).toNat
    (c = .jr t g ra ∧ op = .jr ra ∧ code = 0x0110 ∧ (a % 4 ≠ 0 ∨ 4 * x.instrs ≤ a) ∨
      (c = .ldw t g rd ra imm ∧ op = .ldw rd ra imm ∨ c = .stw t g rd ra imm ∧ op = .stw rd ra imm) ∧ code = 0x0111 ∧
        (d % 4 ≠ 0 ∨ 16384 ≤ d)) →
    s.Issues n g op →
    ∃ u, exec c s = .next u ∧
      (u.tile n).tcc = { x with state := .frozen, faulted := true } ∧
      u.reg (tilReg n 0x0C) = BitVec.ofNat 32 code ∧
      u.nets.causes = s.nets.causes ++ [{ polder := ownerCode (s.tileOwner n), code := code, kind := 1, unit := n, addr := 0 }] ∧
      (∀ k, k ≠ n → u.tile k = s.tile k) ∧ u.store = s.store

/-- R67, R71, R74, R82: CMD appends the four words of its registers to a queue that holds fewer than 16 commands, and stalls where it
holds 16; SIGEV increments its counter, or raises 0x0113 where the counter stands at its highest value. R78, R82: WAITEV waits until
its counter is granted; FENCE retires once every queue that its immediate names is empty and its engine has completed all its commands,
and waits before that. -/
def Obligations.CommandsWaitsAndEventsIssue : Prop :=
  (∀ (s : State) (t : TileId) (g : Guard) (q : BitVec 3) (ra : BitVec 5) (imm : BitVec 12),
      let n := t.toNat
      let x := (s.tile n).tcc
      let c := if imm.toNat / 256 % 2 = 1 then (x.s ra).toNat % 256 else imm.toNat % 256
      (s.Issues n g (.cmd q ra) →
        ∃ u, exec (.cmd t g q ra) s = .next u ∧
          (((s.tile n).engine q.toNat).queue.length < 16 →
            ∃ v k, State.Retired v n x.advance u ∧
              k.w0 = x.s ra ∧ k.w1 = x.s (ra + 1) ∧ k.w2 = x.s (ra + 2) ∧ k.w3 = x.s (ra + 3) ∧
              v = s.modEngine n q.toNat (fun e => { e with queue := e.queue ++ [k] })) ∧
          (16 ≤ ((s.tile n).engine q.toNat).queue.length →
            u = s.modTcc n (fun x => { x with
              state := .waiting, stall := some (.queueFull q.toNat), stallAc := s.now (acDom (dieOfTile n)) }))) ∧
      (s.Issues n g (.sigev ra imm) →
        ∃ u, exec (.sigev t g ra imm) s = .next u ∧
          ((s.tile n).ctr c ≠ 0xFFFFFFFF →
            u = ((s.modTile n (fun x => x.setCtr c (x.ctr c + 1))).observe n c).retire n Tcc.advance) ∧
          ((s.tile n).ctr c = 0xFFFFFFFF → u = s.raiseTile n 1 0x0113 0))) ∧
  (∀ (s : State) (t : TileId) (g : Guard) (ra : BitVec 5) (imm : BitVec 12),
      let n := t.toNat
      let x := (s.tile n).tcc
      let c := if imm.toNat / 256 % 2 = 1 then (x.s ra).toNat % 256 else imm.toNat % 256
      let drained := ∀ q, q < 7 → imm.toNat / 2 ^ q % 2 = 1 →
        ((s.tile n).engine q).queue = [] ∧ ((s.tile n).engine q).active = []
      (s.Issues n g (.waitev ra imm) →
        exec (.waitev t g ra imm) s = .next (s.modTcc n (fun x => { x with
          state := .waiting, stall := some (.waitev c), stallAc := s.now (acDom (dieOfTile n)) }))) ∧
      (s.Issues n g (.fence imm) →
        ∃ u, exec (.fence t g imm) s = .next u ∧
          (drained → s.Retired n x.advance u) ∧
          (¬ drained → u = s.modTcc n (fun x => { x with
            state := .waiting, stall := some (.fence imm.toNat), stallAc := s.now (acDom (dieOfTile n)) }))))

/-- R78: LDW writes rd with the word of the data store at ra plus the sign-extended immediate, and STW stores rd there; the address is
a multiple of 4 in the store. STW changes those four bytes of the data store and no other byte of memory. R78, R89: a granted SPXR
copies the 512 bytes of a scratchpad row into a data store row, counting a corrected error, and a granted SPXW copies a data store row
into a scratchpad row; every byte outside the row that is written stays. R80: RDCSR writes rd with the tile ID, the polder ID, the step
counter, the micro-batch index, the low word of the ac counter, the high word that the last such read latched, or the number of
requests in flight. -/
def Obligations.LoadsStoresAndCsrReads : Prop :=
  (∀ (s : State) (t : TileId) (g : Guard) (rd ra : BitVec 5) (imm : BitVec 12),
      let n := t.toNat
      let x := (s.tile n).tcc
      let a := (x.s ra + imm.signExtend 32).toNat
      a < 16384 → a % 4 = 0 →
      (s.Issues n g (.ldw rd ra imm) →
        ∃ u, exec (.ldw t g rd ra imm) s = .next u ∧
          s.Retired n (x.setS rd (wordOf (leNat (s.store.dstore.readN (dataKey n a) 4)))).advance u) ∧
      (s.Issues n g (.stw rd ra imm) →
        ∃ v u, exec (.stw t g rd ra imm) s = .next u ∧ State.Retired v n x.advance u ∧
          { v with store := { v.store with dstore := s.store.dstore } } = s ∧
          leNat (v.store.dstore.readN (dataKey n a) 4) = (x.s rd).toNat ∧
          ∀ b, b < dataKey n a ∨ dataKey n a + 4 ≤ b → v.store.dstore.read b = s.store.dstore.read b)) ∧
  (∀ (s : State) (t : TileId) (g : Guard) (ra : BitVec 5) (imm : BitVec 12),
      let n := t.toNat
      let x := (s.tile n).tcc
      let row := (x.s ra).toNat % 2 ^ 13
      let low := n * 2 ^ 22 + row * 512
      let dat := n * 2 ^ 14 + imm.toNat % 32 * 512
      (∀ ecc, (∀ r, ecc ≠ .uncorrectable r) → s.Issues n g (.spxr ra imm) →
        ∃ v u, exec (.spxr t g ra imm true ecc) s = .next u ∧ State.Retired v n x.advance u ∧
          v.store.dstore.readN dat 512 = s.store.spad.readN low 512 ∧
          (∀ b, b < dat ∨ dat + 512 ≤ b → v.store.dstore.read b = s.store.dstore.read b) ∧
          { v.store with dstore := s.store.dstore } = s.store ∧
          (ecc = .clean → { v with store := s.store } = s) ∧
          (∀ r rs, ecc = .corrected (r :: rs) →
            { v with store := s.store } = (s.bump64 (tilReg n 0x58) 1).setReg (tilReg n 0x60) (wordOf row))) ∧
      (s.Issues n g (.spxw ra imm) →
        ∃ v u, exec (.spxw t g ra imm true) s = .next u ∧ State.Retired v n x.advance u ∧
          v.store.spad.readN low 512 = s.store.dstore.readN dat 512 ∧
          (∀ b, b < low ∨ low + 512 ≤ b → v.store.spad.read b = s.store.spad.read b) ∧
          { v with store := { v.store with spad := s.store.spad } } = s)) ∧
  (∀ (s : State) (t : TileId) (g : Guard) (rd : BitVec 5) (imm : BitVec 12) (value : Word),
      let n := t.toNat
      let x := (s.tile n).tcc
      let p := ownerCode (s.tileOwner n)
      let ac := s.now (acDom (n / 64))
      (imm, value) ∈ [
        (0x000#12, BitVec.ofNat 32 n), (0x001#12, BitVec.ofNat 32 p), (0x002#12, s.stepOf p), (0x003#12, (s.pld p).mbIndex),
        (0x004#12, ac.extractLsb' 0 32), (0x005#12, x.csrHigh), (0x006#12, BitVec.ofNat 32 (s.inFlight n))] →
      s.Issues n g (.rdcsr rd imm) →
      ∃ u, exec (.rdcsr t g rd imm) s = .next u ∧
        s.Retired n { (x.setS rd value).advance with csrHigh := if imm = 4 then ac.extractLsb' 32 32 else x.csrHigh } u)

/-- R92, R94: a write of START runs a core in READY, with the branch table, the history and the return stack empty, and a write of STEP
to a core that a debug freeze stopped runs the instruction at its program counter as a running core does and leaves the core frozen at
the next boundary, with the stall that the freeze interrupted counted. Both answer as a write and read back as the bit written, and a
write to a die without power answers an error. R77, R83: an instruction whose guard
reads 0 retires without effect: it only moves the program counter to the next instruction. A BR or CALL whose guard names a predicate
other than p0 also resolves, as not taken. R78, R94: HALT stops the TCC, which enters DONE at once where every queue and engine of the
tile is empty and no request of it is in flight, and stays HALTED otherwise. R82, R94: STALL_END resumes a core that waits for a queue
with room, for drained queues or for a port slot once its condition holds: the core runs again at the instruction that stalled, and the
ac that it stalled are counted. TCC_DONE takes a halted core of an idle tile to DONE and sets its interrupt bit. R251, R252, R254,
R256: a deadline of a tile's monitor that passes with its checkpoint unmet counts one overrun of it in PLD_OVERRUN, sets the tile's
overrun flag and TIMING_VOID, and marks the checkpoint so that it counts no second time; the first overrun on record is the one that
PLD_OVERRUN_FIRST shows. -/
def Obligations.CoresStartStallSkipAndHalt : Prop :=
  (∀ (s : State) (t : TileId), s.Wf →
      let n := t.toNat
      let x := (s.tile n).tcc
      let w := s.accessCrosses 4 (n / 64)
      (s.tilePowered n = true → s.tileLive n = true → x.state = .ready →
        ∃ u, exec (.tilCtlStart t) s = .next u ∧ u.answer = .written ∧
          (u.tile n).tcc = { x with state := .running, bht := [], history := 0, ras := [] } ∧
          (∀ k, k ≠ n → u.tile k = s.tile k) ∧ u.reg (tilReg n 0x00) = 1 ∧ ∀ b, b ≠ tilReg n 0x00 → u.reg b = w.reg b) ∧
      (∀ g op ecc, s.tilePowered n = true → s.tileLive n = true → x.state = .frozen → x.faulted = false →
        (x.held = .running ∨ x.held = .waiting) → decodeTcc (s.instrWord n x.pc.toNat) = some (g, op) →
        let v := (((w.setReg (tilReg n 0x00) 2).countStall n).modTcc n (fun x => { x with state := .running })).guarded n g op true ecc
        let y := (v.tile n).tcc
        y.faulted = false → y.state ≠ .waiting →
        ∃ u, exec (.tilCtlStep ⟨t, ecc⟩) s = .next u ∧ u.answer = .written ∧
          (u.tile n).tcc = { y with held := y.state, state := .frozen } ∧
          (∀ k, k ≠ n → u.tile k = v.tile k) ∧ u.regs = v.regs ∧ u.store = v.store) ∧
      (s.tilePowered n = false →
        exec (.tilCtlStart t) s = .next s.answerError ∧ ∀ ecc, exec (.tilCtlStep ⟨t, ecc⟩) s = .next s.answerError)) ∧
  (∀ (s : State) (t : TileId) (g : Guard) (op : TccOp) (granted : Bool) (ecc : RowEcc),
      let n := t.toNat
      let v := if op.branches = true ∧ g.pg ≠ 0 then s.resolve n false else s
      s.Wf → s.tccReady n g op = true → (s.tile n).tcc.guard g = false →
      ∃ u, exec (op.command t g granted ecc) s = .next u ∧ v.Retired n (v.tile n).tcc.advance u) ∧
  (∀ (s : State) (t : TileId) (g : Guard),
      let n := t.toNat
      let x := (s.tile n).tcc
      s.Issues n g .halt →
      ∃ v u, exec (.halt t g) s = .next u ∧ s.Retired n { x.advance with state := .halted } v ∧
        u = if s.tileIdle n then (v.modTcc n (fun x => { x with state := .done })).setIrq (tilePage n) (2 ^ (8 + n % 8)) else v) ∧
  (∀ (s : State) (t : TileId),
      let n := t.toNat
      let x := (s.tile n).tcc
      s.Wf → s.tileLive n = true →
      (∀ r, x.state = .waiting → x.stall = some r →
        (r = .port ∨ (∃ q, r = .queueFull q ∧ ((s.tile n).engine q).queue.length < 16) ∨
          ∃ m, r = .fence m ∧ ∀ q, q < 7 → m / 2 ^ q % 2 = 1 → (s.tile n).drained q = true) →
        ∃ u, exec (.stallEnd t) s = .next u ∧
          (u.tile n).tcc = { x with state := .running, stall := none } ∧
          let off := if r = .port then 0x50 else 0x4C
          u.reg (tilReg n off) = s.reg (tilReg n off) + BitVec.ofNat 32 (s.now (acDom (n / 64)) - x.stallAc).toNat ∧
          (∀ b, b ≠ tilReg n off → u.reg b = s.reg b)) ∧
      (x.state = .halted → s.tileIdle n = true →
        ∃ u, exec (.tccDone t) s = .next u ∧ (u.tile n).tcc = { x with state := .done } ∧
          u.reg (tilePage n + 0x010) = s.reg (tilePage n + 0x010) ||| BitVec.ofNat 32 (2 ^ (8 + n % 8)))) ∧
  (∀ (s : State) (t : TileId) (idx : Nat) (d : Dword), s.Wf →
      let n := t.toNat
      let p := ownerCode (s.tileOwner n)
      s.tileLive n = true → (s.tile n).mon.suspended = false → s.missed n = some (idx, d) →
      ∃ u, exec (.checkpointDeadline t) s = .next u ∧
        (u.tile n).mon = { (s.tile n).mon with late := (s.tile n).mon.late ++ [(idx, d)], overrun := true } ∧
        u.reg64 (pldReg p 0x140) = (s.reg64 (pldReg p 0x140) + 1) % 2 ^ 64 ∧
        u.reg (pldReg p 0x100) = s.reg (pldReg p 0x100) ||| 2 ∧
        u.reg (pldReg p 0x148) = (if s.reg64 (pldReg p 0x140) = 0 then BitVec.ofNat 32 (n + idx * 2 ^ 8) else s.reg (pldReg p 0x148)) ∧
        (∀ k, k ≠ n → u.tile k = s.tile k) ∧ u.store = s.store ∧ u.polders = s.polders)

/-- R76: s0 reads 0 and ignores writes, and p0 reads 1 and ignores writes, in every state that a step can reach and whatever an
instruction writes; a write to any other register is what it then reads, and leaves the other ones alone. -/
def Obligations.ConstantRegistersStayConstant : Prop :=
  ∀ (s : State) (n : Nat) (w : Word) (v : Bool), s.Wf →
    let x := (s.tile n).tcc
    x.s 0 = 0 ∧ (x.setS 0 w).s 0 = 0 ∧ x.p 0 = true ∧ (x.setP 0 v).p 0 = true ∧
    (∀ r, (x.setS 0 w).s r = x.s r) ∧ (∀ q, (x.setP 0 v).p q = x.p q) ∧
    (∀ r k, r ≠ 0 → (x.setS r w).s k = if k = r then w else x.s k) ∧
    (∀ q k, q ≠ 0 → (x.setP q v).p k = if k = q then v else x.p k) ∧
    (∀ u, step s = .next u → (u.tile n).tcc.s 0 = 0 ∧ (u.tile n).tcc.p 0 = true)

/-! ### Queues, counters and signals (R64 to R74) -/

/-- R66, R72: in one ac the TCC's wait is granted first, then the commands at the heads of queues 0 to 6 in order, each while its
counter allows, and then the sync port delivers. R65, R66, R71: the command at a queue's head starts where its engine is not frozen and
has room, and its counter is not 0 if it waits: its counter falls by one, it leaves the queue, and it becomes the engine's newest
active command. R68, R71, R197: a finished command completes: it leaves its engine, and under SIG_EN its counter rises by one, where
that counter is not at its highest value. On a DMA engine only the oldest command completes. -/
def Obligations.QueuesGrantStartAndComplete : Prop :=
  (∀ (s : State) (t : TileId), s.tileLive t.toNat = true →
      let n := t.toNat
      exec (.waitGrant t) s = .next (((((((((s.grantTcc n).startHead n 0).startHead n 1).startHead n 2).startHead n 3).startHead n 4).startHead
        n 5).startHead n 6).deliverSync n)) ∧
  (∀ (s : State) (n q : Nat) (c : Command), s.Wf → q < 7 →
      let x := s.tile n
      let e := x.engine q
      e.queue.head? = some c → e.frozen = false → x.hasRoom q c = true → opcodeOk q c.opcode = true →
      (c.waitEn = true → x.ctr c.waitCtr ≠ 0) →
      let y := (s.startHead n q).tile n
      (y.engine q).queue = e.queue.drop 1 ∧
      (∃ a, a.cmd = c ∧ a.seq = e.started ∧ a.finished = false ∧ (y.engine q).active = e.active ++ [a]) ∧
      (y.engine q).started = e.started + 1 ∧
      (∀ k, y.ctr k = if c.waitEn = true ∧ k = c.waitCtr then x.ctr k - 1 else x.ctr k) ∧
      (∀ m, m ≠ n → (s.startHead n q).tile m = s.tile m)) ∧
  (∀ (s : State) (t : TileId) (q : BitVec 3) (a : Active), s.Wf →
      let n := t.toNat
      let e := (s.tile n).engine q.toNat
      s.tileLive n = true → e.frozen = false →
      ((q = 3 ∨ q = 4) → e.active.head? = some a ∧ a.finished = true) →
      ((q ≠ 3 ∧ q ≠ 4) → ∃ before after, e.active = before ++ a :: after ∧ a.finished = true ∧ ∀ b ∈ before, b.finished = false) →
      (s.tile n).ctr a.cmd.sigCtr ≠ 0xFFFFFFFF →
      ∃ u, exec (.commandCompletion t q) s = .next u ∧
        ((u.tile n).engine q.toNat).active = e.active.filter (fun b => b.seq != a.seq) ∧
        (∀ k, (u.tile n).ctr k = if a.cmd.sigEn = true ∧ k = a.cmd.sigCtr then (s.tile n).ctr k + 1 else (s.tile n).ctr k) ∧
        u.store = s.store)

/-- R69, R73, R224: SIGNAL hands one signal for each tile that it names to the sync network, where every tile belongs to the sender's
polder, and finishes; it waits while a seam of a signal's way is out of service or has no credit, or a tile's sync port holds 16 with
those on their way. MARK only finishes. A reserved bit raises 0x0114, and a tile of another owner 0x0112. R71, R73: a signal that reaches a tile
increments its counter where the sync port has delivered none in this ac, waits in the input queue where it has and the queue has room
for it, and is held in the network where the queue holds 16. -/
def Obligations.SignalsTravelAndArrive : Prop :=
  (∀ (s : State) (t : TileId) (a : Active),
      let n := t.toNat
      let c := a.cmd
      (s.current n 6 1 = some a →
        ∃ u, exec (.signal t) s = .next u ∧
          let ok := c.w0Ok = true ∧ c.w1.toNat / 2 ^ 17 = 0 ∧ c.w2 = 0 ∧ c.w3 = 0
          (¬ ok → u = s.raiseEngine n 6 0x0114 0) ∧
          (ok → (∃ d ∈ c.targets, s.tileOwner d ≠ s.tileOwner n) → u = (s.raiseEngine n 6 0x0112 0).freezeMaster n 1) ∧
          (ok → (∀ d ∈ c.targets, s.tileOwner d = s.tileOwner n) →
            let taken := ∀ d ∈ c.targets, s.nets.signals.countP (fun g => g.dst == d) + (s.tile d).syncIn.length < 16 ∧
              ∀ e ∈ routeEdges (n / 64) (fixedRoute (n / 64) (d / 64)), s.seamUp e.1 = true ∧ s.syncHeld e + c.targets.length ≤ 32
            (taken → u.nets.signals = s.nets.signals ++ c.targets.map (fun d =>
                { src := n, die := n / 64, dst := d, ctr := c.w1.toNat / 2 ^ 8 % 2 ^ 8 }) ∧
              u.tiles = (s.finish n 6 a.seq).tiles ∧ u.store = s.store) ∧
            (¬ taken → u.nets = s.nets ∧ u.tiles = s.tiles ∧ u.store = s.store))) ∧
      (s.current n 6 2 = some a → c.w0Ok = true → c.w1 = 0 → c.w2 = 0 → c.w3 = 0 →
        exec (.mark t) s = .next (s.finish n 6 a.seq))) ∧
  (∀ (s : State) (t : TileId) (g : Sig),
      let n := t.toNat
      let x := s.tile n
      s.Wf → s.tileLive n = true → s.nets.signals.find? (fun y => y.dst == n) = some g → x.ctr g.ctr ≠ 0xFFFFFFFF →
      ∃ u, exec (.signalArrival t) s = .next u ∧
        (x.syncBusy = false → (u.tile n).ctr g.ctr = x.ctr g.ctr + 1 ∧ (u.tile n).syncBusy = true ∧
          (∀ k, k ≠ g.ctr → (u.tile n).ctr k = x.ctr k) ∧ u.nets.signals = takeSignal n s.nets.signals) ∧
        (x.syncBusy = true → x.syncIn.length < 16 →
          u.tile n = { x with syncIn := x.syncIn ++ [g.ctr] } ∧ u.nets.signals = takeSignal n s.nets.signals) ∧
        (x.syncBusy = true → 16 ≤ x.syncIn.length → u = s))

/-! ### The engines of a tile (R95 to R168, R192 to R217) -/

/-- R102, R140, R159: SETMODE, SETOUT, BSSETMODE, BSSETOUT, VSTRM and VSETOUT replace the field that they set with their command's
fields and finish; SETMODE and BSSETMODE also zero the counts of XR output. Nothing else of the tile, no other tile and no other
register changes. R105, R106, R109, R159: LOAD copies the rows that it names into the shadow set, SWAP exchanges the active and the
shadow set and takes one slot of the feed stream, and VPROG copies a row's 128 words into the program and the constants. Each row that
needed correction is counted; LOAD and SWAP also end the gating of the PE rows (R439), and the ac for which a SWAP was held are a free
value (log entry 6). R439: the array gates its PE rows after 256 ac
with no LOAD, SWAP or PASS in progress, and nothing else changes. -/
def Obligations.SettingAndLoadingCommands : Prop :=
  (∀ (s : State) (t : TileId) (a : Active) (c : Instr) (q : Nat) (current : Option Active) (ok : Bool) (x : Tile) (own : List Nat),
      let n := t.toNat
      let y := s.tile n
      let w := a.cmd
      (c, q, current, ok, x, own) ∈ [
        (.setmode t, 0, s.maCurrent n 4, setmodeOk w, { y with ma := { y.ma with cfg := w.passMode } },
          [arrReg n 0x20, arrReg n 0x28, arrReg n 0x2C]),
        (.setout t, 0, s.maCurrent n 5, w.w0Ok && w.f3 24 8 == 0,
          { y with ma := { y.ma with out := { tensor := w.w1, base := w.w2, stride := w.w3.toNat % 2 ^ 24 } } }, []),
        (.bssetmode t, 1, s.bsCurrent n 2, bssetmodeOk w, { y with bse := { y.bse with cfg := w.bsMode } },
          [tilReg n 0x94, tilReg n 0x98, tilReg n 0x9C]),
        (.bssetout t, 1, s.bsCurrent n 3, w.w0Ok && w.f3 24 8 == 0,
          { y with bse := { y.bse with out := { tensor := w.w1, base := w.w2, stride := w.w3.toNat % 2 ^ 24 } } }, []),
        (.vstrm t, 2, s.vuCurrent n 2, (vstrmFault w).isNone,
          { y with vu := y.vu.setStream (w.w1.toNat % 8) { row := w.f1 3 13, fmt := w.f1 16 4, gstride := w.f2 0 13, vstride := w.f2 13 13 } }, []),
        (.vsetout t, 2, s.vuCurrent n 3, w.w0Ok && w.f3 24 8 == 0,
          { y with vu := { y.vu with out := { tensor := w.w1, base := w.w2, stride := w.w3.toNat % 2 ^ 24 } } }, [])] →
      s.Wf → current = some a → ok = true →
      ∃ u, exec c s = .next u ∧ s.Ran n q a x own u ∧ ∀ b ∈ own, u.reg b = 0) ∧
  (∀ (s : State) (t : TileId) (a : Active) (ecc : RowEcc), s.Wf → (∀ r, ecc ≠ .uncorrectable r) →
      let n := t.toNat
      let y := s.tile n
      let w := a.cmd
      let now := s.now (acDom (n / 64))
      let gate := pwrPage (n / 64) + 0x060
      let rows := if w.w1.toNat / 2 ^ 17 % 2 = 1 then w.w2.toNat % 256 + 1 else w.w1.toNat / 2 ^ 21 % 256 + 1
      let counted := fun (u : State) => ∀ rs, ecc = .corrected rs →
        u.reg64 (tilReg n 0x58) = (s.reg64 (tilReg n 0x58) + rs.length) % 2 ^ 64 ∧
          ∀ r, rs.getLast? = some r → u.reg (tilReg n 0x60) = BitVec.ofNat 32 r.toNat
      let ungated := fun (u : State) => u.reg gate = if y.ma.gated then s.reg gate + 16 else s.reg gate
      (s.maCurrent n 1 = some a → maLoadFault w = none →
        ∃ u x, exec (.maLoad t ecc) s = .next u ∧ x.rows = w.f1 21 8 + 1 ∧ x.cols = w.f2 0 8 + 1 ∧ x.mode = w.f1 18 3 ∧
          x.fmt = w.f1 13 4 ∧ x.image = (List.range rows).map (fun i => s.spadRow n (w.w1.toNat % 2 ^ 13 + i)) ∧
          s.Ran n 0 a { y with ma := { y.ma with gated := false, lastAc := now, shadow := x, shadowFull := true } }
            (gate :: correctedRegs n) u ∧
          counted u ∧ ungated u) ∧
      (s.maCurrent n 2 = some a → w.w0Ok = true → w.w1 = 0 → w.w2 = 0 → w.w3 = 0 →
        ∃ u, exec (.swap ⟨t, ecc⟩) s = .next u ∧
          State.Ran { s with drawn := s.drawn + 2 } n 0 a { y with ma := { y.ma with
              gated := false, lastAc := now, active := y.ma.shadow, shadow := y.ma.active, shadowFull := false,
              feed := y.ma.feed.map (fun f => { f with next := f.next + 1 }) } }
            (gate :: arrReg n 0x08 :: arrReg n 0x0C :: arrReg n 0x10 :: arrReg n 0x18 :: correctedRegs n) u ∧
          u.reg64 (arrReg n 0x08) = (s.reg64 (arrReg n 0x08) + 1) % 2 ^ 64 ∧ counted u ∧ ungated u) ∧
      (s.vuCurrent n 1 = some a → w.w0Ok = true → w.f1 13 19 = 0 → w.w2 = 0 → w.w3 = 0 →
        let words := (unpack 32 128 (s.rowNat n (w.w1.toNat % 2 ^ 13))).map (BitVec.ofNat 32)
        ∃ u, exec (.vprog t ecc) s = .next u ∧
          State.Ran { s with drawn := s.drawn + 1 } n 2 a { y with vu := { y.vu with prog := words.take 112, consts := words.drop 112 } }
            (tilReg n 0xCC :: correctedRegs n) u ∧ counted u)) ∧
  (∀ (s : State) (t : TileId), s.Wf →
      let n := t.toNat
      let y := s.tile n
      (∀ a ∈ (y.engine 0).active, a.cmd.opcode = 0 ∨ 3 < a.cmd.opcode) → 256 ≤ (s.now (acDom (n / 64)) - y.ma.lastAc).toNat →
      ∃ u, exec (.arrayGate t) s = .next u ∧ u.tile n = { y with ma := { y.ma with gated := true } } ∧
        (∀ k, k ≠ n → u.tile k = s.tile k) ∧ { u with tiles := s.tiles } = s)

/-- R100, R112, R117, R124: a PASS whose checks hold forms, for each of its vectors and columns, the exact sum of the products, of the
accumulator entry under ACC_IN and of the addend. Under ACC_OUT entry (m, n) of the accumulator file takes that sum and no scratchpad
byte changes; otherwise the scratchpad takes the drained rows. The feed stream moves on by the pass's vectors, and ARR_SLOTS counts
them. R129, R137, R138, R141, R149: a BSPASS whose checks hold forms the exact sum of the products of the sixteen blocks of a block-row,
an omitted block read as +0, and of entry (m, n) of the accumulator file under ACC_IN. Under ACC_OUT entry (m, n) takes that sum; otherwise the scratchpad takes the drained rows. -/
def Obligations.PassesAccumulateOrDrain : Prop :=
  (∀ (s : State) (t : TileId) (a : Active) (ecc : RowEcc), s.Wf → (∀ r, ecc ≠ .uncorrectable r) →
      let n := t.toNat
      let x := (s.tile n).ma
      let p := a.cmd.pass
      let fd := passFeed x p
      s.maCurrent n 3 = some a → passFault x a.cmd = none →
      ∃ u, exec (.pass t ecc) s = .next u ∧
        (u.tile n).ma.feed = some { fd with next := fd.next + p.m } ∧
        u.reg64 (arrReg n 0x08) = (s.reg64 (arrReg n 0x08) + p.m) % 2 ^ 64 ∧
        (p.accOut = true →
          (∀ m c, m < p.m → c < 128 → Table.get Acc.zero (u.tile n).ma.acc (c * 128 + m) = s.slotValue n p fd m c) ∧
          u.store = s.store) ∧
        (p.accOut = false →
          let rows := (passRows x.cfg p ((s.passValues n p fd).zipIdx.map (fun row => row.1.zipIdx.map (fun v => s.passElem n v.1 row.2 v.2)))).1
          u.store = (s.forEach rows (fun s e => s.setRows n e.1 e.2)).store) ∧
        (∀ k, k ≠ n → u.tile k = s.tile k)) ∧
  (∀ (s : State) (t : TileId) (a : Active) (ecc : RowEcc), s.Wf → (∀ r, ecc ≠ .uncorrectable r) →
      let n := t.toNat
      let x := (s.tile n).bse
      let p := a.cmd.bspass
      let h := TileHeader.read (s.spadRow n p.hdrRow)
      s.bsCurrent n 1 = some a → bspassFault x.cfg a.cmd h = none →
      ∃ u, exec (.bspass t ecc) s = .next u ∧
        u.reg64 (tilReg n 0x84) = (s.reg64 (tilReg n 0x84) + h.nnz) % 2 ^ 64 ∧
        (p.accOut = true →
          (∀ m c, m < p.m → c < 256 → Table.get Acc.zero (u.tile n).bse.acc (m * 256 + c) = s.bsValue n p h m c) ∧
          u.store = s.store) ∧
        (p.accOut = false →
          let rows := (List.range p.m).flatMap (fun m => (encodeRows x.cfg.outFmt (Rnd.ofCode x.cfg.rnd) x.cfg.crest
            ((List.range 256).map (fun c => s.bsElem n (s.bsValue n p h m c) m c))).1)
          u.store = (s.setRows n p.outRow rows).store) ∧
        (∀ k, k ≠ n → u.tile k = s.tile k))

/-- R154 to R157, R159, R160, R185: a VRUN, VCOMB or VFLUSH whose checks hold completes: it finishes and changes nothing of the tile but
the column accumulators, the ledger and scratchpad rows, and no byte of another memory; every corrected row read is counted, and VRUN
counts its groups. A VRUN without a micro-op that writes Y or S leaves the scratchpad, and one without a column sum leaves the
accumulators, which CACC_CLR zeroes. A VRUN of one group that writes only Y writes, in its format and rounding, what its micro-ops give
in each of the LAST lanes from zeroed lane registers, the streams' elements, the pair of P and the constants, and zeros beyond them.
VCOMB writes one pair for each vector: the rounded sum and the maximum of its records. VFLUSH writes the 256 column entries as one
group, rounded to nearest even, and zeroes them where its command says so. -/
def Obligations.VectorUnitCommands : Prop :=
  ∀ (s : State) (t : TileId) (a : Active) (ecc : RowEcc), s.Wf → (∀ r, ecc ≠ .uncorrectable r) →
    let n := t.toNat
    let c := a.cmd
    let y := s.tile n
    let x := y.vu
    let only := fun (u : State) => u.tile n = { y.finish 2 a.seq with vu := { x with cacc := (u.tile n).vu.cacc }, ledger := (u.tile n).ledger } ∧
      (∀ k, k ≠ n → u.tile k = s.tile k) ∧ u.store = { s.store with spad := u.store.spad }
    let counted := fun (u : State) => ∀ rs, ecc = .corrected rs →
      u.reg64 (tilReg n 0x58) = (s.reg64 (tilReg n 0x58) + rs.length) % 2 ^ 64
    (s.vuCurrent n 4 = some a → vrunFault x c = none →
      let r := c.vrun
      let ops := x.ops r
      let start := if r.caccClr then [] else x.cacc
      ∃ u, exec (.vrun t ecc) s = .next u ∧ only u ∧ counted u ∧
        u.reg64 (tilReg n 0xC4) = (s.reg64 (tilReg n 0xC4) + r.v * r.gpv) % 2 ^ 64 ∧
        ((∀ w ∈ ops, uOp w ≠ 0x23) → (u.tile n).vu.cacc = start) ∧
        ((∀ w ∈ ops, uOp w < 0x20 ∨ uOp w = 0x23) → u.store = s.store) ∧
        (∀ out, r.v = 1 → r.gpv = 1 → x.y = some out → (∃ w ∈ ops, uOp w = 0x20) → (∀ w ∈ ops, uOp w ≠ 0x21 ∧ uOp w ≠ 0x22) →
          let pq := s.pairIn n x.p 0
          let lane := fun e => (laneRun ops x.consts (List.replicate 8 0)
            { a := getAt (s.groupIn n x.a 0 0) e, b := getAt (s.groupIn n x.b 0 0) e, p := pq.1, q := pq.2 }).y
          u.store = (s.setRows n out.row (encodeRows out.fmt (Rnd.ofCode r.rnd) r.crest ((List.range 256).map (fun e =>
            if e < r.last then { d := .of (fp32 (lane e)), r := s.srOf n x.out (x.out.index 0 e) } else { d := .of .zero, r := 0 }))).1).store)) ∧
    (s.vuCurrent n 5 = some a → vcombFault c = none →
      let records := c.f1 13 5 + 1
      let vectors := c.f1 18 13 + 1
      ∃ u, exec (.vcomb t ecc) s = .next u ∧ only u ∧ counted u ∧ (u.tile n).vu.cacc = x.cacc ∧
        u.store = (s.setPairs n (c.w2.toNat % 2 ^ 13) ((List.range vectors).map (fun i =>
          let y := s.combine n (c.w1.toNat % 2 ^ 13) records vectors i
          (y.1.1, y.2)))).store) ∧
    (s.vuCurrent n 6 = some a → vflushFault c = none →
      let cols := (List.range 256).map (fun e => ({ d := .of (Table.get Acc.zero x.cacc e).value, r := 0 } : OutElem))
      ∃ u, exec (.vflush t) s = .next u ∧ only u ∧
        u.store = (s.setRows n (c.w1.toNat % 2 ^ 13) (encodeRows (c.f1 13 4) .rne (toSigned 10 (c.f1 17 10)) cols).1).store ∧
        (u.tile n).vu.cacc = if c.w1.toNat / 2 ^ 27 % 2 = 1 then [] else x.cacc)

/-- R104, R142, R167: a command of the array, the block-sparse engine or the vector unit whose checks fail raises the code of its
checks and has no effect of its own. Where several checks fail the code is the lowest, as log entry 14 has it. R89: where the error
correction cannot correct a row that a command of the array, the block-sparse engine, the vector unit or the gather engine reads, the
row is withheld, a BSPASS's header row even where its bytes would fail a check (R150): the command is marked as begun and does not finish, TIL_SP_UE counts the row, no scratchpad byte changes, and the
fault 0x0550 + die of the engine, at the row, goes to curator 0. -/
def Obligations.ChecksAndBadRowsRaise : Prop :=
  (∀ (s : State) (t : TileId) (a : Active) (ecc : RowEcc) (c : Instr) (q code : Nat),
      let n := t.toNat
      let w := a.cmd
      (s.maCurrent n 1 = some a ∧ maLoadFault w = some code ∧ c = .maLoad t ecc ∧ q = 0) ∨
      (s.maCurrent n 3 = some a ∧ passFault (s.tile n).ma w = some code ∧ c = .pass t ecc ∧ q = 0) ∨
      (s.bsCurrent n 1 = some a ∧ bspassFault (s.tile n).bse.cfg w (TileHeader.read (s.spadRow n w.bspass.hdrRow)) = some code ∧
        (ecc = .clean ∨ code = 0x0128) ∧ c = .bspass t ecc ∧ q = 1) ∨
      (s.vuCurrent n 2 = some a ∧ vstrmFault w = some code ∧ c = .vstrm t ∧ q = 2) ∨
      (s.vuCurrent n 4 = some a ∧ vrunFault (s.tile n).vu w = some code ∧ c = .vrun t ecc ∧ q = 2) ∨
      (s.vuCurrent n 5 = some a ∧ vcombFault w = some code ∧ c = .vcomb t ecc ∧ q = 2) ∨
      (s.vuCurrent n 6 = some a ∧ vflushFault w = some code ∧ c = .vflush t ∧ q = 2) →
      exec c s = .next (s.raiseTile n (q + 2) code 0)) ∧
  (∀ (s : State) (t : TileId) (a : Active) (r : BitVec 13) (c : Instr) (q : Nat), s.Wf →
      let n := t.toNat
      let w := a.cmd
      (s.maCurrent n 1 = some a ∧ maLoadFault w = none ∧ c = .maLoad t (.uncorrectable r) ∧ q = 0) ∨
      (s.maCurrent n 2 = some a ∧ w.w0Ok = true ∧ w.reserved123 = true ∧ c = .swap ⟨t, .uncorrectable r⟩ ∧ q = 0) ∨
      (s.maCurrent n 3 = some a ∧ passFault (s.tile n).ma w = none ∧ c = .pass t (.uncorrectable r) ∧ q = 0) ∨
      (s.bsCurrent n 1 = some a ∧ c = .bspass t (.uncorrectable r) ∧ q = 1 ∧
        let fault := bspassFault (s.tile n).bse.cfg w (TileHeader.read (s.spadRow n w.bspass.hdrRow))
        (fault = none ∨ fault ≠ some 0x0128 ∧ r.toNat = w.bspass.hdrRow)) ∨
      (s.vuCurrent n 4 = some a ∧ vrunFault (s.tile n).vu w = none ∧ c = .vrun t (.uncorrectable r) ∧ q = 2) ∨
      (s.vuCurrent n 5 = some a ∧ vcombFault w = none ∧ c = .vcomb t (.uncorrectable r) ∧ q = 2) ∨
      (s.geCurrent n 2 = some a ∧ grunFault ((s.tile n).stream w.stream).cfg w = none ∧ c = .grun t (.uncorrectable r) ∧ q = 5) →
      ∃ u, exec c s = .next u ∧
        ((u.tile n).engine q).active = ((s.tile n).engine q).active.map (fun b => if b.seq == a.seq then { b with begun := true } else b) ∧
        u.reg (tilReg n 0x64) = s.reg (tilReg n 0x64) + 1 ∧ u.store = s.store ∧
        u.nets.causes = s.nets.causes ++ [{ polder := ownerCode (s.tileOwner n), code := 0x0550 + n / 64, kind := q + 2, unit := n, addr := r.toNat * 512 }])

/-- R193, R197, R199, R216: a DMA_LOAD or DMA_STORE whose checks hold begins: the oldest descriptor that has not begun is marked as
begun in its skew stream, and the engine holds the stream that the command leaves. A failed check raises its code instead. No memory
and no register changes at the start, but that under CONT the rows whose vectors are all there are written. R210, R211, R216: a GSTREAM whose checks hold sets its stream's configuration, sets the ring
position to 0, discards the run-ahead data and finishes. A GRUN whose checks hold starts its run: with CONT = 0 at ring position 0
without run-ahead data, from the element number that the command gives or over the list that its rows hold. -/
def Obligations.TransfersAndStreamsBegin : Prop :=
  (∀ (s : State) (t : TileId) (e : Bool) (a : Active), s.Wf →
      let n := t.toNat
      let q := if e then 4 else 3
      let held := ((s.tile n).dma q).skew
      let started := fun (c : Instr) (store : Bool) =>
        (∀ code, dmaFault held a.cmd store = some code → exec c s = .next (s.raiseEngine n q code 0)) ∧
        (dmaFault held a.cmd store = none → a.cmd.cont = true →
          ∃ u b, exec c s = .next u ∧ b ∈ ((u.tile n).engine q).active ∧ b.seq = a.seq ∧ b.begun = true ∧
            ((u.tile n).dma q).skew = nextSkew held a.cmd a.seq ∧ (∀ k, k ≠ n → u.tile k = s.tile k) ∧
            { u.store with spad := s.store.spad } = s.store) ∧
        (dmaFault held a.cmd store = none → a.cmd.cont = false →
          ∃ u, exec c s = .next u ∧
            (∃ stream lo, ((u.tile n).engine q).active = ((s.tile n).engine q).active.map (fun b =>
              if b.seq == a.seq then { b with begun := true, stream := stream, rowLo := lo } else b)) ∧
            ((u.tile n).dma q).skew = nextSkew held a.cmd a.seq ∧
            (∀ k, k ≠ n → u.tile k = s.tile k) ∧ { u with tiles := s.tiles } = s)
      (s.dmaCurrent n q 1 = some a → started (.dmaLoad t e) false) ∧
      (s.dmaCurrent n q 2 = some a → started (.dmaStore t e) true)) ∧
  (∀ (s : State) (t : TileId) (a : Active), s.Wf →
      let n := t.toNat
      let c := a.cmd
      let r := c.grun
      let g := (s.tile n).stream c.stream
      (s.geCurrent n 1 = some a → gstreamFault c = none →
        ∃ u, exec (.gstream t) s = .next u ∧
          (u.tile n).stream c.stream = { g with cfg := some c.gconfig, pos := 0, past := none, ra := [] } ∧
          (∀ i, i ≠ c.stream → (u.tile n).stream i = (s.tile n).stream i) ∧
          (u.tile n).engine 5 = ((s.tile n).engine 5).modActive a.seq (fun b => { b with finished := true }) ∧
          u.store = s.store) ∧
      (∀ k, s.geCurrent n 2 = some a → grunFault g.cfg c = none → g.cfg = some k → r.cont = false →
        ∃ u run, exec (.grun t .clean) s = .next u ∧
          (u.tile n).stream c.stream = { g with
            pos := r.count, past := none, ra := [], run := some run,
            lastX := if k.indexed then run.idx.getLast?.map (·.toNat) else some (r.start + r.count - 1) } ∧
          run.count = r.count ∧ run.startPos = 0 ∧ run.issued = 0 ∧ run.written = 0 ∧
          (k.indexed = false → run.start = r.start) ∧ (k.indexed = true → run.idx = s.indexList n r.idxRow r.count) ∧
          (∀ i, i ≠ c.stream → (u.tile n).stream i = (s.tile n).stream i) ∧ u.store = s.store))

/-! ### Memories and requests (R169 to R191) -/

/-- R90, R91, R175 to R177, R196: where a descriptor of a DMA engine has a request to send and a slot is free, REQUEST_ISSUE gives it
the next number and one slot, and the descriptor moves on; an address that the engine's buffer holds starts on the fixed route to its
target, a miss waits for a walk, and an address that fails translation is lost. Without a free slot the request waits. R174, R177: the
oldest outstanding walk of a die is answered: the walk is counted, and its entry, from the walk cache or else from the table, sends the
request on the route to the entry's target or loses it with the entry's fault code. R178: a walk that was in flight when an edit dropped
its range answers with the entry as it was. R21, R222 to R226: in its turn a message crosses the next seam of its way, which has credits
for its flits and counts them, and waits at the far die; a seam out of service or without credits holds it where it is. -/
def Obligations.RequestsIssueAndTranslate : Prop :=
  (∀ (s : State) (t : TileId) (q : BitVec 3) (stream : BitVec 2) (ecc : RowEcc) (a : Active) (need : Need), s.Wf →
      let n := t.toNat
      let e := (s.tile n).engine q.toNat
      let id := s.store.nextReq
      (q = 3 ∨ q = 4) → s.tileLive n = true → e.frozen = false → e.issuing = some a →
      a.need (if a.cmd.opcode = 2 then (if a.off = 0 then s.storeBytes n a.cmd a.item else a.itemGot a.item) else []) = some need →
      (s.slotFree n q.toNat = false → exec (.requestIssue t q stream ecc) s = .next (s.waitSlot n q.toNat)) ∧
      (s.slotFree n q.toNat = true → (∀ r, ecc ≠ .uncorrectable r) → s.hostUnordered n need = false → s.masterOff n need = false →
        ∃ u r, exec (.requestIssue t q stream ecc) s = .next u ∧
          u.store.reqs = s.store.reqs ++ [r] ∧ u.store.nextReq = id + 1 ∧
          r.id = id ∧ r.tile = n ∧ r.q = q.toNat ∧ r.seq = a.seq ∧ r.va = need.va ∧ r.len = need.len ∧ r.isWrite = need.isWrite ∧
          r.data = need.data ∧
          (∀ x, s.engineXl n q.toNat 0 need.va need.len need.isWrite = .hit x →
            r.tgt = some x ∧ r.stage = .routed ∧ r.die = n / 64 ∧ r.path = fixedRoute (n / 64) x.die) ∧
          (s.engineXl n q.toNat 0 need.va need.len need.isWrite = .miss → r.tgt = none ∧ r.stage = .walking) ∧
          (∀ code, s.engineXl n q.toNat 0 need.va need.len need.isWrite = .fault code → r.tgt = none ∧ r.stage = .lost) ∧
          u.store.hbm = s.store.hbm ∧ u.store.depot = s.store.depot ∧ u.store.col = s.store.col ∧ u.store.spad = s.store.spad)) ∧
  (∀ (s : State) (req w : Nat) (r : Req) (ecc : Ecc), s.Wf → ecc ≠ .uncorrectable →
      let die := dieOfTile r.tile
      let i := pageIndex w r.va
      s.findReq req = some r → r.stage = .walking → s.tileLive r.tile = true → windowOf r.va = some w → w ≠ 2 →
      s.store.reqs.find? (fun x => x.stage == .walking && dieOfTile x.tile == die) = some r →
      let entry := match r.stale, (s.walkCache die).find? (walkMatch r.polder w i) with
        | some e, _ => e.toNat
        | none, some c => c.entry.toNat
        | none, none => s.tableEntry die (s.xlBase r.polder w + i)
      ∃ u, exec (.tableWalk req ecc) s = .next u ∧
        u.reg64 (pldReg r.polder 0x240) = (s.reg64 (pldReg r.polder 0x240) + 1) % 2 ^ 64 ∧
        (∀ x, entryTarget entry r.va r.isWrite = .at_ x →
          u.findReq req = some { r with
            tgt := some x, stage := .routed, die := die, via := none, path := fixedRoute die x.die, arrived := s.store.arrivals
            arrivedNc := (s.now (ncDom die)).toNat }) ∧
        (∀ code, entryTarget entry r.va r.isWrite = .fault code →
          u.findReq req = some { r with stage := .lost, via := none, path := [] }) ∧
        (r.stale.isSome = true → u.store.walkers = s.store.walkers) ∧
        u.store.hbm = s.store.hbm ∧ u.store.tabD0 = s.store.tabD0 ∧ u.store.tabD4 = s.store.tabD4) ∧
  (∀ (s : State) (req n : Nat) (rest : List Nat) (r : Req) (ecc : Ecc), s.Wf →
      s.findReq req = some r → r.path = n :: rest → s.tileLive r.tile = true →
      let far := seamFar n r.die
      let chan := semPage n r.die + 0x050 + 8 * s.reqChan r
      ∃ u, exec (.memoryAccess req ecc) s = .next u ∧
        (s.isTurn r = true → s.seamUp n = true →
          u.reg64 chan = (s.reg64 chan + r.flits) % 2 ^ 64 ∧
          ∃ y, u.findReq req = some y ∧ y.die = far ∧ y.path = rest ∧ y.data = r.data ∧
            y.stage = if r.stage = .routed ∧ rest = [] ∧ (∃ x, r.tgt = some x ∧ x.space = .host) then .hostWait else r.stage) ∧
        (s.seamUp n = false ∨ s.hasCredit r n = false ∨ s.isTurn r = false → u.store = s.store))

/-- R181, R185, R186, R207, R226: a read that has come to an HBM, depot or collection target without merging and whose turn it is there
takes the bytes there on its way back; a write to an unmarked frame stores its bytes there, and every byte of any memory outside them
stays; a read that meets an uncorrectable error is lost. R182: a merged read of the collection joins the open entry of each row that it
touches, or in its turn opens one where the bank has room, and waits. Sixteen nc after an entry opened, MERGE_WINDOW_CLOSE removes it
and gives its row to each reader that it holds; a reader that no other entry holds and that the seams in service reach is then served.
R284, R285: in its turn a reduction adder adds the words of an accumulate write to its unit, with the unit's words taken as zero where
its EPOCH differs from the polder's: only the unit's first 0x304 bytes change. -/
def Obligations.TargetsServeMergeAndAccumulate : Prop :=
  (∀ (s : State) (req : Nat) (r : Req) (x : Target) (ecc : Ecc), s.Wf →
      s.findReq req = some r → r.stage = .routed → r.path = [] → r.tgt = some x → x.space ≠ .host → s.isTurn r = true →
      let answered := fun (u : State) (data : List Byte) => u.findReq req = some { r with
        data := data, stage := .served, die := x.die, via := none, path := fixedRoute x.die (dieOfTile r.tile)
        arrived := s.store.arrivals, arrivedNc := (s.now (ncDom x.die)).toNat }
      (r.isWrite = false → r.merge = false → ecc ≠ .uncorrectable →
        ∃ u, exec (.memoryAccess req ecc) s = .next u ∧ answered u (s.memRead x r.len) ∧
          (ecc = .corrected → u.reg64 (x.page + 0x040) = (s.reg64 (x.page + 0x040) + 1) % 2 ^ 64) ∧
          ∀ y k, u.memRead y k = s.memRead y k) ∧
      (r.isWrite = true → s.accumulates x = false →
        ∃ u, exec (.memoryAccess req ecc) s = .next u ∧ answered u r.data ∧ u.memRead x r.data.length = r.data ∧
          ∀ y k, y.space ≠ x.space ∨ y.key + k ≤ x.key ∨ x.key + r.data.length ≤ y.key → u.memRead y k = s.memRead y k) ∧
      (r.isWrite = false → r.merge = false →
        ∃ u, exec (.memoryAccess req .uncorrectable) s = .next u ∧
          u.findReq req = some { r with stage := .lost, via := none, path := [] } ∧
          u.reg (x.page + 0x058) = s.reg (x.page + 0x058) + 1 ∧
          u.nets.causes = s.nets.causes ++ [{ polder := r.polder, code := x.errorCode, kind := r.q + 2, unit := r.tile, addr := x.off }])) ∧
  (∀ (s : State), s.Wf →
      (∀ req r x, s.findReq req = some r → r.stage = .routed → r.path = [] → r.tgt = some x → r.isWrite = false → r.merges x = true →
        s.opens r x = [] ∨ s.isTurn r = true ∧ s.mergesFull r x = false →
        ∃ u, exec (.memoryAccess req .clean) s = .next u ∧
          u.findReq req = some { r with stage := .merging, via := none, data := List.replicate r.len 0 } ∧
          ∀ b ∈ x.rows r.len, ∃ m ∈ u.store.merges, m.is x.dev b.1 b.2 = true ∧ req ∈ m.joined) ∧
      (∀ (die : BitVec 2) (bank : BitVec 6) (row : BitVec 12) m,
        s.store.merges.find? (fun m => m.is die.toNat bank.toNat row.toNat) = some m →
        16 ≤ (s.now (ncDom die.toNat) - m.opened).toNat →
        ∃ u, exec (.mergeWindowClose die bank row) s = .next u ∧
          u.store.merges = s.store.merges.filter (fun e => e != m) ∧
          (m.spoilt = false → ∀ req r x, m.joined = [req] → s.findReq req = some r → r.tgt = some x → r.stage ≠ .lost →
            (∀ e ∈ s.store.merges, e ≠ m → req ∉ e.joined) → s.routeUp die.toNat (dieOfTile r.tile) = true →
            u.findReq req = some { r with
              data := spliceRow r x m.data m.bank m.row, stage := .served, die := dieOfTile r.tile, path := [] }) ∧
          u.store.col = s.store.col)) ∧
  (∀ (s : State) (req : Nat) (r : Req) (x : Target), s.Wf →
      s.findReq req = some r → r.stage = .routed → r.path = [] → r.tgt = some x → r.isWrite = true → s.accumulates x = true →
      s.accForm r = true → s.isTurn r = true → (s.pld r.polder).train.phase = .slots →
      let unit : Target := { x with off := x.off / 1024 * 1024 }
      let cs := (List.range (r.len / 8)).map (fun i => (toSigned 64 (peek r.data (8 * i) 8), (0 : Int)))
      let sum := ((Unit64.read (s.memRead unit 1024)).current (s.epoch r.polder)).accumulate (x.off % 1024 / 8) cs
      ∃ u, exec (.accumulateWrite req .clean) s = .next u ∧
        (∃ y, u.findReq req = some y ∧ y.stage = .served ∧ y.data = r.data ∧ y.path = fixedRoute x.die (dieOfTile r.tile)) ∧
        u.store.hbm = s.store.hbm.writeN unit.key sum.1.bytes ∧
        u.store.depot = s.store.depot ∧ u.store.col = s.store.col ∧ u.store.spad = s.store.spad)

/-- R90, R195, R197, R207: a served request whose response arrives leaves its slot. A write that is acknowledged counts its bytes; a
read that brings a whole item of a row descriptor writes the item's row at its place in the ring, filled with zeros. -/
def Obligations.ResponsesReachTheirEngine : Prop :=
  ∀ (s : State) (req : Nat) (r : Req) (a : Active), s.Wf →
    let e := (s.tile r.tile).engine r.q
    s.findReq req = some r → r.stage = .served → r.path = [] → (r.q = 3 ∨ r.q = 4) → s.tileLive r.tile = true → e.frozen = false →
    e.active.find? (fun b => b.seq == r.seq) = some a →
    ∃ u, exec (.responseArrival req) s = .next u ∧
      u.store.reqs = s.store.reqs.filter (fun x => x.id != req) ∧
      (r.isWrite = true →
        let count := dmaReg r.tile (if r.q = 3 then 0x14 else 0x54)
        u.reg64 count = (s.reg64 count + r.data.length) % 2 ^ 64 ∧ u.store.spad = s.store.spad) ∧
      (r.isWrite = false → a.cmd.xform = 0 → r.key % 2 ^ 20 = 0 → a.itemGot (r.key / 2 ^ 20) = [] →
        r.data.length = a.cmd.unitBytes → 
        u.store.spad = s.store.spad.writeN (spadKey r.tile (a.cmd.ringRow (r.key / 2 ^ 20 * a.cmd.sstep)) 0) (padTo 0 512 r.data))

/-- R187: where a memory has delivered the bytes of a seepage window, CE_WIN takes the corrected errors that the window counted and the
count starts again at 0. R178, R415: the edit of a polder's host window completes once no request holds a translation that it dropped:
the pending edit ends, PLD_XL_GEN counts it, and the request that asked for it is answered with code 0. -/
def Obligations.SeepageAndEditsClose : Prop :=
  (∀ (s : State) (unit : SeepUnit), s.Wf →
      let w := seepPlace unit
      2 ^ ((s.reg (w.1 + 0x050)).toNat % 64) ≤ Table.get 0 s.store.readBytes w.2 →
      ∃ u, exec (.seepageWindowClose unit) s = .next u ∧
        u.reg (w.1 + 0x048) = s.reg (w.1 + 0x04C) ∧ u.reg (w.1 + 0x04C) = 0 ∧
        { u.store with readBytes := s.store.readBytes } = s.store) ∧
  (∀ (s : State) (p : PolderId) (c first count : Nat), s.Wf →
      let x := s.pld p.toNat
      x.editChannel = some c → x.editRange = some (first, count) →
      (∀ r ∈ s.store.reqs, r.polder = p.toNat → r.tgt.isSome = true ∨ r.stale.isSome = true → r.stage ≠ .lost →
        r.va < 2 ^ 46 + first * 2 ^ 21 ∨ 2 ^ 46 + (first + count) * 2 ^ 21 ≤ r.va) →
      (s.chan c).state = .busy → (s.chan c).reply = none →
      ∃ u, exec (.translationEditComplete p) s = .next u ∧
        u.pld p.toNat = { x with editChannel := none, editRange := none } ∧
        u.reg (pldReg p.toNat 0x218) = s.reg (pldReg p.toNat 0x218) + 1 ∧
        (u.chan c).reply = some { code := 0, body := (s.chan c).request.take 2 ++ [0, 0] })

/-! ### The part: seams, failures, power and temperature (R18 to R31, R225 to R231, R433 to R448) -/

/-- R28, R31, R225, R230, R231: a flit of an active seam that fails is replayed and counted, and its eighth failure in a row, or a lane
lost beyond retry, takes the seam out of ACTIVE; with its 64 spare lanes of that direction used, the seam and the part fail. A seam in
training becomes active where training passes and no lost lane awaits a spare, and otherwise fails and the part with it: in bring-up
with CAUSE 0x0B10 plus the seam, and no die is lost by it (R459). R28, R31: a stack or depot controller that
stops fails the part with its code. A heartbeat that arrives restarts the count of the die that receives it; after 1 200 000 cc without
one S0 takes S1 for lost, which fails the part, clears S1's bit of DIE_UP and takes S1's ports down, and S1 takes S0 for lost, which
ends the link to the host and takes every port down. Every resident polder is torn down as the part fails. -/
def Obligations.SeamsControllersAndHeartbeats : Prop :=
  (∀ (s : State) (seam : SeamId) (dir : Bool) (flit : BitVec 6) (lane : BitVec 11), s.Wf →
      let n := seam.toNat
      let x := s.seam n
      let pg := semPage n (if dir then (seamDies n).2 else (seamDies n).1)
      let run := if flit.toNat = (if dir then x.flit1 else x.flit0) then (if dir then x.run1 else x.run0) + 1 else 1
      let used := if dir then x.used1 else x.used0
      (x.state = .active →
        ∃ u, exec (.seamCrcError seam ⟨dir, flit⟩) s = .next u ∧ u.reg (pg + 0x048) = s.reg (pg + 0x048) + 1 ∧
          (run ≠ 8 → u.seam n = (if dir then { x with run1 := run, flit1 := flit.toNat } else { x with run0 := run, flit0 := flit.toNat }) ∧
            (∀ k, k ≠ n → u.seam k = s.seam k)) ∧
          (run = 8 → (u.seam n).state ≠ .active ∧
            (64 ≤ used → (u.seam n).state = .failed ∧ (u.seam n).cause = 2 ∧ u.boot.part = .failed))) ∧
      (x.state = .active → lane.toNat < 1664 →
        ∃ u, exec (.seamLaneLoss seam dir lane) s = .next u ∧ (u.seam n).state ≠ .active ∧
          lane.toNat ∈ (if dir then (u.seam n).lost1 else (u.seam n).lost0) ∧
          (64 ≤ used → (u.seam n).state = .failed ∧ (u.seam n).cause = 1 ∧ u.boot.part = .failed)) ∧
      (x.state = .training →
        (x.lost0 = [] → x.lost1 = [] →
          ∃ u, exec (.seamTraining seam true) s = .next u ∧ u.seam n = { x with state := .active, run0 := 0, run1 := 0 } ∧
            { u with seams := s.seams } = s) ∧
        (∀ ok, ok = false ∨ x.lost0 ≠ [] ∨ x.lost1 ≠ [] →
          ∃ u, exec (.seamTraining seam ok) s = .next u ∧ (u.seam n).state = .failed ∧ u.boot.part = .failed ∧
            (s.boot.part = .bringUp → s.boot.stage < 2 → s.boot.trained = false → u.boot.cause = 0x0B10 + n ∧ u.boot.dieUp = s.boot.dieUp)))) ∧
  (∀ (s : State) (n : Fin 12), s.Wf →
      let failed := fun (u : State) (code : Nat) => u.boot.part = .failed ∧ u.boot.cause = code ∧
        ∀ p, p < 16 → (s.pld p).state.resident = true → (u.pld p).state = .clearing ∧ ∃ c, (u.pld p).cause = some c ∧ c.code = code
      let down := fun (u : State) (lo : Nat) => ∀ k, lo ≤ k → k < 16 → (u.port k).state = if (s.port k).state = .off then .off else .down
      s.boot.part = .operational →
      (bitAt s.boot.dieUp (n.val / 3) = true →
        ∃ u, exec (.memoryControllerFailure false n) s = .next u ∧ failed u (0x0500 + n.val)) ∧
      (n.val < 8 → bitAt s.boot.dieUp (4 + n.val / 4) = true →
        ∃ u, exec (.memoryControllerFailure true n) s = .next u ∧ failed u (0x0510 + n.val)) ∧
      (s.reaches 5 4 = true →
        exec (.heartbeat true) s = .next ((s.controlCrosses 5 4 1).modBoot (fun b => { b with beat0 := s.now 0x60 })) ∧
        exec (.heartbeat false) s = .next ((s.controlCrosses 4 5 1).modBoot (fun b => { b with beat1 := s.now 0x61 }))) ∧
      (bitAt s.boot.dieUp 5 = true → s.boot.s0Lost = false →
        (1200000 ≤ (s.now 0x60 - s.boot.beat0).toNat →
          ∃ u, exec (.heartbeatTimeout true) s = .next u ∧ failed u 0x0B36 ∧ bitAt u.boot.dieUp 5 = false ∧ down u 8) ∧
        (1200000 ≤ (s.now 0x61 - s.boot.beat1).toNat →
          ∃ u, exec (.heartbeatTimeout false) s = .next u ∧ u.boot.s0Lost = true ∧ u.boot.s0On = false ∧ u.hif.linkUp = false ∧ down u 0)))

/-- R432, R434 to R437, R446, R451: a die's power request falls below the step that it ran at where a window's average exceeds the declared
power, and rises by one after sixteen windows below nine tenths of it; its thermal request falls and rises with the estimates, and where
both fall at one edge they fall from one step; a step below the running one takes effect at once, and a rise by one step at a time, 6 400 nc
after the voltage. An edge that comes within 3 cycles of its time leaves a near-boundary bit. PWR_TEMP holds the highest estimate. R436, R447, R448: a die at 115 °C fails the part
with 0x0C01 and holds every F-die at the floor; a regulator fault holds its die at the floor and, with an output left, raises 0x0C02
for each resident polder with rows on the die. PWR_CAP takes a cap from 1 000 W to 3 000 W that leaves 952 W above the resident
polders' declared power, and is ignored otherwise. R443 to R445: an edge of THROTTLE_N restarts the filter; the pin is taken as
asserted after 1 200 cc low and as released after 1 200 cc high, an unstable pin after 12 000 cc at one level. Acceptance counts one
assertion and takes every F-die to the floor. While it is asserted each period that PWR_THR_RPT gives counts one report, and a period of 0
counts one at the acceptance (log entry 146). -/
def Obligations.PowerTemperatureAndThrottle : Prop :=
  (∀ (s : State) (die : BitVec 2) (mw : Word) (hot shore stack : Int), s.Wf →
      let d := die.toNat
      let x := s.die d
      let limit := s.dieLimit d * 1000
      let e := hot + s.thermalOffset d
      let es := shore + s.thermalOffset (4 + d / 2)
      let ran := fun (edge : Nat) => if x.edge = edge then x.ran else x.step
      (bitAt s.boot.dieUp d = true → (x.windows + 1) * 4096 ≤ (s.now (ncDom d)).toNat →
        ∃ u, exec (.powerWindow die mw) s = .next u ∧
          u.reg (pwrPage d + 0x04C) = mw ∧
          (u.die d).windows = x.windows + 1 ∧ (u.die d).energy = x.energy + mw.toNat ∧
          (u.die d).powerNear = closeTo (s.now (ncDom d)) (BitVec.ofNat 64 ((x.windows + 1) * 4096)) ∧
          (u.die d).power = (if limit < mw.toNat then ran (x.windows + 1) - 1
            else if mw.toNat * 10 < limit * 9 ∧ x.below = 15 then min 7 (x.power + 1) else x.power) ∧
          (u.die d).step = min x.step (u.wanted d)) ∧
      (bitAt s.boot.dieUp d = true → (x.thermals + 1) * 131072 ≤ (s.now (ncDom d)).toNat →
        ∃ u, exec (.thermalEvaluation die hot shore stack) s = .next u ∧
          (u.die d).thermals = x.thermals + 1 ∧ (u.die d).hot = e ∧ (x.hottest = none → (u.die d).hottest = some e) ∧
          (∀ h, x.hottest = some h → (u.die d).hottest = some (max e h)) ∧
          (u.die d).thermalNear = closeTo (s.now (ncDom d)) (BitVec.ofNat 64 ((x.thermals + 1) * 32 * 4096)) ∧
          (u.die d).thermal = (if 800 ≤ e ∨ 800 ≤ es ∨ 760 ≤ stack then ran ((x.thermals + 1) * 32) - 1
            else if e ≤ 776 ∧ es ≤ 776 ∧ stack < 736 then min 7 (x.thermal + 1) else x.thermal) ∧
          (u.die d).step = min x.step (u.wanted d)) ∧
      (x.upDue = true → 6400 ≤ (s.now (ncDom d) - x.upNc).toNat → x.step + 1 ≤ s.wanted d →
        ∃ u, exec (.acStepUp die) s = .next u ∧ (u.die d).step = x.step + 1 ∧
          (u.die d).upDue = decide (x.step + 1 < s.wanted d) ∧ ∀ k, k ≠ d → u.die k = s.die k)) ∧
  (∀ (s : State) (die : Fin 6) (f : BitVec 2) (hot : Int) (value : Word), s.Wf →
      let cap := value.toNat % 2 ^ 12
      let a := pwrPage 4 + 0x064
      (s.board.thermtrip = false → s.board.vaux = true → s.board.vin = true → 920 ≤ hot + s.thermalOffset die.val → s.boot.part ≠ .failed →
        ∃ u, exec (.thermtrip die hot) s = .next u ∧ u.board.thermtrip = true ∧ u.boot.part = .failed ∧ u.boot.cause = 0x0C01 ∧
          ∀ d, d < 4 → (u.die d).step = 0) ∧
      (bitAt s.boot.dieUp f.toNat = true →
        ∃ u, exec (.regulatorFault f false) s = .next u ∧ (u.die f.toNat).regFault = true ∧ (u.die f.toNat).step = 0 ∧
          u.nets.causes = s.nets.causes ++ ((List.range 16).filter (fun p =>
            (s.pld p).state.resident && (s.pld p).rows.any (fun r => r / 8 == f.toNat))).map (fun p =>
              { polder := p, code := 0x0C02, kind := 0, unit := 0xFFFF, addr := 0 })) ∧
      (s.boot.s0On = true →
        ∃ u, exec (.pwrCap value) s = .next u ∧ u.answer = .written ∧
          u.reg a = if 1000 ≤ cap ∧ cap ≤ 3000 ∧ s.loadPoint ≤ cap - 952 then BitVec.ofNat 32 cap else s.reg a)) ∧
  (∀ (s : State) (level : Bool) (last : Dword), s.Wf →
      let b := s.board
      let quiet := fun (n : Nat) => b.edges.getLast? = some last ∧ n ≤ (s.cc - last).toNat
      let taken := fun (u : State) => u.board.throttled = true ∧ u.board.acceptCc = s.cc ∧
        u.reg (pwrPage 4 + 0x06C) = s.reg (pwrPage 4 + 0x06C) + 1 ∧
        u.reg (pwrPage 4 + 0x070) = s.reg (pwrPage 4 + 0x070) + (if (s.reg (pwrPage 4 + 0x068)).toNat % 2 ^ 16 = 0 then 1 else 0) ∧ ∀ d, d < 4 → (u.die d).step = 0
      (b.throttleLow = level → b.edges.length < 2 →
        exec (.throttleNEdge level) s = .next (s.modBoard (fun b => { b with throttleLow := !level, edges := b.edges ++ [s.cc], throttleNear := b.edgeNear s.cc }))) ∧
      (∀ e f, b.throttleLow = level → b.edges = [e, f] → (s.cc - e).toNat ≤ 2400 → b.throttled = false →
        ∃ u, exec (.throttleNEdge level) s = .next u ∧ u.board.unstable = true ∧ taken u) ∧
      (b.throttleLow = true → b.unstable = false → b.throttled = false → quiet 1200 →
        ∃ u, exec .throttleAccept s = .next u ∧ taken u) ∧
      (b.throttleLow = false → b.unstable = false → b.throttled = true → quiet 1200 →
        ∃ u, exec .throttleRelease s = .next u ∧ u.board.throttled = false) ∧
      (b.unstable = true → quiet 12000 →
        ∃ u, exec .throttleStable s = .next u ∧ u.board.unstable = false ∧ u.board.throttled = (if b.throttleLow then b.throttled else false)) ∧
      (let per := (s.reg (pwrPage 4 + 0x068)).toNat % 2 ^ 16 * 1200000
       let due := (b.reported / per + 1) * per
       b.throttled = true → per ≠ 0 → due ≤ (s.cc - b.acceptCc).toNat →
        ∃ u, exec .throttleHeldReport s = .next u ∧ u.board.reported = due ∧
          u.reg (pwrPage 4 + 0x070) = s.reg (pwrPage 4 + 0x070) + 1))

/-! ### Start-up and trust (R452 to R463) -/

/-- R454 to R457: STG_BEGIN begins at offset 0 of bank 0, or of the bank that is not active while firmware runs; a chunk in
receiving adds its bytes at the offset, and is ignored and counted otherwise; STG_COMMIT starts verification. An image whose
checks all pass is verified: awaiting an image it takes effect at once, extending MR1 with D and setting MR2 to D, and while
firmware runs it waits in its bank; a failed part does not leave that state by it. The first check that fails, or a chunk beyond 16 MiB, rejects the image with its REASON
and discards the bank. That an ignored chunk takes in a LEN out of range is the model's choice (log entry 30). -/
def Obligations.ImagesAreStagedAndVerified : Prop :=
  ∀ (s : State) (len : BitVec 15) (data : List Byte), s.Wf → s.boot.s0On = true → s.hif.linkUp = true →
    let b := s.boot
    let n := len.toNat
    let ok := b.stg = 1 ∧ b.warm = false ∧ 64 ≤ n ∧ n ≤ 16384 ∧ n % 64 = 0
    let img := b.image b.bank
    let size := peek img 8 4
    let key := (img.drop 0x100).take 1312
    let d := sha3 (img.take (size - 2420))
    let checks : List (Nat × Bool) := [
      (1, peek img 0 4 == 0x574D4946 && peek img 4 2 == 1 && peek img 6 1 == 0xA1 &&
        ((img.drop 7).take 1 ++ (img.drop 0x18).take 0xE8).all (· == 0)),
      (2, decide (size ≤ 2 ^ 24) && b.offset == size), (3, sha3 key == Config.fuseFirmwareKey),
      (4, mldsaVerify key d ((img.drop (size - 2420)).take 2420)), (5, decide (b.svnMin ≤ peek img 0x0C 2)),
      (6, peek img 0x0E 2 == 0x0A01)]
    let failed := checks.find? (fun c => !c.2)
    let irq := rotPage + 0x010
    let rejected := fun (u : State) (reason : Nat) => u.boot.stg = 4 ∧ u.boot.reason = reason ∧ u.boot.offset = 0 ∧
      u.boot.image b.bank = [] ∧ u.boot.part = b.part ∧ u.boot.active = b.active ∧ u.reg irq = s.reg irq ||| 2 ∧ u.polders = s.polders
    (∃ u, exec .stgBegin s = .next u ∧ u.boot.stg = 1 ∧ u.boot.offset = 0 ∧ u.boot.bank = (if 4 ≤ b.boot then 1 - b.active else 0) ∧
      u.boot.active = b.active ∧ { u with boot := b } = s) ∧
    (ok → b.offset + n ≤ 2 ^ 24 →
      ∃ u, exec (.stgChunk len data) s = .next u ∧ u.boot.stg = 1 ∧ u.boot.offset = b.offset + n ∧
        u.boot.image b.bank = img.take b.offset ++ padTo 0 n data ∧ (b.bank = 0 → u.boot.image1 = b.image1) ∧
        (b.bank ≠ 0 → u.boot.image0 = b.image0) ∧ { u with boot := b } = s) ∧
    (ok → 2 ^ 24 < b.offset + n → ∃ u, exec (.stgChunk len data) s = .next u ∧ rejected u 8) ∧
    (¬ ok → ∃ u, exec (.stgChunk len data) s = .next u ∧ u.boot = b ∧
      (u.reg (rotPage + 0x01C)).toNat = min (2 ^ 32 - 1) ((s.reg (rotPage + 0x01C)).toNat + 1)) ∧
    (b.stg = 1 → ∃ u, exec .stgCommit s = .next u ∧ u.boot = { b with stg := 2, boot := if b.boot = 2 then 3 else b.boot } ∧
      { u with boot := b } = s) ∧
    (b.stg = 2 →
      (∀ c, failed = some c → ∃ u, exec .imageVerification s = .next u ∧ rejected u c.1) ∧
      (failed = none → b.part ≠ .failed → b.boot = 3 → ∃ u, exec .imageVerification s = .next u ∧ u.boot.stg = 3 ∧ u.boot.active = b.bank ∧
        u.boot.start0 = some (BitVec.ofNat 32 (peek img 0x10 4)) ∧
        u.boot.part = .bringUp ∧ u.boot.boot = 4 ∧ u.boot.mr1 = extend b.mr1 d ∧ u.boot.mr2 = d ∧ u.boot.svnRun = peek img 0x0C 2 ∧
        u.boot.mr0 = b.mr0 ∧ u.boot.mr3 = b.mr3 ∧ u.boot.mr4 = b.mr4 ∧ u.reg irq = s.reg irq ||| 1) ∧
      (failed = none → b.part ≠ .failed → b.boot ≠ 3 →
        ∃ u, exec .imageVerification s = .next u ∧ u.boot = { b with stg := 3, otherVerified := true } ∧ u.reg irq = s.reg irq ||| 1) ∧
      (failed = none → b.part = .failed →
        ∃ u, exec .imageVerification s = .next u ∧ u.boot = { b with stg := 3 } ∧ u.reg irq = s.reg irq ||| 1))

/-- R459 to R461: bring-up runs its steps in order: it powers the dies at the floor, trains the seams in the order 4, 5, 0, 2, 1,
3, 6, 7, where a lane that awaits a spare takes one first (R475), copies the image over seams 4, 2 and 6, cross-checks it and starts
curators 2 and 3 at ENTRY_S1, trains H0 to H11 and then D0 to D7 one at a time (R440), zeroes the translation tables and builds the pool without the
frames that the record retires, and ends with MR4, a boot entry and STATE operational. A lost die or a memory that fails training
fails the part; a stack whose TSV lane fails takes a repair lane first, as many as it has (R475; their number is a free value). A
failed cross-check returns to awaiting an image, or in a warm restart to the old image, with REASON 0x7. That the power and thermal
requests start at the top step and that the copy counts on the control channels are the model's choices (log entries 23 and 149). -/
def Obligations.BringUpRunsItsSteps : Prop :=
  ∀ (s : State), s.Wf → s.boot.part = .bringUp →
    let b := s.boot
    let order := [4, 5, 0, 2, 1, 3, 6, 7]
    let irq := rotPage + 0x010
    (b.stage = 0 → ∃ u, exec (.bringUp .ok) s = .next u ∧ u.boot.stage = 1 ∧ u.boot.dieUp = 0x3F ∧
      (∀ d, d < 4 → (u.die d).step = 0 ∧ (u.die d).power = 7 ∧ (u.die d).thermal = 7) ∧ u.boot.part = .bringUp) ∧
    (∀ d : Fin 6, b.stage = 0 → d.val ≠ 4 → ∃ u, exec (.bringUp (.dieLost d)) s = .next u ∧ u.boot.part = .failed ∧
      u.boot.cause = 0x0B30 + lowestSeam d.val ∧ bitAt u.boot.dieUp d.val = false) ∧
    (b.stage = 1 → (∀ n ∈ order, (s.seam n).state ≠ .training) →
      (∀ before n after, order = before ++ n :: after → (∀ k ∈ before, (s.seam k).state = .active) → (s.seam n).state ≠ .active →
        ∃ u, exec (.bringUp .ok) s = .next u ∧ (u.seam n).state = .training ∧ (∀ k, k ≠ n → u.seam k = s.seam k) ∧ u.boot.stage = 1 ∧
          ((s.seam n).lost0 = [] → (s.seam n).lost1 = [] → u.seam n = { s.seam n with state := .training } ∧ u.boot = b) ∧
          (∀ lane, (s.seam n).lost0 = [lane] → (s.seam n).used0 < 64 → (s.seam n).lost1 = [] →
            (u.seam n).lost0 = [] ∧ (u.seam n).used0 = (s.seam n).used0 + 1)) ∧
      ((∀ n ∈ order, (s.seam n).state = .active) →
        ∃ u, exec (.bringUp .ok) s = .next u ∧ u.boot = { b with stage := 2, trained := true, beat0 := s.now 0x60, beat1 := s.now 0x61 } ∧
          { u with boot := b } = s)) ∧
    (b.stage = 2 → (∀ n ∈ [4, 2, 6], s.seamUp n = true) →
      ∃ u, exec (.bringUp .ok) s = .next u ∧ u.boot = { b with stage := 3, copied := b.image b.active } ∧
      let flits := seamFlits (b.image b.active).length
      { u with boot := b } = s.crossSeams 4 1 flits flits [4, 2, 6]) ∧
    (b.stage = 3 → ∃ u, exec (.crossCheck true) s = .next u ∧ u.boot.xDone = true ∧ u.boot.xMatch = true ∧
      u.boot.start2 = some (BitVec.ofNat 32 (peek b.copied 0x14 4)) ∧
      u.boot.stage = (if b.warm then 5 else 4) ∧ u.boot.memories = (if b.warm then b.memories else 1) ∧ u.boot.xDigest = imageDigest b.copied ∧ { u with boot := b } = s) ∧
    (b.stage = 3 → b.warm = false → b.s0On = true → ∃ u, exec (.crossCheck false) s = .next u ∧ u.boot.part = .awaiting ∧ u.boot.boot = 2 ∧
      u.boot.dieUp = 16 ∧ u.boot.stg = 4 ∧ u.boot.reason = 7 ∧ u.boot.image b.active = [] ∧ u.tiles = [] ∧
      u.reg irq = s.reg irq ||| 4 ||| 2) ∧
    (b.stage = 3 → b.warm = true → b.otherVerified = true → ∃ u, exec (.crossCheck false) s = .next u ∧ u.boot.part = .bringUp ∧
      u.boot.active = 1 - b.active ∧ u.boot.stage = 2 ∧ u.boot.stg = 4 ∧ u.boot.reason = 7 ∧ u.boot.image b.active = [] ∧
      u.boot.mr2 = imageDigest (b.image (1 - b.active)) ∧ u.boot.otherVerified = false ∧ u.reg irq = s.reg irq ||| 4 ||| 2) ∧
    (b.stage = 4 →
      (∃ u, exec (.bringUp .ok) s = .next u ∧ { u with boot := b } = s ∧
        (b.memories < 20 → u.boot = { b with memories := b.memories + 1 }) ∧ (20 ≤ b.memories → u.boot = { b with stage := 5 })) ∧
      (∀ n, b.memories = n.val + 1 →
        ∃ u, exec (.bringUp (.hbmFails n)) s = .next u ∧ u.boot.part = .failed ∧ u.boot.cause = 0x0500 + n.val ∧
          u.boot.untrained = some n.val) ∧
      (∀ n, b.memories = 13 + n.toNat →
        ∃ u, exec (.bringUp (.depotFails n)) s = .next u ∧ u.boot.part = .failed ∧ u.boot.cause = 0x0510 + n.toNat ∧
          u.boot.untrained = some (12 + n.toNat)) ∧
      (∀ n : Fin 12, b.memories = n.val + 1 →
        let k := Table.get 0 s.spares.tsvUsed n.val
        ∃ u, exec (.bringUp (.tsvLaneFails n)) s = .next u ∧
          (k < Config.tsvLanes n.val → u.spares.tsvUsed = Table.put 0 s.spares.tsvUsed n.val (k + 1) ∧ u.boot.part = .bringUp ∧ u.boot.stage = 4) ∧
          (Config.tsvLanes n.val ≤ k → u.boot.part = .failed ∧ u.boot.cause = 0x0500 + n.val))) ∧
    (b.stage = 5 → ∃ u, exec (.bringUp .ok) s = .next u ∧ u.boot.stage = 6 ∧ u.store.tabD0 = [] ∧ u.store.tabD4 = [] ∧
      u.store.frames = [] ∧ u.store.retired = s.journal.retiredFrames ∧ u.boot.part = .bringUp) ∧
    (b.stage = 6 → 256 < s.journal.free →
      ∃ u e, exec (.bringUp .ok) s = .next u ∧ u.boot.part = .operational ∧ u.boot.boot = 5 ∧ u.boot.mboxOn = true ∧
        u.boot.mr4 = extend b.mr4 (sha3 (s.spareDigest ++ leBytes 2 s.timingRev)) ∧ u.journal.entries = s.journal.entries ++ [e] ∧
        e.kind = 3 ∧ e.vals = [leNat b.mr2, b.svnRun, s.timingRev, leNat s.spareDigest])

/-- R31, R452, R453, R462, R471, R514, R517, R520, R521, R525: a cold start clears the images, the measurement registers and the polders, keeps the
fused minimum SVN, the spares and the record, to which it adds an unclean-shutdown entry where the last power entry is not a clean
shutdown or VIN was lost in bring-up, and powers S0 where VIN is good; a rise of VAUX samples ID_SEL. A loss of VIN, VAUX or SYSCLK stops
every core domain at once and appends nothing; hc and lc count on after SYSCLK has stopped.
Undervoltage holds the F-dies at the floor and tears nothing down. That the floor ends no sooner than 1 ms after the last dip began is the
model's reading (log entry 167). -/
def Obligations.SuppliesStartAndStopThePart : Prop :=
  ∀ (s : State) (rise : PowerRise), s.Wf →
    let b := s.board
    let stopped := fun (u : State) => u.tiles = [] ∧ u.polders = [] ∧ u.conservators = [] ∧ u.nets = default ∧
      u.store = { (default : Store) with host := s.store.host } ∧ (∀ n, n < 8 → (u.seam n).state = .down) ∧ u.boot.s0On = false ∧
      u.boot.dieUp = 0 ∧ u.hif.linkUp = false ∧ u.journal = s.journal ∧ u.spares = s.spares
    let powered := fun (u : State) => u.boot.s0On = true ∧ u.boot.boot = 2 ∧ u.boot.part = .awaiting ∧ u.boot.dieUp = 16 ∧
      u.hif.linkUp = s.board.perst
    (b.vaux = false ∨ b.vin = true ∧ b.vinLost = true ∧ b.sysclkLost = false →
      ∃ u, exec (.coldStart rise) s = .next u ∧ u.board.idSel = (if b.vaux then b.idSel else rise.straps.toNat) ∧ u.boot.svnMin = s.boot.svnMin ∧ u.boot.starts = s.boot.starts + 1 ∧ u.boot.stg = 0 ∧
        u.boot.image0 = [] ∧ u.boot.image1 = [] ∧ u.tiles = [] ∧ u.polders = [] ∧ u.spares = s.spares ∧
        u.boot.mr0 = extend (extend (List.replicate 32 0) Config.romDigest) (sha3 (Config.fuseBlock s.boot.svnMin)) ∧
        (∀ m ∈ [u.boot.mr1, u.boot.mr2, u.boot.mr3, u.boot.mr4], m = List.replicate 32 0) ∧
        (s.journal.cleanTail = true → s.boot.broken = false → u.journal.entries = s.journal.entries) ∧
        (s.journal.cleanTail = false ∨ s.boot.broken = true → s.journal.used + 1 < 21824 →
          ∃ e, u.journal.entries = s.journal.entries ++ [e] ∧ e.kind = 5 ∧ e.boot = s.boot.starts + 1) ∧
        (b.vin = true → powered u) ∧ (b.vin = false → u.boot.s0On = false)) ∧
    (b.vin = false →
      ∃ u, exec .vinGood s = .next u ∧ u.board = { b with vin := true, undervoltage := false } ∧
        (b.vaux = true → b.vinLost = false → b.sysclkLost = false → s.boot.boot = 1 → powered u) ∧
        (b.vaux = false ∨ b.vinLost = true ∨ b.sysclkLost = true ∨ s.boot.boot ≠ 1 → { u with board := b } = s)) ∧
    (b.vin = true → b.vaux = true →
      ∃ u, exec .vinLoss s = .next u ∧ stopped u ∧ u.board = { b with vin := false, undervoltage := false, stoppedOn := 0, vinLost := true } ∧
        u.boot.broken = (s.boot.broken || s.boot.part == .bringUp)) ∧
    (b.vaux = true →
      (∃ u, exec .vauxLoss s = .next u ∧ stopped u ∧ u.board.vaux = false ∧ u.board.thermtrip = false ∧ u.channels = [] ∧ u.boot.boot = 0) ∧
      (b.sysclkLost = false → ∃ u, exec .sysclkLoss s = .next u ∧ stopped u ∧
        u.board = { b with sysclkLost := true, stoppedOn := s.boot.dieUp } ∧ u.running 0x60 = false ∧
        (b.pcieClkLost = false → bitAt s.boot.dieUp 4 = true → u.running 0x50 = true) ∧
        (∀ n, n < 16 → (s.port n).locked = true → bitAt s.boot.dieUp (4 + n / 8) = true → u.running (0x40 + n) = true))) ∧
    (s.boot.s0On = true →
      ∃ u, exec .vinUndervoltage s = .next u ∧ u.board = { b with undervoltage := true, dipCc := s.cc } ∧ (∀ d, d < 4 → (u.die d).step = 0) ∧
        u.reg (pwrPage 4 + 0x010) = s.reg (pwrPage 4 + 0x010) ||| 64 ∧ u.polders = s.polders ∧ u.tiles = s.tiles ∧ u.store = s.store) ∧
    (b.undervoltage = true → 1200000 ≤ (s.cc - b.dipCc).toNat →
      ∃ u, exec .undervoltageEnd s = .next u ∧ u.board = { b with undervoltage := false } ∧
        (∀ d, d < 4 → (u.die d).step = min (s.die d).step (u.wanted d)) ∧ u.polders = s.polders ∧ u.tiles = s.tiles ∧ u.store = s.store)

/-- R427, R458, R461, R463: CAT_POLICY, KEY_ADD and KEY_REMOVE are carried out outside the awaiting-image state with every polder
FREE and no LOCK, and extend MR3 with the digest of their body. RESTART runs the other bank's image where the part is operational,
every polder FREE and that image verified; SHUTDOWN returns to awaiting an image with a clean-shutdown entry. A request out of its state is answered 0x8003 and one out of form 0x8001; that
the state goes before the form, and that SHUTDOWN asks for a part that has not failed, is the model's choice (log entry 31). -/
def Obligations.SecureRequestsChangeTheirState : Prop :=
  ∀ (s : State) (c : ChannelId) (b : List Byte), s.Wf →
    let n := c.toNat
    let x := s.boot
    let free := ∀ p, p < 16 → (s.pld p).state = .free
    let answered := fun (u : State) (code : Nat) => (u.chan n).reply = some { code := code, body := [] }
    let refused := fun (u : State) (code : Nat) => answered u code ∧ u.boot = x ∧ HostIf.samePolicy u.hif s.hif ∧ u.journal = s.journal
    let slot := peek b 4 4
    (∀ (k : Instr) (op : Nat) (ok sig lock : Bool) (keys : Table (List Byte)),
      (k, op, ok, sig, lock, keys) ∈ [
        (.catPolicy c, 0x0301, formed b 8 [(4, 4)] && decide (slot < 4), bitAt slot 0, bitAt slot 1, s.hif.keys),
        (.keyAdd c, 0x0302, formed b 40 [(4, 4), (8, 32)] && decide (slot < 8), s.hif.requireSig, s.hif.lock,
          Table.put [] s.hif.keys slot ((b.drop 8).take 32)),
        (.keyRemove c, 0x0303, formed b 8 [(4, 4)] && decide (slot < 8), s.hif.requireSig, s.hif.lock, Table.put [] s.hif.keys slot [])] →
      s.request n op = some b →
      let may := x.part ≠ .awaiting ∧ free ∧ s.hif.lock = false
      ∃ u, exec k s = .next u ∧ (¬ may → refused u 0x8003) ∧ (may → ok = false → refused u 0x8001) ∧
        (may → ok = true → answered u 0 ∧ u.hif.requireSig = sig ∧ u.hif.lock = lock ∧ u.hif.keys = keys ∧
          u.boot = { x with mr3 := extend x.mr3 (sha3 b) })) ∧
    (s.request n 0x0401 = some b →
      let may := x.part = .operational ∧ free ∧ x.otherVerified = true
      let d := imageDigest (x.image (1 - x.active))
      ∃ u, exec (.restart c) s = .next u ∧ (¬ may → refused u 0x8003) ∧ (may → formed b 4 [] = false → refused u 0x8001) ∧
        (may → formed b 4 [] = true → answered u 0 ∧ u.boot.part = .bringUp ∧ u.boot.boot = 6 ∧ u.boot.active = 1 - x.active ∧
          u.boot.mr1 = extend x.mr1 d ∧ u.boot.mr2 = d ∧ u.boot.restarts = x.restarts + 1 ∧ u.boot.mboxOn = false ∧
          ∀ k, 8 ≤ k → k < 32 → (u.chan k).state = .idle)) ∧
    (s.request n 0x0402 = some b →
      let may := x.part ≠ .failed ∧ free
      ∃ u, exec (.shutdown c) s = .next u ∧ (¬ may → refused u 0x8003) ∧ (may → formed b 4 [] = false → refused u 0x8001) ∧
        (may → formed b 4 [] = true → answered u 0 ∧ u.boot.part = .awaiting ∧ u.boot.boot = (if x.s0On then 2 else 1) ∧
          u.boot.dieUp = (if x.s0On then 16 else 0) ∧ u.tiles = [] ∧
          (s.journal.used + 4 ≤ 21824 → u.journal.cleanTail = true ∧ s.journal.entries <+: u.journal.entries)))

/-- R462: SVN_COMMIT burns the fused minimum SVN up to the SVN of the running image and appends a provenance entry; it never lowers the
minimum. Where the minimum already equals or exceeds that SVN, the request returns 0x0000 and changes nothing. -/
def Obligations.SvnCommitRaisesTheMinimum : Prop :=
  ∀ (s : State) (c : ChannelId) (b : List Byte), s.Wf →
    let n := c.toNat
    let x := s.boot
    let answered := fun (u : State) (code : Nat) => (u.chan n).reply = some { code := code, body := [] } ∧
      { u with channels := s.channels, hif := s.hif, boot := s.boot, journal := s.journal, regs := s.regs } = s
    s.request n 0x0403 = some b →
    ∃ u, exec (.svnCommit c) s = .next u ∧ x.svnMin ≤ u.boot.svnMin ∧
      (x.part = .operational → formed b 4 [] = true →
        answered u 0 ∧ u.boot = { x with svnMin := max x.svnMin x.svnRun } ∧
        (x.svnRun ≤ x.svnMin → u.boot = x ∧ u.journal = s.journal ∧ u.regs = s.regs) ∧
        (x.svnMin < x.svnRun → s.journal.used < 21824 →
          ∃ e, u.journal.entries = s.journal.entries ++ [e] ∧ e.kind = 0xF ∧ e.vals = [x.svnRun])) ∧
      (x.part ≠ .operational → answered u 0x8003 ∧ u.boot = x ∧ u.journal = s.journal) ∧
      (x.part = .operational → formed b 4 [] = false → answered u 0x8001 ∧ u.boot = x ∧ u.journal = s.journal)

/-- R465, R466, R491: ATTEST keeps the report over its nonce for the channel and answers with its length of 2 692; REPORT_READ and
CERT_READ answer with up to 240 bytes from an offset below the text's length; REFURB appends the statement's entries where its
checks pass and answers with the REASON of the first that fails. Each is answered 0x8001 out of form, REFURB first of all with 0x8003 where
the part is not operational or a polder is not FREE. What the bodies of REFURB's refusals hold beside the REASON is the model's choice
(log entry 55). -/
def Obligations.SecureRequestsAnswer : Prop :=
  ∀ (s : State) (c : ChannelId) (b : List Byte), s.Wf →
    let n := c.toNat
    let answered := fun (u : State) (code : Nat) (body : List Byte) => (u.chan n).reply = some { code := code, body := body }
    let head := b.take 2 ++ [0, 0]
    let text := (s.chan n).report
    let cert := certificate (peek b 4 4)
    let piece := fun (t : List Byte) (off : Nat) => (t.drop off).take 240
    (s.request n 0x0410 = some b →
      ∃ u, exec (.attest c) s = .next u ∧ (formed b 40 [(8, 32)] = false → answered u 0x8001 head ∧ (u.chan n).report = text) ∧
        (formed b 40 [(8, 32)] = true → (u.chan n).report = s.report ((b.drop 8).take 32) ∧ answered u 0 (head ++ leBytes 4 2692))) ∧
    (s.request n 0x0411 = some b →
      let ok := formed b 8 [(4, 4)] = true ∧ peek b 4 4 < text.length
      ∃ u, exec (.reportRead c) s = .next u ∧ (¬ ok → answered u 0x8001 head) ∧
        (ok → answered u 0 (head ++ leBytes 4 (piece text (peek b 4 4)).length ++ leBytes 8 0 ++ piece text (peek b 4 4)))) ∧
    (s.request n 0x0412 = some b →
      let ok := formed b 12 [(4, 8)] = true ∧ peek b 4 4 ≤ 2 ∧ peek b 8 4 < cert.length
      ∃ u, exec (.certRead c) s = .next u ∧ (¬ ok → answered u 0x8001 head) ∧
        (ok → answered u 0 (head ++ leBytes 4 cert.length ++ leBytes 4 (piece cert (peek b 8 4)).length ++ leBytes 4 0 ++
          piece cert (peek b 8 4)))) ∧
    (∀ rd, s.request n 0x0430 = some b → (s.boot.part ≠ .operational ∨ ∃ p, p < 16 ∧ (s.pld p).state ≠ .free) →
      ∃ u, exec (.refurb c rd) s = .next u ∧ answered u 0x8003 [] ∧ u.journal = s.journal ∧ u.power = s.power) ∧
    (∀ rd, s.request n 0x0430 = some b → s.boot.part = .operational → (∀ p, p < 16 → (s.pld p).state = .free) →
      formed b 16 [(8, 8)] = false ∨ peek b 8 8 % 64 ≠ 0 →
      ∃ u, exec (.refurb c rd) s = .next u ∧ answered u 0x8001 (leBytes 8 0) ∧ u.journal = s.journal ∧ u.power = s.power) ∧
    (s.request n 0x0430 = some b → s.boot.part = .operational → (∀ p, p < 16 → (s.pld p).state = .free) →
      formed b 16 [(8, 8)] = true → peek b 8 8 % 64 = 0 →
      let m := s.hostRead (peek b 8 8) 0xFC4
      ∃ u, exec (.refurb c .success) s = .next u ∧
        (∀ r, s.statementReason m = some r → answered u 0x8001 (leBytes 4 0 ++ leBytes 4 r) ∧ u.journal = s.journal ∧ u.power = s.power) ∧
        (s.statementReason m = none → s.journal.used + 5 ≤ 21824 →
          answered u 0 [] ∧ ∃ e es, u.journal.entries = s.journal.entries ++ e :: es ∧ e.kind = 0x10 ∧ es.length = peek m 0x90 1 ∧
            ∀ x ∈ es, x.kind = 2))

/-! ### Host interface and mailboxes (R403 to R428) -/

/-- R420 to R423, R426, R467, R468: a sender that its channel is not full for becomes its owner: a buffer write stores its word, the
doorbell makes the channel BUSY and copies LEN bytes of the buffer as the request, and RELEASE returns FILLING or DONE to IDLE. A
write by another is rejected, leaves the channel as it is and is counted with its offset, and a function's AER takes it as a Completer
Abort and its vector 2 goes out, or waits while it is masked. An acknowledgement that waits in the same hc takes effect before a write.
MAILBOX_ACK writes the response, MBX_ACK
and DONE. The I3C bridge writes and rings as an on-die sender, and answers its MCTP requester with the return code, the SEQ and the
body, or with 0x80FF where its write is rejected. IDE_KM sets a stream's state and PF0's binding. -/
def Obligations.MailboxChannelsHaveOneOwner : Prop :=
  ∀ (s : State) (r : Requester) (c : ChannelId) (value : Word) (off : Byte), s.Wf →
    let n := c.toNat
    let x := s.chan n
    let mine := fun (y : Channel) => { y with i3c := fromI3c r, owner := (functionOf r).getD 0, reply := none, taken := false }
    let rejected := fun (k : Instr) (at_ : Nat) => ∃ u, exec k s = .next u ∧ u.chan n = x ∧
      u.reg (mbxReg n 0x10) = (if (functionOf r).isSome then 3 else 1) ∧ u.reg (mbxReg n 0x14) = s.reg (mbxReg n 0x14) + 1 ∧
      u.reg (mbxReg n 0x18) = BitVec.ofNat 32 at_ ∧ u.answer = (if (functionOf r).isSome then .written else .error) ∧
      (∀ fn, functionOf r = some fn → ∃ e, u.hif.aer = s.hif.aer ++ [e] ∧ e.fn = fn ∧ e.abort = true ∧
        e.sent = !(Table.get 0 s.hif.aerMask fn).getLsbD 15 ∧ (Table.get 0 u.hif.aerStatus fn).getLsbD 15 = true ∧
        { fn := fn, vec := 2 } ∈ if s.vectorMasked fn 2 then u.hif.pba else u.hif.msix)
    let acked := x.state = .busy ∧ .mailboxAck c ∈ s.pending
    (s.reachesChan r n = true → sends r n = true → x.full r = false →
      (off.toNat % 4 = 0 →
        ∃ u, exec (.mailboxBufferWrite r c off value) s = .next u ∧ u.answer = .written ∧ (u.chan n).state = .filling ∧
          { u.chan n with buf := x.buf } = mine { x with state := .filling } ∧
          (List.range 4).map (fun i => Table.get 0 (u.chan n).buf (off.toNat + i)) = leBytes 4 value.toNat ∧
          ∀ i, i < off.toNat ∨ off.toNat + 4 ≤ i → Table.get 0 (u.chan n).buf i = Table.get 0 x.buf i) ∧
      (let len := value.toNat % 512
       4 ≤ len → len ≤ 256 → len % 4 = 0 →
        ∃ u, exec (.mbxDb r c value) s = .next u ∧ u.answer = .written ∧
          u.chan n = mine { x with state := .busy, len := len, seq := value.extractLsb' 16 16, request := x.bytes len } ∧
          ((s.now 0x50).toNat, n) ∈ u.hif.doorbells ∧ ∀ d ∈ s.hif.doorbells, d ∈ u.hif.doorbells) ∧
      (value.getLsbD 0 = true → x.state ≠ .idle →
        ∃ u, exec (.release r c value) s = .next u ∧ u.answer = .written ∧ (u.chan n).state = .idle)) ∧
    (s.reachesChan r n = true → sends r n = true → x.full r = true → ¬ acked →
      (off.toNat % 4 = 0 → rejected (.mailboxBufferWrite r c off value) (mbxBuf n + off.toNat)) ∧
      rejected (.mbxDb r c value) (mbxOff n + 4) ∧ rejected (.release r c value) (mbxOff n + 12)) ∧
    (∀ y, s.reachesChan r n = true → sends r n = true → x.owned r = true → acked → x.reply = some y → off.toNat % 4 = 0 →
      ∃ u, exec (.mailboxBufferWrite r c off value) s = .next u ∧ u.answer = .written ∧ (u.chan n).state = .filling ∧
        u.reg (mbxReg n 8) = BitVec.ofNat 32 (y.code % 2 ^ 16 + x.seq.toNat * 2 ^ 16) ∧ u.reg (mbxReg n 0x14) = s.reg (mbxReg n 0x14)) ∧
    (∀ y, x.state = .busy → s.chanOpen n = true → x.reply = some y →
      ∃ u, exec (.mailboxAck c) s = .next u ∧ (u.chan n).state = .done ∧ (u.chan n).respLen = min 256 y.body.length ∧
        (u.chan n).bytes (min 256 y.body.length) = y.body.take 256 ∧
        u.reg (mbxReg n 8) = BitVec.ofNat 32 (y.code % 2 ^ 16 + x.seq.toNat * 2 ^ 16) ∧
        (x.i3c = true → u.hif.mctp = s.hif.mctp ++ [{ chan := n, code := y.code % 2 ^ 16, seq := x.seq, body := y.body.take 256 }])) ∧
    (∀ (h : MctpHead) (seq : Half) (body : List Byte), s.acceptsMctp h = false → exec (.i3cRequest h seq body) s = .next s) ∧
    (∀ h : MctpHead, s.acceptsMctp h = true ↔ h.addr.toNat = 0x50 + s.board.idSel ∧ h.type = 0x7F ∧ h.vendor = Config.enterprise) ∧
    (∀ (h : MctpHead) (seq : Half) (body : List Byte), let k := h.chan
      s.acceptsMctp h = true → s.reachesChan .i3c k.toNat = true → (s.chan k.toNat).full .i3c = true →
      .mailboxAck (k.setWidth 5) ∉ s.pending →
      ∃ u, exec (.i3cRequest h seq body) s = .next u ∧ u.answer = .error ∧
        u.hif.mctp = s.hif.mctp ++ [{ chan := k.toNat, code := 0x80FF, seq := seq, body := [] }]) ∧
    (∀ (h : MctpHead) (seq : Half) (body : List Byte), let k := h.chan
      s.acceptsMctp h = true → s.reachesChan .i3c k.toNat = true → (s.chan k.toNat).full .i3c = false →
      4 ≤ body.length → body.length ≤ 256 → body.length % 4 = 0 →
      ∃ u, exec (.i3cRequest h seq body) s = .next u ∧ (u.chan k.toNat).state = .busy ∧ (u.chan k.toNat).i3c = true ∧
        (u.chan k.toNat).request = body ∧ (u.chan k.toNat).seq = seq ∧ (u.chan k.toNat).len = body.length) ∧
    (s.boot.s0On = true → s.hif.linkUp = true →
      (∃ u, exec (.spdmRequest .certificate) s = .next u ∧ { u with hif := s.hif } = s ∧
        u.hif.doe = s.hif.doe ++ [.chain [certificate 0, certificate 1, certificate 2]]) ∧
      (∃ u l, exec (.spdmRequest .keyExchange) s = .next u ∧ u.hif.session = true ∧ u.hif.doe = s.hif.doe ++ [.exchange l] ∧
        { u with hif := s.hif, drawn := s.drawn } = s) ∧
      (∀ (stream : BitVec 2) (secure bind : Bool), s.hif.session = true →
        ∃ u, exec (.spdmRequest (.ideKey stream secure bind)) s = .next u ∧ { u with hif := s.hif } = s ∧
          ((u.hif.secure.contains stream.toNat) = secure) ∧ u.hif.bound = (if bind then some stream.toNat else s.hif.bound)) ∧
      (∀ (stream : BitVec 2) (secure bind : Bool), s.hif.session = false →
        ∀ r ∈ [SpdmRequest.ideKey stream secure bind, .other],
          exec (.spdmRequest r) s = .next { s with hif := { s.hif with doe := s.hif.doe ++ [.error] } }))

/-- R405, R407 to R409, R412: a doorbell of an enabled VF with enabled queues takes an index within its ring, and one beyond it
freezes the VF with 0x01A0 or 0x01A1; a base or size takes effect while the queues are disabled and is a violation, 0x01A2, while
they are enabled. VF Enable takes effect while the part is operational, with at most 16 VFs, and NumVFs while VF Enable is clear. PF0's
fault ring takes its head. That
base registers drop their low 12 bits is the model's choice (log entry 32). -/
def Obligations.VfPagesTakeTheirWrites : Prop :=
  ∀ (s : State) (p : PolderId) (value : Word), s.Wf → s.boot.s0On = true → s.hif.linkUp = true →
    let n := p.toNat
    let frozen := fun (u : State) (code : Nat) => u.vfReg n 0x034 = BitVec.ofNat 32 code ∧
      u.nets.causes = s.nets.causes ++ [{ polder := n, code := code, kind := 0xD, unit := n + 1, addr := 0 }]
    (s.hif.vfEnable = true → n < s.hif.numVfs → (s.vfReg n 0x034).toNat % 2 ^ 16 = 0 →
      (s.queuesOn n = true →
        (let size := 2 ^ ((s.vfReg n 0x00C).toNat % 32)
         ∃ u, exec (.vfSqTail p value) s = .next u ∧ u.answer = .written ∧
          ((value - s.vfReg n 0x014).toNat ≤ size → u.vfReg n 0x010 = value ∧ u.nets = s.nets ∧
            ∀ o, o ≠ 0x010 → u.vfReg n o = s.vfReg n o) ∧
          (size < (value - s.vfReg n 0x014).toNat → frozen u 0x01A0 ∧ u.vfReg n 0x010 = s.vfReg n 0x010)) ∧
        (let size := 2 ^ ((s.vfReg n 0x020).toNat % 32)
         ∃ u, exec (.vfCqHead p value) s = .next u ∧ u.answer = .written ∧
          ((s.vfReg n 0x028 - value).toNat ≤ size → u.vfReg n 0x024 = value ∧
            (s.vfReg n 0x028 ≠ value → { fn := n + 1, vec := 0 } ∈ if s.vectorMasked (n + 1) 0 then u.hif.pba else u.hif.msix)) ∧
          (size < (s.vfReg n 0x028 - value).toNat → frozen u 0x01A1 ∧ u.vfReg n 0x024 = s.vfReg n 0x024)) ∧
        ∀ off ∈ [0x004#12, 0x008#12, 0x00C#12, 0x018#12, 0x01C#12, 0x020#12],
          ∃ u, exec (.vfQueueConfigWrite p off value) s = .next u ∧ frozen u 0x01A2 ∧ u.vfReg n off.toNat = s.vfReg n off.toNat) ∧
      (s.queuesOn n = false →
        ∀ (off : BitVec 12) (new : Word), (off, new) ∈ [
            (0x004#12, value &&& 0xFFFFF000), (0x018#12, value &&& 0xFFFFF000), (0x008#12, value), (0x01C#12, value),
            (0x00C#12, if 4 ≤ value.toNat % 32 ∧ value.toNat % 32 ≤ 16 then value &&& 0x1F else s.vfReg n 0x00C),
            (0x020#12, if 4 ≤ value.toNat % 32 ∧ value.toNat % 32 ≤ 16 then value &&& 0x1F else s.vfReg n 0x020)] →
          ∃ u, exec (.vfQueueConfigWrite p off value) s = .next u ∧ u.answer = .written ∧ u.vfReg n off.toNat = new ∧
            (∀ o, o ≠ off.toNat → u.vfReg n o = s.vfReg n o) ∧ { u with vfRegs := s.vfRegs, answer := s.answer } = s)) ∧
    (∃ u, exec (.pciFrHead value) s = .next u ∧ u.answer = .written ∧ u.reg (pciPage + 0x054) = value ∧
      ∀ a, a ≠ pciPage + 0x054 → u.reg a = s.reg a) ∧
    (∀ k : BitVec 5, s.hif.vfEnable = false →
      exec (.vfEnable false k) s = .next { s with hif := { s.hif with numVfs := if k.toNat ≤ 16 then k.toNat else s.hif.numVfs } }) ∧
    (∀ k : BitVec 5, s.boot.part ≠ .operational → exec (.vfEnable true k) s = .next s) ∧
    (∀ k : BitVec 5, s.boot.part = .operational → s.hif.vfEnable = false → k.toNat ≤ 16 →
      ∃ u, exec (.vfEnable true k) s = .next u ∧ u.hif = { s.hif with vfEnable := true, numVfs := k.toNat } ∧ { u with hif := s.hif } = s)

/-- R405, R418, R471, R520: an FLR of a VF without a polder resets its page and its channel, and one with a resident polder tears it
down with CODE 0 and the VF as its unit; clearing VF Enable acts as an FLR of every VF. PF0's FLR resets the fault ring's registers,
channels 24 to 31 and the secure channels that PF0 owns. A link down, or PERST_N asserted, tears every resident polder down with
0x0D06, returns every channel to IDLE and discards an image that is being received; PERST_N deasserted lets the link train, to a rate and
a width that PCI_LINK then shows and that are free (log entry 163). -/
def Obligations.ResetsTearDown : Prop :=
  ∀ (s : State) (p : PolderId) (k : BitVec 5), s.Wf → s.boot.s0On = true → s.hif.linkUp = true →
    let cleared := fun (u : State) (q code kind unit : Nat) => (u.pld q).state = .clearing ∧
      (u.pld q).cause = some { polder := q, code := code, kind := kind, unit := unit, addr := 0 }
    let flr := fun (u : State) (q : Nat) =>
      ((s.pld q).state.resident = true → cleared u q 0 0xD (q + 1) ∧ (u.pld q).flr = true) ∧
      ((s.pld q).state = .free → (∀ o, o < 4096 → u.vfReg q o = vfDefault o) ∧ (u.chan (8 + q)).state = .idle ∧
        (∀ o, o < 0x20 → u.reg (mbxReg (8 + q) o) = regDefault (mbxReg (8 + q) o)) ∧ (∀ i, i < 16 → u.msixWord (q + 1) i = msixDefault i))
    let hot := fun (u : State) => (∀ q, q < 16 → (s.pld q).state.resident = true → cleared u q 0x0D06 0xB 4) ∧
      (∀ c, c < 32 → (u.chan c).state = .idle) ∧ u.reg (pciPage + 0x010) = s.reg (pciPage + 0x010) ||| 4 ∧
      u.boot.stg = (if s.boot.stg = 1 then 0 else s.boot.stg)
    (s.hif.vfEnable = true → p.toNat < s.hif.numVfs → ∃ u, exec (.vfFlr p) s = .next u ∧ flr u p.toNat) ∧
    (s.hif.vfEnable = true → s.hif.numVfs ≤ 16 →
      ∃ u, exec (.vfEnable false k) s = .next u ∧ u.hif.vfEnable = false ∧ ∀ q, q < s.hif.numVfs → flr u q) ∧
    (s.hif.vfEnable = false →
      ∃ u, exec .pf0Flr s = .next u ∧ (∀ a, a % 4 = 0 → 0x048 ≤ a → a < 0x060 → u.reg (pciPage + a) = regDefault (pciPage + a)) ∧
        (∀ c, c < 32 → (24 ≤ c ∨ c < 8 ∧ (s.chan c).i3c = false) → (u.chan c).state = .idle) ∧
        (∀ c, c < 8 → (s.chan c).i3c = true → u.chan c = s.chan c)) ∧
    (∃ u, exec .pcieLinkDown s = .next u ∧ hot u ∧ (s.board.pcieClkLost = false → u.hif.linkUp = !u.board.pcieClkLost)) ∧
    (s.board.perst = true → ∃ u, exec (.perstN false) s = .next u ∧ hot u ∧ u.hif.linkUp = false ∧ u.board.perst = false) ∧
    (s.board.perst = false →
      ∃ u, exec (.perstN true) s = .next u ∧ u.board = { s.board with perst := true, pcieClkLost := false } ∧ u.hif.linkUp = true ∧ 1 ≤ u.hif.pcie.rate ∧
        u.hif.pcie.rate ≤ 7 ∧ u.hif.pcie.width ∈ [1, 2, 4, 8, 16] ∧ (6 ≤ u.hif.pcie.rate → u.hif.pcie.flit = true) ∧
        u.hif = { s.hif with linkUp := true, pcie := u.hif.pcie } ∧ { u with board := s.board, hif := s.hif, drawn := s.drawn } = s)

/-! ### Polders, jobs and faults (R246 to R262, R347 to R370, R408 to R415) -/

/-- R349, R350, R354, R355, R367, R368: CREATE takes its ID through CREATING with the client entry of its tag, or is refused at its
first failing check; verification and loading then make it LOADED with its rows' TCCs READY, or free it with the refusal. RETIRE and
TEARDOWN start clearing, without and with a cause, or make a retire pending; in other states they are answered 0x8003. A job whose
completion is due in the cc of its TEARDOWN completes first (R371). The responses hold the polder's rows. CLIENT_CLEAR
frees the entry of a tag that no polder carries. That 0x090D names the ID that it would have had is the model's choice (log entry 33). -/
def Obligations.PoldersComeAndGo : Prop :=
  ∀ (s : State) (c : ChannelId) (b : List Byte), s.Wf → s.boot.part = .operational →
    let n := c.toNat
    let p := peek b 2 1
    let answered := fun (u : State) (k code : Nat) (body : List Byte) => (u.chan k).reply = some { code := code, body := body }
    (s.request n 0x0101 = some b →
      let tag := BitVec.ofNat 32 (peek b 4 4)
      let good := formed b 28 [(2, 1), (4, 24)] = true ∧ (p ≤ 15 ∨ p = 255) ∧ tag ≠ 0 ∧ 1 ≤ peek b 16 4 ∧ peek b 16 4 ≤ 2 ^ 28 ∧
        peek b 8 8 % 4096 = 0
      ∃ u, exec (.create c) s = .next u ∧
        (¬ good → answered u n 0x8001 (response 0x0101 p 0 0) ∧ u.polders = s.polders) ∧
        (good → p ≤ 15 → (s.pld p).state ≠ .free → answered u n 0x8002 (response 0x0101 p 0x090E 0) ∧ u.polders = s.polders) ∧
        (good → p = 255 → (∀ q, q < 16 → (s.pld q).state ≠ .free) →
          answered u n 0x8002 (response 0x0101 p 0x0906 0) ∧ u.polders = s.polders) ∧
        (∀ q, good → q < 16 → (s.pld q).state = .free → (p = q ∨ p = 255 ∧ ∀ r, r < q → (s.pld r).state ≠ .free) →
          (s.clientEntry tag = none → answered u n 0x8002 (response 0x0101 q 0x090D 0) ∧ u.polders = s.polders) ∧
          (∀ k, s.clientEntry tag = some k →
            u.pld q = { (default : Polder) with
              state := .creating, client := tag, reqChannel := some n, catAddr := peek b 8 8, catSize := peek b 16 4
              reqMap := BitVec.ofNat 32 (peek b 20 4) } ∧
            u.reg (pldReg q 0x054) = BitVec.ofNat 32 (peek b 24 4) ∧ (u.chan n).reply = none ∧
            ∀ r, r ≠ q → u.pld r = s.pld r))) ∧
    (∀ (r : PolderId) (k : Nat), (s.pld r.toNat).state = .creating → (s.pld r.toNat).reqChannel = some k →
      (s.chan k).state = .busy → (s.chan k).reply = none →
      let x := s.pld r.toNat
      let img := s.readCatalogue x.catAddr x.catSize
      let rows := s.rowsFor x.reqMap (catalogueOf img).rows
      (∀ a, ∃ u, exec (.catalogueVerification r (.fails a)) s = .next u ∧ answered u k 0x8005 (response 0x0101 r.toNat 0 0) ∧
        u.pld r.toNat = default) ∧
      ∃ u, exec (.catalogueVerification r .success) s = .next u ∧
        (∀ code, s.createRefusal x img = some code → answered u k 0x8002 (response 0x0101 r.toNat code 0) ∧ u.pld r.toNat = default ∧
          u.reg (pldReg r.toNat 0x104) = BitVec.ofNat 32 code ∧ u.tiles = s.tiles ∧ u.store = s.store ∧
          ∀ q, q ≠ r.toNat → u.pld q = s.pld q) ∧
        (s.createRefusal x img = none → answered u k 0 (response 0x0101 r.toNat 0 (mapOf rows)) ∧ (u.pld r.toNat).state = .loaded ∧
          (u.pld r.toNat).rowMap = mapOf rows ∧ (u.pld r.toNat).cat = catalogueOf img ∧ (u.pld r.toNat).client = x.client ∧
          (∀ row ∈ rows, ∀ i, i < 8 → (u.tile (8 * row + i)).tcc.state = .ready ∧ (u.tile (8 * row + i)).tcc.pc = 0) ∧
          ∀ q, q ≠ r.toNat → u.pld q = s.pld q)) ∧
    (s.request n 0x0102 = some b → formed b 4 [(2, 1)] = true → p ≤ 15 →
      ∃ u, exec (.retire c) s = .next u ∧
        ((s.pld p).state = .loaded ∨ (s.pld p).state = .complete →
          (u.pld p).state = .clearing ∧ (u.pld p).cause = none ∧ answered u n 0 (response 0x0102 p 0 (s.pld p).rowMap)) ∧
        ((s.pld p).state = .running → u.pld p = { s.pld p with retirePending := true } ∧ answered u n 0 (response 0x0102 p 0 (s.pld p).rowMap)) ∧
        ((s.pld p).state ∉ [.loaded, .complete, .running] → u.polders = s.polders ∧ answered u n 0x8003 (response 0x0102 p 0 (s.pld p).rowMap))) ∧
    (s.request n 0x0103 = some b → formed b 4 [(2, 1)] = true → p ≤ 15 →
      ∃ u, exec (.teardown c) s = .next u ∧
        ((s.pld p).state = .loaded ∨ (s.pld p).state = .running ∧ s.jobDone p = false →
          (u.pld p).state = .clearing ∧ (u.pld p).cause = some { polder := p, code := 0, kind := 0, unit := 0xFFFF, addr := 0 } ∧
          answered u n 0 (response 0x0103 p 0 (s.pld p).rowMap)) ∧
        (s.jobDone p = true → (s.queuesOn p = true → s.cqRoom p 1 = true) → (u.pld p).state = .clearing ∧ (u.pld p).cause = none ∧
          u.reg (pldReg p 0x010) = s.reg (pldReg p 0x010) ||| 1 ∧ answered u n 0 (response 0x0103 p 0 (s.pld p).rowMap)) ∧
        ((s.pld p).state = .complete → (u.pld p).state = .clearing ∧ (u.pld p).cause = none ∧ answered u n 0 (response 0x0103 p 0 (s.pld p).rowMap)) ∧
        ((s.pld p).state ∉ [.loaded, .complete, .running] → u.polders = s.polders ∧ answered u n 0x8003 (response 0x0103 p 0 (s.pld p).rowMap))) ∧
    (s.request n 0x0104 = some b → formed b 8 [(2, 1), (4, 4)] = true →
      let tag := BitVec.ofNat 32 (peek b 4 4)
      let carried := ∃ q, q < 16 ∧ (s.pld q).state ≠ .free ∧ (s.pld q).client = tag
      ∃ u, exec (.clientClear c) s = .next u ∧ u.polders = s.polders ∧
        (carried → u.clients = s.clients ∧ answered u n 0x8003 (response 0x0104 p 0 0)) ∧
        (¬ carried → answered u n 0 (response 0x0104 p 0 0) ∧
          ∀ e, e ∈ u.clients ↔ e ∈ s.clients ∧ (tag = 0 ∨ e.2.tag ≠ tag)))

/-- R353, R354, R356 to R359, R366, R371, R417: the first cause that reaches curator 0 starts a resident polder's clearing, and a later one
counts. Clearing ends once the polder's requests have drained: its tiles are at their reset value, its scratchpads zero, its rows
released, and the ID is FREE, or DRAINING while abandoned host requests remain. A job completes with its interrupt and its client's
count. A remote wait that is past the watchdog's limit (log entry 128), a failed host completion and a completion timeout each send
their cause. A host read that host DMA has issued takes its data, in a parked slot without an answer until the slot runs again (R363). -/
def Obligations.PoldersFaultAndEnd : Prop :=
  ∀ (s : State) (p : PolderId), s.Wf →
    let n := p.toNat
    let x := s.pld n
    let caused := fun (u : State) (c : Cause) => u.nets.causes = s.nets.causes ++ [c]
    (∀ i c, s.nets.causes[i]? = some c →
      ∃ u, exec (.faultCause i) s = .next u ∧ u.nets.causes = s.nets.causes.eraseIdx i ∧
        ((s.pld c.polder).state.resident = true → (u.pld c.polder).state = .clearing ∧ (u.pld c.polder).cause = some c ∧
          (u.pld c.polder).causeCc = s.cc ∧ (u.pld c.polder).causeState = (s.pld c.polder).state.code) ∧
        ((s.pld c.polder).state = .clearing ∨ (s.pld c.polder).state = .draining →
          u.reg (pldReg c.polder 0x050) = s.reg (pldReg c.polder 0x050) + 1 ∧ (u.pld c.polder).state = (s.pld c.polder).state)) ∧
    (x.state = .clearing →
      (∀ r ∈ s.store.reqs, r.polder = n → r.stage ≠ .routed ∧ r.stage ≠ .merging) →
      ∃ u, exec (.clearing p) s = .next u ∧
        (u.pld n).state = (if (s.store.reqs.any fun r => r.polder == n && !r.isWrite && s.issued r) || (s.hif.tags.any fun g => g.polder == n)
          then .draining else .free) ∧
        (u.pld n).rowMap = 0 ∧ (∀ r ∈ u.store.reqs, r.polder ≠ n) ∧
        (∀ t ∈ x.tiles, u.tile t = default ∧ ∀ a, a < 2 ^ 22 → u.store.spad.read (t * 2 ^ 22 + a) = 0) ∧
        (∀ t, t ∉ x.tiles → u.tile t = s.tile t) ∧ (∀ e ∈ u.store.frames, e.2 ≠ n + 1) ∧
        (∀ c, x.cause = some c → u.reg (pldReg n 0x04C) = BitVec.ofNat 32 (c.code + c.kind % 16 * 2 ^ 16) ∧
          u.reg (pldReg n 0x010) = s.reg (pldReg n 0x010) ||| 2) ∧
        (x.cause = none → u.reg (pldReg n 0x010) = s.reg (pldReg n 0x010)) ∧
        u.reg (pldReg n 0x064) = BitVec.ofNat 32 (s.cc - x.clearCc).toNat ∧ ∀ q, q ≠ n → (u.pld q).state = (s.pld q).state) ∧
    (s.jobDone n = true → (s.queuesOn n = true → s.cqRoom n 1 = true) →
      ∃ u, exec (.jobCompletion p) s = .next u ∧ (u.pld n).state = (if x.retirePending then .clearing else .complete) ∧
        u.reg (pldReg n 0x010) = s.reg (pldReg n 0x010) ||| 1 ∧
        u.clients = s.clients.map (fun (e : Nat × Client) =>
          if e.2.tag == x.client then (e.1, { e.2 with completed := e.2.completed + 1 }) else e)) ∧
    (∀ e k, (e = .reduction ∧ k = 18 ∨ ∃ m : PortId, e = .link m ∧ k = m.toNat) →
      let limit := (s.reg (pldReg n 0x054)).toNat * 65536
      (s.slot k n).remote = true → limit ≠ 0 → limit ≤ (s.now (engineDom k) - (s.slot k n).since).toNat →
      ∃ u, exec (.watchdogExpiry e p) s = .next u ∧ (u.slot k n).since = s.now (engineDom k) ∧
        caused u (if k = 18 then { polder := n, code := 0x0E02, kind := 0xE, unit := 0, addr := 0 }
          else { polder := n, code := 0x0E01, kind := 0xC, unit := k, addr := 0 })) ∧
    (∀ req r y, s.findReq req = some r → r.tgt = some y → s.issued r = true →
      let ended := fun (u : State) => (u.slot 16 r.polder).running = false ∧ (u.slot 16 r.polder).cur = none
      let lost := fun (u : State) (code : Nat) => u.findReq req = some { r with stage := .lost, via := none, path := [] } ∧ ended u ∧
        caused u { polder := r.polder, code := code, kind := 0xB, unit := 4, addr := r.va }
      (r.isWrite = true → (y.space = .host → s.hif.linkUp = true) →
        ∃ u r', exec (.hostCompletion req .success) s = .next u ∧ u.memRead y r.data.length = r.data ∧ ended u ∧
          u.findReq req = some r' ∧ r'.stage = .served ∧ r'.path = fixedRoute y.die (dieOfTile r.tile)) ∧
      (r.isWrite = false →
        ((s.slot 16 r.polder).parked = false → ∃ u r', exec (.hostCompletion req .success) s = .next u ∧ ended u ∧
          u.findReq req = some r' ∧ r'.data = s.memRead y r.len ∧ r'.stage = .served ∧ r'.path = fixedRoute y.die (dieOfTile r.tile)) ∧
        ((s.slot 16 r.polder).parked = true → ∃ u, exec (.hostCompletion req .success) s = .next u ∧
          u.findReq req = some { r with data := s.memRead y r.len, stage := .landed } ∧ (u.slot 16 r.polder).parked = true ∧
          (u.slot 16 r.polder).remote = false) ∧
        (∀ st code, (st, code) ∈ [(HostStatus.unsupported, 0x0D02), (.poisoned, 0x0D03), (.ideFailure, 0x0D04)] →
          ∃ u, exec (.hostCompletion req st) s = .next u ∧ lost u code) ∧
        ∃ u, exec (.completionTimeout req) s = .next u ∧ lost u 0x0D01)) ∧
    (∀ req g k, s.findReq req = none → s.hif.tags.find? (fun t => t.req == req) = some g →
      (k = .completionTimeout req ∨ ∃ st, k = .hostCompletion req st) →
      ∃ u, exec k s = .next u ∧ u.hif.tags = s.hif.tags.filter (fun t => t.req != req) ∧
        ((s.pld g.polder).state = .draining → (∀ t ∈ s.hif.tags, t.req ≠ req → t.polder ≠ g.polder) →
          u.pld g.polder = default ∧ u.reg (pldReg g.polder 0x010) = s.reg (pldReg g.polder 0x010) ||| 8))

/-- R352, R414, R415, R438: JOB_START on a loaded polder with its queues' bases set makes it RUNNING with the step counter of the
request, enables its queues, counts the job for its client and leaves its rows to start in turn; out of state it is answered 0x8003,
with an unreadable structure 0x8005 and the address (that of the first structure, where Bus Master Enable is 0: log entry 121), and with a
malformed one 0x8004. ROW_WAVE ungates the next row of a die, 32 ac
after the one before, and its TCCs in READY run. HOST_REG writes the entries of its list and HOST_REL makes the valid entries of its
range invalid in both table copies, so that the whole range is invalid, every other entry staying as it is, and both wait for their edit to
complete; a request out of form, out of state or out of range edits nothing and is answered 0x8001 or 0x8003, and one whose list cannot be
read 0x8005. -/
def Obligations.JobsStart : Prop :=
  ∀ (s : State) (c : ChannelId) (b : List Byte) (ecc : List Ecc), s.Wf →
    let n := c.toNat
    let p := n - 8
    let x := s.pld p
    let echo := b.take 2 ++ [0, 0]
    let answered := fun (u : State) (code : Nat) (body : List Byte) => (u.chan n).reply = some { code := code, body := body }
    (s.request n 0x0201 = some b →
      let ready := x.state = .loaded ∧ s.hif.vfEnable = true ∧ s.vfReg64 p 0x004 ≠ 0 ∧ s.vfReg64 p 0x018 ≠ 0
      let red := peek b 8 8
      let link := peek b 16 8
      let tab := peek b 24 8
      let ok := formed b 34 [(4, 4), (8, 26)] = true ∧ peek b 32 2 ≤ 4096 ∧ (x.cat.kind ≠ 0 → peek b 4 4 = 0 ∧ red = 0 ∧ tab = 0)
      (¬ ready → ∃ u, exec (.jobStart c ⟨.success, ecc⟩) s = .next u ∧ answered u 0x8003 echo ∧ u.polders = s.polders) ∧
      (ready → ¬ ok → ∃ u, exec (.jobStart c ⟨.success, ecc⟩) s = .next u ∧ answered u 0x8001 echo ∧ u.polders = s.polders) ∧
      let named := [red, link, tab].find? (· != 0)
      (ready → ok → (named ≠ none → p + 1 ∈ s.hif.masters) → (red ≠ 0 → (s.redMapAt p red).isSome = true) →
        (link ≠ 0 → (s.linkMapAt p link).isSome = true) → (tab ≠ 0 → (s.crestTableAt p tab (peek b 32 2)).isSome = true) →
        (∀ e ∈ ecc, e ≠ .uncorrectable) →
        (∀ k ∈ x.cat.monitorPieces, ∃ a, s.translate 0 p k.1 false = .at_ a) →
        ∃ u, exec (.jobStart c ⟨.success, ecc⟩) s = .next u ∧ answered u 0 echo ∧ (u.pld p).state = .running ∧ (u.pld p).started = true ∧
          (u.pld p).wavesDue = x.rows ∧ u.reg (spkReg p 0x040) = BitVec.ofNat 32 (peek b 4 4) ∧ u.vfReg p 0x02C = 1 ∧
          u.clients = s.clients.map (fun (e : Nat × Client) =>
            if e.2.tag == x.client then (e.1, { e.2 with admitted := e.2.admitted + 1 }) else e)) ∧
      (∀ va, ready → ok → named = some va →
        (∀ rd a, (if p + 1 ∈ s.hif.masters then rd = .fails a else a = BitVec.ofNat 64 va) →
          ∃ u, exec (.jobStart c ⟨rd, ecc⟩) s = .next u ∧ answered u 0x8005 (b.take 2 ++ List.replicate 6 0 ++ leBytes 8 a.toNat) ∧
            u.polders = s.polders) ∧
        (p + 1 ∈ s.hif.masters → (red ≠ 0 ∧ (s.redMapAt p red).isNone) ∨ (link ≠ 0 ∧ (s.linkMapAt p link).isNone) ∨
            (tab ≠ 0 ∧ (s.crestTableAt p tab (peek b 32 2)).isNone) →
          ∃ u, exec (.jobStart c ⟨.success, ecc⟩) s = .next u ∧ answered u 0x8004 echo ∧ u.polders = s.polders))) ∧
    (∀ (q : PolderId) (die : BitVec 2) (r : Nat),
      let y := s.pld q.toNat
      let now := s.now (acDom die.toNat)
      y.state = .running → y.wavesDue.find? (fun k => k / 8 == die.toNat) = some r →
      (∀ e, y.waveAc.find? (fun e => e.1 == die.toNat) = some e → 32 ≤ (now - e.2).toNat) →
      ∃ u, exec (.rowWave q die) s = .next u ∧ (u.pld q.toNat).wavesDue = y.wavesDue.filter (· != r) ∧
        ∀ k, k < 8 → (u.tile (8 * r + k)).gatedRow = false ∧
          ((s.tile (8 * r + k)).tcc.state = .ready → (u.tile (8 * r + k)).tcc.state = .running)) ∧
    (let first := peek b 4 4
     let count := peek b 8 4
     let base := s.xlBase p 3 + first
     let vals := (List.range count).map (fun i => leNat (s.hostRead (peek b 16 8 + 8 * i) 8))
     (s.request n 0x0202 = some b → x.state = .loaded ∨ x.state = .running → formed b 24 [(4, 8), (16, 8)] = true →
       1 ≤ count → count ≤ 1048576 → first + count ≤ s.xlCount p 3 → (∀ i, i < count → bitAt (s.hostEntry p (first + i)) 0 = false) →
       (∀ rd a, (if p + 1 ∈ s.hif.masters then rd = .fails a else a = BitVec.ofNat 64 (peek b 16 8)) →
         ∃ u, exec (.hostReg c rd) s = .next u ∧ u.store = s.store ∧ u.polders = s.polders ∧
           answered u 0x8005 (b.take 2 ++ List.replicate 6 0 ++ leBytes 8 a.toNat)) ∧
       (p + 1 ∈ s.hif.masters → (∀ v ∈ vals, v / 2 % 2 ^ 20 = 0) →
       ∃ u, exec (.hostReg c .success) s = .next u ∧ (u.pld p).editChannel = some n ∧ (u.pld p).editRange = some (first, 0) ∧
         (u.chan n).reply = none ∧
         u.store.tabD0 = vals.zipIdx.foldl (fun t v => Table.put 0 t (base + v.2) (BitVec.ofNat 64 (listedEntry v.1))) s.store.tabD0 ∧
         u.store.tabD4 = vals.zipIdx.foldl (fun t v => Table.put 0 t (base + v.2) (BitVec.ofNat 64 (listedEntry v.1))) s.store.tabD4)) ∧
     (s.request n 0x0203 = some b → x.state = .loaded ∨ x.state = .running ∨ x.state = .complete →
       formed b 12 [(4, 8)] = true → 1 ≤ count → count ≤ 1048576 → first + count ≤ s.xlCount p 3 →
       let held := fun k => base ≤ k ∧ k < base + count ∧ bitAt (s.hostEntry p (k - s.xlBase p 3)) 0 = true
       ∃ u, exec (.hostRel c) s = .next u ∧ (u.pld p).editChannel = some n ∧ (u.pld p).editRange = some (first, count) ∧
         (u.chan n).reply = none ∧ (∀ i, i < count → bitAt (u.hostEntry p (first + i)) 0 = false) ∧
         (∀ k, held k → Table.get 0 u.store.tabD0 k = 0 ∧ Table.get 0 u.store.tabD4 k = 0) ∧
         (∀ k, ¬ held k → Table.get 0 u.store.tabD0 k = Table.get 0 s.store.tabD0 k ∧
           Table.get 0 u.store.tabD4 k = Table.get 0 s.store.tabD4 k) ∧
         u.store.hbm = s.store.hbm ∧ u.store.host = s.store.host) ∧
     (∀ (k : Instr), (k = .hostReg c .success ∧ s.request n 0x0202 = some b ∧
           ((x.state ≠ .loaded ∧ x.state ≠ .running) ∨ formed b 24 [(4, 8), (16, 8)] = false ∨ count = 0 ∨ s.xlCount p 3 < first + count ∨
             (∃ i, i < count ∧ bitAt (s.hostEntry p (first + i)) 0 = true) ∨
             p + 1 ∈ s.hif.masters ∧ ∃ v ∈ vals, v / 2 % 2 ^ 20 ≠ 0) ∨
         k = .hostRel c ∧ s.request n 0x0203 = some b ∧
           ((x.state ≠ .loaded ∧ x.state ≠ .running ∧ x.state ≠ .complete) ∨ formed b 12 [(4, 8)] = false ∨ count = 0 ∨
             s.xlCount p 3 < first + count)) →
       ∃ u, exec k s = .next u ∧ u.polders = s.polders ∧ u.store = s.store ∧ ∃ code, (code = 0x8003 ∨ code = 0x8001) ∧ answered u code echo))

/-- R246, R262, R408, R410: the part takes a running polder's next submission entry while it can: a micro-batch that keeps its rules
waits for its slot, an intake of a serving job waits for its boundary, and any other entry is refused with a record of its code in
the VF's completion ring. A slot starts once its micro-batch waits and the last slot is over and SLOT_CC has passed: every tile
receives the slot record and the increment of SLOT_CTR, and its monitor starts the slot. -/
def Obligations.MicroBatchesRunInSlots : Prop :=
  ∀ (s : State) (p : PolderId), s.Wf →
    let n := p.toNat
    let x := s.pld n
    let head := s.vfReg n 0x014
    let va := s.vfReg64 n 0x004 + 32 * (head.toNat % 2 ^ ((s.vfReg n 0x00C).toNat % 32))
    let e := s.hostRead va 32
    let tag := peek e 2 2
    let index := peek e 4 4
    let step := peek e 8 4
    let len := peek e 12 4
    (x.takesEntries = true → s.queuesOn n = true → s.vfReg n 0x010 ≠ head →
      (∀ st, st ≠ .success ∨ n + 1 ∉ s.hif.masters →
        ∃ u, exec (.submissionEntry ⟨p, st⟩) s = .next u ∧ u.vfReg n 0x014 = head ∧ u.store = s.store ∧
          u.nets.causes = s.nets.causes ++ [{ polder := n, code := if n + 1 ∈ s.hif.masters then hostCode st else 0x0D05, kind := 0xB, unit := 4, addr := va }]) ∧
      (n + 1 ∈ s.hif.masters →
      (entryFormed e (x.cat.kind == 1) = true → peek e 0 1 = 1 → x.cat.kind ≠ 1 → len ≠ 0 → len ≤ x.cat.mbMax →
        (x.cat.kind = 0 → BitVec.ofNat 32 step = s.reg (spkReg n 0x040) ∧ index < x.cat.mbPerStep ∧ index ∉ x.train.ran) →
        ∃ u, exec (.submissionEntry ⟨p, .success⟩) s = .next u ∧ u.vfReg n 0x014 = head + 1 ∧
          (u.pld n).mbWaiting = some (BitVec.ofNat 32 index, BitVec.ofNat 32 step, BitVec.ofNat 32 len, BitVec.ofNat 16 tag) ∧
          (u.pld n).mbCc = s.cc ∧ (x.cat.kind = 0 → (u.pld n).train.phase = .slots) ∧ u.store = s.store) ∧
      (entryFormed e true = true → peek e 0 1 = 2 → x.cat.kind = 1 →
        ∃ u, exec (.submissionEntry ⟨p, .success⟩) s = .next u ∧ u.vfReg n 0x014 = head + 1 ∧
          (u.pld n).intakes = x.intakes ++ [(BitVec.ofNat 16 tag, BitVec.ofNat 64 (peek e 16 8))]) ∧
      (∀ code, (entryFormed e (x.cat.kind == 1) = false ∧ code = 0x0910 ∨
          entryFormed e (x.cat.kind == 1) = true ∧ peek e 0 1 ≠ 2 ∧ s.microBatchCode n index step len = some code) →
        s.cqRoom n 1 = true → s.hif.linkUp = true →
        let tail := (s.vfReg n 0x028).toNat
        let log := (s.vfReg n 0x020).toNat % 32
        ∃ u, exec (.submissionEntry ⟨p, .success⟩) s = .next u ∧ u.vfReg n 0x014 = head + 1 ∧ u.vfReg n 0x028 = s.vfReg n 0x028 + 1 ∧
          u.store.host.readN (s.vfReg64 n 0x018 + 64 * (tail % 2 ^ log)) 64 =
            ringEntry 5 tail log (refusalRecord code tag index step 0) ∧ (u.pld n).mbWaiting = x.mbWaiting))) ∧
    (∀ i st k tg, x.state = .running → x.cat.kind ≠ 1 → x.mbWaiting = some (i, st, k, tg) → (x.cat.kind = 2 → x.retirePending = false) →
      (x.slotStarted = true → (∀ t ∈ x.tiles, (s.tile t).mon.slotEnd = true) ∧ x.cat.slotCc ≤ (s.cc - x.slotCc).toNat) →
      ∀ ecc, ∃ u, exec (.slotStart ⟨p, ecc⟩) s = .next u ∧ (u.pld n).slotNo = x.slotNo + 1 ∧ (u.pld n).slotCc = s.cc ∧ (u.pld n).mbWaiting = none ∧
        (u.pld n).mbIndex = i ∧ (u.pld n).mbLen = k ∧ u.reg64 (pldReg n 0x134) = (s.reg64 (pldReg n 0x134) + 1) % 2 ^ 64 ∧
        (x.cat.kind = 0 → (u.pld n).train.ran = x.train.ran ++ [i.toNat]) ∧
        ∀ t ∈ x.tiles,
          u.store.dstore.readN (t * 2 ^ 14 + 30 * 512) 32 = leBytes 4 i.toNat ++ leBytes 4 k.toNat ++ leBytes 4 (s.stepOf n).toNat ++
            leBytes 4 x.slotNo ++ List.replicate 16 0 ∧
          ((s.tile t).ctr x.cat.slotCtr ≠ 0xFFFFFFFF → (u.tile t).ctr x.cat.slotCtr = (s.tile t).ctr x.cat.slotCtr + 1) ∧
          (u.tile t).mon.anchors = [(0, s.now (ncDom (t / 64)))] ∧ (u.tile t).mon.next = 0)

/-- R274, R288, R527: a ledger entry that reaches curator 0 adds to the member's ledger of its tensor, and a non-finite event adds its
elements to the counts of its polder and is latched where it is the first of the step, or of a lower tile or queue than the latched
one of the same cc; both leave the network. An event of a step before the open one adds to the polder's total alone. -/
def Obligations.LedgersAndEventsReachTheCurator : Prop :=
  ∀ (s : State) (i : Nat), s.Wf →
    (∀ e, s.nets.ledgers[i]? = some e →
      let r := (s.pld e.polder).red
      ∃ u, exec (.ledgerEntry i) s = .next u ∧ u.nets.ledgers = s.nets.ledgers.eraseIdx i ∧
        ((s.pld e.polder).state.resident = true →
          let v := (u.pld e.polder).red
          v.ledgerOf e.entry.tensor = { tensor := e.entry.tensor, under := (r.ledgerOf e.entry.tensor).under + e.entry.under
                                        nonfin := (r.ledgerOf e.entry.tensor).nonfin + e.entry.nonfin
                                        ovt := (r.ledgerOf e.entry.tensor).ovt || e.entry.ovt } ∧
          ∀ id, id ≠ e.entry.tensor → v.ledgerOf id = r.ledgerOf id) ∧
        ((s.pld e.polder).state.resident = false → u.polders = s.polders)) ∧
    (∀ e, s.nets.events[i]? = some e → e.polder < 16 → (s.pld e.polder).state.resident = true →
      (s.queuesOn e.polder = true → s.cqRoom e.polder 1 = true) →
      let a := fun o => spkReg e.polder o
      ∃ u, exec (.nonFiniteEvent i) s = .next u ∧ u.nets.events = s.nets.events.eraseIdx i ∧
        u.reg64 (a 0x050) = (s.reg64 (a 0x050) + e.count) % 2 ^ 64 ∧
        (e.opened ≠ (s.pld e.polder).train.opened → u.reg (a 0x058) = s.reg (a 0x058) ∧ u.reg (a 0x05C) = s.reg (a 0x05C) ∧
          u.reg (a 0x060) = s.reg (a 0x060)) ∧
        (e.opened = (s.pld e.polder).train.opened →
        (u.reg (a 0x058)).toNat = min (2 ^ 32 - 1) ((s.reg (a 0x058)).toNat + e.count) ∧
        ((s.reg (a 0x05C)).toNat % 2 ^ 16 = 0 →
          u.reg (a 0x05C) = BitVec.ofNat 32 (e.code + e.tile * 2 ^ 16 + e.q * 2 ^ 24) ∧ u.reg (a 0x060) = e.tensor) ∧
        ((s.reg (a 0x05C)).toNat % 2 ^ 16 ≠ 0 → (s.pld e.polder).train.nfCc ≠ s.cc →
          u.reg (a 0x05C) = s.reg (a 0x05C) ∧ u.reg (a 0x060) = s.reg (a 0x060)) ∧
        (let old := (s.reg (a 0x05C)).toNat
         old % 2 ^ 16 ≠ 0 → (s.pld e.polder).train.nfCc = s.cc → e.tile * 8 + e.q < old / 2 ^ 16 % 2 ^ 8 * 8 + old / 2 ^ 24 % 2 ^ 3 →
          u.reg (a 0x05C) = BitVec.ofNat 32 (e.code + e.tile * 2 ^ 16 + e.q * 2 ^ 24) ∧ u.reg (a 0x060) = e.tensor)))

/-! ### Reduction, the training step and the conservators (R259 to R322) -/

/-- R285, R286, R292 to R296: a message of the sequence that stays in the part reaches the polder that it names. OPEN marks its home as
open for an epoch; DATA adds both words of its unit and counts; DONE gives the count that its sender sent; FINAL overwrites the low
words of its unit, clears the carries and sets the EPOCH; a slice token is kept once, and the tensor is complete once every slice's
token and the FINALs that they count are there. A message of another epoch or unit counts in PLD_RED_BAD. A home that is open is sent
its DATA and DONE, and a sealed element clamps to the 64-bit range by its carry. The messages' layouts are free values (log entry 8). -/
def Obligations.ReductionMessagesTakeEffect : Prop :=
  ∀ (s : State) (m : LinkMsg) (type : Nat), s.Wf →
    let p := polderOf m.dst.toNat
    let x := s.pld p
    let epoch := s.reg (pldReg p 0x304)
    let bad := fun (u : State) => u.reg (pldReg p 0x310) = s.reg (pldReg p 0x310) + 1 ∧ u.polders = s.polders
    (∃ o, s.links.localIn.find? (fun o => o.msg.src == m.src && o.msg.dst == m.dst && o.msg.vc == m.vc) = some o ∧ o.type = type ∧ o.msg = m) →
    s.redAccepts p m.src = true →
    (∀ (group : BitVec 4) (e : Word) (h : Nat), type = 2 → m.payload = Config.messageBody 2 [group.toNat, e.toNat] →
      (x.red.group group.toNat).memberOf m.src = some h →
      ∃ u, exec (.openMsg none m group e) s = .next u ∧
        ∀ y, y ∈ ((u.pld p).red.group group.toNat).opened ↔ y ∈ (x.red.group group.toNat).opened ∨ y = (h, e)) ∧
    (∀ (group : BitVec 4) (e count : Word) (h : Nat), type = 4 → m.payload = Config.messageBody 4 [group.toNat, e.toNat, count.toNat] →
      (x.red.group group.toNat).memberOf m.src = some h →
      ∃ u, exec (.doneMsg none m group e count) s = .next u ∧ (e ≠ epoch → bad u) ∧
        (e = epoch → ((u.pld p).red.group group.toNat).done = Table.put 0 (x.red.group group.toNat).done h (count.toNat + 1))) ∧
    (∀ t g h k, type = 3 ∨ type = 6 → s.namedUnit p m = some (t, g, h, k) →
      let gr := x.red.group g
      let words := (List.range 64).map (fun i => toSigned 64 (peek m.payload (12 + 8 * i) 8))
      let current := BitVec.ofNat 32 (peek m.payload 4 4) = epoch
      (type = 3 →
        (¬ current ∨ k ∉ t.slice gr.self gr.size → ∃ u, exec (.dataMsg none m .clean) s = .next u ∧ bad u) ∧
        (∀ y, current → k ∈ t.slice gr.self gr.size → s.unitAt p t k = some y → y.space ≠ .host →
          let cs := (List.range 64).map (fun i => (toSigned 64 (peek m.payload (12 + 8 * i) 8), toSigned 32 (peek m.payload (524 + 4 * i) 4)))
          ∃ u, exec (.dataMsg none m .clean) s = .next u ∧
            u.memRead y 0x304 = (((Unit64.read (s.memRead y 1024)).current epoch).accumulate 0 cs).1.bytes ∧
            ((u.pld p).red.group g).got = Table.put 0 gr.got h (Table.get 0 gr.got h + 1))) ∧
      (type = 6 →
        (¬ current ∨ k = 0 ∨ t.units < k → ∃ u, exec (.final none m) s = .next u ∧ bad u) ∧
        (∀ y, current → k ≠ 0 → k ≤ t.units → s.unitAt p t k = some y → y.space ≠ .host →
          (∀ z, s.unitAt p t 0 = some z → z.space ≠ y.space ∨ z.key + 64 ≤ y.key ∨ y.key + 0x304 ≤ z.key) →
          ∃ u, exec (.final none m) s = .next u ∧
            u.memRead y 0x304 = Unit64.bytes { l := words, w := List.replicate 64 0, epoch := epoch } ∧
            (u.pld p).red.finals = Table.put 0 x.red.finals t.id.toNat (Table.get 0 x.red.finals t.id.toNat + 1)))) ∧
    (type = 5 →
      let k := tokenOf m.payload
      ∃ u, exec (.token none m) s = .next u ∧ u.reg (pldReg p 0x30C) = s.reg (pldReg p 0x30C) + 1 ∧
        ∀ t, x.cat.gradients.find? (fun t => t.id == k.tensor) = some t →
          let valid := BitVec.ofNat 32 (peek m.payload 8 4) = epoch ∧ peek m.payload 0xC 4 = s.mapTag p ∧
            toSigned 16 (peek m.payload 0x30 2) = x.crest t
          let known := ∃ o ∈ x.red.tokens, o.tensor = k.tensor ∧ o.slice = k.slice
          (¬ valid → bad u) ∧ (valid → known → (u.pld p).red.tokens = x.red.tokens) ∧
          (valid → ¬ known → (u.pld p).red.tokens = x.red.tokens ++ [k] ∧
            let g := x.red.group (x.red.groupOf k.tensor)
            let ks := (x.red.tokens ++ [k]).filter (fun o => o.tensor == k.tensor)
            (g.size ≤ ks.length →
              (ks.filter (fun o => o.slice != g.self)).foldl (fun n o => n + o.finals) 0 ≤ Table.get 0 x.red.finals k.tensor.toNat →
              k.tensor ∈ (u.pld p).red.complete)))

/-- R292 to R294, R361, R363: the reduction sequence of a polder sends the DATA of the home's units and the DONE with their count to the
next home whose OPEN has arrived: behind what still waits in its slot, at once to a member in the part, and waiting for a credit where
it has none. With every other member's DATA there, the member seals its slice of the next tensor, sends the token and a FINAL of each
sealed unit to every other member and counts its own token. A
sealed element keeps its low word where the carry is 0 and clamps to 2^63 - 1 or -2^63 by the carry's sign otherwise. A tile's shared
host DMA starts the oldest request of the polder whose turn it is and parks the slot of another polder, whose read it has issued; a
parked slot whose completion has landed answers its read when it resumes. -/
def Obligations.SharedSequencesTakeTurns : Prop :=
  ∀ (s : State) (p : PolderId), s.Wf →
    let n := p.toNat
    let x := s.pld n
    (∀ g h ecc, x.state = .running → x.train.phase = .reducing → s.nextHome n = some (g, h) →
      ((s.slot 18 n).running = true ∧ (s.slot 18 n).remote = false ∨ (s.slot 18 n).running = false ∧ s.startTurn 18 n s.redReady = true) →
      let gr := x.red.group g
      let datas := (x.groupTensors g).flatMap (fun t => (t.slice h gr.size).filterMap (fun k => (s.unitAt n t k).map (fun a =>
        redMsg s n 3 (gr.addr h) (unitHead t (s.epoch n) k ++ (s.unit n a).lows ++ (s.unit n a).carries))))
      let msgs := datas ++ [redMsg s n 4 (gr.addr h) (Config.messageBody 4 [g, (s.epoch n).toNat, datas.length])]
      ∃ u, exec (.sharedDescriptorStart .reduction p ecc) s = .next u ∧
        ((u.pld n).red.group g).sent = (x.red.group g).sent ++ [h] ∧ u.store.hbm = s.store.hbm ∧
        ((s.slot 18 n).out ≠ [] → (u.slot 18 n).out = (s.slot 18 n).out ++ msgs) ∧
        ((s.slot 18 n).out = [] → s.egress (gr.addr h).toNat = .here → u.links.localIn = s.links.localIn ++ msgs) ∧
        (∀ k, (s.slot 18 n).out = [] → s.egress (gr.addr h).toNat = .by_ k → s.slotCredit n (gr.addr h) = 0 →
          (u.slot 18 n).out = msgs ∧ (u.slot 18 n).asked = true)) ∧
    (∀ (g : BitVec 4) t ecc, s.sealable n g.toNat = some t → x.state = .running → (s.slot 18 n).running = true → (∀ e ∈ ecc, e ≠ .uncorrectable) →
      ∃ u, exec (.sealSlice p g ⟨t.id, ecc⟩) s = .next u ∧
        ((u.pld n).red.group g.toNat).sealed = (x.red.group g.toNat).sealed ++ [t.id] ∧
        u.reg (pldReg n 0x30C) = s.reg (pldReg n 0x30C) + 1 ∧
        let gr := x.red.group g.toNat
        ∀ r, (s.sealUnits n t (x.crest t - 62) ecc (t.slice gr.self gr.size)).1 = some r →
          let token := tokenBytes (x.sliceToken g.toNat t r.1 r.2.1) (s.epoch n) (s.mapTag n) (x.crest t)
          let msgs := gr.others.flatMap (fun h => redMsg s n 5 (gr.addr h) token ::
            r.2.2.map (fun e => redMsg s n 6 (gr.addr h) (unitHead t (s.epoch n) e.1 ++ e.2.lows)))
          ((s.slot 18 n).out ≠ [] → (u.slot 18 n).out = (s.slot 18 n).out ++ msgs) ∧
          ((s.slot 18 n).out = [] → (∀ h ∈ gr.others, s.egress (gr.addr h).toNat = .here) → u.links.localIn = s.links.localIn ++ msgs)) ∧
    (∀ (l w : List Int) (e : Word) (toe : Int), l.length = w.length →
      (Unit64.sealed { l := l, w := w, epoch := e } toe).1 =
        { l := List.zipWith (fun a b => if b = 0 then a else if 0 < b then 2 ^ 63 - 1 else -(2 ^ 63)) l w, w := w.map (fun _ => 0), epoch := e }) ∧
    (∀ ecc, s.startTurn 16 n (s.hostReady 16) = true →
      ∃ u, exec (.sharedDescriptorStart (.hostDma false) p ecc) s = .next u ∧
        (∀ q, q < 16 → q ≠ n → (s.slot 16 q).running = true → (u.slot 16 q).running = false ∧ (u.slot 16 q).parked = true ∧
          u.reg (pldReg q 0x060) = s.reg (pldReg q 0x060) + 1) ∧
        (∀ r, (s.slot 16 n).parked = false → s.hostWork 16 n = some (.request r) →
          (u.slot 16 n).running = true ∧ (u.slot 16 n).parked = false ∧ (u.slot 16 n).cur = some r.id ∧
          (r.isWrite = false → (u.slot 16 n).remote = true) ∧ u.store.reqs = s.store.reqs) ∧
        (∀ r, (s.slot 16 n).parked = true → (s.slot 16 n).cur = some r.id → r.stage = .landed → s.findReq r.id = some r →
          (u.slot 16 n).running = false ∧ (u.slot 16 n).cur = none ∧ ∃ r', u.findReq r.id = some r' ∧ r'.data = r.data ∧ r'.stage = .served))

/-- R263, R276, R277, R297, R317: with every completion token there, and no non-finite event of the polder under way (log entry 131),
the verdict is skip where a gradient tensor's tokens say that it
overtopped or met a non-finite value, where a candidate crest lies above 287, and where the monitor holds the step; it is apply
otherwise. The monitor reads the loss from a loss tensor that gave a value, flags it where it is infinite or where the exact test of
R277 holds against the window, and holds the step under ACTION 2. Under skip every conservator discards what it has started for the
polder; under apply it goes on. -/
def Obligations.StepVerdicts : Prop :=
  ∀ (s : State) (p : PolderId), s.Wf →
    let n := p.toNat
    let x := s.pld n
    let gs := x.cat.gradients
    let flagged := fun (t : Tensor) (i : Nat) => ∃ k ∈ x.red.tokens, k.tensor = t.id ∧ bitAt k.flags i = true
    x.state = .running → x.cat.kind = 0 → x.train.phase = .reducing ∨ x.train.phase = .evaluating → x.train.verdict = none →
    x.allComplete = true → s.contributed n = true → (∀ e ∈ s.nets.events, e.polder ≠ n) →
    ∃ u v, exec (.stepVerdict p) s = .next u ∧ (u.pld n).train.verdict = some v ∧
      (v.nonfin = true ↔ ∃ t ∈ gs, flagged t 2) ∧
      (v.ovt = true ↔ ∃ t ∈ gs, flagged t 0 ∨ flagged t 1) ∧
      (v.crest = true ↔ ∃ t ∈ gs, 287 < x.candidate t) ∧
      (v.skip = true ↔ v.nonfin = true ∨ v.ovt = true ∨ v.crest = true ∨ v.hold = true) ∧
      (u.pld n).train.phase = (if v.skip = true then .evaluating else .updating) ∧
      (∀ t, x.cat.monitorOn = true → gs.find? (fun t => t.id == x.cat.lossTensor) = some t →
        ¬ flagged t 0 → ¬ flagged t 1 → ¬ flagged t 2 →
        let l := s.loss n t
        let caught := isInf l = true ∨ spike (x.train.window x.cat.window) x.cat.warmup x.cat.kFactor l = true
        v.loss = some l ∧ u.reg (spkReg n 0x064) = l ∧ (v.hold = true ↔ caught ∧ x.cat.action = 2) ∧
        (caught → u.reg64 (spkReg n 0x074) = (s.reg64 (spkReg n 0x074) + 1) % 2 ^ 64)) ∧
      (x.cat.monitorOn = false ∨ (∀ t ∈ gs, t.id = x.cat.lossTensor → ∃ i, i < 3 ∧ flagged t i) → v.loss = none ∧ v.hold = false) ∧
      (∀ k, k < 12 → (s.cns k).running = some n →
        (v.skip = true → (u.cns k).running = none ∧ u.reg (cnsPage k + 0x060) = s.reg (cnsPage k + 0x060) + 1) ∧
        (v.skip = false → (u.cns k).running = some n ∧ (u.cns k).holding = false)) ∧
      (∀ k, k < 12 → (s.cns k).running ≠ some n → u.cns k = s.cns k)

/-- R260, R279, R297: a commit under apply raises SPK_STEP by one, and under skip leaves it and raises SPK_SKIPS; every gradient tensor
takes its candidate crest where that is 287 or less and keeps its own otherwise; the monitor's window takes a finite loss under apply,
and HOLD_RUN counts the holds in a row. The phase returns to idle with nothing received for the next epoch, and every conservator
begins again at its first descriptor. The commit waits for its record's room in the completion ring. -/
def Obligations.StepCommits : Prop :=
  ∀ (s : State) (p : PolderId) (v : Verdict), s.Wf →
    let n := p.toNat
    let x := s.pld n
    let epoch := s.reg (pldReg n 0x304)
    x.state = .running → x.train.verdict = some v → v.skip = true ∨ s.updated n = true →
    (s.queuesOn n = true → s.cqRoom n 1 = true) →
    ∃ u, exec (.stepCommit p) s = .next u ∧
      (v.skip = false → u.reg (spkReg n 0x040) = s.reg (spkReg n 0x040) + 1 ∧ u.reg64 (spkReg n 0x048) = s.reg64 (spkReg n 0x048) ∧
        u.reg (spkReg n 0x044) = 0) ∧
      (v.skip = true → u.reg (spkReg n 0x040) = s.reg (spkReg n 0x040) ∧
        u.reg64 (spkReg n 0x048) = (s.reg64 (spkReg n 0x048) + 1) % 2 ^ 64) ∧
      u.reg (pldReg n 0x304) = (if epoch = 0xFFFFFFFF then 1 else epoch + 1) ∧
      (u.pld n).train.phase = .idle ∧ (u.pld n).train.verdict = none ∧ (u.pld n).train.ran = [] ∧
      (u.pld n).red.crests = x.cat.gradients.map (fun t => (t.id, if x.candidate t ≤ 287 then x.candidate t else x.crest t)) ∧
      (u.pld n).red.ledger = [] ∧ (u.pld n).red.tokens = [] ∧ (u.pld n).red.finals = [] ∧ (u.pld n).red.complete = [] ∧
      (∀ k, k < 12 → (u.cns k).next = Table.put 0 (s.cns k).next n 0) ∧
      (x.cat.monitorOn = false → (u.pld n).train.losses = x.train.losses ∧ u.reg (spkReg n 0x07C) = s.reg (spkReg n 0x07C)) ∧
      (x.cat.monitorOn = true →
        (∀ l, v.skip = false → v.loss = some l → isInf l = false →
          (u.pld n).train.losses = (padTo 0 x.cat.window x.train.losses).set x.train.pos l ∧
          (u.pld n).train.pos = (x.train.pos + 1) % x.cat.window ∧ (u.pld n).train.count = min (x.train.count + 1) x.cat.window) ∧
        (v.skip = true ∨ (∃ l, v.loss = some l ∧ isInf l = true) ∨ v.loss = none →
          (u.pld n).train.losses = x.train.losses ∧ (u.pld n).train.pos = x.train.pos ∧ (u.pld n).train.count = x.train.count) ∧
        (v.hold = true → u.reg (spkReg n 0x07C) = s.reg (spkReg n 0x07C) + 1) ∧
        (v.hold = false → v.skip = false → v.loss.isSome = true → u.reg (spkReg n 0x07C) = 0) ∧
        (v.hold = false → v.skip = true → u.reg (spkReg n 0x07C) = s.reg (spkReg n 0x07C)))

/-- R186, R226, R315 to R318, R322: a conservator starts the next descriptor of the slot whose turn it is when it is free, or when the
descriptor that it holds before its first write gives way, which counts in CNS_DISCARD; before the verdict the descriptor starts only
on an idle conservator where no slot has one ready under apply, and it holds. The reads of the start are accesses by the conservator's
walker: an uncorrectable error on one of them stops the slot with no memory written, shows its code and sends the cause. A descriptor
that completes advances its slot and counts, and a frozen entry's writes no memory; one whose writes meet a fault ends without counting.
That all of a descriptor is carried out at its completion is the model's choice (log entry 34). -/
def Obligations.ConservatorDescriptors : Prop :=
  ∀ (s : State) (n : Fin 12) (p : PolderId) (d : UpdDesc), s.Wf →
    let k := n.val
    let q := p.toNat
    let x := s.pld q
    let c := s.cns k
    s.nextDesc k q = some d →
    (∀ ecc,
      (s.cnsReady k q false = true ∧ (c.running = none ∨ c.holding = true ∧ c.running.isSome = true ∧ c.running ≠ some q) ∧
          s.chooses (cnsResource k) (fun r => s.cnsReady k r false) = some q ∨
        c.running = none ∧ (∀ r, r < 16 → s.cnsReady k r false = false) ∧ s.cnsReady k q true = true ∧
          s.chooses (cnsResource k) (fun r => s.cnsReady k r true) = some q) →
      let saved := (CnsRun.begin ((s.yieldHeld k).useSlot (cnsResource k) q false) ecc).saveCarry k q
      let read := saved.readDesc k q d ((saved.state.cns k).carried.contains (q, d.entry))
      ∃ u, exec (.conservatorDescriptorStart n ⟨p, ecc⟩) s = .next u ∧ (u.cns k).next = c.next ∧
        (read.ok = true → (u.cns k).running = some q ∧ ((u.cns k).holding = true ↔ x.train.phase ≠ .updating)) ∧
        (read.ok = false → (u.cns k).running = none) ∧
        (c.running ≠ none → u.reg (cnsPage k + 0x060) = s.reg (cnsPage k + 0x060) + 1) ∧
        (c.accOf = none ∨ (∃ e, c.accOf = some (q, e)) → (u.cns k).acc = c.acc ∧ (u.cns k).accOf = c.accOf ∧
          u.store.hbm = s.store.hbm ∧ u.store.depot = s.store.depot ∧ u.store.col = s.store.col) ∧
        (∀ r e, c.accOf = some (r, e) → r ≠ q → (u.cns k).acc = [] ∧ (u.cns k).accOf = none) ∧
        (∀ e rest master y s', c.accOf = none → ecc = (e, .uncorrectable) :: rest → x.cat.find (x.update d.entry).master = some master →
          0 < d.rows → 0 < (x.update d.entry).cols →
          ((s.yieldHeld k).useSlot (cnsResource k) q false).cnsXl k q (master.va + 4 * (x.update d.entry).cols * d.first) false e = (some y, s') →
          s.routeUp (k / 3) y.die = true →
          q ∈ (u.cns k).stopped ∧ u.reg (cnsPage k + 0x068) = BitVec.ofNat 32 y.errorCode ∧
          u.nets.causes = s.nets.causes ++ [{ polder := q, code := y.errorCode, kind := 9, unit := k, addr := y.off }])) ∧
    (∀ ecc, c.running = some q → x.train.phase = .updating →
      let y := x.update d.entry
      ∀ master stats, x.cat.find y.master = some master → x.cat.find y.stats = some stats →
        let mom := (x.cat.find y.mom).getD master
        let e := s.entryCtx q y stats
        let written := (CnsRun.begin s ecc).writeDesc k q y d e master mom stats
          (s.runRows q y d e master mom stats (s.entryK q y stats).2 (s.startSums k q y d stats))
        let counted := fun (u : State) => (u.cns k).next = Table.put 0 c.next q (Table.get 0 c.next q + 1) ∧
          u.reg64 (cnsPage k + 0x044) = (s.reg64 (cnsPage k + 0x044) + 1) % 2 ^ 64
        ∃ u, exec (.conservatorDescriptorDone n ecc) s = .next u ∧ (u.cns k).running = none ∧ (u.cns k).holding = false ∧
          (bitAt master.flags 1 = true → counted u ∧ u.store = s.store ∧ u.reg (cnsPage k + 0x064) = s.reg (cnsPage k + 0x064) + 1) ∧
          (bitAt master.flags 1 = false → u.store = written.state.store ∧ u.nets.causes = written.state.nets.causes ∧
            (written.ok = true → counted u) ∧ (written.ok = false → (u.cns k).next = c.next)))

/-! ### Serving (R323 to R346) -/

/-- R333, R408, R410: the part takes a serving polder's next intake entry. One whose record cannot be read, as while the VF's Bus Master Enable
is 0, is refused with code 0x0911, a malformed record and one of another step are refused whole and counted, and both leave the sequences as they were. An accepted intake
appends a waiting sequence for each descriptor in order, with the next arrival number, where its fields are in range and its ID is new
to the sequences and to every earlier descriptor of the intake, a refused one among them, counts the others, and marks the sequence
that a cancel names. While a boundary is carried out the entry waits. That a malformed record is refused under 0x0910 is the model's
choice (log entry 35). -/
def Obligations.IntakesAreTakenInOrder : Prop :=
  ∀ (s : State) (p : PolderId) (tag : Half) (va : Dword) (rest : List (Half × Dword)), s.Wf →
    let n := p.toNat
    let x := s.pld n
    let reject := s.reg (pldReg n 0x434)
    let head := s.hostRead va.toNat 16
    let news := peek head 8 2
    let cancels := peek head 10 2
    let formed := peek head 0 2 = 1 ∧ zeros head 2 2 = true ∧ zeros head 12 4 = true ∧ news ≤ 1024 ∧ cancels ≤ 4096
    let current := peek head 4 4 = x.serve.started % 2 ^ 32
    let item := fun i => s.hostRead (va.toNat + 16 + 64 * i) 64
    let kept := fun (u : State) => (u.pld n).serve.seqs = x.serve.seqs ∧ (u.pld n).serve.intakeOk = x.serve.intakeOk
    x.intakes = (tag, va) :: rest → x.state = .running → x.serve.records = [] →
    (x.serve.planned = true ∨ x.serve.boundary ≠ none → ∀ rd, exec (.intake p rd) s = .next s) ∧
    (x.serve.planned = false → x.serve.boundary = none →
    (∀ rd, (n + 1 ∈ s.hif.masters → ∃ a, rd = .fails a) →
      ∃ u, exec (.intake p rd) s = .next u ∧ (u.pld n).intakes = rest ∧ kept u ∧ u.reg (pldReg n 0x434) = reject ∧
      (s.queuesOn n = true → s.cqRoom n 1 = false →
        (u.pld n).serve.records = [(5, refusalRecord 0x0911 tag.toNat 0 0 0)] ∧ u.store = s.store)) ∧
    (n + 1 ∈ s.hif.masters →
    (¬ formed ∨ ¬ current → ∃ u, exec (.intake p .success) s = .next u ∧ (u.pld n).intakes = rest ∧ kept u ∧
      u.reg (pldReg n 0x434) = reject + 1 ∧
      (s.queuesOn n = true → s.cqRoom n 1 = false →
        (u.pld n).serve.records = [(5, refusalRecord (if formed then 0x090C else 0x0910) tag.toNat 0 0 0)])) ∧
    (formed → current → cancels = 0 →
      (∀ i, i < news → descriptorOk x.cat.serve (item i) = true ∧ (∀ q ∈ x.serve.seqs, q.id.toNat ≠ peek (item i) 0 8) ∧
        ∀ j, j < i → peek (item j) 0 8 ≠ peek (item i) 0 8) →
      ∃ u, exec (.intake p .success) s = .next u ∧ (u.pld n).intakes = rest ∧ (u.pld n).serve.intakeOk = true ∧
        (u.pld n).serve.seqs = x.serve.seqs ++ (List.range news).map (fun i => seqOf (item i) (x.serve.arrivals + i)) ∧
        (u.pld n).serve.arrivals = x.serve.arrivals + news ∧ u.reg (pldReg n 0x434) = reject) ∧
    (formed → current → cancels = 0 → news = 1 →
      descriptorOk x.cat.serve (item 0) = false ∨ (∃ q ∈ x.serve.seqs, q.id.toNat = peek (item 0) 0 8) →
      ∃ u, exec (.intake p .success) s = .next u ∧ (u.pld n).serve.intakeOk = true ∧ (u.pld n).serve.seqs = x.serve.seqs ∧
        u.reg (pldReg n 0x434) = reject + 1) ∧
    (formed → current → news = 0 → cancels = 1 →
      let id := BitVec.ofNat 64 (leNat (s.hostRead (va.toNat + 16) 8))
      ((∃ q ∈ x.serve.seqs, q.id = id) →
        ∃ u, exec (.intake p .success) s = .next u ∧ u.reg (pldReg n 0x434) = reject ∧
          (u.pld n).serve.seqs = x.serve.seqs.map (fun q => if q.id == id then { q with cancelled := true } else q)) ∧
      ((∀ q ∈ x.serve.seqs, q.id ≠ id) →
        ∃ u, exec (.intake p .success) s = .next u ∧ u.reg (pldReg n 0x434) = reject + 1 ∧ (u.pld n).serve.seqs = x.serve.seqs)) ∧
    (formed → current → cancels = 0 → news = 2 → descriptorOk x.cat.serve (item 0) = false → peek (item 1) 0 8 = peek (item 0) 0 8 →
      (s.queuesOn n = true → s.cqRoom n 1 = false) →
      ∃ u, exec (.intake p .success) s = .next u ∧ u.reg (pldReg n 0x434) = reject + 2 ∧ (u.pld n).serve.seqs = x.serve.seqs)))

/-- R335 to R337, R354, R411: a boundary of a serving polder, once the last step is over, an intake is accepted and no row copy, move or
record is left over, waits with its records where the completion ring has no room for them all, its plan not taken; else it takes the
curator's plan: its sequences, moves and batch, and its counts of pre-emptions, resumes and evictions. A plan
without entries starts no slot and waits for the next intake. Under a pending retire every sequence leaves and the job has ended. -/
def Obligations.BoundariesPlanTheStep : Prop :=
  ∀ (s : State) (p : PolderId), s.Wf →
    let n := p.toNat
    let x := s.pld n
    let b := s.planBoundary n
    let held := s.queuesOn n = true ∧ b.records ≠ [] ∧ s.cqRoom n b.records.length = false
    x.state = .running → x.cat.kind = 1 → x.ended = false → s.stepOver n = true → x.serve.planned = false →
    x.serve.intakeOk = true ∨ x.retirePending = true → x.serve.toCopy = [] → x.serve.moves = [] → x.serve.records = [] →
    x.serve.boundary = none → (∀ c ∈ x.resultPieces, ∃ a, s.translate 0 n c.1 false = .at_ a) →
    (∀ ecc, (∀ e ∈ ecc, e ≠ .uncorrectable) → held →
      ∃ u, exec (.stepBoundary ⟨p, ecc⟩) s = .next u ∧ (u.pld n).serve.boundary = some x.retirePending ∧
        (u.pld n).serve.records ≠ [] ∧ (u.pld n).serve.seqs = x.serve.seqs ∧ (u.pld n).serve.next = x.serve.next ∧
        (u.pld n).serve.planned = false ∧ (u.pld n).serve.moves = [] ∧ u.reg (pldReg n 0x420) = s.reg (pldReg n 0x420)) ∧
    (∀ ecc, (∀ e ∈ ecc, e ≠ .uncorrectable) → ¬ held →
    ∃ u, exec (.stepBoundary ⟨p, ecc⟩) s = .next u ∧ (u.pld n).serve.seqs = b.seqs ∧ (u.pld n).serve.boundary = none ∧
      (u.pld n).serve.moves.map (fun m => (m.src, m.dst)) = b.moves.map (fun m => (m.src, m.dst)) ∧
      (u.pld n).serve.next = b.batch ∧ (u.pld n).serve.batch = [] ∧
      ((u.pld n).serve.planned = true ↔ b.batch ≠ []) ∧ ((u.pld n).serve.intakeOk = true ↔ b.batch ≠ []) ∧
      (u.pld n).ended = x.retirePending ∧ (u.pld n).serve.started = x.serve.started ∧ (u.pld n).serve.live = x.serve.live ∧
      u.reg (pldReg n 0x420) = s.reg (pldReg n 0x420) + BitVec.ofNat 32 b.preempts ∧
      u.reg (pldReg n 0x424) = s.reg (pldReg n 0x424) + BitVec.ofNat 32 b.resumes ∧
      u.reg (pldReg n 0x428) = s.reg (pldReg n 0x428) + BitVec.ofNat 32 b.evicts ∧
      (x.retirePending = true → (u.pld n).serve.seqs = [] ∧ (u.pld n).serve.next = []))

/-- R335: L never exceeds MAX_MB_LEN: where the sequences have IDs of their own and no more of them run than MAX_MB_LEN, the tokens of
all the entries that a boundary plans are at most MAX_MB_LEN. -/
def Obligations.StepsStayWithinMaxLength : Prop :=
  ∀ (s : State) (p : PolderId),
    let x := s.pld p.toNat
    x.serve.seqs.Pairwise (fun a b => a.id ≠ b.id) →
    x.serve.seqs.countP (fun q => q.state == .running) ≤ x.cat.mbMax →
    (s.planBoundary p.toNat).batch.foldl (fun n e => n + e.count) 0 ≤ x.cat.mbMax

/-- R186, R246, R336 to R338, R344, R363: the moves of a boundary that host DMA runs complete in order, and the last one ends the wait
that PLD_SRV_MOVE_CC counts; a moved block reads at its new place as it did at its old one. A parked move becomes ready. An uncorrectable
error of what a move, a row copy or the slot start reads sends its cause, and the move, copy or start does not complete. With every move complete the slot starts: the pending version becomes
live, the planned batch runs, the edited rows wait for their copies, and the plan's digest, length and count are shown. Every tile
receives the slot record. A row copy brings the live version's row into the new pending version. -/
def Obligations.ServingStepsStart : Prop :=
  ∀ (s : State) (p : PolderId), s.Wf →
    let n := p.toNat
    let x := s.pld n
    let v := x.serve
    x.state = .running →
    (∀ k m rest ecc, v.moves = m :: rest → s.runningMove n = some (k, m) → (s.slot k n).parked = false →
      let blocks := x.cat.serve.layers * x.cat.serve.hgCount
      let done := ((s.endWait k n).moveBlocks n (k - 12) m ecc (List.range blocks)).1
      ∃ u, exec (.pageMoveComplete ⟨p, ecc⟩) s = .next u ∧ (u.slot k n).running = false ∧
        (done = false → (u.pld n).serve.moves = v.moves ∧ (u.slot k n).stopped = true ∧ u.reg (pldReg n 0x430) = s.reg (pldReg n 0x430)) ∧
        (done = true → (u.pld n).serve.moves = rest ∧
          u.reg (pldReg n 0x430) = s.reg (pldReg n 0x430) + BitVec.ofNat 32 (if rest = [] then (s.cc - v.waitCc).toNat else 0)) ∧
        ∀ a b, blocks = 1 → 0 < x.cat.serve.blockBytes → x.cat.serve.blockBytes ≤ 1024 →
          blockVa x.cat m.src 0 % 1024 = 0 → blockVa x.cat m.dst 0 % 1024 = 0 →
          s.translate (walkerDie (k - 12)) n (blockVa x.cat m.src 0) false = .at_ a →
          s.translate (walkerDie (k - 12)) n (blockVa x.cat m.dst 0) true = .at_ b →
          s.routeUp (k - 12) a.die = true → s.routeUp (k - 12) b.die = true → s.accumulates b = false → b.space ≠ .host →
          (a.space = .host → n + 1 ∈ s.hif.masters) →
          (eccAt ecc 0 = .uncorrectable → done = false ∧
            u.nets.causes = s.nets.causes ++ [{ polder := n, code := a.errorCode, kind := 0xB, unit := k - 12, addr := a.off }]) ∧
          (eccAt ecc 0 ≠ .uncorrectable → done = true ∧ u.memRead b x.cat.serve.blockBytes = s.memRead a x.cat.serve.blockBytes)) ∧
    (∀ k m ecc, s.runningMove n = some (k, m) → (s.slot k n).parked = true →
      ∃ u, exec (.pageMoveComplete ⟨p, ecc⟩) s = .next u ∧ (u.slot k n).remote = false ∧ u.polders = s.polders) ∧
    (∀ a c cs ecc, x.cat.kind = 1 → s.slotReady n = true → v.planned = true → v.moves = [] → x.ended = false →
      (s.queuesOn n = true → s.cqRoom n 1 = true) → x.planPieces = c :: cs → s.translate 0 n c.1 false = .at_ a → eccAt ecc 0 = .uncorrectable →
      ∃ u, exec (.slotStart ⟨p, ecc⟩) s = .next u ∧ u.polders = s.polders ∧
        u.nets.causes = s.nets.causes ++ [{ polder := n, code := a.errorCode, kind := 0xE, unit := 0, addr := a.off }]) ∧
    (∀ (slot : BitVec 12) ecc, slot.toNat ∈ v.toCopy →
      let k := slot.toNat
      let len := x.cat.serve.maxPages * 4
      let src := rowVa x.cat v.live k
      let dst := rowVa x.cat (1 - v.live) k
      (∀ row s', s.curatorFetch n ecc (kibs src len) = (some row, s') →
        ∃ u, exec (.tableRowCopy p ⟨slot, ecc⟩) s = .next u ∧ (u.pld n).serve.toCopy = v.toCopy.filter (· ≠ k) ∧
          (u.pld n).serve.deferred = v.deferred.filter (· ≠ k) ∧ (k ∈ v.deferred → k ∈ (u.pld n).serve.edited) ∧
          ∀ b, k ∉ v.deferred → 0 < len → len ≤ 1024 - dst % 1024 → s.translate 0 n dst true = .at_ b → b.space ≠ .host →
            u.memRead b len = row) ∧
      (∀ a, 0 < len → len ≤ 1024 - src % 1024 → s.translate 0 n src false = .at_ a →
        (eccAt ecc 0 ≠ .uncorrectable → (s.curatorFetch n ecc (kibs src len)).1 = some (s.memRead a len)) ∧
        (eccAt ecc 0 = .uncorrectable → ∃ u, exec (.tableRowCopy p ⟨slot, ecc⟩) s = .next u ∧ u.polders = s.polders ∧
          u.nets.causes = s.nets.causes ++ [{ polder := n, code := a.errorCode, kind := 0xE, unit := 0, addr := a.off }]))) ∧
    (∀ ecc, x.cat.kind = 1 → s.slotReady n = true → v.planned = true → v.moves = [] → x.ended = false →
      (s.queuesOn n = true → s.cqRoom n 1 = true) →
      (∀ e ∈ ecc, e ≠ .uncorrectable) → (∀ c ∈ x.planPieces, ∃ a, s.translate 0 n c.1 false = .at_ a) →
      let live := 1 - v.live
      let len := batchLen v.next
      let digest := planDigest (s.curatorRead n (batchVa x.cat live) (32 * v.next.length) ++ s.curatorRead n (tokenVa x.cat live) (4 * len))
      ∃ u, exec (.slotStart ⟨p, ecc⟩) s = .next u ∧ (u.pld n).serve.started = v.started + 1 ∧ (u.pld n).serve.live = live ∧
        (u.pld n).serve.batch = v.next ∧ (u.pld n).serve.planned = false ∧ (u.pld n).serve.intakeOk = false ∧
        (u.pld n).serve.toCopy = v.edited ∧ (u.pld n).slotNo = x.slotNo + 1 ∧ (u.pld n).slotCc = s.cc ∧
        u.reg64 (pldReg n 0x440) = digest.toNat ∧ u.reg (pldReg n 0x44C) = BitVec.ofNat 32 len ∧
        u.reg64 (pldReg n 0x438) = (s.reg64 (pldReg n 0x438) + len) % 2 ^ 64 ∧
        ∀ t ∈ x.tiles, u.store.dstore.readN (t * 2 ^ 14 + 30 * 512) 32 =
          leBytes 4 v.started ++ leBytes 4 len ++ leBytes 4 0 ++ leBytes 4 x.slotNo ++ leBytes 2 v.next.length ++ leBytes 1 live ++
            List.replicate 13 0)

/-! ### Links (R376 to R402) -/

/-- R376 to R379, R396, R399, R401, R450, R475: PRT_CTL puts a port into a mode, unless a polder names the port, the mode is none of the
three, or the part lacks the identity that the mode needs. Training with all four lanes brings an Ethernet port up and makes a native
port send IDENT and wait for the peer's; fewer lanes leave it in lane fault with the others marked for a spare. An IDENT is shown, and
brings the port up where it comes from the port's own ring; another ring, or none within 1 200 000 cc, leaves it miswired. A port that
is down or miswired trains again after 1 200 000 cc. A lane lost in UP takes the link down with cause 1 for every polder that names
it. The lane PLLs lock and lose lock with LREFCLK. -/
def Obligations.PortsTrainAndGoDown : Prop :=
  ∀ (s : State) (n : PortId), s.Wf →
    let k := n.toNat
    let x := s.port k
    let a := prtPage k
    let dom := if 8 ≤ k then 0x61 else 0x60
    (∀ w : Word,
      let mode := w.toNat % 4
      (s.portReached k = false → exec (.prtCtl n w) s = .next { s with answer := .error }) ∧
      (s.portReached k = true → s.prtCtlIgnored k mode = true →
        ∃ u, exec (.prtCtl n w) s = .next u ∧ u.reg (a + 0x040) = s.reg (a + 0x040) ∧ u.links = s.links ∧ u.answer = .written) ∧
      (s.portReached k = true → s.prtCtlIgnored k mode = false →
        ∃ u, exec (.prtCtl n w) s = .next u ∧ u.reg (a + 0x040) = BitVec.ofNat 32 (w.toNat % 64) ∧ u.answer = .written ∧
          (mode = x.mode → u.links = s.links) ∧
          (mode ≠ x.mode → (u.port k).mode = mode ∧ (u.port k).state = (if mode = 0 then .off else .training) ∧ (u.port k).waitTx = []) ∧
          ∀ j, j ≠ k → u.port j = { s.port j with owed := (u.port j).owed, nakDue := (u.port j).nakDue, ackDue := (u.port j).ackDue })) ∧
    (x.state = .training → x.waitIdent = false →
      (x.mode = 1 → x.waitTx = [] → ∃ u o, exec (.portTraining n 15) s = .next u ∧ (u.port k).waitIdent = true ∧ (u.port k).identCc = s.now dom ∧
        u.links.sent = s.links.sent ++ [o] ∧ o.type = 9 ∧ o.port = k ∧ o.msg.payload = Config.messageBody 9 [s.partId, k, 1] ∧
        o.msg.seq = Table.get 0 s.links.seqs (k * 16) ∧ o.msg.cls = s.dateline k) ∧
      (x.mode ≠ 1 → ∃ u, exec (.portTraining n 15) s = .next u ∧ (u.port k).state = .up ∧ u.reg (a + 0x060) = s.reg (a + 0x060) + 1) ∧
      ∀ lanes : BitVec 4, lanes ≠ 15 → ∃ u, exec (.portTraining n lanes) s = .next u ∧ (u.port k).state = .laneFault ∧
        ∀ i, i < 4 → (k * 4 + i ∈ u.spares.lanePending ↔ k * 4 + i ∈ s.spares.lanePending ∨ lanes.getLsbD i = false)) ∧
    (x.mode = 1 → x.waitIdent = true →
      (∀ (peer : BitVec 12) (port : BitVec 4) cls seq flit, x.takesOne flit = true →
        ∃ u, exec (.ident n peer ⟨port, cls, seq, flit⟩) s = .next u ∧
        u.reg (a + 0x048) = BitVec.ofNat 32 (peer.toNat + port.toNat * 2 ^ 12 + 2 ^ 16) ∧ (u.port k).waitIdent = false ∧
        (u.port k).state = if peer.toNat / 64 = s.partId / 64 then .up else .miswired) ∧
      (1200000 ≤ (s.now dom - x.identCc).toNat →
        ∃ u, exec (.identTimeout n) s = .next u ∧ (u.port k).state = .miswired ∧ (u.port k).downCc = s.now dom)) ∧
    (x.state = .down ∨ x.state = .miswired → x.mode ≠ 0 → s.portPowered k = true → s.boot.s0Lost = false → 1200000 ≤ (s.now dom - x.downCc).toNat →
      ∃ u, exec (.portRetry n) s = .next u ∧ (u.port k).state = .training ∧ { u with links := s.links } = s) ∧
    (x.state = .up → ∀ lane : BitVec 2,
      ∃ u, exec (.linkSignalLoss n lane) s = .next u ∧ (u.port k).state = .down ∧ bitAt (u.port k).lanes lane.toNat = false ∧
        u.reg (a + 0x04C) = BitVec.ofNat 32 (0x0610 + k) ∧ (u.port k).waitTx = [] ∧
        ∀ q, q < 16 → (s.pld q).state.resident = true →
          bitAt (s.pld q).cat.ports k = true ∨ (x.mode = 1 ∧ s.namesNative (s.pld q) = true) →
          ∃ c ∈ u.nets.causes, c.polder = q ∧ c.code = 0x0610 + k) ∧
    ((if k < 8 then s.boot.s0On = true else s.portPowered k = true) →
      ∃ u, exec (.lanePllLock n) s = .next u ∧ u.port k = { x with locked := true } ∧ ∀ j, j ≠ k → u.port j = s.port j) ∧
    (∀ s1 : Bool, ∃ u, exec (.lrefclkLoss s1) s = .next u ∧
      (if s1 then u.board.lrefLost1 else u.board.lrefLost0) = true ∧
      ∀ j, j < 16 → u.port j = if (8 ≤ j ↔ s1 = true) then { s.port j with locked := false } else s.port j)

/-- R380 to R383, R386, R387, R396: a native receiver that meets a bad flit discards until the replay and asks for it, here by a NULL
flit that the port sends at once (log entry 127); a NAK, and 2 048 lc
without progress, replay what is not acknowledged, and the sixteenth replay in a row without progress ends the link with cause 2. An
ACK and the credits of a null flit free the retry buffer and the channel, and what waits then goes out. In Ethernet mode PRT_RTO
without progress sends every message of the context that is not acknowledged again, but for those of a paused channel, and a pause frame holds the channels of its
priority until it lasts out. -/
def Obligations.LinksRetryAndPause : Prop :=
  ∀ (s : State) (n : PortId), s.Wf →
    let k := n.toNat
    let x := s.port k
    let a := prtPage k
    let replayed := fun (u : State) (left : List Flit) (fails : Nat) =>
      (left = [] → (u.port k).state = .up) ∧
      (left ≠ [] → u.reg (a + 0x05C) = s.reg (a + 0x05C) + BitVec.ofNat 32 left.length ∧
        (16 ≤ fails + 1 → (u.port k).state = .down ∧ u.reg (a + 0x04C) = BitVec.ofNat 32 (0x0620 + k)) ∧
        (fails + 1 < 16 → (u.port k).state = .up ∧ (u.port k).fails = fails + 1 ∧ (x.waitTx = [] → (u.port k).retry = left)))
    (x.state = .up → x.mode = 1 →
      (∃ u, exec (.linkFlitCrcError n) s = .next u ∧ (u.port k).discarding = true ∧ (u.port k).nakDue = false ∧
        ((∀ j, j < 16 → (s.port j).owes = false) → u.links.ports = Table.put default s.links.ports k { x with discarding := true } ∧
          u.reg64 (a + 0x070) = (s.reg64 (a + 0x070) + 1) % 2 ^ 64 ∧
          ∃ w, u.links.wire = s.links.wire ++ [w] ∧ w.port = k ∧ w.bytes.length = 256 ∧
            w.bytes.take 8 = leBytes 8 (32 + 64 + (x.rxSeq - 1).toNat * 2 ^ 20))) ∧
      (∀ ack, x.discarding = false → let left := unacknowledged ack x.retry
        ∃ u, exec (.linkNak n ack) s = .next u ∧ u.reg64 (a + 0x078) = (s.reg64 (a + 0x078) + 1) % 2 ^ 64 ∧ replayed u left (if left.length = x.retry.length then x.fails else 0)) ∧
      (2048 ≤ (s.now (0x40 + k) - x.ackLc).toNat → ∃ u, exec (.linkAckTimeout n) s = .next u ∧ replayed u x.retry x.fails) ∧
      (∀ (ack : BitVec 12) (vc : BitVec 2) (cls : Bool) (count : BitVec 9),
        (x.discarding = true → exec (.nullFlit n ack vc cls count) s = .next s ∧ exec (.linkNak n ack) s = .next s) ∧
        (x.discarding = false →
        let left := unacknowledged ack x.retry
        let key := vc.toNat * 2 + if cls then 1 else 0
        let spent := Table.put 0 x.spent key (Table.get 0 x.spent key - count.toNat)
        ∃ u, exec (.nullFlit n ack vc cls count) s = .next u ∧ u.reg64 (a + 0x078) = (s.reg64 (a + 0x078) + 1) % 2 ^ 64 ∧
          (x.waitTx = [] → (u.port k).retry = left ∧ (u.port k).spent = spent ∧ u.links.sent = s.links.sent) ∧
          (∀ o, x.waitTx = [o] → Table.get 0 x.started (creditKey o.msg) = 0 →
            Table.get 0 spent (creditKey o.msg) + msgFlits o.msg ≤ vcBuffer o.msg.vc.toNat → left.length + msgFlits o.msg ≤ 256 →
            (u.port k).waitTx = [] ∧ u.links.sent = s.links.sent ++ [{ o with since := s.now (0x40 + k) }] ∧
              (u.port k).retry.length = left.length + msgFlits o.msg) ∧
          (∀ o, x.waitTx = [o] → vcBuffer o.msg.vc.toNat ≤ Table.get 0 spent (creditKey o.msg) →
            (u.port k).waitTx = [{ o with since := s.now (0x40 + k) }] ∧ u.links.sent = s.links.sent)))) ∧
    (x.state = .up → x.mode = 2 →
      (∀ peer : BitVec 12,
        let c := s.ctx k peer.toNat
        c.unacked ≠ [] → (s.reg (a + 0x094)).toNat % 65536 * 1024 ≤ (s.now (0x40 + k) - c.lc).toNat →
        let again := c.unacked.filter (fun o => o.msg.vc.toNat ∉ x.paused)
        ∃ u, exec (.resendTimeout n peer) s = .next u ∧ u.links.sent = s.links.sent ++ again ∧
          u.links.wire = s.links.wire ++ again.map (fun o => { port := k, bytes := s.frameBytes k o.type o.msg }) ∧
          u.reg (a + 0x05C) = s.reg (a + 0x05C) + BitVec.ofNat 32 again.length ∧ u.links.ports = s.links.ports) ∧
      (∀ pcp : BitVec 3, ∃ u, exec (.pfcPause n pcp) s = .next u ∧ u.reg (a + 0x068) = s.reg (a + 0x068) + 1 ∧
        ∀ v, v ∈ (u.port k).paused ↔ v ∈ x.paused ∨ v ∈ s.pausedBy k pcp.toNat) ∧
      (∀ pcp : BitVec 3, ∃ u, exec (.pfcPauseEnd n pcp) s = .next u ∧
        ∀ v, v ∈ (u.port k).paused ↔ v ∈ x.paused ∧ v ∉ s.pausedBy k pcp.toNat))

/-- R383, R387, R389, R392, R394, R395: a message whose flits a native port takes counts them, and with its flits in order the number that
the port expects moves past them; one whose flits it does not take changes nothing. A WRITE from a peer within the receive region is
written there and signals where its last one asks for it; beyond the region it freezes the slot with code 0x0190; another one is
dropped and counted. A message in transit goes on by the port of its route, or is dropped and counted, as it is where a seam on the way
is out of service. A request for message slots from a known source is granted up to 8 of the 64 of its polder, and waits where none is
free. -/
def Obligations.WritesAndCreditsArrive : Prop :=
  ∀ (s : State) (n : PortId) (m : LinkMsg), s.Wf →
    let k := n.toNat
    let x := s.port k
    let a := prtPage k
    let p := m.dst.toNat / 4096
    let y := s.pld p
    let heard := s.forEach m.flits (fun s f => s.takeHeader k f)
    let counted := fun (u : State) => u.reg64 (a + 0x078) = (s.reg64 (a + 0x078) + msgFlits m) % 2 ^ 64 ∧
      (x.rxAhead = [] → m.payload.length ≤ 4096 → m.flits.map (·.fseq) = (List.range (msgFlits m)).map (fun i => x.rxSeq + BitVec.ofNat 12 i) →
        (u.port k).rxSeq = x.rxSeq + BitVec.ofNat 12 (msgFlits m))
    let dropped := fun (u : State) => u.reg (a + 0x06C) = s.reg (a + 0x06C) + 1 ∧ u.store = s.store
    x.state = .up → x.mode = 1 →
    (x.takes m = false → exec (.write n m) s = .next s ∧ exec (.credit n m false) s = .next s) ∧
    (x.takes m = true → (heard.port k).state = .up →
     (peerPart m = s.partId →
      (∃ u, exec (.write n m) s = .next u ∧ counted u) ∧
      (∀ e, y.links.find? (fun e => e.port == k) = some e → y.state = .running → m.src.toNat ∈ y.peers →
        let va := e.recvVa + m.dstOff.toNat
        let len := m.payload.length
        (m.dstOff.toNat + len ≤ e.recvBytes → ∀ b, 0 < len → len ≤ 1024 - va % 1024 →
          s.translate (if k < 8 then 0 else 2) p va true = .at_ b → s.routeUp (4 + k / 8) b.die = true → b.space ≠ .host →
          ∃ u, exec (.write n m) s = .next u ∧ u.memRead b len = m.payload ∧
            (m.last = true → m.sigEn = true → ∀ t, y.tiles[m.sigTile.toNat]? = some t →
              { src := t, die := 4 + k / 8, dst := t, ctr := m.sigCtr.toNat } ∈ u.nets.signals)) ∧
        (e.recvBytes < m.dstOff.toNat + len → m.credit = 0 →
          ∃ u, exec (.write n m) s = .next u ∧ (u.slot k p).frozen = true ∧ u.store = s.store ∧
            ∃ c ∈ u.nets.causes, c.polder = p ∧ c.code = 0x0190 ∧ c.kind = 0xC ∧ c.unit = k ∧ c.addr = va)) ∧
      ((∀ e, y.links.find? (fun e => e.port == k) = some e → y.state ≠ .running ∨ m.src.toNat ∉ y.peers) → m.credit = 0 →
        ∃ u, exec (.write n m) s = .next u ∧ dropped u) ∧
      (let used := Table.get 0 s.links.held (k * 16 + p)
       y.state = .running → y.knows m.src.toNat = true → m.credit = 0 → (∀ e ∈ s.links.asks, e.1 = k → e.2.1 ≠ p) →
        ∃ u, exec (.credit n m false) s = .next u ∧ counted u ∧
          (used < 64 → u.links.held = Table.put 0 s.links.held (k * 16 + p) (used + min 8 (64 - used)) ∧ u.links.asks = s.links.asks) ∧
          (64 ≤ used → u.links.held = s.links.held ∧ u.links.asks = s.links.asks ++ [(k, p, m.src.toNat)])) ∧
      (y.state ≠ .running ∨ y.knows m.src.toNat = false → m.credit = 0 →
        ∃ u, exec (.credit n m false) s = .next u ∧ dropped u) ∧
      (∀ c, m.credit = c → c ≠ 0 → (∀ j, j < 16 ∨ j = 18 → (s.slot j p).out = []) →
        ∃ u, exec (.credit n m true) s = .next u ∧
          u.links.credits = Table.put 0 s.links.credits (m.src.toNat * 16 + p) (s.slotCredit p m.src + c.toNat))) ∧
     (peerPart m ≠ s.partId →
      (∀ j, s.egress m.dst.toNat = .by_ j → j ≠ k → (s.port j).mode = 1 → (s.port j).waitTx = [] → x.waitTx = [] →
        s.routeUp (4 + k / 8) (4 + j / 8) = true →
        let o : OutMsg := { port := j, type := 1, msg := { m with cls := s.leaveClass j (some (k, m.cls)), flits := [] }, since := s.now (0x40 + j)
                            came := some (k, creditKey m) }
        Table.get 0 (s.port j).started (creditKey o.msg) = 0 →
        Table.get 0 (s.port j).spent (creditKey o.msg) + msgFlits m ≤ vcBuffer m.vc.toNat → (s.port j).retry.length + msgFlits m ≤ 256 →
        ∃ u, exec (.write n m) s = .next u ∧ u.links.sent = s.links.sent ++ [o] ∧ u.store = s.store) ∧
      ((∀ j, s.egress m.dst.toNat = .by_ j → s.routeUp (4 + k / 8) (4 + j / 8) = false) →
        ∃ u, exec (.write n m) s = .next u ∧ dropped u)))

/-- R383, R385, R387, R392, R397, R398: an acknowledgement in native mode ends the descriptor that waits for it, whose slot goes on, and in
Ethernet mode it clears the context's messages up to its PSN, where its frame is for the port and passes its checks; another frame is
dropped and counted. An alarm of the part's ring is acted on once: the port that it came by goes down with cause 3, every resident polder
that names a native port is torn down with code 0x0630 plus the port, and the alarm goes on, in the class of its route, by every other
native port in UP; one seen before, or of another ring, is dropped and counted, and one in a flit that the port does not take changes
nothing. The model's choices here: the acknowledgement ends the descriptor that was sent first (log entry 161), whose DONE needs no
credit of the sync network (log entry 129), and the port that an acted-on alarm came by goes down without an alarm of the part's own
(log entry 27). -/
def Obligations.AcksAndAlarmsArrive : Prop :=
  ∀ (s : State) (n : PortId) (m : LinkMsg), s.Wf →
    let k := n.toNat
    let x := s.port k
    let a := prtPage k
    let p := m.dst.toNat / 4096
    let heard := s.forEach m.flits (fun s f => s.takeHeader k f)
    x.state = .up →
    (x.mode = 1 → x.takes m = true → (heard.port k).state = .up → peerPart m = s.partId → m.credit = 0 →
      let waits := fun j => (s.slot j p).remote = true ∧ (s.slot j p).frozen = false ∧ (s.slot j p).out = [] ∧
        ∃ d rest, (s.slot j p).sends = d :: rest ∧ d.begun = true ∧ d.dst = m.src.toNat
      ∀ j d rest, j < 16 → waits j → (∀ i, i < 16 → i ≠ j → waits i → (s.slot j p).sentNo < (s.slot i p).sentNo) → (s.slot j p).sends = d :: rest →
        ∃ u, exec (.ack n m) s = .next u ∧ (u.slot j p).remote = false ∧
          ((s.slot j p).parked = true → (u.slot j p).sends = d :: rest) ∧
          ((s.slot j p).parked = false → (u.slot j p).sends = rest ∧ (u.slot j p).running = false ∧
            (d.doneEn = true → ∀ t, (s.pld p).tiles[d.doneTile]? = some t →
              { src := t, die := 4 + j / 8, dst := t, ctr := d.doneCtr } ∈ u.nets.signals))) ∧
    (x.mode = 2 → peerPart m = s.partId → m.credit = 0 → x.waitTx = [] →
      let peer := m.src.toNat % 4096
      let c := s.ctx k peer
      ∃ u, exec (.ack n m) s = .next u ∧ u.reg64 (a + 0x078) = (s.reg64 (a + 0x078) + 1) % 2 ^ 64 ∧ u.links.sent = s.links.sent ∧
        (s.frameOk k m = true → (u.ctx k peer).unacked = c.unacked.drop (covered m.psn c.unacked)) ∧
        (s.frameOk k m = false → u.reg (a + 0x06C) = s.reg (a + 0x06C) + 1 ∧ (u.ctx k peer).unacked = c.unacked)) ∧
    (∀ (ring : BitVec 6) (origin : BitVec 12) (number : Half) (cls : Bool) (seq : Dword) (flit : FlitHdr), x.mode = 1 →
      let seen := (origin.toNat, number.toNat) ∈ s.links.alarms
      let taken := x.takesOne flit = true
      (¬ taken → exec (.alarm n ring origin ⟨number, cls, seq, flit⟩) s = .next s) ∧
      (taken → ((s.takeHeader k flit).port k).state = .up →
       ∃ u, exec (.alarm n ring origin ⟨number, cls, seq, flit⟩) s = .next u ∧ u.reg64 (a + 0x078) = (s.reg64 (a + 0x078) + 1) % 2 ^ 64 ∧
        (ring.toNat ≠ s.partId / 64 % 64 ∨ seen →
          u.reg (a + 0x06C) = s.reg (a + 0x06C) + 1 ∧ u.nets.causes = s.nets.causes ∧ (u.port k).state = .up) ∧
        (ring.toNat = s.partId / 64 % 64 → ¬ seen → (origin.toNat, number.toNat) ∈ u.links.alarms ∧
          (u.port k).state = .down ∧ u.reg (a + 0x044) = 0x180 ∧ u.reg (a + 0x04C) = BitVec.ofNat 32 (0x0630 + k) ∧
          (∀ q, q < 16 → (s.pld q).state.resident = true → s.namesNative (s.pld q) = true →
            ∃ c ∈ u.nets.causes, c.polder = q ∧ c.code = 0x0630 + k) ∧
          (∀ j, j < 16 → j ≠ k → (s.port j).mode = 1 → (s.port j).state = .up →
            ∃ o, o.port = j ∧ o.type = 0xA ∧ o.msg.payload = Config.messageBody 0xA [ring.toNat, origin.toNat, number.toNat] ∧
              o.msg.cls = s.leaveClass j (some (k, cls)) ∧ (o ∈ u.links.sent ∨ o ∈ (u.port j).waitTx)))))

/-- R186, R226, R361, R363, R392 to R394: a link engine takes a descriptor of a running polder's send ring once its PHASE is the ring's, and freezes
the polder's slot with code 0x0191 where its form is not R392's. The slot whose turn it is starts: it reads its source and makes the WRITE messages
of its descriptor, parks another polder's slot that waits on the engine, and sends by the port of its route for one message slot each;
without one it asks for slots and waits. An uncorrectable error on a read of either sends its cause and stops the slot. -/
def Obligations.SendDescriptorsRun : Prop :=
  ∀ (s : State) (n : PortId) (p : PolderId), s.Wf →
    let k := n.toNat
    let q := p.toNat
    let x := s.pld q
    let sl := s.slot k q
    let copy := if k < 8 then 0 else 2
    (∀ e y ecc, x.links.find? (fun e => e.port == k) = some e → x.state = .running → sl.frozen = false → sl.stopped = false →
      let size := 4 + e.log2
      let va := 2 ^ 41 + e.die * 2 ^ 27 + e.off + 32 * (e.pos % 2 ^ size)
      va % 1024 ≤ 992 → s.translate copy q va false = .at_ y → s.routeUp (4 + k / 8) y.die = true → s.hostBarred q y = false →
      let b := s.memRead y 32
      let fresh := bitAt (peek b 0 1) 0 ≠ bitAt e.pos size
      let good := ecc ≠ .uncorrectable
      ∃ u, exec (.sendDescriptor n ⟨p, ecc⟩) s = .next u ∧
        (¬ good → (u.slot k q).stopped = true ∧ (u.slot k q).sends = sl.sends ∧ u.polders = s.polders ∧
          u.nets.causes = s.nets.causes ++ [{ polder := q, code := y.errorCode, kind := 0xC, unit := k, addr := y.off }]) ∧
        (good → ¬ fresh → u.links = s.links ∧ u.polders = s.polders) ∧
        (good → fresh → sendDescOk b = true → (u.slot k q).sends = sl.sends ++ [sendDescOf b] ∧
          (u.pld q).links = x.links.map (fun f => if f.port == k then { f with pos := f.pos + 1 } else f)) ∧
        (good → fresh → sendDescOk b = false → (u.slot k q).frozen = true ∧ (u.slot k q).sends = sl.sends ∧
          ∃ c ∈ u.nets.causes, c.polder = q ∧ c.code = 0x0191 ∧ c.addr = va)) ∧
    (∀ d rest j y ecc, s.startTurn k q (fun r => (s.slot k r).ready) = true → sl.sends = d :: rest →
      d.begun = false → d.dst < 65536 → 0 < d.len → d.len ≤ 1024 - d.srcVa % 1024 →
      s.translate copy q d.srcVa false = .at_ y → s.routeUp (4 + k / 8) y.die = true → s.hostBarred q y = false → s.egress d.dst = .by_ j →
      let dst : Half := BitVec.ofNat 16 d.dst
      let c := s.slotCredit q dst
      let others := fun (u : State) => ∀ r, r < 16 → r ≠ q → (s.slot k r).running = true →
        (u.slot k r).running = false ∧ (u.slot k r).parked = true ∧ u.reg (pldReg r 0x060) = s.reg (pldReg r 0x060) + 1
      ∃ u, exec (.sharedDescriptorStart (.link n) p ecc) s = .next u ∧ others u ∧ u.store.hbm = s.store.hbm ∧
        (eccAt ecc 0 ≠ .uncorrectable → (u.slot k q).running = true ∧
          (u.slot k q).remote = true ∧ (u.slot k q).sends = { d with begun := true } :: rest ∧
          (c = 0 → (sl.asked = false → (u.slot k q).asked = true) ∧
            (u.slot k q).out.map (·.msg) = writesOf (s.shortAddr q) d (s.memRead y d.len)) ∧
          (c ≠ 0 → (u.slot k q).out = [] ∧ u.links.credits = Table.put 0 s.links.credits (dst.toNat * 16 + q) (c - 1))) ∧
        (eccAt ecc 0 = .uncorrectable → (u.slot k q).running = false ∧ (u.slot k q).stopped = true ∧
          u.nets.causes = s.nets.causes ++ [{ polder := q, code := y.errorCode, kind := 0xC, unit := k, addr := y.off }]))

/-! ### Service life and test (R472 to R488, R514, R516) -/

/-- R472, R473, R475, R477, R481: at its maintenance point a marked tile takes the spare of its row pair, or its row is disabled where
that is used; a marked scratchpad row takes one of the tile's 164 spare rows, and the tile is marked where none is left; a marked
collection row takes one of its bank's 82 spare rows; an out-of-service seam gives its lost lanes spares and trains, which
SEAM_TRAINING ends; a port in lane fault takes a spare lane of its S-die and trains; and a regulator leaves its fault while no polder is
on its die. A substitution takes one entry of the provenance record, whose kinds carry numbers of the model's own and whose bytes are free values (log entry 8). -/
def Obligations.SparesAreSubstituted : Prop :=
  ∀ (s : State), s.Wf → s.boot.part = .operational →
    let y := s.spares
    let noted := fun (u : State) (vals : List Nat) => s.journal.free ≠ 0 →
      ∃ e, u.journal.entries = s.journal.entries ++ [e] ∧ e.kind = 0xA ∧ e.vals.take 5 = vals
    (∀ (t : TileId) (ok : Bool),
      let k := t.toNat
      let pair := k / 16
      let slot := k / 8 % 2 * 8 + k % 8
      k ∈ y.tilePending → s.pairFree (k / 8) = true → s.managing = false →
      ∃ u, exec (.spareSubstitution (.tile t) ok) s = .next u ∧ u.spares.tilePending = y.tilePending.filter (· ≠ k) ∧
        (Table.get 0 y.tileOf pair = 0 → u.spares.tileOf = Table.put 0 y.tileOf pair (slot + 1) ∧
          u.spares.subs = Table.put 0 y.subs (k / 8) (Table.get 0 y.subs (k / 8) + 1) ∧ u.spares.rowDisabled = y.rowDisabled ∧
          noted u [0, k, physId pair slot, physId pair 16, 0]) ∧
        (Table.get 0 y.tileOf pair ≠ 0 → k / 8 ∈ u.spares.rowDisabled ∧ u.spares.tileOf = y.tileOf ∧
          u.journal = s.journal)) ∧
    (∀ (t : TileId) (row : BitVec 13) (ok : Bool),
      let k := t.toNat
      let n := Table.get 0 y.spadUsed k
      (k, row.toNat) ∈ y.spadPending → s.pairFree (k / 8) = true → s.managing = false →
      ∃ u, exec (.spareSubstitution (.scratchpadRow t row) ok) s = .next u ∧
        u.spares.spadPending = y.spadPending.filter (· ≠ (k, row.toNat)) ∧
        (n < 164 → u.spares.spadUsed = Table.put 0 y.spadUsed k (n + 1) ∧ u.spares.tilePending = y.tilePending ∧
          noted u [1, k, row.toNat, n, 163 - n]) ∧
        (164 ≤ n → k ∈ u.spares.tilePending ∧ u.spares.spadUsed = y.spadUsed ∧ u.journal = s.journal)) ∧
    (∀ (d : BitVec 2) (bank : BitVec 6) (row : BitVec 12) (ok : Bool),
      let key := d.toNat * 64 + bank.toNat
      let n := Table.get 0 y.colUsed key
      (key, row.toNat) ∈ y.colPending → s.stripeFree d.toNat row.toNat = true → n < 82 → s.managing = false →
      ∃ u, exec (.spareSubstitution (.collectionRow d bank row) ok) s = .next u ∧
        u.spares.colPending = y.colPending.filter (· ≠ (key, row.toNat)) ∧ u.spares.colUsed = Table.put 0 y.colUsed key (n + 1) ∧
        u.spares.crossBank = y.crossBank ∧ noted u [2, key, row.toNat, n, 81 - n]) ∧
    (∀ seam : SeamId,
      let n := seam.toNat
      let x := s.seam n
      x.state = .outOfService → s.seamUnused n = true → x.used0 + x.lost0.length ≤ 64 → x.used1 + x.lost1.length ≤ 64 →
      x.lost0.Nodup → x.lost1.Nodup → s.managing = false →
      ∀ ok, ∃ u, exec (.spareSubstitution (.seamLane seam) ok) s = .next u ∧ (u.seam n).state = .training ∧
        (u.seam n).lost0 = [] ∧ (u.seam n).lost1 = [] ∧ (u.seam n).used0 = x.used0 + x.lost0.length ∧
        (u.seam n).used1 = x.used1 + x.lost1.length ∧ u.boot.part = .operational) ∧
    (∀ (port : PortId) (lane : BitVec 2) (k : Nat),
      let n := port.toNat
      let key := n * 4 + lane.toNat
      key ∈ y.lanePending → s.portNamed n = false → (s.port n).state = .laneFault → s.spareLaneOf (n / 8) = some k → s.managing = false →
      ∃ u, exec (.spareSubstitution (.linkLane port lane) true) s = .next u ∧
        u.spares.laneMap = Table.put 0 y.laneMap key k ∧ u.spares.lanePending = y.lanePending.filter (· ≠ key) ∧
        ((∃ j ∈ y.lanePending, j ≠ key ∧ j / 4 = n) → (u.port n).state = .laneFault) ∧
        ((∀ j ∈ y.lanePending, j ≠ key → j / 4 ≠ n) → (u.port n).lanes = 15 ∧
          (if (s.port n).mode = 1 then (u.port n).waitIdent = true ∧ (u.port n).state = .training else (u.port n).state = .up))) ∧
    (∀ (d : BitVec 2) (ok : Bool), (s.die d.toNat).regFault = true → s.dieUnused d.toNat = true → s.managing = false →
      ∃ u, exec (.spareSubstitution (.regulator d) ok) s = .next u ∧ (u.die d.toNat).regFault = false ∧
        ∀ k, k ≠ d.toNat → u.die k = s.die k)

/-- R186, R472, R474, R475, R487, R488: part-wide maintenance runs with every polder free, once a usage interval or while a frame is
retired: it marks the tiles and the scratchpad and collection rows that its self-test names, gives a failed TSV lane one of its stack's
repair lanes, without which the part fails, retires a free frame whose scrub finds an uncorrectable error, and returns a
retired frame whose row repair passes while repairs are left; it ends by appending the usage, thermal and job entries. A usage
interval appends the same three, and the next one counts from it. A CREATE pauses it in a step, which CUR_MAINT shows, and its next run
goes on from there (R494). That a scrub counts for the interval that begins at its end is the
model's choice (log entry 29), and that its reads count once it has ended (log entry 72). -/
def Obligations.MaintenanceAndUsage : Prop :=
  ∀ (s : State), s.Wf →
    let kinds := fun (l : List Entry) => l.map (·.kind)
    (s.boot.part = .operational → (∀ p, p < 16 → (s.pld p).state = .free) → s.journal.scrubbed = false ∨ s.store.retired ≠ [] →
      s.boot.maint = 0 →
      (∀ k ∈ ([1, 2, 3] : List (BitVec 2)),
        ∃ u, exec (.partWideMaintenance
          { tiles := [], hbmFrames := [], depotFrames := [], hbmRepaired := [], depotRepaired := [], pause := some k }) s = .next u ∧
        u.boot = { s.boot with maint := k.toNat } ∧ u.journal = s.journal ∧
        u.readCurator (page 4 0x14 0) 0x044 = BitVec.ofNat 32 (1 + 2 * k.toNat)) ∧
      (∀ tiles, ∃ u, exec (.partWideMaintenance { tiles := tiles, hbmFrames := [], depotFrames := [], hbmRepaired := [], depotRepaired := [] }) s =
          .next u ∧ u.journal.scrubbed = true ∧ u.journal.usageCc = s.cc ∧ u.boot.maint = 0 ∧
        { u.store with readBytes := s.store.readBytes } = s.store ∧
        (∀ t, t ∈ u.spares.tilePending ↔ t ∈ s.spares.tilePending ∨ ∃ x ∈ tiles, x.toNat = t) ∧
        (3 ≤ s.journal.free → kinds u.journal.entries = kinds s.journal.entries ++ [6, 7, 0xD])) ∧
      (∀ rows cols, ∃ u, exec (.partWideMaintenance { tiles := [], hbmFrames := [], depotFrames := [], hbmRepaired := [], depotRepaired := [],
                                                      spadRows := rows, colRows := cols }) s = .next u ∧ u.journal.scrubbed = true ∧
        (∀ e, e ∈ u.spares.spadPending ↔ e ∈ s.spares.spadPending ∨ ∃ x ∈ rows, (x.1.toNat, x.2.toNat) = e) ∧
        (∀ e, e ∈ u.spares.colPending ↔ e ∈ s.spares.colPending ∨ ∃ x ∈ cols, (64 * x.1.toNat + x.2.1.toNat, x.2.2.toNat) = e)) ∧
      (∀ n : Fin 12, let used := Table.get 0 s.spares.tsvUsed n.val
        ∃ u, exec (.partWideMaintenance { tiles := [], hbmFrames := [], depotFrames := [], hbmRepaired := [], depotRepaired := [], tsvLanes := [n] }) s =
            .next u ∧
          (used < Config.tsvLanes n.val → u.spares.tsvUsed = Table.put 0 s.spares.tsvUsed n.val (used + 1) ∧ u.journal.scrubbed = true) ∧
          (Config.tsvLanes n.val ≤ used → u.boot.part = .failed)) ∧
      (∀ (n : Fin 12) (f : Half), f.toNat < 40960 →
        let key := n.val * 40960 + f.toNat
        (s.frameFree key = true →
          ∃ u, exec (.partWideMaintenance { tiles := [], hbmFrames := [(n, f)], depotFrames := [], hbmRepaired := [], depotRepaired := [] }) s =
              .next u ∧ u.store.retired = s.store.retired ++ [key] ∧ u.reg (hmcPage n.val + 0x058) = s.reg (hmcPage n.val + 0x058) + 1) ∧
        (key ∈ s.store.retired → Table.get 0 s.spares.repairs n.val < Config.rowRepairs n.val →
          ∃ u, exec (.partWideMaintenance { tiles := [], hbmFrames := [], depotFrames := [], hbmRepaired := [(n, f)], depotRepaired := [] }) s =
              .next u ∧ key ∉ u.store.retired ∧ (∀ k, k ≠ key → (k ∈ u.store.retired ↔ k ∈ s.store.retired)) ∧
            u.spares.repairs = Table.put 0 s.spares.repairs n.val (Table.get 0 s.spares.repairs n.val + 1)))) ∧
    (s.boot.part = .operational → (∀ p, p < 16 → (s.pld p).state = .free) → 1 ≤ s.boot.maint → s.boot.maint ≤ 4 →
      ∃ u, exec (.partWideMaintenance { tiles := [], hbmFrames := [], depotFrames := [], hbmRepaired := [], depotRepaired := [] }) s = .next u ∧
        u.boot.maint = 0 ∧ u.journal.scrubbed = true) ∧
    (s.board.vaux = true →
      let interval := if s.journal.free ≤ 256 then 30 * 103680000000000 else 103680000000000
      (interval ≤ (s.cc - s.journal.usageCc).toNat →
        ∃ u, exec .usageInterval s = .next u ∧ u.journal.usageCc = s.cc ∧ u.journal.scrubbed = false ∧
          (3 ≤ s.journal.free → kinds u.journal.entries = kinds s.journal.entries ++ [6, 7, 0xD])))

/-- R514, R516: the TAP acts while VAUX is good. BYPASS is one register, whose bit comes out as the next one goes in; IDCODE shifts out
0x1A10_4E5D, least significant bit first; SAMPLE/PRELOAD captures the levels of the 17 lands in the chain, shifts its bits in at TDI as the
chain shifts out, and leaves the pins alone; EXTEST drives the pins from the cells only while the part awaits an image, and is BYPASS otherwise. The order of
the cells, and the levels of the lands that the state does not hold, are free values (log entry 6). -/
def Obligations.BoundaryScanActs : Prop :=
  ∀ (s : State),
    let b := s.board
    (∀ (tdi : Bool) (bits : List Bool), b.vaux = false →
      ∀ c ∈ [Instr.bypass tdi, .idcode, .samplePreload bits, .extest tdi], exec c s = .next s) ∧
    (b.vaux = true →
      (∀ tdi, ∃ u, exec (.bypass tdi) s = .next u ∧ u.board = { b with tapIr := .bypass, tapBypass := tdi, tdo := [b.tapBypass] } ∧
        { u with board := s.board } = s ∧ u.pinsDriven = none) ∧
      (∃ u, exec .idcode s = .next u ∧ u.board = { b with tapIr := .idcode, tdo := (List.range 32).map (0x1A104E5D).testBit } ∧
        { u with board := s.board } = s ∧ u.pinsDriven = none) ∧
      (∀ bits, ∃ u l, exec (.samplePreload bits) s = .next u ∧ l.length = 17 ∧
        u.board = { b with tapIr := .sample, tapChain := (bits.reverse ++ l).take 17, tdo := (l.reverse ++ bits).take bits.length } ∧
        (∀ i, i < 17 →
          (landAt i = .perst → l[i]? = some b.perst) ∧ (landAt i = .throttle → l[i]? = some (!b.throttleLow)) ∧
          (landAt i = .thermtrip → l[i]? = some (!b.thermtrip)) ∧ (landAt i = .fault → l[i]? = some (s.boot.part != .failed))) ∧
        { u with board := s.board, drawn := s.drawn } = s ∧ u.pinsDriven = none) ∧
      (∀ tdi, s.boot.part = .awaiting → let cells := b.tapChain.take 17 ++ List.replicate (17 - b.tapChain.length) false
        ∃ u, exec (.extest tdi) s = .next u ∧ u.pinsDriven = some cells ∧
        u.board = { b with tapIr := .extest, tapDriven := cells, tapChain := (tdi :: cells).take 17, tdo := cells.getLast?.toList } ∧
        { u with board := s.board } = s) ∧
      (∀ tdi, s.boot.part ≠ .awaiting → ∃ u, exec (.extest tdi) s = .next u ∧ u.pinsDriven = none ∧
        u.board = { b with tapIr := .extest, tapBypass := tdi, tdo := [b.tapBypass] } ∧ { u with board := s.board } = s))

/-! ### The management window (R8 to R12, R498 to R511) -/

/-- R94, R366, R498, R504, R506, R507: RESET zeroes a page's error count and log; BLK_IRQ_STS clears the bits written as 1 and sends vector
3 again while any enabled bit is set anywhere; BLK_IRQ_FORCE sets the page's assigned bits; FREEZE on a tile or polder page whose polder
runs freezes its TCCs with the states that they leave, suspends the monitors of the whole polder and voids its guarantee, its release
returns them, and it is ignored and logged otherwise, as it is on a page without the field. PLD_WD_LIMIT takes its value. The access crosses the seams to its page; a page
without power, outside the index or behind a seam that is out of service answers with an error and nothing changes. That a write of 0 to a page without the field logs nothing is the model's reading (log entry 36). -/
def Obligations.HeaderWritesAct : Prop :=
  ∀ (s : State) (a : BitVec 28) (bits : Word), s.Wf →
    let pg := a.toNat / 4096 * 4096
    let cls := pg / 2 ^ 16 % 256
    let die := pg / 2 ^ 24
    let inst := pg / 2 ^ 12 % 16
    let log := [pg + 0x01C, pg + 0x020, pg + 0x024, pg + 0x028, pg + 0x02C]
    let w := s.accessCrosses 4 die
    let only := fun (w u : State) (l : List Nat) => u.answer = .written ∧ (∀ b, b ∉ l → u.reg b = w.reg b) ∧
      { u with regs := w.regs, answer := w.answer, hif := w.hif } = w
    let edge := fun (w u : State) (sent : Bool) =>
      (s.vectorMasked 0 3 = false → u.hif.msix = w.hif.msix ++ if sent then [{ fn := 0, vec := 3 }] else []) ∧
      (s.vectorMasked 0 3 = true → u.hif.msix = w.hif.msix ∧ (sent = true → { fn := 0, vec := 3 } ∈ u.hif.pba))
    (s.pageReached 4 pg = false →
      ∀ c ∈ [Instr.blkCtlReset a, .blkIrqStsClear a bits, .blkIrqForce a bits, .freeze a true, .freeze a false],
        exec c s = .next { s with answer := .error }) ∧
    (s.pageReached 4 pg = true →
      (∃ u, exec (.blkCtlReset a) s = .next u ∧ only w u log ∧ u.hif = w.hif ∧ ∀ b ∈ log, u.reg b = 0) ∧
      (∃ u, exec (.blkIrqStsClear a bits) s = .next u ∧ only w u [pg + 0x010] ∧ u.reg (pg + 0x010) = w.reg (pg + 0x010) &&& ~~~bits ∧
        edge w u u.irqAny) ∧
      (∃ u, exec (.blkIrqForce a bits) s = .next u ∧ only w u [pg + 0x010] ∧
        u.reg (pg + 0x010) = w.reg (pg + 0x010) ||| (bits &&& BitVec.ofNat 32 (irqAssigned pg)) ∧
        edge w u (u.irqAny && !w.irqAny)) ∧
      (∀ on, (cls = 0x01 ∨ cls = 0x17) ∧ (s.pageOwner pg = 0x1F ∨ (s.pld (s.pageOwner pg)).state ≠ .running) ∨
          ¬ (cls = 0x01 ∨ cls = 0x17) ∧ on = true →
        ∃ u, exec (.freeze a on) s = .next u ∧ only w u log ∧
          (u.reg (pg + 0x01C)).toNat = min (2 ^ 32 - 1) ((w.reg (pg + 0x01C)).toNat + 1) ∧
          (u.reg (pg + 0x020)).toNat / 2 ^ 16 % 16 = 1 ∧ (u.reg (pg + 0x020)).toNat % 2 ^ 16 = 0 ∧
          u.reg (pg + 0x024) = BitVec.ofNat 32 (0x008 + 0x1F * 2 ^ 16)) ∧
      (∀ on, ¬ (cls = 0x01 ∨ cls = 0x17) ∧ on = false ∨
          (cls = 0x01 ∨ cls = 0x17) ∧ s.pageOwner pg ≠ 0x1F ∧ (s.pld (s.pageOwner pg)).state = .running ∧ s.pageFreeze pg = on →
        exec (.freeze a on) s = .next { w with answer := .written }) ∧
      (let row := 8 * die + inst
       ∀ p, cls = 0x01 → s.rowOwner row = some p → (s.pld p).state = .running →
        (s.pageFreeze pg = false → ∃ u, exec (.freeze a true) s = .next u ∧ u.pageFreeze pg = true ∧
          u.reg (pldReg p 0x100) = s.reg (pldReg p 0x100) ||| 2 ∧
          ∀ c, c < 8 → (u.tile (8 * row + c)).tcc.state = .frozen ∧
            (∀ t ∈ (s.pld p).tiles, (u.tile t).mon.suspended = true) ∧
            ((s.tile (8 * row + c)).tcc.state ≠ .frozen → (u.tile (8 * row + c)).tcc.held = (s.tile (8 * row + c)).tcc.state)) ∧
        (s.pageFreeze pg = true → (s.pld p).frozen = false → ∃ u, exec (.freeze a false) s = .next u ∧ u.pageFreeze pg = false ∧
          ∀ c, c < 8 → (s.tile (8 * row + c)).tcc.state = .frozen → (s.tile (8 * row + c)).tcc.faulted = false →
            (s.tile (8 * row + c)).tcc.held = .running ∨ (s.tile (8 * row + c)).tcc.held = .waiting →
            (u.tile (8 * row + c)).tcc.state = (s.tile (8 * row + c)).tcc.held)) ∧
      (cls = 0x17 → (s.pld inst).state = .running → (s.pld inst).frozen = false →
        ∃ u, exec (.freeze a true) s = .next u ∧ (u.pld inst).frozen = true ∧ ∀ t ∈ (s.pld inst).tiles, (u.tile t).tcc.state = .frozen ∧
          (u.tile t).mon.suspended = true)) ∧
    (∀ (p : PolderId) (value : Word),
      (s.hostReaches = true → ∃ u, exec (.pldWdLimit p value) s = .next u ∧ only s u [pldReg p.toNat 0x054] ∧
        u.reg (pldReg p.toNat 0x054) = value) ∧
      (s.hostReaches = false → exec (.pldWdLimit p value) s = .next { s with answer := .error }))

/-- R8 to R12, R506, R507, R511, R512: a read of the window that a requester reaches, of four bytes at an aligned address, answers the
register's word as it stands once the request has crossed the seams to its page, before its response crosses them back. A read-clear register is 0 after it, and a wait that such a register counts
goes on from the read; the low word of a 64-bit register latches the high word, which a read of the high word then answers. A read of
another size, or at an address that is not aligned, is refused and logged as kind 0x3; where nothing answers the read is refused and
nothing changes. A refusal is an Unsupported Request with all-ones data to a function of PCIe and an error to any other requester. A VF
reads its identity and its polder's state, its registers, of which the count of dropped records clears, and its vector table, by 32 or
64 bits. PF0's BAR2 answers its vector table and the staging registers, and 0 where it holds none. Registers that show free
values are left out (log entry 6). -/
def Obligations.ReadsAnswer : Prop :=
  ∀ (s : State) (r : Requester) (addr : BitVec 28) (size : BitVec 4) (c : Instr), s.Wf →
    let a := addr.toNat
    let pg := a / 4096 * 4096
    let key := heldKey r (a / 4096 * 4096)
    let refusal : Answer := if (functionOf r).isSome then .unsupported 0xFFFFFFFF else .error
    let x := s.toPage r pg
    let y := s.access r pg
    let plain := fun (a : Nat) => freeMeter a = false ∧ shoreEnergy a = false ∧ ∀ d, x.midRun a d = none
    c = .readClear r ⟨addr, size⟩ ∨ c = .lowWordRead r ⟨addr, size⟩ →
    (requesterNo r < 6 →
      (s.reachesReg r a = false → exec c s = .next { s with answer := refusal }) ∧
      (s.reachesReg r a = true → a % 4 ≠ 0 ∨ size ≠ 4 →
        ∃ u, exec c s = .next u ∧ u.answer = refusal ∧ (u.reg (pg + 0x020)).toNat / 2 ^ 16 % 16 = 3 ∧
          u.reg (pg + 0x024) = BitVec.ofNat 32 (a % 4096 + 0x1F * 2 ^ 16) ∧ { u with regs := y.regs, answer := y.answer } = y) ∧
      (s.reachesReg r a = true → a % 4 = 0 → size = 4 → plain a →
        (lowWord a = true → ∃ u, exec c s = .next u ∧ u.answer = .value (x.peekReg a) ∧
          (plain (a + 4) → Table.get 0 u.latches key = x.peekReg (a + 4) ∧
            { u with latches := y.latches, answer := y.answer } = y)) ∧
        (lowWord a = false → 4 ≤ a % 4096 → lowWord (a - 4) = true →
          exec c s = .next { y with answer := .value (Table.get 0 s.latches key) }) ∧
        (lowWord a = false → a % 4096 < 4 ∨ lowWord (a - 4) = false →
          ∃ u, exec c s = .next u ∧ u.answer = .value (x.peekReg a) ∧
            (readClears a = true → u.reg a = 0 ∧ (∀ b, b ≠ a → u.reg b = y.reg b) ∧
              { u with regs := y.regs, tiles := y.tiles, seams := y.seams, links := y.links, answer := y.answer } = y) ∧
            (readClears a = false → { u with answer := y.answer } = y)))) ∧
    (∀ p, r = .vf p →
      let n := p.toNat
      let msix := (vfMsix n).takes a size.toNat
      (s.vfReached n = false ∨ s.vfFrozen n = true ∨ 0x4000 ≤ a ∨ (msix = false ∧ (a % 4 ≠ 0 ∨ size ≠ 4)) →
        exec c s = .next { s with answer := refusal }) ∧
      (s.vfReached n = true → s.vfFrozen n = false → 0x2000 ≤ a → a < 0x2040 → a % size.toNat = 0 →
        (size = 4 → exec c s = .next { s with answer := .value (s.msixWord (n + 1) ((a - 0x2000) / 4)) }) ∧
        (size = 8 → exec c s = .next { s with
          answer := .value64 (s.msixWord (n + 1) ((a - 0x2000) / 4 + 1) ++ s.msixWord (n + 1) ((a - 0x2000) / 4)) })) ∧
      (s.vfReached n = true → s.vfFrozen n = false → size = 4 →
        (a = 0 → exec c s = .next { s with answer := .value (BitVec.ofNat 32 (n + (s.pld n).state.code * 16)) }) ∧
        (a = 0x030 → ∃ u, exec c s = .next u ∧ u.answer = .value (s.vfReg n a) ∧ u.vfReg n a = 0) ∧
        (a ∈ [0x004, 0x008, 0x00C, 0x010, 0x014, 0x018, 0x01C, 0x020, 0x024, 0x028, 0x02C, 0x034] →
          exec c s = .next { s with answer := .value (s.vfReg n a) }))) ∧
    (r = .bar2 →
      (s.hostReaches = false ∨ 0x10000 ≤ a → exec c s = .next { s with answer := refusal }) ∧
      (s.hostReaches = true → size = 4 → a % 4 = 0 →
        (a < 0x080 → exec c s = .next { s with answer := .value (s.msixWord 0 (a / 4)) }) ∧
        (a = 0x8004 → exec c s = .next { s with answer := .value (wordOfFields [(s.boot.stg, 0), (s.boot.reason, 4), (s.boot.bank, 8)]) }) ∧
        (a = 0x8008 → exec c s = .next { s with answer := .value (BitVec.ofNat 32 s.boot.offset) }) ∧
        (a < 0x10000 → (0x080 ≤ a ∧ a < 0x0800 ∨ 0x0808 ≤ a ∧ a ≠ 0x8004 ∧ a ≠ 0x8008) → exec c s = .next { s with answer := .value 0 })))

/-- R8 to R12, R188, R406, R408, R501, R506: a write of a word that a requester reaches is answered. A register that only reads stays as it is;
WIN_CTL takes 30 to 46 and ignores and logs another value; the reservations of a tile that no polder owns are ignored and logged. A
write of another size, or one that is not aligned, is logged as kind 0x3, and it and one that nothing takes answer with an error, which
the function's AER shows. A VF's write to its page is that of its register, and a word of its vector table is kept, of which one that
unmasks a vector sends the message that waited. A write of a function's Command register sets its Bus Master Enable (its place is log
entry 121's), and writes of PF0's BAR2 begin and commit an image. -/
def Obligations.WritesTakeEffect : Prop :=
  ∀ (s : State) (r : Requester) (addr : BitVec 28) (v : Word), s.Wf →
    let a := addr.toNat
    let pg := a / 4096 * 4096
    let off := a % 4096
    let cls := pg / 2 ^ 16 % 256
    let refused := fun (u : State) => u.answer = .error ∧ (functionOf r = none → u.hif.aer = s.hif.aer) ∧
      ∀ fn, functionOf r = some fn → u.hif.aer = s.hif.aer ++ [{ fn := fn, abort := false, addr := a, sent := !(Table.get 0 s.hif.aerMask fn).getLsbD 20 }]
    let wide := v.setWidth 64
    let logged := fun (u : State) (kind : Nat) => (u.reg (pg + 0x020)).toNat / 2 ^ 16 % 16 = kind ∧
      u.reg (pg + 0x024) = BitVec.ofNat 32 (off + 0x1F * 2 ^ 16)
    let y := s.access r pg
    let same := fun (u : State) => { u with regs := y.regs, answer := y.answer } = y
    (requesterNo r < 6 →
    (s.reachesReg r a = false → ∀ size, ∃ u, exec (.registerWrite r addr size wide) s = .next u ∧ refused u ∧ u.regs = s.regs) ∧
    (s.reachesReg r a = true → ∀ size : BitVec 4, size.toNat ≠ 4 ∨ a % 4 ≠ 0 →
      ∃ u, exec (.registerWrite r addr size wide) s = .next u ∧ refused u ∧ logged u 3 ∧
        ∀ b, b ∉ [pg + 0x01C, pg + 0x020, pg + 0x024, pg + 0x028, pg + 0x02C] → u.reg b = y.reg b) ∧
    (s.reachesReg r a = true → a % 4 = 0 → channelAt pg off = none →
      (off < 0x040 → off ∉ [0x008, 0x010, 0x014, 0x018] →
        exec (.registerWrite r addr 4 wide) s = .next { y with answer := .written }) ∧
      (0x040 ≤ off → holdsLow a = false → holdsLow (a - 4) = false → cls ∈ [0x00, 0x04, 0x05, 0x06, 0x08, 0x09, 0x13, 0x14, 0x15, 0x16] →
        exec (.registerWrite r addr 4 wide) s = .next { y with answer := .written }) ∧
      (off = 0x014 → ∃ u, exec (.registerWrite r addr 4 wide) s = .next u ∧ u.answer = .written ∧
        u.reg a = v &&& BitVec.ofNat 32 (irqAssigned pg) ∧ ∀ b, b ≠ a → u.reg b = y.reg b) ∧
      (cls = 0x02 ∨ cls = 0x03 ∨ cls = 0x12 → off = 0x050 →
        ∃ u, exec (.registerWrite r addr 4 wide) s = .next u ∧ u.answer = .written ∧ same u ∧
          (30 ≤ v.toNat % 64 → v.toNat % 64 ≤ 46 → u.reg a = BitVec.ofNat 32 (v.toNat % 64)) ∧
          (v.toNat % 64 < 30 ∨ 46 < v.toNat % 64 → u.reg a = y.reg a ∧ logged u 1)) ∧
      (cls = 0x17 → off = 0x054 → ∃ u, exec (.registerWrite r addr 4 wide) s = .next u ∧ u.answer = .written ∧ same u ∧ u.reg a = v) ∧
      (cls = 0x01 → 0x100 ≤ off → off < 0x900 → off % 0x100 = 0x1C →
        let row := pg / 2 ^ 24 * 8 + pg / 2 ^ 12 % 16
        ∃ u, exec (.registerWrite r addr 4 wide) s = .next u ∧ u.answer = .written ∧ same u ∧
          (s.rowOwner row = none ∨ 48 < v.toNat % 64 + v.toNat / 2 ^ 8 % 64 + v.toNat / 2 ^ 16 % 64 → u.reg a = y.reg a ∧ logged u 1) ∧
          ((s.rowOwner row).isSome = true → v.toNat % 64 + v.toNat / 2 ^ 8 % 64 + v.toNat / 2 ^ 16 % 64 ≤ 48 →
            u.reg a = v &&& 0x3F3F3F)))) ∧
    (∀ p, r = .vf p →
      let n := p.toNat
      (∀ size : BitVec 4, 0x4000 ≤ a ∨ (vfMsix n).takes a size.toNat = false ∧ (a % 4 ≠ 0 ∨ size.toNat ≠ 4) →
        ∃ u, exec (.registerWrite r addr size wide) s = .next u ∧ refused u ∧ { u with hif := s.hif, answer := s.answer } = s) ∧
      (a = 0x010 → exec (.registerWrite r addr 4 wide) s = exec (.vfSqTail p v) s) ∧
      (a = 0x024 → exec (.registerWrite r addr 4 wide) s = exec (.vfCqHead p v) s) ∧
      (s.vfReached n = true → s.vfFrozen n = false → 0x2000 ≤ a → a < 0x2040 → a % 4 = 0 →
        let i := (a - 0x2000) / 4
        let x : Msix := { fn := n + 1, vec := i / 4 }
        ∃ u, exec (.registerWrite r addr 4 wide) s = .next u ∧ u.answer = .written ∧
          u.msixWord (n + 1) i = (if i % 4 = 3 then v &&& 1 else v) ∧ { u with hif := s.hif, answer := s.answer } = s ∧
          (x ∈ s.hif.pba → i % 4 = 3 → v.getLsbD 0 = false → u.hif.msix = s.hif.msix ++ [x] ∧ u.hif.pba = s.hif.pba.erase x) ∧
          (i % 4 ≠ 3 → x ∉ s.hif.pba → u.hif.msix = s.hif.msix ∧ u.hif.pba = s.hif.pba))) ∧
    (∀ fn : BitVec 5, r = .config fn → s.configReached fn.toNat = true → a = 0x004 →
      ∃ u, exec (.registerWrite r addr 4 wide) s = .next u ∧ u.answer = .written ∧ { u with hif := s.hif, answer := s.answer } = s ∧
        u.hif = { s.hif with masters := u.hif.masters } ∧ ∀ k, k ∈ u.hif.masters ↔ if k = fn.toNat then v.getLsbD 2 = true else k ∈ s.hif.masters) ∧
    (r = .bar2 → s.hostReaches = true →
      (a = 0x8000 → v = 1 → ∃ u t, exec (.registerWrite r addr 4 wide) s = .next u ∧ exec .stgBegin s = .next t ∧ u = { t with answer := .written }) ∧
      (a = 0x8000 → v = 2 → ∃ u t, exec (.registerWrite r addr 4 wide) s = .next u ∧ exec .stgCommit s = .next t ∧ u = { t with answer := .written }))

/-- R502: each page keeps one high-word latch for each requester. A read of a low word latches the high word, no other latch moves, the
read of the high word answers it, and after a cold start every latch holds 0. A write to the low word of a 64-bit register changes
nothing but what is held for the requester, and takes effect together with the same requester's next write to the high word; a write
to the high word alone takes effect with the current low word. Each access crosses the seams to its page first. -/
def Obligations.LatchesKeepHalvesTogether : Prop :=
  ∀ (s : State) (r : Requester) (addr : BitVec 28) (v w : Word), s.Wf → (∀ p, r ≠ .vf p) →
    let a := addr.toNat
    let pg := a / 4096 * 4096
    let key := heldKey r pg
    let held := heldKey r a
    let x := s.toPage r pg
    let y := s.access r pg
    let plain := fun (a : Nat) => freeMeter a = false ∧ shoreEnergy a = false ∧ ∀ d, x.midRun a d = none
    a % 4 = 0 → s.reachesReg r a = true → s.reachesReg r (a + 4) = true →
    (lowWord a = true → lowWord (a + 4) = false → plain a → plain (a + 4) →
      ∃ u, exec (.lowWordRead r ⟨addr, 4⟩) s = .next u ∧ Table.get 0 u.latches key = x.peekReg (a + 4) ∧
        (∀ k, k ≠ key → Table.get 0 u.latches k = Table.get 0 s.latches k) ∧
        ∃ t, exec (.readClear r ⟨addr + 4, 4⟩) u = .next t ∧ t.answer = .value (x.peekReg (a + 4))) ∧
    (∀ rise, s.board.vaux = false → ∃ u, exec (.coldStart rise) s = .next u ∧ ∀ k, Table.get 0 u.latches k = 0) ∧
    (holdsLow a = true → holdsLow (a + 4) = false → 0x040 ≤ a % 4096 → channelAt pg (a % 4096) = none →
      channelAt pg (a % 4096 + 4) = none →
      (∃ u t, exec (.registerWrite r addr 4 (v.setWidth 64)) s = .next u ∧ { u with heldLow := y.heldLow, answer := y.answer } = y ∧
        (∀ k, k ≠ held → Table.get none u.heldLow k = Table.get none s.heldLow k) ∧
        exec (.registerWrite r (addr + 4) 4 (w.setWidth 64)) u = .next t ∧ t.regs = ((y.access r pg).writePair a v w).regs ∧
        Table.get none t.heldLow held = none) ∧
      (Table.get none s.heldLow held = none →
        ∃ t, exec (.registerWrite r (addr + 4) 4 (w.setWidth 64)) s = .next t ∧ t.regs = (y.writePair a (y.reg a) w).regs) ∧
      (pg / 2 ^ 16 % 256 = 0x16 → (s.writePair a v w).reg a = v ∧ (s.writePair a v w).reg (a + 4) = w))

/-! ### The machine as a whole -/

/-- A step takes the command at the front of the queue and carries it out with the queue's rest, and every command completes. With the
queue empty the step is a tick: each running clock domain counts on by a free number of cycles and nothing else happens (log entry 3,
the model's choice). -/
def Obligations.StepRunsTheFrontCommand : Prop :=
  (∀ (c : Instr) (s : State), step { s with pending := c :: s.pending } = exec c s) ∧
  (∀ (c : Instr) (rest : List Instr) (s : State), s.pending = c :: rest → step s = exec c { s with pending := rest }) ∧
  (∀ (s : State), Completes (step s)) ∧
  (∀ (s : State), s.Wf → s.pending = [] →
    ∃ u, step s = .next u ∧ { u with time := s.time, drawn := s.drawn } = s ∧ u.drawn = s.drawn + 1 ∧
      ∀ d, u.now d = if d ∈ domainIds ∧ s.running d = true then s.now d + Config.elapse d s.drawn else s.now d)

/-- R26, R76, R94, R188, R351, R399, R436, R452: at reset the queue is empty, the part awaits its image with VAUX off, every tile is EMPTY
and every polder FREE, every memory is empty, and the registers whose reset the manual gives hold it: WIN_EXP 40, PWR_CAP 3 000 W,
PRT_RTO 97, eight reservations for each engine of a tile. The state has the form that every step keeps. -/
def Obligations.ResetHoldsWhatTheManualGives : Prop :=
  State.reset.Keeps [] Config.fuseSvn.toNat factoryJournal.entries ∧
  State.reset.boot.part = .awaiting ∧ State.reset.board.vaux = false ∧ State.reset.hif.vfEnable = false ∧
  (∀ t, (State.reset.tile t).tcc.state = .empty ∧ (State.reset.tile t).tcc.pc = 0 ∧ ∀ c, (State.reset.tile t).ctr c = 0) ∧
  (∀ p, (State.reset.pld p).state = .free) ∧ (∀ n, (State.reset.seam n).state = .down) ∧ (∀ n, (State.reset.port n).state = .off) ∧
  (∀ c, (State.reset.chan c).state = .idle) ∧
  (∀ a, State.reset.store.hbm.read a = 0 ∧ State.reset.store.depot.read a = 0 ∧ State.reset.store.col.read a = 0 ∧
    State.reset.store.spad.read a = 0 ∧ State.reset.store.dstore.read a = 0 ∧ State.reset.store.istore.read a = 0) ∧
  (∀ n, n < 12 → State.reset.reg (hmcPage n + 0x050) = 40) ∧ State.reset.reg (pwrPage 4 + 0x064) = 3000 ∧
  (∀ n, n < 16 → State.reset.reg (prtPage n + 0x094) = 97) ∧ (∀ t, t < 256 → State.reset.reg (tilReg t 0x1C) = 0x080808)

/-- Every step keeps the form of the state, from every state that has it and whatever the command: each memory lists strictly rising
addresses and no byte that an unlisted address reads as, the requests in flight are numbered apart, and the keys of every family of
units rise. -/
def Obligations.StepsKeepTheForm : Prop := ∀ (s u : State), s.Wf → step s = .next u → u.Wf

/-- R405, R462, R483: no step lowers the fused minimum SVN, erases or changes an entry of the provenance record, or enables more than 16
VFs, and the queue loses its front command and no other. -/
def Obligations.StepsUndoNothing : Prop :=
  ∀ (s u : State), s.Wf → s.hif.numVfs ≤ 16 → step s = .next u →
    s.boot.svnMin ≤ u.boot.svnMin ∧ s.journal.entries <+: u.journal.entries ∧ u.hif.numVfs ≤ 16 ∧ u.pending = s.pending.tail

/-- The frame of every command: a part of the state that the command's list leaves out is as before, for every command, every operand
and every state. -/
def Obligations.CommandsChangeOnlyTheirParts : Prop :=
  ∀ (c : Instr) (s u : State), exec c s = .next u → ∀ k, k ∉ touches c → k.same u s
end

