-- ==== Sys2Proof/Laws/Table.lean ====
section
/-!
SUPPORT. The laws of sorted tables and memories: a read after a write, what a write leaves alone, and that every
operation keeps the form.
-/

-- one proof at a time: the package as one text would start more threads than its memory limit allows
set_option Elab.async false

namespace Sys2Proof.Machine

/-! ### Sorting -/

theorem insertBy_perm (le : α → α → Bool) (a : α) (l : List α) : (insertBy le a l).Perm (a :: l) := by
  induction l with
  | nil => exact .refl _
  | cons b l ih =>
    unfold insertBy
    split
    · exact .refl _
    · exact (ih.cons b).trans (.swap a b l)

/-- Sorting rearranges. -/
theorem inOrder_perm (le : α → α → Bool) (l : List α) : (inOrder le l).Perm l := by
  induction l with
  | nil => exact .refl _
  | cons a l ih => exact (insertBy_perm le a _).trans (ih.cons a)

/-! ### Tables -/

theorem Table.get_insert_self (d : α) (a : Nat) (x : α) (t : Table α) : Table.get d (Table.insert a x t) a = x := by
  induction t with
  | nil => simp [Table.insert, Table.get]
  | cons e t ih =>
    obtain ⟨k, v⟩ := e
    simp only [Table.insert]
    split
    · simp [Table.get]
    · split
      · simp [Table.get]
      · simp [Table.get, *]

theorem Table.get_insert_ne (d : α) {a b : Nat} (h : b ≠ a) (x : α) (t : Table α) :
    Table.get d (Table.insert a x t) b = Table.get d t b := by
  induction t with
  | nil => simp only [Table.insert, Table.get]; split <;> simp_all
  | cons e t ih =>
    obtain ⟨k, v⟩ := e
    simp only [Table.insert]
    split
    · subst_vars; simp only [Table.get]; split <;> simp_all
    · split
      · simp only [Table.get]
        split
        · omega
        · split
          · split
            · omega
            · split
              · rfl
              · omega
          · rfl
      · simp only [Table.get, ih]

theorem Table.sorted_cons {e : Nat × α} {t : Table α} :
    Table.Sorted (e :: t) ↔ (∀ x ∈ t, e.1 < x.1) ∧ Table.Sorted t := List.pairwise_cons

@[simp] theorem Table.sorted_nil : Table.Sorted ([] : Table α) := List.Pairwise.nil

/-- Nothing is listed below the first key. -/
theorem Table.get_below (d : α) {a : Nat} {t : Table α} (h : ∀ x ∈ t, a < x.1) : Table.get d t a = d := by
  cases t with
  | nil => rfl
  | cons e t =>
    have := h e (by simp)
    simp only [Table.get]
    split
    · omega
    · rfl

theorem Table.mem_insert {a : Nat} {x : α} {t : Table α} {e : Nat × α} (h : e ∈ Table.insert a x t) : e = (a, x) ∨ e ∈ t := by
  induction t with
  | nil => simp [Table.insert] at h; exact .inl h
  | cons y t ih =>
    simp only [Table.insert] at h
    split at h
    · rcases List.mem_cons.mp h with h | h
      · exact .inl h
      · exact .inr (List.mem_cons_of_mem _ h)
    · split at h
      · rcases List.mem_cons.mp h with h | h
        · exact .inl h
        · exact .inr h
      · rcases List.mem_cons.mp h with h | h
        · exact .inr (h ▸ List.mem_cons_self ..)
        · exact (ih h).imp id (List.mem_cons_of_mem _)

theorem Table.mem_erase {a : Nat} {t : Table α} {e : Nat × α} (h : e ∈ Table.erase a t) : e ∈ t := by
  induction t with
  | nil => simp [Table.erase] at h
  | cons y t ih =>
    simp only [Table.erase] at h
    split at h
    · exact List.mem_cons_of_mem _ h
    · split at h
      · exact h
      · rcases List.mem_cons.mp h with h | h
        · exact h ▸ List.mem_cons_self ..
        · exact List.mem_cons_of_mem _ (ih h)

theorem Table.sorted_insert {t : Table α} (h : Table.Sorted t) (a : Nat) (x : α) : Table.Sorted (Table.insert a x t) := by
  induction t with
  | nil => simp [Table.insert, Table.Sorted]
  | cons y t ih =>
    obtain ⟨k, v⟩ := y
    have hc := Table.sorted_cons.mp h
    simp only [Table.insert]
    split
    · subst_vars; exact Table.sorted_cons.mpr ⟨hc.1, hc.2⟩
    · split
      · refine Table.sorted_cons.mpr ⟨?_, h⟩
        intro e he
        rcases List.mem_cons.mp he with he | he
        · subst he; assumption
        · have := hc.1 e he; simp only at *; omega
      · refine Table.sorted_cons.mpr ⟨?_, ih hc.2⟩
        intro e he
        rcases Table.mem_insert he with he | he
        · subst he; simp only; omega
        · exact hc.1 e he

theorem Table.sorted_erase {t : Table α} (h : Table.Sorted t) (a : Nat) : Table.Sorted (Table.erase a t) := by
  induction t with
  | nil => simp [Table.erase]
  | cons y t ih =>
    have hc := Table.sorted_cons.mp h
    simp only [Table.erase]
    split
    · exact hc.2
    · split
      · exact h
      · exact Table.sorted_cons.mpr ⟨fun e he => hc.1 e (Table.mem_erase he), ih hc.2⟩

theorem Table.sorted_put [DecidableEq α] {t : Table α} (h : Table.Sorted t) (d : α) (a : Nat) (x : α) :
    Table.Sorted (Table.put d t a x) := by
  unfold Table.put; split
  · exact Table.sorted_erase h a
  · exact Table.sorted_insert h a x

theorem Table.sorted_filter {t : Table α} (h : Table.Sorted t) (p : Nat × α → Bool) : Table.Sorted (t.filter p) :=
  List.Pairwise.filter p h

/-- Changing the values of a table, not its keys, keeps it rising; so does leaving entries out. -/
theorem Table.sorted_map {β : Type} {t : Table α} {f : Nat × α → Nat × β} (h : Table.Sorted t) (hf : ∀ e, (f e).1 = e.1) :
    Table.Sorted (t.map f : Table β) :=
  List.pairwise_map.mpr (List.Pairwise.imp (fun hab => by rw [hf, hf]; exact hab) h)

theorem Table.sorted_filterMap {β : Type} {t : Table α} {f : Nat × α → Option (Nat × β)} (h : Table.Sorted t)
    (hf : ∀ e e', f e = some e' → e'.1 = e.1) : Table.Sorted (t.filterMap f : Table β) :=
  List.pairwise_filterMap.mpr (List.Pairwise.imp (fun hab x hx y hy => by rw [hf _ _ hx, hf _ _ hy]; exact hab) h)

theorem Table.sorted_foldl_put [DecidableEq α] {β : Type} (d : α) (k : β → Nat) (g : β → α) (l : List β) {t : Table α}
    (h : Table.Sorted t) : Table.Sorted (l.foldl (fun t x => Table.put d t (k x) (g x)) t) := by
  induction l generalizing t with
  | nil => exact h
  | cons x l ih => exact ih (Table.sorted_put h _ _ _)

theorem Table.get_erase_self (d : α) {t : Table α} (h : Table.Sorted t) (a : Nat) : Table.get d (Table.erase a t) a = d := by
  induction t with
  | nil => rfl
  | cons y t ih =>
    obtain ⟨k, v⟩ := y
    have hc := Table.sorted_cons.mp h
    simp only [Table.erase]
    split
    · subst_vars; exact Table.get_below d hc.1
    · split
      · simp [Table.get, *]
      · simp [Table.get, *]

theorem Table.get_erase_ne (d : α) {t : Table α} (h : Table.Sorted t) {a b : Nat} (hb : b ≠ a) :
    Table.get d (Table.erase a t) b = Table.get d t b := by
  induction t with
  | nil => rfl
  | cons y t ih =>
    obtain ⟨k, v⟩ := y
    have hc := Table.sorted_cons.mp h
    simp only [Table.erase]
    split
    · subst_vars
      simp only [Table.get]
      split
      · omega
      · split
        · exact Table.get_below d (fun e he => by have := hc.1 e he; simp only at *; omega)
        · rfl
    · split
      · rfl
      · simp [Table.get, ih hc.2]

/-- The value put at a key is read there. -/
theorem Table.get_put_self [DecidableEq α] (d : α) {t : Table α} (h : Table.Sorted t) (a : Nat) (x : α) :
    Table.get d (Table.put d t a x) a = x := by
  unfold Table.put; split
  · subst_vars; exact Table.get_erase_self _ h a
  · exact Table.get_insert_self d a x t

/-- Every other key reads as before. -/
theorem Table.get_put_ne [DecidableEq α] (d e : α) {t : Table α} (h : Table.Sorted t) {a b : Nat} (hb : b ≠ a) (x : α) :
    Table.get d (Table.put e t a x) b = Table.get d t b := by
  unfold Table.put; split
  · exact Table.get_erase_ne d h hb
  · exact Table.get_insert_ne d hb x t

theorem Table.get_put [DecidableEq α] (d : α) {t : Table α} (h : Table.Sorted t) (a b : Nat) (x : α) :
    Table.get d (Table.put d t a x) b = if b = a then x else Table.get d t b := by
  split
  · subst_vars; exact Table.get_put_self d h _ x
  · exact Table.get_put_ne d d h (by assumption) x

theorem Table.get_filter (d : α) {t : Table α} (h : Table.Sorted t) (p : Nat → Bool) (a : Nat) :
    Table.get d (t.filter (fun e => p e.1)) a = if p a then Table.get d t a else d := by
  induction t with
  | nil => simp [Table.get]
  | cons y t ih =>
    obtain ⟨k, v⟩ := y
    have hc := Table.sorted_cons.mp h
    have ih := ih hc.2
    have low : a ≤ k → Table.get d (t.filter (fun e => p e.1)) a = d := fun hk =>
      Table.get_below d (fun e he => by have := hc.1 e (List.mem_filter.mp he).1; simp only at *; omega)
    rw [List.filter_cons]
    by_cases hp : p k = true
    · rw [if_pos hp]
      simp only [Table.get]
      by_cases hk : k = a
      · subst hk; simp [hp]
      · by_cases hl : a < k
        · simp [hk, hl]
        · simp [hk, hl, ih]
    · rw [if_neg hp]
      simp only [Table.get]
      by_cases hk : k = a
      · subst hk; simp [hp, low]
      · by_cases hl : a < k
        · simp [hk, hl, low (Nat.le_of_lt hl)]
        · simp [hk, hl, ih]

/-! ### Memories -/

theorem Mem.wfFrom_iff (b : Nat) (m : Mem) : Table.wfFrom (α := BitVec 8) 0 b m = true ↔
    (∀ e ∈ m, b ≤ e.1) ∧ Table.Sorted m ∧ ∀ e ∈ m, e.2 ≠ 0 := by
  induction m generalizing b with
  | nil => simp [Table.wfFrom]
  | cons y t ih =>
    obtain ⟨k, v⟩ := y
    simp only [Table.wfFrom, Bool.and_eq_true, decide_eq_true_eq, ih, Table.sorted_cons, List.forall_mem_cons]
    constructor
    · rintro ⟨⟨hb, hv⟩, hk, hs, hz⟩
      exact ⟨⟨hb, fun e he => by have := hk e he; omega⟩, ⟨fun e he => by have := hk e he; omega, hs⟩, hv, hz⟩
    · rintro ⟨⟨hb, _⟩, ⟨hk, hs⟩, hv, hz⟩
      exact ⟨⟨hb, hv⟩, fun e he => by have := hk e he; omega, hs, hz⟩

/-- The canonical form of a memory: rising addresses, and no byte that an unlisted address reads as. -/
theorem Mem.wf_iff (m : Mem) : m.wf = true ↔ Table.Sorted m ∧ ∀ e ∈ m, e.2 ≠ 0 := by
  unfold Mem.wf Table.wf
  rw [Mem.wfFrom_iff]; simp

theorem Mem.sorted {m : Mem} (h : m.wf = true) : Table.Sorted m := ((Mem.wf_iff m).mp h).1

@[simp] theorem Mem.wf_nil : Mem.wf [] = true := rfl

theorem Mem.wf_write {m : Mem} (h : m.wf = true) (a : Nat) (b : Byte) : (m.write a b).wf = true := by
  rw [Mem.wf_iff] at h ⊢
  refine ⟨Table.sorted_put h.1 _ _ _, fun e he => ?_⟩
  unfold Mem.write Table.put at he
  split at he
  · exact h.2 e (Table.mem_erase he)
  · rcases Table.mem_insert he with rfl | he
    · assumption
    · exact h.2 e he

theorem Mem.wf_writeN {m : Mem} (h : m.wf = true) (a : Nat) (bs : List Byte) : (m.writeN a bs).wf = true := by
  induction bs generalizing m a with
  | nil => exact h
  | cons b bs ih => exact ih (Mem.wf_write h a b) (a + 1)

theorem Mem.wf_filter {m : Mem} (h : m.wf = true) (p : Host.Cell → Bool) : Mem.wf (m.filter p) = true := by
  rw [Mem.wf_iff] at h ⊢
  exact ⟨Table.sorted_filter h.1 p, fun e he => h.2 e (List.mem_filter.mp he).1⟩

theorem Mem.wf_zero {m : Mem} (h : m.wf = true) (lo hi : Nat) : (m.zero lo hi).wf = true := Mem.wf_filter h _

theorem Mem.wf_zeroWhere {m : Mem} (h : m.wf = true) (p : Nat → Bool) : (m.zeroWhere p).wf = true := Mem.wf_filter h _

/-- A byte reads as it was written. -/
theorem Mem.read_write_self {m : Mem} (h : m.wf = true) (a : Nat) (b : Byte) : (m.write a b).read a = b :=
  Table.get_put_self _ (Mem.sorted h) a b

/-- A write leaves every other byte alone. -/
theorem Mem.read_write_ne {m : Mem} (h : m.wf = true) {a c : Nat} (hc : c ≠ a) (b : Byte) : (m.write a b).read c = m.read c :=
  Table.get_put_ne _ _ (Mem.sorted h) hc b

/-- A run of stores leaves every byte outside it alone. -/
theorem Mem.read_writeN_outside {m : Mem} (h : m.wf = true) {a c : Nat} (bs : List Byte) (hc : c < a ∨ a + bs.length ≤ c) :
    (m.writeN a bs).read c = m.read c := by
  induction bs generalizing m a with
  | nil => rfl
  | cons b bs ih =>
    simp only [List.length_cons] at hc
    have := ih (m := m.write a b) (a := a + 1) (Mem.wf_write h a b) (by omega)
    simp only [Mem.writeN, this]
    exact Mem.read_write_ne h (by omega) b

/-- Every byte of a run reads as it was stored. -/
theorem Mem.read_writeN_inside {m : Mem} (h : m.wf = true) (a : Nat) (bs : List Byte) (i : Nat) (hi : i < bs.length) :
    (m.writeN a bs).read (a + i) = bs[i] := by
  induction bs generalizing m a i with
  | nil => simp at hi
  | cons b bs ih =>
    simp only [Mem.writeN]
    cases i with
    | zero =>
      have := Mem.read_writeN_outside (Mem.wf_write h a b) (a := a + 1) (c := a) bs (by omega)
      show ((m.write a b).writeN (a + 1) bs).read a = b
      rw [this, Mem.read_write_self h]
    | succ i =>
      have := ih (m := m.write a b) (Mem.wf_write h a b) (a + 1) i (by simpa using hi)
      rw [show a + (i + 1) = a + 1 + i by omega, this]; rfl

/-- A run read back is the run stored. -/
theorem Mem.readN_writeN {m : Mem} (h : m.wf = true) (a : Nat) (bs : List Byte) : (m.writeN a bs).readN a bs.length = bs := by
  have gen : ∀ (l : List Byte) (m : Mem) (a : Nat), (∀ i (hi : i < l.length), m.read (a + i) = l[i]) → m.readN a l.length = l := by
    intro l
    induction l with
    | nil => intro m a _; rfl
    | cons b l ih =>
      intro m a hm
      simp only [List.length_cons, Mem.readN]
      congr 1
      · have := hm 0 (by simp); simpa using this
      · apply ih
        intro i hi
        have := hm (i + 1) (by simpa using hi)
        rw [show a + 1 + i = a + (i + 1) by omega, this]; rfl
  exact gen bs _ a (fun i hi => Mem.read_writeN_inside h a bs i hi)

theorem Mem.read_zero {m : Mem} (h : m.wf = true) (lo hi a : Nat) :
    (m.zero lo hi).read a = if lo ≤ a ∧ a < hi then 0 else m.read a := by
  unfold Mem.zero Mem.read
  rw [Table.get_filter (α := BitVec 8) 0 (Mem.sorted h) (fun k => !(decide (lo ≤ k) && decide (k < hi))) a]
  by_cases h1 : lo ≤ a <;> by_cases h2 : a < hi <;> simp [h1, h2]

end Sys2Proof.Machine
end

