-- ==== Sys2Proof/Laws/Keeps.lean ====
section
/-!
SUPPORT. What the named operations keep: the laws from which it follows, command by command, that no command undoes what a
run has kept.
-/

-- one proof at a time: the package as one text would start more threads than its memory limit allows
set_option Elab.async false

namespace Sys2Proof.Machine

variable {s : State} {q : List Instr} {v : Nat} {r : List Entry}

/-! ### Choices and repetitions -/

theorem State.Keeps.ite {c : Prop} [Decidable c] {a b : State} (ha : a.Keeps q v r) (hb : b.Keeps q v r) :
    (if c then a else b).Keeps q v r := by split <;> assumption

/-- Repeating an operation that keeps keeps. -/
theorem State.forEach_keeps {α : Type} {f : State → α → State} {xs : List α}
    (h : s.Keeps q v r) (hf : ∀ s x, State.Keeps q v r s → (f s x).Keeps q v r) : (s.forEach xs f).Keeps q v r := by
  unfold State.forEach
  induction xs generalizing s with
  | nil => exact h
  | cons x xs ih => exact ih (hf s x h)

/-! ### Tables of the state -/

theorem Table.get_mem_or {α : Type} (d : α) (t : Table α) (a : Nat) : Table.get d t a = d ∨ ∃ e ∈ t, e.2 = Table.get d t a := by
  induction t with
  | nil => exact .inl rfl
  | cons y t ih =>
    obtain ⟨k, x⟩ := y
    simp only [Table.get]
    split
    · exact .inr ⟨(k, x), by simp, rfl⟩
    · split
      · exact .inl rfl
      · exact ih.imp id (fun ⟨e, he, hx⟩ => ⟨e, List.mem_cons_of_mem _ he, hx⟩)

theorem State.setReg_keeps {a : Nat} {w : Word} (h : s.Keeps q v r) : (s.setReg a w).Keeps q v r :=
  { h with wf := { h.wf with regs := Table.sorted_put h.wf.regs _ _ _ } }

theorem State.setVfReg_keeps {p off : Nat} {w : Word} (h : s.Keeps q v r) : (s.setVfReg p off w).Keeps q v r :=
  { h with wf := { h.wf with vfRegs := Table.sorted_put h.wf.vfRegs _ _ _ } }

theorem State.modTile_keeps {f : Tile → Tile} {t : Nat} (h : s.Keeps q v r) (hf : ∀ x : Tile, x.Wf → (f x).Wf) :
    (s.modTile t f).Keeps q v r :=
  { h with wf := { h.wf with
      tiles := Table.sorted_put h.wf.tiles _ _ _
      tile := fun u => by
        show (Table.get default (Table.put default s.tiles t (f (s.tile t))) u).Wf
        rw [Table.get_put _ h.wf.tiles]
        split
        · exact hf _ (h.wf.tile t)
        · exact h.wf.tile u } }

theorem State.modTcc_keeps {f : Tcc → Tcc} {t : Nat} (h : s.Keeps q v r) (hf : ∀ x : Tcc, x.Wf → (f x).Wf) :
    (s.modTcc t f).Keeps q v r :=
  State.modTile_keeps (f := fun x => { x with tcc := f x.tcc }) h (fun _ hx => ⟨hf _ hx.1, hx.2⟩)

theorem Tile.modEngine_wf {x : Tile} {n : Nat} {f : Engine → Engine} (h : x.Wf) : (x.modEngine n f).Wf :=
  ⟨h.1, h.2.1, Table.sorted_put h.2.2.1 _ _ _, h.2.2.2⟩

theorem Tile.setCtr_wf {x : Tile} (h : x.Wf) {c : Nat} {w : Word} : (x.setCtr c w).Wf :=
  ⟨h.1, Table.sorted_put h.2.1 _ _ _, h.2.2⟩

theorem Tile.default_wf : (default : Tile).Wf :=
  ⟨⟨Table.sorted_nil, Table.sorted_nil, Table.sorted_nil⟩, Table.sorted_nil, Table.sorted_nil, Table.sorted_nil, Table.sorted_nil, Table.sorted_nil, Table.sorted_nil⟩

theorem State.modEngine_keeps (h : s.Keeps q v r) {t n : Nat} {f : Engine → Engine} : (s.modEngine t n f).Keeps q v r :=
  State.modTile_keeps h (fun _ hx => Tile.modEngine_wf hx)

theorem State.modPld_keeps (h : s.Keeps q v r) {p : Nat} {f : Polder → Polder} : (s.modPld p f).Keeps q v r :=
  { h with wf := { h.wf with polders := Table.sorted_put h.wf.polders _ _ _ } }

theorem State.modChan_keeps {f : Channel → Channel} {c : Nat}
    (h : s.Keeps q v r) (hf : ∀ x : Channel, Table.Sorted x.buf → Table.Sorted (f x).buf) : (s.modChan c f).Keeps q v r :=
  { h with wf := { h.wf with
      channels := Table.sorted_put h.wf.channels _ _ _
      buffers := fun u => by
        show Table.Sorted (Table.get default (Table.put default s.channels c (f (s.chan c))) u).buf
        rw [Table.get_put _ h.wf.channels]
        split
        · exact hf _ (h.wf.buffers c)
        · exact h.wf.buffers u } }

theorem State.modCns_keeps {n : Nat} {f : Conservator → Conservator} (h : s.Keeps q v r) : (s.modCns n f).Keeps q v r :=
  { h with wf := { h.wf with conservators := Table.sorted_put h.wf.conservators _ _ _ } }

theorem State.modClient_keeps {n : Nat} {f : Client → Client} (h : s.Keeps q v r) : (s.modClient n f).Keeps q v r :=
  { h with wf := { h.wf with clients := Table.sorted_put h.wf.clients _ _ _ } }

theorem State.modSeam_keeps {n : Nat} {f : Seam → Seam} (h : s.Keeps q v r) : (s.modSeam n f).Keeps q v r :=
  { h with wf := { h.wf with seams := Table.sorted_put h.wf.seams _ _ _ } }

theorem State.modDie_keeps {n : Nat} {f : DiePower → DiePower} (h : s.Keeps q v r) : (s.modDie n f).Keeps q v r :=
  { h with wf := { h.wf with power := Table.sorted_put h.wf.power _ _ _ } }

theorem State.modLinks_keeps {f : Links → Links}
    (h : s.Keeps q v r) (hf : ∀ l : Links, Table.Sorted l.ports ∧ Table.Sorted l.slots → Table.Sorted (f l).ports ∧ Table.Sorted (f l).slots) :
    (s.modLinks f).Keeps q v r :=
  have hl := hf _ ⟨h.wf.ports, h.wf.slots⟩
  { h with wf := { h.wf with ports := hl.1, slots := hl.2 } }

theorem State.modPort_keeps {n : Nat} {f : Port → Port} (h : s.Keeps q v r) : (s.modPort n f).Keeps q v r :=
  State.modLinks_keeps h (fun _ hl => ⟨Table.sorted_put hl.1 _ _ _, hl.2⟩)

theorem State.modStore_keeps (h : s.Keeps q v r) {f : Store → Store} (hf : ∀ m : Store, m.Wf → (f m).Wf) :
    (s.modStore f).Keeps q v r := { h with wf := { h.wf with store := hf _ h.wf.store } }

/-- The same where the new store is known to have the form. -/
theorem State.setStore_keeps (h : s.Keeps q v r) {f : Store → Store} (hf : (f s.store).Wf) : (s.modStore f).Keeps q v r :=
  { h with wf := { h.wf with store := hf } }

theorem State.modNets_keeps {f : Nets → Nets} (h : s.Keeps q v r) : (s.modNets f).Keeps q v r :=
  { h with wf := { h.wf with } }

theorem State.modHif_keeps {f : HostIf → HostIf}
    (h : s.Keeps q v r) (hf : ∀ x : HostIf, x.numVfs ≤ 16 → (f x).numVfs ≤ 16) :
    (s.modHif f).Keeps q v r := { h with wf := { h.wf with }, vfs := hf _ h.vfs }

theorem State.modBoard_keeps {f : Board → Board} (h : s.Keeps q v r) : (s.modBoard f).Keeps q v r :=
  { h with wf := { h.wf with } }

theorem State.modBoot_keeps {f : Boot → Boot} (h : s.Keeps q v r) (hf : ∀ x : Boot, x.svnMin ≤ (f x).svnMin) :
    (s.modBoot f).Keeps q v r := { h with wf := { h.wf with }, svn := Nat.le_trans h.svn (hf _) }

theorem State.modJournal_keeps {f : Journal → Journal}
    (h : s.Keeps q v r) (hf : ∀ x : Journal, x.entries <+: (f x).entries) :
    (s.modJournal f).Keeps q v r := { h with wf := { h.wf with }, record := List.IsPrefix.trans h.record (hf _) }

theorem State.modSpares_keeps {f : Spares → Spares} (h : s.Keeps q v r) : (s.modSpares f).Keeps q v r :=
  { h with wf := { h.wf with } }

/-- The value drawn is free; the state after it keeps. -/
theorem State.draw_keeps (h : s.Keeps q v r) : s.draw.2.Keeps q v r := { h with wf := { h.wf with } }

theorem State.answerError_keeps (h : s.Keeps q v r) : s.answerError.Keeps q v r := { h with wf := { h.wf with } }
theorem State.answerWritten_keeps (h : s.Keeps q v r) : s.answerWritten.Keeps q v r := { h with wf := { h.wf with } }
theorem State.answerValue_keeps {w : Word} (h : s.Keeps q v r) : (s.answerValue w).Keeps q v r := { h with wf := { h.wf with } }

theorem State.clearRegs_keeps {lo hi : Nat} (h : s.Keeps q v r) : (s.clearRegs lo hi).Keeps q v r :=
  { h with wf := { h.wf with regs := Table.sorted_filter h.wf.regs _ } }

/-! ### Parts of the state -/

/-- The channels that a loss of power leaves keep their buffers' form. -/
theorem State.chans_filtered {s : State} (h : Table.Sorted s.channels) (hb : ∀ c, Table.Sorted (s.chan c).buf) (p : Nat → Bool)
    (c : Nat) : Table.Sorted (Table.get default (s.channels.filter (fun e => p e.1)) c).buf := by
  rw [Table.get_filter _ h]
  split
  · exact hb c
  · exact Table.sorted_nil

theorem Tcc.setS_wf {x : Tcc} {n : BitVec 5} {w : Word} (h : x.Wf) : (x.setS n w).Wf := by
  unfold Tcc.setS
  split
  · exact h
  · exact ⟨Table.sorted_put h.1 _ _ _, h.2⟩

theorem Tcc.setP_wf {x : Tcc} {n : BitVec 3} {b : Bool} (h : x.Wf) : (x.setP n b).Wf := by
  unfold Tcc.setP
  split
  · exact h
  · exact ⟨h.1, Table.sorted_put h.2.1 _ _ _, h.2.2⟩

theorem Tile.activate_wf {x : Tile} {n : Nat} {c : Command} (h : x.Wf) : (x.activate n c).Wf := by
  unfold Tile.activate
  extract_lets +onlyGivenNames e y
  have hy : y.Wf := by unfold y; split <;> exact h
  exact Tile.modEngine_wf hy

theorem Tile.setTlb_wf {x : Tile} {n stream : Nat} {l : List TlbEntry} (h : x.Wf) : (x.setTlb n stream l).Wf := by
  unfold Tile.setTlb
  split
  · exact h
  · split <;> first | exact h | exact ⟨h.1, h.2.1, h.2.2.1, h.2.2.2.1, h.2.2.2.2.1, h.2.2.2.2.2.1, Table.sorted_put h.2.2.2.2.2.2 _ _ _⟩

theorem Tile.setDma_wf {x : Tile} {n : Nat} {d : DmaEngine} (h : x.Wf) : (x.setDma n d).Wf := by
  unfold Tile.setDma; split <;> exact h

theorem Journal.atStart_prefix (j : Journal) (torn : Bool) : j.entries <+: (j.atStart torn).entries := List.prefix_rfl

end Sys2Proof.Machine
end

