-- ==== Sys2Proof/Laws/Frame.lean ====
section
/-!
SUPPORT. What the named operations leave unchanged, part by part: the laws from which the frame of every command follows.
-/

-- one proof at a time: the package as one text would start more threads than its memory limit allows
set_option Elab.async false

namespace Sys2Proof.Machine

variable {m : List Part} {z : State}

/-- Every part outside the list is as in an earlier state. -/
structure State.Same (t : State) (m : List Part) (s : State) : Prop where
  time : .time ∈ m ∨ t.time = s.time
  vfRegs : .vfRegs ∈ m ∨ t.vfRegs = s.vfRegs
  tiles : .tiles ∈ m ∨ t.tiles = s.tiles
  memory : .memory ∈ m ∨ t.store.hbm = s.store.hbm ∧ t.store.depot = s.store.depot ∧ t.store.col = s.store.col
  spad : .spad ∈ m ∨ t.store.spad = s.store.spad
  dstore : .dstore ∈ m ∨ t.store.dstore = s.store.dstore
  istore : .istore ∈ m ∨ t.store.istore = s.store.istore
  host : .host ∈ m ∨ t.store.host = s.store.host
  translation : .translation ∈ m ∨ t.store.tabD0 = s.store.tabD0 ∧ t.store.tabD4 = s.store.tabD4
  frames : .frames ∈ m ∨ t.store.frames = s.store.frames ∧ t.store.retired = s.store.retired ∧ t.store.accFrames = s.store.accFrames
  seams : .seams ∈ m ∨ t.seams = s.seams
  polders : .polders ∈ m ∨ t.polders = s.polders
  clients : .clients ∈ m ∨ t.clients = s.clients
  conservators : .conservators ∈ m ∨ t.conservators = s.conservators
  channels : .channels ∈ m ∨ t.channels = s.channels
  policy : .policy ∈ m ∨ HostIf.samePolicy t.hif s.hif
  links : .links ∈ m ∨ t.links = s.links
  power : .power ∈ m ∨ t.power = s.power
  board : .board ∈ m ∨ t.board = s.board
  status : .status ∈ m ∨ Boot.sameStatus t.boot s.boot
  measurements : .measurements ∈ m ∨ Boot.sameMeasurements t.boot s.boot
  firmware : .firmware ∈ m ∨ Boot.sameFirmware t.boot s.boot
  journal : .journal ∈ m ∨ t.journal = s.journal
  spares : .spares ∈ m ∨ t.spares = s.spares

structure Store.Same (m : List Part) (x y : Store) : Prop where
  memory : .memory ∈ m ∨ y.hbm = x.hbm ∧ y.depot = x.depot ∧ y.col = x.col
  spad : .spad ∈ m ∨ y.spad = x.spad
  dstore : .dstore ∈ m ∨ y.dstore = x.dstore
  istore : .istore ∈ m ∨ y.istore = x.istore
  host : .host ∈ m ∨ y.host = x.host
  translation : .translation ∈ m ∨ y.tabD0 = x.tabD0 ∧ y.tabD4 = x.tabD4
  frames : .frames ∈ m ∨ y.frames = x.frames ∧ y.retired = x.retired ∧ y.accFrames = x.accFrames

structure HostIf.Same (m : List Part) (x y : HostIf) : Prop where
  policy : .policy ∈ m ∨ HostIf.samePolicy y x

structure Boot.Same (m : List Part) (x y : Boot) : Prop where
  status : .status ∈ m ∨ Boot.sameStatus y x
  measurements : .measurements ∈ m ∨ Boot.sameMeasurements y x
  firmware : .firmware ∈ m ∨ Boot.sameFirmware y x

theorem HostIf.samePolicy.refl (x : HostIf) : HostIf.samePolicy x x := by simp only [HostIf.samePolicy, and_self]

theorem Boot.sameFirmware.refl (x : Boot) : Boot.sameFirmware x x := by simp only [Boot.sameFirmware, and_self]

theorem Store.Same.refl (x : Store) : Store.Same m x x :=
  { memory := .inr ⟨rfl, rfl, rfl⟩, spad := .inr rfl, dstore := .inr rfl, istore := .inr rfl, host := .inr rfl, translation := .inr ⟨rfl, rfl⟩, frames := .inr ⟨rfl, rfl, rfl⟩ }

theorem HostIf.Same.refl (x : HostIf) : HostIf.Same m x x :=
  { policy := .inr (.refl _) }

theorem Boot.Same.refl (x : Boot) : Boot.Same m x x :=
  { status := .inr ⟨rfl, rfl, rfl, rfl, rfl⟩, measurements := .inr ⟨rfl, rfl, rfl, rfl, rfl⟩, firmware := .inr (.refl _) }

theorem State.Same.refl (s : State) : s.Same m s :=
  { time := .inr rfl,
    vfRegs := .inr rfl,
    tiles := .inr rfl,
    memory := .inr ⟨rfl, rfl, rfl⟩,
    spad := .inr rfl,
    dstore := .inr rfl,
    istore := .inr rfl,
    host := .inr rfl,
    translation := .inr ⟨rfl, rfl⟩,
    frames := .inr ⟨rfl, rfl, rfl⟩,
    seams := .inr rfl,
    polders := .inr rfl,
    clients := .inr rfl,
    conservators := .inr rfl,
    channels := .inr rfl,
    policy := .inr (.refl _),
    links := .inr rfl,
    power := .inr rfl,
    board := .inr rfl,
    status := .inr ⟨rfl, rfl, rfl, rfl, rfl⟩,
    measurements := .inr ⟨rfl, rfl, rfl, rfl, rfl⟩,
    firmware := .inr (.refl _),
    journal := .inr rfl,
    spares := .inr rfl }

theorem State.Same.part {t s : State} (h : t.Same m s) (k : Part) (hk : k ∉ m) : k.same t s := by
  cases k <;> first
    | exact h.time.resolve_left hk
    | exact h.vfRegs.resolve_left hk
    | exact h.tiles.resolve_left hk
    | exact h.memory.resolve_left hk
    | exact h.spad.resolve_left hk
    | exact h.dstore.resolve_left hk
    | exact h.istore.resolve_left hk
    | exact h.host.resolve_left hk
    | exact h.translation.resolve_left hk
    | exact h.frames.resolve_left hk
    | exact h.seams.resolve_left hk
    | exact h.polders.resolve_left hk
    | exact h.clients.resolve_left hk
    | exact h.conservators.resolve_left hk
    | exact h.channels.resolve_left hk
    | exact h.policy.resolve_left hk
    | exact h.links.resolve_left hk
    | exact h.power.resolve_left hk
    | exact h.board.resolve_left hk
    | exact h.status.resolve_left hk
    | exact h.measurements.resolve_left hk
    | exact h.firmware.resolve_left hk
    | exact h.journal.resolve_left hk
    | exact h.spares.resolve_left hk

theorem State.Same.ite {c : Prop} [Decidable c] {a b : State} (ha : a.Same m z) (hb : b.Same m z) :
    (if c then a else b).Same m z := by split <;> assumption

theorem State.forEach_same {α : Type} {f : State → α → State} {s : State} {xs : List α}
    (h : s.Same m z) (hf : ∀ s x, State.Same s m z → (f s x).Same m z) : (s.forEach xs f).Same m z := by
  unfold State.forEach
  induction xs generalizing s with
  | nil => exact h
  | cons x xs ih => exact ih (hf s x h)

/-! ### Named updates -/

theorem HostIf.samePolicy.trans {x y w : HostIf} (d : HostIf.samePolicy w y) (e : HostIf.samePolicy y x) : HostIf.samePolicy w x := by
  simp only [HostIf.samePolicy] at *
  simp only [d, e, and_self]

theorem Boot.sameStatus.trans {x y w : Boot} (d : Boot.sameStatus w y) (e : Boot.sameStatus y x) : Boot.sameStatus w x := by
  simp only [Boot.sameStatus] at *
  simp only [d, e, and_self]

theorem Boot.sameMeasurements.trans {x y w : Boot} (d : Boot.sameMeasurements w y) (e : Boot.sameMeasurements y x) : Boot.sameMeasurements w x := by
  simp only [Boot.sameMeasurements] at *
  simp only [d, e, and_self]

theorem Boot.sameFirmware.trans {x y w : Boot} (d : Boot.sameFirmware w y) (e : Boot.sameFirmware y x) : Boot.sameFirmware w x := by
  simp only [Boot.sameFirmware] at *
  simp only [d, e, and_self]

theorem State.setReg_same {s : State} {a : Nat} {w : Word} (h : s.Same m z) :
    (s.setReg a w).Same m z := { h with }
theorem State.clearRegs_same {s : State} {lo hi : Nat} (h : s.Same m z) :
    (s.clearRegs lo hi).Same m z := { h with }
theorem State.setVfReg_same {s : State} {p off : Nat} {w : Word} (h : s.Same m z) (hm : .vfRegs ∈ m := by assumption) :
    (s.setVfReg p off w).Same m z := { h with vfRegs := .inl hm }
theorem State.modTile_same {s : State} {t : Nat} {f : Tile → Tile} (h : s.Same m z) (hm : .tiles ∈ m := by assumption) :
    (s.modTile t f).Same m z := { h with tiles := .inl hm }
theorem State.modTcc_same {s : State} {t : Nat} {f : Tcc → Tcc} (h : s.Same m z) (hm : .tiles ∈ m := by assumption) :
    (s.modTcc t f).Same m z := { h with tiles := .inl hm }
theorem State.modEngine_same {s : State} {t n : Nat} {f : Engine → Engine} (h : s.Same m z) (hm : .tiles ∈ m := by assumption) :
    (s.modEngine t n f).Same m z := { h with tiles := .inl hm }
theorem State.modPld_same {s : State} {p : Nat} {f : Polder → Polder} (h : s.Same m z) (hm : .polders ∈ m := by assumption) :
    (s.modPld p f).Same m z := { h with polders := .inl hm }
theorem State.modChan_same {s : State} {c : Nat} {f : Channel → Channel} (h : s.Same m z) (hm : .channels ∈ m := by assumption) :
    (s.modChan c f).Same m z := { h with channels := .inl hm }
theorem State.modCns_same {s : State} {n : Nat} {f : Conservator → Conservator} (h : s.Same m z) (hm : .conservators ∈ m := by assumption) :
    (s.modCns n f).Same m z := { h with conservators := .inl hm }
theorem State.modClient_same {s : State} {n : Nat} {f : Client → Client} (h : s.Same m z) (hm : .clients ∈ m := by assumption) :
    (s.modClient n f).Same m z := { h with clients := .inl hm }
theorem State.modSeam_same {s : State} {n : Nat} {f : Seam → Seam} (h : s.Same m z) (hm : .seams ∈ m := by assumption) :
    (s.modSeam n f).Same m z := { h with seams := .inl hm }
theorem State.modDie_same {s : State} {n : Nat} {f : DiePower → DiePower} (h : s.Same m z) (hm : .power ∈ m := by assumption) :
    (s.modDie n f).Same m z := { h with power := .inl hm }
theorem State.modLinks_same {s : State} {f : Links → Links} (h : s.Same m z) (hm : .links ∈ m := by assumption) :
    (s.modLinks f).Same m z := { h with links := .inl hm }
theorem State.modPort_same {s : State} {n : Nat} {f : Port → Port} (h : s.Same m z) (hm : .links ∈ m := by assumption) :
    (s.modPort n f).Same m z := { h with links := .inl hm }
theorem State.modNets_same {s : State} {f : Nets → Nets} (h : s.Same m z) :
    (s.modNets f).Same m z := { h with }
theorem State.modBoard_same {s : State} {f : Board → Board} (h : s.Same m z) (hm : .board ∈ m := by assumption) :
    (s.modBoard f).Same m z := { h with board := .inl hm }
theorem State.modJournal_same {s : State} {f : Journal → Journal} (h : s.Same m z) (hm : .journal ∈ m := by assumption) :
    (s.modJournal f).Same m z := { h with journal := .inl hm }
theorem State.modSpares_same {s : State} {f : Spares → Spares} (h : s.Same m z) (hm : .spares ∈ m := by assumption) :
    (s.modSpares f).Same m z := { h with spares := .inl hm }
theorem State.answerError_same {s : State} (h : s.Same m z) :
    (s.answerError).Same m z := { h with }
theorem State.answerWritten_same {s : State} (h : s.Same m z) :
    (s.answerWritten).Same m z := { h with }
theorem State.answerValue_same {s : State} {w : Word} (h : s.Same m z) :
    (s.answerValue w).Same m z := { h with }
theorem State.draw_same {s : State} (h : s.Same m z) : s.draw.2.Same m z := { h with }

theorem State.modStore_same {s : State} {f : Store → Store} (h : s.Same m z) (hf : ∀ x, Store.Same m x (f x)) : (s.modStore f).Same m z :=
  have hx := hf s.store
  { h with
    memory := h.memory.elim .inl (fun ⟨e0, e1, e2⟩ => hx.memory.imp id (fun ⟨d0, d1, d2⟩ => ⟨d0.trans e0, d1.trans e1, d2.trans e2⟩))
    spad := h.spad.elim .inl (fun e => hx.spad.imp id (fun d => d.trans e))
    dstore := h.dstore.elim .inl (fun e => hx.dstore.imp id (fun d => d.trans e))
    istore := h.istore.elim .inl (fun e => hx.istore.imp id (fun d => d.trans e))
    host := h.host.elim .inl (fun e => hx.host.imp id (fun d => d.trans e))
    translation := h.translation.elim .inl (fun ⟨e0, e1⟩ => hx.translation.imp id (fun ⟨d0, d1⟩ => ⟨d0.trans e0, d1.trans e1⟩))
    frames := h.frames.elim .inl (fun ⟨e0, e1, e2⟩ => hx.frames.imp id (fun ⟨d0, d1, d2⟩ => ⟨d0.trans e0, d1.trans e1, d2.trans e2⟩)) }

theorem State.modHif_same {s : State} {f : HostIf → HostIf} (h : s.Same m z) (hf : ∀ x, HostIf.Same m x (f x)) : (s.modHif f).Same m z :=
  have hx := hf s.hif
  { h with
    policy := h.policy.elim .inl (fun e => hx.policy.imp id (fun d => d.trans e)) }

theorem State.modBoot_same {s : State} {f : Boot → Boot} (h : s.Same m z) (hf : ∀ x, Boot.Same m x (f x)) : (s.modBoot f).Same m z :=
  have hx := hf s.boot
  { h with
    status := h.status.elim .inl (fun e => hx.status.imp id (fun d => d.trans e))
    measurements := h.measurements.elim .inl (fun e => hx.measurements.imp id (fun d => d.trans e))
    firmware := h.firmware.elim .inl (fun e => hx.firmware.imp id (fun d => d.trans e)) }

end Sys2Proof.Machine
end

