-- ==== Sys2Proof/Laws/FrameOps.lean ====
section
/-!
SUPPORT. Which parts of the state the definitions of the shared operations: routes, provenance, counters, the TCC and its events leave unchanged.
-/

-- one proof at a time: the package as one text would start more threads than its memory limit allows
set_option Elab.async false

namespace Sys2Proof.Machine

variable {m : List Part} {z : State}



/-! ### Ops -/

theorem State.bump_same {s : State} {a : Nat} {n : Nat} (h : s.Same m z) :
    (State.bump s a n).Same m z := by
  unfold State.bump
  exact State.setReg_same h

theorem State.bumpHeld_same {s : State} {a : Nat} (h : s.Same m z) : (s.bumpHeld a).Same m z :=
  State.bump_same (State.draw_same h)

theorem State.bumpSat_same {s : State} {a : Nat} {n : Nat} (h : s.Same m z) :
    (State.bumpSat s a n).Same m z := by
  unfold State.bumpSat
  exact State.setReg_same h

theorem State.setReg64_same {s : State} {a : Nat} {n : Nat} (h : s.Same m z) :
    (State.setReg64 s a n).Same m z := by
  unfold State.setReg64
  exact State.setReg_same (State.setReg_same h)

theorem State.bump64_same {s : State} {a : Nat} {n : Nat} (h : s.Same m z) :
    (State.bump64 s a n).Same m z := by
  unfold State.bump64
  exact State.setReg64_same h

theorem State.sendMsix_same {s : State} {fn : Nat} {vec : Nat} (h : s.Same m z) :
    (State.sendMsix s fn vec).Same m z := by
  unfold State.sendMsix
  extract_lets -underBinder +onlyGivenNames n1
  refine State.Same.ite (State.modHif_same h (fun _ => { HostIf.Same.refl _ with })) ?_
  exact State.modHif_same h (fun _ => { HostIf.Same.refl _ with })

theorem State.writeMsix_same {s : State} {fn : Nat} {i : Nat} {v : Word} (h : s.Same m z) (_ : .policy ∈ m := by assumption) :
    (State.writeMsix s fn i v).Same m z := by
  unfold State.writeMsix
  extract_lets -underBinder +onlyGivenNames n1 s2
  have h3 : s2.Same m z := State.modHif_same h (fun _ => {  policy := .inl (by assumption) })
  clear_value s2
  exact State.Same.ite (State.sendMsix_same (State.modHif_same h3 (fun _ => { HostIf.Same.refl _ with }))) h3

theorem State.sendAer_same {s : State} {fn : Nat} {abort : Bool} {a : Nat} (h : s.Same m z) :
    (State.sendAer s fn abort a).Same m z := by
  unfold State.sendAer
  extract_lets -underBinder +onlyGivenNames n1
  exact State.modHif_same h (fun _ => { HostIf.Same.refl _ with })

theorem State.trainLink_same {s : State} (h : s.Same m z) (_ : .policy ∈ m := by assumption) :
    (State.trainLink s).Same m z := by
  unfold State.trainLink
  extract_lets -underBinder +onlyGivenNames n1
  have h2 : n1.2.Same m z := State.draw_same h
  clear_value n1
  extract_lets -underBinder +onlyGivenNames n3 n4
  exact State.modHif_same h2 (fun _ => {  policy := .inl (by assumption) })

theorem State.sendTlps_same {s : State} {l : List Tlp} (h : s.Same m z) :
    (State.sendTlps s l).Same m z := by
  unfold State.sendTlps
  exact State.modHif_same h (fun _ => { HostIf.Same.refl _ with })

theorem State.askHost_same {s : State} {fn : Nat} {a : Nat} {n : Nat} (h : s.Same m z) :
    (State.askHost s fn a n).Same m z := by
  unfold State.askHost
  exact State.sendTlps_same h

theorem State.irqEdge_same {s : State} {before : State} (h : s.Same m z) (hbefore : before.Same m z) :
    (State.irqEdge s before).Same m z := by
  unfold State.irqEdge
  exact State.Same.ite (State.sendMsix_same h) h

theorem State.setIrq_same {s : State} {pg : Nat} {bits : Nat} (h : s.Same m z) :
    (State.setIrq s pg bits).Same m z := by
  unfold State.setIrq
  exact State.irqEdge_same (State.setReg_same h) h

theorem State.logError_same {s : State} {pg : Nat} {kind : Nat} {code : Nat} {at_ : Nat} {polder : Nat} (h : s.Same m z) :
    (State.logError s pg kind code at_ polder).Same m z := by
  unfold State.logError
  extract_lets -underBinder +onlyGivenNames n1 s2
  have h3 : s2.Same m z := State.bumpSat_same h
  clear_value s2
  extract_lets -underBinder +onlyGivenNames s4
  have h5 : s4.Same m z := State.setReg_same h3
  clear_value s4
  extract_lets -underBinder +onlyGivenNames s6
  have h7 : s6.Same m z := State.setReg_same h5
  clear_value s6
  exact State.setReg64_same h7

theorem State.ignoreWrite_same {s : State} {a : Nat} (h : s.Same m z) :
    (State.ignoreWrite s a).Same m z := by
  unfold State.ignoreWrite
  exact State.logError_same h

theorem State.sendCause_same {s : State} {c : Cause} (h : s.Same m z) :
    (State.sendCause s c).Same m z := by
  unfold State.sendCause
  exact State.modNets_same h

theorem State.freezeMaster_same {s : State} {t : Nat} {kind : Nat} (h : s.Same m z) (_ : .tiles ∈ m := by assumption) :
    (State.freezeMaster s t kind).Same m z := by
  unfold State.freezeMaster
  exact State.Same.ite (State.modTcc_same h) (State.modEngine_same h)

theorem State.raiseTile_same {s : State} {t : Nat} {kind : Nat} {code : Nat} {addr : Nat} (h : s.Same m z)
    (_ : .tiles ∈ m := by assumption) :
    (State.raiseTile s t kind code addr).Same m z := by
  unfold State.raiseTile
  extract_lets -underBinder +onlyGivenNames n1 s2
  have h3 : s2.Same m z := State.setReg_same h
  clear_value s2
  extract_lets -underBinder +onlyGivenNames s4
  have h5 : s4.Same m z := State.setIrq_same h3
  clear_value s4
  extract_lets -underBinder +onlyGivenNames s6
  have h7 : s6.Same m z := State.logError_same h5
  clear_value s6
  extract_lets -underBinder +onlyGivenNames s8
  have h9 : s8.Same m z := State.Same.ite (State.freezeMaster_same h7) h7
  clear_value s8
  exact State.sendCause_same h9

theorem State.raiseEngine_same {s : State} {t : Nat} {q : Nat} {code : Nat} {addr : Nat} (h : s.Same m z)
    (_ : .tiles ∈ m := by assumption) :
    (State.raiseEngine s t q code addr).Same m z := by
  unfold State.raiseEngine
  exact State.raiseTile_same h

theorem State.raisePart_same {s : State} {p : Nat} {code : Nat} {unit : Nat} {addr : Nat} (h : s.Same m z) :
    (State.raisePart s p code unit addr).Same m z := by
  unfold State.raisePart
  exact State.sendCause_same h

theorem State.hostError_same {s : State} {p : Nat} {code : Nat} {unit : Nat} {addr : Nat} (h : s.Same m z) :
    (State.hostError s p code unit addr).Same m z := by
  unfold State.hostError
  extract_lets -underBinder +onlyGivenNames s1
  have h2 : s1.Same m z := State.setReg_same h
  clear_value s1
  extract_lets -underBinder +onlyGivenNames s3
  have h4 : s3.Same m z := State.setIrq_same h2
  clear_value s3
  extract_lets -underBinder +onlyGivenNames s5
  have h6 : s5.Same m z := State.logError_same h4
  clear_value s5
  exact State.sendCause_same h6

theorem State.hostStore_same {s : State} {a : Nat} {bs : List Byte} (h : s.Same m z) (_ : .host ∈ m := by assumption) :
    (State.hostStore s a bs).Same m z := by
  unfold State.hostStore
  refine State.Same.ite (State.modStore_same h (fun _ => { Store.Same.refl _ with host := .inl (by assumption) })) ?_
  exact h

theorem State.postTlps_same {s : State} {fn : Nat} {relaxed : Bool} {a : Nat} {n : Nat} (h : s.Same m z) :
    (State.postTlps s fn relaxed a n).Same m z := by
  unfold State.postTlps
  exact State.Same.ite (State.sendTlps_same h) h

theorem State.hostWrite_same {s : State} {fn : Nat} {a : Nat} {bs : List Byte} (h : s.Same m z) (_ : .host ∈ m := by assumption) :
    (State.hostWrite s fn a bs).Same m z := by
  unfold State.hostWrite
  exact State.postTlps_same (State.hostStore_same h)

theorem State.postVf_same {s : State} {p : Nat} {type : Nat} {body : List Byte} (h : s.Same m z)
    (_ : .vfRegs ∈ m := by assumption) (_ : .host ∈ m := by assumption) :
    (State.postVf s p type body).Same m z := by
  unfold State.postVf
  refine State.Same.ite (State.hostError_same h) ?_
  extract_lets -underBinder +onlyGivenNames n1 n2 s3
  have h4 : s3.Same m z := State.hostWrite_same h
  clear_value s3
  extract_lets -underBinder +onlyGivenNames s5
  have h6 : s5.Same m z := State.setVfReg_same h4
  clear_value s5
  exact State.Same.ite (State.sendMsix_same h6) h6

theorem State.setHeld_same {s : State} {p : Nat} {b : Bool} (h : s.Same m z) (_ : .vfRegs ∈ m := by assumption) :
    (State.setHeld s p b).Same m z := by
  unfold State.setHeld
  exact State.setVfReg_same h

theorem State.posting_same {s : State} {p : Nat} {n : Nat} {act : State → State} (h : s.Same m z) (hact : ∀ y1, State.Same y1 m z → (act y1).Same m z)
    (_ : .vfRegs ∈ m := by assumption) :
    (State.posting s p n act).Same m z := by
  unfold State.posting
  exact State.Same.ite (State.setHeld_same h) (hact _ (State.setHeld_same h))

theorem State.postIfOn_same {s : State} {p : Nat} {type : Nat} {body : List Byte} (h : s.Same m z)
    (_ : .vfRegs ∈ m := by assumption) (_ : .host ∈ m := by assumption) :
    (State.postIfOn s p type body).Same m z := by
  unfold State.postIfOn
  exact State.Same.ite (State.postVf_same h) h

theorem State.postVfFault_same {s : State} {p : Nat} {body : List Byte} (h : s.Same m z) (_ : .vfRegs ∈ m := by assumption)
    (_ : .host ∈ m := by assumption) :
    (State.postVfFault s p body).Same m z := by
  unfold State.postVfFault
  exact State.Same.ite h (State.Same.ite (State.postVf_same h) (State.setVfReg_same h))

theorem State.postPfFault_same {s : State} {body : List Byte} (h : s.Same m z) (_ : .host ∈ m := by assumption) :
    (State.postPfFault s body).Same m z := by
  unfold State.postPfFault
  extract_lets -underBinder +onlyGivenNames n1 n2 n3 n4
  refine State.Same.ite ?_ (State.setIrq_same (State.bump_same h))
  extract_lets -underBinder +onlyGivenNames s5
  have h6 : s5.Same m z := State.hostWrite_same h
  clear_value s5
  extract_lets -underBinder +onlyGivenNames s7
  have h8 : s7.Same m z := State.setReg_same h6
  clear_value s7
  exact State.Same.ite (State.sendMsix_same h8) h8

theorem State.reply_same {s : State} {c : Nat} {code : Nat} {body : List Byte} (h : s.Same m z)
    (_ : .channels ∈ m := by assumption) :
    (State.reply s c code body).Same m z := by
  unfold State.reply
  exact State.modChan_same h

theorem State.replyEcho_same {s : State} {c : Nat} {code : Nat} (h : s.Same m z) (_ : .channels ∈ m := by assumption) :
    (State.replyEcho s c code).Same m z := by
  unfold State.replyEcho
  exact State.reply_same h

theorem done_same {s : State} (h : s.Same m z) :
    ∃ s', done s = .next s' ∧ s'.Same m z := by
  unfold done
  refine ⟨_, rfl, ?_⟩
  exact h

/-! ### Provenance -/

theorem State.loseEntry_same {s : State} (h : s.Same m z) :
    (State.loseEntry s).Same m z := by
  unfold State.loseEntry
  exact State.setIrq_same (State.bump_same h)

theorem State.append_same {s : State} {kind : Nat} {vals : List Nat} (h : s.Same m z) (_ : .journal ∈ m := by assumption) :
    (State.append s kind vals).Same m z := by
  unfold State.append
  extract_lets -underBinder +onlyGivenNames n1
  refine State.Same.ite (State.loseEntry_same h) ?_
  extract_lets -underBinder +onlyGivenNames n2 s3
  have h4 : s3.Same m z := State.modJournal_same h
  clear_value s3
  exact State.Same.ite (State.setIrq_same h4) h4

theorem State.extendMr4_same {s : State} (h : s.Same m z) (_ : .measurements ∈ m := by assumption) :
    (State.extendMr4 s).Same m z := by
  unfold State.extendMr4
  exact State.modBoot_same h (fun _ => { Boot.Same.refl _ with measurements := .inl (by assumption) })

theorem State.appendSpare_same {s : State} {cls : Nat} {unit : Nat} {old : Nat} {spare : Nat} {left : Nat} (h : s.Same m z)
    (_ : .journal ∈ m := by assumption) :
    (State.appendSpare s cls unit old spare left).Same m z := by
  unfold State.appendSpare
  exact State.append_same h

/-! ### Routes -/

theorem State.crossSeam_same {s : State} {n : Nat} {die : Nat} {chan : Nat} {flits : Nat} {onward : Nat} (h : s.Same m z)
    (_ : .seams ∈ m := by assumption) :
    (State.crossSeam s n die chan flits onward).Same m z := by
  unfold State.crossSeam
  extract_lets -underBinder +onlyGivenNames s1
  have h2 : s1.Same m z := State.bump64_same h
  clear_value s1
  extract_lets -underBinder +onlyGivenNames s3
  have h4 : s3.Same m z := State.Same.ite h2 (State.bump64_same h2)
  clear_value s3
  exact State.modSeam_same h4

theorem State.crossSeams_same {s : State} {die chan flits count : Nat} {l : List Nat} (h : s.Same m z)
    (_ : .seams ∈ m := by assumption) :
    (s.crossSeams die chan flits count l).Same m z := by
  induction l generalizing s die with
  | nil => exact h
  | cons n rest ih => exact ih (State.crossSeam_same h)

theorem State.controlCrosses_same {s : State} {a : Nat} {b : Nat} {count : Nat} (h : s.Same m z)
    (_ : .seams ∈ m := by assumption) :
    (State.controlCrosses s a b count).Same m z := by
  unfold State.controlCrosses
  exact State.Same.ite (State.crossSeams_same h) h

theorem State.accessCrosses_same {s : State} {die : Nat} {far : Nat} (h : s.Same m z) (_ : .seams ∈ m := by assumption) :
    (State.accessCrosses s die far).Same m z := by
  unfold State.accessCrosses
  exact State.controlCrosses_same (State.controlCrosses_same h)

theorem State.controlBurst_same {s : State} {p : Nat} (h : s.Same m z) (_ : .seams ∈ m := by assumption) :
    (State.controlBurst s p).Same m z := by
  unfold State.controlBurst
  refine State.forEach_same h ?_
  intro s1 x3 h2
  exact State.controlCrosses_same (State.draw_same h2)

theorem State.stampStall_same {s : State} {n : Nat} {die : Nat} {chan : Nat} {stalled : Bool} (h : s.Same m z)
    (_ : .seams ∈ m := by assumption) :
    (State.stampStall s n die chan stalled).Same m z := by
  unfold State.stampStall
  extract_lets -underBinder +onlyGivenNames n1 n2
  split
  · exact State.modSeam_same h
  · exact State.modSeam_same (State.bump_same h)
  · exact h

theorem State.signalCrosses_same {s : State} {die : Nat} {b : Nat} (h : s.Same m z) (_ : .seams ∈ m := by assumption) :
    (State.signalCrosses s die b).Same m z := by
  unfold State.signalCrosses
  exact State.crossSeams_same h

theorem State.settleSync_same {s : State} {die : Nat} {count : Nat} {dst : Nat} (h : s.Same m z)
    (_ : .seams ∈ m := by assumption) :
    (State.settleSync s die count dst).Same m z := by
  unfold State.settleSync
  refine State.forEach_same h ?_
  intro s1 x3 h2
  exact State.stampStall_same h2

theorem State.modSlot_same {s : State} {e : Nat} {p : Nat} {f : Slot → Slot} (h : s.Same m z) (_ : .links ∈ m := by assumption) :
    (State.modSlot s e p f).Same m z := by
  unfold State.modSlot
  exact State.modLinks_same h

theorem State.noteWait_same {s : State} {e : Nat} {p : Nat} (h : s.Same m z) (_ : .links ∈ m := by assumption) :
    (State.noteWait s e p).Same m z := by
  unfold State.noteWait
  extract_lets -underBinder +onlyGivenNames n1 n2 s3
  have h4 : s3.Same m z := State.Same.ite (State.modSlot_same (State.bump_same h)) h
  clear_value s3
  exact State.Same.ite (State.setReg_same h4) h4

theorem State.endRequest_same {s : State} {p : Nat} (h : s.Same m z) (_ : .channels ∈ m := by assumption) :
    (State.endRequest s p).Same m z := by
  unfold State.endRequest
  exact State.modHif_same (State.replyEcho_same h) (fun _ => { HostIf.Same.refl _ with })

theorem State.startClearing_same {s : State} {p : Nat} {cause : Option Cause} (h : s.Same m z)
    (_ : .polders ∈ m := by assumption) (_ : .conservators ∈ m := by assumption) (_ : .channels ∈ m := by assumption)
    (_ : .links ∈ m := by assumption) :
    (State.startClearing s p cause).Same m z := by
  unfold State.startClearing
  extract_lets -underBinder +onlyGivenNames n1 s2
  have h3 : s2.Same m z := State.Same.ite (State.endRequest_same h) h
  clear_value s2
  extract_lets -underBinder +onlyGivenNames s4
  have h5 : s4.Same m z := State.modPld_same h3
  clear_value s4
  extract_lets -underBinder +onlyGivenNames s6
  have h7 : s6.Same m z := by
    refine State.forEach_same h5 ?_
    intro s8 x10 h9
    exact State.Same.ite (State.noteWait_same h9) h9
  clear_value s6
  extract_lets -underBinder +onlyGivenNames s11
  have h12 : s11.Same m z := State.modLinks_same h7
  clear_value s11
  refine State.forEach_same h12 ?_
  intro s13 x15 h14
  exact State.modCns_same h14

theorem State.unreserve_same {s : State} {tag : Word} (h : s.Same m z) (_ : .clients ∈ m := by assumption) :
    (State.unreserve s tag).Same m z := by
  exact State.Same.ite h { h with clients := .inl (by assumption) }

theorem State.endCreate_same {s : State} {p : Nat} {code : Nat} {refusal : Nat} (h : s.Same m z)
    (_ : .polders ∈ m := by assumption) (_ : .clients ∈ m := by assumption) (_ : .channels ∈ m := by assumption) :
    (State.endCreate s p code refusal).Same m z := by
  unfold State.endCreate
  extract_lets -underBinder +onlyGivenNames n1 s2
  have h3 : s2.Same m z := State.unreserve_same (State.modPld_same h)
  clear_value s2
  split
  · exact State.reply_same h3
  · exact h3

theorem State.failPart_same {s : State} {code : Nat} {rank : Nat} {unit : Nat} (h : s.Same m z)
    (_ : .polders ∈ m := by assumption) (_ : .clients ∈ m := by assumption) (_ : .conservators ∈ m := by assumption)
    (_ : .channels ∈ m := by assumption) (_ : .links ∈ m := by assumption) (_ : .status ∈ m := by assumption)
    (_ : .journal ∈ m := by assumption) :
    (State.failPart s code rank unit).Same m z := by
  unfold State.failPart
  refine State.Same.ite ?_ ?_
  · extract_lets -underBinder +onlyGivenNames s1
    have h2 : s1.Same m z := State.modBoot_same h (fun _ => { Boot.Same.refl _ with status := .inl (by assumption) })
    clear_value s1
    extract_lets -underBinder +onlyGivenNames s3
    have h4 : s3.Same m z := State.append_same h2
    clear_value s3
    refine State.forEach_same h4 ?_
    intro s5 x7 h6
    extract_lets -underBinder +onlyGivenNames n8 n9
    refine State.Same.ite (State.startClearing_same h6) ?_
    exact State.Same.ite (State.endCreate_same h6) (State.Same.ite (State.modPld_same h6) h6)
  · refine State.Same.ite ?_ h
    extract_lets -underBinder +onlyGivenNames n10 s11
    have h12 : s11.Same m z := State.modBoot_same h (fun _ => { Boot.Same.refl _ with status := .inl (by assumption) })
    clear_value s11
    refine State.forEach_same h12 ?_
    intro s13 x15 h14
    exact State.modPld_same h14

theorem State.setSeamCause_same {s : State} {n : Nat} {cause : Nat} (h : s.Same m z) :
    (State.setSeamCause s n cause).Same m z := by
  unfold State.setSeamCause
  exact State.setReg_same (State.setReg_same h)

theorem State.dropPort_same {s : State} {n : Nat} (h : s.Same m z) (_ : .links ∈ m := by assumption) :
    (State.dropPort s n).Same m z := by
  unfold State.dropPort
  exact State.modPort_same h

theorem State.failSeam_same {s : State} {n : Nat} (h : s.Same m z) (_ : .seams ∈ m := by assumption) :
    (State.failSeam s n).Same m z := by
  unfold State.failSeam
  exact State.modSeam_same (State.Same.ite (State.setSeamCause_same (State.modSeam_same h)) h)

theorem State.loseDie_same {s : State} {die : Nat} (h : s.Same m z) (_ : .seams ∈ m := by assumption)
    (_ : .polders ∈ m := by assumption) (_ : .clients ∈ m := by assumption) (_ : .conservators ∈ m := by assumption)
    (_ : .channels ∈ m := by assumption) (_ : .links ∈ m := by assumption) (_ : .status ∈ m := by assumption)
    (_ : .journal ∈ m := by assumption) :
    (State.loseDie s die).Same m z := by
  unfold State.loseDie
  extract_lets -underBinder +onlyGivenNames s1
  have h2 : s1.Same m z := State.modBoot_same h (fun _ => { Boot.Same.refl _ with status := .inl (by assumption) })
  clear_value s1
  extract_lets -underBinder +onlyGivenNames n3 s4
  have h5 : s4.Same m z := by
    refine State.forEach_same h2 ?_
    intro s6 x8 h7
    exact State.failSeam_same h7
  clear_value s4
  extract_lets -underBinder +onlyGivenNames s9
  have h10 : s9.Same m z := by
    refine State.Same.ite ?_ h5
    refine State.forEach_same h5 ?_
    intro s11 x13 h12
    exact State.dropPort_same h12
  clear_value s9
  exact State.failPart_same h10

/-! ### Mail -/

theorem State.takeRequest_same {s : State} {c : Nat} (h : s.Same m z) (_ : .channels ∈ m := by assumption) :
    (State.takeRequest s c).Same m z := by
  unfold State.takeRequest
  exact State.modHif_same (State.modChan_same h) (fun _ => { HostIf.Same.refl _ with })

/-! ### Mailbox -/

theorem State.writeUr_same {s : State} {r : Requester} {a : Nat} (h : s.Same m z) :
    (State.writeUr s r a).Same m z := by
  unfold State.writeUr
  split
  · exact State.answerError_same (State.sendAer_same h)
  · exact State.answerError_same h

theorem State.readUr_same {s : State} {y : Requester} (h : s.Same m z) : (s.readUr y).Same m z := by
  unfold State.readUr
  split
  · exact { h with }
  · exact State.answerError_same h

theorem State.rejectWrite_same {s : State} {r : Requester} {c : Nat} {off : Nat} (h : s.Same m z) :
    (State.rejectWrite s r c off).Same m z := by
  unfold State.rejectWrite
  extract_lets -underBinder +onlyGivenNames s1
  have h2 : s1.Same m z := State.bump_same (State.setReg_same h)
  clear_value s1
  extract_lets -underBinder +onlyGivenNames s3
  have h4 : s3.Same m z := State.setReg_same h2
  clear_value s3
  split
  · exact State.answerWritten_same (State.sendMsix_same (State.sendAer_same (State.bump_same h4)))
  · exact State.answerError_same h4

theorem State.sendMctp_same {s : State} {y : Mctp} (h : s.Same m z) : (s.sendMctp y).Same m z :=
  State.modHif_same h (fun _ => { HostIf.Same.refl _ with })

theorem State.acknowledge_same {s : State} {c : Nat} {y : Reply} (h : s.Same m z) (_ : .channels ∈ m := by assumption) :
    (State.acknowledge s c y).Same m z := by
  unfold State.acknowledge
  extract_lets -underBinder +onlyGivenNames n1 n2 s3
  have h4 : s3.Same m z := State.modChan_same h
  clear_value s3
  extract_lets -underBinder +onlyGivenNames s5
  have h6 : s5.Same m z := State.setReg_same h4
  clear_value s5
  exact State.Same.ite (State.sendMctp_same h6) (State.sendMsix_same h6)

theorem State.ackChannel_same {s : State} {n : Nat} (h : s.Same m z) (_ : .channels ∈ m := by assumption) :
    (State.ackChannel s n).Same m z := by
  unfold State.ackChannel
  extract_lets -underBinder +onlyGivenNames n1
  refine State.Same.ite h ?_
  split
  · exact State.acknowledge_same h
  · refine State.Same.ite h ?_
    split
    · exact State.acknowledge_same (State.takeRequest_same h)
    · exact h

theorem execMailboxAck_same {c : ChannelId} {s : State} (h : s.Same m z) (_ : .channels ∈ m := by assumption) :
    ∃ s', execMailboxAck c s = .next s' ∧ s'.Same m z := by
  unfold execMailboxAck
  refine ⟨_, rfl, ?_⟩
  exact State.ackChannel_same h

theorem State.ackFirst_same {s : State} {n : Nat} (h : s.Same m z) (_ : .channels ∈ m := by assumption) :
    (State.ackFirst s n).Same m z := by
  unfold State.ackFirst
  exact State.Same.ite (State.ackChannel_same h) h

theorem State.channelWrite_same {s : State} {r : Requester} {c : Nat} {off : Nat} {act : State → State} (h : s.Same m z) (hact : ∀ y1, State.Same y1 m z → (act y1).Same m z)
    (_ : .channels ∈ m := by assumption) :
    (State.channelWrite s r c off act).Same m z := by
  unfold State.channelWrite
  refine State.Same.ite (State.writeUr_same h) ?_
  refine State.Same.ite (State.answerError_same h) ?_
  extract_lets -underBinder +onlyGivenNames s1
  have h2 : s1.Same m z := State.ackFirst_same h
  clear_value s1
  exact State.Same.ite (State.rejectWrite_same h2) (State.answerWritten_same (hact _ h2))

theorem State.fillBuffer_same {s : State} {r : Requester} {c : Nat} {off : Nat} {bs : List Byte} (h : s.Same m z)
    (_ : .channels ∈ m := by assumption) :
    (State.fillBuffer s r c off bs).Same m z := by
  unfold State.fillBuffer
  exact State.modChan_same h

theorem State.ringChannel_same {s : State} {r : Requester} {c : Nat} {value : Word} (h : s.Same m z)
    (_ : .channels ∈ m := by assumption) :
    (State.ringChannel s r c value).Same m z := by
  unfold State.ringChannel
  extract_lets -underBinder +onlyGivenNames n1 s2
  have h3 : s2.Same m z := State.modChan_same h
  clear_value s2
  exact State.modHif_same h3 (fun _ => { HostIf.Same.refl _ with })

theorem execMbxDb_same {r : Requester} {c : ChannelId} {value : Word} {s : State} (h : s.Same m z)
    (_ : .channels ∈ m := by assumption) :
    ∃ s', execMbxDb r c value s = .next s' ∧ s'.Same m z := by
  unfold execMbxDb
  refine ⟨_, rfl, ?_⟩
  refine State.channelWrite_same h ?_
  intro s1 h2
  exact State.ringChannel_same h2

theorem execMailboxBufferWrite_same {r : Requester} {c : ChannelId} {off : Byte} {value : Word} {s : State} (h : s.Same m z)
    (_ : .channels ∈ m := by assumption) :
    ∃ s', execMailboxBufferWrite r c off value s = .next s' ∧ s'.Same m z := by
  unfold execMailboxBufferWrite
  refine ⟨_, rfl, ?_⟩
  refine State.Same.ite (State.writeUr_same (State.Same.ite (State.logError_same h) h)) ?_
  refine State.channelWrite_same h ?_
  intro s1 h2
  exact State.fillBuffer_same h2

theorem State.releaseChannel_same {s : State} {c : Nat} {value : Word} (h : s.Same m z) (_ : .channels ∈ m := by assumption) :
    (State.releaseChannel s c value).Same m z := by
  unfold State.releaseChannel
  exact State.Same.ite (State.modChan_same h) h

theorem execRelease_same {r : Requester} {c : ChannelId} {value : Word} {s : State} (h : s.Same m z)
    (_ : .channels ∈ m := by assumption) :
    ∃ s', execRelease r c value s = .next s' ∧ s'.Same m z := by
  unfold execRelease
  refine ⟨_, rfl, ?_⟩
  refine State.channelWrite_same h ?_
  intro s1 h2
  exact State.releaseChannel_same h2

theorem execI3cRequest_same {z1 : MctpHead} {seq : Half} {body : List Byte} {s : State} (h : s.Same m z)
    (_ : .channels ∈ m := by assumption) :
    ∃ s', execI3cRequest z1 seq body s = .next s' ∧ s'.Same m z := by
  unfold execI3cRequest
  refine ⟨_, rfl, ?_⟩
  refine State.Same.ite h ?_
  refine State.Same.ite ?_ ?_
  · refine State.sendMctp_same ?_
    refine State.channelWrite_same h ?_
    intro s1 h2
    exact State.ringChannel_same (State.fillBuffer_same h2)
  · refine State.channelWrite_same h ?_
    intro s3 h4
    exact State.ringChannel_same (State.fillBuffer_same h4)

theorem State.sendDoe_same {s : State} {d : Doe} (h : s.Same m z) :
    (State.sendDoe s d).Same m z := by
  unfold State.sendDoe
  exact State.modHif_same h (fun _ => { HostIf.Same.refl _ with })

theorem State.freeResponse_same {s : State} {n : Nat} (h : s.Same m z) : (s.freeResponse n).2.Same m z := by
  induction n generalizing s with
  | zero => exact h
  | succ n ih => exact ih (State.draw_same h)

theorem execSpdmRequest_same {r : SpdmRequest} {s : State} (h : s.Same m z) (_ : .policy ∈ m := by assumption) :
    ∃ s', execSpdmRequest r s = .next s' ∧ s'.Same m z := by
  unfold execSpdmRequest
  refine ⟨_, rfl, ?_⟩
  refine State.Same.ite h ?_
  split
  · refine State.Same.ite (State.sendDoe_same h) ?_
    exact State.sendDoe_same (State.modHif_same h (fun _ => {  policy := .inl (by assumption) }))
  · exact State.sendDoe_same h
  · extract_lets -underBinder +onlyGivenNames n1
    have h2 : n1.2.Same m z := State.freeResponse_same h
    clear_value n1
    exact State.sendDoe_same (State.modHif_same h2 (fun _ => {  policy := .inl (by assumption) }))
  · exact State.sendDoe_same h

/-! ### Operands -/

theorem State.setSpadRow_same {s : State} {t : Nat} {row : Nat} {bs : List Byte} (h : s.Same m z)
    (_ : .spad ∈ m := by assumption) :
    (State.setSpadRow s t row bs).Same m z := by
  unfold State.setSpadRow
  exact State.modStore_same h (fun _ => { Store.Same.refl _ with spad := .inl (by assumption) })

theorem State.setDataBytes_same {s : State} {t : Nat} {a : Nat} {bs : List Byte} (h : s.Same m z)
    (_ : .dstore ∈ m := by assumption) :
    (State.setDataBytes s t a bs).Same m z := by
  unfold State.setDataBytes
  exact State.modStore_same h (fun _ => { Store.Same.refl _ with dstore := .inl (by assumption) })

/-! ### Flags -/

theorem State.ledgerAdd_same {s : State} {t : Nat} {tensor : Word} {y : Tally} (h : s.Same m z)
    (_ : .tiles ∈ m := by assumption) :
    (State.ledgerAdd s t tensor y).Same m z := by
  unfold State.ledgerAdd
  extract_lets -underBinder +onlyGivenNames n1 n2 n3 n4 n5
  exact State.Same.ite (State.modTile_same h) (State.modNets_same (State.modTile_same h))

theorem State.sendNonFinite_same {s : State} {t : Nat} {q : Nat} {code : Nat} {count : Nat} {tensor : Word} (h : s.Same m z) :
    (State.sendNonFinite s t q code count tensor).Same m z := by
  unfold State.sendNonFinite
  exact State.Same.ite h (State.modNets_same h)

theorem State.book_same {s : State} {t : Nat} {q : Nat} {rg : OutRegs} {xr : Bool} {tensor : Word} {y : Tally} (h : s.Same m z)
    (_ : .tiles ∈ m := by assumption) :
    (State.book s t q rg xr tensor y).Same m z := by
  unfold State.book
  extract_lets -underBinder +onlyGivenNames s1
  have h2 : s1.Same m z := State.Same.ite h (State.bump_same h)
  clear_value s1
  extract_lets -underBinder +onlyGivenNames n3 s4
  have h5 : s4.Same m z := State.setReg_same h2
  clear_value s4
  extract_lets -underBinder +onlyGivenNames s6
  have h7 : s6.Same m z := State.bump64_same h5
  clear_value s6
  extract_lets -underBinder +onlyGivenNames s8
  have h9 : s8.Same m z := State.Same.ite (State.ledgerAdd_same h7) h2
  clear_value s8
  extract_lets -underBinder +onlyGivenNames s10
  have h11 : s10.Same m z := State.sendNonFinite_same h9
  clear_value s10
  extract_lets -underBinder +onlyGivenNames s12
  have h13 : s12.Same m z := State.sendNonFinite_same h11
  clear_value s12
  exact State.sendNonFinite_same h13

/-! ### Counters -/

theorem State.setVoid_same {s : State} {p : Nat} (h : s.Same m z) :
    (State.setVoid s p).Same m z := by
  unfold State.setVoid
  exact State.setReg_same h

theorem State.countOverrun_same {s : State} {p : Nat} {t : Nat} {idx : Nat} {near : Bool} (h : s.Same m z)
    (_ : .tiles ∈ m := by assumption) :
    (State.countOverrun s p t idx near).Same m z := by
  unfold State.countOverrun
  extract_lets -underBinder +onlyGivenNames n1 s2
  have h3 : s2.Same m z := State.setVoid_same (State.bump64_same h)
  clear_value s2
  extract_lets -underBinder +onlyGivenNames s4
  have h5 : s4.Same m z := State.modTile_same h3
  clear_value s4
  refine State.Same.ite ?_ h5
  extract_lets -underBinder +onlyGivenNames s6
  have h7 : s6.Same m z := State.setReg_same h5
  clear_value s6
  extract_lets -underBinder +onlyGivenNames s8
  have h9 : s8.Same m z := State.setReg_same h7
  clear_value s8
  extract_lets -underBinder +onlyGivenNames s10
  have h11 : s10.Same m z := State.setIrq_same h9
  clear_value s10
  exact State.Same.ite (State.raisePart_same h11) h11

theorem State.recordLate_same {s : State} {p : Nat} {t : Nat} {idx : Nat} {lateness : Nat} {near : Bool} (h : s.Same m z) :
    (State.recordLate s p t idx lateness near).Same m z := by
  unfold State.recordLate
  extract_lets -underBinder +onlyGivenNames n1 s2
  have h3 : s2.Same m z := State.setReg_same h
  clear_value s2
  extract_lets -underBinder +onlyGivenNames s4
  have h5 : s4.Same m z := State.Same.ite (State.setReg_same (State.setReg_same h3)) h3
  clear_value s4
  exact State.Same.ite (State.setReg_same h5) h5

theorem State.checkpointMet_same {s : State} {p : Nat} {t : Nat} {idx : Nat} {c : Checkpoint} (h : s.Same m z)
    (_ : .tiles ∈ m := by assumption) :
    (State.checkpointMet s p t idx c).Same m z := by
  unfold State.checkpointMet
  extract_lets -underBinder +onlyGivenNames n1
  refine State.Same.ite h ?_
  split
  · exact State.modTile_same h
  · extract_lets -underBinder +onlyGivenNames n2 n3 s4
    have h5 : s4.Same m z := State.modTile_same h
    clear_value s4
    refine State.Same.ite ?_ h5
    extract_lets -underBinder +onlyGivenNames s6
    have h7 : s6.Same m z := State.Same.ite h5 (State.countOverrun_same h5)
    clear_value s6
    extract_lets -underBinder +onlyGivenNames s8
    have h9 : s8.Same m z := State.modTile_same h7
    clear_value s8
    exact State.recordLate_same h9

theorem State.flushLedger_same {s : State} {p : Nat} {t : Nat} (h : s.Same m z) (_ : .tiles ∈ m := by assumption) :
    (State.flushLedger s p t).Same m z := by
  unfold State.flushLedger
  extract_lets -underBinder +onlyGivenNames n1
  exact State.modNets_same (State.modTile_same h)

theorem State.endSlots_same {s : State} {p : Nat} (h : s.Same m z) (_ : .polders ∈ m := by assumption) :
    (State.endSlots s p).Same m z := by
  unfold State.endSlots
  extract_lets -underBinder +onlyGivenNames s1
  have h2 : s1.Same m z := State.Same.ite (State.modPld_same h) h
  clear_value s1
  extract_lets -underBinder +onlyGivenNames n3
  exact State.Same.ite (State.modPld_same h2) h2

theorem State.observe_same {s : State} {t : Nat} {c : Nat} (h : s.Same m z) (_ : .tiles ∈ m := by assumption)
    (_ : .polders ∈ m := by assumption) :
    (State.observe s t c).Same m z := by
  unfold State.observe
  refine State.Same.ite h ?_
  extract_lets -underBinder +onlyGivenNames n1 s2
  have h3 : s2.Same m z := State.modTile_same h
  clear_value s2
  extract_lets -underBinder +onlyGivenNames n4 n5 n6 s7
  have h8 : s7.Same m z := by
    refine State.forEach_same h3 ?_
    intro s9 x11 h10
    exact State.checkpointMet_same h10
  clear_value s7
  exact State.Same.ite (State.endSlots_same (State.flushLedger_same h8)) h8

theorem State.increment_same {s : State} {t : Nat} {c : Nat} (h : s.Same m z) (_ : .tiles ∈ m := by assumption)
    (_ : .polders ∈ m := by assumption) :
    (State.increment s t c).Same m z := by
  unfold State.increment
  extract_lets -underBinder +onlyGivenNames n1
  exact State.Same.ite (State.raiseTile_same h) (State.observe_same (State.modTile_same h))

theorem State.incrementSlot_same {s : State} {t : Nat} {c : Nat} (h : s.Same m z) (_ : .tiles ∈ m := by assumption) :
    (State.incrementSlot s t c).Same m z := by
  unfold State.incrementSlot
  extract_lets -underBinder +onlyGivenNames n1
  exact State.Same.ite (State.raiseTile_same h) (State.modTile_same h)

theorem State.grant_same {s : State} {t : Nat} {c : Nat} (h : s.Same m z) (_ : .tiles ∈ m := by assumption) :
    (State.grant s t c).Same m z := by
  unfold State.grant
  extract_lets -underBinder +onlyGivenNames n1 s2
  have h3 : s2.Same m z := State.modTile_same h
  clear_value s2
  refine State.Same.ite ?_ h3
  extract_lets -underBinder +onlyGivenNames n4 s5
  have h6 : s5.Same m z := State.modTile_same h3
  clear_value s5
  exact State.bump_same h6

theorem State.enterDone_same {s : State} {t : Nat} (h : s.Same m z) (_ : .tiles ∈ m := by assumption) :
    (State.enterDone s t).Same m z := by
  unfold State.enterDone
  exact State.setIrq_same (State.modTcc_same h)

/-! ### Tcc -/

theorem State.retire_same {s : State} {t : Nat} {f : Tcc → Tcc} (h : s.Same m z) (_ : .tiles ∈ m := by assumption) :
    (State.retire s t f).Same m z := by
  unfold State.retire
  exact State.bump64_same (State.modTcc_same h)

theorem State.stallTcc_same {s : State} {t : Nat} {r : Stall} (h : s.Same m z) (_ : .tiles ∈ m := by assumption) :
    (State.stallTcc s t r).Same m z := by
  unfold State.stallTcc
  exact State.modTcc_same h

theorem State.countStall_same {s : State} {t : Nat} (h : s.Same m z) (_ : .tiles ∈ m := by assumption) :
    (State.countStall s t).Same m z := by
  unfold State.countStall
  split
  · exact State.modTcc_same (State.bump_same h)
  · exact h

theorem State.endStall_same {s : State} {t : Nat} (h : s.Same m z) (_ : .tiles ∈ m := by assumption) :
    (State.endStall s t).Same m z := by
  unfold State.endStall
  exact State.modTcc_same (State.countStall_same h)

theorem State.resolve_same {s : State} {t : Nat} {taken : Bool} (h : s.Same m z) (_ : .tiles ∈ m := by assumption) :
    (State.resolve s t taken).Same m z := by
  unfold State.resolve
  extract_lets -underBinder +onlyGivenNames n1 n2 n3 n4 s5
  have h6 : s5.Same m z := State.modTcc_same h
  clear_value s5
  exact State.Same.ite h6 (State.bump_same h6)

theorem State.spadCorrected_same {s : State} {t : Nat} {row : Nat} (h : s.Same m z) :
    (State.spadCorrected s t row).Same m z := by
  unfold State.spadCorrected
  exact State.setReg_same (State.bump64_same h)

theorem State.spadLost_same {s : State} {t : Nat} {kind : Nat} {row : Nat} (h : s.Same m z) (_ : .tiles ∈ m := by assumption)
    (_ : .spares ∈ m := by assumption) :
    (State.spadLost s t kind row).Same m z := by
  unfold State.spadLost
  extract_lets -underBinder +onlyGivenNames s1
  have h2 : s1.Same m z := State.modSpares_same h
  clear_value s1
  exact State.raiseTile_same (State.bump_same h2)

theorem State.haltTcc_same {s : State} {t : Nat} (h : s.Same m z) (_ : .tiles ∈ m := by assumption) :
    (State.haltTcc s t).Same m z := by
  unfold State.haltTcc
  extract_lets -underBinder +onlyGivenNames s1
  have h2 : s1.Same m z := State.retire_same h
  clear_value s1
  exact State.Same.ite (State.enterDone_same h2) h2

theorem State.jump_same {s : State} {t : Nat} {ra : BitVec 5} (h : s.Same m z) (_ : .tiles ∈ m := by assumption) :
    (State.jump s t ra).Same m z := by
  unfold State.jump
  extract_lets -underBinder +onlyGivenNames n1 n2
  refine State.Same.ite (State.raiseTile_same h) ?_
  extract_lets -underBinder +onlyGivenNames n3 s4
  have h5 : s4.Same m z := State.retire_same h
  clear_value s4
  exact State.Same.ite h5 (State.bump_same h5)

theorem State.issue_same {s : State} {t : Nat} {op : TccOp} {granted : Bool} {ecc : RowEcc} (h : s.Same m z)
    (_ : .tiles ∈ m := by assumption) (_ : .spad ∈ m := by assumption) (_ : .dstore ∈ m := by assumption)
    (_ : .polders ∈ m := by assumption) (_ : .spares ∈ m := by assumption) :
    (s.issue t op granted ecc).Same m z := by
  unfold State.issue
  extract_lets +onlyGivenNames x write
  have hw : ∀ rd w, (write rd w).Same m z := fun rd w => State.retire_same h
  clear_value write
  split
  · exact hw _ _
  · exact hw _ _
  · exact hw _ _
  · exact hw _ _
  · exact hw _ _
  · exact hw _ _
  · exact hw _ _
  · exact hw _ _
  · exact State.Same.ite (hw _ _) (State.raiseTile_same h)
  · exact State.Same.ite (State.retire_same (State.setDataBytes_same h)) (State.raiseTile_same h)
  · exact State.retire_same h
  · exact State.retire_same h
  · exact State.retire_same h
  · exact State.retire_same h
  · exact State.jump_same h
  · exact State.Same.ite (State.stallTcc_same h) (State.retire_same (State.modEngine_same h))
  · exact State.stallTcc_same h
  · exact State.Same.ite (State.increment_same h) (State.retire_same (State.increment_same h))
  · exact State.Same.ite (State.retire_same h) (State.stallTcc_same h)
  · refine State.Same.ite (State.stallTcc_same h) ?_
    split
    · exact State.modTcc_same (State.spadLost_same h)
    · refine State.retire_same (State.setDataBytes_same ?_)
      split
      · exact State.spadCorrected_same h
      · exact h
  · exact State.Same.ite (State.stallTcc_same h) (State.retire_same (State.setSpadRow_same h))
  · exact State.retire_same h
  · exact State.haltTcc_same h

theorem State.guarded_same {s : State} {t : Nat} {g : Guard} {op : TccOp} {granted : Bool} {ecc : RowEcc} (h : s.Same m z)
    (_ : .tiles ∈ m := by assumption) (_ : .spad ∈ m := by assumption) (_ : .dstore ∈ m := by assumption)
    (_ : .polders ∈ m := by assumption) (_ : .spares ∈ m := by assumption) :
    (State.guarded s t g op granted ecc).Same m z := by
  unfold State.guarded
  extract_lets -underBinder +onlyGivenNames n1 s2
  have h3 : s2.Same m z := State.Same.ite (State.resolve_same h) h
  clear_value s2
  exact State.Same.ite (State.issue_same h3) (State.retire_same h3)

theorem State.tcc_same {s : State} {t : TileId} {g : Guard} {op : TccOp} {granted : Bool} {ecc : RowEcc} (h : s.Same m z)
    (_ : .tiles ∈ m := by assumption) (_ : .spad ∈ m := by assumption) (_ : .dstore ∈ m := by assumption)
    (_ : .polders ∈ m := by assumption) (_ : .spares ∈ m := by assumption) :
    (State.tcc s t g op granted ecc).Same m z := by
  unfold State.tcc
  exact State.Same.ite (State.guarded_same h) h

theorem execAlu_same {t : TileId} {g : Guard} {rd : BitVec 5} {ra : BitVec 5} {rb : BitVec 5} {func : BitVec 7} {s : State} (h : s.Same m z)
    (_ : .tiles ∈ m := by assumption) (_ : .spad ∈ m := by assumption) (_ : .dstore ∈ m := by assumption)
    (_ : .polders ∈ m := by assumption) (_ : .spares ∈ m := by assumption) :
    ∃ s', execAlu t g rd ra rb func s = .next s' ∧ s'.Same m z := by
  unfold execAlu
  refine ⟨_, rfl, ?_⟩
  exact State.tcc_same h

theorem execAddi_same {t : TileId} {g : Guard} {rd : BitVec 5} {ra : BitVec 5} {imm : BitVec 12} {s : State} (h : s.Same m z)
    (_ : .tiles ∈ m := by assumption) (_ : .spad ∈ m := by assumption) (_ : .dstore ∈ m := by assumption)
    (_ : .polders ∈ m := by assumption) (_ : .spares ∈ m := by assumption) :
    ∃ s', execAddi t g rd ra imm s = .next s' ∧ s'.Same m z := by
  unfold execAddi
  refine ⟨_, rfl, ?_⟩
  exact State.tcc_same h

theorem execAndi_same {t : TileId} {g : Guard} {rd : BitVec 5} {ra : BitVec 5} {imm : BitVec 12} {s : State} (h : s.Same m z)
    (_ : .tiles ∈ m := by assumption) (_ : .spad ∈ m := by assumption) (_ : .dstore ∈ m := by assumption)
    (_ : .polders ∈ m := by assumption) (_ : .spares ∈ m := by assumption) :
    ∃ s', execAndi t g rd ra imm s = .next s' ∧ s'.Same m z := by
  unfold execAndi
  refine ⟨_, rfl, ?_⟩
  exact State.tcc_same h

theorem execOri_same {t : TileId} {g : Guard} {rd : BitVec 5} {ra : BitVec 5} {imm : BitVec 12} {s : State} (h : s.Same m z)
    (_ : .tiles ∈ m := by assumption) (_ : .spad ∈ m := by assumption) (_ : .dstore ∈ m := by assumption)
    (_ : .polders ∈ m := by assumption) (_ : .spares ∈ m := by assumption) :
    ∃ s', execOri t g rd ra imm s = .next s' ∧ s'.Same m z := by
  unfold execOri
  refine ⟨_, rfl, ?_⟩
  exact State.tcc_same h

theorem execXori_same {t : TileId} {g : Guard} {rd : BitVec 5} {ra : BitVec 5} {imm : BitVec 12} {s : State} (h : s.Same m z)
    (_ : .tiles ∈ m := by assumption) (_ : .spad ∈ m := by assumption) (_ : .dstore ∈ m := by assumption)
    (_ : .polders ∈ m := by assumption) (_ : .spares ∈ m := by assumption) :
    ∃ s', execXori t g rd ra imm s = .next s' ∧ s'.Same m z := by
  unfold execXori
  refine ⟨_, rfl, ?_⟩
  exact State.tcc_same h

theorem execShi_same {t : TileId} {g : Guard} {rd : BitVec 5} {ra : BitVec 5} {imm : BitVec 12} {s : State} (h : s.Same m z)
    (_ : .tiles ∈ m := by assumption) (_ : .spad ∈ m := by assumption) (_ : .dstore ∈ m := by assumption)
    (_ : .polders ∈ m := by assumption) (_ : .spares ∈ m := by assumption) :
    ∃ s', execShi t g rd ra imm s = .next s' ∧ s'.Same m z := by
  unfold execShi
  refine ⟨_, rfl, ?_⟩
  exact State.tcc_same h

theorem execMovi_same {t : TileId} {g : Guard} {rd : BitVec 5} {imm : BitVec 17} {s : State} (h : s.Same m z)
    (_ : .tiles ∈ m := by assumption) (_ : .spad ∈ m := by assumption) (_ : .dstore ∈ m := by assumption)
    (_ : .polders ∈ m := by assumption) (_ : .spares ∈ m := by assumption) :
    ∃ s', execMovi t g rd imm s = .next s' ∧ s'.Same m z := by
  unfold execMovi
  refine ⟨_, rfl, ?_⟩
  exact State.tcc_same h

theorem execLui_same {t : TileId} {g : Guard} {rd : BitVec 5} {imm : BitVec 17} {s : State} (h : s.Same m z)
    (_ : .tiles ∈ m := by assumption) (_ : .spad ∈ m := by assumption) (_ : .dstore ∈ m := by assumption)
    (_ : .polders ∈ m := by assumption) (_ : .spares ∈ m := by assumption) :
    ∃ s', execLui t g rd imm s = .next s' ∧ s'.Same m z := by
  unfold execLui
  refine ⟨_, rfl, ?_⟩
  exact State.tcc_same h

theorem execLdw_same {t : TileId} {g : Guard} {rd : BitVec 5} {ra : BitVec 5} {imm : BitVec 12} {s : State} (h : s.Same m z)
    (_ : .tiles ∈ m := by assumption) (_ : .spad ∈ m := by assumption) (_ : .dstore ∈ m := by assumption)
    (_ : .polders ∈ m := by assumption) (_ : .spares ∈ m := by assumption) :
    ∃ s', execLdw t g rd ra imm s = .next s' ∧ s'.Same m z := by
  unfold execLdw
  refine ⟨_, rfl, ?_⟩
  exact State.tcc_same h

theorem execStw_same {t : TileId} {g : Guard} {rd : BitVec 5} {ra : BitVec 5} {imm : BitVec 12} {s : State} (h : s.Same m z)
    (_ : .tiles ∈ m := by assumption) (_ : .spad ∈ m := by assumption) (_ : .dstore ∈ m := by assumption)
    (_ : .polders ∈ m := by assumption) (_ : .spares ∈ m := by assumption) :
    ∃ s', execStw t g rd ra imm s = .next s' ∧ s'.Same m z := by
  unfold execStw
  refine ⟨_, rfl, ?_⟩
  exact State.tcc_same h

theorem execCmp_same {t : TileId} {g : Guard} {pd : BitVec 3} {ra : BitVec 5} {rb : BitVec 5} {cond : BitVec 3} {s : State} (h : s.Same m z)
    (_ : .tiles ∈ m := by assumption) (_ : .spad ∈ m := by assumption) (_ : .dstore ∈ m := by assumption)
    (_ : .polders ∈ m := by assumption) (_ : .spares ∈ m := by assumption) :
    ∃ s', execCmp t g pd ra rb cond s = .next s' ∧ s'.Same m z := by
  unfold execCmp
  refine ⟨_, rfl, ?_⟩
  exact State.tcc_same h

theorem execPlog_same {t : TileId} {g : Guard} {pd : BitVec 3} {pa : BitVec 3} {pb : BitVec 3} {func : BitVec 2} {s : State} (h : s.Same m z)
    (_ : .tiles ∈ m := by assumption) (_ : .spad ∈ m := by assumption) (_ : .dstore ∈ m := by assumption)
    (_ : .polders ∈ m := by assumption) (_ : .spares ∈ m := by assumption) :
    ∃ s', execPlog t g pd pa pb func s = .next s' ∧ s'.Same m z := by
  unfold execPlog
  refine ⟨_, rfl, ?_⟩
  exact State.tcc_same h

theorem execBr_same {t : TileId} {g : Guard} {off : BitVec 22} {s : State} (h : s.Same m z) (_ : .tiles ∈ m := by assumption)
    (_ : .spad ∈ m := by assumption) (_ : .dstore ∈ m := by assumption) (_ : .polders ∈ m := by assumption)
    (_ : .spares ∈ m := by assumption) :
    ∃ s', execBr t g off s = .next s' ∧ s'.Same m z := by
  unfold execBr
  refine ⟨_, rfl, ?_⟩
  exact State.tcc_same h

theorem execCall_same {t : TileId} {g : Guard} {off : BitVec 22} {s : State} (h : s.Same m z)
    (_ : .tiles ∈ m := by assumption) (_ : .spad ∈ m := by assumption) (_ : .dstore ∈ m := by assumption)
    (_ : .polders ∈ m := by assumption) (_ : .spares ∈ m := by assumption) :
    ∃ s', execCall t g off s = .next s' ∧ s'.Same m z := by
  unfold execCall
  refine ⟨_, rfl, ?_⟩
  exact State.tcc_same h

theorem execJr_same {t : TileId} {g : Guard} {ra : BitVec 5} {s : State} (h : s.Same m z) (_ : .tiles ∈ m := by assumption)
    (_ : .spad ∈ m := by assumption) (_ : .dstore ∈ m := by assumption) (_ : .polders ∈ m := by assumption)
    (_ : .spares ∈ m := by assumption) :
    ∃ s', execJr t g ra s = .next s' ∧ s'.Same m z := by
  unfold execJr
  refine ⟨_, rfl, ?_⟩
  exact State.tcc_same h

theorem execCmd_same {t : TileId} {g : Guard} {q : BitVec 3} {ra : BitVec 5} {s : State} (h : s.Same m z)
    (_ : .tiles ∈ m := by assumption) (_ : .spad ∈ m := by assumption) (_ : .dstore ∈ m := by assumption)
    (_ : .polders ∈ m := by assumption) (_ : .spares ∈ m := by assumption) :
    ∃ s', execCmd t g q ra s = .next s' ∧ s'.Same m z := by
  unfold execCmd
  refine ⟨_, rfl, ?_⟩
  exact State.tcc_same h

theorem execWaitev_same {t : TileId} {g : Guard} {ra : BitVec 5} {imm : BitVec 12} {s : State} (h : s.Same m z)
    (_ : .tiles ∈ m := by assumption) (_ : .spad ∈ m := by assumption) (_ : .dstore ∈ m := by assumption)
    (_ : .polders ∈ m := by assumption) (_ : .spares ∈ m := by assumption) :
    ∃ s', execWaitev t g ra imm s = .next s' ∧ s'.Same m z := by
  unfold execWaitev
  refine ⟨_, rfl, ?_⟩
  exact State.tcc_same h

theorem execSigev_same {t : TileId} {g : Guard} {ra : BitVec 5} {imm : BitVec 12} {s : State} (h : s.Same m z)
    (_ : .tiles ∈ m := by assumption) (_ : .spad ∈ m := by assumption) (_ : .dstore ∈ m := by assumption)
    (_ : .polders ∈ m := by assumption) (_ : .spares ∈ m := by assumption) :
    ∃ s', execSigev t g ra imm s = .next s' ∧ s'.Same m z := by
  unfold execSigev
  refine ⟨_, rfl, ?_⟩
  exact State.tcc_same h

theorem execFence_same {t : TileId} {g : Guard} {imm : BitVec 12} {s : State} (h : s.Same m z)
    (_ : .tiles ∈ m := by assumption) (_ : .spad ∈ m := by assumption) (_ : .dstore ∈ m := by assumption)
    (_ : .polders ∈ m := by assumption) (_ : .spares ∈ m := by assumption) :
    ∃ s', execFence t g imm s = .next s' ∧ s'.Same m z := by
  unfold execFence
  refine ⟨_, rfl, ?_⟩
  exact State.tcc_same h

theorem execSpxr_same {t : TileId} {g : Guard} {ra : BitVec 5} {imm : BitVec 12} {granted : Bool} {ecc : RowEcc} {s : State} (h : s.Same m z)
    (_ : .tiles ∈ m := by assumption) (_ : .spad ∈ m := by assumption) (_ : .dstore ∈ m := by assumption)
    (_ : .polders ∈ m := by assumption) (_ : .spares ∈ m := by assumption) :
    ∃ s', execSpxr t g ra imm granted ecc s = .next s' ∧ s'.Same m z := by
  unfold execSpxr
  refine ⟨_, rfl, ?_⟩
  exact State.tcc_same h

theorem execSpxw_same {t : TileId} {g : Guard} {ra : BitVec 5} {imm : BitVec 12} {granted : Bool} {s : State} (h : s.Same m z)
    (_ : .tiles ∈ m := by assumption) (_ : .spad ∈ m := by assumption) (_ : .dstore ∈ m := by assumption)
    (_ : .polders ∈ m := by assumption) (_ : .spares ∈ m := by assumption) :
    ∃ s', execSpxw t g ra imm granted s = .next s' ∧ s'.Same m z := by
  unfold execSpxw
  refine ⟨_, rfl, ?_⟩
  exact State.tcc_same h

theorem execRdcsr_same {t : TileId} {g : Guard} {rd : BitVec 5} {imm : BitVec 12} {s : State} (h : s.Same m z)
    (_ : .tiles ∈ m := by assumption) (_ : .spad ∈ m := by assumption) (_ : .dstore ∈ m := by assumption)
    (_ : .polders ∈ m := by assumption) (_ : .spares ∈ m := by assumption) :
    ∃ s', execRdcsr t g rd imm s = .next s' ∧ s'.Same m z := by
  unfold execRdcsr
  refine ⟨_, rfl, ?_⟩
  exact State.tcc_same h

theorem execHalt_same {t : TileId} {g : Guard} {s : State} (h : s.Same m z) (_ : .tiles ∈ m := by assumption)
    (_ : .spad ∈ m := by assumption) (_ : .dstore ∈ m := by assumption) (_ : .polders ∈ m := by assumption)
    (_ : .spares ∈ m := by assumption) :
    ∃ s', execHalt t g s = .next s' ∧ s'.Same m z := by
  unfold execHalt
  refine ⟨_, rfl, ?_⟩
  exact State.tcc_same h

theorem execStallEnd_same {t : TileId} {s : State} (h : s.Same m z) (_ : .tiles ∈ m := by assumption) :
    ∃ s', execStallEnd t s = .next s' ∧ s'.Same m z := by
  unfold execStallEnd
  refine ⟨_, rfl, ?_⟩
  split
  · exact State.Same.ite (State.endStall_same h) h
  · exact h

theorem execTccDone_same {t : TileId} {s : State} (h : s.Same m z) (_ : .tiles ∈ m := by assumption) :
    ∃ s', execTccDone t s = .next s' ∧ s'.Same m z := by
  unfold execTccDone
  refine ⟨_, rfl, ?_⟩
  exact State.Same.ite (State.enterDone_same h) h

theorem State.startTcc_same {s : State} {t : Nat} (h : s.Same m z) (_ : .tiles ∈ m := by assumption) :
    (State.startTcc s t).Same m z := by
  unfold State.startTcc
  exact State.modTcc_same h

theorem State.noteCtl_same {s : State} {t : Nat} {bits : Nat} (h : s.Same m z) :
    (State.noteCtl s t bits).Same m z := by
  unfold State.noteCtl
  exact State.setReg_same h

theorem State.writeStart_same {s : State} {t : Nat} (h : s.Same m z) (_ : .tiles ∈ m := by assumption) :
    (State.writeStart s t).Same m z := by
  unfold State.writeStart
  refine State.Same.ite (State.ignoreWrite_same h) ?_
  extract_lets -underBinder +onlyGivenNames s1
  have h2 : s1.Same m z := State.noteCtl_same h
  clear_value s1
  exact State.Same.ite (State.startTcc_same h2) h2

theorem State.stepTcc_same {s : State} {t : Nat} {ecc : RowEcc} (h : s.Same m z) (_ : .tiles ∈ m := by assumption)
    (_ : .spad ∈ m := by assumption) (_ : .dstore ∈ m := by assumption) (_ : .polders ∈ m := by assumption)
    (_ : .spares ∈ m := by assumption) :
    (State.stepTcc s t ecc).Same m z := by
  unfold State.stepTcc
  extract_lets -underBinder +onlyGivenNames n1 s2
  have h3 : s2.Same m z := State.modTcc_same (State.countStall_same h)
  clear_value s2
  split
  · exact h
  · extract_lets -underBinder +onlyGivenNames s4
    have h5 : s4.Same m z := State.guarded_same h3
    clear_value s4
    extract_lets -underBinder +onlyGivenNames s6
    have h7 : s6.Same m z := by
      unfold s6
      split
      · exact State.Same.ite h5 (State.retire_same (State.grant_same h5))
      · exact h5
    clear_value s6
    exact State.modTcc_same h7

theorem State.writeStep_same {s : State} {t : Nat} {ecc : RowEcc} (h : s.Same m z) (_ : .tiles ∈ m := by assumption)
    (_ : .spad ∈ m := by assumption) (_ : .dstore ∈ m := by assumption) (_ : .polders ∈ m := by assumption)
    (_ : .spares ∈ m := by assumption) :
    (State.writeStep s t ecc).Same m z := by
  unfold State.writeStep
  extract_lets -underBinder +onlyGivenNames s1
  have h2 : s1.Same m z := State.noteCtl_same h
  clear_value s1
  extract_lets -underBinder +onlyGivenNames n3
  exact State.Same.ite (State.stepTcc_same h2) h2

/-! ### Events -/

theorem State.startHead_same {s : State} {t : Nat} {q : Nat} (h : s.Same m z) (_ : .tiles ∈ m := by assumption) :
    (State.startHead s t q).Same m z := by
  unfold State.startHead
  extract_lets -underBinder +onlyGivenNames n1
  split
  · exact h
  · refine State.Same.ite h ?_
    extract_lets -underBinder +onlyGivenNames s2
    have h3 : s2.Same m z := State.Same.ite (State.grant_same h) h
    clear_value s2
    extract_lets -underBinder +onlyGivenNames s4
    have h5 : s4.Same m z := State.modTile_same h3
    clear_value s4
    exact State.Same.ite h5 (State.raiseEngine_same h5)

theorem State.grantTcc_same {s : State} {t : Nat} (h : s.Same m z) (_ : .tiles ∈ m := by assumption) :
    (State.grantTcc s t).Same m z := by
  unfold State.grantTcc
  extract_lets -underBinder +onlyGivenNames n1
  split
  · exact State.Same.ite (State.retire_same (State.endStall_same (State.grant_same h))) h
  · exact h

theorem State.deliverSync_same {s : State} {t : Nat} (h : s.Same m z) (_ : .tiles ∈ m := by assumption)
    (_ : .polders ∈ m := by assumption) :
    (State.deliverSync s t).Same m z := by
  unfold State.deliverSync
  split
  · exact State.modTile_same h
  · exact State.increment_same (State.modTile_same h)

theorem execWaitGrant_same {t : TileId} {s : State} (h : s.Same m z) (_ : .tiles ∈ m := by assumption)
    (_ : .polders ∈ m := by assumption) :
    ∃ s', execWaitGrant t s = .next s' ∧ s'.Same m z := by
  unfold execWaitGrant
  refine ⟨_, rfl, State.Same.ite (State.deliverSync_same ?_) h⟩
  exact State.forEach_same (f := fun s q => s.startHead t.toNat q) (State.grantTcc_same h)
    (fun _ _ hx => State.startHead_same hx)

theorem State.modActive_same {s : State} {t : Nat} {q : Nat} {seq : Nat} {f : Active → Active} (h : s.Same m z)
    (_ : .tiles ∈ m := by assumption) :
    (State.modActive s t q seq f).Same m z := by
  unfold State.modActive
  exact State.modEngine_same h

theorem State.finish_same {s : State} {t : Nat} {q : Nat} {seq : Nat} (h : s.Same m z) (_ : .tiles ∈ m := by assumption) :
    (State.finish s t q seq).Same m z := by
  unfold State.finish
  exact State.modActive_same h

theorem State.countCompletion_same {s : State} {t : Nat} {q : Nat} {a : Active} (h : s.Same m z)
    (_ : .tiles ∈ m := by assumption) :
    (State.countCompletion s t q a).Same m z := by
  unfold State.countCompletion
  refine State.Same.ite ?_ (State.Same.ite (State.bump64_same h) (State.Same.ite (State.bump64_same h) h))
  extract_lets -underBinder +onlyGivenNames s1
  have h2 : s1.Same m z := State.modTile_same h
  clear_value s1
  exact State.Same.ite (State.bump_same h2) h2

theorem execCommandCompletion_same {t : TileId} {q : BitVec 3} {s : State} (h : s.Same m z) (_ : .tiles ∈ m := by assumption)
    (_ : .polders ∈ m := by assumption) :
    ∃ s', execCommandCompletion t q s = .next s' ∧ s'.Same m z := by
  unfold execCommandCompletion
  refine ⟨_, rfl, ?_⟩
  split
  · exact h
  · refine State.Same.ite ?_ h
    extract_lets -underBinder +onlyGivenNames s1
    have h2 : s1.Same m z := State.modEngine_same h
    clear_value s1
    extract_lets -underBinder +onlyGivenNames s3
    have h4 : s3.Same m z := State.countCompletion_same h2
    clear_value s3
    extract_lets -underBinder +onlyGivenNames s5
    have h6 : s5.Same m z := State.modTile_same h4
    clear_value s5
    exact State.Same.ite (State.increment_same h6) h6

theorem execSignal_same {t : TileId} {s : State} (h : s.Same m z) (_ : .tiles ∈ m := by assumption)
    (_ : .seams ∈ m := by assumption) :
    ∃ s', execSignal t s = .next s' ∧ s'.Same m z := by
  unfold execSignal
  refine ⟨_, rfl, ?_⟩
  split
  · exact h
  · refine State.Same.ite (State.raiseEngine_same h) ?_
    refine State.Same.ite (State.freezeMaster_same (State.raiseEngine_same h)) ?_
    extract_lets -underBinder +onlyGivenNames n1 s2
    have h3 : s2.Same m z := by
      refine State.forEach_same h ?_
      intro s4 x6 h5
      exact State.settleSync_same h5
    clear_value s2
    refine State.Same.ite h3 ?_
    extract_lets -underBinder +onlyGivenNames s7
    have h8 : s7.Same m z := by
      refine State.forEach_same h3 ?_
      intro s9 x11 h10
      exact State.signalCrosses_same h10
    clear_value s7
    exact State.modNets_same (State.finish_same h8)

theorem execMark_same {t : TileId} {s : State} (h : s.Same m z) (_ : .tiles ∈ m := by assumption) :
    ∃ s', execMark t s = .next s' ∧ s'.Same m z := by
  unfold execMark
  refine ⟨_, rfl, ?_⟩
  split
  · exact h
  · exact State.Same.ite (State.finish_same h) (State.raiseEngine_same h)

theorem execSignalArrival_same {t : TileId} {s : State} (h : s.Same m z) (_ : .tiles ∈ m := by assumption)
    (_ : .polders ∈ m := by assumption) :
    ∃ s', execSignalArrival t s = .next s' ∧ s'.Same m z := by
  unfold execSignalArrival
  refine ⟨_, rfl, ?_⟩
  split
  · exact h
  · extract_lets -underBinder +onlyGivenNames s1
    have h2 : s1.Same m z := State.modNets_same h
    clear_value s1
    refine State.Same.ite h2 ?_
    exact State.Same.ite (State.increment_same (State.modTile_same h2)) (State.Same.ite (State.modTile_same h2) h)

theorem execTilCtlStart_same {t : TileId} {s : State} (h : s.Same m z) (_ : .tiles ∈ m := by assumption)
    (_ : .seams ∈ m := by assumption) :
    ∃ s', execTilCtlStart t s = .next s' ∧ s'.Same m z := by
  unfold execTilCtlStart
  refine ⟨_, rfl, ?_⟩
  refine State.Same.ite (State.answerWritten_same (State.writeStart_same (State.accessCrosses_same h))) ?_
  exact State.answerError_same h

theorem execTilCtlStep_same {t : Meets TileId RowEcc} {s : State} (h : s.Same m z) (_ : .tiles ∈ m := by assumption)
    (_ : .spad ∈ m := by assumption) (_ : .dstore ∈ m := by assumption) (_ : .seams ∈ m := by assumption)
    (_ : .polders ∈ m := by assumption) (_ : .spares ∈ m := by assumption) :
    ∃ s', execTilCtlStep t s = .next s' ∧ s'.Same m z := by
  unfold execTilCtlStep
  refine ⟨_, rfl, ?_⟩
  refine State.Same.ite (State.answerWritten_same (State.writeStep_same (State.accessCrosses_same h))) ?_
  exact State.answerError_same h

/-! ### Drain -/

theorem State.setRows_same {s : State} {t : Nat} {row : Nat} {rows : List Nat} (h : s.Same m z) (_ : .spad ∈ m := by assumption) :
    (State.setRows s t row rows).Same m z := by
  unfold State.setRows
  refine State.forEach_same h ?_
  intro s1 x3 h2
  exact State.setSpadRow_same h2

theorem State.reading_same {s : State} {t : Nat} {q : Nat} {seq : Nat} {ecc : RowEcc} {act : State → State} (h : s.Same m z) (hact : ∀ y1, State.Same y1 m z → (act y1).Same m z)
    (_ : .tiles ∈ m := by assumption) (_ : .spares ∈ m := by assumption) :
    (State.reading s t q seq ecc act).Same m z := by
  unfold State.reading
  split
  · exact hact _ h
  · refine hact _ ?_
    refine State.forEach_same h ?_
    intro s1 x3 h2
    exact State.spadCorrected_same h2
  · exact State.spadLost_same (State.modActive_same h)

end Sys2Proof.Machine
end

