-- ==== Sys2Proof/Laws/FrameMemory.lean ====
section
/-!
SUPPORT. Which parts of the state the definitions of memory access, power, program loading and polders leave unchanged.
-/

-- one proof at a time: the package as one text would start more threads than its memory limit allows
set_option Elab.async false

namespace Sys2Proof.Machine

variable {m : List Part} {z : State}



/-! ### Memory -/

theorem State.memWrite_same {s : State} {x : Target} {bs : List Byte} (h : s.Same m z) (_ : .memory ∈ m := by assumption)
    (_ : .host ∈ m := by assumption) :
    (State.memWrite s x bs).Same m z := by
  unfold State.memWrite
  split
  · exact State.modStore_same h (fun _ => { Store.Same.refl _ with memory := .inl (by assumption) })
  · exact State.modStore_same h (fun _ => { Store.Same.refl _ with memory := .inl (by assumption) })
  · exact State.modStore_same h (fun _ => { Store.Same.refl _ with memory := .inl (by assumption) })
  · exact State.hostStore_same h

theorem State.countRead_same {s : State} {x : Target} {n : Nat} (h : s.Same m z) :
    (State.countRead s x n).Same m z := by
  unfold State.countRead
  exact State.Same.ite h (State.modStore_same h (fun _ => { Store.Same.refl _ with }))

theorem State.memCorrected_same {s : State} {x : Target} (h : s.Same m z) :
    (State.memCorrected s x).Same m z := by
  unfold State.memCorrected
  extract_lets -underBinder +onlyGivenNames s1
  have h2 : s1.Same m z := State.bump64_same h
  clear_value s1
  extract_lets -underBinder +onlyGivenNames s3
  have h4 : s3.Same m z := State.bump_same h2
  clear_value s3
  exact State.setReg_same h4

theorem State.retireFrame_same {s : State} {x : Target} {code : Nat} (h : s.Same m z) (_ : .frames ∈ m := by assumption)
    (_ : .journal ∈ m := by assumption) :
    (State.retireFrame s x code).Same m z := by
  unfold State.retireFrame
  refine State.Same.ite h ?_
  extract_lets -underBinder +onlyGivenNames s1
  have h2 : s1.Same m z := State.modStore_same h (fun _ => { Store.Same.refl _ with frames := .inl (by assumption) })
  clear_value s1
  extract_lets -underBinder +onlyGivenNames s3
  have h4 : s3.Same m z := State.setIrq_same (State.bump_same h2)
  clear_value s3
  exact State.append_same h4

theorem State.pendColRow_same {s : State} {x : Target} (h : s.Same m z) (_ : .spares ∈ m := by assumption) :
    (State.pendColRow s x).Same m z := by
  unfold State.pendColRow
  exact State.modSpares_same h

theorem State.memLost_same {s : State} {x : Target} {p : Nat} {kind : Nat} {unit : Nat} (h : s.Same m z)
    (_ : .frames ∈ m := by assumption) (_ : .journal ∈ m := by assumption) (_ : .spares ∈ m := by assumption) :
    (State.memLost s x p kind unit).Same m z := by
  unfold State.memLost
  extract_lets -underBinder +onlyGivenNames s1
  have h2 : s1.Same m z := State.bump_same h
  clear_value s1
  extract_lets -underBinder +onlyGivenNames s3
  have h4 : s3.Same m z := State.setIrq_same (State.setReg_same h2)
  clear_value s3
  extract_lets -underBinder +onlyGivenNames s5
  have h6 : s5.Same m z := State.logError_same h4
  clear_value s5
  extract_lets -underBinder +onlyGivenNames s7
  have h8 : s7.Same m z := State.Same.ite (State.pendColRow_same h6) (State.retireFrame_same h6)
  clear_value s7
  exact State.sendCause_same h8

theorem State.setEntry_same {s : State} {i : Nat} {e : Nat} (h : s.Same m z) (_ : .translation ∈ m := by assumption) :
    (State.setEntry s i e).Same m z := by
  unfold State.setEntry
  exact State.modStore_same h (fun _ => { Store.Same.refl _ with translation := .inl (by assumption) })

theorem State.stopCns_same {s : State} {n : Nat} {p : Nat} {code : Nat} (h : s.Same m z)
    (_ : .conservators ∈ m := by assumption) :
    (State.stopCns s n p code).Same m z := by
  unfold State.stopCns
  exact State.modCns_same (State.setIrq_same (State.setReg_same h))

theorem State.freezeSlot_same {s : State} {k : Nat} {p : Nat} {code : Nat} (h : s.Same m z) (_ : .links ∈ m := by assumption) :
    (State.freezeSlot s k p code).Same m z := by
  unfold State.freezeSlot
  exact State.Same.ite (State.modSlot_same h) h

theorem State.raiseMaster_same {s : State} {p : Nat} {kind : Nat} {unit : Nat} {code : Nat} {addr : Nat} (h : s.Same m z)
    (_ : .tiles ∈ m := by assumption) (_ : .conservators ∈ m := by assumption) (_ : .links ∈ m := by assumption) :
    (State.raiseMaster s p kind unit code addr).Same m z := by
  unfold State.raiseMaster
  extract_lets -underBinder +onlyGivenNames n1
  split
  · exact State.sendCause_same h
  · exact State.sendCause_same (State.logError_same (State.stopCns_same h))
  · exact State.sendCause_same (State.logError_same h)
  · exact State.sendCause_same (State.logError_same (State.freezeSlot_same h))
  · exact State.sendCause_same (State.logError_same (State.freezeSlot_same h))
  · exact State.sendCause_same (State.logError_same h)
  · exact State.sendCause_same (State.logError_same (State.freezeSlot_same h))
  · exact State.raiseTile_same h

theorem State.registerWatch_same {s : State} {r : Req} {x : Target} (h : s.Same m z) (_ : .tiles ∈ m := by assumption) :
    (State.registerWatch s r x).Same m z := by
  unfold State.registerWatch
  exact State.Same.ite h (State.modTile_same h)

theorem State.watchCheck_same {s : State} {p : Nat} {kind : Nat} {unit : Nat} {va : Nat} {len : Nat} {x : Target} (h : s.Same m z)
    (_ : .tiles ∈ m := by assumption) (_ : .conservators ∈ m := by assumption) (_ : .links ∈ m := by assumption) :
    (State.watchCheck s p kind unit va len x).Same m z := by
  unfold State.watchCheck
  refine State.forEach_same h ?_
  intro s1 x3 h2
  refine State.forEach_same h2 ?_
  intro s4 x6 h5
  refine State.Same.ite ?_ h5
  split
  · exact State.raiseMaster_same (State.setReg64_same h5)
  · exact h5

theorem State.discardRunAhead_same {s : State} {p : Nat} {va : Nat} {len : Nat} (h : s.Same m z)
    (_ : .tiles ∈ m := by assumption) :
    (State.discardRunAhead s p va len).Same m z := by
  unfold State.discardRunAhead
  refine State.forEach_same h ?_
  intro s1 x3 h2
  refine State.forEach_same h2 ?_
  intro s4 x6 h5
  extract_lets -underBinder +onlyGivenNames n7 n8
  refine State.Same.ite ?_ h5
  extract_lets -underBinder +onlyGivenNames s9
  have h10 : s9.Same m z := State.bump_same h5
  clear_value s9
  extract_lets -underBinder +onlyGivenNames n11
  exact State.modTile_same h10

theorem State.curatorLands_same {s : State} {p : Nat} {va : Nat} {x : Target} {bs : List Byte} (h : s.Same m z)
    (_ : .tiles ∈ m := by assumption) (_ : .memory ∈ m := by assumption) (_ : .host ∈ m := by assumption) :
    (State.curatorLands s p va x bs).Same m z := by
  unfold State.curatorLands
  exact State.memWrite_same (State.discardRunAhead_same h)

theorem State.landWrite_same {s : State} {p : Nat} {kind : Nat} {unit : Nat} {va : Nat} {x : Target} {bs : List Byte} (h : s.Same m z)
    (_ : .tiles ∈ m := by assumption) (_ : .memory ∈ m := by assumption) (_ : .host ∈ m := by assumption)
    (_ : .conservators ∈ m := by assumption) (_ : .links ∈ m := by assumption) :
    (State.landWrite s p kind unit va x bs).Same m z := by
  unfold State.landWrite
  extract_lets -underBinder +onlyGivenNames s1
  have h2 : s1.Same m z := State.memWrite_same (State.discardRunAhead_same (State.watchCheck_same h))
  clear_value s1
  exact State.Same.ite (State.postTlps_same h2) h2

theorem State.addWords_same {s : State} {p : Nat} {x : Target} {first : Nat} {cs : List (Int × Int)} (h : s.Same m z)
    (_ : .memory ∈ m := by assumption) (_ : .host ∈ m := by assumption) :
    (State.addWords s p x first cs).Same m z := by
  unfold State.addWords
  extract_lets -underBinder +onlyGivenNames n1 n2 s3
  have h4 : s3.Same m z := State.countRead_same (State.memWrite_same h)
  clear_value s3
  extract_lets -underBinder +onlyGivenNames s5
  have h6 : s5.Same m z := State.bump_same h4
  clear_value s5
  exact State.Same.ite h6 (State.bump_same h6)

theorem State.addToUnit_same {s : State} {p : Nat} {x : Target} {first : Nat} {cs : List (Int × Int)} (h : s.Same m z)
    (_ : .memory ∈ m := by assumption) (_ : .host ∈ m := by assumption) :
    (State.addToUnit s p x first cs).Same m z := by
  unfold State.addToUnit
  exact State.bump64_same (State.addWords_same h)

theorem State.modReq_same {s : State} {id : Nat} {f : Req → Req} (h : s.Same m z) :
    (State.modReq s id f).Same m z := by
  unfold State.modReq
  exact State.modStore_same h (fun _ => { Store.Same.refl _ with })

theorem State.dropReq_same {s : State} {id : Nat} (h : s.Same m z) :
    (State.dropReq s id).Same m z := by
  unfold State.dropReq
  exact State.modStore_same h (fun _ => { Store.Same.refl _ with })

theorem State.loseReq_same {s : State} {id : Nat} (h : s.Same m z) :
    (State.loseReq s id).Same m z := by
  unfold State.loseReq
  exact State.modReq_same h

theorem State.noteFaultVa_same {s : State} {r : Req} (h : s.Same m z) :
    (State.noteFaultVa s r).Same m z := by
  unfold State.noteFaultVa
  exact State.Same.ite h (State.setReg64_same h)

theorem State.waitSlot_same {s : State} {t : Nat} {q : Nat} (h : s.Same m z) (_ : .tiles ∈ m := by assumption) :
    (State.waitSlot s t q).Same m z := by
  unfold State.waitSlot
  exact State.modTile_same h

theorem State.endSlotWait_same {s : State} {t : Nat} {q : Nat} (h : s.Same m z) (_ : .tiles ∈ m := by assumption) :
    (State.endSlotWait s t q).Same m z := by
  unfold State.endSlotWait
  exact State.Same.ite (State.modTile_same (State.bump_same h)) h

theorem State.requestLost_same {s : State} {r : Req} {x : Target} (h : s.Same m z) (_ : .frames ∈ m := by assumption)
    (_ : .journal ∈ m := by assumption) (_ : .spares ∈ m := by assumption) :
    (State.requestLost s r x).Same m z := by
  unfold State.requestLost
  exact State.memLost_same (State.noteFaultVa_same h)

theorem State.recordXl_same {s : State} {p : Nat} {code : Nat} {va : Nat} (h : s.Same m z) :
    (State.recordXl s p code va).Same m z := by
  unfold State.recordXl
  exact State.Same.ite (State.setReg64_same (State.setReg_same h)) h

theorem State.requestFault_same {s : State} {t : Nat} {q : Nat} {code : Nat} {va : Nat} (h : s.Same m z)
    (_ : .tiles ∈ m := by assumption) :
    (State.requestFault s t q code va).Same m z := by
  unfold State.requestFault
  extract_lets -underBinder +onlyGivenNames n1 s2
  have h3 : s2.Same m z := State.Same.ite h (State.recordXl_same h)
  clear_value s2
  exact State.raiseEngine_same (State.setReg64_same h3)

theorem State.markTags_same {s : State} (h : s.Same m z) :
    (State.markTags s).Same m z := by
  unfold State.markTags
  extract_lets -underBinder +onlyGivenNames n1 n2
  exact State.Same.ite (State.setReg_same h) h

theorem State.useSlot_same {s : State} {res : Nat} {p : Nat} {twice : Bool} (h : s.Same m z) :
    (State.useSlot s res p twice).Same m z := by
  unfold State.useSlot
  extract_lets -underBinder +onlyGivenNames n1 n2 n3
  exact State.modStore_same h (fun _ => { Store.Same.refl _ with })

theorem State.seamSlot_same {s : State} {n : Nat} {die : Nat} {p : Nat} (h : s.Same m z) :
    (State.seamSlot s n die p).Same m z := by
  unfold State.seamSlot
  extract_lets -underBinder +onlyGivenNames n1
  exact State.useSlot_same (State.Same.ite (State.bump_same h) h)

theorem State.polderCrosses_same {s : State} {p die chan flits : Nat} {l : List Nat} (h : s.Same m z)
    (_ : .seams ∈ m := by assumption) :
    (s.polderCrosses p die chan flits l).Same m z := by
  induction l generalizing s die with
  | nil => exact h
  | cons n rest ih => exact ih (State.crossSeam_same (State.seamSlot_same h))

theorem State.targetSlots_same {s : State} {p : Nat} {x : Target} {len : Nat} {twice : Bool} (h : s.Same m z) :
    (State.targetSlots s p x len twice).Same m z := by
  unfold State.targetSlots
  refine State.forEach_same h ?_
  intro s1 x3 h2
  exact State.useSlot_same h2

theorem State.settleSeams_same {s : State} (h : s.Same m z) (_ : .seams ∈ m := by assumption) :
    (State.settleSeams s).Same m z := by
  unfold State.settleSeams
  refine State.forEach_same h ?_
  intro s1 x3 h2
  refine State.forEach_same h2 ?_
  intro s4 x6 h5
  exact State.stampStall_same (State.stampStall_same h5)

theorem State.arriveAt_same {s : State} {id : Nat} {die : Nat} (h : s.Same m z) :
    (State.arriveAt s id die).Same m z := by
  unfold State.arriveAt
  extract_lets -underBinder +onlyGivenNames n1
  exact State.modStore_same (State.modReq_same h) (fun _ => { Store.Same.refl _ with })

theorem State.reachTarget_same {s : State} {id : Nat} (h : s.Same m z) (_ : .tiles ∈ m := by assumption) :
    (State.reachTarget s id).Same m z := by
  unfold State.reachTarget
  split
  · exact h
  · split
    · exact State.Same.ite (State.registerWatch_same (State.modReq_same h)) (State.registerWatch_same h)
    · exact h

theorem State.route_same {s : State} {id : Nat} {x : Target} (h : s.Same m z) (_ : .tiles ∈ m := by assumption) :
    (State.route s id x).Same m z := by
  unfold State.route
  split
  · exact h
  · extract_lets -underBinder +onlyGivenNames n1 n2 s3
    have h4 : s3.Same m z := State.arriveAt_same (State.modReq_same h)
    clear_value s3
    exact State.Same.ite (State.reachTarget_same h4) h4

theorem State.respond_same {s : State} {id : Nat} {data : List Byte} (h : s.Same m z) :
    (State.respond s id data).Same m z := by
  unfold State.respond
  split
  · exact h
  · extract_lets -underBinder +onlyGivenNames n1
    exact State.arriveAt_same (State.modReq_same h)

theorem State.hop_same {s : State} {r : Req} {n : Nat} {rest : List Nat} (h : s.Same m z) (_ : .tiles ∈ m := by assumption)
    (_ : .seams ∈ m := by assumption) :
    (State.hop s r n rest).Same m z := by
  unfold State.hop
  refine State.Same.ite (State.dropReq_same h) ?_
  refine State.Same.ite h ?_
  extract_lets -underBinder +onlyGivenNames n1 s2
  have h3 : s2.Same m z := State.crossSeam_same (State.seamSlot_same h)
  clear_value s2
  extract_lets -underBinder +onlyGivenNames s4
  have h5 : s4.Same m z := State.arriveAt_same (State.modReq_same h3)
  clear_value s4
  exact State.Same.ite (State.reachTarget_same h5) h5

theorem State.fillTlb_same {s : State} {t : Nat} {q : Nat} {stream : Nat} {e : TlbEntry} (h : s.Same m z)
    (_ : .tiles ∈ m := by assumption) :
    (State.fillTlb s t q stream e).Same m z := by
  unfold State.fillTlb
  exact State.modTile_same h

theorem State.setWalkCache_same {s : State} {die : Nat} {l : List WalkEntry} (h : s.Same m z) :
    (State.setWalkCache s die l).Same m z := by
  unfold State.setWalkCache
  exact State.modStore_same h (fun _ => { Store.Same.refl _ with })

theorem State.lineCrosses_same {s : State} {die : Nat} {p : Nat} {line : Target} (h : s.Same m z)
    (_ : .seams ∈ m := by assumption) :
    (State.lineCrosses s die p line).Same m z := by
  unfold State.lineCrosses
  extract_lets -underBinder +onlyGivenNames n1
  exact State.polderCrosses_same (State.targetSlots_same (State.polderCrosses_same h))

theorem State.readLine_same {s : State} {die : Nat} {p : Nat} {w : Nat} {i : Nat} (h : s.Same m z)
    (_ : .seams ∈ m := by assumption) :
    (State.readLine s die p w i).Same m z := by
  unfold State.readLine
  extract_lets -underBinder +onlyGivenNames n1
  exact State.lineCrosses_same (State.countRead_same (State.bump64_same h))

theorem State.lineLost_same {s : State} {line : Target} {p : Nat} {kind : Nat} {unit : Nat} (h : s.Same m z) :
    (State.lineLost s line p kind unit).Same m z := by
  unfold State.lineLost
  extract_lets -underBinder +onlyGivenNames s1
  have h2 : s1.Same m z := State.setReg_same (State.bump_same h)
  clear_value s1
  extract_lets -underBinder +onlyGivenNames s3
  have h4 : s3.Same m z := State.logError_same (State.setIrq_same h2)
  clear_value s3
  exact State.sendCause_same h4

theorem State.cacheLine_same {s : State} {die : Nat} {p : Nat} {w : Nat} {i : Nat} (h : s.Same m z) :
    (State.cacheLine s die p w i).Same m z := by
  unfold State.cacheLine
  extract_lets -underBinder +onlyGivenNames n1 n2
  exact State.setWalkCache_same h

theorem State.walk_same {s : State} {die : Nat} {p : Nat} {w : Nat} {i : Nat} {ecc : Ecc} {kind : Nat} {unit : Nat} (h : s.Same m z)
    (_ : .seams ∈ m := by assumption) :
    (State.walk s die p w i ecc kind unit).2.Same m z := by
  unfold State.walk
  extract_lets -underBinder +onlyGivenNames s1
  have h2 : s1.Same m z := State.bump64_same h
  clear_value s1
  split
  · extract_lets -underBinder +onlyGivenNames n3
    exact State.setWalkCache_same h2
  · extract_lets -underBinder +onlyGivenNames n4 s5
    have h6 : s5.Same m z := State.readLine_same h2
    clear_value s5
    split
    · exact State.lineLost_same h6
    · extract_lets -underBinder +onlyGivenNames s7
      have h8 : s7.Same m z := State.Same.ite (State.memCorrected_same h6) h6
      clear_value s7
      exact State.cacheLine_same h8

theorem State.holdWalks_same {s : State} {p : Nat} {hit : Nat → Nat → Bool} (h : s.Same m z) (_ : .seams ∈ m := by assumption) :
    (State.holdWalks s p hit).Same m z := by
  unfold State.holdWalks
  refine State.forEach_same h ?_
  intro s1 x3 h2
  refine State.forEach_same h2 ?_
  intro s4 x6 h5
  split
  · exact h5
  · extract_lets -underBinder +onlyGivenNames n7
    refine State.Same.ite ?_ h5
    extract_lets -underBinder +onlyGivenNames n8 s9
    have h10 : s9.Same m z := State.Same.ite (State.readLine_same h5) h5
    clear_value s9
    exact State.modReq_same h10

theorem State.walkAnswer_same {s : State} {r : Req} {w : Nat} {i : Nat} {e : Nat} (h : s.Same m z)
    (_ : .tiles ∈ m := by assumption) (_ : .seams ∈ m := by assumption) :
    (State.walkAnswer s r w i e).Same m z := by
  unfold State.walkAnswer
  split
  · exact State.requestFault_same (State.loseReq_same h)
  · extract_lets -underBinder +onlyGivenNames s1
    have h2 : s1.Same m z := State.Same.ite (State.fillTlb_same h) h
    clear_value s1
    exact State.settleSeams_same (State.route_same h2)

theorem State.staleAnswer_same {s : State} {r : Req} {w : Nat} {ecc : Ecc} {e : Nat} (h : s.Same m z)
    (_ : .tiles ∈ m := by assumption) (_ : .seams ∈ m := by assumption) :
    (State.staleAnswer s r w ecc e).Same m z := by
  unfold State.staleAnswer
  extract_lets -underBinder +onlyGivenNames s1
  have h2 : s1.Same m z := State.bump64_same h
  clear_value s1
  extract_lets -underBinder +onlyGivenNames n3
  split
  · exact State.noteFaultVa_same (State.loseReq_same (State.lineLost_same h2))
  · exact State.walkAnswer_same (State.memCorrected_same h2)
  · exact State.walkAnswer_same h2

theorem execTableWalk_same {req : Nat} {ecc : Ecc} {s : State} (h : s.Same m z) (_ : .tiles ∈ m := by assumption)
    (_ : .seams ∈ m := by assumption) :
    ∃ s', execTableWalk req ecc s = .next s' ∧ s'.Same m z := by
  unfold execTableWalk
  refine ⟨_, rfl, ?_⟩
  split
  · exact h
  · extract_lets -underBinder +onlyGivenNames n1
    refine State.Same.ite h ?_
    refine State.Same.ite (State.dropReq_same h) ?_
    split
    · exact h
    · exact State.staleAnswer_same h
    · extract_lets -underBinder +onlyGivenNames n2
      have h3 : n2.2.Same m z := State.walk_same h
      clear_value n2
      split
      · exact State.walkAnswer_same h3
      · exact State.noteFaultVa_same (State.loseReq_same h3)

theorem State.joinRow_same {s : State} {r : Req} {die : Nat} {bank : Nat} {row : Nat} (h : s.Same m z) :
    (State.joinRow s r die bank row).Same m z := by
  unfold State.joinRow
  refine State.Same.ite (State.modStore_same h (fun _ => { Store.Same.refl _ with })) ?_
  extract_lets -underBinder +onlyGivenNames n1
  exact State.countRead_same (State.modStore_same h (fun _ => { Store.Same.refl _ with }))

theorem State.serveRead_same {s : State} {r : Req} {x : Target} (h : s.Same m z) :
    (State.serveRead s r x).Same m z := by
  unfold State.serveRead
  exact State.countRead_same (State.respond_same h)

theorem State.serveMerged_same {s : State} {r : Req} {x : Target} (h : s.Same m z) :
    (State.serveMerged s r x).Same m z := by
  unfold State.serveMerged
  extract_lets -underBinder +onlyGivenNames s1
  have h2 : s1.Same m z := State.modReq_same h
  clear_value s1
  refine State.forEach_same h2 ?_
  intro s3 x5 h4
  exact State.joinRow_same h4

theorem State.spoilMerged_same {s : State} {r : Req} {x : Target} (h : s.Same m z) (_ : .frames ∈ m := by assumption)
    (_ : .journal ∈ m := by assumption) (_ : .spares ∈ m := by assumption) :
    (State.spoilMerged s r x).Same m z := by
  unfold State.spoilMerged
  extract_lets -underBinder +onlyGivenNames n1 s2
  have h3 : s2.Same m z := State.serveMerged_same (State.requestLost_same h)
  clear_value s2
  exact State.modStore_same h3 (fun _ => { Store.Same.refl _ with })

theorem State.closeMerges_same {s : State} {x : Target} {len : Nat} (h : s.Same m z) :
    (State.closeMerges s x len).Same m z := by
  unfold State.closeMerges
  exact State.Same.ite (State.modStore_same h (fun _ => { Store.Same.refl _ with })) h

theorem State.showViolation_same {s : State} {x : Target} {code : Nat} (h : s.Same m z) :
    (State.showViolation s x code).Same m z := by
  unfold State.showViolation
  exact State.setIrq_same (State.setReg_same h)

theorem State.accViolation_same {s : State} {r : Req} {x : Target} {code : Nat} (h : s.Same m z)
    (_ : .tiles ∈ m := by assumption) :
    (State.accViolation s r x code).Same m z := by
  unfold State.accViolation
  extract_lets -underBinder +onlyGivenNames s1
  have h2 : s1.Same m z := State.showViolation_same h
  clear_value s1
  exact State.raiseEngine_same (State.setReg64_same (State.loseReq_same h2))

theorem State.serveWrite_same {s : State} {r : Req} {x : Target} (h : s.Same m z) (_ : .tiles ∈ m := by assumption)
    (_ : .memory ∈ m := by assumption) (_ : .host ∈ m := by assumption) (_ : .conservators ∈ m := by assumption)
    (_ : .links ∈ m := by assumption) :
    (State.serveWrite s r x).Same m z := by
  unfold State.serveWrite
  exact State.respond_same (State.landWrite_same (State.closeMerges_same h))

theorem State.takeSlots_same {s : State} {r : Req} {twice : Bool} (h : s.Same m z) :
    (State.takeSlots s r twice).Same m z := by
  unfold State.takeSlots
  refine State.forEach_same h ?_
  intro s1 x3 h2
  exact State.useSlot_same h2

theorem State.serveAtTarget_same {s : State} {r : Req} {x : Target} {ecc : Ecc} (h : s.Same m z)
    (_ : .tiles ∈ m := by assumption) (_ : .memory ∈ m := by assumption) (_ : .host ∈ m := by assumption)
    (_ : .frames ∈ m := by assumption) (_ : .conservators ∈ m := by assumption) (_ : .links ∈ m := by assumption)
    (_ : .journal ∈ m := by assumption) (_ : .spares ∈ m := by assumption) :
    (State.serveAtTarget s r x ecc).Same m z := by
  unfold State.serveAtTarget
  refine State.Same.ite (State.Same.ite (State.serveWrite_same h) (State.Same.ite h (State.accViolation_same h))) ?_
  split
  · exact State.Same.ite (State.spoilMerged_same h) (State.requestLost_same (State.loseReq_same h))
  · extract_lets -underBinder +onlyGivenNames s1
    have h2 : s1.Same m z := State.Same.ite (State.memCorrected_same h) h
    clear_value s1
    exact State.Same.ite (State.serveMerged_same h2) (State.serveRead_same h2)

theorem execMemoryAccess_same {req : Nat} {ecc : Ecc} {s : State} (h : s.Same m z) (_ : .tiles ∈ m := by assumption)
    (_ : .memory ∈ m := by assumption) (_ : .host ∈ m := by assumption) (_ : .frames ∈ m := by assumption)
    (_ : .seams ∈ m := by assumption) (_ : .conservators ∈ m := by assumption) (_ : .links ∈ m := by assumption)
    (_ : .journal ∈ m := by assumption) (_ : .spares ∈ m := by assumption) :
    ∃ s', execMemoryAccess req ecc s = .next s' ∧ s'.Same m z := by
  unfold execMemoryAccess
  refine ⟨_, rfl, ?_⟩
  split
  · exact h
  · split
    · exact State.Same.ite (State.settleSeams_same (State.hop_same h)) h
    · refine State.Same.ite (State.settleSeams_same (State.serveMerged_same h)) ?_
      exact State.Same.ite h (State.settleSeams_same (State.serveAtTarget_same (State.takeSlots_same h)))
    · exact h

theorem State.multicast_same {s : State} {z2 : Merge} {id : Nat} (h : s.Same m z) :
    (State.multicast s z2 id).Same m z := by
  unfold State.multicast
  split
  · exact h
  · split
    · exact h
    · refine State.Same.ite (State.loseReq_same h) ?_
      refine State.Same.ite h ?_
      extract_lets -underBinder +onlyGivenNames n1 s2
      have h3 : s2.Same m z := State.modReq_same h
      clear_value s2
      exact State.Same.ite h3 (State.Same.ite (State.loseReq_same h3) (State.modReq_same h3))

theorem State.multicastCrosses_same {s : State} {z2 : Merge} (h : s.Same m z) (_ : .seams ∈ m := by assumption) :
    (State.multicastCrosses s z2).Same m z := by
  unfold State.multicastCrosses
  extract_lets -underBinder +onlyGivenNames n1 n2
  refine State.forEach_same h ?_
  intro s3 x5 h4
  exact State.crossSeam_same (State.seamSlot_same h4)

theorem execMergeWindowClose_same {die : BitVec 2} {bank : BitVec 6} {row : BitVec 12} {s : State} (h : s.Same m z)
    (_ : .seams ∈ m := by assumption) :
    ∃ s', execMergeWindowClose die bank row s = .next s' ∧ s'.Same m z := by
  unfold execMergeWindowClose
  refine ⟨_, rfl, ?_⟩
  split
  · exact h
  · refine State.Same.ite ?_ h
    extract_lets -underBinder +onlyGivenNames s1
    have h2 : s1.Same m z := State.modStore_same h (fun _ => { Store.Same.refl _ with })
    clear_value s1
    extract_lets -underBinder +onlyGivenNames s3
    have h4 : s3.Same m z := State.Same.ite h2 (State.multicastCrosses_same h2)
    clear_value s3
    refine State.settleSeams_same ?_
    refine State.forEach_same h4 ?_
    intro s5 x7 h6
    exact State.multicast_same h6

theorem execAccumulateWrite_same {req : Nat} {ecc : Ecc} {s : State} (h : s.Same m z) (_ : .tiles ∈ m := by assumption)
    (_ : .memory ∈ m := by assumption) (_ : .host ∈ m := by assumption) (_ : .frames ∈ m := by assumption)
    (_ : .seams ∈ m := by assumption) (_ : .conservators ∈ m := by assumption) (_ : .links ∈ m := by assumption)
    (_ : .journal ∈ m := by assumption) (_ : .spares ∈ m := by assumption) :
    ∃ s', execAccumulateWrite req ecc s = .next s' ∧ s'.Same m z := by
  unfold execAccumulateWrite
  refine ⟨_, rfl, ?_⟩
  split
  · exact h
  · split
    · refine State.Same.ite h ?_
      refine State.Same.ite (State.settleSeams_same (State.accViolation_same (State.takeSlots_same h))) ?_
      extract_lets -underBinder +onlyGivenNames s1
      have h2 : s1.Same m z := State.takeSlots_same h
      clear_value s1
      extract_lets -underBinder +onlyGivenNames n3
      split
      · exact State.settleSeams_same (State.requestLost_same (State.loseReq_same h2))
      · extract_lets -underBinder +onlyGivenNames s4
        have h5 : s4.Same m z := State.Same.ite (State.memCorrected_same h2) h2
        clear_value s4
        extract_lets -underBinder +onlyGivenNames n6 s7
        have h8 : s7.Same m z := State.discardRunAhead_same (State.watchCheck_same h5)
        clear_value s7
        exact State.settleSeams_same (State.respond_same (State.addToUnit_same h8))
    · exact h

theorem execSeepageWindowClose_same {u : SeepUnit} {s : State} (h : s.Same m z) (_ : .journal ∈ m := by assumption) :
    ∃ s', execSeepageWindowClose u s = .next s' ∧ s'.Same m z := by
  unfold execSeepageWindowClose
  refine ⟨_, rfl, ?_⟩
  refine State.Same.ite h ?_
  extract_lets -underBinder +onlyGivenNames s1
  have h2 : s1.Same m z := State.modStore_same h (fun _ => { Store.Same.refl _ with })
  clear_value s1
  extract_lets -underBinder +onlyGivenNames n3 s4
  have h5 : s4.Same m z := State.setReg_same (State.setReg_same h2)
  clear_value s4
  extract_lets -underBinder +onlyGivenNames n6
  refine State.Same.ite ?_ h5
  extract_lets -underBinder +onlyGivenNames s7
  have h8 : s7.Same m z := State.setIrq_same h5
  clear_value s7
  exact State.Same.ite h8 (State.append_same (State.modJournal_same h8))

theorem State.dropXl_same {s : State} {p : Nat} {hit : Nat → Nat → Bool} (h : s.Same m z) (_ : .tiles ∈ m := by assumption) :
    (State.dropXl s p hit).Same m z := by
  unfold State.dropXl
  extract_lets -underBinder +onlyGivenNames s1
  have h2 : s1.Same m z := State.modStore_same h (fun _ => { Store.Same.refl _ with })
  clear_value s1
  refine State.forEach_same h2 ?_
  intro s3 x5 h4
  extract_lets -underBinder +onlyGivenNames n6
  exact State.modTile_same h4

theorem execTranslationEditComplete_same {p : PolderId} {s : State} (h : s.Same m z) (_ : .polders ∈ m := by assumption)
    (_ : .channels ∈ m := by assumption) :
    ∃ s', execTranslationEditComplete p s = .next s' ∧ s'.Same m z := by
  unfold execTranslationEditComplete
  refine ⟨_, rfl, ?_⟩
  split
  · extract_lets -underBinder +onlyGivenNames n1 n2
    refine State.Same.ite h ?_
    extract_lets -underBinder +onlyGivenNames s3
    have h4 : s3.Same m z := State.modPld_same h
    clear_value s3
    exact State.replyEcho_same (State.bump_same h4)
  · exact h

/-! ### Power -/

theorem State.retuneDie_same {s : State} {d : Nat} (h : s.Same m z) (_ : .power ∈ m := by assumption) :
    (State.retuneDie s d).Same m z := by
  unfold State.retuneDie
  extract_lets -underBinder +onlyGivenNames n1 s2
  have h3 : s2.Same m z := State.modDie_same h
  clear_value s2
  refine State.Same.ite (State.modDie_same (State.bump_same h3)) ?_
  refine State.Same.ite (State.Same.ite h3 (State.modDie_same h3)) ?_
  extract_lets -underBinder +onlyGivenNames s4
  have h5 : s4.Same m z := State.Same.ite (State.bump_same h3) h3
  clear_value s4
  exact State.modDie_same h5

theorem State.retune_same {s : State} (h : s.Same m z) (_ : .power ∈ m := by assumption) :
    (State.retune s).Same m z := by
  unfold State.retune
  refine State.forEach_same h ?_
  intro s1 x3 h2
  exact State.retuneDie_same h2

theorem execAcStepUp_same {die : BitVec 2} {s : State} (h : s.Same m z) (_ : .power ∈ m := by assumption) :
    ∃ s', execAcStepUp die s = .next s' ∧ s'.Same m z := by
  unfold execAcStepUp
  refine ⟨_, rfl, ?_⟩
  exact State.Same.ite (State.retuneDie_same (State.modDie_same h)) h

theorem State.calibrateDie_same {s : State} {d : Nat} (h : s.Same m z) :
    (State.calibrateDie s d).Same m z := by
  unfold State.calibrateDie
  extract_lets -underBinder +onlyGivenNames n1 n2 n3 n4 s5
  have h6 : s5.Same m z := State.setReg_same h
  clear_value s5
  extract_lets -underBinder +onlyGivenNames s7
  have h8 : s7.Same m z := State.setReg_same h6
  clear_value s7
  exact State.Same.ite h8 (State.setIrq_same h8)

theorem State.calibrate_same {s : State} (h : s.Same m z) :
    (State.calibrate s).Same m z := by
  unfold State.calibrate
  refine State.forEach_same h ?_
  intro s1 x3 h2
  exact State.calibrateDie_same h2

theorem State.meterEnergy_same {s : State} {d : Nat} (h : s.Same m z) (_ : .power ∈ m := by assumption) :
    (State.meterEnergy s d).Same m z := by
  unfold State.meterEnergy
  extract_lets -underBinder +onlyGivenNames n1
  have h2 : n1.2.Same m z := State.draw_same h
  clear_value n1
  exact State.modDie_same h2

theorem execPowerWindow_same {die : BitVec 2} {mw : Word} {s : State} (h : s.Same m z) (_ : .power ∈ m := by assumption) :
    ∃ s', execPowerWindow die mw s = .next s' ∧ s'.Same m z := by
  unfold execPowerWindow
  refine ⟨_, rfl, ?_⟩
  refine State.Same.ite h ?_
  extract_lets -underBinder +onlyGivenNames n1 s2
  have h3 : s2.Same m z := State.setReg_same h
  clear_value s2
  extract_lets -underBinder +onlyGivenNames s4
  have h5 : s4.Same m z := State.modDie_same h3
  clear_value s4
  exact State.retuneDie_same h5

theorem State.noteEstimate_same {s : State} {d : Nat} {e : Int} (h : s.Same m z) (_ : .power ∈ m := by assumption) :
    (State.noteEstimate s d e).Same m z := by
  unfold State.noteEstimate
  exact State.modDie_same h

theorem execThermalEvaluation_same {die : BitVec 2} {hot : Int} {shoreHot : Int} {stackHot : Int} {s : State} (h : s.Same m z)
    (_ : .power ∈ m := by assumption) :
    ∃ s', execThermalEvaluation die hot shoreHot stackHot s = .next s' ∧ s'.Same m z := by
  unfold execThermalEvaluation
  refine ⟨_, rfl, ?_⟩
  refine State.Same.ite h ?_
  extract_lets -underBinder +onlyGivenNames n1 n2 s3
  have h4 : s3.Same m z := State.noteEstimate_same h
  clear_value s3
  extract_lets -underBinder +onlyGivenNames s5
  have h6 : s5.Same m z := State.Same.ite (State.noteEstimate_same h4) h4
  clear_value s5
  extract_lets -underBinder +onlyGivenNames n7 s8
  have h9 : s8.Same m z := State.modDie_same h6
  clear_value s8
  extract_lets -underBinder +onlyGivenNames n10 s11
  have h12 : s11.Same m z := State.modDie_same h9
  clear_value s11
  extract_lets -underBinder +onlyGivenNames s13
  have h14 : s13.Same m z :=
    State.Same.ite (State.Same.ite (State.setIrq_same h12) h12) (State.Same.ite (State.modDie_same h9) h9)
  clear_value s13
  exact State.retuneDie_same h14

theorem execThermtrip_same {die : Fin 6} {hot : Int} {s : State} (h : s.Same m z) (_ : .polders ∈ m := by assumption)
    (_ : .clients ∈ m := by assumption) (_ : .conservators ∈ m := by assumption) (_ : .channels ∈ m := by assumption)
    (_ : .links ∈ m := by assumption) (_ : .power ∈ m := by assumption) (_ : .board ∈ m := by assumption)
    (_ : .status ∈ m := by assumption) (_ : .journal ∈ m := by assumption) :
    ∃ s', execThermtrip die hot s = .next s' ∧ s'.Same m z := by
  unfold execThermtrip
  refine ⟨_, rfl, ?_⟩
  refine State.Same.ite h ?_
  extract_lets -underBinder +onlyGivenNames s1
  have h2 : s1.Same m z := State.modDie_same h
  clear_value s1
  extract_lets -underBinder +onlyGivenNames s3
  have h4 : s3.Same m z := State.modBoard_same h2
  clear_value s3
  extract_lets -underBinder +onlyGivenNames s5
  have h6 : s5.Same m z := by
    refine State.forEach_same h4 ?_
    intro s7 x9 h8
    exact State.setIrq_same h8
  clear_value s5
  extract_lets -underBinder +onlyGivenNames s10
  have h11 : s10.Same m z := State.logError_same h6
  clear_value s10
  exact State.failPart_same (State.retune_same h11)

theorem execRegulatorFault_same {die : BitVec 2} {lost : Bool} {s : State} (h : s.Same m z) (_ : .seams ∈ m := by assumption)
    (_ : .polders ∈ m := by assumption) (_ : .clients ∈ m := by assumption) (_ : .conservators ∈ m := by assumption)
    (_ : .channels ∈ m := by assumption) (_ : .links ∈ m := by assumption) (_ : .power ∈ m := by assumption)
    (_ : .status ∈ m := by assumption) (_ : .journal ∈ m := by assumption) :
    ∃ s', execRegulatorFault die lost s = .next s' ∧ s'.Same m z := by
  unfold execRegulatorFault
  refine ⟨_, rfl, ?_⟩
  refine State.Same.ite h ?_
  extract_lets -underBinder +onlyGivenNames s1
  have h2 : s1.Same m z := State.retuneDie_same (State.modDie_same h)
  clear_value s1
  extract_lets -underBinder +onlyGivenNames s3
  have h4 : s3.Same m z := State.logError_same (State.setIrq_same h2)
  clear_value s3
  extract_lets -underBinder +onlyGivenNames s5
  have h6 : s5.Same m z := by
    refine State.forEach_same h4 ?_
    intro s7 x9 h8
    extract_lets -underBinder +onlyGivenNames n10
    exact State.Same.ite (State.raisePart_same h8) h8
  clear_value s5
  exact State.Same.ite (State.loseDie_same h6) h6

theorem State.reportHeld_same {s : State} (h : s.Same m z) :
    (State.reportHeld s).Same m z := by
  unfold State.reportHeld
  exact State.setIrq_same (State.bump_same h)

theorem State.acceptThrottle_same {s : State} (h : s.Same m z) (_ : .power ∈ m := by assumption)
    (_ : .board ∈ m := by assumption) :
    (State.acceptThrottle s).Same m z := by
  unfold State.acceptThrottle
  extract_lets -underBinder +onlyGivenNames s1
  have h2 : s1.Same m z := State.modBoard_same h
  clear_value s1
  extract_lets -underBinder +onlyGivenNames s3
  have h4 : s3.Same m z := State.setIrq_same (State.bump_same h2)
  clear_value s3
  exact State.retune_same (State.Same.ite (State.reportHeld_same h4) h4)

theorem execThrottleNEdge_same {level : Bool} {s : State} (h : s.Same m z) (_ : .power ∈ m := by assumption)
    (_ : .board ∈ m := by assumption) :
    ∃ s', execThrottleNEdge level s = .next s' ∧ s'.Same m z := by
  unfold execThrottleNEdge
  refine ⟨_, rfl, ?_⟩
  refine State.Same.ite h ?_
  extract_lets -underBinder +onlyGivenNames n1 n2 s3
  have h4 : s3.Same m z := State.modBoard_same h
  clear_value s3
  extract_lets -underBinder +onlyGivenNames n5
  refine State.Same.ite ?_ h4
  extract_lets -underBinder +onlyGivenNames s6
  have h7 : s6.Same m z := State.modBoard_same h4
  clear_value s6
  exact State.Same.ite h7 (State.acceptThrottle_same h7)

theorem execThrottleAccept_same {s : State} (h : s.Same m z) (_ : .power ∈ m := by assumption) (_ : .board ∈ m := by assumption) :
    ∃ s', execThrottleAccept s = .next s' ∧ s'.Same m z := by
  unfold execThrottleAccept
  refine ⟨_, rfl, ?_⟩
  exact State.Same.ite (State.acceptThrottle_same h) h

theorem State.releaseThrottle_same {s : State} (h : s.Same m z) (_ : .power ∈ m := by assumption)
    (_ : .board ∈ m := by assumption) :
    (State.releaseThrottle s).Same m z := by
  unfold State.releaseThrottle
  exact State.retune_same (State.modBoard_same h)

theorem execThrottleRelease_same {s : State} (h : s.Same m z) (_ : .power ∈ m := by assumption)
    (_ : .board ∈ m := by assumption) :
    ∃ s', execThrottleRelease s = .next s' ∧ s'.Same m z := by
  unfold execThrottleRelease
  refine ⟨_, rfl, ?_⟩
  exact State.Same.ite (State.releaseThrottle_same h) h

theorem execThrottleStable_same {s : State} (h : s.Same m z) (_ : .power ∈ m := by assumption) (_ : .board ∈ m := by assumption) :
    ∃ s', execThrottleStable s = .next s' ∧ s'.Same m z := by
  unfold execThrottleStable
  refine ⟨_, rfl, ?_⟩
  refine State.Same.ite ?_ h
  extract_lets -underBinder +onlyGivenNames s1
  have h2 : s1.Same m z := State.modBoard_same h
  clear_value s1
  exact State.Same.ite h2 (State.releaseThrottle_same h2)

theorem execThrottleHeldReport_same {s : State} (h : s.Same m z) (_ : .board ∈ m := by assumption) :
    ∃ s', execThrottleHeldReport s = .next s' ∧ s'.Same m z := by
  unfold execThrottleHeldReport
  refine ⟨_, rfl, ?_⟩
  exact State.Same.ite (State.reportHeld_same (State.modBoard_same h)) h

theorem State.writePwrCap_same {s : State} {w : Word} (h : s.Same m z) :
    (State.writePwrCap s w).Same m z := by
  unfold State.writePwrCap
  extract_lets -underBinder +onlyGivenNames n1 n2
  exact State.Same.ite (State.ignoreWrite_same h) (State.setReg_same h)

theorem execPwrCap_same {value : Word} {s : State} (h : s.Same m z) :
    ∃ s', execPwrCap value s = .next s' ∧ s'.Same m z := by
  unfold execPwrCap
  refine ⟨_, rfl, ?_⟩
  exact State.Same.ite (State.answerWritten_same (State.writePwrCap_same h)) (State.answerError_same h)

/-! ### Loading -/

theorem State.mapFrame_same {s : State} {p : Nat} {depot : Bool} {dev : Nat} {entry : Nat} (h : s.Same m z)
    (_ : .memory ∈ m := by assumption) (_ : .translation ∈ m := by assumption) (_ : .frames ∈ m := by assumption) :
    (State.mapFrame s p depot dev entry).Same m z := by
  unfold State.mapFrame
  extract_lets -underBinder +onlyGivenNames n1
  split
  · exact h
  · extract_lets -underBinder +onlyGivenNames n2 s3
    have h4 : s3.Same m z := by
      refine State.modStore_same h ?_
      exact fun _ => { Store.Same.refl _ with memory := .inl (by assumption), frames := .inl (by assumption) }
    clear_value s3
    exact State.setEntry_same h4

theorem State.mapWindow_same {s : State} {p : Nat} {depot : Bool} {map : List Byte} (h : s.Same m z)
    (_ : .memory ∈ m := by assumption) (_ : .translation ∈ m := by assumption) (_ : .frames ∈ m := by assumption) :
    (State.mapWindow s p depot map).Same m z := by
  unfold State.mapWindow
  refine State.forEach_same h ?_
  intro s1 x3 h2
  exact State.Same.ite h2 (State.mapFrame_same h2)

theorem State.setWindows_same {s : State} {p : Nat} {q : Quotas} (h : s.Same m z) :
    (State.setWindows s p q).Same m z := by
  unfold State.setWindows
  extract_lets -underBinder +onlyGivenNames s1
  have h2 : s1.Same m z := by
    refine State.forEach_same h ?_
    intro s3 x5 h4
    exact State.setReg_same (State.setReg_same h4)
  clear_value s1
  refine State.forEach_same h2 ?_
  intro s6 x8 h7
  extract_lets -underBinder +onlyGivenNames n9
  exact State.setReg_same h7

theorem State.loadTile_same {s : State} {img : List Byte} {rows : List Nat} {t : Nat} {e : ProgEntry} {i : Nat} {sc : SchedEntry} (h : s.Same m z)
    (_ : .tiles ∈ m := by assumption) (_ : .dstore ∈ m := by assumption) (_ : .istore ∈ m := by assumption) :
    (State.loadTile s img rows t e i sc).Same m z := by
  unfold State.loadTile
  extract_lets -underBinder +onlyGivenNames n1 n2 n3 n4 n5 s6
  have h7 : s6.Same m z := by
    refine State.modStore_same h ?_
    exact fun _ => { Store.Same.refl _ with dstore := .inl (by assumption), istore := .inl (by assumption) }
  clear_value s6
  extract_lets -underBinder +onlyGivenNames s8
  have h9 : s8.Same m z := State.modTile_same h7
  clear_value s8
  extract_lets -underBinder +onlyGivenNames s10
  have h11 : s10.Same m z := by
    refine State.forEach_same h9 ?_
    intro s12 x14 h13
    exact State.setReg_same h13
  clear_value s10
  extract_lets -underBinder +onlyGivenNames s15
  have h16 : s15.Same m z := State.setReg_same h11
  clear_value s15
  extract_lets -underBinder +onlyGivenNames n17
  refine State.forEach_same h16 ?_
  intro s18 x20 h19
  exact State.setReg_same h19

theorem State.loadTiles_same {s : State} {img : List Byte} {rows : List Nat} (h : s.Same m z)
    (_ : .tiles ∈ m := by assumption) (_ : .dstore ∈ m := by assumption) (_ : .istore ∈ m := by assumption) :
    (State.loadTiles s img rows).Same m z := by
  unfold State.loadTiles
  extract_lets -underBinder +onlyGivenNames n1 n2 n3
  refine State.forEach_same h ?_
  intro s4 x6 h5
  exact State.loadTile_same h5

theorem State.loadGradient_same {s : State} {p : Nat} {t : Tensor} (h : s.Same m z) (_ : .memory ∈ m := by assumption)
    (_ : .host ∈ m := by assumption) (_ : .frames ∈ m := by assumption) :
    (State.loadGradient s p t).Same m z := by
  unfold State.loadGradient
  extract_lets -underBinder +onlyGivenNames s1
  have h2 : s1.Same m z := by
    refine State.forEach_same h ?_
    intro s3 x5 h4
    split
    · exact State.modStore_same h4 (fun _ => { Store.Same.refl _ with frames := .inl (by assumption) })
    · exact h4
  clear_value s1
  split
  · exact State.memWrite_same h2
  · exact h2

theorem State.loadTables_same {s : State} {p : Nat} {c : Catalogue} (h : s.Same m z) (_ : .memory ∈ m := by assumption)
    (_ : .host ∈ m := by assumption) :
    (State.loadTables s p c).Same m z := by
  unfold State.loadTables
  refine State.Same.ite h ?_
  refine State.forEach_same h ?_
  intro s1 x3 h2
  split
  · exact State.memWrite_same h2
  · exact h2

theorem State.loadRegisters_same {s : State} {p : Nat} {img : List Byte} {c : Catalogue} (h : s.Same m z) :
    (State.loadRegisters s p img c).Same m z := by
  unfold State.loadRegisters
  extract_lets -underBinder +onlyGivenNames n1 n2 s3
  have h4 : s3.Same m z := State.setReg_same h
  clear_value s3
  extract_lets -underBinder +onlyGivenNames s5
  have h6 : s5.Same m z := by
    refine State.forEach_same h4 ?_
    intro s7 x9 h8
    exact State.setReg_same h8
  clear_value s5
  extract_lets -underBinder +onlyGivenNames s10
  have h11 : s10.Same m z := State.setReg_same h6
  clear_value s10
  extract_lets -underBinder +onlyGivenNames s12
  have h13 : s12.Same m z := State.setReg_same (State.setReg_same h11)
  clear_value s12
  extract_lets -underBinder +onlyGivenNames s14
  have h15 : s14.Same m z := State.setReg_same h13
  clear_value s14
  extract_lets -underBinder +onlyGivenNames s16
  have h17 : s16.Same m z := State.clearRegs_same h15
  clear_value s16
  exact State.Same.ite (State.setReg_same (State.setReg_same h17)) h17

theorem State.clearDigests_same {s : State} {p : Nat} (h : s.Same m z) (_ : .links ∈ m := by assumption) :
    (State.clearDigests s p).Same m z := by
  unfold State.clearDigests
  extract_lets -underBinder +onlyGivenNames s1
  have h2 : s1.Same m z := by
    refine State.forEach_same h ?_
    intro s3 x5 h4
    exact State.clearRegs_same h4
  clear_value s1
  exact State.modLinks_same h2

theorem State.admitTag_same {s : State} {tag : Word} (h : s.Same m z) (_ : .clients ∈ m := by assumption) :
    (State.admitTag s tag).Same m z := by
  exact { h with clients := .inl (by assumption) }

theorem State.loadPolder_same {s : State} {p : Nat} {img : List Byte} (h : s.Same m z) (_ : .tiles ∈ m := by assumption)
    (_ : .memory ∈ m := by assumption) (_ : .dstore ∈ m := by assumption) (_ : .istore ∈ m := by assumption)
    (_ : .host ∈ m := by assumption) (_ : .translation ∈ m := by assumption) (_ : .frames ∈ m := by assumption)
    (_ : .seams ∈ m := by assumption) (_ : .polders ∈ m := by assumption) (_ : .clients ∈ m := by assumption)
    (_ : .channels ∈ m := by assumption) (_ : .links ∈ m := by assumption) (_ : .power ∈ m := by assumption)
    (_ : .journal ∈ m := by assumption) :
    (State.loadPolder s p img).Same m z := by
  unfold State.loadPolder
  extract_lets -underBinder +onlyGivenNames n1 n2 n3 n4 s5
  have h6 : s5.Same m z := State.modPld_same h
  clear_value s5
  extract_lets -underBinder +onlyGivenNames s7
  have h8 : s7.Same m z := State.retune_same (State.calibrate_same h6)
  clear_value s7
  extract_lets -underBinder +onlyGivenNames s9
  have h10 : s9.Same m z := State.setWindows_same h8
  clear_value s9
  extract_lets -underBinder +onlyGivenNames s11
  have h12 : s11.Same m z := State.mapWindow_same (State.mapWindow_same h10)
  clear_value s11
  extract_lets -underBinder +onlyGivenNames s13
  have h14 : s13.Same m z := State.loadTiles_same h12
  clear_value s13
  extract_lets -underBinder +onlyGivenNames s15
  have h16 : s15.Same m z := State.clearDigests_same (State.loadRegisters_same h14)
  clear_value s15
  extract_lets -underBinder +onlyGivenNames s17
  have h18 : s17.Same m z := by
    refine State.loadTables_same ?_
    refine State.forEach_same h16 ?_
    intro s19 x21 h20
    exact State.loadGradient_same h20
  clear_value s17
  extract_lets -underBinder +onlyGivenNames s22
  have h23 : s22.Same m z := State.modJournal_same (State.controlBurst_same (State.admitTag_same h18))
  clear_value s22
  split
  · exact State.reply_same h23
  · exact h23

theorem State.reserveClient_same {s : State} {k : Nat} {tag : Word} (h : s.Same m z) (_ : .clients ∈ m := by assumption) :
    (State.reserveClient s k tag).Same m z := by
  unfold State.reserveClient
  exact State.modClient_same h

theorem State.refuse_same {s : State} {c : Nat} {op : Nat} {p : Nat} {code : Nat} (h : s.Same m z)
    (_ : .channels ∈ m := by assumption) :
    (State.refuse s c op p code).Same m z := by
  unfold State.refuse
  exact State.reply_same h

theorem execCreate_same {c : ChannelId} {s : State} (h : s.Same m z) (_ : .polders ∈ m := by assumption)
    (_ : .clients ∈ m := by assumption) (_ : .channels ∈ m := by assumption) :
    ∃ s', execCreate c s = .next s' ∧ s'.Same m z := by
  unfold execCreate
  refine ⟨_, rfl, ?_⟩
  split
  · exact h
  · extract_lets -underBinder +onlyGivenNames s1
    have h2 : s1.Same m z := State.takeRequest_same h
    clear_value s1
    extract_lets -underBinder +onlyGivenNames n3 n4 n5 n6
    refine State.Same.ite (State.reply_same h2) ?_
    refine State.Same.ite (State.reply_same h2) ?_
    refine State.Same.ite (State.refuse_same h2) ?_
    split
    · exact State.refuse_same h2
    · split
      · exact State.refuse_same h2
      · extract_lets -underBinder +onlyGivenNames s7
        have h8 : s7.Same m z := State.clearRegs_same (State.reserveClient_same h2)
        clear_value s7
        extract_lets -underBinder +onlyGivenNames s9
        have h10 : s9.Same m z := State.setReg_same h8
        clear_value s9
        exact State.modPld_same h10

theorem execCatalogueVerification_same {p : PolderId} {rd : HostRead} {s : State} (h : s.Same m z)
    (_ : .tiles ∈ m := by assumption) (_ : .memory ∈ m := by assumption) (_ : .dstore ∈ m := by assumption)
    (_ : .istore ∈ m := by assumption) (_ : .host ∈ m := by assumption) (_ : .translation ∈ m := by assumption)
    (_ : .frames ∈ m := by assumption) (_ : .seams ∈ m := by assumption) (_ : .polders ∈ m := by assumption)
    (_ : .clients ∈ m := by assumption) (_ : .channels ∈ m := by assumption) (_ : .links ∈ m := by assumption)
    (_ : .power ∈ m := by assumption) (_ : .journal ∈ m := by assumption) :
    ∃ s', execCatalogueVerification p rd s = .next s' ∧ s'.Same m z := by
  unfold execCatalogueVerification
  refine ⟨_, rfl, ?_⟩
  refine State.Same.ite h ?_
  split
  · exact State.endCreate_same h
  · extract_lets -underBinder +onlyGivenNames n1 s2
    have h3 : s2.Same m z := State.askHost_same h
    clear_value s2
    split
    · exact State.endCreate_same (State.setReg_same h3)
    · exact State.loadPolder_same h3

/-! ### Polder -/

theorem execClientClear_same {c : ChannelId} {s : State} (h : s.Same m z) (_ : .clients ∈ m := by assumption)
    (_ : .channels ∈ m := by assumption) :
    ∃ s', execClientClear c s = .next s' ∧ s'.Same m z := by
  unfold execClientClear
  refine ⟨_, rfl, ?_⟩
  split
  · exact h
  · have h1 : (s.takeRequest c.toNat).Same m z := State.takeRequest_same h
    refine State.Same.ite (State.reply_same h1) (State.Same.ite (State.reply_same h1) ?_)
    refine State.Same.ite (State.reply_same h1) (State.reply_same (State.Same.ite h1 ?_))
    exact { h1 with clients := .inl (by assumption) }

theorem State.receiveCause_same {s : State} {c : Cause} (h : s.Same m z) (_ : .polders ∈ m := by assumption)
    (_ : .conservators ∈ m := by assumption) (_ : .channels ∈ m := by assumption) (_ : .links ∈ m := by assumption) :
    (State.receiveCause s c).Same m z := by
  unfold State.receiveCause
  extract_lets -underBinder +onlyGivenNames n1
  refine State.Same.ite (State.startClearing_same h) ?_
  split
  · extract_lets -underBinder +onlyGivenNames s2
    have h3 : s2.Same m z := State.bump_same h
    clear_value s2
    split
    · exact State.Same.ite (State.modPld_same h3) h3
    · exact h3
  · exact State.bump_same h
  · exact h

theorem execFaultCause_same {i : Nat} {s : State} (h : s.Same m z) (_ : .seams ∈ m := by assumption)
    (_ : .polders ∈ m := by assumption) (_ : .conservators ∈ m := by assumption) (_ : .channels ∈ m := by assumption)
    (_ : .links ∈ m := by assumption) :
    ∃ s', execFaultCause i s = .next s' ∧ s'.Same m z := by
  unfold execFaultCause
  refine ⟨_, rfl, ?_⟩
  split
  · exact h
  · exact State.receiveCause_same (State.controlCrosses_same (State.modNets_same h))

theorem State.abandon_same {s : State} {p : Nat} (h : s.Same m z) :
    (State.abandon s p).Same m z := by
  unfold State.abandon
  extract_lets -underBinder +onlyGivenNames n1 s2
  have h3 : s2.Same m z := State.modHif_same h (fun _ => { HostIf.Same.refl _ with })
  clear_value s2
  exact State.modStore_same h3 (fun _ => { Store.Same.refl _ with })

theorem State.clearTile_same {s : State} {t : Nat} (h : s.Same m z) (_ : .tiles ∈ m := by assumption)
    (_ : .spad ∈ m := by assumption) (_ : .dstore ∈ m := by assumption) (_ : .istore ∈ m := by assumption) :
    (State.clearTile s t).Same m z := by
  unfold State.clearTile
  extract_lets -underBinder +onlyGivenNames s1
  have h2 : s1.Same m z := by
    refine State.forEach_same h ?_
    intro s3 x5 h4
    exact State.endSlotWait_same h4
  clear_value s1
  extract_lets -underBinder +onlyGivenNames s6
  have h7 : s6.Same m z := State.modTile_same (State.setReg_same (State.countStall_same h2))
  clear_value s6
  refine State.modStore_same h7 ?_
  exact fun _ => { Store.Same.refl _ with spad := .inl (by assumption), dstore := .inl (by assumption), istore := .inl (by assumption) }

theorem State.clearShare_same {s : State} {p : Nat} {d : Nat} (h : s.Same m z) (_ : .memory ∈ m := by assumption) :
    (State.clearShare s p d).Same m z := by
  unfold State.clearShare
  extract_lets -underBinder +onlyGivenNames n1
  exact State.modStore_same h (fun _ => { Store.Same.refl _ with memory := .inl (by assumption) })

theorem State.clearSlots_same {s : State} {p : Nat} (h : s.Same m z) (_ : .conservators ∈ m := by assumption)
    (_ : .links ∈ m := by assumption) :
    (State.clearSlots s p).Same m z := by
  unfold State.clearSlots
  extract_lets -underBinder +onlyGivenNames s1
  have h2 : s1.Same m z := by
    refine State.forEach_same h ?_
    intro s3 x5 h4
    exact State.modCns_same (State.clearRegs_same h4)
  clear_value s1
  exact State.modLinks_same h2

theorem State.release_same {s : State} {p : Nat} (h : s.Same m z) (_ : .translation ∈ m := by assumption)
    (_ : .frames ∈ m := by assumption) (_ : .polders ∈ m := by assumption) (_ : .power ∈ m := by assumption) :
    (State.release s p).Same m z := by
  unfold State.release
  extract_lets -underBinder +onlyGivenNames n1 s2
  have h3 : s2.Same m z := by
    refine State.modStore_same h ?_
    exact fun _ => { Store.Same.refl _ with translation := .inl (by assumption), frames := .inl (by assumption) }
  clear_value s2
  extract_lets -underBinder +onlyGivenNames s4
  have h5 : s4.Same m z := State.clearRegs_same (State.clearRegs_same h3)
  clear_value s4
  extract_lets -underBinder +onlyGivenNames s6
  have h7 : s6.Same m z := State.setReg_same h5
  clear_value s6
  extract_lets -underBinder +onlyGivenNames s8
  have h9 : s8.Same m z := State.setReg_same h7
  clear_value s8
  extract_lets -underBinder +onlyGivenNames s10
  have h11 : s10.Same m z := State.modPld_same h9
  clear_value s10
  exact State.retune_same (State.calibrate_same h11)

theorem State.countJob_same {s : State} {p : Nat} {column : Nat} (h : s.Same m z) (_ : .clients ∈ m := by assumption)
    (_ : .journal ∈ m := by assumption) :
    (State.countJob s p column).Same m z := by
  unfold State.countJob
  refine State.modJournal_same ?_
  exact { h with clients := .inl (by assumption) }

theorem State.recordFault_same {s : State} {p : Nat} {x : Polder} {c : Cause} (h : s.Same m z)
    (_ : .vfRegs ∈ m := by assumption) (_ : .host ∈ m := by assumption) (_ : .clients ∈ m := by assumption)
    (_ : .journal ∈ m := by assumption) :
    (State.recordFault s p x c).Same m z := by
  unfold State.recordFault
  extract_lets -underBinder +onlyGivenNames n1 s2
  have h3 : s2.Same m z := by
    refine State.forEach_same h ?_
    intro s4 x6 h5
    exact State.setReg_same h5
  clear_value s2
  extract_lets -underBinder +onlyGivenNames s7
  have h8 : s7.Same m z := State.setReg_same h3
  clear_value s7
  extract_lets -underBinder +onlyGivenNames s9
  have h10 : s9.Same m z := State.postVfFault_same (State.postPfFault_same h8)
  clear_value s9
  extract_lets -underBinder +onlyGivenNames s11
  have h12 : s11.Same m z := State.Same.ite (State.countJob_same h10) h10
  clear_value s11
  exact State.setIrq_same h12

theorem State.disableQueues_same {s : State} {p : Nat} (h : s.Same m z) (_ : .vfRegs ∈ m := by assumption) :
    (State.disableQueues s p).Same m z := by
  unfold State.disableQueues
  refine State.forEach_same h ?_
  intro s1 x3 h2
  exact State.setVfReg_same h2

theorem State.idleChannel_same {s : State} {c : Nat} (h : s.Same m z) (_ : .polders ∈ m := by assumption)
    (_ : .channels ∈ m := by assumption) :
    (State.idleChannel s c).Same m z := by
  unfold State.idleChannel
  extract_lets -underBinder +onlyGivenNames s1
  have h2 : s1.Same m z := State.modHif_same (State.modChan_same h) (fun _ => { HostIf.Same.refl _ with })
  clear_value s1
  refine State.forEach_same h2 ?_
  intro s3 x5 h4
  exact State.modPld_same h4

theorem State.resetVf_same {s : State} {p : Nat} (h : s.Same m z) (_ : .vfRegs ∈ m := by assumption)
    (_ : .polders ∈ m := by assumption) (_ : .channels ∈ m := by assumption)
    (_ : .policy ∈ m := by assumption) : (s.resetVf p).Same m z := by
  unfold State.resetVf
  extract_lets -underBinder +onlyGivenNames n1 s2
  have h3 : s2.Same m z := State.modHif_same (State.clearRegs_same h) (fun _ => { policy := .inl (by assumption) })
  clear_value s2
  exact State.idleChannel_same { h3 with vfRegs := .inl (by assumption) }

theorem State.freeOrDrain_same {s : State} {p : Nat} (h : s.Same m z) (_ : .polders ∈ m := by assumption) :
    (State.freeOrDrain s p).Same m z := by
  unfold State.freeOrDrain
  exact State.Same.ite (State.modPld_same h) (State.modPld_same h)

theorem State.dropMessages_same {s : State} {p : Nat} {tiles : List Nat} (h : s.Same m z) :
    (State.dropMessages s p tiles).Same m z := by
  unfold State.dropMessages
  extract_lets -underBinder +onlyGivenNames n1 s2
  have h3 : s2.Same m z := State.Same.ite h (State.bump_same h)
  clear_value s2
  exact State.modNets_same h3

theorem execClearing_same {p : PolderId} {s : State} (h : s.Same m z) (_ : .vfRegs ∈ m := by assumption)
    (_ : .tiles ∈ m := by assumption) (_ : .memory ∈ m := by assumption) (_ : .spad ∈ m := by assumption)
    (_ : .dstore ∈ m := by assumption) (_ : .istore ∈ m := by assumption) (_ : .host ∈ m := by assumption)
    (_ : .translation ∈ m := by assumption) (_ : .frames ∈ m := by assumption) (_ : .seams ∈ m := by assumption)
    (_ : .polders ∈ m := by assumption) (_ : .clients ∈ m := by assumption) (_ : .conservators ∈ m := by assumption)
    (_ : .channels ∈ m := by assumption) (_ : .policy ∈ m := by assumption) (_ : .links ∈ m := by assumption)
    (_ : .power ∈ m := by assumption) (_ : .journal ∈ m := by assumption) :
    ∃ s', execClearing p s = .next s' ∧ s'.Same m z := by
  unfold execClearing
  refine ⟨_, rfl, ?_⟩
  refine State.Same.ite h ?_
  extract_lets -underBinder +onlyGivenNames n1 s2
  have h3 : s2.Same m z := State.abandon_same (State.controlBurst_same h)
  clear_value s2
  extract_lets -underBinder +onlyGivenNames s4
  have h5 : s4.Same m z := State.dropXl_same h3
  clear_value s4
  extract_lets -underBinder +onlyGivenNames s6
  have h7 : s6.Same m z := by
    refine State.forEach_same h5 ?_
    intro s8 x10 h9
    exact State.clearTile_same h9
  clear_value s6
  extract_lets -underBinder +onlyGivenNames s11
  have h12 : s11.Same m z := by
    refine State.forEach_same h7 ?_
    intro s13 x15 h14
    exact State.clearShare_same h14
  clear_value s11
  extract_lets -underBinder +onlyGivenNames s16
  have h17 : s16.Same m z := State.dropMessages_same (State.clearSlots_same h12)
  clear_value s16
  extract_lets -underBinder +onlyGivenNames s18
  have h19 : s18.Same m z := by
    refine State.forEach_same h17 ?_
    intro s20 x22 h21
    extract_lets -underBinder +onlyGivenNames n23
    exact State.setReg_same h21
  clear_value s18
  extract_lets -underBinder +onlyGivenNames s24
  have h25 : s24.Same m z := State.setReg_same h19
  clear_value s24
  extract_lets -underBinder +onlyGivenNames s26
  have h27 : s26.Same m z := State.release_same h25
  clear_value s26
  extract_lets -underBinder +onlyGivenNames s28
  have h29 : s28.Same m z := by
    unfold s28
    split
    · exact State.recordFault_same h27
    · exact h27
  clear_value s28
  extract_lets -underBinder +onlyGivenNames s30
  have h31 : s30.Same m z := State.setReg_same (State.setReg_same h29)
  clear_value s30
  extract_lets -underBinder +onlyGivenNames s32
  have h33 : s32.Same m z := State.disableQueues_same h31
  clear_value s32
  extract_lets -underBinder +onlyGivenNames s34
  have h35 : s34.Same m z := State.Same.ite (State.resetVf_same h33) h33
  clear_value s34
  exact State.freeOrDrain_same h35

theorem State.completeJob_same {s : State} {n : Nat} (h : s.Same m z) (_ : .vfRegs ∈ m := by assumption)
    (_ : .host ∈ m := by assumption) (_ : .polders ∈ m := by assumption) (_ : .clients ∈ m := by assumption)
    (_ : .conservators ∈ m := by assumption) (_ : .channels ∈ m := by assumption) (_ : .links ∈ m := by assumption)
    (_ : .journal ∈ m := by assumption) :
    (State.completeJob s n).Same m z := by
  unfold State.completeJob
  refine State.posting_same h ?_
  intro s1 h2
  extract_lets -underBinder +onlyGivenNames s3
  have h4 : s3.Same m z := State.postIfOn_same h2
  clear_value s3
  extract_lets -underBinder +onlyGivenNames n5 s6
  have h7 : s6.Same m z := State.setIrq_same (State.countJob_same h4)
  clear_value s6
  extract_lets -underBinder +onlyGivenNames s8
  have h9 : s8.Same m z := State.modPld_same h7
  clear_value s8
  extract_lets -underBinder +onlyGivenNames s10
  have h11 : s10.Same m z := State.modLinks_same h9
  clear_value s10
  exact State.Same.ite (State.startClearing_same h11) h11

theorem execJobCompletion_same {p : PolderId} {s : State} (h : s.Same m z) (_ : .vfRegs ∈ m := by assumption)
    (_ : .host ∈ m := by assumption) (_ : .polders ∈ m := by assumption) (_ : .clients ∈ m := by assumption)
    (_ : .conservators ∈ m := by assumption) (_ : .channels ∈ m := by assumption) (_ : .links ∈ m := by assumption)
    (_ : .journal ∈ m := by assumption) :
    ∃ s', execJobCompletion p s = .next s' ∧ s'.Same m z := by
  unfold execJobCompletion
  refine ⟨_, rfl, ?_⟩
  exact State.Same.ite (State.completeJob_same h) h

theorem State.countIntakeWait_same {s : State} {p : Nat} (h : s.Same m z) :
    (State.countIntakeWait s p).Same m z := by
  unfold State.countIntakeWait
  exact State.bump_same h

theorem execRetire_same {c : ChannelId} {s : State} (h : s.Same m z) (_ : .polders ∈ m := by assumption)
    (_ : .conservators ∈ m := by assumption) (_ : .channels ∈ m := by assumption) (_ : .links ∈ m := by assumption) :
    ∃ s', execRetire c s = .next s' ∧ s'.Same m z := by
  unfold execRetire
  refine ⟨_, rfl, ?_⟩
  split
  · exact h
  · extract_lets -underBinder +onlyGivenNames s1
    have h2 : s1.Same m z := State.takeRequest_same h
    clear_value s1
    extract_lets -underBinder +onlyGivenNames n3 n4
    refine State.Same.ite (State.reply_same h2) ?_
    refine State.Same.ite (State.reply_same h2) ?_
    split
    · exact State.reply_same (State.startClearing_same h2)
    · exact State.reply_same (State.startClearing_same h2)
    · exact State.reply_same (State.modPld_same (State.countIntakeWait_same h2))
    · exact State.reply_same h2

theorem State.tearDown_same {s : State} {p : Nat} (h : s.Same m z) (_ : .vfRegs ∈ m := by assumption)
    (_ : .host ∈ m := by assumption) (_ : .polders ∈ m := by assumption) (_ : .clients ∈ m := by assumption)
    (_ : .conservators ∈ m := by assumption) (_ : .channels ∈ m := by assumption) (_ : .links ∈ m := by assumption)
    (_ : .journal ∈ m := by assumption) :
    (State.tearDown s p).Same m z := by
  unfold State.tearDown
  extract_lets -underBinder +onlyGivenNames s1
  have h2 : s1.Same m z := State.Same.ite (State.completeJob_same h) h
  clear_value s1
  split
  · exact State.startClearing_same h2
  · exact State.startClearing_same h2
  · exact h2

theorem execTeardown_same {c : ChannelId} {s : State} (h : s.Same m z) (_ : .vfRegs ∈ m := by assumption)
    (_ : .host ∈ m := by assumption) (_ : .polders ∈ m := by assumption) (_ : .clients ∈ m := by assumption)
    (_ : .conservators ∈ m := by assumption) (_ : .channels ∈ m := by assumption) (_ : .links ∈ m := by assumption)
    (_ : .journal ∈ m := by assumption) :
    ∃ s', execTeardown c s = .next s' ∧ s'.Same m z := by
  unfold execTeardown
  refine ⟨_, rfl, ?_⟩
  split
  · exact h
  · extract_lets -underBinder +onlyGivenNames s1
    have h2 : s1.Same m z := State.takeRequest_same h
    clear_value s1
    extract_lets -underBinder +onlyGivenNames n3 n4
    refine State.Same.ite (State.reply_same h2) ?_
    refine State.Same.ite (State.reply_same h2) ?_
    split
    · exact State.reply_same (State.startClearing_same h2)
    · exact State.reply_same (State.tearDown_same h2)
    · exact State.reply_same (State.startClearing_same h2)
    · exact State.reply_same h2

theorem execWatchdogExpiry_same {e : SharedEngine} {p : PolderId} {s : State} (h : s.Same m z)
    (_ : .tiles ∈ m := by assumption) (_ : .conservators ∈ m := by assumption) (_ : .links ∈ m := by assumption) :
    ∃ s', execWatchdogExpiry e p s = .next s' ∧ s'.Same m z := by
  unfold execWatchdogExpiry
  refine ⟨_, rfl, ?_⟩
  refine State.Same.ite h ?_
  extract_lets -underBinder +onlyGivenNames s1
  have h2 : s1.Same m z := State.noteWait_same h
  clear_value s1
  extract_lets -underBinder +onlyGivenNames s3
  have h4 : s3.Same m z := State.modSlot_same h2
  clear_value s3
  exact State.Same.ite (State.raiseMaster_same h4) (State.raiseMaster_same h4)

theorem State.endTag_same {s : State} {req : Nat} (h : s.Same m z) (_ : .polders ∈ m := by assumption) :
    (State.endTag s req).Same m z := by
  unfold State.endTag
  split
  · exact h
  · extract_lets -underBinder +onlyGivenNames s1
    have h2 : s1.Same m z := State.modHif_same h (fun _ => { HostIf.Same.refl _ with })
    clear_value s1
    exact State.Same.ite (State.setIrq_same (State.modPld_same h2)) h2

theorem State.endHostDesc_same {s : State} {k : Nat} {p : Nat} (h : s.Same m z) (_ : .links ∈ m := by assumption) :
    (State.endHostDesc s k p).Same m z := by
  unfold State.endHostDesc
  exact State.modSlot_same h

theorem State.landHost_same {s : State} {r : Req} {x : Target} (h : s.Same m z) (_ : .links ∈ m := by assumption) :
    (State.landHost s r x).Same m z := by
  unfold State.landHost
  extract_lets -underBinder +onlyGivenNames n1 s2
  have h3 : s2.Same m z := State.Same.ite (State.noteWait_same h) h
  clear_value s2
  refine State.Same.ite (State.modSlot_same (State.modReq_same h3)) ?_
  exact State.endHostDesc_same (State.respond_same h3)

theorem State.failHost_same {s : State} {r : Req} {code : Nat} (h : s.Same m z) (_ : .links ∈ m := by assumption) :
    (State.failHost s r code).Same m z := by
  unfold State.failHost
  extract_lets -underBinder +onlyGivenNames s1
  have h2 : s1.Same m z := State.Same.ite (State.noteWait_same h) h
  clear_value s1
  exact State.endHostDesc_same (State.hostError_same (State.noteFaultVa_same (State.loseReq_same h2)))

theorem execHostCompletion_same {req : Nat} {st : HostStatus} {s : State} (h : s.Same m z) (_ : .tiles ∈ m := by assumption)
    (_ : .memory ∈ m := by assumption) (_ : .host ∈ m := by assumption) (_ : .polders ∈ m := by assumption)
    (_ : .conservators ∈ m := by assumption) (_ : .links ∈ m := by assumption) :
    ∃ s', execHostCompletion req st s = .next s' ∧ s'.Same m z := by
  unfold execHostCompletion
  refine ⟨_, rfl, ?_⟩
  split
  · exact State.endTag_same h
  · split
    · exact h
    · refine State.Same.ite h ?_
      refine State.Same.ite (State.endHostDesc_same (State.respond_same (State.landWrite_same h))) ?_
      exact State.Same.ite (State.landHost_same h) (State.failHost_same h)

theorem execCompletionTimeout_same {req : Nat} {s : State} (h : s.Same m z) (_ : .polders ∈ m := by assumption)
    (_ : .links ∈ m := by assumption) :
    ∃ s', execCompletionTimeout req s = .next s' ∧ s'.Same m z := by
  unfold execCompletionTimeout
  refine ⟨_, rfl, ?_⟩
  split
  · exact State.endTag_same h
  · exact State.Same.ite (State.failHost_same h) h

end Sys2Proof.Machine
end

