-- ==== Sys2Proof/Laws/FrameLinks.lean ====
section
/-!
SUPPORT. Which parts of the state the definitions of links, ports, the reduction sequence, the slot schedule and training leave unchanged.
-/

-- one proof at a time: the package as one text would start more threads than its memory limit allows
set_option Elab.async false

namespace Sys2Proof.Machine

variable {m : List Part} {z : State}



/-! ### Links -/

theorem State.engineReads_same {s : State} {p : Nat} {die : Nat} {x : Target} {n : Nat} (h : s.Same m z)
    (_ : .seams ∈ m := by assumption) :
    (State.engineReads s p die x n).Same m z := by
  unfold State.engineReads
  exact State.polderCrosses_same (State.targetSlots_same (State.polderCrosses_same h))

theorem State.engineWrites_same {s : State} {p : Nat} {die : Nat} {x : Target} {n : Nat} (h : s.Same m z)
    (_ : .seams ∈ m := by assumption) :
    (State.engineWrites s p die x n).Same m z := by
  unfold State.engineWrites
  exact State.polderCrosses_same (State.targetSlots_same (State.polderCrosses_same h))

theorem State.engineFault_same {s : State} {p : Nat} {kind : Nat} {unit : Nat} {code : Nat} {va : Nat} (h : s.Same m z)
    (_ : .tiles ∈ m := by assumption) (_ : .conservators ∈ m := by assumption) (_ : .links ∈ m := by assumption) :
    (State.engineFault s p kind unit code va).Same m z := by
  unfold State.engineFault
  exact State.raiseMaster_same (State.recordXl_same h)

theorem State.readPiece_same {s : State} {die : Nat} {p : Nat} {kind : Nat} {unit : Nat} {va : Nat} {len : Nat} {ecc : Ecc} (h : s.Same m z)
    (_ : .tiles ∈ m := by assumption) (_ : .frames ∈ m := by assumption) (_ : .seams ∈ m := by assumption)
    (_ : .conservators ∈ m := by assumption) (_ : .links ∈ m := by assumption) (_ : .journal ∈ m := by assumption)
    (_ : .spares ∈ m := by assumption) :
    (State.readPiece s die p kind unit va len ecc).2.Same m z := by
  unfold State.readPiece
  split
  · exact State.engineFault_same h
  · split
    · exact h
    · split
      · exact State.hostError_same h
      extract_lets -underBinder +onlyGivenNames s1
      have h2 : s1.Same m z := State.countRead_same (State.engineReads_same h)
      clear_value s1
      split
      · exact State.memLost_same h2
      · exact State.memCorrected_same h2
      · exact h2

theorem State.readPieces_same {s : State} {die p kind unit : Nat} {ecc : List Ecc} {l : List (Nat × Nat)}
    (h : s.Same m z) (_ : .tiles ∈ m := by assumption) (_ : .frames ∈ m := by assumption) (_ : .seams ∈ m := by assumption)
    (_ : .conservators ∈ m := by assumption) (_ : .links ∈ m := by assumption) (_ : .journal ∈ m := by assumption)
    (_ : .spares ∈ m := by assumption) :
    (s.readPieces die p kind unit ecc l).2.Same m z := by
  induction l generalizing s ecc with
  | nil => exact h
  | cons c cs ih =>
    have h1 : (s.readPiece die p kind unit c.1 c.2 (eccAt ecc 0)).2.Same m z := State.readPiece_same h
    simp only [State.readPieces]
    split
    next s' e => rw [e] at h1; exact h1
    next bs s' e =>
      rw [e] at h1
      have h2 := ih (s := s') (ecc := ecc.drop 1) h1
      split
      next s'' e' => rw [e'] at h2; exact h2
      next r' s'' e' => rw [e'] at h2; exact h2

theorem State.masterRead_same {s : State} {die : Nat} {p : Nat} {kind : Nat} {unit : Nat} {va : Nat} {len : Nat} {ecc : List Ecc} (h : s.Same m z)
    (_ : .tiles ∈ m := by assumption) (_ : .frames ∈ m := by assumption) (_ : .seams ∈ m := by assumption)
    (_ : .conservators ∈ m := by assumption) (_ : .links ∈ m := by assumption) (_ : .journal ∈ m := by assumption)
    (_ : .spares ∈ m := by assumption) :
    (State.masterRead s die p kind unit va len ecc).2.Same m z := by
  unfold State.masterRead
  exact State.readPieces_same h

theorem State.writePieces_same {s : State} {die p kind unit : Nat} {bs : List Byte} {l : List (Nat × Nat)}
    (h : s.Same m z) (_ : .tiles ∈ m := by assumption) (_ : .memory ∈ m := by assumption) (_ : .host ∈ m := by assumption)
    (_ : .seams ∈ m := by assumption) (_ : .conservators ∈ m := by assumption) (_ : .links ∈ m := by assumption) :
    (s.writePieces die p kind unit bs l).2.Same m z := by
  induction l generalizing s bs with
  | nil => exact h
  | cons c cs ih =>
    simp only [State.writePieces]
    split
    · exact State.engineFault_same h
    · split
      · exact State.raiseMaster_same (State.showViolation_same h)
      · split
        · exact h
        · split
          · exact State.hostError_same h
          exact ih (State.landWrite_same (State.closeMerges_same (State.engineWrites_same h)))

theorem State.masterWrite_same {s : State} {die : Nat} {p : Nat} {kind : Nat} {unit : Nat} {va : Nat} {bs : List Byte} (h : s.Same m z)
    (_ : .tiles ∈ m := by assumption) (_ : .memory ∈ m := by assumption) (_ : .host ∈ m := by assumption)
    (_ : .seams ∈ m := by assumption) (_ : .conservators ∈ m := by assumption) (_ : .links ∈ m := by assumption) :
    (State.masterWrite s die p kind unit va bs).2.Same m z := by
  unfold State.masterWrite
  exact State.writePieces_same h

theorem State.dropMessage_same {s : State} {n : Nat} (h : s.Same m z) :
    (State.dropMessage s n).Same m z := by
  unfold State.dropMessage
  exact State.setIrq_same (State.bump_same h)

theorem State.digest_same {s : State} {sum : Nat} {count : Nat} {z4 : LinkMsg} (h : s.Same m z) :
    (State.digest s sum count z4).Same m z := by
  unfold State.digest
  exact State.bump64_same (State.bump64_same h)

theorem State.useCtx_same {s : State} {n : Nat} {peer : Nat} {f : PeerCtx → PeerCtx} (h : s.Same m z)
    (_ : .links ∈ m := by assumption) :
    (State.useCtx s n peer f).Same m z := by
  unfold State.useCtx
  extract_lets -underBinder +onlyGivenNames n1
  exact State.modLinks_same h

theorem State.putFlit_same {s : State} {n : Nat} {null : Bool} {f : Flit} (h : s.Same m z) (_ : .links ∈ m := by assumption) :
    (State.putFlit s n null f).Same m z := by
  unfold State.putFlit
  extract_lets -underBinder +onlyGivenNames n1 n2 n3 s4
  have h5 : s4.Same m z := State.modLinks_same (State.bump64_same h)
  clear_value s4
  exact State.modPort_same h5

theorem State.putNew_same {s : State} {n : Nat} {f : Flit} (h : s.Same m z) (_ : .links ∈ m := by assumption) :
    (State.putNew s n f).Same m z := by
  unfold State.putNew
  extract_lets -underBinder +onlyGivenNames n1
  exact State.modPort_same (State.putFlit_same h)

theorem State.putNulls_same {s : State} {n k : Nat} (h : s.Same m z)
    (_ : .links ∈ m := by assumption) : (s.putNulls n k).Same m z := by
  induction k generalizing s with
  | zero => exact h
  | succ k ih =>
    unfold State.putNulls
    exact State.Same.ite (ih (State.putFlit_same h)) h

theorem State.settlePorts_same {s : State} (h : s.Same m z) (_ : .links ∈ m := by assumption) :
    (State.settlePorts s).Same m z := by
  unfold State.settlePorts
  refine State.forEach_same h ?_
  intro s1 x3 h2
  exact State.Same.ite (State.putNulls_same h2) h2

theorem State.giveFlits_same {s : State} {o : OutMsg} {count : Nat} (h : s.Same m z) (_ : .links ∈ m := by assumption) :
    (State.giveFlits s o count).Same m z := by
  unfold State.giveFlits
  split
  · exact State.Same.ite (State.modPort_same h) h
  · exact h

theorem State.giveBack_same {s : State} {o : OutMsg} (h : s.Same m z) (_ : .links ∈ m := by assumption) :
    (State.giveBack s o).Same m z := by
  unfold State.giveBack
  exact State.giveFlits_same h

theorem State.sendFlit_same {s : State} {n : Nat} {o : OutMsg} {f : Flit} (h : s.Same m z) (_ : .links ∈ m := by assumption) :
    (State.sendFlit s n o f).Same m z := by
  unfold State.sendFlit
  extract_lets -underBinder +onlyGivenNames n1 s2
  have h3 : s2.Same m z := State.giveFlits_same (State.modPort_same (State.putNew_same h))
  clear_value s2
  exact State.Same.ite (State.modLinks_same h3) h3

theorem State.pumpFlits_same {s : State} {n k : Nat} (h : s.Same m z)
    (_ : .links ∈ m := by assumption) : (s.pumpFlits n k).Same m z := by
  induction k generalizing s with
  | zero => exact h
  | succ k ih =>
    unfold State.pumpFlits
    dsimp only
    split
    · exact h
    · split
      · exact h
      · exact ih (State.sendFlit_same h)

theorem State.putFrame_same {s : State} {n : Nat} {type : Nat} {z4 : LinkMsg} (h : s.Same m z) (_ : .links ∈ m := by assumption) :
    (State.putFrame s n type z4).Same m z := by
  unfold State.putFrame
  extract_lets -underBinder +onlyGivenNames n1
  exact State.modLinks_same (State.bump64_same h)

theorem State.pauseChannel_same {s : State} {n : Nat} {vc : BitVec 2} (h : s.Same m z) (_ : .links ∈ m := by assumption) :
    (State.pauseChannel s n vc).Same m z := by
  unfold State.pauseChannel
  extract_lets -underBinder +onlyGivenNames n1
  have h2 : n1.2.Same m z := State.draw_same h
  clear_value n1
  refine State.Same.ite ?_ h2
  extract_lets -underBinder +onlyGivenNames n3
  exact State.modLinks_same (State.bump64_same h2)

theorem State.emit_same {s : State} {n : Nat} {o : OutMsg} (h : s.Same m z) (_ : .links ∈ m := by assumption) :
    (State.emit s n o).Same m z := by
  unfold State.emit
  refine State.Same.ite (State.modLinks_same (State.giveBack_same (State.putFrame_same h))) ?_
  extract_lets -underBinder +onlyGivenNames n1 n2 n3 n4
  exact State.modLinks_same (State.useCtx_same (State.giveBack_same (State.putFrame_same h)))

theorem State.pumpFrames_same {s : State} {n : Nat} {kept l : List OutMsg} (h : s.Same m z)
    (_ : .links ∈ m := by assumption) :
    (s.pumpFrames n kept l).Same m z := by
  induction l generalizing s kept with
  | nil => exact State.modPort_same h
  | cons o rest ih =>
    unfold State.pumpFrames
    split
    · exact ih h
    · exact ih (State.emit_same h)

theorem State.countPortStall_same {s : State} {n : Nat} (h : s.Same m z) (_ : .links ∈ m := by assumption) :
    (State.countPortStall s n).Same m z := by
  unfold State.countPortStall
  exact State.modPort_same (State.bump_same h)

theorem State.dropWaiting_same {s : State} {n : Nat} (h : s.Same m z) (_ : .links ∈ m := by assumption) :
    (State.dropWaiting s n).Same m z := by
  unfold State.dropWaiting
  refine State.modPort_same ?_
  refine State.countPortStall_same ?_
  refine State.forEach_same h ?_
  intro s1 x3 h2
  exact State.dropMessage_same (State.giveFlits_same h2)

theorem State.pumpPort_same {s : State} {n : Nat} (h : s.Same m z) (_ : .links ∈ m := by assumption) :
    (State.pumpPort s n).Same m z := by
  unfold State.pumpPort
  extract_lets -underBinder +onlyGivenNames n1
  refine State.Same.ite h ?_
  extract_lets -underBinder +onlyGivenNames s2
  have h3 : s2.Same m z := State.countPortStall_same h
  clear_value s2
  extract_lets -underBinder +onlyGivenNames n4
  exact State.Same.ite (State.pumpFlits_same h3) (State.pumpFrames_same h3)

theorem State.enqueue_same {s : State} {n : Nat} {type : Nat} {z4 : LinkMsg} {came : Option (Nat × Nat)} (h : s.Same m z)
    (_ : .links ∈ m := by assumption) :
    (State.enqueue s n type z4 came).Same m z := by
  unfold State.enqueue
  extract_lets -underBinder +onlyGivenNames n1
  exact State.pumpPort_same (State.modPort_same h)

theorem State.number_same {s : State} {n : Nat} {p : Nat} {z4 : LinkMsg} (h : s.Same m z) (_ : .links ∈ m := by assumption) :
    (State.number s n p z4).2.Same m z := by
  unfold State.number
  extract_lets -underBinder +onlyGivenNames n1 n2 n3
  exact State.digest_same (State.modLinks_same h)

theorem State.handOver_same {s : State} {n : Nat} {p : Nat} {type : Nat} {z5 : LinkMsg} (h : s.Same m z)
    (_ : .links ∈ m := by assumption) :
    (State.handOver s n p type z5).Same m z := by
  unfold State.handOver
  extract_lets -underBinder +onlyGivenNames n1
  have h2 : n1.2.Same m z := State.number_same h
  clear_value n1
  exact State.enqueue_same h2

theorem State.sendDirect_same {s : State} {p : Nat} {type : Nat} {z4 : LinkMsg} (h : s.Same m z)
    (_ : .links ∈ m := by assumption) :
    (State.sendDirect s p type z4).Same m z := by
  unfold State.sendDirect
  split
  · exact State.handOver_same h
  · exact State.dropMessage_same h
  · exact h

theorem State.signalTile_same {s : State} {n : Nat} {p : Nat} {tile : Nat} {ctr : Nat} (h : s.Same m z)
    (_ : .seams ∈ m := by assumption) :
    (State.signalTile s n p tile ctr).Same m z := by
  unfold State.signalTile
  split
  · exact State.Same.ite h (State.modNets_same (State.signalCrosses_same h))
  · exact h

theorem State.takeEngine_same {s : State} {k : Nat} {p : Nat} (h : s.Same m z) (_ : .polders ∈ m := by assumption)
    (_ : .links ∈ m := by assumption) :
    (State.takeEngine s k p).Same m z := by
  unfold State.takeEngine
  extract_lets -underBinder +onlyGivenNames s1
  have h2 : s1.Same m z := by
    refine State.forEach_same h ?_
    intro s3 x5 h4
    extract_lets -underBinder +onlyGivenNames s6
    have h7 : s6.Same m z := State.bump_same (State.modSlot_same h4)
    clear_value s6
    exact State.Same.ite h7 (State.setIrq_same (State.modPld_same h7))
  clear_value s1
  exact State.modSlot_same (State.useSlot_same h2)

theorem State.remoteWait_same {s : State} {k : Nat} {p : Nat} (h : s.Same m z) (_ : .links ∈ m := by assumption) :
    (State.remoteWait s k p).Same m z := by
  unfold State.remoteWait
  extract_lets -underBinder +onlyGivenNames n1
  exact State.Same.ite h (State.modSlot_same h)

theorem State.noteArrival_same {s : State} {k : Nat} {p : Nat} (h : s.Same m z) (_ : .links ∈ m := by assumption) :
    (State.noteArrival s k p).Same m z := by
  unfold State.noteArrival
  refine State.Same.ite ?_ h
  extract_lets -underBinder +onlyGivenNames n1 n2
  exact State.modSlot_same (State.noteWait_same h)

theorem State.endWait_same {s : State} {k : Nat} {p : Nat} (h : s.Same m z) (_ : .links ∈ m := by assumption) :
    (State.endWait s k p).Same m z := by
  unfold State.endWait
  exact State.Same.ite (State.modSlot_same (State.noteWait_same h)) h

theorem State.linkViolation_same {s : State} {n : Nat} {p : Nat} {code : Nat} {va : Nat} (h : s.Same m z)
    (_ : .tiles ∈ m := by assumption) (_ : .conservators ∈ m := by assumption) (_ : .links ∈ m := by assumption) :
    (State.linkViolation s n p code va).Same m z := by
  unfold State.linkViolation
  exact State.raiseMaster_same h

theorem State.deliverWrite_same {s : State} {n : Nat} {p : Nat} {z4 : LinkMsg} (h : s.Same m z)
    (_ : .tiles ∈ m := by assumption) (_ : .memory ∈ m := by assumption) (_ : .host ∈ m := by assumption)
    (_ : .seams ∈ m := by assumption) (_ : .conservators ∈ m := by assumption) (_ : .links ∈ m := by assumption) :
    (State.deliverWrite s n p z4).2.Same m z := by
  unfold State.deliverWrite
  extract_lets -underBinder +onlyGivenNames n1
  split
  · exact State.dropMessage_same h
  · split
    · exact State.dropMessage_same h
    · split
      · exact State.linkViolation_same h
      · extract_lets -underBinder +onlyGivenNames n2
        have h3 : n2.2.Same m z := State.masterWrite_same h
        clear_value n2
        exact State.Same.ite (State.signalTile_same h3) h3

theorem State.deliverHere_same {s : State} {k : Nat} {o : OutMsg} (h : s.Same m z) (_ : .tiles ∈ m := by assumption)
    (_ : .memory ∈ m := by assumption) (_ : .host ∈ m := by assumption) (_ : .seams ∈ m := by assumption)
    (_ : .conservators ∈ m := by assumption) (_ : .links ∈ m := by assumption) :
    (State.deliverHere s k o).Same m z := by
  unfold State.deliverHere
  exact State.Same.ite (State.deliverWrite_same h) (State.modLinks_same h)

theorem State.setCredit_same {s : State} {p : Nat} {dst : Half} {n : Nat} (h : s.Same m z) (_ : .links ∈ m := by assumption) :
    (State.setCredit s p dst n).Same m z := by
  unfold State.setCredit
  exact State.modLinks_same h

theorem State.askCredit_same {s : State} {n : Nat} {k : Nat} {p : Nat} {dst : Half} (h : s.Same m z)
    (_ : .links ∈ m := by assumption) :
    (State.askCredit s n k p dst).Same m z := by
  unfold State.askCredit
  extract_lets -underBinder +onlyGivenNames s1
  have h2 : s1.Same m z := State.remoteWait_same h
  clear_value s1
  exact State.Same.ite h2 (State.handOver_same (State.modSlot_same h2))

theorem State.sendAll_same {s : State} {k : Nat} {p : Nat} {a : List OutMsg} (h : s.Same m z)
    (_ : .tiles ∈ m := by assumption) (_ : .memory ∈ m := by assumption) (_ : .host ∈ m := by assumption)
    (_ : .seams ∈ m := by assumption) (_ : .conservators ∈ m := by assumption) (_ : .links ∈ m := by assumption) :
    (State.sendAll s k p a).Same m z := by
  induction a generalizing s with
  | nil => exact State.modSlot_same h
  | cons o rest ih =>
    simp only [State.sendAll]
    split
    · exact ih (State.deliverHere_same h)
    · exact ih (State.dropMessage_same h)
    · split
      · exact State.askCredit_same (State.modSlot_same h)
      · exact ih (State.handOver_same (State.setCredit_same h))

theorem State.pumpSlot_same {s : State} {k : Nat} {p : Nat} (h : s.Same m z) (_ : .tiles ∈ m := by assumption)
    (_ : .memory ∈ m := by assumption) (_ : .host ∈ m := by assumption) (_ : .seams ∈ m := by assumption)
    (_ : .conservators ∈ m := by assumption) (_ : .links ∈ m := by assumption) :
    (State.pumpSlot s k p).Same m z := by
  unfold State.pumpSlot
  exact State.sendAll_same h

theorem State.endSend_same {s : State} {k : Nat} {p : Nat} (h : s.Same m z) (_ : .seams ∈ m := by assumption)
    (_ : .links ∈ m := by assumption) :
    (State.endSend s k p).Same m z := by
  unfold State.endSend
  split
  · exact h
  · extract_lets -underBinder +onlyGivenNames s1
    have h2 : s1.Same m z := State.modSlot_same (State.endWait_same h)
    clear_value s1
    exact State.Same.ite (State.signalTile_same h2) h2

theorem State.runSend_same {s : State} {k : Nat} {p : Nat} (h : s.Same m z) (_ : .tiles ∈ m := by assumption)
    (_ : .memory ∈ m := by assumption) (_ : .host ∈ m := by assumption) (_ : .seams ∈ m := by assumption)
    (_ : .conservators ∈ m := by assumption) (_ : .links ∈ m := by assumption) :
    (State.runSend s k p).Same m z := by
  unfold State.runSend
  extract_lets -underBinder +onlyGivenNames s1
  have h2 : s1.Same m z := State.pumpSlot_same h
  clear_value s1
  extract_lets -underBinder +onlyGivenNames n3
  split
  · exact h2
  · refine State.Same.ite h2 ?_
    refine State.Same.ite (State.endSend_same h2) ?_
    extract_lets -underBinder +onlyGivenNames n4
    exact State.modLinks_same (State.modSlot_same (State.remoteWait_same h2))

theorem State.ackWrite_same {s : State} {p : Nat} {dst : Half} {vc : Option Nat} (h : s.Same m z)
    (_ : .seams ∈ m := by assumption) (_ : .links ∈ m := by assumption) :
    (State.ackWrite s p dst vc).Same m z := by
  unfold State.ackWrite
  split
  · exact h
  · exact State.Same.ite (State.endWait_same h) (State.endSend_same h)

theorem State.restRed_same {s : State} {p : Nat} (h : s.Same m z) (_ : .links ∈ m := by assumption) :
    (State.restRed s p).Same m z := by
  unfold State.restRed
  extract_lets -underBinder +onlyGivenNames n1
  exact State.Same.ite h (State.modSlot_same (State.endWait_same h))

theorem State.takeCredit_same {s : State} {p : Nat} {dst : Half} {n : Nat} (h : s.Same m z) (_ : .tiles ∈ m := by assumption)
    (_ : .memory ∈ m := by assumption) (_ : .host ∈ m := by assumption) (_ : .seams ∈ m := by assumption)
    (_ : .conservators ∈ m := by assumption) (_ : .links ∈ m := by assumption) :
    (State.takeCredit s p dst n).Same m z := by
  unfold State.takeCredit
  refine State.Same.ite h ?_
  extract_lets -underBinder +onlyGivenNames s1
  have h2 : s1.Same m z := State.setCredit_same h
  clear_value s1
  refine State.forEach_same h2 ?_
  intro s3 x5 h4
  split
  · exact h4
  · refine State.Same.ite h4 ?_
    extract_lets -underBinder +onlyGivenNames s6
    have h7 : s6.Same m z := State.modSlot_same (State.endWait_same h4)
    clear_value s6
    exact State.Same.ite h7 (State.Same.ite (State.restRed_same (State.pumpSlot_same h7)) (State.runSend_same h7))

theorem State.serveAsks_same {s : State} {n : Nat} {p : Nat} (h : s.Same m z) (_ : .links ∈ m := by assumption) :
    (State.serveAsks s n p).Same m z := by
  unfold State.serveAsks
  split
  · exact h
  · extract_lets -underBinder +onlyGivenNames n1 n2
    refine State.Same.ite h ?_
    extract_lets -underBinder +onlyGivenNames s3
    have h4 : s3.Same m z := State.modLinks_same h
    clear_value s3
    exact State.sendDirect_same h4

theorem State.freeSlot_same {s : State} {n : Nat} {p : Nat} (h : s.Same m z) (_ : .links ∈ m := by assumption) :
    (State.freeSlot s n p).Same m z := by
  unfold State.freeSlot
  exact State.serveAsks_same (State.modLinks_same h)

theorem State.receive_same {s : State} {n : Nat} {type : Nat} {z4 : LinkMsg} {deliver : Nat → State → State} (h : s.Same m z) (hdeliver : ∀ y1 y2, State.Same y2 m z → (deliver y1 y2).Same m z)
    (_ : .tiles ∈ m := by assumption) (_ : .memory ∈ m := by assumption) (_ : .host ∈ m := by assumption)
    (_ : .seams ∈ m := by assumption) (_ : .conservators ∈ m := by assumption) (_ : .links ∈ m := by assumption) :
    (State.receive s n type z4 deliver).Same m z := by
  unfold State.receive
  extract_lets -underBinder +onlyGivenNames n1 s2
  have h3 : s2.Same m z := State.noteArrival_same (State.digest_same h)
  clear_value s2
  extract_lets -underBinder +onlyGivenNames s4
  have h5 : s4.Same m z := State.Same.ite (State.noteArrival_same h3) h3
  clear_value s4
  extract_lets -underBinder +onlyGivenNames s6
  have h7 : s6.Same m z := State.Same.ite (State.takeCredit_same h5) h5
  clear_value s6
  extract_lets -underBinder +onlyGivenNames s8
  have h9 : s8.Same m z := hdeliver _ _ h7
  clear_value s8
  exact State.Same.ite (State.freeSlot_same h9) h9

theorem State.forward_same {s : State} {n : Nat} {type : Nat} {z4 : LinkMsg} (h : s.Same m z)
    (_ : .seams ∈ m := by assumption) (_ : .links ∈ m := by assumption) :
    (State.forward s n type z4).Same m z := by
  unfold State.forward
  extract_lets -underBinder +onlyGivenNames s1
  have h2 : s1.Same m z := State.digest_same h
  clear_value s1
  split
  · extract_lets -underBinder +onlyGivenNames n3 n4
    refine State.Same.ite ?_ (State.dropMessage_same (State.giveBack_same h2))
    extract_lets -underBinder +onlyGivenNames s5
    have h6 : s5.Same m z := State.crossSeams_same h2
    clear_value s5
    exact State.enqueue_same (State.digest_same h6)
  · exact State.dropMessage_same (State.giveBack_same h2)

theorem State.ackPsn_same {s : State} {n : Nat} {z3 : LinkMsg} (h : s.Same m z) (_ : .links ∈ m := by assumption) :
    (State.ackPsn s n z3).Same m z := by
  unfold State.ackPsn
  extract_lets -underBinder +onlyGivenNames n1 n2
  exact State.sendDirect_same h

theorem State.takeAck_same {s : State} {n : Nat} {ack : BitVec 12} (h : s.Same m z) (_ : .links ∈ m := by assumption) :
    (State.takeAck s n ack).Same m z := by
  unfold State.takeAck
  extract_lets -underBinder +onlyGivenNames n1
  exact State.Same.ite h (State.modPort_same h)

theorem State.takeCredits_same {s : State} {n : Nat} {key : Nat} {count : Nat} (h : s.Same m z)
    (_ : .links ∈ m := by assumption) :
    (State.takeCredits s n key count).Same m z := by
  unfold State.takeCredits
  exact State.modPort_same (State.countPortStall_same h)

theorem State.takeFlits_same {s : State} {n : Nat} {fs : List FlitHdr} (h : s.Same m z) (_ : .links ∈ m := by assumption) :
    (State.takeFlits s n fs).Same m z := by
  unfold State.takeFlits
  extract_lets -underBinder +onlyGivenNames n1 n2
  exact State.bump64_same (State.modPort_same h)

theorem State.freeBuffer_same {s : State} {n : Nat} {z3 : LinkMsg} (h : s.Same m z) (_ : .links ∈ m := by assumption) :
    (State.freeBuffer s n z3).Same m z := by
  unfold State.freeBuffer
  exact State.giveBack_same h

theorem State.badCodeword_same {s : State} {n : Nat} (h : s.Same m z) : (s.badCodeword n).Same m z :=
  State.Same.ite (State.setIrq_same (State.draw_same h)) (State.draw_same h)

theorem State.arriveMsg_same {s : State} {n : Nat} {type : Nat} {z4 : LinkMsg} {deliver : Nat → State → State} (h : s.Same m z) (hdeliver : ∀ y1 y2, State.Same y2 m z → (deliver y1 y2).Same m z)
    (_ : .tiles ∈ m := by assumption) (_ : .memory ∈ m := by assumption) (_ : .host ∈ m := by assumption)
    (_ : .seams ∈ m := by assumption) (_ : .conservators ∈ m := by assumption) (_ : .links ∈ m := by assumption) :
    (State.arriveMsg s n type z4 deliver).Same m z := by
  unfold State.arriveMsg
  refine State.Same.ite ?_ ?_
  · exact State.Same.ite (State.receive_same (State.freeBuffer_same h) hdeliver) (State.forward_same h)
  · extract_lets -underBinder +onlyGivenNames s1
    have h2 : s1.Same m z := State.bump64_same h
    clear_value s1
    extract_lets -underBinder +onlyGivenNames n3
    refine State.Same.ite (State.dropMessage_same (State.Same.ite h2 (State.badCodeword_same h2))) ?_
    extract_lets -underBinder +onlyGivenNames s4
    have h5 : s4.Same m z := State.pauseChannel_same h2
    clear_value s4
    refine State.Same.ite (State.receive_same h5 hdeliver) ?_
    refine State.Same.ite h5 ?_
    extract_lets -underBinder +onlyGivenNames n6
    refine State.Same.ite (State.ackPsn_same h5) ?_
    extract_lets -underBinder +onlyGivenNames s7
    have h8 : s7.Same m z := State.useCtx_same h5
    clear_value s7
    exact State.receive_same (State.ackPsn_same h8) hdeliver

theorem State.faultPolders_same {s : State} {code : Nat} {unit : Nat} {pick : Polder → Bool} (h : s.Same m z) :
    (State.faultPolders s code unit pick).Same m z := by
  unfold State.faultPolders
  refine State.forEach_same h ?_
  intro s1 x3 h2
  exact State.Same.ite (State.raisePart_same h2) h2

theorem State.sendAlarm_same {s : State} {ring : Nat} {origin : Nat} {number : Nat} {from_ : Option (Nat × Bool)} {n : Nat} (h : s.Same m z)
    (_ : .links ∈ m := by assumption) :
    (State.sendAlarm s ring origin number from_ n).Same m z := by
  unfold State.sendAlarm
  extract_lets -underBinder +onlyGivenNames n1 n2
  have h3 : n2.2.Same m z := State.number_same h
  clear_value n2
  exact State.setIrq_same (State.enqueue_same h3)

theorem State.freshLink_same {s : State} {n : Nat} (h : s.Same m z) (_ : .links ∈ m := by assumption) :
    (State.freshLink s n).Same m z := by
  unfold State.freshLink
  exact State.modPort_same h

theorem State.portDown_same {s : State} {n : Nat} {cause : Nat} (h : s.Same m z) (_ : .links ∈ m := by assumption) :
    (State.portDown s n cause).Same m z := by
  unfold State.portDown
  extract_lets -underBinder +onlyGivenNames n1 s2
  have h3 : s2.Same m z := State.modPort_same h
  clear_value s2
  extract_lets -underBinder +onlyGivenNames s4
  have h5 : s4.Same m z := State.freshLink_same (State.dropWaiting_same h3)
  clear_value s4
  extract_lets -underBinder +onlyGivenNames s6
  have h7 : s6.Same m z := State.setReg_same (State.setReg_same h5)
  clear_value s6
  exact State.logError_same (State.setIrq_same h7)

theorem State.linkDown_same {s : State} {n : Nat} {cause : Nat} (h : s.Same m z) (_ : .links ∈ m := by assumption) :
    (State.linkDown s n cause).Same m z := by
  unfold State.linkDown
  extract_lets -underBinder +onlyGivenNames n1 s2
  have h3 : s2.Same m z := State.portDown_same h
  clear_value s2
  refine State.Same.ite ?_ (State.faultPolders_same h3)
  extract_lets -underBinder +onlyGivenNames s4
  have h5 : s4.Same m z := State.faultPolders_same h3
  clear_value s4
  extract_lets -underBinder +onlyGivenNames n6 s7
  have h8 : s7.Same m z := State.modLinks_same h5
  clear_value s7
  refine State.forEach_same h8 ?_
  intro s9 x11 h10
  exact State.sendAlarm_same h10

theorem State.replay_same {s : State} {n : Nat} (h : s.Same m z) (_ : .links ∈ m := by assumption) :
    (State.replay s n).Same m z := by
  unfold State.replay
  extract_lets -underBinder +onlyGivenNames n1
  refine State.Same.ite h ?_
  extract_lets -underBinder +onlyGivenNames s2
  have h3 : s2.Same m z := by
    refine State.bump_same ?_
    refine State.forEach_same h ?_
    intro s4 x6 h5
    exact State.putFlit_same h5
  clear_value s2
  extract_lets -underBinder +onlyGivenNames s7
  have h8 : s7.Same m z := State.modPort_same h3
  clear_value s7
  exact State.Same.ite (State.linkDown_same h8) h8

theorem State.takeHeader_same {s : State} {n : Nat} {f : FlitHdr} (h : s.Same m z) (_ : .links ∈ m := by assumption) :
    (State.takeHeader s n f).Same m z := by
  unfold State.takeHeader
  extract_lets -underBinder +onlyGivenNames s1
  have h2 : s1.Same m z := State.takeCredits_same (State.takeAck_same h)
  clear_value s1
  exact State.Same.ite (State.replay_same h2) h2

theorem State.arrive_same {s : State} {n : Nat} {type : Nat} {z4 : LinkMsg} {deliver : Nat → State → State} (h : s.Same m z) (hdeliver : ∀ y1 y2, State.Same y2 m z → (deliver y1 y2).Same m z)
    (_ : .tiles ∈ m := by assumption) (_ : .memory ∈ m := by assumption) (_ : .host ∈ m := by assumption)
    (_ : .seams ∈ m := by assumption) (_ : .conservators ∈ m := by assumption) (_ : .links ∈ m := by assumption) :
    (State.arrive s n type z4 deliver).Same m z := by
  unfold State.arrive
  refine State.Same.ite h ?_
  refine State.Same.ite (State.arriveMsg_same h hdeliver) ?_
  refine State.Same.ite h ?_
  extract_lets -underBinder +onlyGivenNames s1
  have h2 : s1.Same m z := by
    refine State.takeFlits_same ?_
    refine State.forEach_same h ?_
    intro s3 x5 h4
    exact State.takeHeader_same h4
  clear_value s1
  exact State.Same.ite h2 (State.settlePorts_same (State.pumpPort_same (State.arriveMsg_same h2 hdeliver)))

theorem State.enterUp_same {s : State} {n : Nat} (h : s.Same m z) (_ : .links ∈ m := by assumption)
    (_ : .journal ∈ m := by assumption) :
    (State.enterUp s n).Same m z := by
  unfold State.enterUp
  extract_lets -underBinder +onlyGivenNames n1 s2
  have h3 : s2.Same m z := State.modPort_same h
  clear_value s2
  extract_lets -underBinder +onlyGivenNames s4
  have h5 : s4.Same m z := State.setIrq_same (State.bump_same h3)
  clear_value s4
  refine State.Same.ite h5 ?_
  extract_lets -underBinder +onlyGivenNames n6
  refine State.Same.ite (State.modJournal_same h5) ?_
  extract_lets -underBinder +onlyGivenNames s7
  have h8 : s7.Same m z := State.modJournal_same h5
  clear_value s7
  exact State.append_same h8

/-! ### Ports -/

theorem State.enterMode_same {s : State} {n : Nat} {mode : Nat} (h : s.Same m z) (_ : .links ∈ m := by assumption) :
    (State.enterMode s n mode).Same m z := by
  unfold State.enterMode
  exact State.settlePorts_same (State.freshLink_same (State.modPort_same (State.dropWaiting_same h)))

theorem State.writePrtCtl_same {s : State} {n : Nat} {value : Word} (h : s.Same m z) (_ : .links ∈ m := by assumption) :
    (State.writePrtCtl s n value).Same m z := by
  unfold State.writePrtCtl
  extract_lets -underBinder +onlyGivenNames n1 n2
  refine State.Same.ite (State.ignoreWrite_same h) ?_
  extract_lets -underBinder +onlyGivenNames s3
  have h4 : s3.Same m z := State.setReg_same h
  clear_value s3
  exact State.Same.ite h4 (State.enterMode_same h4)

theorem execPrtCtl_same {n : PortId} {value : Word} {s : State} (h : s.Same m z) (_ : .seams ∈ m := by assumption)
    (_ : .links ∈ m := by assumption) :
    ∃ s', execPrtCtl n value s = .next s' ∧ s'.Same m z := by
  unfold execPrtCtl
  refine ⟨_, rfl, ?_⟩
  refine State.Same.ite (State.answerWritten_same (State.writePrtCtl_same (State.accessCrosses_same h))) ?_
  exact State.answerError_same h

theorem State.countOwn_same {s : State} {n : Nat} {seq : Dword} {payload : List Byte} (h : s.Same m z) :
    (State.countOwn s n seq payload).Same m z := by
  unfold State.countOwn
  exact State.digest_same h

theorem State.sendIdent_same {s : State} {n : Nat} (h : s.Same m z) (_ : .links ∈ m := by assumption) :
    (State.sendIdent s n).Same m z := by
  unfold State.sendIdent
  extract_lets -underBinder +onlyGivenNames n1 n2
  have h3 : n2.2.Same m z := State.number_same h
  clear_value n2
  exact State.enqueue_same h3

theorem State.endTraining_same {s : State} {k : Nat} {lanes : BitVec 4} (h : s.Same m z) (_ : .links ∈ m := by assumption)
    (_ : .journal ∈ m := by assumption) (_ : .spares ∈ m := by assumption) :
    (State.endTraining s k lanes).Same m z := by
  unfold State.endTraining
  extract_lets -underBinder +onlyGivenNames s1
  have h2 : s1.Same m z := State.modPort_same h
  clear_value s1
  refine State.Same.ite ?_ ?_
  · refine State.Same.ite (State.sendIdent_same (State.modPort_same (State.freshLink_same h2))) ?_
    exact State.enterUp_same h2
  · extract_lets -underBinder +onlyGivenNames n3
    exact State.modSpares_same (State.modPort_same h2)

theorem execPortTraining_same {n : PortId} {lanes : BitVec 4} {s : State} (h : s.Same m z) (_ : .links ∈ m := by assumption)
    (_ : .journal ∈ m := by assumption) (_ : .spares ∈ m := by assumption) :
    ∃ s', execPortTraining n lanes s = .next s' ∧ s'.Same m z := by
  unfold execPortTraining
  refine ⟨_, rfl, ?_⟩
  exact State.Same.ite h (State.endTraining_same h)

theorem State.miswire_same {s : State} {n : Nat} (h : s.Same m z) (_ : .links ∈ m := by assumption) :
    (State.miswire s n).Same m z := by
  unfold State.miswire
  exact State.setIrq_same (State.modPort_same h)

theorem execIdent_same {n : PortId} {peer : BitVec 12} {peerPort : InFlit (BitVec 4)} {s : State} (h : s.Same m z)
    (_ : .links ∈ m := by assumption) (_ : .journal ∈ m := by assumption) :
    ∃ s', execIdent n peer peerPort s = .next s' ∧ s'.Same m z := by
  unfold execIdent
  refine ⟨_, rfl, ?_⟩
  refine State.Same.ite h ?_
  extract_lets -underBinder +onlyGivenNames s1
  have h2 : s1.Same m z := State.countOwn_same (State.takeFlits_same (State.takeHeader_same h))
  clear_value s1
  extract_lets -underBinder +onlyGivenNames s3
  have h4 : s3.Same m z := State.setReg_same h2
  clear_value s3
  refine State.Same.ite (State.settlePorts_same (State.enterUp_same (State.modPort_same h4))) ?_
  exact State.miswire_same h4

theorem execIdentTimeout_same {n : PortId} {s : State} (h : s.Same m z) (_ : .links ∈ m := by assumption) :
    ∃ s', execIdentTimeout n s = .next s' ∧ s'.Same m z := by
  unfold execIdentTimeout
  refine ⟨_, rfl, ?_⟩
  exact State.Same.ite (State.miswire_same h) h

theorem execPortRetry_same {n : PortId} {s : State} (h : s.Same m z) (_ : .links ∈ m := by assumption) :
    ∃ s', execPortRetry n s = .next s' ∧ s'.Same m z := by
  unfold execPortRetry
  refine ⟨_, rfl, ?_⟩
  exact State.Same.ite (State.modPort_same h) h

theorem execLinkSignalLoss_same {n : PortId} {lane : BitVec 2} {s : State} (h : s.Same m z) (_ : .links ∈ m := by assumption) :
    ∃ s', execLinkSignalLoss n lane s = .next s' ∧ s'.Same m z := by
  unfold execLinkSignalLoss
  refine ⟨_, rfl, ?_⟩
  exact State.Same.ite h (State.settlePorts_same (State.linkDown_same (State.modPort_same h)))

theorem execLinkFlitCrcError_same {n : PortId} {s : State} (h : s.Same m z) (_ : .links ∈ m := by assumption) :
    ∃ s', execLinkFlitCrcError n s = .next s' ∧ s'.Same m z := by
  unfold execLinkFlitCrcError
  refine ⟨_, rfl, ?_⟩
  exact State.Same.ite h (State.settlePorts_same (State.modPort_same (State.badCodeword_same h)))

theorem execLinkNak_same {n : PortId} {ack : BitVec 12} {s : State} (h : s.Same m z) (_ : .links ∈ m := by assumption) :
    ∃ s', execLinkNak n ack s = .next s' ∧ s'.Same m z := by
  unfold execLinkNak
  refine ⟨_, rfl, ?_⟩
  refine State.Same.ite h ?_
  refine State.settlePorts_same ?_
  exact State.pumpPort_same (State.replay_same (State.takeAck_same (State.bump64_same h)))

theorem execLinkAckTimeout_same {n : PortId} {s : State} (h : s.Same m z) (_ : .links ∈ m := by assumption) :
    ∃ s', execLinkAckTimeout n s = .next s' ∧ s'.Same m z := by
  unfold execLinkAckTimeout
  refine ⟨_, rfl, ?_⟩
  exact State.Same.ite (State.settlePorts_same (State.replay_same h)) h

theorem execNullFlit_same {n : PortId} {ack : BitVec 12} {vc : BitVec 2} {cls : Bool} {count : BitVec 9} {s : State} (h : s.Same m z)
    (_ : .links ∈ m := by assumption) :
    ∃ s', execNullFlit n ack vc cls count s = .next s' ∧ s'.Same m z := by
  unfold execNullFlit
  refine ⟨_, rfl, ?_⟩
  refine State.Same.ite h ?_
  extract_lets -underBinder +onlyGivenNames s1
  have h2 : s1.Same m z := State.takeAck_same (State.bump64_same h)
  clear_value s1
  exact State.settlePorts_same (State.pumpPort_same (State.takeCredits_same h2))

theorem execResendTimeout_same {n : PortId} {peer : BitVec 12} {s : State} (h : s.Same m z) (_ : .links ∈ m := by assumption) :
    ∃ s', execResendTimeout n peer s = .next s' ∧ s'.Same m z := by
  unfold execResendTimeout
  refine ⟨_, rfl, ?_⟩
  refine State.Same.ite h ?_
  extract_lets -underBinder +onlyGivenNames n1 s2
  have h3 : s2.Same m z := by
    refine State.bump_same ?_
    refine State.forEach_same h ?_
    intro s4 x6 h5
    exact State.putFrame_same h5
  clear_value s2
  extract_lets -underBinder +onlyGivenNames s7
  have h8 : s7.Same m z := State.modLinks_same h3
  clear_value s7
  exact State.useCtx_same h8

theorem execPfcPause_same {n : PortId} {pcp : BitVec 3} {s : State} (h : s.Same m z) (_ : .links ∈ m := by assumption) :
    ∃ s', execPfcPause n pcp s = .next s' ∧ s'.Same m z := by
  unfold execPfcPause
  refine ⟨_, rfl, ?_⟩
  refine State.Same.ite h ?_
  extract_lets -underBinder +onlyGivenNames n1
  exact State.modPort_same (State.bump_same (State.countPortStall_same h))

theorem execPfcPauseEnd_same {n : PortId} {pcp : BitVec 3} {s : State} (h : s.Same m z) (_ : .links ∈ m := by assumption) :
    ∃ s', execPfcPauseEnd n pcp s = .next s' ∧ s'.Same m z := by
  unfold execPfcPauseEnd
  refine ⟨_, rfl, ?_⟩
  refine State.Same.ite h ?_
  extract_lets -underBinder +onlyGivenNames n1
  exact State.pumpPort_same (State.modPort_same (State.countPortStall_same h))

theorem execLanePllLock_same {n : PortId} {s : State} (h : s.Same m z) (_ : .links ∈ m := by assumption)
    (_ : .board ∈ m := by assumption) :
    ∃ s', execLanePllLock n s = .next s' ∧ s'.Same m z := by
  unfold execLanePllLock
  refine ⟨_, rfl, ?_⟩
  exact State.Same.ite (State.modBoard_same (State.modPort_same h)) h

theorem execLrefclkLoss_same {s1 : Bool} {s : State} (h : s.Same m z) (_ : .links ∈ m := by assumption)
    (_ : .board ∈ m := by assumption) :
    ∃ s', execLrefclkLoss s1 s = .next s' ∧ s'.Same m z := by
  unfold execLrefclkLoss
  refine ⟨_, rfl, ?_⟩
  refine State.forEach_same (State.modBoard_same h) ?_
  intro s1 x3 h2
  exact State.modPort_same h2

theorem execWrite_same {n : PortId} {z2 : LinkMsg} {s : State} (h : s.Same m z) (_ : .tiles ∈ m := by assumption)
    (_ : .memory ∈ m := by assumption) (_ : .host ∈ m := by assumption) (_ : .seams ∈ m := by assumption)
    (_ : .conservators ∈ m := by assumption) (_ : .links ∈ m := by assumption) :
    ∃ s', execWrite n z2 s = .next s' ∧ s'.Same m z := by
  unfold execWrite
  refine ⟨_, rfl, ?_⟩
  refine State.arrive_same h ?_
  intro x1 s2 h3
  extract_lets -underBinder +onlyGivenNames n4
  have h5 : n4.2.Same m z := State.deliverWrite_same h3
  clear_value n4
  exact State.Same.ite (State.sendDirect_same h5) h5

theorem execCredit_same {n : PortId} {z2 : LinkMsg} {grant : Bool} {s : State} (h : s.Same m z)
    (_ : .tiles ∈ m := by assumption) (_ : .memory ∈ m := by assumption) (_ : .host ∈ m := by assumption)
    (_ : .seams ∈ m := by assumption) (_ : .conservators ∈ m := by assumption) (_ : .links ∈ m := by assumption) :
    ∃ s', execCredit n z2 grant s = .next s' ∧ s'.Same m z := by
  unfold execCredit
  refine ⟨_, rfl, ?_⟩
  refine State.arrive_same h ?_
  intro x1 s2 h3
  refine State.Same.ite h3 ?_
  exact State.Same.ite (State.dropMessage_same h3) (State.serveAsks_same (State.modLinks_same h3))

theorem execAck_same {n : PortId} {z2 : LinkMsg} {s : State} (h : s.Same m z) (_ : .tiles ∈ m := by assumption)
    (_ : .memory ∈ m := by assumption) (_ : .host ∈ m := by assumption) (_ : .seams ∈ m := by assumption)
    (_ : .conservators ∈ m := by assumption) (_ : .links ∈ m := by assumption) :
    ∃ s', execAck n z2 s = .next s' ∧ s'.Same m z := by
  unfold execAck
  refine ⟨_, rfl, ?_⟩
  refine State.arrive_same h ?_
  intro x1 s2 h3
  refine State.Same.ite (State.ackWrite_same h3) ?_
  extract_lets -underBinder +onlyGivenNames n4 n5 n6
  refine State.Same.ite h3 ?_
  extract_lets -underBinder +onlyGivenNames s7
  have h8 : s7.Same m z := State.useCtx_same h3
  clear_value s7
  extract_lets -underBinder +onlyGivenNames s9
  have h10 : s9.Same m z := by
    refine State.forEach_same h8 ?_
    intro s11 x13 h12
    exact State.ackWrite_same h12
  clear_value s9
  exact State.pumpPort_same h10

theorem State.actOnAlarm_same {s : State} {k : Nat} {cls : Bool} {ring : Nat} {origin : Nat} {number : Nat} (h : s.Same m z)
    (_ : .links ∈ m := by assumption) :
    (State.actOnAlarm s k cls ring origin number).Same m z := by
  unfold State.actOnAlarm
  extract_lets -underBinder +onlyGivenNames s1
  have h2 : s1.Same m z := State.modLinks_same h
  clear_value s1
  extract_lets -underBinder +onlyGivenNames s3
  have h4 : s3.Same m z := State.faultPolders_same (State.portDown_same (State.setIrq_same h2))
  clear_value s3
  refine State.forEach_same h4 ?_
  intro s5 x7 h6
  exact State.sendAlarm_same h6

theorem execAlarm_same {n : PortId} {ring : BitVec 6} {origin : BitVec 12} {number : InFlit Half} {s : State} (h : s.Same m z)
    (_ : .links ∈ m := by assumption) :
    ∃ s', execAlarm n ring origin number s = .next s' ∧ s'.Same m z := by
  unfold execAlarm
  refine ⟨_, rfl, ?_⟩
  refine State.Same.ite h ?_
  extract_lets -underBinder +onlyGivenNames s1
  have h2 : s1.Same m z := State.takeHeader_same h
  clear_value s1
  refine State.Same.ite (State.settlePorts_same h2) ?_
  extract_lets -underBinder +onlyGivenNames s3
  have h4 : s3.Same m z := State.countOwn_same (State.takeFlits_same h2)
  clear_value s3
  extract_lets -underBinder +onlyGivenNames n5 s6
  have h7 : s6.Same m z := State.modPort_same h4
  clear_value s6
  exact State.settlePorts_same (State.Same.ite (State.dropMessage_same h7) (State.actOnAlarm_same h7))

theorem execSendDescriptor_same {n : PortId} {p : Meets PolderId Ecc} {s : State} (h : s.Same m z)
    (_ : .tiles ∈ m := by assumption) (_ : .frames ∈ m := by assumption) (_ : .seams ∈ m := by assumption)
    (_ : .polders ∈ m := by assumption) (_ : .conservators ∈ m := by assumption) (_ : .links ∈ m := by assumption)
    (_ : .journal ∈ m := by assumption) (_ : .spares ∈ m := by assumption) :
    ∃ s', execSendDescriptor n p s = .next s' ∧ s'.Same m z := by
  unfold execSendDescriptor
  refine ⟨_, rfl, ?_⟩
  split
  · exact h
  · refine State.Same.ite h ?_
    extract_lets -underBinder +onlyGivenNames n1 n2
    split
    next s3 e5 =>
      have h4 : s3.Same m z := by
        rw [show s3 = _ from (congrArg Prod.snd e5).symm]
        exact State.masterRead_same h
      exact State.modSlot_same h4
    next x6 s7 e9 =>
      have h8 : s7.Same m z := by
        rw [show s7 = _ from (congrArg Prod.snd e9).symm]
        exact State.masterRead_same h
      refine State.Same.ite h8 ?_
      refine State.Same.ite (State.linkViolation_same h8) ?_
      extract_lets -underBinder +onlyGivenNames s10
      have h11 : s10.Same m z := State.modPld_same h8
      clear_value s10
      exact State.modSlot_same h11

theorem State.startLink_same {s : State} {k : Nat} {p : Nat} {ecc : List Ecc} (h : s.Same m z)
    (_ : .tiles ∈ m := by assumption) (_ : .memory ∈ m := by assumption) (_ : .host ∈ m := by assumption)
    (_ : .frames ∈ m := by assumption) (_ : .seams ∈ m := by assumption) (_ : .polders ∈ m := by assumption)
    (_ : .conservators ∈ m := by assumption) (_ : .links ∈ m := by assumption) (_ : .journal ∈ m := by assumption)
    (_ : .spares ∈ m := by assumption) :
    (State.startLink s k p ecc).Same m z := by
  unfold State.startLink
  refine State.Same.ite h ?_
  split
  · exact h
  · extract_lets -underBinder +onlyGivenNames n1 s2
    have h3 : s2.Same m z := State.takeEngine_same h
    clear_value s2
    refine State.Same.ite (State.Same.ite (State.endSend_same h3) (State.runSend_same h3)) ?_
    split
    next s4 e6 =>
      have h5 : s4.Same m z := by
        rw [show s4 = _ from (congrArg Prod.snd e6).symm]
        exact State.masterRead_same h3
      exact State.modSlot_same h5
    next x7 s8 e10 =>
      have h9 : s8.Same m z := by
        rw [show s8 = _ from (congrArg Prod.snd e10).symm]
        exact State.masterRead_same h3
      extract_lets -underBinder +onlyGivenNames n11
      exact State.runSend_same (State.modSlot_same h9)

/-! ### Reduction -/

theorem State.modRed_same {s : State} {p : Nat} {f : Reduction → Reduction} (h : s.Same m z) (_ : .polders ∈ m := by assumption) :
    (State.modRed s p f).Same m z := by
  unfold State.modRed
  exact State.modPld_same h

theorem State.modGroup_same {s : State} {p : Nat} {g : Nat} {f : Group → Group} (h : s.Same m z)
    (_ : .polders ∈ m := by assumption) :
    (State.modGroup s p g f).Same m z := by
  unfold State.modGroup
  exact State.modRed_same h

theorem execLedgerEntry_same {i : Nat} {s : State} (h : s.Same m z) (_ : .seams ∈ m := by assumption)
    (_ : .polders ∈ m := by assumption) :
    ∃ s', execLedgerEntry i s = .next s' ∧ s'.Same m z := by
  unfold execLedgerEntry
  refine ⟨_, rfl, ?_⟩
  split
  · exact h
  · extract_lets -underBinder +onlyGivenNames s1
    have h2 : s1.Same m z := State.controlCrosses_same (State.modNets_same h)
    clear_value s1
    exact State.Same.ite (State.modRed_same h2) h2

theorem State.adderWrites_same {s : State} {p : Nat} {t : Tensor} {u : Nat} {x : Target} (h : s.Same m z)
    (_ : .tiles ∈ m := by assumption) (_ : .conservators ∈ m := by assumption) (_ : .links ∈ m := by assumption) :
    (State.adderWrites s p t u x).Same m z := by
  unfold State.adderWrites
  exact State.discardRunAhead_same (State.watchCheck_same (State.targetSlots_same h))

theorem State.unitCrosses_same {s : State} {p : Nat} {via : Option PortId} {z4 : LinkMsg} {x : Target} (h : s.Same m z)
    (_ : .seams ∈ m := by assumption) :
    (State.unitCrosses s p via z4 x).Same m z := by
  unfold State.unitCrosses
  split
  · exact State.polderCrosses_same h
  · exact h

theorem State.redSend_same {s : State} {p : Nat} {msgs : List OutMsg} (h : s.Same m z) (_ : .tiles ∈ m := by assumption)
    (_ : .memory ∈ m := by assumption) (_ : .host ∈ m := by assumption) (_ : .seams ∈ m := by assumption)
    (_ : .conservators ∈ m := by assumption) (_ : .links ∈ m := by assumption) :
    (State.redSend s p msgs).Same m z := by
  unfold State.redSend
  refine State.Same.ite h ?_
  extract_lets -underBinder +onlyGivenNames n1 s2
  have h3 : s2.Same m z := State.modSlot_same h
  clear_value s2
  exact State.Same.ite h3 (State.pumpSlot_same h3)

theorem State.sendOpens_same {s : State} {p : Nat} (h : s.Same m z) (_ : .tiles ∈ m := by assumption)
    (_ : .memory ∈ m := by assumption) (_ : .host ∈ m := by assumption) (_ : .seams ∈ m := by assumption)
    (_ : .conservators ∈ m := by assumption) (_ : .links ∈ m := by assumption) :
    (State.sendOpens s p).Same m z := by
  unfold State.sendOpens
  extract_lets -underBinder +onlyGivenNames n1
  exact State.redSend_same h

theorem State.settleRed_same {s : State} {p : Nat} (h : s.Same m z) (_ : .links ∈ m := by assumption) :
    (State.settleRed s p).Same m z := by
  unfold State.settleRed
  extract_lets -underBinder +onlyGivenNames n1 n2
  refine State.Same.ite h ?_
  refine State.Same.ite (State.restRed_same h) ?_
  exact State.Same.ite h (State.Same.ite (State.endWait_same h) (State.remoteWait_same h))

theorem State.readUnit_same {s : State} {p : Nat} {x : Target} (h : s.Same m z) :
    (State.readUnit s p x).Same m z := by
  unfold State.readUnit
  extract_lets -underBinder +onlyGivenNames s1
  have h2 : s1.Same m z := State.countRead_same h
  clear_value s1
  exact State.Same.ite h2 (State.bump_same h2)

theorem State.redStep_same {s : State} {p : Nat} (h : s.Same m z) (_ : .tiles ∈ m := by assumption)
    (_ : .memory ∈ m := by assumption) (_ : .host ∈ m := by assumption) (_ : .seams ∈ m := by assumption)
    (_ : .polders ∈ m := by assumption) (_ : .conservators ∈ m := by assumption) (_ : .links ∈ m := by assumption) :
    (State.redStep s p).Same m z := by
  unfold State.redStep
  split
  · exact State.settleRed_same (State.pumpSlot_same h)
  · extract_lets -underBinder +onlyGivenNames n1 s2
    have h3 : s2.Same m z := by
      refine State.forEach_same h ?_
      intro s4 x6 h5
      exact State.readUnit_same h5
    clear_value s2
    exact State.settleRed_same (State.redSend_same (State.modGroup_same h3))

theorem State.startReduction_same {s : State} {p : Nat} (h : s.Same m z) (_ : .tiles ∈ m := by assumption)
    (_ : .memory ∈ m := by assumption) (_ : .host ∈ m := by assumption) (_ : .seams ∈ m := by assumption)
    (_ : .polders ∈ m := by assumption) (_ : .conservators ∈ m := by assumption) (_ : .links ∈ m := by assumption) :
    (State.startReduction s p).Same m z := by
  unfold State.startReduction
  refine State.Same.ite ?_ ?_
  · exact State.Same.ite h (State.Same.ite (State.redStep_same h) (State.settleRed_same (State.pumpSlot_same h)))
  · refine State.Same.ite ?_ h
    refine State.Same.ite (State.redStep_same (State.takeEngine_same h)) ?_
    exact State.settleRed_same (State.pumpSlot_same (State.takeEngine_same h))

theorem State.endReducing_same {s : State} {p : Nat} (h : s.Same m z) (_ : .polders ∈ m := by assumption)
    (_ : .links ∈ m := by assumption) :
    (State.endReducing s p).Same m z := by
  unfold State.endReducing
  refine State.Same.ite ?_ h
  extract_lets -underBinder +onlyGivenNames s1
  have h2 : s1.Same m z := State.Same.ite (State.noteWait_same h) h
  clear_value s1
  exact State.modPld_same h2

theorem State.complete_same {s : State} {p : Nat} {id : Word} (h : s.Same m z) (_ : .tiles ∈ m := by assumption)
    (_ : .memory ∈ m := by assumption) (_ : .host ∈ m := by assumption) (_ : .polders ∈ m := by assumption)
    (_ : .links ∈ m := by assumption) :
    (State.complete s p id).Same m z := by
  unfold State.complete
  extract_lets -underBinder +onlyGivenNames n1
  split
  · exact h
  · extract_lets -underBinder +onlyGivenNames n2 n3 n4
    refine State.Same.ite h ?_
    extract_lets -underBinder +onlyGivenNames s5
    have h6 : s5.Same m z := by
      unfold s5
      split
      · exact State.curatorLands_same h
      · exact h
    clear_value s5
    exact State.endReducing_same (State.modRed_same h6)

theorem State.badMessage_same {s : State} {p : Nat} (h : s.Same m z) :
    (State.badMessage s p).Same m z := by
  unfold State.badMessage
  exact State.setIrq_same (State.bump_same h)

theorem State.takeToken_same {s : State} {p : Nat} {b : List Byte} (h : s.Same m z) (_ : .tiles ∈ m := by assumption)
    (_ : .memory ∈ m := by assumption) (_ : .host ∈ m := by assumption) (_ : .polders ∈ m := by assumption)
    (_ : .links ∈ m := by assumption) :
    (State.takeToken s p b).Same m z := by
  unfold State.takeToken
  extract_lets -underBinder +onlyGivenNames n1 n2 s3
  have h4 : s3.Same m z := State.bump_same h
  clear_value s3
  split
  · exact State.badMessage_same h4
  · exact State.Same.ite (State.badMessage_same h4) (State.Same.ite h4 (State.complete_same (State.modRed_same h4)))

theorem State.sealUnits_same {s : State} {p : Nat} {t : Tensor} {toe : Int} {ecc : List Ecc} {l : List Nat} (h : s.Same m z)
    (_ : .tiles ∈ m := by assumption) (_ : .memory ∈ m := by assumption) (_ : .host ∈ m := by assumption)
    (_ : .frames ∈ m := by assumption) (_ : .conservators ∈ m := by assumption) (_ : .links ∈ m := by assumption)
    (_ : .journal ∈ m := by assumption) (_ : .spares ∈ m := by assumption) :
    (s.sealUnits p t toe ecc l).2.Same m z := by
  induction l generalizing s ecc with
  | nil => exact h
  | cons u us ih =>
    simp only [State.sealUnits]
    split
    · exact ih h
    · exact State.memLost_same h
    · split
      all_goals
        next e' =>
          rw [show _ = _ from (congrArg Prod.snd e').symm]
          have h2 {c : Prop} [Decidable c] {y : Target} {bs : List Byte} := State.bump64_same (a := redPage y.dev + 0x050) (n := 1)
            (State.countRead_same (x := y) (n := 1024) (State.memWrite_same (x := y) (bs := bs)
              (State.adderWrites_same (p := p) (t := t) (u := u) (x := y) (State.Same.ite (c := c) (State.memCorrected_same (x := y) h) h))))
          exact ih (State.Same.ite (State.bump_same h2) (State.bump_same (State.bump_same h2)))

theorem State.sendSealed_same {s : State} {p : Nat} {g : Nat} {t : Tensor} {r : Nat × Int × List (Nat × Unit64)} (h : s.Same m z)
    (_ : .tiles ∈ m := by assumption) (_ : .memory ∈ m := by assumption) (_ : .host ∈ m := by assumption)
    (_ : .seams ∈ m := by assumption) (_ : .polders ∈ m := by assumption) (_ : .conservators ∈ m := by assumption)
    (_ : .links ∈ m := by assumption) :
    (State.sendSealed s p g t r).Same m z := by
  unfold State.sendSealed
  extract_lets -underBinder +onlyGivenNames n1 n2 n3 s4
  have h5 : s4.Same m z := State.modGroup_same h
  clear_value s4
  extract_lets -underBinder +onlyGivenNames s6
  have h7 : s6.Same m z := State.redSend_same h5
  clear_value s6
  exact State.settleRed_same (State.takeToken_same h7)

theorem execSealSlice_same {p : PolderId} {group : BitVec 4} {tensor : Meets Word (List Ecc)} {s : State} (h : s.Same m z)
    (_ : .tiles ∈ m := by assumption) (_ : .memory ∈ m := by assumption) (_ : .host ∈ m := by assumption)
    (_ : .frames ∈ m := by assumption) (_ : .seams ∈ m := by assumption) (_ : .polders ∈ m := by assumption)
    (_ : .conservators ∈ m := by assumption) (_ : .links ∈ m := by assumption) (_ : .journal ∈ m := by assumption)
    (_ : .spares ∈ m := by assumption) :
    ∃ s', execSealSlice p group tensor s = .next s' ∧ s'.Same m z := by
  unfold execSealSlice
  refine ⟨_, rfl, ?_⟩
  split
  · exact h
  · refine State.Same.ite h ?_
    extract_lets -underBinder +onlyGivenNames n1
    split
    next s2 e4 =>
      have h3 : s2.Same m z := by
        rw [show s2 = _ from (congrArg Prod.snd e4).symm]
        exact State.sealUnits_same h
      exact h3
    next x5 s6 e8 =>
      have h7 : s6.Same m z := by
        rw [show s6 = _ from (congrArg Prod.snd e8).symm]
        exact State.sealUnits_same h
      exact State.sendSealed_same h7

theorem State.takeLocal_same {s s' : State} {type : Nat} {x : LinkMsg} (h : s.Same m z) (e : s.takeLocal type x = some s')
    (_ : .links ∈ m := by assumption) : s'.Same m z := by
  unfold State.takeLocal at e
  split at e
  · split at e
    · cases e; exact State.modLinks_same h
    · cases e
  · cases e

theorem State.redArrive_same {s : State} {via : Option PortId} {type : Nat} {x : LinkMsg} {act : Nat → State → State}
    (h : s.Same m z) (ha : ∀ p s, State.Same s m z → (act p s).Same m z) (_ : .tiles ∈ m := by assumption)
    (_ : .memory ∈ m := by assumption) (_ : .host ∈ m := by assumption) (_ : .seams ∈ m := by assumption)
    (_ : .conservators ∈ m := by assumption) (_ : .links ∈ m := by assumption) : (s.redArrive via type x act).Same m z := by
  unfold State.redArrive
  split
  · exact State.arrive_same h (fun p s hs => State.Same.ite (State.settleRed_same (ha p s hs)) (State.dropMessage_same hs))
  · split
    · exact h
    next s' e =>
      have h1 : s'.Same m z := State.takeLocal_same h e
      exact State.Same.ite (State.settleRed_same (ha _ _ (State.noteArrival_same h1))) h1

theorem execOpenMsg_same {via : Option PortId} {z2 : LinkMsg} {group : BitVec 4} {epoch : Word} {s : State} (h : s.Same m z)
    (_ : .tiles ∈ m := by assumption) (_ : .memory ∈ m := by assumption) (_ : .host ∈ m := by assumption)
    (_ : .seams ∈ m := by assumption) (_ : .polders ∈ m := by assumption) (_ : .conservators ∈ m := by assumption)
    (_ : .links ∈ m := by assumption) :
    ∃ s', execOpenMsg via z2 group epoch s = .next s' ∧ s'.Same m z := by
  unfold execOpenMsg
  refine ⟨_, rfl, ?_⟩
  refine State.Same.ite h ?_
  refine State.redArrive_same h ?_
  intro x1 s2 h3
  split
  · exact h3
  · exact State.modGroup_same h3

theorem execDataMsg_same {via : Option PortId} {z2 : LinkMsg} {ecc : Ecc} {s : State} (h : s.Same m z)
    (_ : .tiles ∈ m := by assumption) (_ : .memory ∈ m := by assumption) (_ : .host ∈ m := by assumption)
    (_ : .frames ∈ m := by assumption) (_ : .seams ∈ m := by assumption) (_ : .polders ∈ m := by assumption)
    (_ : .conservators ∈ m := by assumption) (_ : .links ∈ m := by assumption) (_ : .journal ∈ m := by assumption)
    (_ : .spares ∈ m := by assumption) :
    ∃ s', execDataMsg via z2 ecc s = .next s' ∧ s'.Same m z := by
  unfold execDataMsg
  refine ⟨_, rfl, ?_⟩
  refine State.redArrive_same h ?_
  intro x1 s2 h3
  split
  · exact State.badMessage_same h3
  · extract_lets -underBinder +onlyGivenNames n4
    refine State.Same.ite (State.badMessage_same h3) ?_
    split
    · exact h3
    · split
      · exact State.memLost_same h3
      · extract_lets -underBinder +onlyGivenNames s5
        have h6 : s5.Same m z := State.Same.ite (State.memCorrected_same h3) h3
        clear_value s5
        extract_lets -underBinder +onlyGivenNames n7
        exact State.modGroup_same (State.addWords_same (State.adderWrites_same (State.unitCrosses_same h6)))

theorem execDoneMsg_same {via : Option PortId} {z2 : LinkMsg} {group : BitVec 4} {epoch : Word} {count : Word} {s : State} (h : s.Same m z)
    (_ : .tiles ∈ m := by assumption) (_ : .memory ∈ m := by assumption) (_ : .host ∈ m := by assumption)
    (_ : .seams ∈ m := by assumption) (_ : .polders ∈ m := by assumption) (_ : .conservators ∈ m := by assumption)
    (_ : .links ∈ m := by assumption) :
    ∃ s', execDoneMsg via z2 group epoch count s = .next s' ∧ s'.Same m z := by
  unfold execDoneMsg
  refine ⟨_, rfl, ?_⟩
  refine State.Same.ite h ?_
  refine State.redArrive_same h ?_
  intro x1 s2 h3
  split
  · exact h3
  · exact State.Same.ite (State.badMessage_same h3) (State.modGroup_same h3)

theorem execToken_same {via : Option PortId} {z2 : LinkMsg} {s : State} (h : s.Same m z) (_ : .tiles ∈ m := by assumption)
    (_ : .memory ∈ m := by assumption) (_ : .host ∈ m := by assumption) (_ : .seams ∈ m := by assumption)
    (_ : .polders ∈ m := by assumption) (_ : .conservators ∈ m := by assumption) (_ : .links ∈ m := by assumption) :
    ∃ s', execToken via z2 s = .next s' ∧ s'.Same m z := by
  unfold execToken
  refine ⟨_, rfl, ?_⟩
  refine State.redArrive_same h ?_
  intro x1 s2 h3
  exact State.takeToken_same h3

theorem execFinal_same {via : Option PortId} {z2 : LinkMsg} {s : State} (h : s.Same m z) (_ : .tiles ∈ m := by assumption)
    (_ : .memory ∈ m := by assumption) (_ : .host ∈ m := by assumption) (_ : .seams ∈ m := by assumption)
    (_ : .polders ∈ m := by assumption) (_ : .conservators ∈ m := by assumption) (_ : .links ∈ m := by assumption) :
    ∃ s', execFinal via z2 s = .next s' ∧ s'.Same m z := by
  unfold execFinal
  refine ⟨_, rfl, ?_⟩
  refine State.redArrive_same h ?_
  intro x1 s2 h3
  split
  · exact State.badMessage_same h3
  · refine State.Same.ite (State.badMessage_same h3) ?_
    split
    · exact h3
    · extract_lets -underBinder +onlyGivenNames n4 s5
      have h6 : s5.Same m z := State.memWrite_same (State.adderWrites_same (State.unitCrosses_same h3))
      clear_value s5
      extract_lets -underBinder +onlyGivenNames n7
      exact State.complete_same (State.modRed_same h6)

/-! ### Schedule -/

theorem State.openStep_same {s : State} {p : Nat} (h : s.Same m z) (_ : .polders ∈ m := by assumption) :
    (State.openStep s p).Same m z := by
  unfold State.openStep
  refine State.Same.ite ?_ h
  refine State.modPld_same ?_
  refine State.forEach_same h ?_
  intro s1 x3 h2
  exact State.setReg_same h2

theorem execSubmissionEntry_same {p : Meets PolderId HostStatus} {s : State} (h : s.Same m z)
    (_ : .vfRegs ∈ m := by assumption) (_ : .host ∈ m := by assumption) (_ : .polders ∈ m := by assumption) :
    ∃ s', execSubmissionEntry p s = .next s' ∧ s'.Same m z := by
  unfold execSubmissionEntry
  refine ⟨_, rfl, ?_⟩
  refine State.Same.ite h ?_
  extract_lets -underBinder +onlyGivenNames n1 n2 n3 n4
  refine State.Same.ite (State.hostError_same h) ?_
  extract_lets -underBinder +onlyGivenNames s5
  have h6 : s5.Same m z := State.askHost_same h
  clear_value s5
  extract_lets -underBinder +onlyGivenNames n7 n8 n9 n10 n11
  have h12 : ∀ y15, State.Same y15 m z → (n11 y15).Same m z := by
    intro s13 h14
    exact State.setVfReg_same h14
  clear_value n11
  refine State.Same.ite ?_ ?_
  · refine State.posting_same h6 ?_
    intro s16 h17
    exact State.postIfOn_same (h12 _ h17)
  · refine State.Same.ite (State.modPld_same (h12 _ h6)) ?_
    split
    · refine State.posting_same h6 ?_
      intro s18 h19
      extract_lets -underBinder +onlyGivenNames s20
      have h21 : s20.Same m z := State.postIfOn_same (h12 _ h19)
      clear_value s20
      exact State.Same.ite h21 (State.setIrq_same (State.bump_same h21))
    · exact State.modPld_same (State.openStep_same (h12 _ h6))

theorem State.startOnTile_same {s : State} {p : Nat} {t : Nat} {record : List Byte} (h : s.Same m z)
    (_ : .tiles ∈ m := by assumption) (_ : .dstore ∈ m := by assumption) :
    (State.startOnTile s p t record).Same m z := by
  unfold State.startOnTile
  extract_lets -underBinder +onlyGivenNames s1
  have h2 : s1.Same m z := State.modStore_same h (fun _ => { Store.Same.refl _ with dstore := .inl (by assumption) })
  clear_value s1
  extract_lets -underBinder +onlyGivenNames s3
  have h4 : s3.Same m z := State.incrementSlot_same h2
  clear_value s3
  exact State.modTile_same h4

theorem State.startSlot_same {s : State} {p : Nat} {head : List Byte} {tail : List Byte} (h : s.Same m z)
    (_ : .tiles ∈ m := by assumption) (_ : .dstore ∈ m := by assumption) (_ : .seams ∈ m := by assumption)
    (_ : .polders ∈ m := by assumption) :
    (State.startSlot s p head tail).Same m z := by
  unfold State.startSlot
  extract_lets -underBinder +onlyGivenNames n1 n2 s3
  have h4 : s3.Same m z := State.bump_same (State.bump64_same h)
  clear_value s3
  extract_lets -underBinder +onlyGivenNames s5
  have h6 : s5.Same m z := State.modPld_same h4
  clear_value s5
  refine State.forEach_same (State.controlBurst_same h6) ?_
  intro s7 x9 h8
  exact State.startOnTile_same h8

theorem State.startMicroBatch_same {s : State} {p : Nat} (h : s.Same m z) (_ : .tiles ∈ m := by assumption)
    (_ : .dstore ∈ m := by assumption) (_ : .seams ∈ m := by assumption) (_ : .polders ∈ m := by assumption) :
    (State.startMicroBatch s p).Same m z := by
  unfold State.startMicroBatch
  extract_lets -underBinder +onlyGivenNames n1
  split
  · exact h
  · extract_lets -underBinder +onlyGivenNames s2
    have h3 : s2.Same m z := State.modPld_same h
    clear_value s2
    exact State.startSlot_same h3

theorem execCheckpointDeadline_same {t : TileId} {s : State} (h : s.Same m z) (_ : .tiles ∈ m := by assumption) :
    ∃ s', execCheckpointDeadline t s = .next s' ∧ s'.Same m z := by
  unfold execCheckpointDeadline
  refine ⟨_, rfl, ?_⟩
  refine State.Same.ite h ?_
  split
  · exact h
  · exact State.countOverrun_same (State.modTile_same h)

theorem execRowWave_same {p : PolderId} {die : BitVec 2} {s : State} (h : s.Same m z) (_ : .tiles ∈ m := by assumption)
    (_ : .seams ∈ m := by assumption) (_ : .polders ∈ m := by assumption) :
    ∃ s', execRowWave p die s = .next s' ∧ s'.Same m z := by
  unfold execRowWave
  refine ⟨_, rfl, ?_⟩
  split
  · exact h
  · extract_lets -underBinder +onlyGivenNames n1
    refine State.Same.ite h ?_
    extract_lets -underBinder +onlyGivenNames s2
    have h3 : s2.Same m z := State.modPld_same h
    clear_value s2
    extract_lets -underBinder +onlyGivenNames s4
    have h5 : s4.Same m z := State.controlCrosses_same (State.controlCrosses_same h3)
    clear_value s4
    refine State.forEach_same h5 ?_
    intro s6 x8 h7
    exact State.startTcc_same (State.modTile_same h7)

/-! ### Training -/

theorem State.curatorWrite_same {s : State} {p : Nat} {va : Nat} {bs : List Byte} (h : s.Same m z)
    (_ : .tiles ∈ m := by assumption) (_ : .memory ∈ m := by assumption) (_ : .host ∈ m := by assumption) :
    (State.curatorWrite s p va bs).Same m z := by
  unfold State.curatorWrite
  refine State.forEach_same h ?_
  intro s1 x3 h2
  split
  · exact State.curatorLands_same h2
  · exact h2

theorem State.latchNf_same {s : State} {e : NfEvent} (h : s.Same m z) (_ : .polders ∈ m := by assumption) :
    (State.latchNf s e).Same m z := by
  unfold State.latchNf
  extract_lets -underBinder +onlyGivenNames s1
  have h2 : s1.Same m z := State.setReg_same h
  clear_value s1
  exact State.modPld_same (State.setReg_same h2)

theorem State.postNf_same {s : State} {e : NfEvent} (h : s.Same m z) (_ : .vfRegs ∈ m := by assumption)
    (_ : .host ∈ m := by assumption) (_ : .polders ∈ m := by assumption) :
    (State.postNf s e).Same m z := by
  unfold State.postNf
  refine State.Same.ite ?_ h
  extract_lets -underBinder +onlyGivenNames n1
  exact State.modPld_same (State.postVf_same h)

theorem State.repostNf_same {s : State} {e : NfEvent} (h : s.Same m z) (_ : .host ∈ m := by assumption) :
    (State.repostNf s e).Same m z := by
  unfold State.repostNf
  split
  · exact State.Same.ite h (State.hostWrite_same h)
  · exact h

theorem State.receiveNf_same {s : State} {e : NfEvent} (h : s.Same m z) (_ : .vfRegs ∈ m := by assumption)
    (_ : .host ∈ m := by assumption) (_ : .polders ∈ m := by assumption) :
    (State.receiveNf s e).Same m z := by
  unfold State.receiveNf
  extract_lets -underBinder +onlyGivenNames n1 s2
  have h3 : s2.Same m z := State.bump64_same h
  clear_value s2
  refine State.Same.ite h3 ?_
  extract_lets -underBinder +onlyGivenNames s4
  have h5 : s4.Same m z := State.bumpSat_same h3
  clear_value s4
  extract_lets -underBinder +onlyGivenNames n6
  refine State.Same.ite ?_ (State.Same.ite (State.repostNf_same (State.latchNf_same h5)) h5)
  extract_lets -underBinder +onlyGivenNames s7
  have h8 : s7.Same m z := State.postNf_same (State.latchNf_same h5)
  clear_value s7
  exact State.Same.ite (State.setIrq_same h8) h8

theorem execNonFiniteEvent_same {i : Nat} {s : State} (h : s.Same m z) (_ : .vfRegs ∈ m := by assumption)
    (_ : .host ∈ m := by assumption) (_ : .seams ∈ m := by assumption) (_ : .polders ∈ m := by assumption) :
    ∃ s', execNonFiniteEvent i s = .next s' ∧ s'.Same m z := by
  unfold execNonFiniteEvent
  refine ⟨_, rfl, ?_⟩
  split
  · exact h
  · extract_lets -underBinder +onlyGivenNames n1
    have h2 : ∀ y5, State.Same y5 m z → (n1 y5).Same m z := by
      intro s3 h4
      exact State.controlCrosses_same (State.modNets_same h4)
    clear_value n1
    refine State.Same.ite (h2 _ h) ?_
    refine State.Same.ite ?_ (State.receiveNf_same (h2 _ h))
    refine State.posting_same h ?_
    intro s6 h7
    exact State.receiveNf_same (h2 _ h7)

theorem State.showWindow_same {s : State} {p : Nat} {reset : Bool} {flagged : Bool} (h : s.Same m z) :
    (State.showWindow s p reset flagged).Same m z := by
  unfold State.showWindow
  extract_lets -underBinder +onlyGivenNames n1
  exact State.setReg_same h

theorem State.evaluateLoss_same {s : State} {p : Nat} {t : Tensor} (h : s.Same m z) :
    (State.evaluateLoss s p t).2.2.Same m z := by
  unfold State.evaluateLoss
  extract_lets -underBinder +onlyGivenNames x lo hi y s1 s2 s3 s4
  have h1 : s3.Same m z := State.showWindow_same (State.setReg_same (State.setReg_same (State.setReg_same h)))
  have h2 : s4.Same m z := State.Same.ite (State.bump64_same h1) h1
  clear_value s4
  dsimp only
  exact State.Same.ite (State.setIrq_same h2) h2

theorem State.lossPart_same {s : State} {p : Nat} {a : Option Tensor} (h : s.Same m z) :
    (State.lossPart s p a).2.2.Same m z := by
  cases a with
  | none => exact h
  | some t =>
    simp only [State.lossPart]
    exact State.evaluateLoss_same h

theorem State.formVerdict_same {s : State} {p : Nat} (h : s.Same m z) (_ : .polders ∈ m := by assumption) :
    (State.formVerdict s p).Same m z := by
  unfold State.formVerdict
  extract_lets -underBinder +onlyGivenNames x gs nf topped crest code s1 e
  have h1 : e.2.2.Same m z := State.lossPart_same (State.setReg_same h)
  clear_value e
  extract_lets -underBinder +onlyGivenNames ovt w
  exact State.modPld_same h1

theorem State.discardHeld_same {s : State} {n : Nat} {p : Nat} (h : s.Same m z) (_ : .conservators ∈ m := by assumption) :
    (State.discardHeld s n p).Same m z := by
  unfold State.discardHeld
  refine State.Same.ite ?_ h
  extract_lets -underBinder +onlyGivenNames s1
  have h2 : s1.Same m z := State.setIrq_same (State.bump_same h)
  clear_value s1
  exact State.modCns_same h2

theorem State.releaseHeld_same {s : State} {n : Nat} {p : Nat} (h : s.Same m z) (_ : .conservators ∈ m := by assumption) :
    (State.releaseHeld s n p).Same m z := by
  unfold State.releaseHeld
  exact State.Same.ite (State.modCns_same h) h

theorem execStepVerdict_same {p : PolderId} {s : State} (h : s.Same m z) (_ : .polders ∈ m := by assumption)
    (_ : .conservators ∈ m := by assumption) (_ : .links ∈ m := by assumption) :
    ∃ s', execStepVerdict p s = .next s' ∧ s'.Same m z := by
  unfold execStepVerdict
  refine ⟨_, rfl, ?_⟩
  refine State.Same.ite h ?_
  extract_lets -underBinder +onlyGivenNames s1
  have h2 : s1.Same m z := State.settleRed_same (State.formVerdict_same h)
  clear_value s1
  split
  · refine State.forEach_same h2 ?_
    intro s3 x5 h4
    exact State.Same.ite (State.discardHeld_same h4) (State.releaseHeld_same h4)
  · exact h2

theorem State.commitMonitor_same {s : State} {p : Nat} {v : Verdict} (h : s.Same m z) (_ : .tiles ∈ m := by assumption)
    (_ : .memory ∈ m := by assumption) (_ : .host ∈ m := by assumption) (_ : .polders ∈ m := by assumption) :
    (State.commitMonitor s p v).Same m z := by
  unfold State.commitMonitor
  extract_lets -underBinder +onlyGivenNames n1
  refine State.Same.ite h ?_
  extract_lets -underBinder +onlyGivenNames n2 s3
  have h4 : s3.Same m z := State.modPld_same h
  clear_value s3
  extract_lets -underBinder +onlyGivenNames s5
  have h6 : s5.Same m z := State.Same.ite (State.bump_same h4) (State.Same.ite (State.setReg_same h4) h4)
  clear_value s5
  extract_lets -underBinder +onlyGivenNames n7 s8
  have h9 : s8.Same m z := State.showWindow_same h6
  clear_value s8
  exact State.curatorWrite_same h9

theorem State.fillProbes_same {s : State} {p : Nat} (h : s.Same m z) (_ : .tiles ∈ m := by assumption)
    (_ : .memory ∈ m := by assumption) (_ : .host ∈ m := by assumption) :
    (State.fillProbes s p).Same m z := by
  unfold State.fillProbes
  extract_lets -underBinder +onlyGivenNames n1
  refine State.forEach_same h ?_
  intro s2 x4 h3
  split
  · exact State.curatorWrite_same h3
  · exact h3

theorem State.commitCrests_same {s : State} {p : Nat} (h : s.Same m z) (_ : .tiles ∈ m := by assumption)
    (_ : .memory ∈ m := by assumption) (_ : .host ∈ m := by assumption) (_ : .polders ∈ m := by assumption) :
    (State.commitCrests s p).Same m z := by
  unfold State.commitCrests
  extract_lets -underBinder +onlyGivenNames n1 n2 s3
  have h4 : s3.Same m z := State.modRed_same h
  clear_value s3
  refine State.forEach_same h4 ?_
  intro s5 x7 h6
  exact State.curatorWrite_same h6

theorem State.commit_same {s : State} {p : Nat} {v : Verdict} (h : s.Same m z) (_ : .vfRegs ∈ m := by assumption)
    (_ : .tiles ∈ m := by assumption) (_ : .memory ∈ m := by assumption) (_ : .host ∈ m := by assumption)
    (_ : .seams ∈ m := by assumption) (_ : .polders ∈ m := by assumption) (_ : .conservators ∈ m := by assumption)
    (_ : .links ∈ m := by assumption) :
    (State.commit s p v).Same m z := by
  unfold State.commit
  extract_lets -underBinder +onlyGivenNames n1 n2 s3
  have h4 : s3.Same m z := State.commitMonitor_same h
  clear_value s3
  extract_lets -underBinder +onlyGivenNames s5
  have h6 : s5.Same m z := State.Same.ite (State.setIrq_same (State.bump64_same h4)) (State.setReg_same h4)
  clear_value s5
  extract_lets -underBinder +onlyGivenNames s7
  have h8 : s7.Same m z := State.commitCrests_same h6
  clear_value s7
  extract_lets -underBinder +onlyGivenNames n9 s10
  have h11 : s10.Same m z := State.setReg_same h8
  clear_value s10
  extract_lets -underBinder +onlyGivenNames s12
  have h13 : s12.Same m z := State.fillProbes_same (State.modRed_same h11)
  clear_value s12
  extract_lets -underBinder +onlyGivenNames s14
  have h15 : s14.Same m z := State.setReg_same h13
  clear_value s14
  extract_lets -underBinder +onlyGivenNames s16
  have h17 : s16.Same m z := State.postIfOn_same h15
  clear_value s16
  extract_lets -underBinder +onlyGivenNames s18
  have h19 : s18.Same m z := State.modPld_same h17
  clear_value s18
  extract_lets -underBinder +onlyGivenNames s20
  have h21 : s20.Same m z := by
    refine State.forEach_same h19 ?_
    intro s22 x24 h23
    exact State.modCns_same h23
  clear_value s20
  exact State.sendOpens_same h21

theorem execStepCommit_same {p : PolderId} {s : State} (h : s.Same m z) (_ : .vfRegs ∈ m := by assumption)
    (_ : .tiles ∈ m := by assumption) (_ : .memory ∈ m := by assumption) (_ : .host ∈ m := by assumption)
    (_ : .seams ∈ m := by assumption) (_ : .polders ∈ m := by assumption) (_ : .conservators ∈ m := by assumption)
    (_ : .links ∈ m := by assumption) :
    ∃ s', execStepCommit p s = .next s' ∧ s'.Same m z := by
  unfold execStepCommit
  refine ⟨_, rfl, ?_⟩
  split
  · refine State.Same.ite ?_ h
    refine State.posting_same h ?_
    intro s1 h2
    exact State.commit_same h2
  · exact h

end Sys2Proof.Machine
end

