-- ==== Sys2Proof/Laws/FrameServing.lean ====
section
/-!
SUPPORT. Which parts of the state the definitions of serving, the host interface, the array, the sparse and vector units, transforms and the conservator leave unchanged.
-/

-- one proof at a time: the package as one text would start more threads than its memory limit allows
set_option Elab.async false

namespace Sys2Proof.Machine

variable {m : List Part} {z : State}



/-! ### Serving -/

theorem State.modServe_same {s : State} {p : Nat} {f : Serving → Serving} (h : s.Same m z) (_ : .polders ∈ m := by assumption) :
    (State.modServe s p f).Same m z := by
  unfold State.modServe
  exact State.modPld_same h

theorem State.postRecords_same {s : State} {p : Nat} {a : List (Nat × List Byte)} (h : s.Same m z)
    (_ : .vfRegs ∈ m := by assumption) (_ : .host ∈ m := by assumption) :
    (State.postRecords s p a).2.Same m z := by
  induction a generalizing s with
  | nil => exact h
  | cons x rest ih =>
    simp only [State.postRecords]
    split
    · exact h
    · exact ih (State.postIfOn_same h)

theorem State.stampPlanned_same {s : State} {p : Nat} (h : s.Same m z) (_ : .polders ∈ m := by assumption) :
    (State.stampPlanned s p).Same m z := by
  unfold State.stampPlanned
  exact State.Same.ite (State.modPld_same h) h

theorem State.flushRecords_same {s : State} {p : Nat} (h : s.Same m z) (_ : .vfRegs ∈ m := by assumption)
    (_ : .host ∈ m := by assumption) (_ : .polders ∈ m := by assumption) :
    (State.flushRecords s p).Same m z := by
  unfold State.flushRecords
  refine State.Same.ite h ?_
  extract_lets -underBinder +onlyGivenNames n1
  have h2 : n1.2.Same m z := State.postRecords_same h
  clear_value n1
  exact State.setHeld_same (State.modServe_same h2)

theorem State.queueRecords_same {s : State} {p : Nat} {l : List (Nat × List Byte)} (h : s.Same m z)
    (_ : .vfRegs ∈ m := by assumption) (_ : .host ∈ m := by assumption) (_ : .polders ∈ m := by assumption) :
    (State.queueRecords s p l).Same m z := by
  unfold State.queueRecords
  exact State.flushRecords_same (State.modServe_same h)

theorem State.controlWrite_same {s : State} {p : Nat} {va : Nat} {bs : List Byte} (h : s.Same m z)
    (_ : .tiles ∈ m := by assumption) (_ : .memory ∈ m := by assumption) (_ : .host ∈ m := by assumption)
    (_ : .conservators ∈ m := by assumption) (_ : .links ∈ m := by assumption) :
    (State.controlWrite s p va bs).Same m z := by
  unfold State.controlWrite
  refine State.forEach_same h ?_
  intro s1 x3 h2
  split
  · exact State.landWrite_same (State.closeMerges_same h2)
  · exact h2

theorem State.writeRow_same {s : State} {p : Nat} {v : Nat} {slot : Nat} {pages : List Page} (h : s.Same m z)
    (_ : .tiles ∈ m := by assumption) (_ : .memory ∈ m := by assumption) (_ : .host ∈ m := by assumption)
    (_ : .conservators ∈ m := by assumption) (_ : .links ∈ m := by assumption) :
    (State.writeRow s p v slot pages).Same m z := by
  unfold State.writeRow
  extract_lets -underBinder +onlyGivenNames n1
  exact State.controlWrite_same h

theorem State.emptyRow_same {s : State} {p : Nat} {slot : Nat} (h : s.Same m z) (_ : .tiles ∈ m := by assumption)
    (_ : .memory ∈ m := by assumption) (_ : .host ∈ m := by assumption) (_ : .polders ∈ m := by assumption)
    (_ : .conservators ∈ m := by assumption) (_ : .links ∈ m := by assumption) :
    (State.emptyRow s p slot).Same m z := by
  unfold State.emptyRow
  extract_lets -underBinder +onlyGivenNames n1
  exact State.Same.ite (State.modServe_same h) (State.modServe_same (State.writeRow_same h))

theorem State.refuseItem_same {s : State} {p : Nat} {tag : Nat} {code : Nat} {id : Nat} (h : s.Same m z)
    (_ : .vfRegs ∈ m := by assumption) (_ : .host ∈ m := by assumption) (_ : .polders ∈ m := by assumption) :
    (State.refuseItem s p tag code id).Same m z := by
  unfold State.refuseItem
  exact State.queueRecords_same (State.bump_same h)

theorem State.takeDescriptor_same {s : State} {p : Nat} {tag : Nat} {earlier : List Nat} {b : List Byte} (h : s.Same m z)
    (_ : .vfRegs ∈ m := by assumption) (_ : .host ∈ m := by assumption) (_ : .polders ∈ m := by assumption) :
    (State.takeDescriptor s p tag earlier b).Same m z := by
  unfold State.takeDescriptor
  extract_lets -underBinder +onlyGivenNames n1 n2
  refine State.Same.ite (State.refuseItem_same h) ?_
  exact State.Same.ite (State.refuseItem_same h) (State.modServe_same h)

theorem State.takeCancel_same {s : State} {p : Nat} {id : Dword} (h : s.Same m z) (_ : .tiles ∈ m := by assumption)
    (_ : .memory ∈ m := by assumption) (_ : .host ∈ m := by assumption) (_ : .polders ∈ m := by assumption)
    (_ : .conservators ∈ m := by assumption) (_ : .links ∈ m := by assumption) :
    (State.takeCancel s p id).Same m z := by
  unfold State.takeCancel
  split
  · exact State.bump_same h
  · extract_lets -underBinder +onlyGivenNames s1
    have h2 : s1.Same m z := State.modServe_same h
    clear_value s1
    split
    · exact State.Same.ite h2 (State.emptyRow_same h2)
    · exact h2

theorem State.takeIntake_same {s : State} {p : Nat} {tag : Nat} {va : Nat} (h : s.Same m z) (_ : .vfRegs ∈ m := by assumption)
    (_ : .tiles ∈ m := by assumption) (_ : .memory ∈ m := by assumption) (_ : .host ∈ m := by assumption)
    (_ : .polders ∈ m := by assumption) (_ : .conservators ∈ m := by assumption) (_ : .links ∈ m := by assumption) :
    (State.takeIntake s p tag va).Same m z := by
  unfold State.takeIntake
  extract_lets -underBinder +onlyGivenNames n1 n2 n3
  refine State.Same.ite (State.refuseItem_same h) ?_
  refine State.Same.ite (State.refuseItem_same h) ?_
  extract_lets -underBinder +onlyGivenNames s4
  have h5 : s4.Same m z := State.modServe_same (State.countIntakeWait_same h)
  clear_value s4
  extract_lets -underBinder +onlyGivenNames n6 s7
  have h8 : s7.Same m z := by
    refine State.forEach_same h5 ?_
    intro s9 x11 h10
    exact State.takeDescriptor_same h10
  clear_value s7
  refine State.forEach_same h8 ?_
  intro s12 x14 h13
  exact State.takeCancel_same h13

theorem execIntake_same {p : PolderId} {rd : HostRead} {s : State} (h : s.Same m z) (_ : .vfRegs ∈ m := by assumption)
    (_ : .tiles ∈ m := by assumption) (_ : .memory ∈ m := by assumption) (_ : .host ∈ m := by assumption)
    (_ : .polders ∈ m := by assumption) (_ : .conservators ∈ m := by assumption) (_ : .links ∈ m := by assumption) :
    ∃ s', execIntake p rd s = .next s' ∧ s'.Same m z := by
  unfold execIntake
  refine ⟨_, rfl, ?_⟩
  split
  · exact h
  · refine State.Same.ite h ?_
    extract_lets -underBinder +onlyGivenNames s1
    have h2 : s1.Same m z := State.modPld_same h
    clear_value s1
    split
    · exact State.queueRecords_same h2
    · exact State.takeIntake_same (State.askHost_same h2)

theorem State.curatorFetch_same {s : State} {p : Nat} {ecc : List Ecc} {l : List (Nat × Nat)} (h : s.Same m z)
    (_ : .frames ∈ m := by assumption) (_ : .journal ∈ m := by assumption) (_ : .spares ∈ m := by assumption) :
    (s.curatorFetch p ecc l).2.Same m z := by
  induction l generalizing s ecc with
  | nil => exact h
  | cons c cs ih =>
    unfold State.curatorFetch
    split
    · exact h
    · exact State.memLost_same (State.countRead_same h)
    · extract_lets -underBinder +onlyGivenNames s1
      have h1 : s1.Same m z := State.countRead_same h
      clear_value s1
      extract_lets -underBinder +onlyGivenNames s2
      have h2 : s2.Same m z := State.Same.ite (State.memCorrected_same h1) h1
      clear_value s2
      split
      next s3 e => rw [show s3 = _ from (congrArg Prod.snd e).symm]; exact ih h2
      next bs s3 e => rw [show s3 = _ from (congrArg Prod.snd e).symm]; exact ih h2

theorem State.entryTokens_same {s : State} {p : Nat} {q : Sequence} {e : BatchEntry} (h : s.Same m z)
    (_ : .tiles ∈ m := by assumption) (_ : .frames ∈ m := by assumption) (_ : .seams ∈ m := by assumption)
    (_ : .conservators ∈ m := by assumption) (_ : .links ∈ m := by assumption) (_ : .journal ∈ m := by assumption)
    (_ : .spares ∈ m := by assumption) :
    (State.entryTokens s p q e).2.Same m z := by
  unfold State.entryTokens
  split
  · exact h
  · extract_lets -underBinder +onlyGivenNames n1
    have h2 : n1.2.Same m z := State.masterRead_same h
    clear_value n1
    exact h2

theorem State.batchTokens_same {s : State} {p : Nat} {seqs : List Sequence} {a : List BatchEntry} (h : s.Same m z)
    (_ : .tiles ∈ m := by assumption) (_ : .frames ∈ m := by assumption) (_ : .seams ∈ m := by assumption)
    (_ : .conservators ∈ m := by assumption) (_ : .links ∈ m := by assumption) (_ : .journal ∈ m := by assumption)
    (_ : .spares ∈ m := by assumption) :
    (State.batchTokens s p seqs a).2.Same m z := by
  induction a generalizing s with
  | nil => exact h
  | cons x rest ih => exact ih (State.entryTokens_same h)

theorem State.writePlan_same {s : State} {p : Nat} {b : Plan} (h : s.Same m z) (_ : .tiles ∈ m := by assumption)
    (_ : .memory ∈ m := by assumption) (_ : .host ∈ m := by assumption) (_ : .frames ∈ m := by assumption)
    (_ : .seams ∈ m := by assumption) (_ : .conservators ∈ m := by assumption) (_ : .links ∈ m := by assumption)
    (_ : .journal ∈ m := by assumption) (_ : .spares ∈ m := by assumption) :
    (State.writePlan s p b).Same m z := by
  unfold State.writePlan
  extract_lets -underBinder +onlyGivenNames n1 n2 s3
  have h4 : s3.Same m z := by
    refine State.forEach_same h ?_
    intro s5 x7 h6
    exact State.writeRow_same h6
  clear_value s3
  extract_lets -underBinder +onlyGivenNames n8
  have h9 : n8.2.Same m z := State.batchTokens_same h4
  clear_value n8
  extract_lets -underBinder +onlyGivenNames s10
  have h11 : s10.Same m z := State.controlWrite_same h9
  clear_value s10
  exact State.controlWrite_same h11

theorem State.giveMoves_same {s : State} {p : Nat} {l : List Move} (h : s.Same m z) (_ : .polders ∈ m := by assumption) :
    (State.giveMoves s p l).Same m z := by
  unfold State.giveMoves
  extract_lets -underBinder +onlyGivenNames n1
  exact State.modStore_same (State.modServe_same h) (fun _ => { Store.Same.refl _ with })

theorem State.takePlan_same {s : State} {n : Nat} {b : Plan} (h : s.Same m z) (_ : .tiles ∈ m := by assumption)
    (_ : .memory ∈ m := by assumption) (_ : .host ∈ m := by assumption) (_ : .frames ∈ m := by assumption)
    (_ : .seams ∈ m := by assumption) (_ : .polders ∈ m := by assumption) (_ : .conservators ∈ m := by assumption)
    (_ : .links ∈ m := by assumption) (_ : .journal ∈ m := by assumption) (_ : .spares ∈ m := by assumption) :
    (State.takePlan s n b).Same m z := by
  unfold State.takePlan
  extract_lets -underBinder +onlyGivenNames s1
  have h2 : s1.Same m z := State.writePlan_same h
  clear_value s1
  extract_lets -underBinder +onlyGivenNames s3
  have h4 : s3.Same m z := State.bump_same (State.bump_same h2)
  clear_value s3
  extract_lets -underBinder +onlyGivenNames s5
  have h6 : s5.Same m z := State.bump_same h4
  clear_value s5
  extract_lets -underBinder +onlyGivenNames s7
  have h8 : s7.Same m z := State.Same.ite h6 (State.setIrq_same h6)
  clear_value s7
  extract_lets -underBinder +onlyGivenNames s9
  have h10 : s9.Same m z := State.Same.ite h8 (State.setIrq_same h8)
  clear_value s9
  extract_lets -underBinder +onlyGivenNames s11
  have h12 : s11.Same m z := State.modPld_same h10
  clear_value s11
  exact State.stampPlanned_same (State.giveMoves_same h12)

theorem State.postBoundary_same {s : State} {n : Nat} {b : Plan} (h : s.Same m z) (_ : .vfRegs ∈ m := by assumption)
    (_ : .tiles ∈ m := by assumption) (_ : .memory ∈ m := by assumption) (_ : .host ∈ m := by assumption)
    (_ : .frames ∈ m := by assumption) (_ : .seams ∈ m := by assumption) (_ : .polders ∈ m := by assumption)
    (_ : .conservators ∈ m := by assumption) (_ : .links ∈ m := by assumption) (_ : .journal ∈ m := by assumption)
    (_ : .spares ∈ m := by assumption) :
    (State.postBoundary s n b).Same m z := by
  unfold State.postBoundary
  extract_lets -underBinder +onlyGivenNames s1
  have h2 : s1.Same m z := State.queueRecords_same (State.modServe_same h)
  clear_value s1
  exact State.Same.ite (State.takePlan_same h2) h2

theorem execStepBoundary_same {p : Meets PolderId (List Ecc)} {s : State} (h : s.Same m z) (_ : .vfRegs ∈ m := by assumption)
    (_ : .tiles ∈ m := by assumption) (_ : .memory ∈ m := by assumption) (_ : .host ∈ m := by assumption)
    (_ : .frames ∈ m := by assumption) (_ : .seams ∈ m := by assumption) (_ : .polders ∈ m := by assumption)
    (_ : .conservators ∈ m := by assumption) (_ : .links ∈ m := by assumption) (_ : .journal ∈ m := by assumption)
    (_ : .spares ∈ m := by assumption) :
    ∃ s', execStepBoundary p s = .next s' ∧ s'.Same m z := by
  unfold execStepBoundary
  refine ⟨_, rfl, ?_⟩
  refine State.Same.ite h ?_
  refine State.Same.ite (State.takePlan_same h) ?_
  split
  next s1 e3 =>
    have h2 : s1.Same m z := by
      rw [show s1 = _ from (congrArg Prod.snd e3).symm]
      exact State.curatorFetch_same h
    exact h2
  next x4 s5 e7 =>
    have h6 : s5.Same m z := by
      rw [show s5 = _ from (congrArg Prod.snd e7).symm]
      exact State.curatorFetch_same h
    exact State.postBoundary_same h6

theorem State.moveBlocks_same {s : State} {p die : Nat} {mv : Move} {ecc : List Ecc} {l : List Nat} (h : s.Same m z)
    (_ : .tiles ∈ m := by assumption) (_ : .memory ∈ m := by assumption) (_ : .host ∈ m := by assumption)
    (_ : .frames ∈ m := by assumption) (_ : .seams ∈ m := by assumption) (_ : .conservators ∈ m := by assumption)
    (_ : .links ∈ m := by assumption) (_ : .journal ∈ m := by assumption) (_ : .spares ∈ m := by assumption) :
    (s.moveBlocks p die mv ecc l).2.Same m z := by
  induction l generalizing s ecc with
  | nil => exact h
  | cons i is ih =>
    unfold State.moveBlocks
    extract_lets -underBinder +onlyGivenNames c
    split
    next s1 e => rw [show s1 = _ from (congrArg Prod.snd e).symm]; exact State.masterRead_same h
    next bs s1 e =>
      have h1 : s1.Same m z := by rw [show s1 = _ from (congrArg Prod.snd e).symm]; exact State.masterRead_same h
      split
      next s2 e2 => rw [show s2 = _ from (congrArg Prod.snd e2).symm]; exact State.masterWrite_same h1
      next s2 e2 =>
        have h2 : s2.Same m z := by rw [show s2 = _ from (congrArg Prod.snd e2).symm]; exact State.masterWrite_same h1
        exact ih h2

theorem State.startHostDma_same {s : State} {k : Nat} {p : Nat} (h : s.Same m z) (_ : .polders ∈ m := by assumption)
    (_ : .links ∈ m := by assumption) :
    (State.startHostDma s k p).Same m z := by
  unfold State.startHostDma
  refine State.Same.ite h ?_
  extract_lets -underBinder +onlyGivenNames n1 n2 s3
  have h4 : s3.Same m z := State.takeEngine_same h
  clear_value s3
  split
  · exact State.endHostDesc_same (State.respond_same h4)
  · refine State.Same.ite h4 ?_
    split
    · extract_lets -underBinder +onlyGivenNames s5
      have h6 : s5.Same m z := State.modSlot_same h4
      clear_value s5
      exact State.Same.ite h6 (State.markTags_same (State.askHost_same (State.remoteWait_same h6)))
    · exact State.Same.ite (State.remoteWait_same h4) h4
    · exact h4

theorem execSharedDescriptorStart_same {e : SharedEngine} {p : PolderId} {ecc : List Ecc} {s : State} (h : s.Same m z)
    (_ : .tiles ∈ m := by assumption) (_ : .memory ∈ m := by assumption) (_ : .host ∈ m := by assumption)
    (_ : .frames ∈ m := by assumption) (_ : .seams ∈ m := by assumption) (_ : .polders ∈ m := by assumption)
    (_ : .conservators ∈ m := by assumption) (_ : .links ∈ m := by assumption) (_ : .journal ∈ m := by assumption)
    (_ : .spares ∈ m := by assumption) :
    ∃ s', execSharedDescriptorStart e p ecc s = .next s' ∧ s'.Same m z := by
  unfold execSharedDescriptorStart
  refine ⟨_, rfl, ?_⟩
  split
  · exact State.startLink_same h
  · exact State.startHostDma_same h
  · exact State.startReduction_same h

theorem execPageMoveComplete_same {p : Meets PolderId (List Ecc)} {s : State} (h : s.Same m z)
    (_ : .tiles ∈ m := by assumption) (_ : .memory ∈ m := by assumption) (_ : .host ∈ m := by assumption)
    (_ : .frames ∈ m := by assumption) (_ : .seams ∈ m := by assumption) (_ : .polders ∈ m := by assumption)
    (_ : .conservators ∈ m := by assumption) (_ : .links ∈ m := by assumption) (_ : .journal ∈ m := by assumption)
    (_ : .spares ∈ m := by assumption) :
    ∃ s', execPageMoveComplete p s = .next s' ∧ s'.Same m z := by
  unfold execPageMoveComplete
  refine ⟨_, rfl, ?_⟩
  split
  · exact h
  · refine State.Same.ite h ?_
    refine State.Same.ite (State.endWait_same h) ?_
    split
    next s1 e3 =>
      have h2 : s1.Same m z := by
        rw [show s1 = _ from (congrArg Prod.snd e3).symm]
        exact State.moveBlocks_same (State.endWait_same h)
      exact State.modSlot_same h2
    next s4 e6 =>
      have h5 : s4.Same m z := by
        rw [show s4 = _ from (congrArg Prod.snd e6).symm]
        exact State.moveBlocks_same (State.endWait_same h)
      extract_lets -underBinder +onlyGivenNames s7
      have h8 : s7.Same m z := State.modServe_same (State.endHostDesc_same h5)
      clear_value s7
      exact State.Same.ite (State.stampPlanned_same (State.bump_same h8)) h8

theorem execTableRowCopy_same {p : PolderId} {slot : Meets (BitVec 12) (List Ecc)} {s : State} (h : s.Same m z)
    (_ : .tiles ∈ m := by assumption) (_ : .memory ∈ m := by assumption) (_ : .host ∈ m := by assumption)
    (_ : .frames ∈ m := by assumption) (_ : .polders ∈ m := by assumption) (_ : .conservators ∈ m := by assumption)
    (_ : .links ∈ m := by assumption) (_ : .journal ∈ m := by assumption) (_ : .spares ∈ m := by assumption) :
    ∃ s', execTableRowCopy p slot s = .next s' ∧ s'.Same m z := by
  unfold execTableRowCopy
  refine ⟨_, rfl, ?_⟩
  refine State.Same.ite h ?_
  split
  next s1 e3 =>
    have h2 : s1.Same m z := by
      rw [show s1 = _ from (congrArg Prod.snd e3).symm]
      exact State.curatorFetch_same h
    exact h2
  next x4 s5 e7 =>
    have h6 : s5.Same m z := by
      rw [show s5 = _ from (congrArg Prod.snd e7).symm]
      exact State.curatorFetch_same h
    extract_lets -underBinder +onlyGivenNames s8
    have h9 : s8.Same m z := State.controlWrite_same h6
    clear_value s8
    extract_lets -underBinder +onlyGivenNames s10
    have h11 : s10.Same m z := State.modServe_same h9
    clear_value s10
    exact State.Same.ite (State.emptyRow_same h11) h11

theorem State.startServing_same {s : State} {p : Nat} {bytes : List Byte} (h : s.Same m z) (_ : .vfRegs ∈ m := by assumption)
    (_ : .tiles ∈ m := by assumption) (_ : .dstore ∈ m := by assumption) (_ : .host ∈ m := by assumption)
    (_ : .seams ∈ m := by assumption) (_ : .polders ∈ m := by assumption) :
    (State.startServing s p bytes).Same m z := by
  unfold State.startServing
  extract_lets -underBinder +onlyGivenNames n1 n2 n3 n4 n5 s6
  have h7 : s6.Same m z := State.postIfOn_same h
  clear_value s6
  extract_lets -underBinder +onlyGivenNames n8 s9
  have h10 : s9.Same m z := State.setReg_same (State.setReg_same (State.setReg_same h7))
  clear_value s9
  extract_lets -underBinder +onlyGivenNames s11
  have h12 : s11.Same m z := State.setReg64_same (State.bump64_same h10)
  clear_value s11
  extract_lets -underBinder +onlyGivenNames s13
  have h14 : s13.Same m z := State.setReg_same (State.setReg_same h12)
  clear_value s13
  extract_lets -underBinder +onlyGivenNames s15
  have h16 : s15.Same m z := State.modPld_same h14
  clear_value s15
  exact State.startSlot_same h16

theorem State.fetchPlan_same {s : State} {p : Nat} {ecc : List Ecc} (h : s.Same m z) (_ : .vfRegs ∈ m := by assumption)
    (_ : .tiles ∈ m := by assumption) (_ : .dstore ∈ m := by assumption) (_ : .host ∈ m := by assumption)
    (_ : .frames ∈ m := by assumption) (_ : .seams ∈ m := by assumption) (_ : .polders ∈ m := by assumption)
    (_ : .journal ∈ m := by assumption) (_ : .spares ∈ m := by assumption) :
    (State.fetchPlan s p ecc).Same m z := by
  unfold State.fetchPlan
  split
  next s1 e3 =>
    have h2 : s1.Same m z := by
      rw [show s1 = _ from (congrArg Prod.snd e3).symm]
      exact State.curatorFetch_same h
    exact h2
  next x4 s5 e7 =>
    have h6 : s5.Same m z := by
      rw [show s5 = _ from (congrArg Prod.snd e7).symm]
      exact State.curatorFetch_same h
    exact State.startServing_same h6

theorem execSlotStart_same {p : Meets PolderId (List Ecc)} {s : State} (h : s.Same m z) (_ : .vfRegs ∈ m := by assumption)
    (_ : .tiles ∈ m := by assumption) (_ : .dstore ∈ m := by assumption) (_ : .host ∈ m := by assumption)
    (_ : .frames ∈ m := by assumption) (_ : .seams ∈ m := by assumption) (_ : .polders ∈ m := by assumption)
    (_ : .journal ∈ m := by assumption) (_ : .spares ∈ m := by assumption) :
    ∃ s', execSlotStart p s = .next s' ∧ s'.Same m z := by
  unfold execSlotStart
  refine ⟨_, rfl, ?_⟩
  refine State.Same.ite h ?_
  refine State.Same.ite ?_ (State.Same.ite (State.startMicroBatch_same h) h)
  refine State.Same.ite ?_ h
  refine State.posting_same h ?_
  intro s1 h2
  exact State.fetchPlan_same h2

/-! ### Host -/

theorem State.vfViolation_same {s : State} {p : Nat} {code : Nat} (h : s.Same m z) (_ : .vfRegs ∈ m := by assumption)
    (_ : .tiles ∈ m := by assumption) (_ : .conservators ∈ m := by assumption) (_ : .links ∈ m := by assumption) :
    (State.vfViolation s p code).Same m z := by
  unfold State.vfViolation
  exact State.raiseMaster_same (State.setVfReg_same h)

theorem State.vfWrite_same {s : State} {p : Nat} {off : Nat} {act : State → State} (h : s.Same m z) (hact : ∀ y1, State.Same y1 m z → (act y1).Same m z) :
    (State.vfWrite s p off act).Same m z := by
  unfold State.vfWrite
  refine State.Same.ite (State.answerError_same h) ?_
  exact State.Same.ite (State.answerError_same (State.sendAer_same h)) (State.answerWritten_same (hact _ h))

theorem State.writeSqTail_same {s : State} {p : Nat} {v : Word} (h : s.Same m z) (_ : .vfRegs ∈ m := by assumption)
    (_ : .tiles ∈ m := by assumption) (_ : .conservators ∈ m := by assumption) (_ : .links ∈ m := by assumption) :
    (State.writeSqTail s p v).Same m z := by
  unfold State.writeSqTail
  exact State.Same.ite h (State.Same.ite (State.vfViolation_same h) (State.setVfReg_same h))

theorem execVfSqTail_same {p : PolderId} {value : Word} {s : State} (h : s.Same m z) (_ : .vfRegs ∈ m := by assumption)
    (_ : .tiles ∈ m := by assumption) (_ : .conservators ∈ m := by assumption) (_ : .links ∈ m := by assumption) :
    ∃ s', execVfSqTail p value s = .next s' ∧ s'.Same m z := by
  unfold execVfSqTail
  refine ⟨_, rfl, ?_⟩
  refine State.vfWrite_same h ?_
  intro s1 h2
  exact State.writeSqTail_same h2

theorem State.writeCqHead_same {s : State} {p : Nat} {v : Word} (h : s.Same m z) (_ : .vfRegs ∈ m := by assumption)
    (_ : .tiles ∈ m := by assumption) (_ : .host ∈ m := by assumption) (_ : .polders ∈ m := by assumption)
    (_ : .conservators ∈ m := by assumption) (_ : .links ∈ m := by assumption) :
    (State.writeCqHead s p v).Same m z := by
  unfold State.writeCqHead
  refine State.Same.ite h ?_
  refine State.Same.ite (State.vfViolation_same h) ?_
  extract_lets -underBinder +onlyGivenNames s1
  have h2 : s1.Same m z := State.setVfReg_same h
  clear_value s1
  extract_lets -underBinder +onlyGivenNames s3
  have h4 : s3.Same m z := State.Same.ite h2 (State.sendMsix_same h2)
  clear_value s3
  exact State.flushRecords_same h4

theorem execVfCqHead_same {p : PolderId} {value : Word} {s : State} (h : s.Same m z) (_ : .vfRegs ∈ m := by assumption)
    (_ : .tiles ∈ m := by assumption) (_ : .host ∈ m := by assumption) (_ : .polders ∈ m := by assumption)
    (_ : .conservators ∈ m := by assumption) (_ : .links ∈ m := by assumption) :
    ∃ s', execVfCqHead p value s = .next s' ∧ s'.Same m z := by
  unfold execVfCqHead
  refine ⟨_, rfl, ?_⟩
  refine State.vfWrite_same h ?_
  intro s1 h2
  exact State.writeCqHead_same h2

theorem State.writeQueueConfig_same {s : State} {p : Nat} {off : Nat} {v : Word} (h : s.Same m z)
    (_ : .vfRegs ∈ m := by assumption) (_ : .tiles ∈ m := by assumption) (_ : .conservators ∈ m := by assumption)
    (_ : .links ∈ m := by assumption) :
    (State.writeQueueConfig s p off v).Same m z := by
  unfold State.writeQueueConfig
  refine State.Same.ite (State.vfViolation_same h) ?_
  refine State.Same.ite (State.setVfReg_same h) ?_
  exact State.Same.ite (State.setVfReg_same h) (State.Same.ite (State.setVfReg_same h) h)

theorem execVfQueueConfigWrite_same {p : PolderId} {off : BitVec 12} {value : Word} {s : State} (h : s.Same m z)
    (_ : .vfRegs ∈ m := by assumption) (_ : .tiles ∈ m := by assumption) (_ : .conservators ∈ m := by assumption)
    (_ : .links ∈ m := by assumption) :
    ∃ s', execVfQueueConfigWrite p off value s = .next s' ∧ s'.Same m z := by
  unfold execVfQueueConfigWrite
  refine ⟨_, rfl, ?_⟩
  refine State.vfWrite_same h ?_
  intro s1 h2
  exact State.Same.ite (State.writeQueueConfig_same h2) h2

theorem State.writeFrHead_same {s : State} {v : Word} (h : s.Same m z) :
    (State.writeFrHead s v).Same m z := by
  unfold State.writeFrHead
  extract_lets -underBinder +onlyGivenNames s1
  have h2 : s1.Same m z := State.setReg_same h
  clear_value s1
  exact State.Same.ite h2 (State.sendMsix_same h2)

theorem execPciFrHead_same {value : Word} {s : State} (h : s.Same m z) :
    ∃ s', execPciFrHead value s = .next s' ∧ s'.Same m z := by
  unfold execPciFrHead
  refine ⟨_, rfl, ?_⟩
  exact State.Same.ite (State.answerWritten_same (State.writeFrHead_same h)) (State.answerError_same h)

theorem State.flrVf_same {s : State} {p : Nat} (h : s.Same m z) (_ : .vfRegs ∈ m := by assumption)
    (_ : .polders ∈ m := by assumption) (_ : .clients ∈ m := by assumption) (_ : .conservators ∈ m := by assumption)
    (_ : .channels ∈ m := by assumption) (_ : .policy ∈ m := by assumption) (_ : .links ∈ m := by assumption) :
    (State.flrVf s p).Same m z := by
  unfold State.flrVf
  extract_lets -underBinder +onlyGivenNames n1 n2
  refine State.Same.ite (State.modPld_same (State.startClearing_same h)) ?_
  refine State.Same.ite (State.modPld_same (State.endRequest_same h)) ?_
  exact State.Same.ite (State.resetVf_same (State.endCreate_same h)) (State.resetVf_same h)

theorem execVfFlr_same {p : PolderId} {s : State} (h : s.Same m z) (_ : .vfRegs ∈ m := by assumption)
    (_ : .polders ∈ m := by assumption) (_ : .clients ∈ m := by assumption) (_ : .conservators ∈ m := by assumption)
    (_ : .channels ∈ m := by assumption) (_ : .policy ∈ m := by assumption) (_ : .links ∈ m := by assumption) :
    ∃ s', execVfFlr p s = .next s' ∧ s'.Same m z := by
  unfold execVfFlr
  refine ⟨_, rfl, ?_⟩
  exact State.Same.ite (State.flrVf_same h) h

theorem State.disableVfs_same {s : State} (h : s.Same m z) (_ : .vfRegs ∈ m := by assumption)
    (_ : .polders ∈ m := by assumption) (_ : .clients ∈ m := by assumption) (_ : .conservators ∈ m := by assumption)
    (_ : .channels ∈ m := by assumption) (_ : .policy ∈ m := by assumption) (_ : .links ∈ m := by assumption) :
    (State.disableVfs s).Same m z := by
  unfold State.disableVfs
  refine State.Same.ite ?_ h
  extract_lets -underBinder +onlyGivenNames s1
  have h2 : s1.Same m z := by
    refine State.forEach_same h ?_
    intro s3 x5 h4
    exact State.flrVf_same h4
  clear_value s1
  exact State.modHif_same h2 (fun _ => {  policy := .inl (by assumption) })

theorem State.setNumVfs_same {s : State} {n : Nat} (h : s.Same m z)
    (_ : .policy ∈ m := by assumption) : (s.setNumVfs n).Same m z := by
  unfold State.setNumVfs
  exact State.modHif_same h (fun _ => { policy := .inl (by assumption) })

theorem execVfEnable_same {on : Bool} {numVfs : BitVec 5} {s : State} (h : s.Same m z) (_ : .vfRegs ∈ m := by assumption)
    (_ : .polders ∈ m := by assumption) (_ : .clients ∈ m := by assumption) (_ : .conservators ∈ m := by assumption)
    (_ : .channels ∈ m := by assumption) (_ : .policy ∈ m := by assumption) (_ : .links ∈ m := by assumption) :
    ∃ s', execVfEnable on numVfs s = .next s' ∧ s'.Same m z := by
  unfold execVfEnable
  refine ⟨_, rfl, ?_⟩
  refine State.Same.ite h ?_
  refine State.Same.ite (State.setNumVfs_same (State.disableVfs_same h)) ?_
  refine State.Same.ite (State.modHif_same (State.setNumVfs_same h) (fun _ => {  policy := .inl (by assumption) })) ?_
  exact h

theorem execPf0Flr_same {s : State} (h : s.Same m z) (_ : .vfRegs ∈ m := by assumption) (_ : .polders ∈ m := by assumption)
    (_ : .clients ∈ m := by assumption) (_ : .conservators ∈ m := by assumption) (_ : .channels ∈ m := by assumption)
    (_ : .policy ∈ m := by assumption) (_ : .links ∈ m := by assumption) :
    ∃ s', execPf0Flr s = .next s' ∧ s'.Same m z := by
  unfold execPf0Flr
  refine ⟨_, rfl, State.Same.ite h (State.disableVfs_same ?_)⟩
  refine State.forEach_same (State.forEach_same ?_ (fun _ _ hx => State.idleChannel_same hx))
    (fun _ _ hx => State.Same.ite (State.idleChannel_same hx) hx)
  exact { h with }

theorem State.dropStaging_same {s : State} (h : s.Same m z) (_ : .firmware ∈ m := by assumption) :
    (State.dropStaging s).Same m z := by
  refine State.modBoot_same h (fun b => ?_)
  split
  · exact { Boot.Same.refl _ with firmware := .inl (by assumption) }
  · exact Boot.Same.refl _

theorem State.hotReset_same {s : State} (h : s.Same m z) (_ : .polders ∈ m := by assumption)
    (_ : .clients ∈ m := by assumption) (_ : .conservators ∈ m := by assumption) (_ : .channels ∈ m := by assumption)
    (_ : .policy ∈ m := by assumption) (_ : .links ∈ m := by assumption) (_ : .firmware ∈ m := by assumption) :
    (State.hotReset s).Same m z := by
  unfold State.hotReset
  extract_lets -underBinder +onlyGivenNames s1
  have h2 : s1.Same m z := State.setIrq_same h
  clear_value s1
  extract_lets -underBinder +onlyGivenNames s3
  have h4 : s3.Same m z := by
    refine State.forEach_same h2 ?_
    intro s5 x7 h6
    extract_lets -underBinder +onlyGivenNames n8 n9
    refine State.Same.ite (State.startClearing_same (State.setReg_same h6)) ?_
    exact State.Same.ite (State.endCreate_same h6) h6
  clear_value s3
  refine State.dropStaging_same ?_
  refine State.modHif_same ?_ (fun _ => {  policy := .inl (by assumption) })
  refine State.forEach_same h4 ?_
  intro s10 x12 h11
  exact State.idleChannel_same h11

theorem execPcieLinkDown_same {s : State} (h : s.Same m z) (_ : .polders ∈ m := by assumption)
    (_ : .clients ∈ m := by assumption) (_ : .conservators ∈ m := by assumption) (_ : .channels ∈ m := by assumption)
    (_ : .policy ∈ m := by assumption) (_ : .links ∈ m := by assumption) (_ : .board ∈ m := by assumption)
    (_ : .firmware ∈ m := by assumption) :
    ∃ s', execPcieLinkDown s = .next s' ∧ s'.Same m z := by
  unfold execPcieLinkDown
  refine ⟨_, rfl, ?_⟩
  refine State.Same.ite h ?_
  extract_lets -underBinder +onlyGivenNames n1
  have h2 : n1.2.Same m z := State.draw_same (State.hotReset_same h)
  clear_value n1
  refine State.Same.ite (State.modHif_same (State.modBoard_same h2) (fun _ => {  policy := .inl (by assumption) })) ?_
  exact State.trainLink_same h2

theorem execPerstN_same {level : Bool} {s : State} (h : s.Same m z) (_ : .polders ∈ m := by assumption)
    (_ : .clients ∈ m := by assumption) (_ : .conservators ∈ m := by assumption) (_ : .channels ∈ m := by assumption)
    (_ : .policy ∈ m := by assumption) (_ : .links ∈ m := by assumption) (_ : .board ∈ m := by assumption)
    (_ : .firmware ∈ m := by assumption) :
    ∃ s', execPerstN level s = .next s' ∧ s'.Same m z := by
  unfold execPerstN
  refine ⟨_, rfl, ?_⟩
  refine State.Same.ite h ?_
  refine State.Same.ite ?_ ?_
  · extract_lets -underBinder +onlyGivenNames s1
    have h2 : s1.Same m z := State.modBoard_same h
    clear_value s1
    exact State.Same.ite (State.trainLink_same h2) h2
  · extract_lets -underBinder +onlyGivenNames s3
    have h4 : s3.Same m z := State.Same.ite (State.hotReset_same h) h
    clear_value s3
    exact State.modHif_same (State.modBoard_same h4) (fun _ => {  policy := .inl (by assumption) })

/-! ### Array -/

theorem State.ungate_same {s : State} {t : Nat} (h : s.Same m z) (_ : .tiles ∈ m := by assumption) :
    (State.ungate s t).Same m z := by
  unfold State.ungate
  extract_lets -underBinder +onlyGivenNames n1 n2 s3
  have h4 : s3.Same m z := State.Same.ite (State.bump_same h) h
  clear_value s3
  exact State.modTile_same h4

theorem execMaLoad_same {t : TileId} {ecc : RowEcc} {s : State} (h : s.Same m z) (_ : .tiles ∈ m := by assumption)
    (_ : .spares ∈ m := by assumption) :
    ∃ s', execMaLoad t ecc s = .next s' ∧ s'.Same m z := by
  unfold execMaLoad
  refine ⟨_, rfl, ?_⟩
  split
  · exact h
  · split
    · exact State.raiseEngine_same h
    · refine State.reading_same (State.ungate_same h) ?_
      intro s1 h2
      extract_lets -underBinder +onlyGivenNames n3
      exact State.finish_same (State.modTile_same h2)

theorem execSwap_same {t : Meets TileId RowEcc} {s : State} (h : s.Same m z) (_ : .tiles ∈ m := by assumption)
    (_ : .spares ∈ m := by assumption) :
    ∃ s', execSwap t s = .next s' ∧ s'.Same m z := by
  unfold execSwap
  refine ⟨_, rfl, ?_⟩
  split
  · exact h
  · refine State.Same.ite ?_ (State.raiseEngine_same h)
    refine State.reading_same (State.ungate_same h) ?_
    intro s1 h2
    exact State.finish_same (State.bumpHeld_same (State.bumpHeld_same (State.bump64_same (State.modTile_same h2))))

theorem execSetmode_same {t : TileId} {s : State} (h : s.Same m z) (_ : .tiles ∈ m := by assumption) :
    ∃ s', execSetmode t s = .next s' ∧ s'.Same m z := by
  unfold execSetmode
  refine ⟨_, rfl, ?_⟩
  split
  · exact h
  · refine State.Same.ite (State.finish_same (State.setReg64_same (State.setReg_same (State.modTile_same h)))) ?_
    exact State.raiseEngine_same h

theorem execSetout_same {t : TileId} {s : State} (h : s.Same m z) (_ : .tiles ∈ m := by assumption) :
    ∃ s', execSetout t s = .next s' ∧ s'.Same m z := by
  unfold execSetout
  refine ⟨_, rfl, ?_⟩
  split
  · exact h
  · exact State.Same.ite (State.finish_same (State.modTile_same h)) (State.raiseEngine_same h)

theorem State.runPass_same {s : State} {t : Nat} {seq : Nat} {c : Command} (h : s.Same m z) (_ : .tiles ∈ m := by assumption)
    (_ : .spad ∈ m := by assumption) :
    (State.runPass s t seq c).Same m z := by
  unfold State.runPass
  extract_lets -underBinder +onlyGivenNames n1 n2 n3 n4 s5
  have h6 : s5.Same m z := State.modTile_same h
  clear_value s5
  extract_lets -underBinder +onlyGivenNames s7
  have h8 : s7.Same m z := State.bumpHeld_same (State.bumpHeld_same (State.bump64_same h6))
  clear_value s7
  extract_lets -underBinder +onlyGivenNames n9 n10 s11
  have h12 : s11.Same m z := by
    refine State.forEach_same h8 ?_
    intro s13 x15 h14
    exact State.setRows_same h14
  clear_value s11
  extract_lets -underBinder +onlyGivenNames s16
  have h17 : s16.Same m z := State.Same.ite h8 (State.book_same h12)
  clear_value s16
  exact State.finish_same h17

theorem execPass_same {t : TileId} {ecc : RowEcc} {s : State} (h : s.Same m z) (_ : .tiles ∈ m := by assumption)
    (_ : .spad ∈ m := by assumption) (_ : .spares ∈ m := by assumption) :
    ∃ s', execPass t ecc s = .next s' ∧ s'.Same m z := by
  unfold execPass
  refine ⟨_, rfl, ?_⟩
  split
  · exact h
  · split
    · exact State.raiseEngine_same h
    · refine State.reading_same (State.ungate_same h) ?_
      intro s1 h2
      exact State.runPass_same h2

theorem execArrayGate_same {t : TileId} {s : State} (h : s.Same m z) (_ : .tiles ∈ m := by assumption) :
    ∃ s', execArrayGate t s = .next s' ∧ s'.Same m z := by
  unfold execArrayGate
  refine ⟨_, rfl, ?_⟩
  exact State.Same.ite (State.modTile_same h) h

/-! ### Sparse -/

theorem State.bsCounts_same {s : State} {t : Nat} {z3 : TileHeader} (h : s.Same m z) :
    (State.bsCounts s t z3).Same m z := by
  unfold State.bsCounts
  extract_lets -underBinder +onlyGivenNames n1 s2
  have h3 : s2.Same m z := State.bump64_same h
  clear_value s2
  extract_lets -underBinder +onlyGivenNames n4
  have h5 : n4.2.Same m z := State.draw_same (State.bumpHeld_same (State.bump_same h3))
  clear_value n4
  extract_lets -underBinder +onlyGivenNames n6
  exact State.setReg_same h5

theorem State.runBspass_same {s : State} {t : Nat} {seq : Nat} {c : Command} {z5 : TileHeader} (h : s.Same m z)
    (_ : .tiles ∈ m := by assumption) (_ : .spad ∈ m := by assumption) :
    (State.runBspass s t seq c z5).Same m z := by
  unfold State.runBspass
  extract_lets -underBinder +onlyGivenNames n1 n2 n3 s4
  have h5 : s4.Same m z := State.bsCounts_same h
  clear_value s4
  extract_lets -underBinder +onlyGivenNames n6 s7
  have h8 : s7.Same m z := State.setRows_same h5
  clear_value s7
  extract_lets -underBinder +onlyGivenNames s9
  have h10 : s9.Same m z := State.Same.ite (State.modTile_same h5) (State.book_same h8)
  clear_value s9
  exact State.finish_same h10

theorem State.headerCorrected_same {s : State} {t : Nat} {row : Nat} {ecc : RowEcc} (h : s.Same m z) :
    (State.headerCorrected s t row ecc).Same m z := by
  unfold State.headerCorrected
  split
  · refine State.forEach_same h ?_
    intro s1 x3 h2
    exact State.spadCorrected_same h2
  · exact h

theorem execBspass_same {t : TileId} {ecc : RowEcc} {s : State} (h : s.Same m z) (_ : .tiles ∈ m := by assumption)
    (_ : .spad ∈ m := by assumption) (_ : .spares ∈ m := by assumption) :
    ∃ s', execBspass t ecc s = .next s' ∧ s'.Same m z := by
  unfold execBspass
  refine ⟨_, rfl, ?_⟩
  split
  · exact h
  · extract_lets -underBinder +onlyGivenNames n1 n2
    split
    · exact State.raiseEngine_same h
    · exact State.raiseEngine_same (State.headerCorrected_same h)
    · refine State.reading_same h ?_
      intro s3 h4
      exact State.runBspass_same h4

theorem execBssetmode_same {t : TileId} {s : State} (h : s.Same m z) (_ : .tiles ∈ m := by assumption) :
    ∃ s', execBssetmode t s = .next s' ∧ s'.Same m z := by
  unfold execBssetmode
  refine ⟨_, rfl, ?_⟩
  split
  · exact h
  · refine State.Same.ite (State.finish_same (State.setReg64_same (State.setReg_same (State.modTile_same h)))) ?_
    exact State.raiseEngine_same h

theorem execBssetout_same {t : TileId} {s : State} (h : s.Same m z) (_ : .tiles ∈ m := by assumption) :
    ∃ s', execBssetout t s = .next s' ∧ s'.Same m z := by
  unfold execBssetout
  refine ⟨_, rfl, ?_⟩
  split
  · exact h
  · exact State.Same.ite (State.finish_same (State.modTile_same h)) (State.raiseEngine_same h)

/-! ### Vector -/

theorem State.drawBytes_same {s : State} {a : Nat} (h : s.Same m z) :
    (State.drawBytes s a).2.Same m z := by
  induction a generalizing s with
  | zero => exact h
  | succ n ih => exact ih (State.draw_same h)

theorem State.setPairs_same {s : State} {t : Nat} {row : Nat} {l : List (Nat × Nat)} (h : s.Same m z)
    (_ : .spad ∈ m := by assumption) :
    (State.setPairs s t row l).Same m z := by
  unfold State.setPairs
  extract_lets -underBinder +onlyGivenNames n1 n2
  have h3 : n2.2.Same m z := State.drawBytes_same h
  clear_value n2
  extract_lets -underBinder +onlyGivenNames n4
  refine State.forEach_same h3 ?_
  intro s5 x7 h6
  exact State.setSpadRow_same h6

theorem execVprog_same {t : TileId} {ecc : RowEcc} {s : State} (h : s.Same m z) (_ : .tiles ∈ m := by assumption)
    (_ : .spares ∈ m := by assumption) :
    ∃ s', execVprog t ecc s = .next s' ∧ s'.Same m z := by
  unfold execVprog
  refine ⟨_, rfl, ?_⟩
  split
  · exact h
  · refine State.Same.ite ?_ (State.raiseEngine_same h)
    refine State.reading_same h ?_
    intro s1 h2
    extract_lets -underBinder +onlyGivenNames n3 n4
    exact State.finish_same (State.bumpHeld_same (State.modTile_same h2))

theorem execVstrm_same {t : TileId} {s : State} (h : s.Same m z) (_ : .tiles ∈ m := by assumption) :
    ∃ s', execVstrm t s = .next s' ∧ s'.Same m z := by
  unfold execVstrm
  refine ⟨_, rfl, ?_⟩
  split
  · exact h
  · split
    · exact State.raiseEngine_same h
    · extract_lets -underBinder +onlyGivenNames n1
      exact State.finish_same (State.modTile_same h)

theorem execVsetout_same {t : TileId} {s : State} (h : s.Same m z) (_ : .tiles ∈ m := by assumption) :
    ∃ s', execVsetout t s = .next s' ∧ s'.Same m z := by
  unfold execVsetout
  refine ⟨_, rfl, ?_⟩
  split
  · exact h
  · exact State.Same.ite (State.finish_same (State.modTile_same h)) (State.raiseEngine_same h)

/-- A view draws its choices and changes nothing else. -/
theorem State.viewRows_same {s : State} {t : Nat} {old : List (Nat × List Byte)} {reads : List Nat} (h : s.Same m z)
    (_ : .spad ∈ m := by assumption) :
    (s.viewRows t old reads).2.Same m z := by
  unfold State.viewRows
  exact List.foldlRecOn (motive := fun x : State × State => x.2.Same m z) _ _ h (fun _ hx _ _ => State.draw_same hx)

theorem State.sumResult_same {s : State} {ops : List Nat} {sum : Acc} (h : s.Same m z) :
    (State.sumResult s ops sum).2.Same m z := by
  unfold State.sumResult
  split
  · extract_lets -underBinder +onlyGivenNames n1
    have h2 : n1.2.Same m z := State.drawBytes_same h
    clear_value n1
    exact h2
  · exact h

theorem State.maxResult_same {s : State} {mx : Option Nat} (h : s.Same m z) :
    (State.maxResult s mx).2.Same m z := by
  unfold State.maxResult
  split
  · exact h
  · exact State.draw_same h

theorem State.putEntry_same {s : State} {t : Nat} {row : Nat} {v : Nat} {bytes : List Byte} (h : s.Same m z)
    (_ : .spad ∈ m := by assumption) :
    (State.putEntry s t row v bytes).Same m z := by
  unfold State.putEntry
  extract_lets -underBinder +onlyGivenNames n1 n2 n3
  refine State.Same.ite ?_ (State.setSpadRow_same h)
  extract_lets -underBinder +onlyGivenNames n4
  have h5 : n4.2.Same m z := State.drawBytes_same h
  clear_value n4
  exact State.setSpadRow_same h5

theorem VrunState.endVector_same {k : VrunState} {t w : Nat} {ops : List Nat} (h : k.s.Same m z)
    (_ : .spad ∈ m := by assumption) :
    (k.endVector t ops w).s.Same m z := by
  unfold VrunState.endVector
  split
  · exact h
  · split
    · exact h
    · exact State.putEntry_same (State.maxResult_same (State.sumResult_same h))

theorem State.clearVuXr_same {s : State} {t : Nat} (h : s.Same m z) :
    (State.clearVuXr s t).Same m z := by
  unfold State.clearVuXr
  exact State.setReg64_same (State.setReg_same h)

theorem VrunState.group_same {k : VrunState} {t : Nat} {c : VrunCmd} {ops : List Nat} {pq : Nat × Nat} {w g : Nat}
    (h : k.s.Same m z) (_ : .tiles ∈ m := by assumption) (_ : .spad ∈ m := by assumption) :
    (VrunState.group t c ops pq k w g).s.Same m z := by
  unfold VrunState.group
  extract_lets -underBinder +onlyGivenNames x valid seen
  have h0 : seen.2.Same m z := State.viewRows_same h
  clear_value seen
  extract_lets -underBinder +onlyGivenNames k0 a b outs live sum mx cacc s k'
  have hs : s.Same m z := State.modTile_same h0
  clear_value s
  split
  · exact hs
  · split
    · exact hs
    · exact State.setRows_same hs

theorem VrunState.groups_same {k : VrunState} {t : Nat} {c : VrunCmd} {ops : List Nat} {pq : Nat × Nat} {w : Nat}
    (h : k.s.Same m z) (l : List Nat) (_ : .tiles ∈ m := by assumption) (_ : .spad ∈ m := by assumption) :
    (l.foldl (fun k g => VrunState.group t c ops pq k w g) k).s.Same m z := by
  induction l generalizing k with
  | nil => exact h
  | cons g l ih => exact ih (VrunState.group_same h)

theorem VrunState.vectors_same {k : VrunState} {t : Nat} {c : VrunCmd} {ops : List Nat}
    (h : k.s.Same m z) (l : List Nat) (_ : .tiles ∈ m := by assumption) (_ : .spad ∈ m := by assumption) :
    (l.foldl (VrunState.vector t c ops) k).s.Same m z := by
  induction l generalizing k with
  | nil => exact h
  | cons w l ih =>
    refine ih (VrunState.endVector_same (VrunState.groups_same ?_ _))
    exact State.viewRows_same h

theorem State.runVrun_same {s : State} {t seq : Nat} {c : Command} (h : s.Same m z) (_ : .tiles ∈ m := by assumption)
    (_ : .spad ∈ m := by assumption) : (s.runVrun t seq c).Same m z := by
  unfold State.runVrun
  extract_lets x rr ops xr s1 s2 k s3
  have h1 : s1.Same m z := State.Same.ite (State.clearVuXr_same h) h
  have h2 : s2.Same m z := State.Same.ite (State.modTile_same h1) h1
  have hk : k.s.Same m z := VrunState.vectors_same h2 _
  exact State.finish_same (State.book_same (State.bumpHeld_same (State.bump64_same hk)))

theorem execVrun_same {t : TileId} {ecc : RowEcc} {s : State} (h : s.Same m z) (_ : .tiles ∈ m := by assumption)
    (_ : .spad ∈ m := by assumption) (_ : .spares ∈ m := by assumption) :
    ∃ s', execVrun t ecc s = .next s' ∧ s'.Same m z := by
  unfold execVrun
  refine ⟨_, rfl, ?_⟩
  split
  · exact h
  · split
    · exact State.raiseEngine_same h
    · refine State.reading_same h ?_
      intro s1 h2
      exact State.runVrun_same h2

theorem State.runVcomb_same {s : State} {t : Nat} {seq : Nat} {c : Command} (h : s.Same m z) (_ : .tiles ∈ m := by assumption)
    (_ : .spad ∈ m := by assumption) :
    (State.runVcomb s t seq c).Same m z := by
  unfold State.runVcomb
  extract_lets -underBinder +onlyGivenNames n1 n2 n3 s4
  have h5 : s4.Same m z := State.bumpHeld_same (State.setPairs_same h)
  clear_value s4
  exact State.finish_same (State.book_same h5)

theorem execVcomb_same {t : TileId} {ecc : RowEcc} {s : State} (h : s.Same m z) (_ : .tiles ∈ m := by assumption)
    (_ : .spad ∈ m := by assumption) (_ : .spares ∈ m := by assumption) :
    ∃ s', execVcomb t ecc s = .next s' ∧ s'.Same m z := by
  unfold execVcomb
  refine ⟨_, rfl, ?_⟩
  split
  · exact h
  · split
    · exact State.raiseEngine_same h
    · refine State.reading_same h ?_
      intro s1 h2
      exact State.runVcomb_same h2

theorem State.runVflush_same {s : State} {t : Nat} {seq : Nat} {c : Command} (h : s.Same m z)
    (_ : .tiles ∈ m := by assumption) (_ : .spad ∈ m := by assumption) :
    (State.runVflush s t seq c).Same m z := by
  unfold State.runVflush
  extract_lets -underBinder +onlyGivenNames n1 n2 s3
  have h4 : s3.Same m z := State.Same.ite (State.clearVuXr_same h) h
  clear_value s3
  extract_lets -underBinder +onlyGivenNames n5 n6 s7
  have h8 : s7.Same m z := State.bumpHeld_same (State.setRows_same h4)
  clear_value s7
  extract_lets -underBinder +onlyGivenNames s9
  have h10 : s9.Same m z := State.Same.ite (State.modTile_same h8) h8
  clear_value s9
  exact State.finish_same (State.book_same h10)

theorem execVflush_same {t : TileId} {s : State} (h : s.Same m z) (_ : .tiles ∈ m := by assumption)
    (_ : .spad ∈ m := by assumption) :
    ∃ s', execVflush t s = .next s' ∧ s'.Same m z := by
  unfold execVflush
  refine ⟨_, rfl, ?_⟩
  split
  · exact h
  · split
    · exact State.raiseEngine_same h
    · exact State.runVflush_same h

/-! ### Transforms -/

theorem State.freeBytes_same {s : State} {n : Nat} (h : s.Same m z) :
    (State.freeBytes s n).2.Same m z := by
  exact { h with }

theorem State.setLooseRow_same {s : State} {t : Nat} {row : Nat} {bs : List Byte} {known : List (Nat × Nat)} (h : s.Same m z)
    (_ : .spad ∈ m := by assumption) :
    (State.setLooseRow s t row bs known).Same m z := by
  unfold State.setLooseRow
  extract_lets -underBinder +onlyGivenNames n1
  have h2 : n1.2.Same m z := State.freeBytes_same h
  clear_value n1
  extract_lets -underBinder +onlyGivenNames n3
  exact State.setSpadRow_same h2

/-! ### Conservator -/

theorem State.loadSlots_same {s : State} {p : Nat} (h : s.Same m z) :
    (State.loadSlots s p).Same m z := by
  unfold State.loadSlots
  refine State.forEach_same h ?_
  intro s1 x3 h2
  extract_lets -underBinder +onlyGivenNames n4
  refine State.Same.ite h2 ?_
  extract_lets -underBinder +onlyGivenNames n5
  have h6 : n5.2.Same m z := State.draw_same h2
  clear_value n5
  exact State.setReg_same (State.setReg_same h6)

theorem State.cnsXl_same {s : State} {n : Nat} {p : Nat} {va : Nat} {isWrite : Bool} {ecc : Ecc} (h : s.Same m z)
    (_ : .tiles ∈ m := by assumption) (_ : .seams ∈ m := by assumption) (_ : .conservators ∈ m := by assumption)
    (_ : .links ∈ m := by assumption) :
    (State.cnsXl s n p va isWrite ecc).2.Same m z := by
  unfold State.cnsXl
  extract_lets -underBinder +onlyGivenNames n1
  have h2 : ∀ y6 y7, y7.Same m z → (n1 y6 y7).2.Same m z := by
    intro x3 s4 h5
    unfold n1
    cases x3 with
    | at_ y => exact h5
    | fault code => dsimp only; exact State.engineFault_same h5
  clear_value n1
  split
  · exact h2 _ _ h
  · exact h2 _ _ h
  · split
    · exact h2 _ _ h
    · split
      next s8 e =>
        have h3 : s8.Same m z := by rw [show s8 = _ from (congrArg Prod.snd e).symm]; exact State.walk_same h
        exact State.stopCns_same h3
      next s8 e =>
        have h3 : s8.Same m z := by rw [show s8 = _ from (congrArg Prod.snd e).symm]; exact State.walk_same h
        exact h2 _ _ h3

/-! A run of a conservator's accesses keeps, access by access. -/

theorem CnsRun.fold_same {α : Type} {f : CnsRun → α → CnsRun} (hf : ∀ (w : CnsRun) (x : α), w.state.Same m z → (f w x).state.Same m z)
    {l : List α} {w : CnsRun} (h : w.state.Same m z) : (l.foldl f w).state.Same m z := by
  induction l generalizing w with
  | nil => exact h
  | cons x l ih => exact ih (hf w x h)

theorem CnsRun.read_same {w : CnsRun} {n p : Nat} {c : Nat × Nat} (h : w.state.Same m z) (_ : .tiles ∈ m := by assumption)
    (_ : .frames ∈ m := by assumption) (_ : .seams ∈ m := by assumption) (_ : .conservators ∈ m := by assumption)
    (_ : .links ∈ m := by assumption) (_ : .journal ∈ m := by assumption)
    (_ : .spares ∈ m := by assumption) : (w.read n p c).state.Same m z := by
  unfold CnsRun.read
  have h1 : (w.state.cnsXl n p c.1 false w.next.1).2.Same m z := State.cnsXl_same h
  split
  · exact h
  · split
    next s e => rw [e] at h1; exact h1
    next x s e =>
      replace h1 : s.Same m z := by rw [e] at h1; exact h1
      split
      · exact h1
      · have h2 : (((s.engineReads p (n / 3) x c.2).countRead x c.2).bump64 (cnsPage n + 0x04C) c.2).Same m z :=
          State.bump64_same (State.countRead_same (State.engineReads_same h1))
        dsimp only
        split <;> dsimp only
        · exact State.stopCns_same (State.memLost_same h2)
        · exact State.memCorrected_same h2
        · exact h2

theorem CnsRun.readAll_same {w : CnsRun} {n p va len : Nat} (h : w.state.Same m z) (_ : .tiles ∈ m := by assumption)
    (_ : .frames ∈ m := by assumption) (_ : .seams ∈ m := by assumption) (_ : .conservators ∈ m := by assumption)
    (_ : .links ∈ m := by assumption) (_ : .journal ∈ m := by assumption)
    (_ : .spares ∈ m := by assumption) : (w.readAll n p va len).state.Same m z :=
  CnsRun.fold_same (fun _ _ h => CnsRun.read_same h) h

theorem CnsRun.readRows_same {w : CnsRun} {n p : Nat} {id : Word} {u : Update} {d : UpdDesc} {size : Nat}
    (h : w.state.Same m z) (_ : .tiles ∈ m := by assumption) (_ : .frames ∈ m := by assumption)
    (_ : .seams ∈ m := by assumption) (_ : .conservators ∈ m := by assumption) (_ : .links ∈ m := by assumption)
    (_ : .journal ∈ m := by assumption) (_ : .spares ∈ m := by assumption) : (w.readRows n p id u d size).state.Same m z := by
  unfold CnsRun.readRows
  split
  · exact CnsRun.readAll_same h
  · exact h

theorem CnsRun.readElems_same {w : CnsRun} {n p va first count : Nat} (h : w.state.Same m z) (_ : .tiles ∈ m := by assumption)
    (_ : .frames ∈ m := by assumption) (_ : .seams ∈ m := by assumption) (_ : .conservators ∈ m := by assumption)
    (_ : .links ∈ m := by assumption) (_ : .journal ∈ m := by assumption) (_ : .spares ∈ m := by assumption) :
    (w.readElems n p va first count).state.Same m z :=
  CnsRun.fold_same (fun _ _ h => CnsRun.readAll_same h) h

theorem CnsRun.readDesc_same {w : CnsRun} {n p : Nat} {d : UpdDesc} {resume : Bool} (h : w.state.Same m z)
    (_ : .tiles ∈ m := by assumption) (_ : .frames ∈ m := by assumption) (_ : .seams ∈ m := by assumption)
    (_ : .conservators ∈ m := by assumption) (_ : .links ∈ m := by assumption) (_ : .journal ∈ m := by assumption)
    (_ : .spares ∈ m := by assumption) :
    (w.readDesc n p d resume).state.Same m z := by
  unfold CnsRun.readDesc
  extract_lets -underBinder +onlyGivenNames x u r1
  have h1 : r1.state.Same m z := CnsRun.readRows_same h
  clear_value r1
  extract_lets -underBinder +onlyGivenNames r2
  have h2 : r2.state.Same m z := by unfold r2; split; exact h1; exact CnsRun.readRows_same h1
  clear_value r2
  extract_lets -underBinder +onlyGivenNames thin width r3
  have h3 : r3.state.Same m z := by unfold r3; split; exact CnsRun.readElems_same h2; exact h2
  clear_value r3
  extract_lets -underBinder +onlyGivenNames r4
  have h4 : r4.state.Same m z := by
    unfold r4
    split
    next t _ =>
      split
      · extract_lets -underBinder +onlyGivenNames r5
        have h5 : r5.state.Same m z := CnsRun.readAll_same h3
        clear_value r5
        extract_lets -underBinder +onlyGivenNames r6
        have h6 : r6.state.Same m z := by unfold r6; split; exact CnsRun.readAll_same h5; exact h5
        clear_value r6
        split
        · exact CnsRun.readAll_same h6
        · exact h6
      · exact CnsRun.readAll_same h3
    next => exact h3
  clear_value r4 width
  cases thin with
  | none => exact h4
  | some z =>
    dsimp only
    split
    · split
      · exact CnsRun.readAll_same h4
      · exact h4
    · exact h4

theorem CnsRun.writePiece_same {w : CnsRun} {n p va : Nat} {bs : List Byte} (h : w.state.Same m z)
    (_ : .tiles ∈ m := by assumption) (_ : .memory ∈ m := by assumption) (_ : .host ∈ m := by assumption)
    (_ : .seams ∈ m := by assumption) (_ : .conservators ∈ m := by assumption) (_ : .links ∈ m := by assumption) :
    (w.writePiece n p va bs).state.Same m z := by
  unfold CnsRun.writePiece
  have h1 : (w.state.cnsXl n p va true w.next.1).2.Same m z := State.cnsXl_same h
  split
  · exact h
  · split
    next s e => rw [e] at h1; exact h1
    next x s e =>
      replace h1 : s.Same m z := by rw [e] at h1; exact h1
      split
      · dsimp only; exact State.raiseMaster_same (State.showViolation_same h1)
      · split
        · exact h1
        · dsimp only; exact State.bump64_same (State.landWrite_same (State.closeMerges_same (State.engineWrites_same h1)))

theorem CnsRun.write_same {w : CnsRun} {n p va : Nat} {bs : List Byte} (h : w.state.Same m z)
    (_ : .tiles ∈ m := by assumption) (_ : .memory ∈ m := by assumption) (_ : .host ∈ m := by assumption)
    (_ : .seams ∈ m := by assumption) (_ : .conservators ∈ m := by assumption)
    (_ : .links ∈ m := by assumption) : (w.write n p va bs).state.Same m z :=
  CnsRun.fold_same (fun _ _ h => CnsRun.writePiece_same h) h

theorem CnsRun.saveCarry_same {w : CnsRun} {n p : Nat} (h : w.state.Same m z) (_ : .tiles ∈ m := by assumption)
    (_ : .memory ∈ m := by assumption) (_ : .host ∈ m := by assumption) (_ : .seams ∈ m := by assumption)
    (_ : .conservators ∈ m := by assumption) (_ : .links ∈ m := by assumption) : (w.saveCarry n p).state.Same m z := by
  unfold CnsRun.saveCarry
  split
  · exact h
  · split
    · exact h
    · extract_lets -underBinder +onlyGivenNames w1
      have h1 : w1.state.Same m z := by
        unfold w1
        split
        · exact State.Same.ite (State.bump_same (CnsRun.write_same h)) (CnsRun.write_same h)
        · exact h
      clear_value w1
      dsimp only
      exact State.modCns_same h1

theorem CnsRun.writeCopy_same {w : CnsRun} {n p : Nat} {t : Tensor} {u : Update} {d : UpdDesc} {vals : List (List Val)}
    (h : w.state.Same m z) (_ : .tiles ∈ m := by assumption) (_ : .memory ∈ m := by assumption)
    (_ : .host ∈ m := by assumption) (_ : .seams ∈ m := by assumption) (_ : .conservators ∈ m := by assumption)
    (_ : .links ∈ m := by assumption) : (w.writeCopy n p t u d vals).state.Same m z :=
  CnsRun.fold_same (fun _ _ h => CnsRun.write_same h) h

theorem CnsRun.writeCopyT_same {w : CnsRun} {n p : Nat} {t : Tensor} {u : Update} {d : UpdDesc} {vals : List (List Val)}
    (h : w.state.Same m z) (_ : .tiles ∈ m := by assumption) (_ : .memory ∈ m := by assumption)
    (_ : .host ∈ m := by assumption) (_ : .seams ∈ m := by assumption) (_ : .conservators ∈ m := by assumption)
    (_ : .links ∈ m := by assumption) : (w.writeCopyT n p t u d vals).state.Same m z :=
  CnsRun.fold_same (fun _ _ h => CnsRun.write_same (CnsRun.write_same h)) h

theorem CnsRun.endEntry_same {w : CnsRun} {n p : Nat} {t : Tensor} {u : Update} {x : EntryCtx} {acc : List Val}
    (h : w.state.Same m z) (_ : .tiles ∈ m := by assumption) (_ : .memory ∈ m := by assumption)
    (_ : .host ∈ m := by assumption) (_ : .seams ∈ m := by assumption) (_ : .conservators ∈ m := by assumption)
    (_ : .links ∈ m := by assumption) : (w.endEntry n p t u x acc).state.Same m z := by
  unfold CnsRun.endEntry
  split
  · exact CnsRun.write_same (CnsRun.write_same h)
  · exact CnsRun.write_same h

theorem CnsRun.writeDesc_same {w : CnsRun} {n p : Nat} {u : Update} {d : UpdDesc} {x : EntryCtx} {master mom stats : Tensor}
    {y : DescResult} (h : w.state.Same m z) (_ : .tiles ∈ m := by assumption) (_ : .memory ∈ m := by assumption)
    (_ : .host ∈ m := by assumption) (_ : .seams ∈ m := by assumption) (_ : .conservators ∈ m := by assumption)
    (_ : .links ∈ m := by assumption) : (w.writeDesc n p u d x master mom stats y).state.Same m z := by
  unfold CnsRun.writeDesc
  extract_lets -underBinder +onlyGivenNames c w1
  have h1 : w1.state.Same m z := CnsRun.write_same h
  clear_value w1
  extract_lets -underBinder +onlyGivenNames w2
  have h2 : w2.state.Same m z := by unfold w2; split; exact CnsRun.write_same h1; exact h1
  clear_value w2
  extract_lets -underBinder +onlyGivenNames w3
  have h3 : w3.state.Same m z := CnsRun.write_same h2
  clear_value w3
  extract_lets -underBinder +onlyGivenNames w4
  have h4 : w4.state.Same m z := by
    unfold w4
    split
    · split
      · exact h3
      · exact CnsRun.writeCopy_same h3
    · exact h3
  clear_value w4
  extract_lets -underBinder +onlyGivenNames w5
  have h5 : w5.state.Same m z := by
    unfold w5
    split
    · split
      · exact h4
      · exact CnsRun.writeCopyT_same h4
    · exact h4
  clear_value w5
  split
  · exact CnsRun.endEntry_same h5
  · exact h5

theorem CnsRun.runDesc_same {w : CnsRun} {n p : Nat} {d : UpdDesc} (h : w.state.Same m z) (_ : .tiles ∈ m := by assumption)
    (_ : .memory ∈ m := by assumption) (_ : .host ∈ m := by assumption) (_ : .seams ∈ m := by assumption)
    (_ : .conservators ∈ m := by assumption) (_ : .links ∈ m := by assumption) : (w.runDesc n p d).state.Same m z := by
  unfold CnsRun.runDesc
  extract_lets -underBinder +onlyGivenNames s y u
  split
  · extract_lets -underBinder +onlyGivenNames mom x rr w1
    have h1 : w1.state.Same m z := by
      unfold w1
      split
      · exact State.bump_same h
      · exact CnsRun.writeDesc_same h
    clear_value w1
    dsimp only
    exact State.modCns_same h1
  · exact h

theorem State.yieldHeld_same {s : State} {n : Nat} (h : s.Same m z) (_ : .conservators ∈ m := by assumption) :
    (State.yieldHeld s n).Same m z := by
  unfold State.yieldHeld
  exact State.Same.ite (State.modCns_same (State.bump_same h)) h

theorem State.startDesc_same {s : State} {n : Nat} {p : Nat} {d : UpdDesc} {ecc : List (Ecc × Ecc)} (h : s.Same m z)
    (_ : .tiles ∈ m := by assumption) (_ : .memory ∈ m := by assumption) (_ : .host ∈ m := by assumption)
    (_ : .frames ∈ m := by assumption) (_ : .seams ∈ m := by assumption) (_ : .conservators ∈ m := by assumption)
    (_ : .links ∈ m := by assumption) (_ : .journal ∈ m := by assumption) (_ : .spares ∈ m := by assumption) :
    (State.startDesc s n p d ecc).Same m z := by
  unfold State.startDesc
  extract_lets -underBinder +onlyGivenNames s1
  have h2 : s1.Same m z := State.useSlot_same (State.yieldHeld_same h)
  clear_value s1
  extract_lets -underBinder +onlyGivenNames w1
  have h3 : w1.state.Same m z := CnsRun.saveCarry_same (w := CnsRun.begin s1 ecc) h2
  clear_value w1
  extract_lets -underBinder +onlyGivenNames w2
  have h4 : w2.state.Same m z := CnsRun.readDesc_same h3
  clear_value w2
  exact State.Same.ite (State.modCns_same h4) h4

theorem execConservatorDescriptorStart_same {n : Fin 12} {p : Meets PolderId (List (Ecc × Ecc))} {s : State} (h : s.Same m z)
    (_ : .tiles ∈ m := by assumption) (_ : .memory ∈ m := by assumption) (_ : .host ∈ m := by assumption)
    (_ : .frames ∈ m := by assumption) (_ : .seams ∈ m := by assumption) (_ : .conservators ∈ m := by assumption)
    (_ : .links ∈ m := by assumption) (_ : .journal ∈ m := by assumption) (_ : .spares ∈ m := by assumption) :
    ∃ s', execConservatorDescriptorStart n p s = .next s' ∧ s'.Same m z := by
  unfold execConservatorDescriptorStart
  refine ⟨_, rfl, ?_⟩
  split
  · exact h
  · exact State.Same.ite (State.startDesc_same h) h

theorem State.endDesc_same {s : State} {n : Nat} {p : Nat} {d : UpdDesc} {ecc : List (Ecc × Ecc)} (h : s.Same m z)
    (_ : .tiles ∈ m := by assumption) (_ : .memory ∈ m := by assumption) (_ : .host ∈ m := by assumption)
    (_ : .seams ∈ m := by assumption) (_ : .conservators ∈ m := by assumption) (_ : .links ∈ m := by assumption) :
    (State.endDesc s n p d ecc).Same m z := by
  unfold State.endDesc
  extract_lets -underBinder +onlyGivenNames w s1
  have h1 : w.state.Same m z := CnsRun.runDesc_same (w := CnsRun.begin s ecc) h
  clear_value w
  exact State.modCns_same (State.Same.ite (State.modCns_same (State.bump64_same h1)) h1)

theorem execConservatorDescriptorDone_same {n : Fin 12} {ecc : List (Ecc × Ecc)} {s : State} (h : s.Same m z)
    (_ : .tiles ∈ m := by assumption) (_ : .memory ∈ m := by assumption) (_ : .host ∈ m := by assumption)
    (_ : .seams ∈ m := by assumption) (_ : .conservators ∈ m := by assumption) (_ : .links ∈ m := by assumption) :
    ∃ s', execConservatorDescriptorDone n ecc s = .next s' ∧ s'.Same m z := by
  unfold execConservatorDescriptorDone
  refine ⟨_, rfl, ?_⟩
  split
  · exact h
  · split
    · exact State.modCns_same h
    · exact State.Same.ite (State.endDesc_same h) h

end Sys2Proof.Machine
end

