-- ==== Sys2Proof/Laws/FrameBoot.lean ====
section
/-!
SUPPORT. Which parts of the state the definitions of jobs, starting and stopping the part, the secure channel, seams, servicing, clocks and the test port leave unchanged.
-/

-- one proof at a time: the package as one text would start more threads than its memory limit allows
set_option Elab.async false

namespace Sys2Proof.Machine

variable {m : List Part} {z : State}



/-! ### Jobs -/

theorem State.replyUnread_same {s : State} {c : Nat} {addr : Dword} (h : s.Same m z) (_ : .channels ∈ m := by assumption) :
    (State.replyUnread s c addr).Same m z := by
  unfold State.replyUnread
  exact State.reply_same h

theorem State.readMonitor_same {s : State} {p : Nat} (h : s.Same m z) (_ : .polders ∈ m := by assumption) :
    (State.readMonitor s p).Same m z := by
  unfold State.readMonitor
  extract_lets -underBinder +onlyGivenNames n1
  refine State.Same.ite h ?_
  extract_lets -underBinder +onlyGivenNames n2 n3 n4 n5 n6 n7
  refine State.Same.ite (State.showWindow_same (State.setReg_same h)) ?_
  extract_lets -underBinder +onlyGivenNames s8
  have h9 : s8.Same m z := State.modPld_same h
  clear_value s8
  exact State.showWindow_same (State.setReg_same h9)

theorem State.writeCrests_same {s : State} {p : Nat} {crests : List (Word × Int)} (h : s.Same m z)
    (_ : .tiles ∈ m := by assumption) (_ : .memory ∈ m := by assumption) (_ : .host ∈ m := by assumption) :
    (State.writeCrests s p crests).Same m z := by
  unfold State.writeCrests
  refine State.forEach_same h ?_
  intro s1 x3 h2
  split
  · exact State.curatorWrite_same h2
  · exact h2

theorem State.startJob_same {s : State} {p : Nat} {step : Word} {z4 : RedMap} {links : List LinkEntry × List Nat} {crests : List (Word × Int)} (h : s.Same m z)
    (_ : .vfRegs ∈ m := by assumption) (_ : .tiles ∈ m := by assumption) (_ : .memory ∈ m := by assumption)
    (_ : .host ∈ m := by assumption) (_ : .seams ∈ m := by assumption) (_ : .polders ∈ m := by assumption)
    (_ : .clients ∈ m := by assumption) (_ : .conservators ∈ m := by assumption) (_ : .links ∈ m := by assumption)
    (_ : .journal ∈ m := by assumption) :
    (State.startJob s p step z4 links crests).Same m z := by
  unfold State.startJob
  extract_lets -underBinder +onlyGivenNames s1
  have h2 : s1.Same m z := State.modPld_same h
  clear_value s1
  extract_lets -underBinder +onlyGivenNames s3
  have h4 : s3.Same m z := State.setReg_same (State.setReg_same h2)
  clear_value s3
  extract_lets -underBinder +onlyGivenNames s5
  have h6 : s5.Same m z := State.readMonitor_same (State.writeCrests_same h4)
  clear_value s5
  extract_lets -underBinder +onlyGivenNames s7
  have h8 : s7.Same m z := State.fillProbes_same (State.loadSlots_same h6)
  clear_value s7
  extract_lets -underBinder +onlyGivenNames s9
  have h10 : s9.Same m z := State.setVfReg_same (State.countJob_same h8)
  clear_value s9
  extract_lets -underBinder +onlyGivenNames s11
  have h12 : s11.Same m z := State.modPld_same h10
  clear_value s11
  exact State.sendOpens_same h12

theorem State.askMaps_same {s : State} {p : Nat} {red : Nat} {link : Nat} {tab : Nat} {count : Nat} (h : s.Same m z) :
    (State.askMaps s p red link tab count).Same m z := by
  unfold State.askMaps
  extract_lets -underBinder +onlyGivenNames s1
  have h2 : s1.Same m z := State.Same.ite h (State.askHost_same h)
  clear_value s1
  extract_lets -underBinder +onlyGivenNames s3
  have h4 : s3.Same m z := State.Same.ite h2 (State.askHost_same h2)
  clear_value s3
  exact State.Same.ite h4 (State.askHost_same h4)

theorem State.jobStart_same {s : State} {p : Nat} {c : Nat} {b : List Byte} {rd : Meets HostRead (List Ecc)} (h : s.Same m z)
    (_ : .vfRegs ∈ m := by assumption) (_ : .tiles ∈ m := by assumption) (_ : .memory ∈ m := by assumption)
    (_ : .host ∈ m := by assumption) (_ : .frames ∈ m := by assumption) (_ : .seams ∈ m := by assumption)
    (_ : .polders ∈ m := by assumption) (_ : .clients ∈ m := by assumption) (_ : .conservators ∈ m := by assumption)
    (_ : .channels ∈ m := by assumption) (_ : .links ∈ m := by assumption) (_ : .journal ∈ m := by assumption)
    (_ : .spares ∈ m := by assumption) :
    (State.jobStart s p c b rd).Same m z := by
  unfold State.jobStart
  extract_lets -underBinder +onlyGivenNames n1 n2 n3 n4 n5 n6
  refine State.Same.ite (State.replyEcho_same h) ?_
  refine State.Same.ite (State.replyEcho_same h) ?_
  split
  · exact State.replyUnread_same h
  · extract_lets -underBinder +onlyGivenNames s7
    have h8 : s7.Same m z := State.askMaps_same h
    clear_value s7
    split
    · split
      next s9 e11 =>
        have h10 : s9.Same m z := by
          rw [show s9 = _ from (congrArg Prod.snd e11).symm]
          exact State.curatorFetch_same h8
        exact h10
      next x12 s13 e15 =>
        have h14 : s13.Same m z := by
          rw [show s13 = _ from (congrArg Prod.snd e15).symm]
          exact State.curatorFetch_same h8
        exact State.replyEcho_same (State.startJob_same h14)
    · exact State.replyEcho_same h8

theorem execJobStart_same {c : ChannelId} {rd : Meets HostRead (List Ecc)} {s : State} (h : s.Same m z)
    (_ : .vfRegs ∈ m := by assumption) (_ : .tiles ∈ m := by assumption) (_ : .memory ∈ m := by assumption)
    (_ : .host ∈ m := by assumption) (_ : .frames ∈ m := by assumption) (_ : .seams ∈ m := by assumption)
    (_ : .polders ∈ m := by assumption) (_ : .clients ∈ m := by assumption) (_ : .conservators ∈ m := by assumption)
    (_ : .channels ∈ m := by assumption) (_ : .links ∈ m := by assumption) (_ : .journal ∈ m := by assumption)
    (_ : .spares ∈ m := by assumption) :
    ∃ s', execJobStart c rd s = .next s' ∧ s'.Same m z := by
  unfold execJobStart
  refine ⟨_, rfl, ?_⟩
  split
  · exact h
  · exact State.jobStart_same (State.takeRequest_same h)

theorem State.beginEdit_same {s : State} {p : Nat} {c : Nat} {first : Nat} {count : Nat} {waits : Nat} {entries : List (Nat × Nat)} (h : s.Same m z)
    (_ : .tiles ∈ m := by assumption) (_ : .translation ∈ m := by assumption) (_ : .seams ∈ m := by assumption)
    (_ : .polders ∈ m := by assumption) :
    (State.beginEdit s p c first count waits entries).Same m z := by
  unfold State.beginEdit
  extract_lets -underBinder +onlyGivenNames n1 s2
  have h3 : s2.Same m z := by
    refine State.forEach_same (State.holdWalks_same h) ?_
    intro s4 x6 h5
    exact State.setEntry_same h5
  clear_value s2
  exact State.modPld_same (State.dropXl_same h3)

theorem State.hostReg_same {s : State} {p : Nat} {c : Nat} {b : List Byte} {rd : HostRead} (h : s.Same m z)
    (_ : .tiles ∈ m := by assumption) (_ : .translation ∈ m := by assumption) (_ : .seams ∈ m := by assumption)
    (_ : .polders ∈ m := by assumption) (_ : .channels ∈ m := by assumption) :
    (State.hostReg s p c b rd).Same m z := by
  unfold State.hostReg
  extract_lets -underBinder +onlyGivenNames n1 n2 n3
  refine State.Same.ite (State.replyEcho_same h) ?_
  refine State.Same.ite (State.replyEcho_same h) ?_
  split
  · exact State.replyUnread_same h
  · extract_lets -underBinder +onlyGivenNames s4
    have h5 : s4.Same m z := State.askHost_same h
    clear_value s4
    extract_lets -underBinder +onlyGivenNames n6
    exact State.Same.ite (State.replyEcho_same h5) (State.beginEdit_same h5)

theorem execHostReg_same {c : ChannelId} {rd : HostRead} {s : State} (h : s.Same m z) (_ : .tiles ∈ m := by assumption)
    (_ : .translation ∈ m := by assumption) (_ : .seams ∈ m := by assumption) (_ : .polders ∈ m := by assumption)
    (_ : .channels ∈ m := by assumption) :
    ∃ s', execHostReg c rd s = .next s' ∧ s'.Same m z := by
  unfold execHostReg
  refine ⟨_, rfl, ?_⟩
  split
  · exact h
  · exact State.hostReg_same (State.takeRequest_same h)

theorem State.hostRel_same {s : State} {p : Nat} {c : Nat} {b : List Byte} (h : s.Same m z) (_ : .tiles ∈ m := by assumption)
    (_ : .translation ∈ m := by assumption) (_ : .seams ∈ m := by assumption) (_ : .polders ∈ m := by assumption)
    (_ : .channels ∈ m := by assumption) :
    (State.hostRel s p c b).Same m z := by
  unfold State.hostRel
  extract_lets -underBinder +onlyGivenNames n1 n2 n3
  refine State.Same.ite (State.replyEcho_same h) ?_
  refine State.Same.ite (State.replyEcho_same h) ?_
  extract_lets -underBinder +onlyGivenNames n4
  exact State.beginEdit_same h

theorem execHostRel_same {c : ChannelId} {s : State} (h : s.Same m z) (_ : .tiles ∈ m := by assumption)
    (_ : .translation ∈ m := by assumption) (_ : .seams ∈ m := by assumption) (_ : .polders ∈ m := by assumption)
    (_ : .channels ∈ m := by assumption) :
    ∃ s', execHostRel c s = .next s' ∧ s'.Same m z := by
  unfold execHostRel
  refine ⟨_, rfl, ?_⟩
  split
  · exact h
  · exact State.hostRel_same (State.takeRequest_same h)

/-! ### Seam -/

theorem State.loseUnreached_same {s : State} (h : s.Same m z) (_ : .seams ∈ m := by assumption)
    (_ : .polders ∈ m := by assumption) (_ : .clients ∈ m := by assumption) (_ : .conservators ∈ m := by assumption)
    (_ : .channels ∈ m := by assumption) (_ : .links ∈ m := by assumption) (_ : .status ∈ m := by assumption)
    (_ : .journal ∈ m := by assumption) :
    (State.loseUnreached s).Same m z := by
  unfold State.loseUnreached
  refine State.Same.ite h ?_
  refine State.forEach_same h ?_
  intro s1 x3 h2
  exact State.loseDie_same h2

theorem State.endSeam_same {s : State} {n : Nat} {cause : Nat} {dir : Bool} (h : s.Same m z) (_ : .seams ∈ m := by assumption)
    (_ : .polders ∈ m := by assumption) (_ : .clients ∈ m := by assumption) (_ : .conservators ∈ m := by assumption)
    (_ : .channels ∈ m := by assumption) (_ : .links ∈ m := by assumption) (_ : .status ∈ m := by assumption)
    (_ : .journal ∈ m := by assumption) :
    (State.endSeam s n cause dir).Same m z := by
  unfold State.endSeam
  extract_lets -underBinder +onlyGivenNames n1 n2 s3
  have h4 : s3.Same m z := State.setSeamCause_same h
  clear_value s3
  extract_lets -underBinder +onlyGivenNames s5
  have h6 : s5.Same m z := State.logError_same (State.logError_same h4)
  clear_value s5
  refine State.Same.ite ?_ (State.loseUnreached_same (State.failPart_same (State.modSeam_same h6)))
  extract_lets -underBinder +onlyGivenNames s7
  have h8 : s7.Same m z := State.modSeam_same h6
  clear_value s7
  extract_lets -underBinder +onlyGivenNames s9
  have h10 : s9.Same m z := by
    refine State.forEach_same h8 ?_
    intro s11 x13 h12
    extract_lets -underBinder +onlyGivenNames n14
    exact State.Same.ite (State.raisePart_same h12) h12
  clear_value s9
  exact State.loseUnreached_same h10

theorem execSeamCrcError_same {seam : SeamId} {dir : SeamFlit} {s : State} (h : s.Same m z)
    (_ : .seams ∈ m := by assumption) (_ : .polders ∈ m := by assumption) (_ : .clients ∈ m := by assumption)
    (_ : .conservators ∈ m := by assumption) (_ : .channels ∈ m := by assumption) (_ : .links ∈ m := by assumption)
    (_ : .status ∈ m := by assumption) (_ : .journal ∈ m := by assumption) :
    ∃ s', execSeamCrcError seam dir s = .next s' ∧ s'.Same m z := by
  unfold execSeamCrcError
  refine ⟨_, rfl, ?_⟩
  refine State.Same.ite h ?_
  extract_lets -underBinder +onlyGivenNames n1 n2 s3
  have h4 : s3.Same m z := State.bump_same h
  clear_value s3
  extract_lets -underBinder +onlyGivenNames s5
  have h6 : s5.Same m z := State.modSeam_same h4
  clear_value s5
  extract_lets -underBinder +onlyGivenNames s7
  have h8 : s7.Same m z := State.Same.ite (State.setReg_same h6) h6
  clear_value s7
  exact State.Same.ite (State.endSeam_same h8) h8

theorem execSeamLaneLoss_same {seam : SeamId} {dir : Bool} {lane : BitVec 11} {s : State} (h : s.Same m z)
    (_ : .seams ∈ m := by assumption) (_ : .polders ∈ m := by assumption) (_ : .clients ∈ m := by assumption)
    (_ : .conservators ∈ m := by assumption) (_ : .channels ∈ m := by assumption) (_ : .links ∈ m := by assumption)
    (_ : .status ∈ m := by assumption) (_ : .journal ∈ m := by assumption) :
    ∃ s', execSeamLaneLoss seam dir lane s = .next s' ∧ s'.Same m z := by
  unfold execSeamLaneLoss
  refine ⟨_, rfl, ?_⟩
  exact State.Same.ite h (State.endSeam_same (State.modSeam_same h))

theorem State.endSeamTraining_same {s : State} {n : Nat} {ok : Bool} (h : s.Same m z) (_ : .seams ∈ m := by assumption)
    (_ : .polders ∈ m := by assumption) (_ : .clients ∈ m := by assumption) (_ : .conservators ∈ m := by assumption)
    (_ : .channels ∈ m := by assumption) (_ : .links ∈ m := by assumption) (_ : .status ∈ m := by assumption)
    (_ : .journal ∈ m := by assumption) :
    (State.endSeamTraining s n ok).Same m z := by
  unfold State.endSeamTraining
  refine State.Same.ite (State.modSeam_same h) ?_
  extract_lets -underBinder +onlyGivenNames s1
  have h2 : s1.Same m z := State.modSeam_same h
  clear_value s1
  exact State.loseUnreached_same (State.failPart_same h2)

theorem execSeamTraining_same {seam : SeamId} {ok : Bool} {s : State} (h : s.Same m z) (_ : .seams ∈ m := by assumption)
    (_ : .polders ∈ m := by assumption) (_ : .clients ∈ m := by assumption) (_ : .conservators ∈ m := by assumption)
    (_ : .channels ∈ m := by assumption) (_ : .links ∈ m := by assumption) (_ : .status ∈ m := by assumption)
    (_ : .journal ∈ m := by assumption) :
    ∃ s', execSeamTraining seam ok s = .next s' ∧ s'.Same m z := by
  unfold execSeamTraining
  refine ⟨_, rfl, ?_⟩
  exact State.Same.ite h (State.endSeamTraining_same h)

theorem execMemoryControllerFailure_same {depot : Bool} {n : Fin 12} {s : State} (h : s.Same m z)
    (_ : .polders ∈ m := by assumption) (_ : .clients ∈ m := by assumption) (_ : .conservators ∈ m := by assumption)
    (_ : .channels ∈ m := by assumption) (_ : .links ∈ m := by assumption) (_ : .status ∈ m := by assumption)
    (_ : .journal ∈ m := by assumption) :
    ∃ s', execMemoryControllerFailure depot n s = .next s' ∧ s'.Same m z := by
  unfold execMemoryControllerFailure
  refine ⟨_, rfl, ?_⟩
  refine State.Same.ite h ?_
  refine State.Same.ite (State.Same.ite (State.failPart_same (State.logError_same h)) h) ?_
  exact State.failPart_same (State.logError_same h)

theorem execHeartbeat_same {fromS1 : Bool} {s : State} (h : s.Same m z) (_ : .seams ∈ m := by assumption)
    (_ : .firmware ∈ m := by assumption) :
    ∃ s', execHeartbeat fromS1 s = .next s' ∧ s'.Same m z := by
  unfold execHeartbeat
  refine ⟨_, rfl, ?_⟩
  refine State.Same.ite h ?_
  refine State.Same.ite ?_ ?_
  · refine State.modBoot_same (State.controlCrosses_same h) ?_
    exact fun _ => { Boot.Same.refl _ with firmware := .inl (by assumption) }
  · refine State.modBoot_same (State.controlCrosses_same h) ?_
    exact fun _ => { Boot.Same.refl _ with firmware := .inl (by assumption) }

theorem execHeartbeatTimeout_same {lostS1 : Bool} {s : State} (h : s.Same m z) (_ : .seams ∈ m := by assumption)
    (_ : .polders ∈ m := by assumption) (_ : .clients ∈ m := by assumption) (_ : .conservators ∈ m := by assumption)
    (_ : .channels ∈ m := by assumption) (_ : .policy ∈ m := by assumption) (_ : .links ∈ m := by assumption)
    (_ : .status ∈ m := by assumption) (_ : .firmware ∈ m := by assumption) (_ : .journal ∈ m := by assumption) :
    ∃ s', execHeartbeatTimeout lostS1 s = .next s' ∧ s'.Same m z := by
  unfold execHeartbeatTimeout
  refine ⟨_, rfl, ?_⟩
  refine State.Same.ite h ?_
  refine State.Same.ite (State.Same.ite (State.loseDie_same h) h) ?_
  refine State.Same.ite ?_ h
  extract_lets -underBinder +onlyGivenNames s1
  have h2 : s1.Same m z := State.modBoot_same h (fun _ => { Boot.Same.refl _ with firmware := .inl (by assumption) })
  clear_value s1
  extract_lets -underBinder +onlyGivenNames s3
  have h4 : s3.Same m z := State.modHif_same h2 (fun _ => {  policy := .inl (by assumption) })
  clear_value s3
  refine State.forEach_same h4 ?_
  intro s5 x7 h6
  exact State.dropPort_same h6

/-! ### Boot -/

theorem State.usageVals_same {s : State} (h : s.Same m z) (_ : .power ∈ m := by assumption) :
    (State.usageVals s).2.Same m z := by
  unfold State.usageVals
  extract_lets -underBinder +onlyGivenNames n1 n2 n3 s4
  have h5 : s4.Same m z := State.meterEnergy_same (State.meterEnergy_same h)
  clear_value s4
  extract_lets -underBinder +onlyGivenNames n6 n7
  have h8 : n7.2.Same m z := State.draw_same h5
  clear_value n7
  exact h8

theorem State.appendTotals_same {s : State} (h : s.Same m z) (_ : .power ∈ m := by assumption)
    (_ : .journal ∈ m := by assumption) :
    (State.appendTotals s).Same m z := by
  unfold State.appendTotals
  extract_lets -underBinder +onlyGivenNames n1
  have h2 : n1.2.Same m z := State.usageVals_same h
  clear_value n1
  extract_lets -underBinder +onlyGivenNames s3
  have h4 : s3.Same m z := State.append_same h2
  clear_value s3
  extract_lets -underBinder +onlyGivenNames s5
  have h6 : s5.Same m z := State.append_same (State.append_same h4)
  clear_value s5
  exact State.modJournal_same h6

theorem State.seamsDown_same {s : State} (h : s.Same m z) (_ : .seams ∈ m := by assumption) :
    (State.seamsDown s).Same m z := by
  unfold State.seamsDown
  refine State.forEach_same h ?_
  intro s1 x3 h2
  exact State.modSeam_same h2

theorem State.Same.all (t s : State) (hm : ∀ k, k ∈ m) : t.Same m s := by
  constructor <;> exact .inl (hm _)

theorem State.cleared_same {s : State} {torn : Bool} (_ : s.Same m z) (_ : .time ∈ m := by assumption)
    (_ : .vfRegs ∈ m := by assumption) (_ : .tiles ∈ m := by assumption) (_ : .memory ∈ m := by assumption)
    (_ : .spad ∈ m := by assumption) (_ : .dstore ∈ m := by assumption) (_ : .istore ∈ m := by assumption)
    (_ : .host ∈ m := by assumption) (_ : .translation ∈ m := by assumption) (_ : .frames ∈ m := by assumption)
    (_ : .seams ∈ m := by assumption) (_ : .polders ∈ m := by assumption) (_ : .clients ∈ m := by assumption)
    (_ : .conservators ∈ m := by assumption) (_ : .channels ∈ m := by assumption) (_ : .policy ∈ m := by assumption)
    (_ : .links ∈ m := by assumption) (_ : .power ∈ m := by assumption) (_ : .board ∈ m := by assumption)
    (_ : .status ∈ m := by assumption) (_ : .measurements ∈ m := by assumption) (_ : .firmware ∈ m := by assumption)
    (_ : .journal ∈ m := by assumption) (_ : .spares ∈ m := by assumption) :
    (State.cleared s torn).Same m z := by
  exact State.Same.all _ _ (by intro k; cases k <;> assumption)

theorem State.powerS0_same {s : State} (h : s.Same m z) (_ : .policy ∈ m := by assumption) (_ : .status ∈ m := by assumption)
    (_ : .firmware ∈ m := by assumption) :
    (State.powerS0 s).Same m z := by
  unfold State.powerS0
  extract_lets -underBinder +onlyGivenNames s1
  have h2 : s1.Same m z := by
    refine State.modBoot_same h ?_
    exact fun _ => { Boot.Same.refl _ with status := .inl (by assumption), firmware := .inl (by assumption) }
  clear_value s1
  exact State.Same.ite (State.trainLink_same h2) h2

theorem State.coldStart_same {s : State} {torn : Bool} (h : s.Same m z) (_ : .time ∈ m := by assumption)
    (_ : .vfRegs ∈ m := by assumption) (_ : .tiles ∈ m := by assumption) (_ : .memory ∈ m := by assumption)
    (_ : .spad ∈ m := by assumption) (_ : .dstore ∈ m := by assumption) (_ : .istore ∈ m := by assumption)
    (_ : .host ∈ m := by assumption) (_ : .translation ∈ m := by assumption) (_ : .frames ∈ m := by assumption)
    (_ : .seams ∈ m := by assumption) (_ : .polders ∈ m := by assumption) (_ : .clients ∈ m := by assumption)
    (_ : .conservators ∈ m := by assumption) (_ : .channels ∈ m := by assumption) (_ : .policy ∈ m := by assumption)
    (_ : .links ∈ m := by assumption) (_ : .power ∈ m := by assumption) (_ : .board ∈ m := by assumption)
    (_ : .status ∈ m := by assumption) (_ : .measurements ∈ m := by assumption) (_ : .firmware ∈ m := by assumption)
    (_ : .journal ∈ m := by assumption) (_ : .spares ∈ m := by assumption) :
    (State.coldStart s torn).Same m z := by
  unfold State.coldStart
  extract_lets -underBinder +onlyGivenNames n1 n2 s3
  have h4 : s3.Same m z := State.cleared_same h
  clear_value s3
  extract_lets -underBinder +onlyGivenNames s5
  have h6 : s5.Same m z := State.Same.ite (State.setIrq_same h4) h4
  clear_value s5
  extract_lets -underBinder +onlyGivenNames s7
  have h8 : s7.Same m z := State.Same.ite h6 (State.append_same h6)
  clear_value s7
  exact State.Same.ite (State.powerS0_same h8) h8

theorem execColdStart_same {start : PowerRise} {s : State} (h : s.Same m z) (_ : .time ∈ m := by assumption)
    (_ : .vfRegs ∈ m := by assumption) (_ : .tiles ∈ m := by assumption) (_ : .memory ∈ m := by assumption)
    (_ : .spad ∈ m := by assumption) (_ : .dstore ∈ m := by assumption) (_ : .istore ∈ m := by assumption)
    (_ : .host ∈ m := by assumption) (_ : .translation ∈ m := by assumption) (_ : .frames ∈ m := by assumption)
    (_ : .seams ∈ m := by assumption) (_ : .polders ∈ m := by assumption) (_ : .clients ∈ m := by assumption)
    (_ : .conservators ∈ m := by assumption) (_ : .channels ∈ m := by assumption) (_ : .policy ∈ m := by assumption)
    (_ : .links ∈ m := by assumption) (_ : .power ∈ m := by assumption) (_ : .board ∈ m := by assumption)
    (_ : .status ∈ m := by assumption) (_ : .measurements ∈ m := by assumption) (_ : .firmware ∈ m := by assumption)
    (_ : .journal ∈ m := by assumption) (_ : .spares ∈ m := by assumption) :
    ∃ s', execColdStart start s = .next s' ∧ s'.Same m z := by
  unfold execColdStart
  refine ⟨_, rfl, ?_⟩
  exact State.Same.ite (State.modBoard_same (State.coldStart_same h)) (State.Same.ite (State.coldStart_same h) h)

theorem State.stopCores_same {s : State} (h : s.Same m z) (_ : .vfRegs ∈ m := by assumption) (_ : .tiles ∈ m := by assumption)
    (_ : .memory ∈ m := by assumption) (_ : .spad ∈ m := by assumption) (_ : .dstore ∈ m := by assumption)
    (_ : .istore ∈ m := by assumption) (_ : .host ∈ m := by assumption) (_ : .translation ∈ m := by assumption)
    (_ : .frames ∈ m := by assumption) (_ : .seams ∈ m := by assumption) (_ : .polders ∈ m := by assumption)
    (_ : .conservators ∈ m := by assumption) (_ : .channels ∈ m := by assumption) (_ : .policy ∈ m := by assumption)
    (_ : .links ∈ m := by assumption) (_ : .status ∈ m := by assumption) (_ : .firmware ∈ m := by assumption) :
    (State.stopCores s).Same m z := by
  unfold State.stopCores
  extract_lets -underBinder +onlyGivenNames s1
  have h1 : s1.Same m z := State.seamsDown_same h
  clear_value s1
  exact { h1 with
    vfRegs := .inl (by assumption), tiles := .inl (by assumption), memory := .inl (by assumption), spad := .inl (by assumption)
    dstore := .inl (by assumption), istore := .inl (by assumption), translation := .inl (by assumption)
    frames := .inl (by assumption), polders := .inl (by assumption), conservators := .inl (by assumption)
    channels := .inl (by assumption), policy := .inl (by assumption), links := .inl (by assumption)
    status := .inl (by assumption), firmware := .inl (by assumption) }

theorem execVinGood_same {s : State} (h : s.Same m z) (_ : .policy ∈ m := by assumption) (_ : .board ∈ m := by assumption)
    (_ : .status ∈ m := by assumption) (_ : .firmware ∈ m := by assumption) :
    ∃ s', execVinGood s = .next s' ∧ s'.Same m z := by
  unfold execVinGood
  refine ⟨_, rfl, ?_⟩
  refine State.Same.ite h ?_
  extract_lets -underBinder +onlyGivenNames s1
  have h2 : s1.Same m z := State.modBoard_same h
  clear_value s1
  exact State.Same.ite (State.powerS0_same h2) h2

theorem execVinLoss_same {s : State} (h : s.Same m z) (_ : .vfRegs ∈ m := by assumption) (_ : .tiles ∈ m := by assumption)
    (_ : .memory ∈ m := by assumption) (_ : .spad ∈ m := by assumption) (_ : .dstore ∈ m := by assumption)
    (_ : .istore ∈ m := by assumption) (_ : .host ∈ m := by assumption) (_ : .translation ∈ m := by assumption)
    (_ : .frames ∈ m := by assumption) (_ : .seams ∈ m := by assumption) (_ : .polders ∈ m := by assumption)
    (_ : .conservators ∈ m := by assumption) (_ : .channels ∈ m := by assumption) (_ : .policy ∈ m := by assumption)
    (_ : .links ∈ m := by assumption) (_ : .board ∈ m := by assumption) (_ : .status ∈ m := by assumption)
    (_ : .firmware ∈ m := by assumption) :
    ∃ s', execVinLoss s = .next s' ∧ s'.Same m z := by
  unfold execVinLoss
  refine ⟨_, rfl, ?_⟩
  refine State.Same.ite h ?_
  extract_lets -underBinder +onlyGivenNames s1
  have h2 : s1.Same m z := State.modBoot_same h (fun _ => { Boot.Same.refl _ with firmware := .inl (by assumption) })
  clear_value s1
  extract_lets -underBinder +onlyGivenNames s3
  have h4 : s3.Same m z := State.modBoard_same h2
  clear_value s3
  exact State.Same.ite (State.stopCores_same h4) h4

theorem execVauxLoss_same {s : State} (h : s.Same m z) (_ : .vfRegs ∈ m := by assumption) (_ : .tiles ∈ m := by assumption)
    (_ : .memory ∈ m := by assumption) (_ : .spad ∈ m := by assumption) (_ : .dstore ∈ m := by assumption)
    (_ : .istore ∈ m := by assumption) (_ : .host ∈ m := by assumption) (_ : .translation ∈ m := by assumption)
    (_ : .frames ∈ m := by assumption) (_ : .seams ∈ m := by assumption) (_ : .polders ∈ m := by assumption)
    (_ : .conservators ∈ m := by assumption) (_ : .channels ∈ m := by assumption) (_ : .policy ∈ m := by assumption)
    (_ : .links ∈ m := by assumption) (_ : .board ∈ m := by assumption) (_ : .status ∈ m := by assumption)
    (_ : .firmware ∈ m := by assumption) :
    ∃ s', execVauxLoss s = .next s' ∧ s'.Same m z := by
  unfold execVauxLoss
  refine ⟨_, rfl, State.Same.ite h (State.modBoard_same (State.modBoot_same ?_ (fun _ =>
    { Boot.Same.refl _ with status := .inl (by assumption), firmware := .inl (by assumption) })))⟩
  have h1 : s.stopCores.Same m z := State.stopCores_same h
  generalize s.stopCores = s1 at h1 ⊢
  exact { h1 with channels := .inl (by assumption) }

theorem execVinUndervoltage_same {s : State} (h : s.Same m z) (_ : .power ∈ m := by assumption)
    (_ : .board ∈ m := by assumption) :
    ∃ s', execVinUndervoltage s = .next s' ∧ s'.Same m z := by
  unfold execVinUndervoltage
  refine ⟨_, rfl, ?_⟩
  exact State.Same.ite h (State.retune_same (State.setIrq_same (State.modBoard_same h)))

theorem execUndervoltageEnd_same {s : State} (h : s.Same m z) (_ : .power ∈ m := by assumption)
    (_ : .board ∈ m := by assumption) :
    ∃ s', execUndervoltageEnd s = .next s' ∧ s'.Same m z := by
  unfold execUndervoltageEnd
  refine ⟨_, rfl, ?_⟩
  exact State.Same.ite (State.retune_same (State.modBoard_same h)) h

theorem execSysclkLoss_same {s : State} (h : s.Same m z) (_ : .vfRegs ∈ m := by assumption) (_ : .tiles ∈ m := by assumption)
    (_ : .memory ∈ m := by assumption) (_ : .spad ∈ m := by assumption) (_ : .dstore ∈ m := by assumption)
    (_ : .istore ∈ m := by assumption) (_ : .host ∈ m := by assumption) (_ : .translation ∈ m := by assumption)
    (_ : .frames ∈ m := by assumption) (_ : .seams ∈ m := by assumption) (_ : .polders ∈ m := by assumption)
    (_ : .conservators ∈ m := by assumption) (_ : .channels ∈ m := by assumption) (_ : .policy ∈ m := by assumption)
    (_ : .links ∈ m := by assumption) (_ : .board ∈ m := by assumption) (_ : .status ∈ m := by assumption)
    (_ : .firmware ∈ m := by assumption) :
    ∃ s', execSysclkLoss s = .next s' ∧ s'.Same m z := by
  unfold execSysclkLoss
  refine ⟨_, rfl, State.Same.ite h ?_⟩
  extract_lets -underBinder +onlyGivenNames n1
  exact State.modBoard_same (State.modLinks_same (State.stopCores_same h))

theorem Boot.setImage_other (b : Boot) (n : Nat) (img : List Byte) (_ : .firmware ∈ m := by assumption) :
    Boot.Same m b (b.setImage n img) := by
  unfold Boot.setImage
  split <;> exact { Boot.Same.refl _ with firmware := .inl (by assumption) }

theorem State.rejectImage_same {s : State} {reason : Nat} (h : s.Same m z) (_ : .firmware ∈ m := by assumption) :
    (State.rejectImage s reason).Same m z := by
  exact State.setIrq_same (State.modBoot_same h (fun b => { Boot.setImage_other b _ _ with firmware := .inl (by assumption) }))

theorem State.stgBegin_same {s : State} (h : s.Same m z) (_ : .firmware ∈ m := by assumption) :
    (State.stgBegin s).Same m z := by
  unfold State.stgBegin
  refine State.Same.ite h ?_
  exact State.modBoot_same h (fun _ => { Boot.Same.refl _ with firmware := .inl (by assumption) })

theorem execStgBegin_same {s : State} (h : s.Same m z) (_ : .firmware ∈ m := by assumption) :
    ∃ s', execStgBegin s = .next s' ∧ s'.Same m z := by
  unfold execStgBegin
  refine ⟨_, rfl, ?_⟩
  exact State.stgBegin_same h

theorem State.stgChunk_same {s : State} {n : Nat} {data : List Byte} (h : s.Same m z) (_ : .firmware ∈ m := by assumption) :
    (State.stgChunk s n data).Same m z := by
  unfold State.stgChunk
  refine State.Same.ite h (State.Same.ite (State.logError_same h) (State.Same.ite (State.rejectImage_same h) ?_))
  exact State.modBoot_same h (fun b => { Boot.setImage_other b _ _ with firmware := .inl (by assumption) })

theorem execStgChunk_same {len : BitVec 15} {data : List Byte} {s : State} (h : s.Same m z) (_ : .firmware ∈ m := by assumption) :
    ∃ s', execStgChunk len data s = .next s' ∧ s'.Same m z := by
  unfold execStgChunk
  refine ⟨_, rfl, ?_⟩
  exact State.stgChunk_same h

theorem State.stgCommit_same {s : State} (h : s.Same m z) (_ : .firmware ∈ m := by assumption) :
    (State.stgCommit s).Same m z := by
  unfold State.stgCommit
  refine State.Same.ite ?_ h
  exact State.modBoot_same h (fun _ => { Boot.Same.refl _ with firmware := .inl (by assumption) })

theorem execStgCommit_same {s : State} (h : s.Same m z) (_ : .firmware ∈ m := by assumption) :
    ∃ s', execStgCommit s = .next s' ∧ s'.Same m z := by
  unfold execStgCommit
  refine ⟨_, rfl, ?_⟩
  exact State.stgCommit_same h

theorem State.takeEffect_same {s : State} (h : s.Same m z) (_ : .measurements ∈ m := by assumption)
    (_ : .firmware ∈ m := by assumption) :
    (State.takeEffect s).Same m z := by
  unfold State.takeEffect
  extract_lets -underBinder +onlyGivenNames n1 n2
  refine State.modBoot_same h ?_
  exact fun _ => { Boot.Same.refl _ with measurements := .inl (by assumption), firmware := .inl (by assumption) }

theorem execImageVerification_same {s : State} (h : s.Same m z) (_ : .status ∈ m := by assumption)
    (_ : .measurements ∈ m := by assumption) (_ : .firmware ∈ m := by assumption) :
    ∃ s', execImageVerification s = .next s' ∧ s'.Same m z := by
  unfold execImageVerification
  refine ⟨_, rfl, ?_⟩
  refine State.Same.ite h ?_
  split
  · exact State.rejectImage_same h
  · extract_lets -underBinder +onlyGivenNames s1
    have h2 : s1.Same m z := by
      refine State.setIrq_same ?_
      exact State.modBoot_same h (fun _ => { Boot.Same.refl _ with firmware := .inl (by assumption) })
    clear_value s1
    refine State.Same.ite h2 ?_
    refine State.Same.ite ?_ ?_
    · refine State.takeEffect_same ?_
      refine State.modBoot_same h2 ?_
      exact fun _ => { Boot.Same.refl _ with status := .inl (by assumption), firmware := .inl (by assumption) }
    · exact State.modBoot_same h2 (fun _ => { Boot.Same.refl _ with firmware := .inl (by assumption) })

theorem State.powerDies_same {s : State} {n : Nat} (h : s.Same m z) (_ : .power ∈ m := by assumption)
    (_ : .status ∈ m := by assumption) :
    (State.powerDies s n).Same m z := by
  unfold State.powerDies
  refine State.forEach_same ?_ ?_
  · exact State.modBoot_same h (fun _ => { Boot.Same.refl _ with status := .inl (by assumption) })
  · intro s1 x3 h2
    exact State.modDie_same h2

theorem State.powerFails_same {s : State} {d : Nat} (h : s.Same m z) (_ : .seams ∈ m := by assumption)
    (_ : .polders ∈ m := by assumption) (_ : .clients ∈ m := by assumption) (_ : .conservators ∈ m := by assumption)
    (_ : .channels ∈ m := by assumption) (_ : .links ∈ m := by assumption) (_ : .power ∈ m := by assumption)
    (_ : .status ∈ m := by assumption) (_ : .journal ∈ m := by assumption) :
    (State.powerFails s d).Same m z := by
  unfold State.powerFails
  exact State.loseDie_same (State.powerDies_same h)

theorem State.spareSeamLanes_same {s : State} {n : Nat} {dir : Bool} (h : s.Same m z) (_ : .seams ∈ m := by assumption)
    (_ : .journal ∈ m := by assumption) :
    (State.spareSeamLanes s n dir).Same m z := by
  unfold State.spareSeamLanes
  extract_lets -underBinder +onlyGivenNames n1 n2
  refine State.forEach_same h ?_
  intro s3 x5 h4
  extract_lets -underBinder +onlyGivenNames n6
  refine State.Same.ite h4 ?_
  extract_lets -underBinder +onlyGivenNames s7
  have h8 : s7.Same m z := State.modSeam_same h4
  clear_value s7
  exact State.appendSpare_same (State.setReg_same h8)

theorem State.trainSeam_same {s : State} {n : Nat} (h : s.Same m z) (_ : .seams ∈ m := by assumption)
    (_ : .measurements ∈ m := by assumption) (_ : .journal ∈ m := by assumption) :
    (State.trainSeam s n).Same m z := by
  unfold State.trainSeam
  extract_lets -underBinder +onlyGivenNames n1 s2
  have h3 : s2.Same m z := State.spareSeamLanes_same (State.spareSeamLanes_same h)
  clear_value s2
  extract_lets -underBinder +onlyGivenNames s4
  have h5 : s4.Same m z := State.Same.ite (State.extendMr4_same h3) h3
  clear_value s4
  exact State.modSeam_same h5

theorem State.trainSeams_same {s : State} (h : s.Same m z) (_ : .seams ∈ m := by assumption)
    (_ : .measurements ∈ m := by assumption) (_ : .firmware ∈ m := by assumption) (_ : .journal ∈ m := by assumption) :
    (State.trainSeams s).Same m z := by
  unfold State.trainSeams
  refine State.Same.ite h ?_
  split
  · exact State.trainSeam_same h
  · exact State.modBoot_same h (fun _ => { Boot.Same.refl _ with firmware := .inl (by assumption) })

theorem State.buildPool_same {s : State} (h : s.Same m z) (_ : .translation ∈ m := by assumption)
    (_ : .frames ∈ m := by assumption) :
    (State.buildPool s).Same m z := by
  unfold State.buildPool
  extract_lets -underBinder +onlyGivenNames s1
  have h2 : s1.Same m z := by
    refine State.modStore_same h ?_
    exact fun _ => { Store.Same.refl _ with translation := .inl (by assumption), frames := .inl (by assumption) }
  clear_value s1
  extract_lets -underBinder +onlyGivenNames s3
  have h4 : s3.Same m z := by
    refine State.forEach_same h2 ?_
    intro s5 x7 h6
    exact State.setReg_same h6
  clear_value s3
  extract_lets -underBinder +onlyGivenNames s8
  have h9 : s8.Same m z := by
    refine State.forEach_same h4 ?_
    intro s10 x12 h11
    exact State.setReg_same h11
  clear_value s8
  refine State.forEach_same h9 ?_
  intro s13 x15 h14
  exact State.setReg_same h14

theorem State.operate_same {s : State} (h : s.Same m z) (_ : .power ∈ m := by assumption) (_ : .status ∈ m := by assumption)
    (_ : .measurements ∈ m := by assumption) (_ : .firmware ∈ m := by assumption) (_ : .journal ∈ m := by assumption) :
    (State.operate s).Same m z := by
  unfold State.operate
  extract_lets -underBinder +onlyGivenNames s1
  have h2 : s1.Same m z := State.extendMr4_same h
  clear_value s1
  extract_lets -underBinder +onlyGivenNames s3
  have h4 : s3.Same m z := State.append_same h2
  clear_value s3
  extract_lets -underBinder +onlyGivenNames s5
  have h6 : s5.Same m z := by
    refine State.modBoot_same h4 ?_
    exact fun _ => { Boot.Same.refl _ with status := .inl (by assumption), firmware := .inl (by assumption) }
  clear_value s5
  exact State.retune_same (State.calibrate_same h6)

theorem State.stackFails_same {s : State} {n : Nat} (h : s.Same m z) (_ : .polders ∈ m := by assumption)
    (_ : .clients ∈ m := by assumption) (_ : .conservators ∈ m := by assumption) (_ : .channels ∈ m := by assumption)
    (_ : .links ∈ m := by assumption) (_ : .status ∈ m := by assumption) (_ : .firmware ∈ m := by assumption)
    (_ : .journal ∈ m := by assumption) :
    (State.stackFails s n).Same m z := by
  unfold State.stackFails
  refine State.failPart_same ?_
  refine State.modBoot_same (State.logError_same h) ?_
  exact fun _ => { Boot.Same.refl _ with firmware := .inl (by assumption) }

theorem State.depotFails_same {s : State} {n : Nat} (h : s.Same m z) (_ : .polders ∈ m := by assumption)
    (_ : .clients ∈ m := by assumption) (_ : .conservators ∈ m := by assumption) (_ : .channels ∈ m := by assumption)
    (_ : .links ∈ m := by assumption) (_ : .status ∈ m := by assumption) (_ : .firmware ∈ m := by assumption)
    (_ : .journal ∈ m := by assumption) :
    (State.depotFails s n).Same m z := by
  unfold State.depotFails
  refine State.failPart_same ?_
  refine State.modBoot_same (State.logError_same h) ?_
  exact fun _ => { Boot.Same.refl _ with firmware := .inl (by assumption) }

theorem State.spareTsvLane_same {s : State} {n : Nat} (h : s.Same m z) (_ : .polders ∈ m := by assumption)
    (_ : .clients ∈ m := by assumption) (_ : .conservators ∈ m := by assumption) (_ : .channels ∈ m := by assumption)
    (_ : .links ∈ m := by assumption) (_ : .status ∈ m := by assumption) (_ : .measurements ∈ m := by assumption)
    (_ : .firmware ∈ m := by assumption) (_ : .journal ∈ m := by assumption) (_ : .spares ∈ m := by assumption) :
    (State.spareTsvLane s n).Same m z := by
  unfold State.spareTsvLane
  extract_lets -underBinder +onlyGivenNames n1
  refine State.Same.ite (State.stackFails_same h) ?_
  exact State.extendMr4_same (State.appendSpare_same (State.modSpares_same h))

theorem State.trainMemories_same {s : State} {e : BringUpEvent} (h : s.Same m z) (_ : .polders ∈ m := by assumption)
    (_ : .clients ∈ m := by assumption) (_ : .conservators ∈ m := by assumption) (_ : .channels ∈ m := by assumption)
    (_ : .links ∈ m := by assumption) (_ : .status ∈ m := by assumption) (_ : .measurements ∈ m := by assumption)
    (_ : .firmware ∈ m := by assumption) (_ : .journal ∈ m := by assumption) (_ : .spares ∈ m := by assumption) :
    (State.trainMemories s e).Same m z := by
  unfold State.trainMemories
  extract_lets -underBinder +onlyGivenNames n1
  split
  · exact State.Same.ite (State.stackFails_same h) h
  · exact State.Same.ite (State.spareTsvLane_same h) h
  · exact State.Same.ite (State.depotFails_same h) h
  · refine State.Same.ite ?_ ?_
    · exact State.modBoot_same h (fun _ => { Boot.Same.refl _ with firmware := .inl (by assumption) })
    · exact State.modBoot_same h (fun _ => { Boot.Same.refl _ with firmware := .inl (by assumption) })
  · exact h

theorem State.copyImage_same {s : State} (h : s.Same m z) (_ : .seams ∈ m := by assumption) (_ : .firmware ∈ m := by assumption) :
    (State.copyImage s).Same m z := by
  unfold State.copyImage
  extract_lets -underBinder +onlyGivenNames n1 n2
  refine State.Same.ite h ?_
  refine State.modBoot_same (State.crossSeams_same h) ?_
  exact fun _ => { Boot.Same.refl _ with firmware := .inl (by assumption) }

theorem execBringUp_same {e : BringUpEvent} {s : State} (h : s.Same m z) (_ : .translation ∈ m := by assumption)
    (_ : .frames ∈ m := by assumption) (_ : .seams ∈ m := by assumption) (_ : .polders ∈ m := by assumption)
    (_ : .clients ∈ m := by assumption) (_ : .conservators ∈ m := by assumption) (_ : .channels ∈ m := by assumption)
    (_ : .links ∈ m := by assumption) (_ : .power ∈ m := by assumption) (_ : .status ∈ m := by assumption)
    (_ : .measurements ∈ m := by assumption) (_ : .firmware ∈ m := by assumption) (_ : .journal ∈ m := by assumption)
    (_ : .spares ∈ m := by assumption) :
    ∃ s', execBringUp e s = .next s' ∧ s'.Same m z := by
  unfold execBringUp
  refine ⟨_, rfl, ?_⟩
  refine State.Same.ite h ?_
  split
  · refine State.modBoot_same (State.powerDies_same h) ?_
    exact fun _ => { Boot.Same.refl _ with firmware := .inl (by assumption) }
  · exact State.Same.ite h (State.powerFails_same h)
  · exact State.trainSeams_same h
  · exact State.copyImage_same h
  · exact State.trainMemories_same h
  · refine State.modBoot_same (State.buildPool_same h) ?_
    exact fun _ => { Boot.Same.refl _ with firmware := .inl (by assumption) }
  · exact State.operate_same h
  · exact h

theorem State.powerDown_same {s : State} (h : s.Same m z) (_ : .time ∈ m := by assumption) (_ : .tiles ∈ m := by assumption)
    (_ : .seams ∈ m := by assumption) (_ : .conservators ∈ m := by assumption) (_ : .links ∈ m := by assumption)
    (_ : .status ∈ m := by assumption) (_ : .firmware ∈ m := by assumption)
    (_ : .journal ∈ m := by assumption) : s.powerDown.Same m z := by
  unfold State.powerDown
  extract_lets -underBinder +onlyGivenNames s1 s2 s3 s4
  have h2 : s2.Same m z := State.modJournal_same (State.seamsDown_same h)
  clear_value s2
  have h3 : s3.Same m z := { h2 with time := .inl (by assumption) }
  clear_value s3
  have h4 : s4.Same m z := { h3 with tiles := .inl (by assumption), conservators := .inl (by assumption) }
  refine State.modBoot_same (State.modLinks_same h4) (fun _ => ?_)
  exact { Boot.Same.refl _ with status := .inl (by assumption), firmware := .inl (by assumption) }

theorem State.awaitImage_same {s : State} (h : s.Same m z) (_ : .polders ∈ m := by assumption)
    (_ : .channels ∈ m := by assumption) (_ : .status ∈ m := by assumption) (_ : .firmware ∈ m := by assumption) :
    (State.awaitImage s).Same m z := by
  unfold State.awaitImage
  refine State.modBoot_same ?_ ?_
  · refine State.forEach_same h ?_
    intro s1 x3 h2
    exact State.idleChannel_same h2
  · exact fun _ => { Boot.Same.refl _ with status := .inl (by assumption), firmware := .inl (by assumption) }

theorem State.spoiltDigest_same {s : State} {a : Nat} (h : s.Same m z) :
    (State.spoiltDigest s a).2.Same m z := by
  induction a generalizing s with
  | zero => exact h
  | succ n ih => exact ih (State.draw_same h)

theorem State.crossFails_same {s : State} (h : s.Same m z) (_ : .time ∈ m := by assumption) (_ : .tiles ∈ m := by assumption)
    (_ : .seams ∈ m := by assumption) (_ : .polders ∈ m := by assumption) (_ : .conservators ∈ m := by assumption)
    (_ : .channels ∈ m := by assumption) (_ : .links ∈ m := by assumption) (_ : .status ∈ m := by assumption)
    (_ : .measurements ∈ m := by assumption) (_ : .firmware ∈ m := by assumption) (_ : .journal ∈ m := by assumption) :
    (State.crossFails s).Same m z := by
  unfold State.crossFails
  extract_lets -underBinder +onlyGivenNames s1
  have h2 : s1.Same m z := State.setIrq_same h
  clear_value s1
  refine State.Same.ite ?_ ?_
  · refine State.Same.ite ?_ ?_
    · extract_lets -underBinder +onlyGivenNames s3
      have h4 : s3.Same m z := by
        refine State.rejectImage_same ?_
        exact State.modBoot_same h2 (fun _ => { Boot.Same.refl _ with firmware := .inl (by assumption) })
      clear_value s3
      exact State.takeEffect_same h4
    · refine State.takeEffect_same ?_
      exact State.modBoot_same h2 (fun _ => { Boot.Same.refl _ with firmware := .inl (by assumption) })
  · refine State.awaitImage_same ?_
    refine State.powerDown_same ?_
    refine State.rejectImage_same ?_
    exact State.modBoot_same h2 (fun _ => { Boot.Same.refl _ with firmware := .inl (by assumption) })

theorem execCrossCheck_same {intact : Bool} {s : State} (h : s.Same m z) (_ : .time ∈ m := by assumption)
    (_ : .tiles ∈ m := by assumption) (_ : .seams ∈ m := by assumption) (_ : .polders ∈ m := by assumption)
    (_ : .conservators ∈ m := by assumption) (_ : .channels ∈ m := by assumption) (_ : .links ∈ m := by assumption)
    (_ : .status ∈ m := by assumption) (_ : .measurements ∈ m := by assumption) (_ : .firmware ∈ m := by assumption)
    (_ : .journal ∈ m := by assumption) :
    ∃ s', execCrossCheck intact s = .next s' ∧ s'.Same m z := by
  unfold execCrossCheck
  refine ⟨_, rfl, ?_⟩
  refine State.Same.ite h ?_
  refine State.Same.ite ?_ ?_
  · exact State.modBoot_same h (fun _ => { Boot.Same.refl _ with firmware := .inl (by assumption) })
  · extract_lets -underBinder +onlyGivenNames n1
    have h2 : n1.2.Same m z := State.spoiltDigest_same h
    clear_value n1
    refine State.crossFails_same ?_
    exact State.modBoot_same h2 (fun _ => { Boot.Same.refl _ with firmware := .inl (by assumption) })

/-! ### Secure -/

theorem State.serveSecure_same {s : State} {c : Nat} {op : Nat} {act : List Byte → State → State} (h : s.Same m z) (hact : ∀ y1 y2, State.Same y2 m z → (act y1 y2).Same m z)
    (_ : .channels ∈ m := by assumption) :
    (State.serveSecure s c op act).Same m z := by
  unfold State.serveSecure
  split
  · exact h
  · exact hact _ _ (State.takeRequest_same h)

theorem State.extendMr3_same {s : State} {b : List Byte} (h : s.Same m z) (_ : .measurements ∈ m := by assumption) :
    (State.extendMr3 s b).Same m z := by
  unfold State.extendMr3
  exact State.modBoot_same h (fun _ => { Boot.Same.refl _ with measurements := .inl (by assumption) })

theorem State.policyRequest_same {s : State} {c : Nat} {b : List Byte} {ok : Bool} {act : HostIf → HostIf} (h : s.Same m z)
    (ha : ∀ x, HostIf.Same m x (act x)) (_ : .channels ∈ m := by assumption) (_ : .measurements ∈ m := by assumption) :
    (s.policyRequest c b ok act).Same m z :=
  State.Same.ite (State.reply_same h) (State.Same.ite (State.reply_same h)
    (State.reply_same (State.extendMr3_same (State.modHif_same h ha))))

theorem execCatPolicy_same {c : ChannelId} {s : State} (h : s.Same m z) (_ : .channels ∈ m := by assumption)
    (_ : .policy ∈ m := by assumption) (_ : .measurements ∈ m := by assumption) :
    ∃ s', execCatPolicy c s = .next s' ∧ s'.Same m z := by
  unfold execCatPolicy
  refine ⟨_, rfl, ?_⟩
  refine State.serveSecure_same h ?_
  intro x1 s2 h3
  extract_lets -underBinder +onlyGivenNames n4
  exact State.policyRequest_same h3 (fun _ => {  policy := .inl (by assumption) })

theorem execKeyAdd_same {c : ChannelId} {s : State} (h : s.Same m z) (_ : .channels ∈ m := by assumption)
    (_ : .policy ∈ m := by assumption) (_ : .measurements ∈ m := by assumption) :
    ∃ s', execKeyAdd c s = .next s' ∧ s'.Same m z := by
  unfold execKeyAdd
  refine ⟨_, rfl, ?_⟩
  refine State.serveSecure_same h ?_
  intro x1 s2 h3
  extract_lets -underBinder +onlyGivenNames n4
  exact State.policyRequest_same h3 (fun _ => {  policy := .inl (by assumption) })

theorem execKeyRemove_same {c : ChannelId} {s : State} (h : s.Same m z) (_ : .channels ∈ m := by assumption)
    (_ : .policy ∈ m := by assumption) (_ : .measurements ∈ m := by assumption) :
    ∃ s', execKeyRemove c s = .next s' ∧ s'.Same m z := by
  unfold execKeyRemove
  refine ⟨_, rfl, ?_⟩
  refine State.serveSecure_same h ?_
  intro x1 s2 h3
  extract_lets -underBinder +onlyGivenNames n4
  exact State.policyRequest_same h3 (fun _ => {  policy := .inl (by assumption) })

theorem State.warmRestart_same {s : State} (h : s.Same m z) (_ : .polders ∈ m := by assumption)
    (_ : .channels ∈ m := by assumption) (_ : .status ∈ m := by assumption) (_ : .measurements ∈ m := by assumption)
    (_ : .firmware ∈ m := by assumption) :
    (State.warmRestart s).Same m z := by
  unfold State.warmRestart
  extract_lets -underBinder +onlyGivenNames s1
  have h2 : s1.Same m z := by
    refine State.forEach_same h ?_
    intro s3 x5 h4
    exact State.idleChannel_same h4
  clear_value s1
  refine State.takeEffect_same ?_
  refine State.modBoot_same h2 ?_
  exact fun _ => { Boot.Same.refl _ with status := .inl (by assumption), firmware := .inl (by assumption) }

theorem execRestart_same {c : ChannelId} {s : State} (h : s.Same m z) (_ : .polders ∈ m := by assumption)
    (_ : .channels ∈ m := by assumption) (_ : .status ∈ m := by assumption) (_ : .measurements ∈ m := by assumption)
    (_ : .firmware ∈ m := by assumption) :
    ∃ s', execRestart c s = .next s' ∧ s'.Same m z := by
  unfold execRestart
  refine ⟨_, rfl, ?_⟩
  refine State.serveSecure_same h ?_
  intro x1 s2 h3
  refine State.Same.ite (State.reply_same h3) ?_
  exact State.Same.ite (State.reply_same h3) (State.warmRestart_same (State.reply_same h3))

theorem execShutdown_same {c : ChannelId} {s : State} (h : s.Same m z) (_ : .time ∈ m := by assumption)
    (_ : .tiles ∈ m := by assumption) (_ : .seams ∈ m := by assumption) (_ : .polders ∈ m := by assumption)
    (_ : .conservators ∈ m := by assumption) (_ : .channels ∈ m := by assumption) (_ : .links ∈ m := by assumption)
    (_ : .power ∈ m := by assumption) (_ : .status ∈ m := by assumption) (_ : .firmware ∈ m := by assumption)
    (_ : .journal ∈ m := by assumption) :
    ∃ s', execShutdown c s = .next s' ∧ s'.Same m z := by
  unfold execShutdown
  refine ⟨_, rfl, ?_⟩
  refine State.serveSecure_same h ?_
  intro x1 s2 h3
  refine State.Same.ite (State.reply_same h3) ?_
  refine State.Same.ite (State.reply_same h3) ?_
  extract_lets -underBinder +onlyGivenNames s4
  have h5 : s4.Same m z := State.appendTotals_same h3
  clear_value s4
  extract_lets -underBinder +onlyGivenNames s6
  have h7 : s6.Same m z := State.append_same h5
  clear_value s6
  exact State.awaitImage_same (State.powerDown_same (State.reply_same h7))

theorem execSvnCommit_same {c : ChannelId} {s : State} (h : s.Same m z) (_ : .channels ∈ m := by assumption)
    (_ : .firmware ∈ m := by assumption) (_ : .journal ∈ m := by assumption) :
    ∃ s', execSvnCommit c s = .next s' ∧ s'.Same m z := by
  unfold execSvnCommit
  refine ⟨_, rfl, State.serveSecure_same h (fun b s h1 => ?_)⟩
  refine State.Same.ite (State.reply_same h1) (State.Same.ite (State.reply_same h1) (State.Same.ite (State.reply_same h1) ?_))
  exact State.reply_same (State.append_same (State.modBoot_same h1 (fun _ => { Boot.Same.refl _ with firmware := .inl (by assumption) })))

theorem execAttest_same {c : ChannelId} {s : State} (h : s.Same m z) (_ : .channels ∈ m := by assumption) :
    ∃ s', execAttest c s = .next s' ∧ s'.Same m z := by
  unfold execAttest
  refine ⟨_, rfl, ?_⟩
  refine State.serveSecure_same h ?_
  intro x1 s2 h3
  exact State.Same.ite (State.reply_same h3) (State.reply_same (State.modChan_same h3))

theorem execReportRead_same {c : ChannelId} {s : State} (h : s.Same m z) (_ : .channels ∈ m := by assumption) :
    ∃ s', execReportRead c s = .next s' ∧ s'.Same m z := by
  unfold execReportRead
  refine ⟨_, rfl, ?_⟩
  refine State.serveSecure_same h ?_
  intro x1 s2 h3
  extract_lets -underBinder +onlyGivenNames n4 n5
  exact State.Same.ite (State.reply_same h3) (State.reply_same h3)

theorem execCertRead_same {c : ChannelId} {s : State} (h : s.Same m z) (_ : .channels ∈ m := by assumption) :
    ∃ s', execCertRead c s = .next s' ∧ s'.Same m z := by
  unfold execCertRead
  refine ⟨_, rfl, ?_⟩
  refine State.serveSecure_same h ?_
  intro x1 s2 h3
  extract_lets -underBinder +onlyGivenNames n4 n5
  exact State.Same.ite (State.reply_same h3) (State.reply_same h3)

theorem State.takeStatement_same {s : State} {z2 : List Byte} (h : s.Same m z) (_ : .power ∈ m := by assumption)
    (_ : .journal ∈ m := by assumption) :
    (State.takeStatement s z2).Same m z := by
  unfold State.takeStatement
  extract_lets -underBinder +onlyGivenNames s1
  have h2 : s1.Same m z := State.append_same h
  clear_value s1
  extract_lets -underBinder +onlyGivenNames s3
  have h4 : s3.Same m z := by
    refine State.forEach_same h2 ?_
    intro s5 x7 h6
    exact State.append_same h6
  clear_value s3
  refine State.calibrate_same ?_
  refine State.forEach_same h4 ?_
  intro s8 x10 h9
  exact State.modDie_same h9

theorem execRefurb_same {c : ChannelId} {rd : HostRead} {s : State} (h : s.Same m z) (_ : .channels ∈ m := by assumption)
    (_ : .power ∈ m := by assumption) (_ : .journal ∈ m := by assumption) :
    ∃ s', execRefurb c rd s = .next s' ∧ s'.Same m z := by
  unfold execRefurb
  refine ⟨_, rfl, ?_⟩
  refine State.serveSecure_same h ?_
  intro x1 s2 h3
  refine State.Same.ite (State.reply_same h3) ?_
  refine State.Same.ite (State.reply_same h3) ?_
  split
  · exact State.reply_same h3
  · extract_lets -underBinder +onlyGivenNames n4 s5
    have h6 : s5.Same m z := State.askHost_same h3
    clear_value s5
    split
    · exact State.reply_same h6
    · exact State.reply_same (State.takeStatement_same h6)

/-! ### Service -/

theorem State.noteSub_same {s : State} {row : Nat} (h : s.Same m z) (_ : .spares ∈ m := by assumption) :
    (State.noteSub s row).Same m z := by
  unfold State.noteSub
  exact State.modSpares_same h

theorem State.spareTileUnit_same {s : State} {t : Nat} (h : s.Same m z) (_ : .measurements ∈ m := by assumption)
    (_ : .journal ∈ m := by assumption) (_ : .spares ∈ m := by assumption) :
    (State.spareTileUnit s t).Same m z := by
  unfold State.spareTileUnit
  extract_lets -underBinder +onlyGivenNames n1 n2
  refine State.Same.ite h ?_
  extract_lets -underBinder +onlyGivenNames s3
  have h4 : s3.Same m z := State.modSpares_same h
  clear_value s3
  refine State.Same.ite (State.modSpares_same h4) ?_
  extract_lets -underBinder +onlyGivenNames s5
  have h6 : s5.Same m z := State.modSpares_same h4
  clear_value s5
  exact State.extendMr4_same (State.appendSpare_same (State.noteSub_same h6))

theorem State.spareSpadRow_same {s : State} {t : Nat} {row : Nat} (h : s.Same m z) (_ : .measurements ∈ m := by assumption)
    (_ : .journal ∈ m := by assumption) (_ : .spares ∈ m := by assumption) :
    (State.spareSpadRow s t row).Same m z := by
  unfold State.spareSpadRow
  extract_lets -underBinder +onlyGivenNames n1
  refine State.Same.ite h ?_
  extract_lets -underBinder +onlyGivenNames s2
  have h3 : s2.Same m z := State.modSpares_same h
  clear_value s2
  refine State.Same.ite (State.modSpares_same h3) ?_
  extract_lets -underBinder +onlyGivenNames s4
  have h5 : s4.Same m z := State.modSpares_same h3
  clear_value s4
  exact State.extendMr4_same (State.appendSpare_same (State.noteSub_same h5))

theorem State.spareColRow_same {s : State} {d : Nat} {bank : Nat} {row : Nat} (h : s.Same m z)
    (_ : .measurements ∈ m := by assumption) (_ : .journal ∈ m := by assumption) (_ : .spares ∈ m := by assumption) :
    (State.spareColRow s d bank row).Same m z := by
  unfold State.spareColRow
  extract_lets -underBinder +onlyGivenNames n1 n2 n3 n4
  refine State.Same.ite h ?_
  extract_lets -underBinder +onlyGivenNames s5
  have h6 : s5.Same m z := State.modSpares_same h
  clear_value s5
  refine State.Same.ite (State.extendMr4_same (State.appendSpare_same (State.modSpares_same h6))) ?_
  extract_lets -underBinder +onlyGivenNames s7
  have h8 : s7.Same m z := State.modSpares_same h6
  clear_value s7
  exact State.extendMr4_same (State.appendSpare_same h8)

theorem State.spareSeamUnit_same {s : State} {n : Nat} (h : s.Same m z) (_ : .seams ∈ m := by assumption)
    (_ : .measurements ∈ m := by assumption) (_ : .journal ∈ m := by assumption) :
    (State.spareSeamUnit s n).Same m z := by
  unfold State.spareSeamUnit
  exact State.Same.ite h (State.trainSeam_same h)

theorem State.spareLinkLane_same {s : State} {n : Nat} {lane : Nat} {ok : Bool} (h : s.Same m z)
    (_ : .links ∈ m := by assumption) (_ : .measurements ∈ m := by assumption) (_ : .journal ∈ m := by assumption)
    (_ : .spares ∈ m := by assumption) :
    (State.spareLinkLane s n lane ok).Same m z := by
  unfold State.spareLinkLane
  extract_lets -underBinder +onlyGivenNames n1
  refine State.Same.ite h ?_
  split
  · exact h
  · extract_lets -underBinder +onlyGivenNames s2
    have h3 : s2.Same m z := State.modSpares_same h
    clear_value s2
    extract_lets -underBinder +onlyGivenNames s4
    have h5 : s4.Same m z := State.extendMr4_same (State.appendSpare_same h3)
    clear_value s4
    exact State.Same.ite h5 (State.endTraining_same (State.modPort_same h5))

theorem execSpareSubstitution_same {u : SpareUnit} {ok : Bool} {s : State} (h : s.Same m z) (_ : .seams ∈ m := by assumption)
    (_ : .links ∈ m := by assumption) (_ : .power ∈ m := by assumption) (_ : .measurements ∈ m := by assumption)
    (_ : .journal ∈ m := by assumption) (_ : .spares ∈ m := by assumption) :
    ∃ s', execSpareSubstitution u ok s = .next s' ∧ s'.Same m z := by
  unfold execSpareSubstitution
  refine ⟨_, rfl, ?_⟩
  refine State.Same.ite h ?_
  split
  · exact State.spareTileUnit_same h
  · exact State.spareSpadRow_same h
  · exact State.spareColRow_same h
  · exact State.spareSeamUnit_same h
  · exact State.spareLinkLane_same h
  · exact State.Same.ite (State.retuneDie_same (State.modDie_same h)) h

theorem State.scrubFrame_same {s : State} {depot : Bool} {dev : Nat} {f : Nat} (h : s.Same m z)
    (_ : .frames ∈ m := by assumption) (_ : .journal ∈ m := by assumption) :
    (State.scrubFrame s depot dev f).Same m z := by
  unfold State.scrubFrame
  extract_lets -underBinder +onlyGivenNames n1
  refine State.Same.ite h ?_
  extract_lets -underBinder +onlyGivenNames s2
  have h3 : s2.Same m z := State.bump_same h
  clear_value s2
  extract_lets -underBinder +onlyGivenNames s4
  have h5 : s4.Same m z := State.setIrq_same (State.setReg_same h3)
  clear_value s4
  exact State.retireFrame_same (State.logError_same h5)

theorem State.repairFrame_same {s : State} {depot : Bool} {dev : Nat} {f : Nat} (h : s.Same m z)
    (_ : .frames ∈ m := by assumption) (_ : .measurements ∈ m := by assumption) (_ : .journal ∈ m := by assumption)
    (_ : .spares ∈ m := by assumption) :
    (State.repairFrame s depot dev f).Same m z := by
  unfold State.repairFrame
  extract_lets -underBinder +onlyGivenNames n1 n2 n3
  refine State.Same.ite h ?_
  extract_lets -underBinder +onlyGivenNames s4
  have h5 : s4.Same m z := State.modSpares_same h
  clear_value s4
  extract_lets -underBinder +onlyGivenNames s6
  have h7 : s6.Same m z := State.modStore_same h5 (fun _ => { Store.Same.refl _ with frames := .inl (by assumption) })
  clear_value s6
  extract_lets -underBinder +onlyGivenNames s8
  have h9 : s8.Same m z := State.extendMr4_same (State.appendSpare_same h7)
  clear_value s8
  exact State.append_same h9

theorem State.selfTest_same {s : State} {f : MaintFindings} (h : s.Same m z) (_ : .spares ∈ m := by assumption) :
    (State.selfTest s f).Same m z := by
  unfold State.selfTest
  exact State.modSpares_same h

theorem State.scrubCorrected_same {s : State} {depot : Bool} {dev : Nat} {f : Nat} {unit : Nat} (h : s.Same m z) :
    (State.scrubCorrected s depot dev f unit).Same m z := by
  unfold State.scrubCorrected
  exact State.Same.ite h (State.memCorrected_same h)

theorem State.scrubDevice_same {s : State} {depot : Bool} {dev : Nat} (h : s.Same m z) :
    (State.scrubDevice s depot dev).Same m z := by
  unfold State.scrubDevice
  exact State.countRead_same h

theorem State.scrub_same {s : State} {f : MaintFindings} {ends : Bool} (h : s.Same m z) (_ : .frames ∈ m := by assumption)
    (_ : .journal ∈ m := by assumption) :
    (State.scrub s f ends).Same m z := by
  unfold State.scrub
  extract_lets -underBinder +onlyGivenNames s1
  have h2 : s1.Same m z := by
    refine State.Same.ite ?_ h
    refine State.forEach_same ?_ ?_
    · refine State.forEach_same h ?_
      intro s3 x5 h4
      exact State.scrubDevice_same h4
    · intro s6 x8 h7
      exact State.scrubDevice_same h7
  clear_value s1
  extract_lets -underBinder +onlyGivenNames s9
  have h10 : s9.Same m z := by
    refine State.forEach_same h2 ?_
    intro s11 x13 h12
    exact State.scrubCorrected_same h12
  clear_value s9
  extract_lets -underBinder +onlyGivenNames s14
  have h15 : s14.Same m z := by
    refine State.forEach_same h10 ?_
    intro s16 x18 h17
    exact State.scrubFrame_same h17
  clear_value s14
  refine State.forEach_same h15 ?_
  intro s19 x21 h20
  exact State.scrubFrame_same h20

theorem State.repairRows_same {s : State} {f : MaintFindings} (h : s.Same m z) (_ : .frames ∈ m := by assumption)
    (_ : .polders ∈ m := by assumption) (_ : .clients ∈ m := by assumption) (_ : .conservators ∈ m := by assumption)
    (_ : .channels ∈ m := by assumption) (_ : .links ∈ m := by assumption) (_ : .status ∈ m := by assumption)
    (_ : .measurements ∈ m := by assumption) (_ : .firmware ∈ m := by assumption) (_ : .journal ∈ m := by assumption)
    (_ : .spares ∈ m := by assumption) :
    (State.repairRows s f).Same m z := by
  unfold State.repairRows
  extract_lets -underBinder +onlyGivenNames s1
  have h2 : s1.Same m z := by
    refine State.forEach_same h ?_
    intro s3 x5 h4
    exact State.repairFrame_same h4
  clear_value s1
  extract_lets -underBinder +onlyGivenNames s6
  have h7 : s6.Same m z := by
    refine State.forEach_same h2 ?_
    intro s8 x10 h9
    exact State.repairFrame_same h9
  clear_value s6
  refine State.forEach_same h7 ?_
  intro s11 x13 h12
  exact State.spareTsvLane_same h12

theorem State.endMaintenance_same {s : State} (h : s.Same m z) (_ : .power ∈ m := by assumption)
    (_ : .firmware ∈ m := by assumption) (_ : .journal ∈ m := by assumption) :
    (State.endMaintenance s).Same m z := by
  unfold State.endMaintenance
  refine State.modBoot_same (State.modJournal_same (State.appendTotals_same h)) ?_
  exact fun _ => { Boot.Same.refl _ with firmware := .inl (by assumption) }

theorem execPartWideMaintenance_same {f : MaintFindings} {s : State} (h : s.Same m z) (_ : .frames ∈ m := by assumption)
    (_ : .polders ∈ m := by assumption) (_ : .clients ∈ m := by assumption) (_ : .conservators ∈ m := by assumption)
    (_ : .channels ∈ m := by assumption) (_ : .links ∈ m := by assumption) (_ : .power ∈ m := by assumption)
    (_ : .status ∈ m := by assumption) (_ : .measurements ∈ m := by assumption) (_ : .firmware ∈ m := by assumption)
    (_ : .journal ∈ m := by assumption) (_ : .spares ∈ m := by assumption) :
    ∃ s', execPartWideMaintenance f s = .next s' ∧ s'.Same m z := by
  unfold execPartWideMaintenance
  refine ⟨_, rfl, ?_⟩
  refine State.Same.ite h ?_
  extract_lets -underBinder +onlyGivenNames s1
  have h2 : s1.Same m z := State.Same.ite (State.selfTest_same h) h
  clear_value s1
  extract_lets -underBinder +onlyGivenNames s3
  have h4 : s3.Same m z := State.Same.ite (State.scrub_same h2) h2
  clear_value s3
  extract_lets -underBinder +onlyGivenNames s5
  have h6 : s5.Same m z := State.Same.ite (State.repairRows_same h4) h4
  clear_value s5
  refine State.Same.ite h6 ?_
  refine State.Same.ite (State.endMaintenance_same h6) ?_
  exact State.modBoot_same h6 (fun _ => { Boot.Same.refl _ with firmware := .inl (by assumption) })

theorem execUsageInterval_same {s : State} (h : s.Same m z) (_ : .power ∈ m := by assumption)
    (_ : .journal ∈ m := by assumption) :
    ∃ s', execUsageInterval s = .next s' ∧ s'.Same m z := by
  unfold execUsageInterval
  refine ⟨_, rfl, ?_⟩
  exact State.Same.ite (State.appendTotals_same h) h

/-! ### Clocks -/

theorem State.tick_same {s : State} (h : s.Same m z) (_ : .time ∈ m := by assumption) :
    (State.tick s).Same m z := by
  exact { h with time := .inl (by assumption) }

/-! ### Tap -/

theorem State.tap_same {s : State} {f : Board → Board} (h : s.Same m z) (_ : .board ∈ m := by assumption) :
    (State.tap s f).Same m z := by
  unfold State.tap
  exact State.Same.ite (State.modBoard_same h) h

theorem execBypass_same {tdi : Bool} {s : State} (h : s.Same m z) (_ : .board ∈ m := by assumption) :
    ∃ s', execBypass tdi s = .next s' ∧ s'.Same m z := by
  unfold execBypass
  refine ⟨_, rfl, ?_⟩
  exact State.tap_same h

theorem execIdcode_same {s : State} (h : s.Same m z) (_ : .board ∈ m := by assumption) :
    ∃ s', execIdcode s = .next s' ∧ s'.Same m z := by
  unfold execIdcode
  refine ⟨_, rfl, ?_⟩
  exact State.tap_same h

theorem execSamplePreload_same {bits : List Bool} {s : State} (h : s.Same m z) (_ : .board ∈ m := by assumption) :
    ∃ s', execSamplePreload bits s = .next s' ∧ s'.Same m z := by
  unfold execSamplePreload
  refine ⟨_, rfl, ?_⟩
  refine State.Same.ite ?_ h
  extract_lets -underBinder +onlyGivenNames n1
  have h2 : n1.2.Same m z := State.draw_same h
  clear_value n1
  extract_lets -underBinder +onlyGivenNames n3
  exact State.modBoard_same h2

theorem execExtest_same {tdi : Bool} {s : State} (h : s.Same m z) (_ : .board ∈ m := by assumption) :
    ∃ s', execExtest tdi s = .next s' ∧ s'.Same m z := by
  unfold execExtest
  refine ⟨_, rfl, ?_⟩
  exact State.Same.ite (State.tap_same h) (State.tap_same h)

end Sys2Proof.Machine
end

