-- ==== Sys2Proof/Laws/FrameAccess.lean ====
section
/-!
SUPPORT. Which parts of the state the definitions of register access, the DMA engines, the gather engine and memory requests leave unchanged.
-/

-- one proof at a time: the package as one text would start more threads than its memory limit allows
set_option Elab.async false

namespace Sys2Proof.Machine

variable {m : List Part} {z : State}



/-! ### Access -/

theorem State.fetchReg_same {s : State} {a : Nat} (h : s.Same m z) (_ : .power ∈ m := by assumption) :
    (State.fetchReg s a).2.Same m z := by
  unfold State.fetchReg
  extract_lets -underBinder +onlyGivenNames s1
  have h2 : s1.Same m z := State.Same.ite (State.meterEnergy_same h) h
  clear_value s1
  extract_lets -underBinder +onlyGivenNames n3
  have h4 : n3.2.Same m z := State.draw_same h2
  clear_value n3
  split
  · exact h4
  · split
    · exact h4
    · exact h2

theorem State.restartWait_same {s : State} {a : Nat} (h : s.Same m z) (_ : .tiles ∈ m := by assumption)
    (_ : .seams ∈ m := by assumption) (_ : .polders ∈ m := by assumption) (_ : .links ∈ m := by assumption) :
    (State.restartWait s a).Same m z := by
  unfold State.restartWait
  extract_lets -underBinder +onlyGivenNames n1
  split
  · extract_lets -underBinder +onlyGivenNames n2
    split
    · exact State.Same.ite (State.modTcc_same h) h
    · exact h
  · extract_lets -underBinder +onlyGivenNames n3
    split
    · exact State.modTile_same h
    · exact h
  · extract_lets -underBinder +onlyGivenNames n4 n5
    exact State.Same.ite (State.modSeam_same h) h
  · exact State.Same.ite (State.modPort_same h) h
  · exact State.Same.ite (State.modSlot_same h) (State.Same.ite (State.modPld_same h) h)
  · exact h

theorem State.clearReg_same {s : State} {a : Nat} (h : s.Same m z) (_ : .tiles ∈ m := by assumption)
    (_ : .seams ∈ m := by assumption) (_ : .polders ∈ m := by assumption) (_ : .links ∈ m := by assumption) :
    (State.clearReg s a).Same m z := by
  unfold State.clearReg
  exact State.restartWait_same (State.setReg_same h)

theorem State.returnReg_same {s : State} {y : Requester} {a : Nat} (h : s.Same m z) (_ : .tiles ∈ m := by assumption)
    (_ : .seams ∈ m := by assumption) (_ : .polders ∈ m := by assumption) (_ : .links ∈ m := by assumption)
    (_ : .power ∈ m := by assumption) : (s.returnReg y a).Same m z := by
  unfold State.returnReg
  extract_lets -underBinder +onlyGivenNames key low high
  have h1 : low.2.Same m z := State.fetchReg_same h
  have h2 : high.2.Same m z := State.fetchReg_same h1
  refine State.Same.ite ?_ (State.Same.ite (State.answerValue_same h) ?_)
  · exact { h2 with }
  · exact State.answerValue_same (State.Same.ite (State.clearReg_same h1) h1)

theorem State.readMsix_same {s : State} {x : MsixMap} {off size : Nat} (h : s.Same m z) : (s.readMsix x off size).Same m z := by
  unfold State.readMsix
  exact State.Same.ite { h with } (State.answerValue_same h)

theorem State.writeMsixAt_same {s : State} {z2 : MsixMap} {off : Nat} {size : Nat} {v : Dword} (h : s.Same m z)
    (_ : .policy ∈ m := by assumption) :
    (State.writeMsixAt s z2 off size v).Same m z := by
  unfold State.writeMsixAt
  refine State.Same.ite h ?_
  extract_lets -underBinder +onlyGivenNames n1 s2
  have h3 : s2.Same m z := State.writeMsix_same h
  clear_value s2
  exact State.Same.ite (State.writeMsix_same h3) h3

theorem State.readVf_same {s : State} {p : Nat} {off : Nat} {size : Nat} (h : s.Same m z) (_ : .vfRegs ∈ m := by assumption)
    (_ : .tiles ∈ m := by assumption) (_ : .seams ∈ m := by assumption) (_ : .polders ∈ m := by assumption)
    (_ : .links ∈ m := by assumption) (_ : .power ∈ m := by assumption) :
    (State.readVf s p off size).Same m z := by
  unfold State.readVf
  extract_lets -underBinder +onlyGivenNames n1
  refine State.Same.ite (State.readUr_same h) ?_
  refine State.Same.ite (State.readMsix_same h) ?_
  refine State.Same.ite (State.readUr_same h) ?_
  refine State.Same.ite (State.answerValue_same h) ?_
  refine State.Same.ite (State.setVfReg_same (State.answerValue_same h)) ?_
  refine State.Same.ite (State.answerValue_same h) ?_
  refine State.Same.ite (State.Same.ite (State.returnReg_same h) (State.readUr_same h)) ?_
  exact State.Same.ite (State.Same.ite (State.returnReg_same h) (State.readUr_same h)) (State.answerValue_same h)

theorem State.readBar2_same {s : State} {off : Nat} {size : Nat} (h : s.Same m z) :
    (State.readBar2 s off size).Same m z := by
  unfold State.readBar2
  refine State.Same.ite (State.readUr_same h) ?_
  refine State.Same.ite (State.readMsix_same h) ?_
  refine State.Same.ite (State.answerValue_same h) ?_
  exact State.Same.ite (State.readUr_same h) (State.answerValue_same h)

theorem State.writeBar2_same {s : State} {off : Nat} {size : Nat} {v : Dword} (h : s.Same m z)
    (_ : .policy ∈ m := by assumption) (_ : .firmware ∈ m := by assumption) :
    (State.writeBar2 s off size v).Same m z := by
  unfold State.writeBar2
  extract_lets -underBinder +onlyGivenNames n1
  refine State.Same.ite (State.writeUr_same h) ?_
  refine State.Same.ite (State.answerWritten_same (State.writeMsixAt_same h)) ?_
  refine State.Same.ite ?_ ?_
  · refine State.Same.ite ?_ (State.writeUr_same h)
    refine State.answerWritten_same ?_
    exact State.modBoot_same h (fun _ => { Boot.Same.refl _ with firmware := .inl (by assumption) })
  · refine State.Same.ite (State.writeUr_same h) ?_
    refine State.Same.ite ?_ ?_
    · extract_lets -underBinder +onlyGivenNames s2
      have h3 : s2.Same m z := State.Same.ite (State.stgBegin_same h) h
      clear_value s2
      exact State.answerWritten_same (State.Same.ite (State.stgCommit_same h3) h3)
    · refine State.Same.ite ?_ (State.answerWritten_same h)
      extract_lets -underBinder +onlyGivenNames n4
      exact State.answerWritten_same (State.stgChunk_same h)

theorem State.readConfig_same {s : State} {fn : Nat} {off : Nat} (h : s.Same m z) :
    (State.readConfig s fn off).Same m z := by
  unfold State.readConfig
  refine State.Same.ite (State.readUr_same h) ?_
  exact State.Same.ite (State.answerValue_same h) (State.answerValue_same (State.draw_same h))

theorem State.writeConfig_same {s : State} {fn : Nat} {off : Nat} {v : Word} (h : s.Same m z) (_ : .policy ∈ m := by assumption) :
    (State.writeConfig s fn off v).Same m z := by
  unfold State.writeConfig
  refine State.Same.ite (State.writeUr_same h) ?_
  refine State.Same.ite ?_ (State.answerWritten_same h)
  exact State.answerWritten_same (State.modHif_same h (fun _ => {  policy := .inl (by assumption) }))

theorem State.toPage_same {s : State} {r : Requester} {pg : Nat} (h : s.Same m z) (_ : .seams ∈ m := by assumption) :
    (State.toPage s r pg).Same m z := by
  unfold State.toPage
  exact State.controlCrosses_same h

theorem State.fromPage_same {s : State} {r : Requester} {pg : Nat} (h : s.Same m z) (_ : .seams ∈ m := by assumption) :
    (State.fromPage s r pg).Same m z := by
  unfold State.fromPage
  exact State.controlCrosses_same h

theorem State.access_same {s : State} {r : Requester} {pg : Nat} (h : s.Same m z) (_ : .seams ∈ m := by assumption) :
    (State.access s r pg).Same m z := by
  unfold State.access
  exact State.fromPage_same (State.toPage_same h)

theorem State.readAccess_same {s : State} {r : Requester} {a : Nat} {size : Nat} (h : s.Same m z)
    (_ : .vfRegs ∈ m := by assumption) (_ : .tiles ∈ m := by assumption) (_ : .seams ∈ m := by assumption)
    (_ : .polders ∈ m := by assumption) (_ : .links ∈ m := by assumption) (_ : .power ∈ m := by assumption) :
    (State.readAccess s r a size).Same m z := by
  unfold State.readAccess
  split
  · exact State.readVf_same h
  · exact State.readBar2_same h
  · exact State.readConfig_same h
  · extract_lets -underBinder +onlyGivenNames n1
    refine State.Same.ite (State.readUr_same h) ?_
    refine State.Same.ite (State.readUr_same (State.logError_same (State.access_same h))) ?_
    exact State.fromPage_same (State.returnReg_same (State.toPage_same h))

theorem execReadClear_same {r : Requester} {addr : RegRead} {s : State} (h : s.Same m z) (_ : .vfRegs ∈ m := by assumption)
    (_ : .tiles ∈ m := by assumption) (_ : .seams ∈ m := by assumption) (_ : .polders ∈ m := by assumption)
    (_ : .links ∈ m := by assumption) (_ : .power ∈ m := by assumption) :
    ∃ s', execReadClear r addr s = .next s' ∧ s'.Same m z := by
  unfold execReadClear
  refine ⟨_, rfl, ?_⟩
  exact State.readAccess_same h

theorem execLowWordRead_same {r : Requester} {addr : RegRead} {s : State} (h : s.Same m z) (_ : .vfRegs ∈ m := by assumption)
    (_ : .tiles ∈ m := by assumption) (_ : .seams ∈ m := by assumption) (_ : .polders ∈ m := by assumption)
    (_ : .links ∈ m := by assumption) (_ : .power ∈ m := by assumption) :
    ∃ s', execLowWordRead r addr s = .next s' ∧ s'.Same m z := by
  unfold execLowWordRead
  refine ⟨_, rfl, ?_⟩
  exact State.readAccess_same h

theorem State.freezeTile_same {s : State} {t : Nat} (h : s.Same m z) (_ : .tiles ∈ m := by assumption) :
    (State.freezeTile s t).Same m z := by
  unfold State.freezeTile
  exact State.modTcc_same h

theorem State.suspendMonitors_same {s : State} {p : Nat} (h : s.Same m z) (_ : .tiles ∈ m := by assumption) :
    (State.suspendMonitors s p).Same m z := by
  unfold State.suspendMonitors
  refine State.forEach_same h ?_
  intro s1 x3 h2
  exact State.modTile_same h2

theorem State.releaseTile_same {s : State} {t : Nat} (h : s.Same m z) (_ : .tiles ∈ m := by assumption) :
    (State.releaseTile s t).Same m z := by
  unfold State.releaseTile
  extract_lets -underBinder +onlyGivenNames n1
  refine State.Same.ite h ?_
  extract_lets -underBinder +onlyGivenNames s2
  have h3 : s2.Same m z := State.modTcc_same h
  clear_value s2
  exact State.Same.ite (State.enterDone_same h3) h3

theorem State.freezeTiles_same {s : State} {p : Nat} {ts : List Nat} {on : Bool} (h : s.Same m z)
    (_ : .tiles ∈ m := by assumption) :
    (State.freezeTiles s p ts on).Same m z := by
  unfold State.freezeTiles
  refine State.Same.ite ?_ ?_
  · refine State.setVoid_same ?_
    refine State.suspendMonitors_same ?_
    refine State.forEach_same h ?_
    intro s1 x3 h2
    exact State.freezeTile_same h2
  · refine State.forEach_same h ?_
    intro s4 x6 h5
    exact State.releaseTile_same h5

theorem State.writeFreeze_same {s : State} {pg : Nat} {on : Bool} (h : s.Same m z) (_ : .tiles ∈ m := by assumption)
    (_ : .polders ∈ m := by assumption) :
    (State.writeFreeze s pg on).Same m z := by
  unfold State.writeFreeze
  refine State.Same.ite (State.Same.ite (State.ignoreWrite_same h) h) ?_
  extract_lets -underBinder +onlyGivenNames n1
  refine State.Same.ite (State.ignoreWrite_same h) ?_
  refine State.Same.ite h ?_
  refine State.Same.ite (State.freezeTiles_same (State.setReg_same h)) ?_
  exact State.freezeTiles_same (State.modPld_same h)

theorem State.resetErrors_same {s : State} {pg : Nat} (h : s.Same m z) :
    (State.resetErrors s pg).Same m z := by
  unfold State.resetErrors
  refine State.forEach_same h ?_
  intro s1 x3 h2
  exact State.setReg_same h2

theorem State.writeCtl_same {s : State} {pg : Nat} {v : Word} (h : s.Same m z) (_ : .tiles ∈ m := by assumption)
    (_ : .polders ∈ m := by assumption) :
    (State.writeCtl s pg v).Same m z := by
  unfold State.writeCtl
  extract_lets -underBinder +onlyGivenNames s1
  have h2 : s1.Same m z := State.Same.ite (State.resetErrors_same h) h
  clear_value s1
  exact State.writeFreeze_same h2

theorem State.clearIrq_same {s : State} {pg : Nat} {v : Word} (h : s.Same m z) :
    (State.clearIrq s pg v).Same m z := by
  unfold State.clearIrq
  extract_lets -underBinder +onlyGivenNames s1
  have h2 : s1.Same m z := State.setReg_same h
  clear_value s1
  exact State.Same.ite (State.sendMsix_same h2) h2

theorem State.forceIrq_same {s : State} {pg : Nat} {v : Word} (h : s.Same m z) :
    (State.forceIrq s pg v).Same m z := by
  unfold State.forceIrq
  exact State.setIrq_same h

theorem State.writeIrqEn_same {s : State} {pg : Nat} {v : Word} (h : s.Same m z) :
    (State.writeIrqEn s pg v).Same m z := by
  unfold State.writeIrqEn
  exact State.irqEdge_same (State.setReg_same h) h

theorem execFreeze_same {page : BitVec 28} {on : Bool} {s : State} (h : s.Same m z) (_ : .tiles ∈ m := by assumption)
    (_ : .seams ∈ m := by assumption) (_ : .polders ∈ m := by assumption) :
    ∃ s', execFreeze page on s = .next s' ∧ s'.Same m z := by
  unfold execFreeze
  refine ⟨_, rfl, ?_⟩
  refine State.Same.ite (State.answerWritten_same (State.writeFreeze_same (State.accessCrosses_same h))) ?_
  exact State.answerError_same h

theorem execBlkCtlReset_same {page : BitVec 28} {s : State} (h : s.Same m z) (_ : .seams ∈ m := by assumption) :
    ∃ s', execBlkCtlReset page s = .next s' ∧ s'.Same m z := by
  unfold execBlkCtlReset
  refine ⟨_, rfl, ?_⟩
  refine State.Same.ite (State.answerWritten_same (State.resetErrors_same (State.accessCrosses_same h))) ?_
  exact State.answerError_same h

theorem execBlkIrqStsClear_same {page : BitVec 28} {bits : Word} {s : State} (h : s.Same m z) (_ : .seams ∈ m := by assumption) :
    ∃ s', execBlkIrqStsClear page bits s = .next s' ∧ s'.Same m z := by
  unfold execBlkIrqStsClear
  refine ⟨_, rfl, ?_⟩
  refine State.Same.ite (State.answerWritten_same (State.clearIrq_same (State.accessCrosses_same h))) ?_
  exact State.answerError_same h

theorem execBlkIrqForce_same {page : BitVec 28} {bits : Word} {s : State} (h : s.Same m z) (_ : .seams ∈ m := by assumption) :
    ∃ s', execBlkIrqForce page bits s = .next s' ∧ s'.Same m z := by
  unfold execBlkIrqForce
  refine ⟨_, rfl, ?_⟩
  refine State.Same.ite (State.answerWritten_same (State.forceIrq_same (State.accessCrosses_same h))) ?_
  exact State.answerError_same h

theorem execPldWdLimit_same {p : PolderId} {value : Word} {s : State} (h : s.Same m z) :
    ∃ s', execPldWdLimit p value s = .next s' ∧ s'.Same m z := by
  unfold execPldWdLimit
  refine ⟨_, rfl, ?_⟩
  exact State.Same.ite (State.answerWritten_same (State.setReg_same h)) (State.answerError_same h)

theorem State.writeColumn_same {s : State} {t : Nat} {off : Nat} {v : Word} (h : s.Same m z) (_ : .tiles ∈ m := by assumption)
    (_ : .spad ∈ m := by assumption) (_ : .dstore ∈ m := by assumption) (_ : .polders ∈ m := by assumption)
    (_ : .spares ∈ m := by assumption) :
    (State.writeColumn s t off v).Same m z := by
  unfold State.writeColumn
  extract_lets -underBinder +onlyGivenNames n1
  refine State.Same.ite ?_ ?_
  · extract_lets -underBinder +onlyGivenNames s2
    have h3 : s2.Same m z := State.Same.ite (State.writeStart_same h) h
    clear_value s2
    extract_lets -underBinder +onlyGivenNames s4
    have h5 : s4.Same m z := State.Same.ite (State.writeStep_same h3) h3
    clear_value s4
    exact State.noteCtl_same h5
  · refine State.Same.ite (State.Same.ite (State.ignoreWrite_same h) (State.setReg_same h)) ?_
    refine State.Same.ite (State.Same.ite (State.ignoreWrite_same h) (State.setReg_same h)) ?_
    exact State.Same.ite (State.setReg_same h) h

theorem State.writeSeepage_same {s : State} {a : Nat} {v : Word} (h : s.Same m z) :
    (State.writeSeepage s a v).Same m z := by
  unfold State.writeSeepage
  refine State.Same.ite ?_ (State.Same.ite (State.setReg_same h) h)
  extract_lets -underBinder +onlyGivenNames n1
  exact State.Same.ite (State.setReg_same h) (State.ignoreWrite_same h)

theorem State.writeIdentity_same {s : State} {a : Nat} {v : Word} (h : s.Same m z) :
    (State.writeIdentity s a v).Same m z := by
  unfold State.writeIdentity
  extract_lets -underBinder +onlyGivenNames n1
  refine State.Same.ite (State.ignoreWrite_same h) ?_
  refine State.Same.ite (State.setReg_same h) ?_
  exact State.Same.ite (State.setReg_same h) (State.Same.ite (State.setReg_same h) (State.setReg_same h))

theorem State.writePort_same {s : State} {a : Nat} {v : Word} (h : s.Same m z) (_ : .links ∈ m := by assumption) :
    (State.writePort s a v).Same m z := by
  unfold State.writePort
  extract_lets -underBinder +onlyGivenNames n1 n2
  refine State.Same.ite (State.writePrtCtl_same h) ?_
  refine State.Same.ite (State.setReg_same h) ?_
  exact State.Same.ite (State.setReg_same h) (State.Same.ite (State.writeIdentity_same h) h)

theorem State.writePcie_same {s : State} {a : Nat} {v : Word} (h : s.Same m z) :
    (State.writePcie s a v).Same m z := by
  unfold State.writePcie
  refine State.Same.ite (State.Same.ite (State.setReg_same h) (State.ignoreWrite_same h)) ?_
  exact State.Same.ite (State.writeFrHead_same h) h

theorem State.writePower_same {s : State} {a : Nat} {v : Word} (h : s.Same m z) :
    (State.writePower s a v).Same m z := by
  unfold State.writePower
  exact State.Same.ite h (State.Same.ite (State.writePwrCap_same h) (State.Same.ite (State.setReg_same h) h))

theorem State.writePair_same {s : State} {a : Nat} {low : Word} {high : Word} (h : s.Same m z) :
    (State.writePair s a low high).Same m z := by
  unfold State.writePair
  extract_lets -underBinder +onlyGivenNames n1
  have h2 : ∀ y7 y8 y9, State.Same y7 m z → (n1 y7 y8 y9).Same m z := by
    intro s3 x5 x6 h4
    exact State.setReg_same (State.setReg_same h4)
  clear_value n1
  split
  · exact State.Same.ite (State.Same.ite (State.ignoreWrite_same h) (h2 _ _ _ h)) (h2 _ _ _ h)
  · exact State.Same.ite (State.ignoreWrite_same h) (h2 _ _ _ h)
  · exact h2 _ _ _ h

theorem State.writeHigh_same {s : State} {r : Requester} {a : Nat} {v : Word} (h : s.Same m z) :
    (State.writeHigh s r a v).Same m z := by
  have h1 : ∀ w, (s.writePair (a - 4) w v).Same m z := fun w => State.writePair_same h
  exact { h1 _ with }

theorem State.applyWrite_same {s : State} {r : Requester} {a : Nat} {v : Word} (h : s.Same m z)
    (_ : .tiles ∈ m := by assumption) (_ : .spad ∈ m := by assumption) (_ : .dstore ∈ m := by assumption)
    (_ : .polders ∈ m := by assumption) (_ : .links ∈ m := by assumption) (_ : .spares ∈ m := by assumption) :
    (State.applyWrite s r a v).Same m z := by
  unfold State.applyWrite
  extract_lets pg off
  clear_value off pg
  refine State.Same.ite ?_ (State.Same.ite ?_ (State.Same.ite (State.writeHigh_same h) ?_))
  · split
    · exact State.writeCtl_same h
    · exact State.clearIrq_same h
    · exact State.writeIrqEn_same h
    · exact State.forceIrq_same h
    · exact h
  · exact { h with }
  · split
    · exact State.Same.ite (State.writeColumn_same h) h
    · exact State.writeSeepage_same h
    · exact State.writeSeepage_same h
    · exact State.writeSeepage_same h
    · exact State.writePower_same h
    · exact State.writePort_same h
    · exact State.writePcie_same h
    · exact State.Same.ite (State.setReg_same h) h
    · exact h

theorem State.writeChannel_same {s : State} {r : Requester} {c : Nat} {off : Nat} {v : Word} (h : s.Same m z)
    (_ : .channels ∈ m := by assumption) :
    (State.writeChannel s r c off v).Same m z := by
  unfold State.writeChannel
  refine State.Same.ite ?_ ?_
  · refine State.channelWrite_same h ?_
    intro s1 h2
    exact State.fillBuffer_same h2
  · refine State.Same.ite ?_ ?_
    · refine State.channelWrite_same h ?_
      intro s3 h4
      exact State.ringChannel_same h4
    · refine State.Same.ite ?_ ?_
      · refine State.channelWrite_same h ?_
        intro s5 h6
        exact State.releaseChannel_same h6
      · refine State.Same.ite (State.writeUr_same h) ?_
        refine State.Same.ite (State.answerError_same h) ?_
        exact State.Same.ite (State.answerWritten_same (State.setReg_same h)) (State.answerWritten_same h)

theorem State.writeVf_same {s : State} {p : Nat} {off : Nat} {size : Nat} {v : Dword} (h : s.Same m z)
    (_ : .vfRegs ∈ m := by assumption) (_ : .tiles ∈ m := by assumption) (_ : .host ∈ m := by assumption)
    (_ : .polders ∈ m := by assumption) (_ : .conservators ∈ m := by assumption) (_ : .channels ∈ m := by assumption)
    (_ : .policy ∈ m := by assumption) (_ : .links ∈ m := by assumption) :
    (State.writeVf s p off size v).Same m z := by
  unfold State.writeVf
  extract_lets -underBinder +onlyGivenNames n1 n2
  refine State.Same.ite (State.writeUr_same h) ?_
  refine State.Same.ite ?_ ?_
  · refine State.vfWrite_same h ?_
    intro s3 h4
    exact State.writeMsixAt_same h4
  · refine State.Same.ite (State.writeUr_same h) ?_
    refine State.Same.ite (State.writeChannel_same h) ?_
    refine State.Same.ite (State.writeChannel_same h) ?_
    refine State.vfWrite_same h ?_
    intro s5 h6
    refine State.Same.ite (State.writeSqTail_same h6) ?_
    exact State.Same.ite (State.writeCqHead_same h6) (State.Same.ite (State.writeQueueConfig_same h6) h6)

theorem State.writeAccess_same {s : State} {r : Requester} {a : Nat} {size : Nat} {v : Dword} (h : s.Same m z)
    (_ : .vfRegs ∈ m := by assumption) (_ : .tiles ∈ m := by assumption) (_ : .spad ∈ m := by assumption)
    (_ : .dstore ∈ m := by assumption) (_ : .host ∈ m := by assumption) (_ : .seams ∈ m := by assumption)
    (_ : .polders ∈ m := by assumption) (_ : .conservators ∈ m := by assumption) (_ : .channels ∈ m := by assumption)
    (_ : .policy ∈ m := by assumption) (_ : .links ∈ m := by assumption) (_ : .firmware ∈ m := by assumption)
    (_ : .spares ∈ m := by assumption) :
    (State.writeAccess s r a size v).Same m z := by
  unfold State.writeAccess
  extract_lets -underBinder +onlyGivenNames n1
  split
  · exact State.writeVf_same h
  · exact State.writeBar2_same h
  · exact State.writeConfig_same h
  · extract_lets -underBinder +onlyGivenNames n2
    refine State.Same.ite (State.writeUr_same h) ?_
    refine State.Same.ite (State.writeUr_same (State.logError_same (State.access_same h))) ?_
    split
    · exact State.writeChannel_same (State.access_same h)
    · exact State.answerWritten_same (State.applyWrite_same (State.access_same h))

theorem execRegisterWrite_same {r : Requester} {addr : BitVec 28} {size : BitVec 4} {value : Dword} {s : State} (h : s.Same m z)
    (_ : .vfRegs ∈ m := by assumption) (_ : .tiles ∈ m := by assumption) (_ : .spad ∈ m := by assumption)
    (_ : .dstore ∈ m := by assumption) (_ : .host ∈ m := by assumption) (_ : .seams ∈ m := by assumption)
    (_ : .polders ∈ m := by assumption) (_ : .conservators ∈ m := by assumption) (_ : .channels ∈ m := by assumption)
    (_ : .policy ∈ m := by assumption) (_ : .links ∈ m := by assumption) (_ : .firmware ∈ m := by assumption)
    (_ : .spares ∈ m := by assumption) :
    ∃ s', execRegisterWrite r addr size value s = .next s' ∧ s'.Same m z := by
  unfold execRegisterWrite
  refine ⟨_, rfl, ?_⟩
  exact State.writeAccess_same h

/-! ### Dma -/

theorem State.ringWrite_same {s : State} {t : Nat} {c : Command} {o : Nat} {rows : List (List Byte)} (h : s.Same m z)
    (_ : .spad ∈ m := by assumption) :
    (State.ringWrite s t c o rows).Same m z := by
  unfold State.ringWrite
  refine State.forEach_same h ?_
  intro s1 x3 h2
  exact State.setSpadRow_same h2

theorem State.ringLoose_same {s : State} {t : Nat} {c : Command} {o : Nat} {known : List (Nat × Nat)} {rows : List (List Byte)} (h : s.Same m z)
    (_ : .spad ∈ m := by assumption) :
    (State.ringLoose s t c o known rows).Same m z := by
  unfold State.ringLoose
  refine State.forEach_same h ?_
  intro s1 x3 h2
  exact State.setLooseRow_same h2

theorem State.writeTile_same {s : State} {t : Nat} {c : Command} {i : Nat} {bs : List Byte} (h : s.Same m z)
    (_ : .spad ∈ m := by assumption) :
    (State.writeTile s t c i bs).Same m z := by
  unfold State.writeTile
  extract_lets +onlyGivenNames hd w body vw s1 o
  have h1 : s1.Same m z := State.Same.ite { h with } h
  clear_value s1
  exact State.Same.ite (State.ringLoose_same (State.ringWrite_same h1))
    (State.forEach_same h1 (fun _ _ hx => State.ringLoose_same hx))

theorem State.writeItem_same {s : State} {t : Nat} {q : Nat} {a : Active} {i : Nat} {bs : List Byte} (h : s.Same m z)
    (_ : .tiles ∈ m := by assumption) (_ : .spad ∈ m := by assumption) :
    (State.writeItem s t q a i bs).Same m z := by
  unfold State.writeItem
  extract_lets -underBinder +onlyGivenNames n1
  split
  · exact State.ringWrite_same h
  · exact State.ringWrite_same h
  · exact State.ringLoose_same h
  · exact State.writeTile_same h
  · exact State.writeTile_same h
  · extract_lets -underBinder +onlyGivenNames n2 n3
    exact State.modTile_same h

theorem State.skewRows_same {s : State} {t : Nat} {q : Nat} {a : Active} (h : s.Same m z) (_ : .tiles ∈ m := by assumption)
    (_ : .spad ∈ m := by assumption) :
    (State.skewRows s t q a).Same m z := by
  unfold State.skewRows
  extract_lets -underBinder +onlyGivenNames n1 n2 n3
  refine State.modActive_same ?_
  refine State.forEach_same h ?_
  intro s4 x6 h5
  exact State.setSpadRow_same h5

theorem State.skewFinish_same {s : State} {t : Nat} {q : Nat} {a : Active} (h : s.Same m z) (_ : .tiles ∈ m := by assumption) :
    (State.skewFinish s t q a).Same m z := by
  unfold State.skewFinish
  extract_lets -underBinder +onlyGivenNames n1
  refine State.Same.ite h ?_
  extract_lets -underBinder +onlyGivenNames n2 n3 n4 n5 s6
  have h7 : s6.Same m z := State.modTile_same h
  clear_value s6
  exact State.finish_same h7

theorem State.skewProgress_same {s : State} {t : Nat} {q : Nat} {stream : Nat} (h : s.Same m z)
    (_ : .tiles ∈ m := by assumption) (_ : .spad ∈ m := by assumption) :
    (State.skewProgress s t q stream).Same m z := by
  unfold State.skewProgress
  refine State.forEach_same h ?_
  intro s1 x3 h2
  extract_lets -underBinder +onlyGivenNames s4
  have h5 : s4.Same m z := State.skewRows_same h2
  clear_value s4
  split
  · exact State.skewFinish_same h5
  · exact h5

theorem State.beginDma_same {s : State} {t : Nat} {q : Nat} {a : Active} (h : s.Same m z) (_ : .tiles ∈ m := by assumption)
    (_ : .spad ∈ m := by assumption) :
    (State.beginDma s t q a).Same m z := by
  unfold State.beginDma
  extract_lets -underBinder +onlyGivenNames n1 n2 n3 n4 s5
  have h6 : s5.Same m z := State.modTile_same h
  clear_value s5
  extract_lets -underBinder +onlyGivenNames s7
  have h8 : s7.Same m z := State.modActive_same h6
  clear_value s7
  exact State.Same.ite (State.skewProgress_same (State.bumpHeld_same h8)) h8

theorem State.startDma_same {s : State} {t : Nat} {q : Nat} {store : Bool} (h : s.Same m z) (_ : .tiles ∈ m := by assumption)
    (_ : .spad ∈ m := by assumption) :
    (State.startDma s t q store).Same m z := by
  unfold State.startDma
  split
  · exact h
  · split
    · exact State.raiseEngine_same h
    · exact State.beginDma_same h

theorem execDmaLoad_same {t : TileId} {e : Bool} {s : State} (h : s.Same m z) (_ : .tiles ∈ m := by assumption)
    (_ : .spad ∈ m := by assumption) :
    ∃ s', execDmaLoad t e s = .next s' ∧ s'.Same m z := by
  unfold execDmaLoad
  refine ⟨_, rfl, ?_⟩
  exact State.startDma_same h

theorem execDmaStore_same {t : TileId} {e : Bool} {s : State} (h : s.Same m z) (_ : .tiles ∈ m := by assumption)
    (_ : .spad ∈ m := by assumption) :
    ∃ s', execDmaStore t e s = .next s' ∧ s'.Same m z := by
  unfold execDmaStore
  refine ⟨_, rfl, ?_⟩
  exact State.startDma_same h

theorem State.loadArrived_same {s : State} {t : Nat} {q : Nat} {r : Req} (h : s.Same m z) (_ : .tiles ∈ m := by assumption)
    (_ : .spad ∈ m := by assumption) :
    (State.loadArrived s t q r).Same m z := by
  unfold State.loadArrived
  split
  · exact h
  · extract_lets -underBinder +onlyGivenNames n1 n2 s3
    have h4 : s3.Same m z := State.bump64_same h
    clear_value s3
    extract_lets -underBinder +onlyGivenNames n5 n6
    refine State.Same.ite (State.raiseEngine_same (State.setReg64_same h4)) ?_
    extract_lets -underBinder +onlyGivenNames n7 n8
    refine State.Same.ite ?_ (State.modActive_same h4)
    extract_lets -underBinder +onlyGivenNames n9 s10
    have h11 : s10.Same m z := State.modActive_same h4
    clear_value s10
    extract_lets -underBinder +onlyGivenNames s12
    have h13 : s12.Same m z := State.bumpHeld_same (State.writeItem_same h11)
    clear_value s12
    exact State.Same.ite (State.skewProgress_same h13) (State.Same.ite (State.finish_same h13) h13)

theorem State.storeAcked_same {s : State} {t : Nat} {q : Nat} {r : Req} (h : s.Same m z) (_ : .tiles ∈ m := by assumption) :
    (State.storeAcked s t q r).Same m z := by
  unfold State.storeAcked
  split
  · exact h
  · extract_lets -underBinder +onlyGivenNames s1
    have h2 : s1.Same m z := State.bump64_same h
    clear_value s1
    extract_lets -underBinder +onlyGivenNames n3
    exact State.modActive_same h2

/-! ### Gather -/

theorem State.modStream_same {s : State} {t : Nat} {i : Nat} {f : GStream → GStream} (h : s.Same m z)
    (_ : .tiles ∈ m := by assumption) :
    (State.modStream s t i f).Same m z := by
  unfold State.modStream
  exact State.modTile_same h

theorem State.clearRunAhead_same {s : State} {t : Nat} {i : Nat} (h : s.Same m z) (_ : .tiles ∈ m := by assumption) :
    (State.clearRunAhead s t i).Same m z := by
  unfold State.clearRunAhead
  extract_lets -underBinder +onlyGivenNames n1
  exact State.modStream_same (State.bump_same h)

theorem execGstream_same {t : TileId} {s : State} (h : s.Same m z) (_ : .tiles ∈ m := by assumption) :
    ∃ s', execGstream t s = .next s' ∧ s'.Same m z := by
  unfold execGstream
  refine ⟨_, rfl, ?_⟩
  split
  · exact h
  · split
    · exact State.raiseEngine_same h
    · extract_lets -underBinder +onlyGivenNames s1
      have h2 : s1.Same m z := State.clearRunAhead_same h
      clear_value s1
      exact State.finish_same (State.modStream_same h2)

theorem State.runStart_same {s : State} {g : GStream} {r : GrunCmd} (h : s.Same m z) :
    (State.runStart s g r).2.Same m z := by
  unfold State.runStart
  split
  · exact h
  · split
    · exact h
    · exact State.draw_same h

theorem State.beginGrun_same {s : State} {t : Nat} {seq : Nat} {c : Command} (h : s.Same m z) (_ : .tiles ∈ m := by assumption) :
    (State.beginGrun s t seq c).Same m z := by
  unfold State.beginGrun
  extract_lets -underBinder +onlyGivenNames n1 s2
  have h3 : s2.Same m z := State.Same.ite h (State.modStream_same (State.clearRunAhead_same h))
  clear_value s2
  extract_lets -underBinder +onlyGivenNames n4 n5 n6
  have h7 : n6.2.Same m z := by
    unfold n6
    split
    · exact h3
    · exact State.runStart_same h3
  clear_value n6
  extract_lets -underBinder +onlyGivenNames n8 n9 n10
  exact State.modActive_same (State.modStream_same h7)

theorem execGrun_same {t : TileId} {ecc : RowEcc} {s : State} (h : s.Same m z) (_ : .tiles ∈ m := by assumption)
    (_ : .spares ∈ m := by assumption) :
    ∃ s', execGrun t ecc s = .next s' ∧ s'.Same m z := by
  unfold execGrun
  refine ⟨_, rfl, ?_⟩
  split
  · exact h
  · split
    · exact State.raiseEngine_same h
    · refine State.reading_same h ?_
      intro s1 h2
      exact State.beginGrun_same h2

theorem State.writeElem_same {s : State} {t : Nat} {i : Nat} {p : Nat} {bs : List Byte} (h : s.Same m z)
    (_ : .tiles ∈ m := by assumption) (_ : .spad ∈ m := by assumption) :
    (State.writeElem s t i p bs).Same m z := by
  unfold State.writeElem
  extract_lets -underBinder +onlyGivenNames n1
  split
  · extract_lets -underBinder +onlyGivenNames s2
    have h3 : s2.Same m z := State.setSpadRow_same h
    clear_value s2
    extract_lets -underBinder +onlyGivenNames s4
    have h5 : s4.Same m z := State.bump64_same h3
    clear_value s4
    exact State.Same.ite (State.finish_same (State.modStream_same h5)) (State.modStream_same h5)
  · exact h

theorem State.tryElem_same {s : State} {t : Nat} {i : Nat} {p : Nat} (h : s.Same m z) (_ : .tiles ∈ m := by assumption)
    (_ : .spad ∈ m := by assumption) :
    (State.tryElem s t i p).Same m z := by
  unfold State.tryElem
  extract_lets -underBinder +onlyGivenNames n1
  split
  · extract_lets -underBinder +onlyGivenNames n2
    exact State.Same.ite (State.writeElem_same (State.modStream_same h)) h
  · exact h

theorem State.gatherArrived_same {s : State} {t : Nat} {r : Req} (h : s.Same m z) (_ : .tiles ∈ m := by assumption)
    (_ : .spad ∈ m := by assumption) :
    (State.gatherArrived s t r).Same m z := by
  unfold State.gatherArrived
  exact State.Same.ite (State.modStream_same h) (State.tryElem_same (State.modStream_same h))

/-! ### Requests -/

theorem State.markFlight_same {s : State} {t : Nat} (h : s.Same m z) :
    (State.markFlight s t).Same m z := by
  unfold State.markFlight
  extract_lets -underBinder +onlyGivenNames n1 n2
  exact State.Same.ite (State.setReg_same h) h

theorem State.touchTlb_same {s : State} {t : Nat} {q : Nat} {stream : Nat} {va : Nat} (h : s.Same m z)
    (_ : .tiles ∈ m := by assumption) :
    (State.touchTlb s t q stream va).Same m z := by
  unfold State.touchTlb
  split
  · exact h
  · split
    · exact State.fillTlb_same h
    · exact h

theorem State.addReq_same {s : State} {t : Nat} {q : Nat} {stream : Nat} {n : Need} {runAhead : Bool} (h : s.Same m z) :
    (State.addReq s t q stream n runAhead).Same m z := by
  unfold State.addReq
  extract_lets -underBinder +onlyGivenNames n1
  exact State.markFlight_same (State.modStore_same h (fun _ => { Store.Same.refl _ with }))

theorem State.issueNeed_same {s : State} {t : Nat} {q : Nat} {stream : Nat} {n : Need} (h : s.Same m z)
    (_ : .tiles ∈ m := by assumption) :
    (State.issueNeed s t q stream n).Same m z := by
  unfold State.issueNeed
  extract_lets -underBinder +onlyGivenNames n1 n2 s3
  have h4 : s3.Same m z := State.addReq_same h
  clear_value s3
  refine State.Same.ite (State.requestFault_same (State.loseReq_same h4)) ?_
  refine State.Same.ite (State.hostError_same (State.setReg64_same (State.loseReq_same h4))) ?_
  split
  · exact State.requestFault_same (State.loseReq_same h4)
  · exact State.route_same (State.touchTlb_same h4)
  · exact h4

theorem State.issueDma_same {s : State} {t : Nat} {q : Nat} {ecc : RowEcc} (h : s.Same m z) (_ : .tiles ∈ m := by assumption)
    (_ : .spares ∈ m := by assumption) :
    (State.issueDma s t q ecc).Same m z := by
  unfold State.issueDma
  split
  · exact h
  · extract_lets -underBinder +onlyGivenNames n1 n2
    split
    · exact h
    · refine State.Same.ite (State.waitSlot_same h) ?_
      extract_lets -underBinder +onlyGivenNames n3
      have h4 : ∀ y7, State.Same y7 m z → (n3 y7).Same m z := by
        intro s5 h6
        exact State.issueNeed_same (State.modActive_same (State.endSlotWait_same h6))
      clear_value n3
      exact State.Same.ite (State.reading_same (State.bumpHeld_same h) h4) (h4 _ h)

theorem State.passTurn_same {s : State} {t : Nat} {i : Nat} (h : s.Same m z) (_ : .tiles ∈ m := by assumption) :
    (State.passTurn s t i).Same m z := by
  unfold State.passTurn
  exact State.modTile_same h

theorem State.issueElem_same {s : State} {t : Nat} {i : Nat} {k : GConfig} {r : GRun} {va : Nat} (h : s.Same m z)
    (_ : .tiles ∈ m := by assumption) :
    (State.issueElem s t i k r va).Same m z := by
  unfold State.issueElem
  refine State.Same.ite h ?_
  refine State.Same.ite (State.waitSlot_same h) ?_
  refine State.Same.ite h ?_
  extract_lets -underBinder +onlyGivenNames n1 n2 n3
  exact State.issueNeed_same (State.modStream_same (State.passTurn_same (State.endSlotWait_same h)))

theorem State.consumeAhead_same {s : State} {t : Nat} {i : Nat} {r : GRun} {e : RaElem} (h : s.Same m z)
    (_ : .tiles ∈ m := by assumption) (_ : .spad ∈ m := by assumption) :
    (State.consumeAhead s t i r e).Same m z := by
  unfold State.consumeAhead
  extract_lets -underBinder +onlyGivenNames n1 s2
  have h3 : s2.Same m z := State.modStream_same (State.bump_same h)
  clear_value s2
  extract_lets -underBinder +onlyGivenNames s4
  have h5 : s4.Same m z := State.modStream_same h3
  clear_value s4
  extract_lets -underBinder +onlyGivenNames s6
  have h7 : s6.Same m z := by
    refine State.forEach_same h5 ?_
    intro s8 x10 h9
    exact State.modReq_same h9
  clear_value s6
  exact State.tryElem_same h7

theorem State.issueConsumed_same {s : State} {t : Nat} {i : Nat} {k : GConfig} {r : GRun} (h : s.Same m z)
    (_ : .tiles ∈ m := by assumption) (_ : .spad ∈ m := by assumption) :
    (State.issueConsumed s t i k r).Same m z := by
  unfold State.issueConsumed
  extract_lets -underBinder +onlyGivenNames n1
  split
  · exact State.issueElem_same h
  · refine State.Same.ite ?_ ?_
    · extract_lets -underBinder +onlyGivenNames s2
      have h3 : s2.Same m z := State.issueElem_same h
      clear_value s2
      exact State.Same.ite h3 (State.modStream_same h3)
    · exact State.Same.ite (State.consumeAhead_same h) (State.issueElem_same (State.clearRunAhead_same h))

theorem State.issueAhead_same {s : State} {t : Nat} {i : Nat} {k : GConfig} {r : GRun} (h : s.Same m z)
    (_ : .tiles ∈ m := by assumption) :
    (State.issueAhead s t i k r).Same m z := by
  unfold State.issueAhead
  extract_lets -underBinder +onlyGivenNames n1 n2
  refine State.Same.ite h ?_
  split
  · exact State.modStream_same (State.bump_same h)
  · extract_lets -underBinder +onlyGivenNames n3 s4
    have h5 : s4.Same m z := State.modStream_same (State.passTurn_same h)
    clear_value s4
    refine State.forEach_same h5 ?_
    intro s6 x8 h7
    extract_lets -underBinder +onlyGivenNames n9 s10
    have h11 : s10.Same m z := State.touchTlb_same (State.addReq_same h7)
    clear_value s10
    exact State.route_same (State.bump_same h11)

theorem State.issueGe_same {s : State} {t : Nat} {i : Nat} {ecc : RowEcc} (h : s.Same m z) (_ : .tiles ∈ m := by assumption)
    (_ : .spad ∈ m := by assumption) (_ : .spares ∈ m := by assumption) :
    (State.issueGe s t i ecc).Same m z := by
  unfold State.issueGe
  split
  · refine State.Same.ite (State.issueConsumed_same h) ?_
    refine State.Same.ite ?_ (State.issueAhead_same h)
    refine State.reading_same h ?_
    intro s1 h2
    exact State.issueAhead_same h2
  · exact h

theorem execRequestIssue_same {t : TileId} {q : BitVec 3} {stream : BitVec 2} {ecc : RowEcc} {s : State} (h : s.Same m z)
    (_ : .tiles ∈ m := by assumption) (_ : .spad ∈ m := by assumption) (_ : .spares ∈ m := by assumption) :
    ∃ s', execRequestIssue t q stream ecc s = .next s' ∧ s'.Same m z := by
  unfold execRequestIssue
  refine ⟨_, rfl, ?_⟩
  exact State.Same.ite h (State.Same.ite (State.issueDma_same h) (State.Same.ite (State.issueGe_same h) h))

theorem execResponseArrival_same {req : Nat} {s : State} (h : s.Same m z) (_ : .tiles ∈ m := by assumption)
    (_ : .spad ∈ m := by assumption) (_ : .seams ∈ m := by assumption) :
    ∃ s', execResponseArrival req s = .next s' ∧ s'.Same m z := by
  unfold execResponseArrival
  refine ⟨_, rfl, ?_⟩
  split
  · exact h
  · refine State.Same.ite h ?_
    extract_lets -underBinder +onlyGivenNames s1
    have h2 : s1.Same m z := State.settleSeams_same (State.dropReq_same h)
    clear_value s1
    refine State.Same.ite h2 ?_
    refine State.Same.ite (State.gatherArrived_same h2) ?_
    exact State.Same.ite (State.storeAcked_same h2) (State.loadArrived_same h2)

end Sys2Proof.Machine
end

