-- ==== Sys2Proof/Laws/FrameTcc.lean ====
section
/-!
SUPPORT. Which parts of the state each TCC instruction leaves unchanged: none of them changes more than its tile's core,
queues and counters, but for the stores of STW, SPXR and SPXW, the increment of SIGEV and the mark of a lost row.
-/

-- one proof at a time: the package as one text would start more threads than its memory limit allows
set_option Elab.async false

namespace Sys2Proof.Machine

variable {m : List Part} {z : State}

/-- The frame of an instruction is that of its issue and of its tile. -/
theorem State.tcc_sameOf {s : State} {t : TileId} {g : Guard} {op : TccOp} {granted : Bool} {ecc : RowEcc} (h : s.Same m z)
    (hi : ∀ s, State.Same s m z → (s.issue t.toNat op granted ecc).Same m z) (_ : .tiles ∈ m := by assumption) :
    (s.tcc t g op granted ecc).Same m z := by
  unfold State.tcc State.guarded
  have hr : (s.resolve t.toNat ((s.tile t.toNat).tcc.guard g)).Same m z := State.resolve_same h
  refine State.Same.ite ?_ h
  exact State.Same.ite (hi _ (State.Same.ite hr h)) (State.retire_same (State.Same.ite hr h))

theorem execAlu_frame {t : TileId} {g : Guard} {rd ra rb : BitVec 5} {func : BitVec 7} {s : State}
    (h : s.Same m z) (_ : .tiles ∈ m := by assumption) :
    ∃ s', execAlu t g rd ra rb func s = .next s' ∧ s'.Same m z := by
  exact ⟨_, rfl, State.tcc_sameOf h (fun _ h => State.retire_same h)⟩

theorem execAddi_frame {t : TileId} {g : Guard} {rd ra : BitVec 5} {imm : BitVec 12} {s : State}
    (h : s.Same m z) (_ : .tiles ∈ m := by assumption) :
    ∃ s', execAddi t g rd ra imm s = .next s' ∧ s'.Same m z := by
  exact ⟨_, rfl, State.tcc_sameOf h (fun _ h => State.retire_same h)⟩

theorem execAndi_frame {t : TileId} {g : Guard} {rd ra : BitVec 5} {imm : BitVec 12} {s : State}
    (h : s.Same m z) (_ : .tiles ∈ m := by assumption) :
    ∃ s', execAndi t g rd ra imm s = .next s' ∧ s'.Same m z := by
  exact ⟨_, rfl, State.tcc_sameOf h (fun _ h => State.retire_same h)⟩

theorem execOri_frame {t : TileId} {g : Guard} {rd ra : BitVec 5} {imm : BitVec 12} {s : State}
    (h : s.Same m z) (_ : .tiles ∈ m := by assumption) :
    ∃ s', execOri t g rd ra imm s = .next s' ∧ s'.Same m z := by
  exact ⟨_, rfl, State.tcc_sameOf h (fun _ h => State.retire_same h)⟩

theorem execXori_frame {t : TileId} {g : Guard} {rd ra : BitVec 5} {imm : BitVec 12} {s : State}
    (h : s.Same m z) (_ : .tiles ∈ m := by assumption) :
    ∃ s', execXori t g rd ra imm s = .next s' ∧ s'.Same m z := by
  exact ⟨_, rfl, State.tcc_sameOf h (fun _ h => State.retire_same h)⟩

theorem execShi_frame {t : TileId} {g : Guard} {rd ra : BitVec 5} {imm : BitVec 12} {s : State}
    (h : s.Same m z) (_ : .tiles ∈ m := by assumption) :
    ∃ s', execShi t g rd ra imm s = .next s' ∧ s'.Same m z := by
  exact ⟨_, rfl, State.tcc_sameOf h (fun _ h => State.retire_same h)⟩

theorem execMovi_frame {t : TileId} {g : Guard} {rd : BitVec 5} {imm : BitVec 17} {s : State}
    (h : s.Same m z) (_ : .tiles ∈ m := by assumption) :
    ∃ s', execMovi t g rd imm s = .next s' ∧ s'.Same m z := by
  exact ⟨_, rfl, State.tcc_sameOf h (fun _ h => State.retire_same h)⟩

theorem execLui_frame {t : TileId} {g : Guard} {rd : BitVec 5} {imm : BitVec 17} {s : State}
    (h : s.Same m z) (_ : .tiles ∈ m := by assumption) :
    ∃ s', execLui t g rd imm s = .next s' ∧ s'.Same m z := by
  exact ⟨_, rfl, State.tcc_sameOf h (fun _ h => State.retire_same h)⟩

theorem execLdw_frame {t : TileId} {g : Guard} {rd ra : BitVec 5} {imm : BitVec 12} {s : State}
    (h : s.Same m z) (_ : .tiles ∈ m := by assumption) :
    ∃ s', execLdw t g rd ra imm s = .next s' ∧ s'.Same m z := by
  exact ⟨_, rfl, State.tcc_sameOf h (fun _ h => State.Same.ite (State.retire_same h) (State.raiseTile_same h))⟩

theorem execStw_frame {t : TileId} {g : Guard} {rd ra : BitVec 5} {imm : BitVec 12} {s : State}
    (h : s.Same m z) (_ : .tiles ∈ m := by assumption) (_ : .dstore ∈ m := by assumption) :
    ∃ s', execStw t g rd ra imm s = .next s' ∧ s'.Same m z := by
  exact ⟨_, rfl, State.tcc_sameOf h (fun _ h => State.Same.ite (State.retire_same (State.setDataBytes_same h)) (State.raiseTile_same h))⟩

theorem execCmp_frame {t : TileId} {g : Guard} {pd : BitVec 3} {ra rb : BitVec 5} {cond : BitVec 3} {s : State}
    (h : s.Same m z) (_ : .tiles ∈ m := by assumption) :
    ∃ s', execCmp t g pd ra rb cond s = .next s' ∧ s'.Same m z := by
  exact ⟨_, rfl, State.tcc_sameOf h (fun _ h => State.retire_same h)⟩

theorem execPlog_frame {t : TileId} {g : Guard} {pd pa pb : BitVec 3} {func : BitVec 2} {s : State}
    (h : s.Same m z) (_ : .tiles ∈ m := by assumption) :
    ∃ s', execPlog t g pd pa pb func s = .next s' ∧ s'.Same m z := by
  exact ⟨_, rfl, State.tcc_sameOf h (fun _ h => State.retire_same h)⟩

theorem execBr_frame {t : TileId} {g : Guard} {off : BitVec 22} {s : State}
    (h : s.Same m z) (_ : .tiles ∈ m := by assumption) :
    ∃ s', execBr t g off s = .next s' ∧ s'.Same m z := by
  exact ⟨_, rfl, State.tcc_sameOf h (fun _ h => State.retire_same h)⟩

theorem execCall_frame {t : TileId} {g : Guard} {off : BitVec 22} {s : State}
    (h : s.Same m z) (_ : .tiles ∈ m := by assumption) :
    ∃ s', execCall t g off s = .next s' ∧ s'.Same m z := by
  exact ⟨_, rfl, State.tcc_sameOf h (fun _ h => State.retire_same h)⟩

theorem execJr_frame {t : TileId} {g : Guard} {ra : BitVec 5} {s : State}
    (h : s.Same m z) (_ : .tiles ∈ m := by assumption) :
    ∃ s', execJr t g ra s = .next s' ∧ s'.Same m z := by
  exact ⟨_, rfl, State.tcc_sameOf h (fun _ h => State.jump_same h)⟩

theorem execCmd_frame {t : TileId} {g : Guard} {q : BitVec 3} {ra : BitVec 5} {s : State}
    (h : s.Same m z) (_ : .tiles ∈ m := by assumption) :
    ∃ s', execCmd t g q ra s = .next s' ∧ s'.Same m z := by
  exact ⟨_, rfl, State.tcc_sameOf h (fun _ h => State.Same.ite (State.stallTcc_same h) (State.retire_same (State.modEngine_same h)))⟩

theorem execWaitev_frame {t : TileId} {g : Guard} {ra : BitVec 5} {imm : BitVec 12} {s : State}
    (h : s.Same m z) (_ : .tiles ∈ m := by assumption) :
    ∃ s', execWaitev t g ra imm s = .next s' ∧ s'.Same m z := by
  exact ⟨_, rfl, State.tcc_sameOf h (fun _ h => State.stallTcc_same h)⟩

theorem execSigev_frame {t : TileId} {g : Guard} {ra : BitVec 5} {imm : BitVec 12} {s : State}
    (h : s.Same m z) (_ : .tiles ∈ m := by assumption) (_ : .polders ∈ m := by assumption) :
    ∃ s', execSigev t g ra imm s = .next s' ∧ s'.Same m z := by
  exact ⟨_, rfl, State.tcc_sameOf h (fun _ h => State.Same.ite (State.increment_same h) (State.retire_same (State.increment_same h)))⟩

theorem execFence_frame {t : TileId} {g : Guard} {imm : BitVec 12} {s : State}
    (h : s.Same m z) (_ : .tiles ∈ m := by assumption) :
    ∃ s', execFence t g imm s = .next s' ∧ s'.Same m z := by
  exact ⟨_, rfl, State.tcc_sameOf h (fun _ h => State.Same.ite (State.retire_same h) (State.stallTcc_same h))⟩

theorem execSpxr_frame {t : TileId} {g : Guard} {ra : BitVec 5} {imm : BitVec 12} {granted : Bool} {ecc : RowEcc} {s : State}
    (h : s.Same m z) (_ : .tiles ∈ m := by assumption) (_ : .dstore ∈ m := by assumption) (_ : .spares ∈ m := by assumption) :
    ∃ s', execSpxr t g ra imm granted ecc s = .next s' ∧ s'.Same m z := by
  refine ⟨_, rfl, State.tcc_sameOf h (fun s h => ?_)⟩
  unfold State.issue
  refine State.Same.ite (State.stallTcc_same h) ?_
  split
  · exact State.modTcc_same (State.spadLost_same h)
  · refine State.retire_same (State.setDataBytes_same ?_)
    split
    · exact State.spadCorrected_same h
    · exact h

theorem execSpxw_frame {t : TileId} {g : Guard} {ra : BitVec 5} {imm : BitVec 12} {granted : Bool} {s : State}
    (h : s.Same m z) (_ : .tiles ∈ m := by assumption) (_ : .spad ∈ m := by assumption) :
    ∃ s', execSpxw t g ra imm granted s = .next s' ∧ s'.Same m z := by
  exact ⟨_, rfl, State.tcc_sameOf h (fun _ h => State.Same.ite (State.stallTcc_same h) (State.retire_same (State.setSpadRow_same h)))⟩

theorem execRdcsr_frame {t : TileId} {g : Guard} {rd : BitVec 5} {imm : BitVec 12} {s : State}
    (h : s.Same m z) (_ : .tiles ∈ m := by assumption) :
    ∃ s', execRdcsr t g rd imm s = .next s' ∧ s'.Same m z := by
  exact ⟨_, rfl, State.tcc_sameOf h (fun _ h => State.retire_same h)⟩

theorem execHalt_frame {t : TileId} {g : Guard} {s : State}
    (h : s.Same m z) (_ : .tiles ∈ m := by assumption) :
    ∃ s', execHalt t g s = .next s' ∧ s'.Same m z := by
  exact ⟨_, rfl, State.tcc_sameOf h (fun _ h => State.haltTcc_same h)⟩

end Sys2Proof.Machine
end

