-- ==== Sys2Proof/Laws/KeepsOps.lean ====
section
/-!
SUPPORT. What the definitions of the shared operations: routes, provenance, counters, the TCC and its events keep.
-/

-- one proof at a time: the package as one text would start more threads than its memory limit allows
set_option Elab.async false

namespace Sys2Proof.Machine

variable {q : List Instr} {v : Nat} {r : List Entry}



/-! ### Ops -/

theorem State.bump_keeps {s : State} {a : Nat} {n : Nat} (h : s.Keeps q v r) :
    (State.bump s a n).Keeps q v r := by
  unfold State.bump
  exact State.setReg_keeps h

theorem State.bumpHeld_keeps {s : State} {a : Nat} (h : s.Keeps q v r) : (s.bumpHeld a).Keeps q v r :=
  State.bump_keeps (State.draw_keeps h)

theorem State.bumpSat_keeps {s : State} {a : Nat} {n : Nat} (h : s.Keeps q v r) :
    (State.bumpSat s a n).Keeps q v r := by
  unfold State.bumpSat
  exact State.setReg_keeps h

theorem State.setReg64_keeps {s : State} {a : Nat} {n : Nat} (h : s.Keeps q v r) :
    (State.setReg64 s a n).Keeps q v r := by
  unfold State.setReg64
  exact State.setReg_keeps (State.setReg_keeps h)

theorem State.bump64_keeps {s : State} {a : Nat} {n : Nat} (h : s.Keeps q v r) :
    (State.bump64 s a n).Keeps q v r := by
  unfold State.bump64
  exact State.setReg64_keeps h

theorem State.sendMsix_keeps {s : State} {fn : Nat} {vec : Nat} (h : s.Keeps q v r) :
    (State.sendMsix s fn vec).Keeps q v r := by
  unfold State.sendMsix
  extract_lets -underBinder +onlyGivenNames n1
  exact State.Keeps.ite (State.modHif_keeps h (fun _ hn => hn)) (State.modHif_keeps h (fun _ hn => hn))

theorem State.writeMsix_keeps {s : State} {fn : Nat} {i : Nat} {z4 : Word} (h : s.Keeps q v r) :
    (State.writeMsix s fn i z4).Keeps q v r := by
  unfold State.writeMsix
  extract_lets -underBinder +onlyGivenNames n1 s2
  have h3 : s2.Keeps q v r := State.modHif_keeps h (fun _ hn => hn)
  clear_value s2
  exact State.Keeps.ite (State.sendMsix_keeps (State.modHif_keeps h3 (fun _ hn => hn))) h3

theorem State.sendAer_keeps {s : State} {fn : Nat} {abort : Bool} {a : Nat} (h : s.Keeps q v r) :
    (State.sendAer s fn abort a).Keeps q v r := by
  unfold State.sendAer
  extract_lets -underBinder +onlyGivenNames n1
  exact State.modHif_keeps h (fun _ hn => hn)

theorem State.trainLink_keeps {s : State} (h : s.Keeps q v r) :
    (State.trainLink s).Keeps q v r := by
  unfold State.trainLink
  extract_lets -underBinder +onlyGivenNames n1
  have h2 : n1.2.Keeps q v r := State.draw_keeps h
  clear_value n1
  extract_lets -underBinder +onlyGivenNames n3 n4
  exact State.modHif_keeps h2 (fun _ hn => hn)

theorem State.sendTlps_keeps {s : State} {l : List Tlp} (h : s.Keeps q v r) :
    (State.sendTlps s l).Keeps q v r := by
  unfold State.sendTlps
  exact State.modHif_keeps h (fun _ hn => hn)

theorem State.askHost_keeps {s : State} {fn : Nat} {a : Nat} {n : Nat} (h : s.Keeps q v r) :
    (State.askHost s fn a n).Keeps q v r := by
  unfold State.askHost
  exact State.sendTlps_keeps h

theorem State.irqEdge_keeps {s : State} {before : State} (h : s.Keeps q v r) (hbefore : before.Keeps q v r) :
    (State.irqEdge s before).Keeps q v r := by
  unfold State.irqEdge
  exact State.Keeps.ite (State.sendMsix_keeps h) h

theorem State.setIrq_keeps {s : State} {pg : Nat} {bits : Nat} (h : s.Keeps q v r) :
    (State.setIrq s pg bits).Keeps q v r := by
  unfold State.setIrq
  exact State.irqEdge_keeps (State.setReg_keeps h) h

theorem State.logError_keeps {s : State} {pg : Nat} {kind : Nat} {code : Nat} {at_ : Nat} {polder : Nat} (h : s.Keeps q v r) :
    (State.logError s pg kind code at_ polder).Keeps q v r := by
  unfold State.logError
  extract_lets -underBinder +onlyGivenNames n1 s2
  have h3 : s2.Keeps q v r := State.bumpSat_keeps h
  clear_value s2
  extract_lets -underBinder +onlyGivenNames s4
  have h5 : s4.Keeps q v r := State.setReg_keeps h3
  clear_value s4
  extract_lets -underBinder +onlyGivenNames s6
  have h7 : s6.Keeps q v r := State.setReg_keeps h5
  clear_value s6
  exact State.setReg64_keeps h7

theorem State.ignoreWrite_keeps {s : State} {a : Nat} (h : s.Keeps q v r) :
    (State.ignoreWrite s a).Keeps q v r := by
  unfold State.ignoreWrite
  exact State.logError_keeps h

theorem State.sendCause_keeps {s : State} {c : Cause} (h : s.Keeps q v r) :
    (State.sendCause s c).Keeps q v r := by
  unfold State.sendCause
  exact State.modNets_keeps h

theorem State.freezeMaster_keeps {s : State} {t : Nat} {kind : Nat} (h : s.Keeps q v r) :
    (State.freezeMaster s t kind).Keeps q v r := by
  unfold State.freezeMaster
  exact State.Keeps.ite (State.modTcc_keeps h (fun _ hx => hx)) (State.modEngine_keeps h)

theorem State.raiseTile_keeps {s : State} {t : Nat} {kind : Nat} {code : Nat} {addr : Nat} (h : s.Keeps q v r) :
    (State.raiseTile s t kind code addr).Keeps q v r := by
  unfold State.raiseTile
  extract_lets -underBinder +onlyGivenNames n1 s2
  have h3 : s2.Keeps q v r := State.setReg_keeps h
  clear_value s2
  extract_lets -underBinder +onlyGivenNames s4
  have h5 : s4.Keeps q v r := State.setIrq_keeps h3
  clear_value s4
  extract_lets -underBinder +onlyGivenNames s6
  have h7 : s6.Keeps q v r := State.logError_keeps h5
  clear_value s6
  extract_lets -underBinder +onlyGivenNames s8
  have h9 : s8.Keeps q v r := State.Keeps.ite (State.freezeMaster_keeps h7) h7
  clear_value s8
  exact State.sendCause_keeps h9

theorem State.raiseEngine_keeps {s : State} {t : Nat} {z3 : Nat} {code : Nat} {addr : Nat} (h : s.Keeps q v r) :
    (State.raiseEngine s t z3 code addr).Keeps q v r := by
  unfold State.raiseEngine
  exact State.raiseTile_keeps h

theorem State.raisePart_keeps {s : State} {p : Nat} {code : Nat} {unit : Nat} {addr : Nat} (h : s.Keeps q v r) :
    (State.raisePart s p code unit addr).Keeps q v r := by
  unfold State.raisePart
  exact State.sendCause_keeps h

theorem State.hostError_keeps {s : State} {p : Nat} {code : Nat} {unit : Nat} {addr : Nat} (h : s.Keeps q v r) :
    (State.hostError s p code unit addr).Keeps q v r := by
  unfold State.hostError
  extract_lets -underBinder +onlyGivenNames s1
  have h2 : s1.Keeps q v r := State.setReg_keeps h
  clear_value s1
  extract_lets -underBinder +onlyGivenNames s3
  have h4 : s3.Keeps q v r := State.setIrq_keeps h2
  clear_value s3
  extract_lets -underBinder +onlyGivenNames s5
  have h6 : s5.Keeps q v r := State.logError_keeps h4
  clear_value s5
  exact State.sendCause_keeps h6

theorem State.hostStore_keeps {s : State} {a : Nat} {bs : List Byte} (h : s.Keeps q v r) :
    (State.hostStore s a bs).Keeps q v r := by
  unfold State.hostStore
  exact State.Keeps.ite (State.modStore_keeps h (fun _ hm => ⟨hm.1, hm.2.1, hm.2.2.1, hm.2.2.2.1, hm.2.2.2.2.1, hm.2.2.2.2.2.1, Mem.wf_writeN hm.2.2.2.2.2.2.1 _ _, hm.2.2.2.2.2.2.2⟩)) h

theorem State.postTlps_keeps {s : State} {fn : Nat} {relaxed : Bool} {a : Nat} {n : Nat} (h : s.Keeps q v r) :
    (State.postTlps s fn relaxed a n).Keeps q v r := by
  unfold State.postTlps
  exact State.Keeps.ite (State.sendTlps_keeps h) h

theorem State.hostWrite_keeps {s : State} {fn : Nat} {a : Nat} {bs : List Byte} (h : s.Keeps q v r) :
    (State.hostWrite s fn a bs).Keeps q v r := by
  unfold State.hostWrite
  exact State.postTlps_keeps (State.hostStore_keeps h)

theorem State.postVf_keeps {s : State} {p : Nat} {type : Nat} {body : List Byte} (h : s.Keeps q v r) :
    (State.postVf s p type body).Keeps q v r := by
  unfold State.postVf
  refine State.Keeps.ite (State.hostError_keeps h) ?_
  extract_lets -underBinder +onlyGivenNames n1 n2 s3
  have h4 : s3.Keeps q v r := State.hostWrite_keeps h
  clear_value s3
  extract_lets -underBinder +onlyGivenNames s5
  have h6 : s5.Keeps q v r := State.setVfReg_keeps h4
  clear_value s5
  exact State.Keeps.ite (State.sendMsix_keeps h6) h6

theorem State.setHeld_keeps {s : State} {p : Nat} {b : Bool} (h : s.Keeps q v r) :
    (State.setHeld s p b).Keeps q v r := by
  unfold State.setHeld
  exact State.setVfReg_keeps h

theorem State.posting_keeps {s : State} {p : Nat} {n : Nat} {act : State → State} (h : s.Keeps q v r) (hact : ∀ y1, State.Keeps q v r y1 → (act y1).Keeps q v r) :
    (State.posting s p n act).Keeps q v r := by
  unfold State.posting
  exact State.Keeps.ite (State.setHeld_keeps h) (hact _ (State.setHeld_keeps h))

theorem State.postIfOn_keeps {s : State} {p : Nat} {type : Nat} {body : List Byte} (h : s.Keeps q v r) :
    (State.postIfOn s p type body).Keeps q v r := by
  unfold State.postIfOn
  exact State.Keeps.ite (State.postVf_keeps h) h

theorem State.postVfFault_keeps {s : State} {p : Nat} {body : List Byte} (h : s.Keeps q v r) :
    (State.postVfFault s p body).Keeps q v r := by
  unfold State.postVfFault
  exact State.Keeps.ite h (State.Keeps.ite (State.postVf_keeps h) (State.setVfReg_keeps h))

theorem State.postPfFault_keeps {s : State} {body : List Byte} (h : s.Keeps q v r) :
    (State.postPfFault s body).Keeps q v r := by
  unfold State.postPfFault
  extract_lets -underBinder +onlyGivenNames n1 n2 n3 n4
  refine State.Keeps.ite ?_ (State.setIrq_keeps (State.bump_keeps h))
  extract_lets -underBinder +onlyGivenNames s5
  have h6 : s5.Keeps q v r := State.hostWrite_keeps h
  clear_value s5
  extract_lets -underBinder +onlyGivenNames s7
  have h8 : s7.Keeps q v r := State.setReg_keeps h6
  clear_value s7
  exact State.Keeps.ite (State.sendMsix_keeps h8) h8

theorem State.reply_keeps {s : State} {c : Nat} {code : Nat} {body : List Byte} (h : s.Keeps q v r) :
    (State.reply s c code body).Keeps q v r := by
  unfold State.reply
  exact State.modChan_keeps h (fun _ hb => by split <;> exact hb)

theorem State.replyEcho_keeps {s : State} {c : Nat} {code : Nat} (h : s.Keeps q v r) :
    (State.replyEcho s c code).Keeps q v r := by
  unfold State.replyEcho
  exact State.reply_keeps h

theorem done_keeps {s : State} (h : s.Keeps q v r) :
    ∃ s', done s = .next s' ∧ s'.Keeps q v r := by
  unfold done
  refine ⟨_, rfl, ?_⟩
  exact h

/-! ### Provenance -/

theorem State.loseEntry_keeps {s : State} (h : s.Keeps q v r) :
    (State.loseEntry s).Keeps q v r := by
  unfold State.loseEntry
  exact State.setIrq_keeps (State.bump_keeps h)

theorem State.append_keeps {s : State} {kind : Nat} {vals : List Nat} (h : s.Keeps q v r) :
    (State.append s kind vals).Keeps q v r := by
  unfold State.append
  extract_lets -underBinder +onlyGivenNames n1
  refine State.Keeps.ite (State.loseEntry_keeps h) ?_
  extract_lets -underBinder +onlyGivenNames n2 s3
  have h4 : s3.Keeps q v r := State.modJournal_keeps h (fun _ => List.prefix_append _ _)
  clear_value s3
  exact State.Keeps.ite (State.setIrq_keeps h4) h4

theorem State.extendMr4_keeps {s : State} (h : s.Keeps q v r) :
    (State.extendMr4 s).Keeps q v r := by
  unfold State.extendMr4
  exact State.modBoot_keeps h (fun _ => Nat.le_refl _)

theorem State.appendSpare_keeps {s : State} {cls : Nat} {unit : Nat} {old : Nat} {spare : Nat} {left : Nat} (h : s.Keeps q v r) :
    (State.appendSpare s cls unit old spare left).Keeps q v r := by
  unfold State.appendSpare
  exact State.append_keeps h

/-! ### Routes -/

theorem State.crossSeam_keeps {s : State} {n : Nat} {die : Nat} {chan : Nat} {flits : Nat} {onward : Nat} (h : s.Keeps q v r) :
    (State.crossSeam s n die chan flits onward).Keeps q v r := by
  unfold State.crossSeam
  extract_lets -underBinder +onlyGivenNames s1
  have h2 : s1.Keeps q v r := State.bump64_keeps h
  clear_value s1
  extract_lets -underBinder +onlyGivenNames s3
  have h4 : s3.Keeps q v r := State.Keeps.ite h2 (State.bump64_keeps h2)
  clear_value s3
  exact State.modSeam_keeps h4

theorem State.crossSeams_keeps {s : State} {die chan flits count : Nat} {l : List Nat} (h : s.Keeps q v r) :
    (s.crossSeams die chan flits count l).Keeps q v r := by
  induction l generalizing s die with
  | nil => exact h
  | cons n rest ih => exact ih (State.crossSeam_keeps h)

theorem State.controlCrosses_keeps {s : State} {a : Nat} {b : Nat} {count : Nat} (h : s.Keeps q v r) :
    (State.controlCrosses s a b count).Keeps q v r := by
  unfold State.controlCrosses
  exact State.Keeps.ite (State.crossSeams_keeps h) h

theorem State.accessCrosses_keeps {s : State} {die : Nat} {far : Nat} (h : s.Keeps q v r) :
    (State.accessCrosses s die far).Keeps q v r := by
  unfold State.accessCrosses
  exact State.controlCrosses_keeps (State.controlCrosses_keeps h)

theorem State.controlBurst_keeps {s : State} {p : Nat} (h : s.Keeps q v r) :
    (State.controlBurst s p).Keeps q v r := by
  unfold State.controlBurst
  refine State.forEach_keeps h ?_
  intro s1 x3 h2
  exact State.controlCrosses_keeps (State.draw_keeps h2)

theorem State.stampStall_keeps {s : State} {n : Nat} {die : Nat} {chan : Nat} {stalled : Bool} (h : s.Keeps q v r) :
    (State.stampStall s n die chan stalled).Keeps q v r := by
  unfold State.stampStall
  extract_lets -underBinder +onlyGivenNames n1 n2
  split
  · exact State.modSeam_keeps h
  · exact State.modSeam_keeps (State.bump_keeps h)
  · exact h

theorem State.signalCrosses_keeps {s : State} {die : Nat} {b : Nat} (h : s.Keeps q v r) :
    (State.signalCrosses s die b).Keeps q v r := by
  unfold State.signalCrosses
  exact State.crossSeams_keeps h

theorem State.settleSync_keeps {s : State} {die : Nat} {count : Nat} {dst : Nat} (h : s.Keeps q v r) :
    (State.settleSync s die count dst).Keeps q v r := by
  unfold State.settleSync
  refine State.forEach_keeps h ?_
  intro s1 x3 h2
  exact State.stampStall_keeps h2

theorem State.modSlot_keeps {s : State} {e : Nat} {p : Nat} {f : Slot → Slot} (h : s.Keeps q v r) :
    (State.modSlot s e p f).Keeps q v r := by
  unfold State.modSlot
  exact State.modLinks_keeps h (fun _ hl => ⟨hl.1, Table.sorted_put hl.2 _ _ _⟩)

theorem State.noteWait_keeps {s : State} {e : Nat} {p : Nat} (h : s.Keeps q v r) :
    (State.noteWait s e p).Keeps q v r := by
  unfold State.noteWait
  extract_lets -underBinder +onlyGivenNames n1 n2 s3
  have h4 : s3.Keeps q v r := State.Keeps.ite (State.modSlot_keeps (State.bump_keeps h)) h
  clear_value s3
  exact State.Keeps.ite (State.setReg_keeps h4) h4

theorem State.endRequest_keeps {s : State} {p : Nat} (h : s.Keeps q v r) :
    (State.endRequest s p).Keeps q v r := by
  unfold State.endRequest
  exact State.modHif_keeps (State.replyEcho_keeps h) (fun _ hn => hn)

theorem stopSlot_key {p : Nat} {e e' : Nat × Slot} (h : stopSlot p e = some e') : e'.1 = e.1 := by
  unfold stopSlot at h
  split at h
  · cases h; rfl
  · split at h
    · cases h; rfl
    · cases h

theorem State.startClearing_keeps {s : State} {p : Nat} {cause : Option Cause} (h : s.Keeps q v r) :
    (State.startClearing s p cause).Keeps q v r := by
  unfold State.startClearing
  extract_lets -underBinder +onlyGivenNames n1 s2
  have h3 : s2.Keeps q v r := State.Keeps.ite (State.endRequest_keeps h) h
  clear_value s2
  extract_lets -underBinder +onlyGivenNames s4
  have h5 : s4.Keeps q v r := State.modPld_keeps h3
  clear_value s4
  extract_lets -underBinder +onlyGivenNames s6
  have h7 : s6.Keeps q v r := by
    refine State.forEach_keeps h5 ?_
    intro s8 x10 h9
    exact State.Keeps.ite (State.noteWait_keeps h9) h9
  clear_value s6
  extract_lets -underBinder +onlyGivenNames s11
  have h12 : s11.Keeps q v r := State.modLinks_keeps h7 (fun _ hl => ⟨hl.1, Table.sorted_filterMap hl.2 (fun _ _ => stopSlot_key)⟩)
  clear_value s11
  refine State.forEach_keeps h12 ?_
  intro s13 x15 h14
  exact State.modCns_keeps h14

theorem State.unreserve_keeps {s : State} {tag : Word} (h : s.Keeps q v r) : (s.unreserve tag).Keeps q v r :=
  State.Keeps.ite h { h with wf := { h.wf with clients := Table.sorted_filterMap h.wf.clients (fun e e' he => by
    revert he; split
    · exact fun he => by cases he
    · exact fun he => by cases he; rfl) } }

theorem State.endCreate_keeps {s : State} {p : Nat} {code : Nat} {refusal : Nat} (h : s.Keeps q v r) :
    (State.endCreate s p code refusal).Keeps q v r := by
  unfold State.endCreate
  extract_lets -underBinder +onlyGivenNames n1 s2
  have h3 : s2.Keeps q v r := State.unreserve_keeps (State.modPld_keeps h)
  clear_value s2
  split
  · exact State.reply_keeps h3
  · exact h3

theorem State.failPart_keeps {s : State} {code : Nat} {rank : Nat} {unit : Nat} (h : s.Keeps q v r) :
    (State.failPart s code rank unit).Keeps q v r := by
  unfold State.failPart
  refine State.Keeps.ite ?_ ?_
  · extract_lets -underBinder +onlyGivenNames s1
    have h2 : s1.Keeps q v r := State.modBoot_keeps h (fun _ => Nat.le_refl _)
    clear_value s1
    extract_lets -underBinder +onlyGivenNames s3
    have h4 : s3.Keeps q v r := State.append_keeps h2
    clear_value s3
    refine State.forEach_keeps h4 ?_
    intro s5 x7 h6
    extract_lets -underBinder +onlyGivenNames n8 n9
    refine State.Keeps.ite (State.startClearing_keeps h6) ?_
    exact State.Keeps.ite (State.endCreate_keeps h6) (State.Keeps.ite (State.modPld_keeps h6) h6)
  · refine State.Keeps.ite ?_ h
    extract_lets -underBinder +onlyGivenNames n10 s11
    have h12 : s11.Keeps q v r := State.modBoot_keeps h (fun _ => Nat.le_refl _)
    clear_value s11
    refine State.forEach_keeps h12 ?_
    intro s13 x15 h14
    exact State.modPld_keeps h14

theorem State.setSeamCause_keeps {s : State} {n : Nat} {cause : Nat} (h : s.Keeps q v r) :
    (State.setSeamCause s n cause).Keeps q v r := by
  unfold State.setSeamCause
  exact State.setReg_keeps (State.setReg_keeps h)

theorem State.dropPort_keeps {s : State} {n : Nat} (h : s.Keeps q v r) :
    (State.dropPort s n).Keeps q v r := by
  unfold State.dropPort
  exact State.modPort_keeps h

theorem State.failSeam_keeps {s : State} {n : Nat} (h : s.Keeps q v r) : (State.failSeam s n).Keeps q v r := by
  unfold State.failSeam
  exact State.modSeam_keeps (State.Keeps.ite (State.setSeamCause_keeps (State.modSeam_keeps h)) h)

theorem State.loseDie_keeps {s : State} {die : Nat} (h : s.Keeps q v r) :
    (State.loseDie s die).Keeps q v r := by
  unfold State.loseDie
  extract_lets -underBinder +onlyGivenNames s1
  have h2 : s1.Keeps q v r := State.modBoot_keeps h (fun _ => Nat.le_refl _)
  clear_value s1
  extract_lets -underBinder +onlyGivenNames n3 s4
  have h5 : s4.Keeps q v r := by
    refine State.forEach_keeps h2 ?_
    intro s6 x8 h7
    exact State.failSeam_keeps h7
  clear_value s4
  extract_lets -underBinder +onlyGivenNames s9
  have h10 : s9.Keeps q v r := by
    refine State.Keeps.ite ?_ h5
    refine State.forEach_keeps h5 ?_
    intro s11 x13 h12
    exact State.dropPort_keeps h12
  clear_value s9
  exact State.failPart_keeps h10

/-! ### Mail -/

theorem State.takeRequest_keeps {s : State} {c : Nat} (h : s.Keeps q v r) :
    (State.takeRequest s c).Keeps q v r := by
  unfold State.takeRequest
  exact State.modHif_keeps (State.modChan_keeps h (fun _ hb => hb)) (fun _ hn => hn)

/-! ### Mailbox -/

theorem State.writeUr_keeps {s : State} {z2 : Requester} {a : Nat} (h : s.Keeps q v r) :
    (State.writeUr s z2 a).Keeps q v r := by
  unfold State.writeUr
  split
  · exact State.answerError_keeps (State.sendAer_keeps h)
  · exact State.answerError_keeps h

theorem State.readUr_keeps {s : State} {z : Requester} (h : s.Keeps q v r) : (s.readUr z).Keeps q v r := by
  unfold State.readUr
  split
  · exact { h with wf := { h.wf with } }
  · exact State.answerError_keeps h

theorem State.rejectWrite_keeps {s : State} {z2 : Requester} {c : Nat} {off : Nat} (h : s.Keeps q v r) :
    (State.rejectWrite s z2 c off).Keeps q v r := by
  unfold State.rejectWrite
  extract_lets -underBinder +onlyGivenNames s1
  have h2 : s1.Keeps q v r := State.bump_keeps (State.setReg_keeps h)
  clear_value s1
  extract_lets -underBinder +onlyGivenNames s3
  have h4 : s3.Keeps q v r := State.setReg_keeps h2
  clear_value s3
  split
  · exact State.answerWritten_keeps (State.sendMsix_keeps (State.sendAer_keeps (State.bump_keeps h4)))
  · exact State.answerError_keeps h4

theorem State.sendMctp_keeps {s : State} {y : Mctp} (h : s.Keeps q v r) : (s.sendMctp y).Keeps q v r :=
  State.modHif_keeps h (fun _ hn => hn)

theorem bufferPut_sorted {b : Table Byte} (h : Table.Sorted b) (off : Nat) (l : List Byte) : Table.Sorted (bufferPut b off l) := by
  induction l generalizing b off with
  | nil => exact h
  | cons x l ih => exact ih (Table.sorted_put h _ _ _) _

theorem State.acknowledge_keeps {s : State} {c : Nat} {y : Reply} (h : s.Keeps q v r) :
    (State.acknowledge s c y).Keeps q v r := by
  unfold State.acknowledge
  extract_lets -underBinder +onlyGivenNames n1 n2 s3
  have h4 : s3.Keeps q v r := State.modChan_keeps h (fun _ _ => bufferPut_sorted Table.sorted_nil _ _)
  clear_value s3
  extract_lets -underBinder +onlyGivenNames s5
  have h6 : s5.Keeps q v r := State.setReg_keeps h4
  clear_value s5
  exact State.Keeps.ite (State.sendMctp_keeps h6) (State.sendMsix_keeps h6)

theorem State.ackChannel_keeps {s : State} {n : Nat} (h : s.Keeps q v r) :
    (State.ackChannel s n).Keeps q v r := by
  unfold State.ackChannel
  extract_lets -underBinder +onlyGivenNames n1
  refine State.Keeps.ite h ?_
  split
  · exact State.acknowledge_keeps h
  · refine State.Keeps.ite h ?_
    split
    · exact State.acknowledge_keeps (State.takeRequest_keeps h)
    · exact h

theorem execMailboxAck_keeps {c : ChannelId} {s : State} (h : s.Keeps q v r) :
    ∃ s', execMailboxAck c s = .next s' ∧ s'.Keeps q v r := by
  unfold execMailboxAck
  refine ⟨_, rfl, ?_⟩
  exact State.ackChannel_keeps h

theorem State.ackFirst_keeps {s : State} {n : Nat} (h : s.Keeps q v r) :
    (State.ackFirst s n).Keeps q v r := by
  unfold State.ackFirst
  exact State.Keeps.ite (State.ackChannel_keeps h) h

theorem State.channelWrite_keeps {s : State} {z2 : Requester} {c : Nat} {off : Nat} {act : State → State} (h : s.Keeps q v r) (hact : ∀ y1, State.Keeps q v r y1 → (act y1).Keeps q v r) :
    (State.channelWrite s z2 c off act).Keeps q v r := by
  unfold State.channelWrite
  refine State.Keeps.ite (State.writeUr_keeps h) ?_
  refine State.Keeps.ite (State.answerError_keeps h) ?_
  extract_lets -underBinder +onlyGivenNames s1
  have h2 : s1.Keeps q v r := State.ackFirst_keeps h
  clear_value s1
  exact State.Keeps.ite (State.rejectWrite_keeps h2) (State.answerWritten_keeps (hact _ h2))

theorem State.fillBuffer_keeps {s : State} {z : Requester} {c off : Nat} {bs : List Byte} (h : s.Keeps q v r) :
    (s.fillBuffer z c off bs).Keeps q v r :=
  State.modChan_keeps h (fun _ hb => bufferPut_sorted hb _ _)

theorem State.ringChannel_keeps {s : State} {z2 : Requester} {c : Nat} {value : Word} (h : s.Keeps q v r) :
    (State.ringChannel s z2 c value).Keeps q v r := by
  unfold State.ringChannel
  extract_lets -underBinder +onlyGivenNames n1 s2
  have h3 : s2.Keeps q v r := State.modChan_keeps h (fun _ hb => hb)
  clear_value s2
  exact State.modHif_keeps h3 (fun _ hn => hn)

theorem execMbxDb_keeps {z1 : Requester} {c : ChannelId} {value : Word} {s : State} (h : s.Keeps q v r) :
    ∃ s', execMbxDb z1 c value s = .next s' ∧ s'.Keeps q v r := by
  unfold execMbxDb
  refine ⟨_, rfl, ?_⟩
  refine State.channelWrite_keeps h ?_
  intro s1 h2
  exact State.ringChannel_keeps h2

theorem execMailboxBufferWrite_keeps {z1 : Requester} {c : ChannelId} {off : Byte} {value : Word} {s : State} (h : s.Keeps q v r) :
    ∃ s', execMailboxBufferWrite z1 c off value s = .next s' ∧ s'.Keeps q v r := by
  unfold execMailboxBufferWrite
  refine ⟨_, rfl, ?_⟩
  refine State.Keeps.ite (State.writeUr_keeps (State.Keeps.ite (State.logError_keeps h) h)) ?_
  refine State.channelWrite_keeps h ?_
  intro s1 h2
  exact State.fillBuffer_keeps h2

theorem State.releaseChannel_keeps {s : State} {c : Nat} {value : Word} (h : s.Keeps q v r) :
    (State.releaseChannel s c value).Keeps q v r := by
  unfold State.releaseChannel
  exact State.Keeps.ite (State.modChan_keeps h (fun _ hb => hb)) h

theorem execRelease_keeps {z1 : Requester} {c : ChannelId} {value : Word} {s : State} (h : s.Keeps q v r) :
    ∃ s', execRelease z1 c value s = .next s' ∧ s'.Keeps q v r := by
  unfold execRelease
  refine ⟨_, rfl, ?_⟩
  refine State.channelWrite_keeps h ?_
  intro s1 h2
  exact State.releaseChannel_keeps h2

theorem execI3cRequest_keeps {z1 : MctpHead} {seq : Half} {body : List Byte} {s : State} (h : s.Keeps q v r) :
    ∃ s', execI3cRequest z1 seq body s = .next s' ∧ s'.Keeps q v r := by
  unfold execI3cRequest
  refine ⟨_, rfl, ?_⟩
  refine State.Keeps.ite h ?_
  refine State.Keeps.ite ?_ ?_
  · refine State.sendMctp_keeps ?_
    refine State.channelWrite_keeps h ?_
    intro s1 h2
    exact State.ringChannel_keeps (State.fillBuffer_keeps h2)
  · refine State.channelWrite_keeps h ?_
    intro s3 h4
    exact State.ringChannel_keeps (State.fillBuffer_keeps h4)

theorem State.sendDoe_keeps {s : State} {d : Doe} (h : s.Keeps q v r) :
    (State.sendDoe s d).Keeps q v r := by
  unfold State.sendDoe
  exact State.modHif_keeps h (fun _ hn => hn)

theorem State.freeResponse_keeps {s : State} {n : Nat} (h : s.Keeps q v r) : (s.freeResponse n).2.Keeps q v r := by
  induction n generalizing s with
  | zero => exact h
  | succ n ih => exact ih (State.draw_keeps h)

theorem execSpdmRequest_keeps {z1 : SpdmRequest} {s : State} (h : s.Keeps q v r) :
    ∃ s', execSpdmRequest z1 s = .next s' ∧ s'.Keeps q v r := by
  unfold execSpdmRequest
  refine ⟨_, rfl, ?_⟩
  refine State.Keeps.ite h ?_
  split
  · exact State.Keeps.ite (State.sendDoe_keeps h) (State.sendDoe_keeps (State.modHif_keeps h (fun _ hn => hn)))
  · exact State.sendDoe_keeps h
  · extract_lets -underBinder +onlyGivenNames n1
    have h2 : n1.2.Keeps q v r := State.freeResponse_keeps h
    clear_value n1
    exact State.sendDoe_keeps (State.modHif_keeps h2 (fun _ hn => hn))
  · exact State.sendDoe_keeps h

/-! ### Operands -/

theorem State.setSpadRow_keeps {s : State} {t : Nat} {row : Nat} {bs : List Byte} (h : s.Keeps q v r) :
    (State.setSpadRow s t row bs).Keeps q v r := by
  unfold State.setSpadRow
  exact State.modStore_keeps h (fun _ hm => ⟨hm.1, hm.2.1, hm.2.2.1, Mem.wf_writeN hm.2.2.2.1 _ _, hm.2.2.2.2⟩)

theorem State.setDataBytes_keeps {s : State} {t : Nat} {a : Nat} {bs : List Byte} (h : s.Keeps q v r) :
    (State.setDataBytes s t a bs).Keeps q v r := by
  unfold State.setDataBytes
  exact State.modStore_keeps h (fun _ hm => ⟨hm.1, hm.2.1, hm.2.2.1, hm.2.2.2.1, Mem.wf_writeN hm.2.2.2.2.1 _ _, hm.2.2.2.2.2⟩)

/-! ### Flags -/

theorem State.ledgerAdd_keeps {s : State} {t : Nat} {tensor : Word} {y : Tally} (h : s.Keeps q v r) :
    (State.ledgerAdd s t tensor y).Keeps q v r := by
  unfold State.ledgerAdd
  extract_lets -underBinder +onlyGivenNames n1 n2 n3 n4 n5
  exact State.Keeps.ite (State.modTile_keeps h (fun _ hx => hx)) (State.modNets_keeps (State.modTile_keeps h (fun _ hx => hx)))

theorem State.sendNonFinite_keeps {s : State} {t : Nat} {z3 : Nat} {code : Nat} {count : Nat} {tensor : Word} (h : s.Keeps q v r) :
    (State.sendNonFinite s t z3 code count tensor).Keeps q v r := by
  unfold State.sendNonFinite
  exact State.Keeps.ite h (State.modNets_keeps h)

theorem State.book_keeps {s : State} {t e : Nat} {rg : OutRegs} {xr : Bool} {tensor : Word} {y : Tally} (h : s.Keeps q v r) :
    (s.book t e rg xr tensor y).Keeps q v r :=
  have h1 := State.Keeps.ite (c := y.nan + y.inf = 0) h (State.bump_keeps (a := rg.nonfin) (n := y.nan + y.inf) h)
  State.sendNonFinite_keeps (State.sendNonFinite_keeps (State.sendNonFinite_keeps
    (State.Keeps.ite (State.ledgerAdd_keeps (State.bump64_keeps (State.setReg_keeps h1))) h1)))

/-! ### Counters -/

theorem State.setVoid_keeps {s : State} {p : Nat} (h : s.Keeps q v r) :
    (State.setVoid s p).Keeps q v r := by
  unfold State.setVoid
  exact State.setReg_keeps h

theorem State.countOverrun_keeps {s : State} {p : Nat} {t : Nat} {idx : Nat} {near : Bool} (h : s.Keeps q v r) :
    (State.countOverrun s p t idx near).Keeps q v r := by
  unfold State.countOverrun
  extract_lets -underBinder +onlyGivenNames n1 s2
  have h3 : s2.Keeps q v r := State.setVoid_keeps (State.bump64_keeps h)
  clear_value s2
  extract_lets -underBinder +onlyGivenNames s4
  have h5 : s4.Keeps q v r := State.modTile_keeps h3 (fun _ hx => hx)
  clear_value s4
  refine State.Keeps.ite ?_ h5
  extract_lets -underBinder +onlyGivenNames s6
  have h7 : s6.Keeps q v r := State.setReg_keeps h5
  clear_value s6
  extract_lets -underBinder +onlyGivenNames s8
  have h9 : s8.Keeps q v r := State.setReg_keeps h7
  clear_value s8
  extract_lets -underBinder +onlyGivenNames s10
  have h11 : s10.Keeps q v r := State.setIrq_keeps h9
  clear_value s10
  exact State.Keeps.ite (State.raisePart_keeps h11) h11

theorem State.recordLate_keeps {s : State} {p : Nat} {t : Nat} {idx : Nat} {lateness : Nat} {near : Bool} (h : s.Keeps q v r) :
    (State.recordLate s p t idx lateness near).Keeps q v r := by
  unfold State.recordLate
  extract_lets -underBinder +onlyGivenNames n1 s2
  have h3 : s2.Keeps q v r := State.setReg_keeps h
  clear_value s2
  extract_lets -underBinder +onlyGivenNames s4
  have h5 : s4.Keeps q v r := State.Keeps.ite (State.setReg_keeps (State.setReg_keeps h3)) h3
  clear_value s4
  exact State.Keeps.ite (State.setReg_keeps h5) h5

theorem State.checkpointMet_keeps {s : State} {p : Nat} {t : Nat} {idx : Nat} {c : Checkpoint} (h : s.Keeps q v r) :
    (State.checkpointMet s p t idx c).Keeps q v r := by
  unfold State.checkpointMet
  extract_lets -underBinder +onlyGivenNames n1
  refine State.Keeps.ite h ?_
  split
  · exact State.modTile_keeps h (fun _ hx => hx)
  · extract_lets -underBinder +onlyGivenNames n2 n3 s4
    have h5 : s4.Keeps q v r := State.modTile_keeps h (fun _ hx => hx)
    clear_value s4
    refine State.Keeps.ite ?_ h5
    extract_lets -underBinder +onlyGivenNames s6
    have h7 : s6.Keeps q v r := State.Keeps.ite h5 (State.countOverrun_keeps h5)
    clear_value s6
    extract_lets -underBinder +onlyGivenNames s8
    have h9 : s8.Keeps q v r := State.modTile_keeps h7 (fun _ hx => hx)
    clear_value s8
    exact State.recordLate_keeps h9

theorem State.flushLedger_keeps {s : State} {p : Nat} {t : Nat} (h : s.Keeps q v r) :
    (State.flushLedger s p t).Keeps q v r := by
  unfold State.flushLedger
  extract_lets -underBinder +onlyGivenNames n1
  exact State.modNets_keeps (State.modTile_keeps h (fun _ hx => hx))

theorem State.endSlots_keeps {s : State} {p : Nat} (h : s.Keeps q v r) :
    (State.endSlots s p).Keeps q v r := by
  unfold State.endSlots
  extract_lets -underBinder +onlyGivenNames s1
  have h2 : s1.Keeps q v r := State.Keeps.ite (State.modPld_keeps h) h
  clear_value s1
  extract_lets -underBinder +onlyGivenNames n3
  exact State.Keeps.ite (State.modPld_keeps h2) h2

theorem State.observe_keeps {s : State} {t : Nat} {c : Nat} (h : s.Keeps q v r) :
    (State.observe s t c).Keeps q v r := by
  unfold State.observe
  refine State.Keeps.ite h ?_
  extract_lets -underBinder +onlyGivenNames n1 s2
  have h3 : s2.Keeps q v r := State.modTile_keeps h (fun _ hx => hx)
  clear_value s2
  extract_lets -underBinder +onlyGivenNames n4 n5 n6 s7
  have h8 : s7.Keeps q v r := by
    refine State.forEach_keeps h3 ?_
    intro s9 x11 h10
    exact State.checkpointMet_keeps h10
  clear_value s7
  exact State.Keeps.ite (State.endSlots_keeps (State.flushLedger_keeps h8)) h8

theorem State.increment_keeps {s : State} {t : Nat} {c : Nat} (h : s.Keeps q v r) :
    (State.increment s t c).Keeps q v r := by
  unfold State.increment
  extract_lets -underBinder +onlyGivenNames n1
  exact State.Keeps.ite (State.raiseTile_keeps h) (State.observe_keeps (State.modTile_keeps h (fun _ hx => Tile.setCtr_wf hx)))

theorem State.incrementSlot_keeps {s : State} {t : Nat} {c : Nat} (h : s.Keeps q v r) :
    (State.incrementSlot s t c).Keeps q v r := by
  unfold State.incrementSlot
  extract_lets -underBinder +onlyGivenNames n1
  exact State.Keeps.ite (State.raiseTile_keeps h) (State.modTile_keeps h (fun _ hx => Tile.setCtr_wf hx))

theorem State.grant_keeps {s : State} {t : Nat} {c : Nat} (h : s.Keeps q v r) :
    (State.grant s t c).Keeps q v r := by
  unfold State.grant
  extract_lets -underBinder +onlyGivenNames n1 s2
  have h3 : s2.Keeps q v r := State.modTile_keeps h (fun _ hx => Tile.setCtr_wf hx)
  clear_value s2
  refine State.Keeps.ite ?_ h3
  extract_lets -underBinder +onlyGivenNames n4 s5
  have h6 : s5.Keeps q v r := State.modTile_keeps h3 (fun _ hx => by split <;> exact hx)
  clear_value s5
  exact State.bump_keeps h6

theorem State.enterDone_keeps {s : State} {t : Nat} (h : s.Keeps q v r) :
    (State.enterDone s t).Keeps q v r := by
  unfold State.enterDone
  exact State.setIrq_keeps (State.modTcc_keeps h (fun _ hx => hx))

/-! ### Tcc -/

theorem State.retire_keeps {s : State} {t : Nat} {f : Tcc → Tcc} (h : s.Keeps q v r) (hf : ∀ x : Tcc, x.Wf → (f x).Wf) :
    (s.retire t f).Keeps q v r := State.bump64_keeps (State.modTcc_keeps h hf)

theorem State.stallTcc_keeps {s : State} {t : Nat} {z3 : Stall} (h : s.Keeps q v r) :
    (State.stallTcc s t z3).Keeps q v r := by
  unfold State.stallTcc
  exact State.modTcc_keeps h (fun _ hx => hx)

theorem State.countStall_keeps {s : State} {t : Nat} (h : s.Keeps q v r) :
    (State.countStall s t).Keeps q v r := by
  unfold State.countStall
  split
  · exact State.modTcc_keeps (State.bump_keeps h) (fun _ hx => hx)
  · exact h

theorem State.endStall_keeps {s : State} {t : Nat} (h : s.Keeps q v r) :
    (State.endStall s t).Keeps q v r := by
  unfold State.endStall
  exact State.modTcc_keeps (State.countStall_keeps h) (fun _ hx => hx)

theorem State.resolve_keeps {s : State} {t : Nat} {taken : Bool} (h : s.Keeps q v r) :
    (State.resolve s t taken).Keeps q v r := by
  unfold State.resolve
  extract_lets -underBinder +onlyGivenNames n1 n2 n3 n4 s5
  have h6 : s5.Keeps q v r := State.modTcc_keeps h (fun _ hx => ⟨hx.1, hx.2.1, Table.sorted_put hx.2.2 _ _ _⟩)
  clear_value s5
  exact State.Keeps.ite h6 (State.bump_keeps h6)

theorem State.spadCorrected_keeps {s : State} {t : Nat} {row : Nat} (h : s.Keeps q v r) :
    (State.spadCorrected s t row).Keeps q v r := by
  unfold State.spadCorrected
  exact State.setReg_keeps (State.bump64_keeps h)

theorem State.spadLost_keeps {s : State} {t : Nat} {kind : Nat} {row : Nat} (h : s.Keeps q v r) :
    (State.spadLost s t kind row).Keeps q v r := by
  unfold State.spadLost
  extract_lets -underBinder +onlyGivenNames s1
  have h2 : s1.Keeps q v r := State.modSpares_keeps h
  clear_value s1
  exact State.raiseTile_keeps (State.bump_keeps h2)

theorem State.haltTcc_keeps {s : State} {t : Nat} (h : s.Keeps q v r) :
    (State.haltTcc s t).Keeps q v r := by
  unfold State.haltTcc
  extract_lets -underBinder +onlyGivenNames s1
  have h2 : s1.Keeps q v r := State.retire_keeps h (fun _ hx => hx)
  clear_value s1
  exact State.Keeps.ite (State.enterDone_keeps h2) h2

theorem State.jump_keeps {s : State} {t : Nat} {ra : BitVec 5} (h : s.Keeps q v r) :
    (State.jump s t ra).Keeps q v r := by
  unfold State.jump
  extract_lets -underBinder +onlyGivenNames n1 n2
  refine State.Keeps.ite (State.raiseTile_keeps h) ?_
  extract_lets -underBinder +onlyGivenNames n3 s4
  have h5 : s4.Keeps q v r := State.retire_keeps h (fun _ hx => hx)
  clear_value s4
  exact State.Keeps.ite h5 (State.bump_keeps h5)

theorem State.issue_keeps {s : State} {t : Nat} {op : TccOp} {granted : Bool} {ecc : RowEcc} (h : s.Keeps q v r) :
    (s.issue t op granted ecc).Keeps q v r := by
  unfold State.issue
  extract_lets +onlyGivenNames x write
  have hw : ∀ rd w, (write rd w).Keeps q v r := fun rd w => State.retire_keeps h (fun _ hx => Tcc.setS_wf hx)
  clear_value write
  split
  · exact hw _ _
  · exact hw _ _
  · exact hw _ _
  · exact hw _ _
  · exact hw _ _
  · exact hw _ _
  · exact hw _ _
  · exact hw _ _
  · exact State.Keeps.ite (hw _ _) (State.raiseTile_keeps h)
  · exact State.Keeps.ite (State.retire_keeps (State.setDataBytes_keeps h) (fun _ hx => hx)) (State.raiseTile_keeps h)
  · exact State.retire_keeps h (fun _ hx => Tcc.setP_wf hx)
  · exact State.retire_keeps h (fun _ hx => Tcc.setP_wf hx)
  · exact State.retire_keeps h (fun _ hx => hx)
  · exact State.retire_keeps h (fun _ hx => Tcc.setS_wf hx)
  · exact State.jump_keeps h
  · exact State.Keeps.ite (State.stallTcc_keeps h) (State.retire_keeps (State.modEngine_keeps h) (fun _ hx => hx))
  · exact State.stallTcc_keeps h
  · exact State.Keeps.ite (State.increment_keeps h) (State.retire_keeps (State.increment_keeps h) (fun _ hx => hx))
  · exact State.Keeps.ite (State.retire_keeps h (fun _ hx => hx)) (State.stallTcc_keeps h)
  · refine State.Keeps.ite (State.stallTcc_keeps h) ?_
    split
    · exact State.modTcc_keeps (State.spadLost_keeps h) (fun _ hx => hx)
    · refine State.retire_keeps (State.setDataBytes_keeps ?_) (fun _ hx => hx)
      split
      · exact State.spadCorrected_keeps h
      · exact h
  · exact State.Keeps.ite (State.stallTcc_keeps h) (State.retire_keeps (State.setSpadRow_keeps h) (fun _ hx => hx))
  · exact State.retire_keeps h (fun _ hx => Tcc.setS_wf hx)
  · exact State.haltTcc_keeps h

theorem State.guarded_keeps {s : State} {t : Nat} {g : Guard} {op : TccOp} {granted : Bool} {ecc : RowEcc} (h : s.Keeps q v r) :
    (State.guarded s t g op granted ecc).Keeps q v r := by
  unfold State.guarded
  extract_lets -underBinder +onlyGivenNames n1 s2
  have h3 : s2.Keeps q v r := State.Keeps.ite (State.resolve_keeps h) h
  clear_value s2
  exact State.Keeps.ite (State.issue_keeps h3) (State.retire_keeps h3 (fun _ hx => hx))

theorem State.tcc_keeps {s : State} {t : TileId} {g : Guard} {op : TccOp} {granted : Bool} {ecc : RowEcc} (h : s.Keeps q v r) :
    (State.tcc s t g op granted ecc).Keeps q v r := by
  unfold State.tcc
  exact State.Keeps.ite (State.guarded_keeps h) h

theorem execAlu_keeps {t : TileId} {g : Guard} {rd : BitVec 5} {ra : BitVec 5} {rb : BitVec 5} {func : BitVec 7} {s : State} (h : s.Keeps q v r) :
    ∃ s', execAlu t g rd ra rb func s = .next s' ∧ s'.Keeps q v r := by
  unfold execAlu
  refine ⟨_, rfl, ?_⟩
  exact State.tcc_keeps h

theorem execAddi_keeps {t : TileId} {g : Guard} {rd : BitVec 5} {ra : BitVec 5} {imm : BitVec 12} {s : State} (h : s.Keeps q v r) :
    ∃ s', execAddi t g rd ra imm s = .next s' ∧ s'.Keeps q v r := by
  unfold execAddi
  refine ⟨_, rfl, ?_⟩
  exact State.tcc_keeps h

theorem execAndi_keeps {t : TileId} {g : Guard} {rd : BitVec 5} {ra : BitVec 5} {imm : BitVec 12} {s : State} (h : s.Keeps q v r) :
    ∃ s', execAndi t g rd ra imm s = .next s' ∧ s'.Keeps q v r := by
  unfold execAndi
  refine ⟨_, rfl, ?_⟩
  exact State.tcc_keeps h

theorem execOri_keeps {t : TileId} {g : Guard} {rd : BitVec 5} {ra : BitVec 5} {imm : BitVec 12} {s : State} (h : s.Keeps q v r) :
    ∃ s', execOri t g rd ra imm s = .next s' ∧ s'.Keeps q v r := by
  unfold execOri
  refine ⟨_, rfl, ?_⟩
  exact State.tcc_keeps h

theorem execXori_keeps {t : TileId} {g : Guard} {rd : BitVec 5} {ra : BitVec 5} {imm : BitVec 12} {s : State} (h : s.Keeps q v r) :
    ∃ s', execXori t g rd ra imm s = .next s' ∧ s'.Keeps q v r := by
  unfold execXori
  refine ⟨_, rfl, ?_⟩
  exact State.tcc_keeps h

theorem execShi_keeps {t : TileId} {g : Guard} {rd : BitVec 5} {ra : BitVec 5} {imm : BitVec 12} {s : State} (h : s.Keeps q v r) :
    ∃ s', execShi t g rd ra imm s = .next s' ∧ s'.Keeps q v r := by
  unfold execShi
  refine ⟨_, rfl, ?_⟩
  exact State.tcc_keeps h

theorem execMovi_keeps {t : TileId} {g : Guard} {rd : BitVec 5} {imm : BitVec 17} {s : State} (h : s.Keeps q v r) :
    ∃ s', execMovi t g rd imm s = .next s' ∧ s'.Keeps q v r := by
  unfold execMovi
  refine ⟨_, rfl, ?_⟩
  exact State.tcc_keeps h

theorem execLui_keeps {t : TileId} {g : Guard} {rd : BitVec 5} {imm : BitVec 17} {s : State} (h : s.Keeps q v r) :
    ∃ s', execLui t g rd imm s = .next s' ∧ s'.Keeps q v r := by
  unfold execLui
  refine ⟨_, rfl, ?_⟩
  exact State.tcc_keeps h

theorem execLdw_keeps {t : TileId} {g : Guard} {rd : BitVec 5} {ra : BitVec 5} {imm : BitVec 12} {s : State} (h : s.Keeps q v r) :
    ∃ s', execLdw t g rd ra imm s = .next s' ∧ s'.Keeps q v r := by
  unfold execLdw
  refine ⟨_, rfl, ?_⟩
  exact State.tcc_keeps h

theorem execStw_keeps {t : TileId} {g : Guard} {rd : BitVec 5} {ra : BitVec 5} {imm : BitVec 12} {s : State} (h : s.Keeps q v r) :
    ∃ s', execStw t g rd ra imm s = .next s' ∧ s'.Keeps q v r := by
  unfold execStw
  refine ⟨_, rfl, ?_⟩
  exact State.tcc_keeps h

theorem execCmp_keeps {t : TileId} {g : Guard} {pd : BitVec 3} {ra : BitVec 5} {rb : BitVec 5} {cond : BitVec 3} {s : State} (h : s.Keeps q v r) :
    ∃ s', execCmp t g pd ra rb cond s = .next s' ∧ s'.Keeps q v r := by
  unfold execCmp
  refine ⟨_, rfl, ?_⟩
  exact State.tcc_keeps h

theorem execPlog_keeps {t : TileId} {g : Guard} {pd : BitVec 3} {pa : BitVec 3} {pb : BitVec 3} {func : BitVec 2} {s : State} (h : s.Keeps q v r) :
    ∃ s', execPlog t g pd pa pb func s = .next s' ∧ s'.Keeps q v r := by
  unfold execPlog
  refine ⟨_, rfl, ?_⟩
  exact State.tcc_keeps h

theorem execBr_keeps {t : TileId} {g : Guard} {off : BitVec 22} {s : State} (h : s.Keeps q v r) :
    ∃ s', execBr t g off s = .next s' ∧ s'.Keeps q v r := by
  unfold execBr
  refine ⟨_, rfl, ?_⟩
  exact State.tcc_keeps h

theorem execCall_keeps {t : TileId} {g : Guard} {off : BitVec 22} {s : State} (h : s.Keeps q v r) :
    ∃ s', execCall t g off s = .next s' ∧ s'.Keeps q v r := by
  unfold execCall
  refine ⟨_, rfl, ?_⟩
  exact State.tcc_keeps h

theorem execJr_keeps {t : TileId} {g : Guard} {ra : BitVec 5} {s : State} (h : s.Keeps q v r) :
    ∃ s', execJr t g ra s = .next s' ∧ s'.Keeps q v r := by
  unfold execJr
  refine ⟨_, rfl, ?_⟩
  exact State.tcc_keeps h

theorem execCmd_keeps {t : TileId} {g : Guard} {z3 : BitVec 3} {ra : BitVec 5} {s : State} (h : s.Keeps q v r) :
    ∃ s', execCmd t g z3 ra s = .next s' ∧ s'.Keeps q v r := by
  unfold execCmd
  refine ⟨_, rfl, ?_⟩
  exact State.tcc_keeps h

theorem execWaitev_keeps {t : TileId} {g : Guard} {ra : BitVec 5} {imm : BitVec 12} {s : State} (h : s.Keeps q v r) :
    ∃ s', execWaitev t g ra imm s = .next s' ∧ s'.Keeps q v r := by
  unfold execWaitev
  refine ⟨_, rfl, ?_⟩
  exact State.tcc_keeps h

theorem execSigev_keeps {t : TileId} {g : Guard} {ra : BitVec 5} {imm : BitVec 12} {s : State} (h : s.Keeps q v r) :
    ∃ s', execSigev t g ra imm s = .next s' ∧ s'.Keeps q v r := by
  unfold execSigev
  refine ⟨_, rfl, ?_⟩
  exact State.tcc_keeps h

theorem execFence_keeps {t : TileId} {g : Guard} {imm : BitVec 12} {s : State} (h : s.Keeps q v r) :
    ∃ s', execFence t g imm s = .next s' ∧ s'.Keeps q v r := by
  unfold execFence
  refine ⟨_, rfl, ?_⟩
  exact State.tcc_keeps h

theorem execSpxr_keeps {t : TileId} {g : Guard} {ra : BitVec 5} {imm : BitVec 12} {granted : Bool} {ecc : RowEcc} {s : State} (h : s.Keeps q v r) :
    ∃ s', execSpxr t g ra imm granted ecc s = .next s' ∧ s'.Keeps q v r := by
  unfold execSpxr
  refine ⟨_, rfl, ?_⟩
  exact State.tcc_keeps h

theorem execSpxw_keeps {t : TileId} {g : Guard} {ra : BitVec 5} {imm : BitVec 12} {granted : Bool} {s : State} (h : s.Keeps q v r) :
    ∃ s', execSpxw t g ra imm granted s = .next s' ∧ s'.Keeps q v r := by
  unfold execSpxw
  refine ⟨_, rfl, ?_⟩
  exact State.tcc_keeps h

theorem execRdcsr_keeps {t : TileId} {g : Guard} {rd : BitVec 5} {imm : BitVec 12} {s : State} (h : s.Keeps q v r) :
    ∃ s', execRdcsr t g rd imm s = .next s' ∧ s'.Keeps q v r := by
  unfold execRdcsr
  refine ⟨_, rfl, ?_⟩
  exact State.tcc_keeps h

theorem execHalt_keeps {t : TileId} {g : Guard} {s : State} (h : s.Keeps q v r) :
    ∃ s', execHalt t g s = .next s' ∧ s'.Keeps q v r := by
  unfold execHalt
  refine ⟨_, rfl, ?_⟩
  exact State.tcc_keeps h

theorem execStallEnd_keeps {t : TileId} {s : State} (h : s.Keeps q v r) :
    ∃ s', execStallEnd t s = .next s' ∧ s'.Keeps q v r := by
  unfold execStallEnd
  refine ⟨_, rfl, ?_⟩
  split
  · exact State.Keeps.ite (State.endStall_keeps h) h
  · exact h

theorem execTccDone_keeps {t : TileId} {s : State} (h : s.Keeps q v r) :
    ∃ s', execTccDone t s = .next s' ∧ s'.Keeps q v r := by
  unfold execTccDone
  refine ⟨_, rfl, ?_⟩
  exact State.Keeps.ite (State.enterDone_keeps h) h

theorem State.startTcc_keeps {s : State} {t : Nat} (h : s.Keeps q v r) :
    (State.startTcc s t).Keeps q v r := by
  unfold State.startTcc
  exact State.modTcc_keeps h (fun _ hx => by split <;> (try split) <;> first | exact hx | exact ⟨hx.1, hx.2.1, Table.sorted_nil⟩)

theorem State.noteCtl_keeps {s : State} {t : Nat} {bits : Nat} (h : s.Keeps q v r) :
    (State.noteCtl s t bits).Keeps q v r := by
  unfold State.noteCtl
  exact State.setReg_keeps h

theorem State.writeStart_keeps {s : State} {t : Nat} (h : s.Keeps q v r) :
    (State.writeStart s t).Keeps q v r := by
  unfold State.writeStart
  refine State.Keeps.ite (State.ignoreWrite_keeps h) ?_
  extract_lets -underBinder +onlyGivenNames s1
  have h2 : s1.Keeps q v r := State.noteCtl_keeps h
  clear_value s1
  exact State.Keeps.ite (State.startTcc_keeps h2) h2

theorem State.stepTcc_keeps {s : State} {t : Nat} {ecc : RowEcc} (h : s.Keeps q v r) :
    (State.stepTcc s t ecc).Keeps q v r := by
  unfold State.stepTcc
  extract_lets -underBinder +onlyGivenNames n1 s2
  have h3 : s2.Keeps q v r := State.modTcc_keeps (State.countStall_keeps h) (fun _ hx => hx)
  clear_value s2
  split
  · exact h
  · extract_lets -underBinder +onlyGivenNames s4
    have h5 : s4.Keeps q v r := State.guarded_keeps h3
    clear_value s4
    extract_lets -underBinder +onlyGivenNames s6
    have h7 : s6.Keeps q v r := by
      unfold s6
      split
      · exact State.Keeps.ite h5 (State.retire_keeps (State.grant_keeps h5) (fun _ hx => hx))
      · exact h5
    clear_value s6
    exact State.modTcc_keeps h7 (fun _ hx => by split <;> exact hx)

theorem State.writeStep_keeps {s : State} {t : Nat} {ecc : RowEcc} (h : s.Keeps q v r) :
    (State.writeStep s t ecc).Keeps q v r := by
  unfold State.writeStep
  extract_lets -underBinder +onlyGivenNames s1
  have h2 : s1.Keeps q v r := State.noteCtl_keeps h
  clear_value s1
  extract_lets -underBinder +onlyGivenNames n3
  exact State.Keeps.ite (State.stepTcc_keeps h2) h2

/-! ### Events -/

theorem State.startHead_keeps {s : State} {t : Nat} {z3 : Nat} (h : s.Keeps q v r) :
    (State.startHead s t z3).Keeps q v r := by
  unfold State.startHead
  extract_lets -underBinder +onlyGivenNames n1
  split
  · exact h
  · refine State.Keeps.ite h ?_
    extract_lets -underBinder +onlyGivenNames s2
    have h3 : s2.Keeps q v r := State.Keeps.ite (State.grant_keeps h) h
    clear_value s2
    extract_lets -underBinder +onlyGivenNames s4
    have h5 : s4.Keeps q v r := State.modTile_keeps h3 (fun _ hx => Tile.activate_wf hx)
    clear_value s4
    exact State.Keeps.ite h5 (State.raiseEngine_keeps h5)

theorem State.grantTcc_keeps {s : State} {t : Nat} (h : s.Keeps q v r) :
    (State.grantTcc s t).Keeps q v r := by
  unfold State.grantTcc
  extract_lets -underBinder +onlyGivenNames n1
  split
  · exact State.Keeps.ite (State.retire_keeps (State.endStall_keeps (State.grant_keeps h)) (fun _ hx => hx)) h
  · exact h

theorem State.deliverSync_keeps {s : State} {t : Nat} (h : s.Keeps q v r) :
    (State.deliverSync s t).Keeps q v r := by
  unfold State.deliverSync
  split
  · exact State.modTile_keeps h (fun _ hx => hx)
  · exact State.increment_keeps (State.modTile_keeps h (fun _ hx => hx))

theorem execWaitGrant_keeps {t : TileId} {s : State} (h : s.Keeps q v r) :
    ∃ u, execWaitGrant t s = .next u ∧ u.Keeps q v r := by
  unfold execWaitGrant
  refine ⟨_, rfl, State.Keeps.ite (State.deliverSync_keeps ?_) h⟩
  exact State.forEach_keeps (f := fun s q => s.startHead t.toNat q) (State.grantTcc_keeps h)
    (fun _ _ hx => State.startHead_keeps hx)

theorem State.modActive_keeps {s : State} {t : Nat} {z3 : Nat} {seq : Nat} {f : Active → Active} (h : s.Keeps q v r) :
    (State.modActive s t z3 seq f).Keeps q v r := by
  unfold State.modActive
  exact State.modEngine_keeps h

theorem State.finish_keeps {s : State} {t : Nat} {z3 : Nat} {seq : Nat} (h : s.Keeps q v r) :
    (State.finish s t z3 seq).Keeps q v r := by
  unfold State.finish
  exact State.modActive_keeps h

theorem State.countCompletion_keeps {s : State} {t : Nat} {z3 : Nat} {a : Active} (h : s.Keeps q v r) :
    (State.countCompletion s t z3 a).Keeps q v r := by
  unfold State.countCompletion
  refine State.Keeps.ite ?_ (State.Keeps.ite (State.bump64_keeps h) (State.Keeps.ite (State.bump64_keeps h) h))
  extract_lets -underBinder +onlyGivenNames s1
  have h2 : s1.Keeps q v r := State.modTile_keeps h (fun _ hx => hx)
  clear_value s1
  exact State.Keeps.ite (State.bump_keeps h2) h2

theorem execCommandCompletion_keeps {t : TileId} {z2 : BitVec 3} {s : State} (h : s.Keeps q v r) :
    ∃ s', execCommandCompletion t z2 s = .next s' ∧ s'.Keeps q v r := by
  unfold execCommandCompletion
  refine ⟨_, rfl, ?_⟩
  split
  · exact h
  · refine State.Keeps.ite ?_ h
    extract_lets -underBinder +onlyGivenNames s1
    have h2 : s1.Keeps q v r := State.modEngine_keeps h
    clear_value s1
    extract_lets -underBinder +onlyGivenNames s3
    have h4 : s3.Keeps q v r := State.countCompletion_keeps h2
    clear_value s3
    extract_lets -underBinder +onlyGivenNames s5
    have h6 : s5.Keeps q v r := State.modTile_keeps h4 (fun _ hx => hx)
    clear_value s5
    exact State.Keeps.ite (State.increment_keeps h6) h6

theorem execSignal_keeps {t : TileId} {s : State} (h : s.Keeps q v r) :
    ∃ s', execSignal t s = .next s' ∧ s'.Keeps q v r := by
  unfold execSignal
  refine ⟨_, rfl, ?_⟩
  split
  · exact h
  · refine State.Keeps.ite (State.raiseEngine_keeps h) ?_
    refine State.Keeps.ite (State.freezeMaster_keeps (State.raiseEngine_keeps h)) ?_
    extract_lets -underBinder +onlyGivenNames n1 s2
    have h3 : s2.Keeps q v r := by
      refine State.forEach_keeps h ?_
      intro s4 x6 h5
      exact State.settleSync_keeps h5
    clear_value s2
    refine State.Keeps.ite h3 ?_
    extract_lets -underBinder +onlyGivenNames s7
    have h8 : s7.Keeps q v r := by
      refine State.forEach_keeps h3 ?_
      intro s9 x11 h10
      exact State.signalCrosses_keeps h10
    clear_value s7
    exact State.modNets_keeps (State.finish_keeps h8)

theorem execMark_keeps {t : TileId} {s : State} (h : s.Keeps q v r) :
    ∃ s', execMark t s = .next s' ∧ s'.Keeps q v r := by
  unfold execMark
  refine ⟨_, rfl, ?_⟩
  split
  · exact h
  · exact State.Keeps.ite (State.finish_keeps h) (State.raiseEngine_keeps h)

theorem execSignalArrival_keeps {t : TileId} {s : State} (h : s.Keeps q v r) :
    ∃ s', execSignalArrival t s = .next s' ∧ s'.Keeps q v r := by
  unfold execSignalArrival
  refine ⟨_, rfl, ?_⟩
  split
  · exact h
  · extract_lets -underBinder +onlyGivenNames s1
    have h2 : s1.Keeps q v r := State.modNets_keeps h
    clear_value s1
    refine State.Keeps.ite h2 ?_
    refine State.Keeps.ite (State.increment_keeps (State.modTile_keeps h2 (fun _ hx => hx))) ?_
    exact State.Keeps.ite (State.modTile_keeps h2 (fun _ hx => hx)) h

theorem execTilCtlStart_keeps {t : TileId} {s : State} (h : s.Keeps q v r) :
    ∃ s', execTilCtlStart t s = .next s' ∧ s'.Keeps q v r := by
  unfold execTilCtlStart
  refine ⟨_, rfl, ?_⟩
  refine State.Keeps.ite (State.answerWritten_keeps (State.writeStart_keeps (State.accessCrosses_keeps h))) ?_
  exact State.answerError_keeps h

theorem execTilCtlStep_keeps {t : Meets TileId RowEcc} {s : State} (h : s.Keeps q v r) :
    ∃ s', execTilCtlStep t s = .next s' ∧ s'.Keeps q v r := by
  unfold execTilCtlStep
  refine ⟨_, rfl, ?_⟩
  refine State.Keeps.ite (State.answerWritten_keeps (State.writeStep_keeps (State.accessCrosses_keeps h))) ?_
  exact State.answerError_keeps h

/-! ### Drain -/

theorem State.setRows_keeps {s : State} {t : Nat} {row : Nat} {rows : List Nat} (h : s.Keeps q v r) :
    (State.setRows s t row rows).Keeps q v r := by
  unfold State.setRows
  refine State.forEach_keeps h ?_
  intro s1 x3 h2
  exact State.setSpadRow_keeps h2

theorem State.reading_keeps {s : State} {t : Nat} {z3 : Nat} {seq : Nat} {ecc : RowEcc} {act : State → State} (h : s.Keeps q v r) (hact : ∀ y1, State.Keeps q v r y1 → (act y1).Keeps q v r) :
    (State.reading s t z3 seq ecc act).Keeps q v r := by
  unfold State.reading
  split
  · exact hact _ h
  · refine hact _ ?_
    refine State.forEach_keeps h ?_
    intro s1 x3 h2
    exact State.spadCorrected_keeps h2
  · exact State.spadLost_keeps (State.modActive_keeps h)

end Sys2Proof.Machine
end

