-- ==== Sys2Proof/Laws/KeepsMemory.lean ====
section
/-!
SUPPORT. What the definitions of memory access, power, program loading and polders keep.
-/

-- one proof at a time: the package as one text would start more threads than its memory limit allows
set_option Elab.async false

namespace Sys2Proof.Machine

variable {q : List Instr} {v : Nat} {r : List Entry}



/-! ### Memory -/

theorem State.memWrite_keeps {s : State} {x : Target} {bs : List Byte} (h : s.Keeps q v r) :
    (State.memWrite s x bs).Keeps q v r := by
  unfold State.memWrite
  split
  · exact State.modStore_keeps h (fun _ hm => ⟨Mem.wf_writeN hm.1 _ _, hm.2⟩)
  · exact State.modStore_keeps h (fun _ hm => ⟨hm.1, Mem.wf_writeN hm.2.1 _ _, hm.2.2⟩)
  · exact State.modStore_keeps h (fun _ hm => ⟨hm.1, hm.2.1, Mem.wf_writeN hm.2.2.1 _ _, hm.2.2.2⟩)
  · exact State.hostStore_keeps h

theorem State.countRead_keeps {s : State} {x : Target} {n : Nat} (h : s.Keeps q v r) :
    (State.countRead s x n).Keeps q v r := by
  unfold State.countRead
  exact State.Keeps.ite h (State.modStore_keeps h (fun _ hm => hm))

theorem State.memCorrected_keeps {s : State} {x : Target} (h : s.Keeps q v r) :
    (State.memCorrected s x).Keeps q v r := by
  unfold State.memCorrected
  extract_lets -underBinder +onlyGivenNames s1
  have h2 : s1.Keeps q v r := State.bump64_keeps h
  clear_value s1
  extract_lets -underBinder +onlyGivenNames s3
  have h4 : s3.Keeps q v r := State.bump_keeps h2
  clear_value s3
  exact State.setReg_keeps h4

theorem State.retireFrame_keeps {s : State} {x : Target} {code : Nat} (h : s.Keeps q v r) :
    (State.retireFrame s x code).Keeps q v r := by
  unfold State.retireFrame
  refine State.Keeps.ite h ?_
  extract_lets -underBinder +onlyGivenNames s1
  have h2 : s1.Keeps q v r := State.modStore_keeps h (fun _ hm => hm)
  clear_value s1
  extract_lets -underBinder +onlyGivenNames s3
  have h4 : s3.Keeps q v r := State.setIrq_keeps (State.bump_keeps h2)
  clear_value s3
  exact State.append_keeps h4

theorem State.pendColRow_keeps {s : State} {x : Target} (h : s.Keeps q v r) :
    (State.pendColRow s x).Keeps q v r := by
  unfold State.pendColRow
  exact State.modSpares_keeps h

theorem State.memLost_keeps {s : State} {x : Target} {p : Nat} {kind : Nat} {unit : Nat} (h : s.Keeps q v r) :
    (State.memLost s x p kind unit).Keeps q v r := by
  unfold State.memLost
  extract_lets -underBinder +onlyGivenNames s1
  have h2 : s1.Keeps q v r := State.bump_keeps h
  clear_value s1
  extract_lets -underBinder +onlyGivenNames s3
  have h4 : s3.Keeps q v r := State.setIrq_keeps (State.setReg_keeps h2)
  clear_value s3
  extract_lets -underBinder +onlyGivenNames s5
  have h6 : s5.Keeps q v r := State.logError_keeps h4
  clear_value s5
  extract_lets -underBinder +onlyGivenNames s7
  have h8 : s7.Keeps q v r := State.Keeps.ite (State.pendColRow_keeps h6) (State.retireFrame_keeps h6)
  clear_value s7
  exact State.sendCause_keeps h8

theorem State.setEntry_keeps {s : State} {i : Nat} {e : Nat} (h : s.Keeps q v r) :
    (State.setEntry s i e).Keeps q v r := by
  unfold State.setEntry
  exact State.modStore_keeps h (fun _ hm => hm)

theorem State.stopCns_keeps {s : State} {n : Nat} {p : Nat} {code : Nat} (h : s.Keeps q v r) :
    (State.stopCns s n p code).Keeps q v r := by
  unfold State.stopCns
  exact State.modCns_keeps (State.setIrq_keeps (State.setReg_keeps h))

theorem State.freezeSlot_keeps {s : State} {k : Nat} {p : Nat} {code : Nat} (h : s.Keeps q v r) :
    (State.freezeSlot s k p code).Keeps q v r := by
  unfold State.freezeSlot
  exact State.Keeps.ite (State.modSlot_keeps h) h

theorem State.raiseMaster_keeps {s : State} {p : Nat} {kind : Nat} {unit : Nat} {code : Nat} {addr : Nat} (h : s.Keeps q v r) :
    (State.raiseMaster s p kind unit code addr).Keeps q v r := by
  unfold State.raiseMaster
  extract_lets -underBinder +onlyGivenNames n1
  split
  · exact State.sendCause_keeps h
  · exact State.sendCause_keeps (State.logError_keeps (State.stopCns_keeps h))
  · exact State.sendCause_keeps (State.logError_keeps h)
  · exact State.sendCause_keeps (State.logError_keeps (State.freezeSlot_keeps h))
  · exact State.sendCause_keeps (State.logError_keeps (State.freezeSlot_keeps h))
  · exact State.sendCause_keeps (State.logError_keeps h)
  · exact State.sendCause_keeps (State.logError_keeps (State.freezeSlot_keeps h))
  · exact State.raiseTile_keeps h

theorem State.registerWatch_keeps {s : State} {z2 : Req} {x : Target} (h : s.Keeps q v r) :
    (State.registerWatch s z2 x).Keeps q v r := by
  unfold State.registerWatch
  exact State.Keeps.ite h (State.modTile_keeps h (fun _ hx => hx))

theorem State.watchCheck_keeps {s : State} {p : Nat} {kind : Nat} {unit : Nat} {va : Nat} {len : Nat} {x : Target} (h : s.Keeps q v r) :
    (State.watchCheck s p kind unit va len x).Keeps q v r := by
  unfold State.watchCheck
  refine State.forEach_keeps h ?_
  intro s1 x3 h2
  refine State.forEach_keeps h2 ?_
  intro s4 x6 h5
  refine State.Keeps.ite ?_ h5
  split
  · exact State.raiseMaster_keeps (State.setReg64_keeps h5)
  · exact h5

theorem State.discardRunAhead_keeps {s : State} {p : Nat} {va : Nat} {len : Nat} (h : s.Keeps q v r) :
    (State.discardRunAhead s p va len).Keeps q v r := by
  unfold State.discardRunAhead
  refine State.forEach_keeps h ?_
  intro s1 x3 h2
  refine State.forEach_keeps h2 ?_
  intro s4 x6 h5
  extract_lets -underBinder +onlyGivenNames n7 n8
  refine State.Keeps.ite ?_ h5
  extract_lets -underBinder +onlyGivenNames s9
  have h10 : s9.Keeps q v r := State.bump_keeps h5
  clear_value s9
  extract_lets -underBinder +onlyGivenNames n11
  exact State.modTile_keeps h10 (fun _ hx => ⟨hx.1, hx.2.1, hx.2.2.1, hx.2.2.2.1, hx.2.2.2.2.1, hx.2.2.2.2.2.1, Table.sorted_put hx.2.2.2.2.2.2 _ _ _⟩)

theorem State.curatorLands_keeps {s : State} {p : Nat} {va : Nat} {x : Target} {bs : List Byte} (h : s.Keeps q v r) :
    (State.curatorLands s p va x bs).Keeps q v r := by
  unfold State.curatorLands
  exact State.memWrite_keeps (State.discardRunAhead_keeps h)

theorem State.landWrite_keeps {s : State} {p : Nat} {kind : Nat} {unit : Nat} {va : Nat} {x : Target} {bs : List Byte} (h : s.Keeps q v r) :
    (State.landWrite s p kind unit va x bs).Keeps q v r := by
  unfold State.landWrite
  extract_lets -underBinder +onlyGivenNames s1
  have h2 : s1.Keeps q v r := State.memWrite_keeps (State.discardRunAhead_keeps (State.watchCheck_keeps h))
  clear_value s1
  exact State.Keeps.ite (State.postTlps_keeps h2) h2

theorem State.addWords_keeps {s : State} {p : Nat} {x : Target} {first : Nat} {cs : List (Int × Int)} (h : s.Keeps q v r) :
    (State.addWords s p x first cs).Keeps q v r := by
  unfold State.addWords
  extract_lets -underBinder +onlyGivenNames n1 n2 s3
  have h4 : s3.Keeps q v r := State.countRead_keeps (State.memWrite_keeps h)
  clear_value s3
  extract_lets -underBinder +onlyGivenNames s5
  have h6 : s5.Keeps q v r := State.bump_keeps h4
  clear_value s5
  exact State.Keeps.ite h6 (State.bump_keeps h6)

theorem State.addToUnit_keeps {s : State} {p : Nat} {x : Target} {first : Nat} {cs : List (Int × Int)} (h : s.Keeps q v r) :
    (State.addToUnit s p x first cs).Keeps q v r := by
  unfold State.addToUnit
  exact State.bump64_keeps (State.addWords_keeps h)

/-- Changing requests without their number, tile and polder, leaving some out, and adding one with the next number keeps them numbered. -/
theorem Numbered.map {l : List Req} {n : Nat} {f : Req → Req} (h : Numbered l n)
    (hf : ∀ r, (f r).id = r.id ∧ (f r).tile = r.tile ∧ (f r).polder = r.polder) : Numbered (l.map f) n := by
  refine ⟨List.pairwise_map.mpr (List.Pairwise.imp (fun hab => by rw [(hf _).1, (hf _).1]; exact hab) h.1), fun r hr => ?_⟩
  obtain ⟨a, ha, rfl⟩ := List.mem_map.mp hr
  rw [(hf a).1, (hf a).2.1, (hf a).2.2]; exact h.2 a ha

theorem Numbered.filter {l : List Req} {n : Nat} (h : Numbered l n) (p : Req → Bool) : Numbered (l.filter p) n :=
  ⟨List.Pairwise.filter p h.1, fun r hr => h.2 r (List.mem_filter.mp hr).1⟩

theorem Numbered.add {l : List Req} {n : Nat} (h : Numbered l n) {r : Req} (hr : r.id = n) (ht : r.tile < 256) (hp : r.polder < 32) :
    Numbered (l ++ [r]) (n + 1) := by
  refine ⟨List.pairwise_append.mpr ⟨h.1, by simp, fun a ha b hb => ?_⟩, fun a ha => ?_⟩
  · rw [List.mem_singleton.mp hb, hr]; exact Nat.ne_of_lt (h.2 a ha).1
  · rcases List.mem_append.mp ha with ha | ha
    · exact ⟨Nat.lt_succ_of_lt (h.2 a ha).1, (h.2 a ha).2⟩
    · rw [List.mem_singleton.mp ha, hr]; exact ⟨Nat.lt_succ_self n, ht, hp⟩

theorem State.modReq_keeps {s : State} {id : Nat} {f : Req → Req} (h : s.Keeps q v r)
    (hf : ∀ x, (f x).id = x.id ∧ (f x).tile = x.tile ∧ (f x).polder = x.polder := by intro _; exact ⟨rfl, rfl, rfl⟩) :
    (State.modReq s id f).Keeps q v r := by
  unfold State.modReq
  exact State.modStore_keeps h (fun _ hm => ⟨hm.1, hm.2.1, hm.2.2.1, hm.2.2.2.1, hm.2.2.2.2.1, hm.2.2.2.2.2.1, hm.2.2.2.2.2.2.1,
    hm.2.2.2.2.2.2.2.map (fun x => by split; exact hf x; exact ⟨rfl, rfl, rfl⟩)⟩)

theorem State.dropReq_keeps {s : State} {id : Nat} (h : s.Keeps q v r) :
    (State.dropReq s id).Keeps q v r := by
  unfold State.dropReq
  exact State.modStore_keeps h (fun _ hm => ⟨hm.1, hm.2.1, hm.2.2.1, hm.2.2.2.1, hm.2.2.2.2.1, hm.2.2.2.2.2.1, hm.2.2.2.2.2.2.1,
    hm.2.2.2.2.2.2.2.filter _⟩)

theorem State.loseReq_keeps {s : State} {id : Nat} (h : s.Keeps q v r) :
    (State.loseReq s id).Keeps q v r := by
  unfold State.loseReq
  exact State.modReq_keeps h

theorem State.noteFaultVa_keeps {s : State} {z2 : Req} (h : s.Keeps q v r) :
    (State.noteFaultVa s z2).Keeps q v r := by
  unfold State.noteFaultVa
  exact State.Keeps.ite h (State.setReg64_keeps h)

theorem State.waitSlot_keeps {s : State} {t : Nat} {z3 : Nat} (h : s.Keeps q v r) :
    (State.waitSlot s t z3).Keeps q v r := by
  unfold State.waitSlot
  exact State.modTile_keeps h (fun _ hx => by split <;> exact hx)

theorem State.endSlotWait_keeps {s : State} {t : Nat} {z3 : Nat} (h : s.Keeps q v r) :
    (State.endSlotWait s t z3).Keeps q v r := by
  unfold State.endSlotWait
  exact State.Keeps.ite (State.modTile_keeps (State.bump_keeps h) (fun _ hx => hx)) h

theorem State.requestLost_keeps {s : State} {z2 : Req} {x : Target} (h : s.Keeps q v r) :
    (State.requestLost s z2 x).Keeps q v r := by
  unfold State.requestLost
  exact State.memLost_keeps (State.noteFaultVa_keeps h)

theorem State.recordXl_keeps {s : State} {p : Nat} {code : Nat} {va : Nat} (h : s.Keeps q v r) :
    (State.recordXl s p code va).Keeps q v r := by
  unfold State.recordXl
  exact State.Keeps.ite (State.setReg64_keeps (State.setReg_keeps h)) h

theorem State.requestFault_keeps {s : State} {t : Nat} {z3 : Nat} {code : Nat} {va : Nat} (h : s.Keeps q v r) :
    (State.requestFault s t z3 code va).Keeps q v r := by
  unfold State.requestFault
  extract_lets -underBinder +onlyGivenNames n1 s2
  have h3 : s2.Keeps q v r := State.Keeps.ite h (State.recordXl_keeps h)
  clear_value s2
  exact State.raiseEngine_keeps (State.setReg64_keeps h3)

theorem State.markTags_keeps {s : State} (h : s.Keeps q v r) :
    (State.markTags s).Keeps q v r := by
  unfold State.markTags
  extract_lets -underBinder +onlyGivenNames n1 n2
  exact State.Keeps.ite (State.setReg_keeps h) h

theorem State.useSlot_keeps {s : State} {res : Nat} {p : Nat} {twice : Bool} (h : s.Keeps q v r) :
    (State.useSlot s res p twice).Keeps q v r := by
  unfold State.useSlot
  extract_lets -underBinder +onlyGivenNames n1 n2 n3
  exact State.modStore_keeps h (fun _ hm => hm)

theorem State.seamSlot_keeps {s : State} {n : Nat} {die : Nat} {p : Nat} (h : s.Keeps q v r) :
    (State.seamSlot s n die p).Keeps q v r := by
  unfold State.seamSlot
  extract_lets -underBinder +onlyGivenNames n1
  exact State.useSlot_keeps (State.Keeps.ite (State.bump_keeps h) h)

theorem State.polderCrosses_keeps {s : State} {p die chan flits : Nat} {l : List Nat} (h : s.Keeps q v r) :
    (s.polderCrosses p die chan flits l).Keeps q v r := by
  induction l generalizing s die with
  | nil => exact h
  | cons n rest ih => exact ih (State.crossSeam_keeps (State.seamSlot_keeps h))

theorem State.targetSlots_keeps {s : State} {p : Nat} {x : Target} {len : Nat} {twice : Bool} (h : s.Keeps q v r) :
    (State.targetSlots s p x len twice).Keeps q v r := by
  unfold State.targetSlots
  refine State.forEach_keeps h ?_
  intro s1 x3 h2
  exact State.useSlot_keeps h2

theorem State.settleSeams_keeps {s : State} (h : s.Keeps q v r) :
    (State.settleSeams s).Keeps q v r := by
  unfold State.settleSeams
  refine State.forEach_keeps h ?_
  intro s1 x3 h2
  refine State.forEach_keeps h2 ?_
  intro s4 x6 h5
  exact State.stampStall_keeps (State.stampStall_keeps h5)

theorem State.arriveAt_keeps {s : State} {id : Nat} {die : Nat} (h : s.Keeps q v r) :
    (State.arriveAt s id die).Keeps q v r := by
  unfold State.arriveAt
  extract_lets -underBinder +onlyGivenNames n1
  exact State.modStore_keeps (State.modReq_keeps h) (fun _ hm => hm)

theorem State.reachTarget_keeps {s : State} {id : Nat} (h : s.Keeps q v r) :
    (State.reachTarget s id).Keeps q v r := by
  unfold State.reachTarget
  split
  · exact h
  · split
    · exact State.Keeps.ite (State.registerWatch_keeps (State.modReq_keeps h)) (State.registerWatch_keeps h)
    · exact h

theorem State.route_keeps {s : State} {id : Nat} {x : Target} (h : s.Keeps q v r) :
    (State.route s id x).Keeps q v r := by
  unfold State.route
  split
  · exact h
  · extract_lets -underBinder +onlyGivenNames n1 n2 s3
    have h4 : s3.Keeps q v r := State.arriveAt_keeps (State.modReq_keeps h)
    clear_value s3
    exact State.Keeps.ite (State.reachTarget_keeps h4) h4

theorem State.respond_keeps {s : State} {id : Nat} {data : List Byte} (h : s.Keeps q v r) :
    (State.respond s id data).Keeps q v r := by
  unfold State.respond
  split
  · exact h
  · extract_lets -underBinder +onlyGivenNames n1
    exact State.arriveAt_keeps (State.modReq_keeps h)

theorem State.hop_keeps {s : State} {z2 : Req} {n : Nat} {rest : List Nat} (h : s.Keeps q v r) :
    (State.hop s z2 n rest).Keeps q v r := by
  unfold State.hop
  refine State.Keeps.ite (State.dropReq_keeps h) ?_
  refine State.Keeps.ite h ?_
  extract_lets -underBinder +onlyGivenNames n1 s2
  have h3 : s2.Keeps q v r := State.crossSeam_keeps (State.seamSlot_keeps h)
  clear_value s2
  extract_lets -underBinder +onlyGivenNames s4
  have h5 : s4.Keeps q v r := State.arriveAt_keeps (State.modReq_keeps h3)
  clear_value s4
  exact State.Keeps.ite (State.reachTarget_keeps h5) h5

theorem State.fillTlb_keeps {s : State} {t : Nat} {z3 : Nat} {stream : Nat} {e : TlbEntry} (h : s.Keeps q v r) :
    (State.fillTlb s t z3 stream e).Keeps q v r := by
  unfold State.fillTlb
  exact State.modTile_keeps h (fun _ hx => Tile.setTlb_wf hx)

theorem State.setWalkCache_keeps {s : State} {die : Nat} {l : List WalkEntry} (h : s.Keeps q v r) :
    (State.setWalkCache s die l).Keeps q v r := by
  unfold State.setWalkCache
  exact State.modStore_keeps h (fun _ hm => hm)

theorem State.lineCrosses_keeps {s : State} {die : Nat} {p : Nat} {line : Target} (h : s.Keeps q v r) :
    (State.lineCrosses s die p line).Keeps q v r := by
  unfold State.lineCrosses
  extract_lets -underBinder +onlyGivenNames n1
  exact State.polderCrosses_keeps (State.targetSlots_keeps (State.polderCrosses_keeps h))

theorem State.readLine_keeps {s : State} {die : Nat} {p : Nat} {w : Nat} {i : Nat} (h : s.Keeps q v r) :
    (State.readLine s die p w i).Keeps q v r := by
  unfold State.readLine
  extract_lets -underBinder +onlyGivenNames n1
  exact State.lineCrosses_keeps (State.countRead_keeps (State.bump64_keeps h))

theorem State.lineLost_keeps {s : State} {line : Target} {p : Nat} {kind : Nat} {unit : Nat} (h : s.Keeps q v r) :
    (State.lineLost s line p kind unit).Keeps q v r := by
  unfold State.lineLost
  extract_lets -underBinder +onlyGivenNames s1
  have h2 : s1.Keeps q v r := State.setReg_keeps (State.bump_keeps h)
  clear_value s1
  extract_lets -underBinder +onlyGivenNames s3
  have h4 : s3.Keeps q v r := State.logError_keeps (State.setIrq_keeps h2)
  clear_value s3
  exact State.sendCause_keeps h4

theorem State.cacheLine_keeps {s : State} {die : Nat} {p : Nat} {w : Nat} {i : Nat} (h : s.Keeps q v r) :
    (State.cacheLine s die p w i).Keeps q v r := by
  unfold State.cacheLine
  extract_lets -underBinder +onlyGivenNames n1 n2
  exact State.setWalkCache_keeps h

theorem State.walk_keeps {s : State} {die : Nat} {p : Nat} {w : Nat} {i : Nat} {ecc : Ecc} {kind : Nat} {unit : Nat} (h : s.Keeps q v r) :
    (State.walk s die p w i ecc kind unit).2.Keeps q v r := by
  unfold State.walk
  extract_lets -underBinder +onlyGivenNames s1
  have h2 : s1.Keeps q v r := State.bump64_keeps h
  clear_value s1
  split
  · extract_lets -underBinder +onlyGivenNames n3
    exact State.setWalkCache_keeps h2
  · extract_lets -underBinder +onlyGivenNames n4 s5
    have h6 : s5.Keeps q v r := State.readLine_keeps h2
    clear_value s5
    split
    · exact State.lineLost_keeps h6
    · extract_lets -underBinder +onlyGivenNames s7
      have h8 : s7.Keeps q v r := State.Keeps.ite (State.memCorrected_keeps h6) h6
      clear_value s7
      exact State.cacheLine_keeps h8

theorem State.holdWalks_keeps {s : State} {p : Nat} {hit : Nat → Nat → Bool} (h : s.Keeps q v r) :
    (State.holdWalks s p hit).Keeps q v r := by
  unfold State.holdWalks
  refine State.forEach_keeps h ?_
  intro s1 x3 h2
  refine State.forEach_keeps h2 ?_
  intro s4 x6 h5
  split
  · exact h5
  · extract_lets -underBinder +onlyGivenNames n7
    refine State.Keeps.ite ?_ h5
    extract_lets -underBinder +onlyGivenNames n8 s9
    have h10 : s9.Keeps q v r := State.Keeps.ite (State.readLine_keeps h5) h5
    clear_value s9
    exact State.modReq_keeps h10

theorem State.walkAnswer_keeps {s : State} {z2 : Req} {w : Nat} {i : Nat} {e : Nat} (h : s.Keeps q v r) :
    (State.walkAnswer s z2 w i e).Keeps q v r := by
  unfold State.walkAnswer
  split
  · exact State.requestFault_keeps (State.loseReq_keeps h)
  · extract_lets -underBinder +onlyGivenNames s1
    have h2 : s1.Keeps q v r := State.Keeps.ite (State.fillTlb_keeps h) h
    clear_value s1
    exact State.settleSeams_keeps (State.route_keeps h2)

theorem State.staleAnswer_keeps {s : State} {z2 : Req} {w : Nat} {ecc : Ecc} {e : Nat} (h : s.Keeps q v r) :
    (State.staleAnswer s z2 w ecc e).Keeps q v r := by
  unfold State.staleAnswer
  extract_lets -underBinder +onlyGivenNames s1
  have h2 : s1.Keeps q v r := State.bump64_keeps h
  clear_value s1
  extract_lets -underBinder +onlyGivenNames n3
  split
  · exact State.noteFaultVa_keeps (State.loseReq_keeps (State.lineLost_keeps h2))
  · exact State.walkAnswer_keeps (State.memCorrected_keeps h2)
  · exact State.walkAnswer_keeps h2

theorem execTableWalk_keeps {req : Nat} {ecc : Ecc} {s : State} (h : s.Keeps q v r) :
    ∃ s', execTableWalk req ecc s = .next s' ∧ s'.Keeps q v r := by
  unfold execTableWalk
  refine ⟨_, rfl, ?_⟩
  split
  · exact h
  · extract_lets -underBinder +onlyGivenNames n1
    refine State.Keeps.ite h ?_
    refine State.Keeps.ite (State.dropReq_keeps h) ?_
    split
    · exact h
    · exact State.staleAnswer_keeps h
    · extract_lets -underBinder +onlyGivenNames n2
      have h3 : n2.2.Keeps q v r := State.walk_keeps h
      clear_value n2
      split
      · exact State.walkAnswer_keeps h3
      · exact State.noteFaultVa_keeps (State.loseReq_keeps h3)

theorem State.joinRow_keeps {s : State} {z2 : Req} {die : Nat} {bank : Nat} {row : Nat} (h : s.Keeps q v r) :
    (State.joinRow s z2 die bank row).Keeps q v r := by
  unfold State.joinRow
  refine State.Keeps.ite (State.modStore_keeps h (fun _ hm => hm)) ?_
  extract_lets -underBinder +onlyGivenNames n1
  exact State.countRead_keeps (State.modStore_keeps h (fun _ hm => hm))

theorem State.serveRead_keeps {s : State} {z2 : Req} {x : Target} (h : s.Keeps q v r) :
    (State.serveRead s z2 x).Keeps q v r := by
  unfold State.serveRead
  exact State.countRead_keeps (State.respond_keeps h)

theorem State.serveMerged_keeps {s : State} {z2 : Req} {x : Target} (h : s.Keeps q v r) :
    (State.serveMerged s z2 x).Keeps q v r := by
  unfold State.serveMerged
  extract_lets -underBinder +onlyGivenNames s1
  have h2 : s1.Keeps q v r := State.modReq_keeps h
  clear_value s1
  refine State.forEach_keeps h2 ?_
  intro s3 x5 h4
  exact State.joinRow_keeps h4

theorem State.spoilMerged_keeps {s : State} {z2 : Req} {x : Target} (h : s.Keeps q v r) :
    (State.spoilMerged s z2 x).Keeps q v r := by
  unfold State.spoilMerged
  extract_lets -underBinder +onlyGivenNames n1 s2
  have h3 : s2.Keeps q v r := State.serveMerged_keeps (State.requestLost_keeps h)
  clear_value s2
  exact State.modStore_keeps h3 (fun _ hm => hm)

theorem State.closeMerges_keeps {s : State} {x : Target} {len : Nat} (h : s.Keeps q v r) :
    (State.closeMerges s x len).Keeps q v r := by
  unfold State.closeMerges
  exact State.Keeps.ite (State.modStore_keeps h (fun _ hm => hm)) h

theorem State.showViolation_keeps {s : State} {x : Target} {code : Nat} (h : s.Keeps q v r) :
    (State.showViolation s x code).Keeps q v r := by
  unfold State.showViolation
  exact State.setIrq_keeps (State.setReg_keeps h)

theorem State.accViolation_keeps {s : State} {z2 : Req} {x : Target} {code : Nat} (h : s.Keeps q v r) :
    (State.accViolation s z2 x code).Keeps q v r := by
  unfold State.accViolation
  extract_lets -underBinder +onlyGivenNames s1
  have h2 : s1.Keeps q v r := State.showViolation_keeps h
  clear_value s1
  exact State.raiseEngine_keeps (State.setReg64_keeps (State.loseReq_keeps h2))

theorem State.serveWrite_keeps {s : State} {z2 : Req} {x : Target} (h : s.Keeps q v r) :
    (State.serveWrite s z2 x).Keeps q v r := by
  unfold State.serveWrite
  exact State.respond_keeps (State.landWrite_keeps (State.closeMerges_keeps h))

theorem State.takeSlots_keeps {s : State} {z2 : Req} {twice : Bool} (h : s.Keeps q v r) :
    (State.takeSlots s z2 twice).Keeps q v r := by
  unfold State.takeSlots
  refine State.forEach_keeps h ?_
  intro s1 x3 h2
  exact State.useSlot_keeps h2

theorem State.serveAtTarget_keeps {s : State} {z2 : Req} {x : Target} {ecc : Ecc} (h : s.Keeps q v r) :
    (State.serveAtTarget s z2 x ecc).Keeps q v r := by
  unfold State.serveAtTarget
  refine State.Keeps.ite ?_ ?_
  · exact State.Keeps.ite (State.serveWrite_keeps h) (State.Keeps.ite h (State.accViolation_keeps h))
  · split
    · exact State.Keeps.ite (State.spoilMerged_keeps h) (State.requestLost_keeps (State.loseReq_keeps h))
    · extract_lets -underBinder +onlyGivenNames s1
      have h2 : s1.Keeps q v r := State.Keeps.ite (State.memCorrected_keeps h) h
      clear_value s1
      exact State.Keeps.ite (State.serveMerged_keeps h2) (State.serveRead_keeps h2)

theorem execMemoryAccess_keeps {req : Nat} {ecc : Ecc} {s : State} (h : s.Keeps q v r) :
    ∃ s', execMemoryAccess req ecc s = .next s' ∧ s'.Keeps q v r := by
  unfold execMemoryAccess
  refine ⟨_, rfl, ?_⟩
  split
  · exact h
  · split
    · exact State.Keeps.ite (State.settleSeams_keeps (State.hop_keeps h)) h
    · refine State.Keeps.ite (State.settleSeams_keeps (State.serveMerged_keeps h)) ?_
      exact State.Keeps.ite h (State.settleSeams_keeps (State.serveAtTarget_keeps (State.takeSlots_keeps h)))
    · exact h

theorem State.multicast_keeps {s : State} {m : Merge} {id : Nat} (h : s.Keeps q v r) :
    (State.multicast s m id).Keeps q v r := by
  unfold State.multicast
  split
  · exact h
  · split
    · exact h
    · refine State.Keeps.ite (State.loseReq_keeps h) ?_
      refine State.Keeps.ite h ?_
      extract_lets -underBinder +onlyGivenNames n1 s2
      have h3 : s2.Keeps q v r := State.modReq_keeps h
      clear_value s2
      exact State.Keeps.ite h3 (State.Keeps.ite (State.loseReq_keeps h3) (State.modReq_keeps h3))

theorem State.multicastCrosses_keeps {s : State} {m : Merge} (h : s.Keeps q v r) :
    (State.multicastCrosses s m).Keeps q v r := by
  unfold State.multicastCrosses
  extract_lets -underBinder +onlyGivenNames n1 n2
  refine State.forEach_keeps h ?_
  intro s3 x5 h4
  exact State.crossSeam_keeps (State.seamSlot_keeps h4)

theorem execMergeWindowClose_keeps {die : BitVec 2} {bank : BitVec 6} {row : BitVec 12} {s : State} (h : s.Keeps q v r) :
    ∃ s', execMergeWindowClose die bank row s = .next s' ∧ s'.Keeps q v r := by
  unfold execMergeWindowClose
  refine ⟨_, rfl, ?_⟩
  split
  · exact h
  · refine State.Keeps.ite ?_ h
    extract_lets -underBinder +onlyGivenNames s1
    have h2 : s1.Keeps q v r := State.modStore_keeps h (fun _ hm => hm)
    clear_value s1
    extract_lets -underBinder +onlyGivenNames s3
    have h4 : s3.Keeps q v r := State.Keeps.ite h2 (State.multicastCrosses_keeps h2)
    clear_value s3
    refine State.settleSeams_keeps ?_
    refine State.forEach_keeps h4 ?_
    intro s5 x7 h6
    exact State.multicast_keeps h6

theorem execAccumulateWrite_keeps {req : Nat} {ecc : Ecc} {s : State} (h : s.Keeps q v r) :
    ∃ s', execAccumulateWrite req ecc s = .next s' ∧ s'.Keeps q v r := by
  unfold execAccumulateWrite
  refine ⟨_, rfl, ?_⟩
  split
  · exact h
  · split
    · refine State.Keeps.ite h ?_
      refine State.Keeps.ite (State.settleSeams_keeps (State.accViolation_keeps (State.takeSlots_keeps h))) ?_
      extract_lets -underBinder +onlyGivenNames s1
      have h2 : s1.Keeps q v r := State.takeSlots_keeps h
      clear_value s1
      extract_lets -underBinder +onlyGivenNames n3
      split
      · exact State.settleSeams_keeps (State.requestLost_keeps (State.loseReq_keeps h2))
      · extract_lets -underBinder +onlyGivenNames s4
        have h5 : s4.Keeps q v r := State.Keeps.ite (State.memCorrected_keeps h2) h2
        clear_value s4
        extract_lets -underBinder +onlyGivenNames n6 s7
        have h8 : s7.Keeps q v r := State.discardRunAhead_keeps (State.watchCheck_keeps h5)
        clear_value s7
        exact State.settleSeams_keeps (State.respond_keeps (State.addToUnit_keeps h8))
    · exact h

theorem execSeepageWindowClose_keeps {u : SeepUnit} {s : State} (h : s.Keeps q v r) :
    ∃ s', execSeepageWindowClose u s = .next s' ∧ s'.Keeps q v r := by
  unfold execSeepageWindowClose
  refine ⟨_, rfl, ?_⟩
  refine State.Keeps.ite h ?_
  extract_lets -underBinder +onlyGivenNames s1
  have h2 : s1.Keeps q v r := State.modStore_keeps h (fun _ hm => hm)
  clear_value s1
  extract_lets -underBinder +onlyGivenNames n3 s4
  have h5 : s4.Keeps q v r := State.setReg_keeps (State.setReg_keeps h2)
  clear_value s4
  extract_lets -underBinder +onlyGivenNames n6
  refine State.Keeps.ite ?_ h5
  extract_lets -underBinder +onlyGivenNames s7
  have h8 : s7.Keeps q v r := State.setIrq_keeps h5
  clear_value s7
  exact State.Keeps.ite h8 (State.append_keeps (State.modJournal_keeps h8 (fun _ => List.prefix_rfl)))

theorem Tile.setTlbs_wf {x : Tile} (h : x.Wf) (l : List Nat) (g : Tile → Nat → List TlbEntry) :
    (l.foldl (fun x i => x.setTlb 5 i (g x i)) x).Wf := by
  induction l generalizing x with
  | nil => exact h
  | cons i l ih => exact ih (Tile.setTlb_wf h)

theorem State.dropXl_keeps {s : State} {p : Nat} {hit : Nat → Nat → Bool} (h : s.Keeps q v r) : (s.dropXl p hit).Keeps q v r :=
  State.forEach_keeps (State.modStore_keeps h (fun _ hm => hm)) (fun _ _ h1 => State.modTile_keeps h1 (fun _ hx =>
    Tile.setTlbs_wf (Tile.setTlb_wf (Tile.setTlb_wf hx)) _ _))

theorem execTranslationEditComplete_keeps {p : PolderId} {s : State} (h : s.Keeps q v r) :
    ∃ s', execTranslationEditComplete p s = .next s' ∧ s'.Keeps q v r := by
  unfold execTranslationEditComplete
  refine ⟨_, rfl, ?_⟩
  split
  · extract_lets -underBinder +onlyGivenNames n1 n2
    refine State.Keeps.ite h ?_
    extract_lets -underBinder +onlyGivenNames s3
    have h4 : s3.Keeps q v r := State.modPld_keeps h
    clear_value s3
    exact State.replyEcho_keeps (State.bump_keeps h4)
  · exact h

/-! ### Power -/

theorem State.retuneDie_keeps {s : State} {d : Nat} (h : s.Keeps q v r) :
    (State.retuneDie s d).Keeps q v r := by
  unfold State.retuneDie
  extract_lets -underBinder +onlyGivenNames n1 s2
  have h3 : s2.Keeps q v r := State.modDie_keeps h
  clear_value s2
  refine State.Keeps.ite (State.modDie_keeps (State.bump_keeps h3)) ?_
  refine State.Keeps.ite (State.Keeps.ite h3 (State.modDie_keeps h3)) ?_
  extract_lets -underBinder +onlyGivenNames s4
  have h5 : s4.Keeps q v r := State.Keeps.ite (State.bump_keeps h3) h3
  clear_value s4
  exact State.modDie_keeps h5

theorem State.retune_keeps {s : State} (h : s.Keeps q v r) :
    (State.retune s).Keeps q v r := by
  unfold State.retune
  refine State.forEach_keeps h ?_
  intro s1 x3 h2
  exact State.retuneDie_keeps h2

theorem execAcStepUp_keeps {die : BitVec 2} {s : State} (h : s.Keeps q v r) :
    ∃ s', execAcStepUp die s = .next s' ∧ s'.Keeps q v r := by
  unfold execAcStepUp
  refine ⟨_, rfl, ?_⟩
  exact State.Keeps.ite (State.retuneDie_keeps (State.modDie_keeps h)) h

theorem State.calibrateDie_keeps {s : State} {d : Nat} (h : s.Keeps q v r) :
    (State.calibrateDie s d).Keeps q v r := by
  unfold State.calibrateDie
  extract_lets -underBinder +onlyGivenNames n1 n2 n3 n4 s5
  have h6 : s5.Keeps q v r := State.setReg_keeps h
  clear_value s5
  extract_lets -underBinder +onlyGivenNames s7
  have h8 : s7.Keeps q v r := State.setReg_keeps h6
  clear_value s7
  exact State.Keeps.ite h8 (State.setIrq_keeps h8)

theorem State.calibrate_keeps {s : State} (h : s.Keeps q v r) :
    (State.calibrate s).Keeps q v r := by
  unfold State.calibrate
  refine State.forEach_keeps h ?_
  intro s1 x3 h2
  exact State.calibrateDie_keeps h2

theorem State.meterEnergy_keeps {s : State} {d : Nat} (h : s.Keeps q v r) :
    (State.meterEnergy s d).Keeps q v r := by
  unfold State.meterEnergy
  extract_lets -underBinder +onlyGivenNames n1
  have h2 : n1.2.Keeps q v r := State.draw_keeps h
  clear_value n1
  exact State.modDie_keeps h2

theorem execPowerWindow_keeps {die : BitVec 2} {mw : Word} {s : State} (h : s.Keeps q v r) :
    ∃ s', execPowerWindow die mw s = .next s' ∧ s'.Keeps q v r := by
  unfold execPowerWindow
  refine ⟨_, rfl, ?_⟩
  refine State.Keeps.ite h ?_
  extract_lets -underBinder +onlyGivenNames n1 s2
  have h3 : s2.Keeps q v r := State.setReg_keeps h
  clear_value s2
  extract_lets -underBinder +onlyGivenNames s4
  have h5 : s4.Keeps q v r := State.modDie_keeps h3
  clear_value s4
  exact State.retuneDie_keeps h5

theorem State.noteEstimate_keeps {s : State} {d : Nat} {e : Int} (h : s.Keeps q v r) :
    (State.noteEstimate s d e).Keeps q v r := by
  unfold State.noteEstimate
  exact State.modDie_keeps h

theorem execThermalEvaluation_keeps {die : BitVec 2} {hot : Int} {shoreHot : Int} {stackHot : Int} {s : State} (h : s.Keeps q v r) :
    ∃ s', execThermalEvaluation die hot shoreHot stackHot s = .next s' ∧ s'.Keeps q v r := by
  unfold execThermalEvaluation
  refine ⟨_, rfl, ?_⟩
  refine State.Keeps.ite h ?_
  extract_lets -underBinder +onlyGivenNames n1 n2 s3
  have h4 : s3.Keeps q v r := State.noteEstimate_keeps h
  clear_value s3
  extract_lets -underBinder +onlyGivenNames s5
  have h6 : s5.Keeps q v r := State.Keeps.ite (State.noteEstimate_keeps h4) h4
  clear_value s5
  extract_lets -underBinder +onlyGivenNames n7 s8
  have h9 : s8.Keeps q v r := State.modDie_keeps h6
  clear_value s8
  extract_lets -underBinder +onlyGivenNames n10 s11
  have h12 : s11.Keeps q v r := State.modDie_keeps h9
  clear_value s11
  extract_lets -underBinder +onlyGivenNames s13
  have h14 : s13.Keeps q v r := by
    refine State.Keeps.ite (State.Keeps.ite (State.setIrq_keeps h12) h12) ?_
    exact State.Keeps.ite (State.modDie_keeps h9) h9
  clear_value s13
  exact State.retuneDie_keeps h14

theorem execThermtrip_keeps {die : Fin 6} {hot : Int} {s : State} (h : s.Keeps q v r) :
    ∃ s', execThermtrip die hot s = .next s' ∧ s'.Keeps q v r := by
  unfold execThermtrip
  refine ⟨_, rfl, ?_⟩
  refine State.Keeps.ite h ?_
  extract_lets -underBinder +onlyGivenNames s1
  have h2 : s1.Keeps q v r := State.modDie_keeps h
  clear_value s1
  extract_lets -underBinder +onlyGivenNames s3
  have h4 : s3.Keeps q v r := State.modBoard_keeps h2
  clear_value s3
  extract_lets -underBinder +onlyGivenNames s5
  have h6 : s5.Keeps q v r := by
    refine State.forEach_keeps h4 ?_
    intro s7 x9 h8
    exact State.setIrq_keeps h8
  clear_value s5
  extract_lets -underBinder +onlyGivenNames s10
  have h11 : s10.Keeps q v r := State.logError_keeps h6
  clear_value s10
  exact State.failPart_keeps (State.retune_keeps h11)

theorem execRegulatorFault_keeps {die : BitVec 2} {lost : Bool} {s : State} (h : s.Keeps q v r) :
    ∃ s', execRegulatorFault die lost s = .next s' ∧ s'.Keeps q v r := by
  unfold execRegulatorFault
  refine ⟨_, rfl, ?_⟩
  refine State.Keeps.ite h ?_
  extract_lets -underBinder +onlyGivenNames s1
  have h2 : s1.Keeps q v r := State.retuneDie_keeps (State.modDie_keeps h)
  clear_value s1
  extract_lets -underBinder +onlyGivenNames s3
  have h4 : s3.Keeps q v r := State.logError_keeps (State.setIrq_keeps h2)
  clear_value s3
  extract_lets -underBinder +onlyGivenNames s5
  have h6 : s5.Keeps q v r := by
    refine State.forEach_keeps h4 ?_
    intro s7 x9 h8
    extract_lets -underBinder +onlyGivenNames n10
    exact State.Keeps.ite (State.raisePart_keeps h8) h8
  clear_value s5
  exact State.Keeps.ite (State.loseDie_keeps h6) h6

theorem State.reportHeld_keeps {s : State} (h : s.Keeps q v r) :
    (State.reportHeld s).Keeps q v r := by
  unfold State.reportHeld
  exact State.setIrq_keeps (State.bump_keeps h)

theorem State.acceptThrottle_keeps {s : State} (h : s.Keeps q v r) :
    (State.acceptThrottle s).Keeps q v r := by
  unfold State.acceptThrottle
  extract_lets -underBinder +onlyGivenNames s1
  have h2 : s1.Keeps q v r := State.modBoard_keeps h
  clear_value s1
  extract_lets -underBinder +onlyGivenNames s3
  have h4 : s3.Keeps q v r := State.setIrq_keeps (State.bump_keeps h2)
  clear_value s3
  exact State.retune_keeps (State.Keeps.ite (State.reportHeld_keeps h4) h4)

theorem execThrottleNEdge_keeps {level : Bool} {s : State} (h : s.Keeps q v r) :
    ∃ s', execThrottleNEdge level s = .next s' ∧ s'.Keeps q v r := by
  unfold execThrottleNEdge
  refine ⟨_, rfl, ?_⟩
  refine State.Keeps.ite h ?_
  extract_lets -underBinder +onlyGivenNames n1 n2 s3
  have h4 : s3.Keeps q v r := State.modBoard_keeps h
  clear_value s3
  extract_lets -underBinder +onlyGivenNames n5
  refine State.Keeps.ite ?_ h4
  extract_lets -underBinder +onlyGivenNames s6
  have h7 : s6.Keeps q v r := State.modBoard_keeps h4
  clear_value s6
  exact State.Keeps.ite h7 (State.acceptThrottle_keeps h7)

theorem execThrottleAccept_keeps {s : State} (h : s.Keeps q v r) :
    ∃ s', execThrottleAccept s = .next s' ∧ s'.Keeps q v r := by
  unfold execThrottleAccept
  refine ⟨_, rfl, ?_⟩
  exact State.Keeps.ite (State.acceptThrottle_keeps h) h

theorem State.releaseThrottle_keeps {s : State} (h : s.Keeps q v r) :
    (State.releaseThrottle s).Keeps q v r := by
  unfold State.releaseThrottle
  exact State.retune_keeps (State.modBoard_keeps h)

theorem execThrottleRelease_keeps {s : State} (h : s.Keeps q v r) :
    ∃ s', execThrottleRelease s = .next s' ∧ s'.Keeps q v r := by
  unfold execThrottleRelease
  refine ⟨_, rfl, ?_⟩
  exact State.Keeps.ite (State.releaseThrottle_keeps h) h

theorem execThrottleStable_keeps {s : State} (h : s.Keeps q v r) :
    ∃ s', execThrottleStable s = .next s' ∧ s'.Keeps q v r := by
  unfold execThrottleStable
  refine ⟨_, rfl, ?_⟩
  refine State.Keeps.ite ?_ h
  extract_lets -underBinder +onlyGivenNames s1
  have h2 : s1.Keeps q v r := State.modBoard_keeps h
  clear_value s1
  exact State.Keeps.ite h2 (State.releaseThrottle_keeps h2)

theorem execThrottleHeldReport_keeps {s : State} (h : s.Keeps q v r) :
    ∃ s', execThrottleHeldReport s = .next s' ∧ s'.Keeps q v r := by
  unfold execThrottleHeldReport
  refine ⟨_, rfl, ?_⟩
  exact State.Keeps.ite (State.reportHeld_keeps (State.modBoard_keeps h)) h

theorem State.writePwrCap_keeps {s : State} {w : Word} (h : s.Keeps q v r) :
    (State.writePwrCap s w).Keeps q v r := by
  unfold State.writePwrCap
  extract_lets -underBinder +onlyGivenNames n1 n2
  exact State.Keeps.ite (State.ignoreWrite_keeps h) (State.setReg_keeps h)

theorem execPwrCap_keeps {value : Word} {s : State} (h : s.Keeps q v r) :
    ∃ s', execPwrCap value s = .next s' ∧ s'.Keeps q v r := by
  unfold execPwrCap
  refine ⟨_, rfl, ?_⟩
  exact State.Keeps.ite (State.answerWritten_keeps (State.writePwrCap_keeps h)) (State.answerError_keeps h)

/-! ### Loading -/

theorem State.mapFrame_keeps {s : State} {p : Nat} {depot : Bool} {dev entry : Nat} (h : s.Keeps q v r) :
    (s.mapFrame p depot dev entry).Keeps q v r := by
  unfold State.mapFrame
  extract_lets -underBinder +onlyGivenNames base
  split
  · exact h
  · refine State.setEntry_keeps (State.modStore_keeps h (fun m hm => ⟨?_, ?_, hm.2.2⟩))
    · show (if depot then m.hbm else _ : Mem).wf = true
      split
      · exact hm.1
      · exact Mem.wf_zero hm.1 _ _
    · show (if depot then _ else m.depot : Mem).wf = true
      split
      · exact Mem.wf_zero hm.2.1 _ _
      · exact hm.2.1

theorem State.mapWindow_keeps {s : State} {p : Nat} {depot : Bool} {map : List Byte} (h : s.Keeps q v r) :
    (State.mapWindow s p depot map).Keeps q v r := by
  unfold State.mapWindow
  refine State.forEach_keeps h ?_
  intro s1 x3 h2
  exact State.Keeps.ite h2 (State.mapFrame_keeps h2)

theorem State.setWindows_keeps {s : State} {p : Nat} {z3 : Quotas} (h : s.Keeps q v r) :
    (State.setWindows s p z3).Keeps q v r := by
  unfold State.setWindows
  extract_lets -underBinder +onlyGivenNames s1
  have h2 : s1.Keeps q v r := by
    refine State.forEach_keeps h ?_
    intro s3 x5 h4
    exact State.setReg_keeps (State.setReg_keeps h4)
  clear_value s1
  refine State.forEach_keeps h2 ?_
  intro s6 x8 h7
  extract_lets -underBinder +onlyGivenNames n9
  exact State.setReg_keeps h7

theorem State.loadTile_keeps {s : State} {img : List Byte} {rows : List Nat} {t : Nat} {e : ProgEntry} {i : Nat} {sc : SchedEntry} (h : s.Keeps q v r) :
    (State.loadTile s img rows t e i sc).Keeps q v r := by
  unfold State.loadTile
  extract_lets -underBinder +onlyGivenNames n1 n2 n3 n4 n5 s6
  have h7 : s6.Keeps q v r := State.modStore_keeps h (fun _ hm => ⟨hm.1, hm.2.1, hm.2.2.1, hm.2.2.2.1, Mem.wf_writeN hm.2.2.2.2.1 _ _, Mem.wf_writeN hm.2.2.2.2.2.1 _ _, hm.2.2.2.2.2.2⟩)
  clear_value s6
  extract_lets -underBinder +onlyGivenNames s8
  have h9 : s8.Keeps q v r := State.modTile_keeps h7 (fun _ _ => Tile.default_wf)
  clear_value s8
  extract_lets -underBinder +onlyGivenNames s10
  have h11 : s10.Keeps q v r := by
    refine State.forEach_keeps h9 ?_
    intro s12 x14 h13
    exact State.setReg_keeps h13
  clear_value s10
  extract_lets -underBinder +onlyGivenNames s15
  have h16 : s15.Keeps q v r := State.setReg_keeps h11
  clear_value s15
  extract_lets -underBinder +onlyGivenNames n17
  refine State.forEach_keeps h16 ?_
  intro s18 x20 h19
  exact State.setReg_keeps h19

theorem State.loadTiles_keeps {s : State} {img : List Byte} {rows : List Nat} (h : s.Keeps q v r) :
    (State.loadTiles s img rows).Keeps q v r := by
  unfold State.loadTiles
  extract_lets -underBinder +onlyGivenNames n1 n2 n3
  refine State.forEach_keeps h ?_
  intro s4 x6 h5
  exact State.loadTile_keeps h5

theorem State.loadGradient_keeps {s : State} {p : Nat} {t : Tensor} (h : s.Keeps q v r) :
    (State.loadGradient s p t).Keeps q v r := by
  unfold State.loadGradient
  extract_lets -underBinder +onlyGivenNames s1
  have h2 : s1.Keeps q v r := by
    refine State.forEach_keeps h ?_
    intro s3 x5 h4
    split
    · exact State.modStore_keeps h4 (fun _ hm => hm)
    · exact h4
  clear_value s1
  split
  · exact State.memWrite_keeps h2
  · exact h2

theorem State.loadTables_keeps {s : State} {p : Nat} {c : Catalogue} (h : s.Keeps q v r) :
    (State.loadTables s p c).Keeps q v r := by
  unfold State.loadTables
  refine State.Keeps.ite h ?_
  refine State.forEach_keeps h ?_
  intro s1 x3 h2
  split
  · exact State.memWrite_keeps h2
  · exact h2

theorem State.loadRegisters_keeps {s : State} {p : Nat} {img : List Byte} {c : Catalogue} (h : s.Keeps q v r) :
    (State.loadRegisters s p img c).Keeps q v r := by
  unfold State.loadRegisters
  extract_lets -underBinder +onlyGivenNames n1 n2 s3
  have h4 : s3.Keeps q v r := State.setReg_keeps h
  clear_value s3
  extract_lets -underBinder +onlyGivenNames s5
  have h6 : s5.Keeps q v r := by
    refine State.forEach_keeps h4 ?_
    intro s7 x9 h8
    exact State.setReg_keeps h8
  clear_value s5
  extract_lets -underBinder +onlyGivenNames s10
  have h11 : s10.Keeps q v r := State.setReg_keeps h6
  clear_value s10
  extract_lets -underBinder +onlyGivenNames s12
  have h13 : s12.Keeps q v r := State.setReg_keeps (State.setReg_keeps h11)
  clear_value s12
  extract_lets -underBinder +onlyGivenNames s14
  have h15 : s14.Keeps q v r := State.setReg_keeps h13
  clear_value s14
  extract_lets -underBinder +onlyGivenNames s16
  have h17 : s16.Keeps q v r := State.clearRegs_keeps h15
  clear_value s16
  exact State.Keeps.ite (State.setReg_keeps (State.setReg_keeps h17)) h17

theorem State.clearDigests_keeps {s : State} {p : Nat} (h : s.Keeps q v r) :
    (State.clearDigests s p).Keeps q v r := by
  unfold State.clearDigests
  extract_lets -underBinder +onlyGivenNames s1
  have h2 : s1.Keeps q v r := by
    refine State.forEach_keeps h ?_
    intro s3 x5 h4
    exact State.clearRegs_keeps h4
  clear_value s1
  exact State.modLinks_keeps h2 (fun _ hl => hl)

theorem State.admitTag_keeps {s : State} {tag : Word} (h : s.Keeps q v r) : (s.admitTag tag).Keeps q v r :=
  { h with wf := { h.wf with clients := Table.sorted_map h.wf.clients (fun e => by split <;> rfl) } }

theorem State.loadPolder_keeps {s : State} {p : Nat} {img : List Byte} (h : s.Keeps q v r) :
    (State.loadPolder s p img).Keeps q v r := by
  unfold State.loadPolder
  extract_lets -underBinder +onlyGivenNames n1 n2 n3 n4 s5
  have h6 : s5.Keeps q v r := State.modPld_keeps h
  clear_value s5
  extract_lets -underBinder +onlyGivenNames s7
  have h8 : s7.Keeps q v r := State.retune_keeps (State.calibrate_keeps h6)
  clear_value s7
  extract_lets -underBinder +onlyGivenNames s9
  have h10 : s9.Keeps q v r := State.setWindows_keeps h8
  clear_value s9
  extract_lets -underBinder +onlyGivenNames s11
  have h12 : s11.Keeps q v r := State.mapWindow_keeps (State.mapWindow_keeps h10)
  clear_value s11
  extract_lets -underBinder +onlyGivenNames s13
  have h14 : s13.Keeps q v r := State.loadTiles_keeps h12
  clear_value s13
  extract_lets -underBinder +onlyGivenNames s15
  have h16 : s15.Keeps q v r := State.clearDigests_keeps (State.loadRegisters_keeps h14)
  clear_value s15
  extract_lets -underBinder +onlyGivenNames s17
  have h18 : s17.Keeps q v r := by
    refine State.loadTables_keeps ?_
    refine State.forEach_keeps h16 ?_
    intro s19 x21 h20
    exact State.loadGradient_keeps h20
  clear_value s17
  extract_lets -underBinder +onlyGivenNames s22
  have h23 : s22.Keeps q v r := State.modJournal_keeps (State.controlBurst_keeps (State.admitTag_keeps h18)) (fun _ => List.prefix_rfl)
  clear_value s22
  split
  · exact State.reply_keeps h23
  · exact h23

theorem State.reserveClient_keeps {s : State} {k : Nat} {tag : Word} (h : s.Keeps q v r) :
    (State.reserveClient s k tag).Keeps q v r := by
  unfold State.reserveClient
  exact State.modClient_keeps h

theorem State.refuse_keeps {s : State} {c : Nat} {op : Nat} {p : Nat} {code : Nat} (h : s.Keeps q v r) :
    (State.refuse s c op p code).Keeps q v r := by
  unfold State.refuse
  exact State.reply_keeps h

theorem execCreate_keeps {c : ChannelId} {s : State} (h : s.Keeps q v r) :
    ∃ s', execCreate c s = .next s' ∧ s'.Keeps q v r := by
  unfold execCreate
  refine ⟨_, rfl, ?_⟩
  split
  · exact h
  · extract_lets -underBinder +onlyGivenNames s1
    have h2 : s1.Keeps q v r := State.takeRequest_keeps h
    clear_value s1
    extract_lets -underBinder +onlyGivenNames n3 n4 n5 n6
    refine State.Keeps.ite (State.reply_keeps h2) ?_
    refine State.Keeps.ite (State.reply_keeps h2) ?_
    refine State.Keeps.ite (State.refuse_keeps h2) ?_
    split
    · exact State.refuse_keeps h2
    · split
      · exact State.refuse_keeps h2
      · extract_lets -underBinder +onlyGivenNames s7
        have h8 : s7.Keeps q v r := State.clearRegs_keeps (State.reserveClient_keeps h2)
        clear_value s7
        extract_lets -underBinder +onlyGivenNames s9
        have h10 : s9.Keeps q v r := State.setReg_keeps h8
        clear_value s9
        exact State.modPld_keeps h10

theorem execCatalogueVerification_keeps {p : PolderId} {rd : HostRead} {s : State} (h : s.Keeps q v r) :
    ∃ s', execCatalogueVerification p rd s = .next s' ∧ s'.Keeps q v r := by
  unfold execCatalogueVerification
  refine ⟨_, rfl, ?_⟩
  refine State.Keeps.ite h ?_
  split
  · exact State.endCreate_keeps h
  · extract_lets -underBinder +onlyGivenNames n1 s2
    have h3 : s2.Keeps q v r := State.askHost_keeps h
    clear_value s2
    split
    · exact State.endCreate_keeps (State.setReg_keeps h3)
    · exact State.loadPolder_keeps h3

/-! ### Polder -/

theorem State.dropClients_keeps {s : State} (h : s.Keeps q v r) (p : Nat × Client → Bool) :
    ({ s with clients := s.clients.filter p } : State).Keeps q v r :=
  { h with wf := { h.wf with clients := Table.sorted_filter h.wf.clients _ } }

theorem execClientClear_keeps {c : ChannelId} {s : State} (h : s.Keeps q v r) :
    ∃ t, execClientClear c s = .next t ∧ t.Keeps q v r := by
  unfold execClientClear
  refine ⟨_, rfl, ?_⟩
  split
  · exact h
  · have h1 : (s.takeRequest c.toNat).Keeps q v r := State.takeRequest_keeps h
    refine State.Keeps.ite (State.reply_keeps h1) (State.Keeps.ite (State.reply_keeps h1) ?_)
    refine State.Keeps.ite (State.reply_keeps h1) (State.reply_keeps (State.Keeps.ite h1 ?_))
    exact State.dropClients_keeps h1 _

theorem State.receiveCause_keeps {s : State} {c : Cause} (h : s.Keeps q v r) :
    (State.receiveCause s c).Keeps q v r := by
  unfold State.receiveCause
  extract_lets -underBinder +onlyGivenNames n1
  refine State.Keeps.ite (State.startClearing_keeps h) ?_
  split
  · extract_lets -underBinder +onlyGivenNames s2
    have h3 : s2.Keeps q v r := State.bump_keeps h
    clear_value s2
    split
    · exact State.Keeps.ite (State.modPld_keeps h3) h3
    · exact h3
  · exact State.bump_keeps h
  · exact h

theorem execFaultCause_keeps {i : Nat} {s : State} (h : s.Keeps q v r) :
    ∃ s', execFaultCause i s = .next s' ∧ s'.Keeps q v r := by
  unfold execFaultCause
  refine ⟨_, rfl, ?_⟩
  split
  · exact h
  · exact State.receiveCause_keeps (State.controlCrosses_keeps (State.modNets_keeps h))

theorem State.abandon_keeps {s : State} {p : Nat} (h : s.Keeps q v r) :
    (State.abandon s p).Keeps q v r := by
  unfold State.abandon
  extract_lets -underBinder +onlyGivenNames n1 s2
  have h3 : s2.Keeps q v r := State.modHif_keeps h (fun _ hn => hn)
  clear_value s2
  exact State.modStore_keeps h3 (fun _ hm => ⟨hm.1, hm.2.1, hm.2.2.1, hm.2.2.2.1, hm.2.2.2.2.1, hm.2.2.2.2.2.1, hm.2.2.2.2.2.2.1,
    hm.2.2.2.2.2.2.2.filter _⟩)

theorem State.clearTile_keeps {s : State} {t : Nat} (h : s.Keeps q v r) :
    (State.clearTile s t).Keeps q v r := by
  unfold State.clearTile
  extract_lets -underBinder +onlyGivenNames s1
  have h2 : s1.Keeps q v r := by
    refine State.forEach_keeps h ?_
    intro s3 x5 h4
    exact State.endSlotWait_keeps h4
  clear_value s1
  extract_lets -underBinder +onlyGivenNames s6
  have h7 : s6.Keeps q v r := State.modTile_keeps (State.setReg_keeps (State.countStall_keeps h2)) (fun _ _ => Tile.default_wf)
  clear_value s6
  exact State.modStore_keeps h7 (fun _ hm => ⟨hm.1, hm.2.1, hm.2.2.1, Mem.wf_zero hm.2.2.2.1 _ _, Mem.wf_zero hm.2.2.2.2.1 _ _, Mem.wf_zero hm.2.2.2.2.2.1 _ _, hm.2.2.2.2.2.2⟩)

theorem State.clearShare_keeps {s : State} {p : Nat} {d : Nat} (h : s.Keeps q v r) :
    (State.clearShare s p d).Keeps q v r := by
  unfold State.clearShare
  extract_lets -underBinder +onlyGivenNames n1
  exact State.modStore_keeps h (fun _ hm => ⟨hm.1, hm.2.1, Mem.wf_zero hm.2.2.1 _ _, hm.2.2.2⟩)

theorem State.clearSlots_keeps {s : State} {p : Nat} (h : s.Keeps q v r) :
    (State.clearSlots s p).Keeps q v r := by
  unfold State.clearSlots
  extract_lets -underBinder +onlyGivenNames s1
  have h2 : s1.Keeps q v r := by
    refine State.forEach_keeps h ?_
    intro s3 x5 h4
    exact State.modCns_keeps (State.clearRegs_keeps h4)
  clear_value s1
  exact State.modLinks_keeps h2 (fun _ hl => ⟨hl.1, Table.sorted_filter hl.2 _⟩)

theorem State.release_keeps {s : State} {p : Nat} (h : s.Keeps q v r) :
    (State.release s p).Keeps q v r := by
  unfold State.release
  extract_lets -underBinder +onlyGivenNames n1 s2
  have h3 : s2.Keeps q v r := State.modStore_keeps h (fun _ hm => hm)
  clear_value s2
  extract_lets -underBinder +onlyGivenNames s4
  have h5 : s4.Keeps q v r := State.clearRegs_keeps (State.clearRegs_keeps h3)
  clear_value s4
  extract_lets -underBinder +onlyGivenNames s6
  have h7 : s6.Keeps q v r := State.setReg_keeps h5
  clear_value s6
  extract_lets -underBinder +onlyGivenNames s8
  have h9 : s8.Keeps q v r := State.setReg_keeps h7
  clear_value s8
  extract_lets -underBinder +onlyGivenNames s10
  have h11 : s10.Keeps q v r := State.modPld_keeps h9
  clear_value s10
  exact State.retune_keeps (State.calibrate_keeps h11)

theorem State.countJob_keeps {s : State} {p column : Nat} (h : s.Keeps q v r) : (s.countJob p column).Keeps q v r := by
  unfold State.countJob
  refine State.modJournal_keeps ?_ (fun _ => List.prefix_rfl)
  exact { h with wf := { h.wf with clients := Table.sorted_map h.wf.clients (fun e => by split <;> rfl) } }

theorem State.recordFault_keeps {s : State} {p : Nat} {x : Polder} {c : Cause} (h : s.Keeps q v r) :
    (State.recordFault s p x c).Keeps q v r := by
  unfold State.recordFault
  extract_lets -underBinder +onlyGivenNames n1 s2
  have h3 : s2.Keeps q v r := by
    refine State.forEach_keeps h ?_
    intro s4 x6 h5
    exact State.setReg_keeps h5
  clear_value s2
  extract_lets -underBinder +onlyGivenNames s7
  have h8 : s7.Keeps q v r := State.setReg_keeps h3
  clear_value s7
  extract_lets -underBinder +onlyGivenNames s9
  have h10 : s9.Keeps q v r := State.postVfFault_keeps (State.postPfFault_keeps h8)
  clear_value s9
  extract_lets -underBinder +onlyGivenNames s11
  have h12 : s11.Keeps q v r := State.Keeps.ite (State.countJob_keeps h10) h10
  clear_value s11
  exact State.setIrq_keeps h12

theorem State.disableQueues_keeps {s : State} {p : Nat} (h : s.Keeps q v r) :
    (State.disableQueues s p).Keeps q v r := by
  unfold State.disableQueues
  refine State.forEach_keeps h ?_
  intro s1 x3 h2
  exact State.setVfReg_keeps h2

theorem State.idleChannel_keeps {s : State} {c : Nat} (h : s.Keeps q v r) :
    (State.idleChannel s c).Keeps q v r := by
  unfold State.idleChannel
  extract_lets -underBinder +onlyGivenNames s1
  have h2 : s1.Keeps q v r := State.modHif_keeps (State.modChan_keeps h (fun _ _ => Table.sorted_nil)) (fun _ hn => hn)
  clear_value s1
  refine State.forEach_keeps h2 ?_
  intro s3 x5 h4
  exact State.modPld_keeps h4

theorem State.resetVf_keeps {s : State} {p : Nat} (h : s.Keeps q v r) : (s.resetVf p).Keeps q v r := by
  unfold State.resetVf
  extract_lets -underBinder +onlyGivenNames n1 s2
  have h3 : s2.Keeps q v r := State.modHif_keeps (State.clearRegs_keeps h) (fun _ hn => hn)
  clear_value s2
  exact State.idleChannel_keeps { h3 with wf := { h3.wf with vfRegs := Table.sorted_filter h3.wf.vfRegs _ } }

theorem State.freeOrDrain_keeps {s : State} {p : Nat} (h : s.Keeps q v r) :
    (State.freeOrDrain s p).Keeps q v r := by
  unfold State.freeOrDrain
  exact State.Keeps.ite (State.modPld_keeps h) (State.modPld_keeps h)

theorem State.dropMessages_keeps {s : State} {p : Nat} {tiles : List Nat} (h : s.Keeps q v r) :
    (State.dropMessages s p tiles).Keeps q v r := by
  unfold State.dropMessages
  extract_lets -underBinder +onlyGivenNames n1 s2
  have h3 : s2.Keeps q v r := State.Keeps.ite h (State.bump_keeps h)
  clear_value s2
  exact State.modNets_keeps h3

theorem execClearing_keeps {p : PolderId} {s : State} (h : s.Keeps q v r) :
    ∃ s', execClearing p s = .next s' ∧ s'.Keeps q v r := by
  unfold execClearing
  refine ⟨_, rfl, ?_⟩
  refine State.Keeps.ite h ?_
  extract_lets -underBinder +onlyGivenNames n1 s2
  have h3 : s2.Keeps q v r := State.abandon_keeps (State.controlBurst_keeps h)
  clear_value s2
  extract_lets -underBinder +onlyGivenNames s4
  have h5 : s4.Keeps q v r := State.dropXl_keeps h3
  clear_value s4
  extract_lets -underBinder +onlyGivenNames s6
  have h7 : s6.Keeps q v r := by
    refine State.forEach_keeps h5 ?_
    intro s8 x10 h9
    exact State.clearTile_keeps h9
  clear_value s6
  extract_lets -underBinder +onlyGivenNames s11
  have h12 : s11.Keeps q v r := by
    refine State.forEach_keeps h7 ?_
    intro s13 x15 h14
    exact State.clearShare_keeps h14
  clear_value s11
  extract_lets -underBinder +onlyGivenNames s16
  have h17 : s16.Keeps q v r := State.dropMessages_keeps (State.clearSlots_keeps h12)
  clear_value s16
  extract_lets -underBinder +onlyGivenNames s18
  have h19 : s18.Keeps q v r := by
    refine State.forEach_keeps h17 ?_
    intro s20 x22 h21
    extract_lets -underBinder +onlyGivenNames n23
    exact State.setReg_keeps h21
  clear_value s18
  extract_lets -underBinder +onlyGivenNames s24
  have h25 : s24.Keeps q v r := State.setReg_keeps h19
  clear_value s24
  extract_lets -underBinder +onlyGivenNames s26
  have h27 : s26.Keeps q v r := State.release_keeps h25
  clear_value s26
  extract_lets -underBinder +onlyGivenNames s28
  have h29 : s28.Keeps q v r := by
    unfold s28
    split
    · exact State.recordFault_keeps h27
    · exact h27
  clear_value s28
  extract_lets -underBinder +onlyGivenNames s30
  have h31 : s30.Keeps q v r := State.setReg_keeps (State.setReg_keeps h29)
  clear_value s30
  extract_lets -underBinder +onlyGivenNames s32
  have h33 : s32.Keeps q v r := State.disableQueues_keeps h31
  clear_value s32
  extract_lets -underBinder +onlyGivenNames s34
  have h35 : s34.Keeps q v r := State.Keeps.ite (State.resetVf_keeps h33) h33
  clear_value s34
  exact State.freeOrDrain_keeps h35

theorem State.completeJob_keeps {s : State} {n : Nat} (h : s.Keeps q v r) :
    (State.completeJob s n).Keeps q v r := by
  unfold State.completeJob
  refine State.posting_keeps h ?_
  intro s1 h2
  extract_lets -underBinder +onlyGivenNames s3
  have h4 : s3.Keeps q v r := State.postIfOn_keeps h2
  clear_value s3
  extract_lets -underBinder +onlyGivenNames n5 s6
  have h7 : s6.Keeps q v r := State.setIrq_keeps (State.countJob_keeps h4)
  clear_value s6
  extract_lets -underBinder +onlyGivenNames s8
  have h9 : s8.Keeps q v r := State.modPld_keeps h7
  clear_value s8
  extract_lets -underBinder +onlyGivenNames s10
  have h11 : s10.Keeps q v r := State.modLinks_keeps h9 (fun _ hl => ⟨hl.1, Table.sorted_filter hl.2 _⟩)
  clear_value s10
  exact State.Keeps.ite (State.startClearing_keeps h11) h11

theorem execJobCompletion_keeps {p : PolderId} {s : State} (h : s.Keeps q v r) :
    ∃ s', execJobCompletion p s = .next s' ∧ s'.Keeps q v r := by
  unfold execJobCompletion
  refine ⟨_, rfl, ?_⟩
  exact State.Keeps.ite (State.completeJob_keeps h) h

theorem State.countIntakeWait_keeps {s : State} {p : Nat} (h : s.Keeps q v r) :
    (State.countIntakeWait s p).Keeps q v r := by
  unfold State.countIntakeWait
  exact State.bump_keeps h

theorem execRetire_keeps {c : ChannelId} {s : State} (h : s.Keeps q v r) :
    ∃ s', execRetire c s = .next s' ∧ s'.Keeps q v r := by
  unfold execRetire
  refine ⟨_, rfl, ?_⟩
  split
  · exact h
  · extract_lets -underBinder +onlyGivenNames s1
    have h2 : s1.Keeps q v r := State.takeRequest_keeps h
    clear_value s1
    extract_lets -underBinder +onlyGivenNames n3 n4
    refine State.Keeps.ite (State.reply_keeps h2) ?_
    refine State.Keeps.ite (State.reply_keeps h2) ?_
    split
    · exact State.reply_keeps (State.startClearing_keeps h2)
    · exact State.reply_keeps (State.startClearing_keeps h2)
    · exact State.reply_keeps (State.modPld_keeps (State.countIntakeWait_keeps h2))
    · exact State.reply_keeps h2

theorem State.tearDown_keeps {s : State} {p : Nat} (h : s.Keeps q v r) :
    (State.tearDown s p).Keeps q v r := by
  unfold State.tearDown
  extract_lets -underBinder +onlyGivenNames s1
  have h2 : s1.Keeps q v r := State.Keeps.ite (State.completeJob_keeps h) h
  clear_value s1
  split
  · exact State.startClearing_keeps h2
  · exact State.startClearing_keeps h2
  · exact h2

theorem execTeardown_keeps {c : ChannelId} {s : State} (h : s.Keeps q v r) :
    ∃ s', execTeardown c s = .next s' ∧ s'.Keeps q v r := by
  unfold execTeardown
  refine ⟨_, rfl, ?_⟩
  split
  · exact h
  · extract_lets -underBinder +onlyGivenNames s1
    have h2 : s1.Keeps q v r := State.takeRequest_keeps h
    clear_value s1
    extract_lets -underBinder +onlyGivenNames n3 n4
    refine State.Keeps.ite (State.reply_keeps h2) ?_
    refine State.Keeps.ite (State.reply_keeps h2) ?_
    split
    · exact State.reply_keeps (State.startClearing_keeps h2)
    · exact State.reply_keeps (State.tearDown_keeps h2)
    · exact State.reply_keeps (State.startClearing_keeps h2)
    · exact State.reply_keeps h2

theorem execWatchdogExpiry_keeps {e : SharedEngine} {p : PolderId} {s : State} (h : s.Keeps q v r) :
    ∃ s', execWatchdogExpiry e p s = .next s' ∧ s'.Keeps q v r := by
  unfold execWatchdogExpiry
  refine ⟨_, rfl, ?_⟩
  refine State.Keeps.ite h ?_
  extract_lets -underBinder +onlyGivenNames s1
  have h2 : s1.Keeps q v r := State.noteWait_keeps h
  clear_value s1
  extract_lets -underBinder +onlyGivenNames s3
  have h4 : s3.Keeps q v r := State.modSlot_keeps h2
  clear_value s3
  exact State.Keeps.ite (State.raiseMaster_keeps h4) (State.raiseMaster_keeps h4)

theorem State.endTag_keeps {s : State} {req : Nat} (h : s.Keeps q v r) :
    (State.endTag s req).Keeps q v r := by
  unfold State.endTag
  split
  · exact h
  · extract_lets -underBinder +onlyGivenNames s1
    have h2 : s1.Keeps q v r := State.modHif_keeps h (fun _ hn => hn)
    clear_value s1
    exact State.Keeps.ite (State.setIrq_keeps (State.modPld_keeps h2)) h2

theorem State.endHostDesc_keeps {s : State} {k : Nat} {p : Nat} (h : s.Keeps q v r) :
    (State.endHostDesc s k p).Keeps q v r := by
  unfold State.endHostDesc
  exact State.modSlot_keeps h

theorem State.landHost_keeps {s : State} {z2 : Req} {x : Target} (h : s.Keeps q v r) :
    (State.landHost s z2 x).Keeps q v r := by
  unfold State.landHost
  extract_lets -underBinder +onlyGivenNames n1 s2
  have h3 : s2.Keeps q v r := State.Keeps.ite (State.noteWait_keeps h) h
  clear_value s2
  refine State.Keeps.ite (State.modSlot_keeps (State.modReq_keeps h3)) ?_
  exact State.endHostDesc_keeps (State.respond_keeps h3)

theorem State.failHost_keeps {s : State} {z2 : Req} {code : Nat} (h : s.Keeps q v r) :
    (State.failHost s z2 code).Keeps q v r := by
  unfold State.failHost
  extract_lets -underBinder +onlyGivenNames s1
  have h2 : s1.Keeps q v r := State.Keeps.ite (State.noteWait_keeps h) h
  clear_value s1
  exact State.endHostDesc_keeps (State.hostError_keeps (State.noteFaultVa_keeps (State.loseReq_keeps h2)))

theorem execHostCompletion_keeps {req : Nat} {st : HostStatus} {s : State} (h : s.Keeps q v r) :
    ∃ s', execHostCompletion req st s = .next s' ∧ s'.Keeps q v r := by
  unfold execHostCompletion
  refine ⟨_, rfl, ?_⟩
  split
  · exact State.endTag_keeps h
  · split
    · exact h
    · refine State.Keeps.ite h ?_
      refine State.Keeps.ite (State.endHostDesc_keeps (State.respond_keeps (State.landWrite_keeps h))) ?_
      exact State.Keeps.ite (State.landHost_keeps h) (State.failHost_keeps h)

theorem execCompletionTimeout_keeps {req : Nat} {s : State} (h : s.Keeps q v r) :
    ∃ s', execCompletionTimeout req s = .next s' ∧ s'.Keeps q v r := by
  unfold execCompletionTimeout
  refine ⟨_, rfl, ?_⟩
  split
  · exact State.endTag_keeps h
  · exact State.Keeps.ite (State.failHost_keeps h) h

end Sys2Proof.Machine
end

