-- ==== Sys2Proof/Laws/KeepsLinks.lean ====
section
/-!
SUPPORT. What the definitions of links, ports, the reduction sequence, the slot schedule and training keep.
-/

-- one proof at a time: the package as one text would start more threads than its memory limit allows
set_option Elab.async false

namespace Sys2Proof.Machine

variable {q : List Instr} {v : Nat} {r : List Entry}



/-! ### Links -/

theorem State.engineReads_keeps {s : State} {p : Nat} {die : Nat} {x : Target} {n : Nat} (h : s.Keeps q v r) :
    (State.engineReads s p die x n).Keeps q v r := by
  unfold State.engineReads
  exact State.polderCrosses_keeps (State.targetSlots_keeps (State.polderCrosses_keeps h))

theorem State.engineWrites_keeps {s : State} {p : Nat} {die : Nat} {x : Target} {n : Nat} (h : s.Keeps q v r) :
    (State.engineWrites s p die x n).Keeps q v r := by
  unfold State.engineWrites
  exact State.polderCrosses_keeps (State.targetSlots_keeps (State.polderCrosses_keeps h))

theorem State.engineFault_keeps {s : State} {p : Nat} {kind : Nat} {unit : Nat} {code : Nat} {va : Nat} (h : s.Keeps q v r) :
    (State.engineFault s p kind unit code va).Keeps q v r := by
  unfold State.engineFault
  exact State.raiseMaster_keeps (State.recordXl_keeps h)

theorem State.readPiece_keeps {s : State} {die : Nat} {p : Nat} {kind : Nat} {unit : Nat} {va : Nat} {len : Nat} {ecc : Ecc} (h : s.Keeps q v r) :
    (State.readPiece s die p kind unit va len ecc).2.Keeps q v r := by
  unfold State.readPiece
  split
  · exact State.engineFault_keeps h
  · split
    · exact h
    · split
      · exact State.hostError_keeps h
      extract_lets -underBinder +onlyGivenNames s1
      have h2 : s1.Keeps q v r := State.countRead_keeps (State.engineReads_keeps h)
      clear_value s1
      split
      · exact State.memLost_keeps h2
      · exact State.memCorrected_keeps h2
      · exact h2

theorem State.readPieces_keeps {s : State} {die p kind unit : Nat} {ecc : List Ecc} {l : List (Nat × Nat)}
    (h : s.Keeps q v r) :
    (s.readPieces die p kind unit ecc l).2.Keeps q v r := by
  induction l generalizing s ecc with
  | nil => exact h
  | cons c cs ih =>
    have h1 : (s.readPiece die p kind unit c.1 c.2 (eccAt ecc 0)).2.Keeps q v r := State.readPiece_keeps h
    simp only [State.readPieces]
    split
    next s' e => rw [e] at h1; exact h1
    next bs s' e =>
      rw [e] at h1
      have h2 := ih (s := s') (ecc := ecc.drop 1) h1
      split
      next s'' e' => rw [e'] at h2; exact h2
      next r' s'' e' => rw [e'] at h2; exact h2

theorem State.masterRead_keeps {s : State} {die : Nat} {p : Nat} {kind : Nat} {unit : Nat} {va : Nat} {len : Nat} {ecc : List Ecc} (h : s.Keeps q v r) :
    (State.masterRead s die p kind unit va len ecc).2.Keeps q v r := by
  unfold State.masterRead
  exact State.readPieces_keeps h

theorem State.writePieces_keeps {s : State} {die p kind unit : Nat} {bs : List Byte} {l : List (Nat × Nat)}
    (h : s.Keeps q v r) :
    (s.writePieces die p kind unit bs l).2.Keeps q v r := by
  induction l generalizing s bs with
  | nil => exact h
  | cons c cs ih =>
    simp only [State.writePieces]
    split
    · exact State.engineFault_keeps h
    · split
      · exact State.raiseMaster_keeps (State.showViolation_keeps h)
      · split
        · exact h
        · split
          · exact State.hostError_keeps h
          exact ih (State.landWrite_keeps (State.closeMerges_keeps (State.engineWrites_keeps h)))

theorem State.masterWrite_keeps {s : State} {die : Nat} {p : Nat} {kind : Nat} {unit : Nat} {va : Nat} {bs : List Byte} (h : s.Keeps q v r) :
    (State.masterWrite s die p kind unit va bs).2.Keeps q v r := by
  unfold State.masterWrite
  exact State.writePieces_keeps h

theorem State.dropMessage_keeps {s : State} {n : Nat} (h : s.Keeps q v r) :
    (State.dropMessage s n).Keeps q v r := by
  unfold State.dropMessage
  exact State.setIrq_keeps (State.bump_keeps h)

theorem State.digest_keeps {s : State} {sum : Nat} {count : Nat} {m : LinkMsg} (h : s.Keeps q v r) :
    (State.digest s sum count m).Keeps q v r := by
  unfold State.digest
  exact State.bump64_keeps (State.bump64_keeps h)

theorem State.useCtx_keeps {s : State} {n : Nat} {peer : Nat} {f : PeerCtx → PeerCtx} (h : s.Keeps q v r) :
    (State.useCtx s n peer f).Keeps q v r := by
  unfold State.useCtx
  extract_lets -underBinder +onlyGivenNames n1
  exact State.modLinks_keeps h (fun _ hl => hl)

theorem State.putFlit_keeps {s : State} {n : Nat} {null : Bool} {f : Flit} (h : s.Keeps q v r) :
    (State.putFlit s n null f).Keeps q v r := by
  unfold State.putFlit
  extract_lets -underBinder +onlyGivenNames n1 n2 n3 s4
  have h5 : s4.Keeps q v r := State.modLinks_keeps (State.bump64_keeps h) (fun _ hl => hl)
  clear_value s4
  exact State.modPort_keeps h5

theorem State.putNew_keeps {s : State} {n : Nat} {f : Flit} (h : s.Keeps q v r) :
    (State.putNew s n f).Keeps q v r := by
  unfold State.putNew
  extract_lets -underBinder +onlyGivenNames n1
  exact State.modPort_keeps (State.putFlit_keeps h)

theorem State.putNulls_keeps {s : State} {n k : Nat} (h : s.Keeps q v r) : (s.putNulls n k).Keeps q v r := by
  induction k generalizing s with
  | zero => exact h
  | succ k ih =>
    unfold State.putNulls
    exact State.Keeps.ite (ih (State.putFlit_keeps h)) h

theorem State.settlePorts_keeps {s : State} (h : s.Keeps q v r) :
    (State.settlePorts s).Keeps q v r := by
  unfold State.settlePorts
  refine State.forEach_keeps h ?_
  intro s1 x3 h2
  exact State.Keeps.ite (State.putNulls_keeps h2) h2

theorem State.giveFlits_keeps {s : State} {o : OutMsg} {count : Nat} (h : s.Keeps q v r) :
    (State.giveFlits s o count).Keeps q v r := by
  unfold State.giveFlits
  split
  · exact State.Keeps.ite (State.modPort_keeps h) h
  · exact h

theorem State.giveBack_keeps {s : State} {o : OutMsg} (h : s.Keeps q v r) :
    (State.giveBack s o).Keeps q v r := by
  unfold State.giveBack
  exact State.giveFlits_keeps h

theorem State.sendFlit_keeps {s : State} {n : Nat} {o : OutMsg} {f : Flit} (h : s.Keeps q v r) :
    (State.sendFlit s n o f).Keeps q v r := by
  unfold State.sendFlit
  extract_lets -underBinder +onlyGivenNames n1 s2
  have h3 : s2.Keeps q v r := State.giveFlits_keeps (State.modPort_keeps (State.putNew_keeps h))
  clear_value s2
  exact State.Keeps.ite (State.modLinks_keeps h3 (fun _ hl => hl)) h3

theorem State.pumpFlits_keeps {s : State} {n k : Nat} (h : s.Keeps q v r) : (s.pumpFlits n k).Keeps q v r := by
  induction k generalizing s with
  | zero => exact h
  | succ k ih =>
    unfold State.pumpFlits
    dsimp only
    split
    · exact h
    · split
      · exact h
      · exact ih (State.sendFlit_keeps h)

theorem State.putFrame_keeps {s : State} {n : Nat} {type : Nat} {m : LinkMsg} (h : s.Keeps q v r) :
    (State.putFrame s n type m).Keeps q v r := by
  unfold State.putFrame
  extract_lets -underBinder +onlyGivenNames n1
  exact State.modLinks_keeps (State.bump64_keeps h) (fun _ hl => hl)

theorem State.pauseChannel_keeps {s : State} {n : Nat} {vc : BitVec 2} (h : s.Keeps q v r) :
    (State.pauseChannel s n vc).Keeps q v r := by
  unfold State.pauseChannel
  extract_lets -underBinder +onlyGivenNames n1
  have h2 : n1.2.Keeps q v r := State.draw_keeps h
  clear_value n1
  refine State.Keeps.ite ?_ h2
  extract_lets -underBinder +onlyGivenNames n3
  exact State.modLinks_keeps (State.bump64_keeps h2) (fun _ hl => hl)

theorem State.emit_keeps {s : State} {n : Nat} {o : OutMsg} (h : s.Keeps q v r) :
    (State.emit s n o).Keeps q v r := by
  unfold State.emit
  refine State.Keeps.ite (State.modLinks_keeps (State.giveBack_keeps (State.putFrame_keeps h)) (fun _ hl => hl)) ?_
  extract_lets -underBinder +onlyGivenNames n1 n2 n3 n4
  exact State.modLinks_keeps (State.useCtx_keeps (State.giveBack_keeps (State.putFrame_keeps h))) (fun _ hl => hl)

theorem State.pumpFrames_keeps {s : State} {n : Nat} {kept l : List OutMsg} (h : s.Keeps q v r) :
    (s.pumpFrames n kept l).Keeps q v r := by
  induction l generalizing s kept with
  | nil => exact State.modPort_keeps h
  | cons o rest ih =>
    unfold State.pumpFrames
    split
    · exact ih h
    · exact ih (State.emit_keeps h)

theorem State.countPortStall_keeps {s : State} {n : Nat} (h : s.Keeps q v r) :
    (State.countPortStall s n).Keeps q v r := by
  unfold State.countPortStall
  exact State.modPort_keeps (State.bump_keeps h)

theorem State.dropWaiting_keeps {s : State} {n : Nat} (h : s.Keeps q v r) :
    (State.dropWaiting s n).Keeps q v r := by
  unfold State.dropWaiting
  refine State.modPort_keeps ?_
  refine State.countPortStall_keeps ?_
  refine State.forEach_keeps h ?_
  intro s1 x3 h2
  exact State.dropMessage_keeps (State.giveFlits_keeps h2)

theorem State.pumpPort_keeps {s : State} {n : Nat} (h : s.Keeps q v r) :
    (State.pumpPort s n).Keeps q v r := by
  unfold State.pumpPort
  extract_lets -underBinder +onlyGivenNames n1
  refine State.Keeps.ite h ?_
  extract_lets -underBinder +onlyGivenNames s2
  have h3 : s2.Keeps q v r := State.countPortStall_keeps h
  clear_value s2
  extract_lets -underBinder +onlyGivenNames n4
  exact State.Keeps.ite (State.pumpFlits_keeps h3) (State.pumpFrames_keeps h3)

theorem State.enqueue_keeps {s : State} {n : Nat} {type : Nat} {m : LinkMsg} {came : Option (Nat × Nat)} (h : s.Keeps q v r) :
    (State.enqueue s n type m came).Keeps q v r := by
  unfold State.enqueue
  extract_lets -underBinder +onlyGivenNames n1
  exact State.pumpPort_keeps (State.modPort_keeps h)

theorem State.number_keeps {s : State} {n : Nat} {p : Nat} {m : LinkMsg} (h : s.Keeps q v r) :
    (State.number s n p m).2.Keeps q v r := by
  unfold State.number
  extract_lets -underBinder +onlyGivenNames n1 n2 n3
  exact State.digest_keeps (State.modLinks_keeps h (fun _ hl => hl))

theorem State.handOver_keeps {s : State} {n : Nat} {p : Nat} {type : Nat} {m : LinkMsg} (h : s.Keeps q v r) :
    (State.handOver s n p type m).Keeps q v r := by
  unfold State.handOver
  extract_lets -underBinder +onlyGivenNames n1
  have h2 : n1.2.Keeps q v r := State.number_keeps h
  clear_value n1
  exact State.enqueue_keeps h2

theorem State.sendDirect_keeps {s : State} {p : Nat} {type : Nat} {m : LinkMsg} (h : s.Keeps q v r) :
    (State.sendDirect s p type m).Keeps q v r := by
  unfold State.sendDirect
  split
  · exact State.handOver_keeps h
  · exact State.dropMessage_keeps h
  · exact h

theorem State.signalTile_keeps {s : State} {n : Nat} {p : Nat} {tile : Nat} {ctr : Nat} (h : s.Keeps q v r) :
    (State.signalTile s n p tile ctr).Keeps q v r := by
  unfold State.signalTile
  split
  · exact State.Keeps.ite h (State.modNets_keeps (State.signalCrosses_keeps h))
  · exact h

theorem State.takeEngine_keeps {s : State} {k : Nat} {p : Nat} (h : s.Keeps q v r) :
    (State.takeEngine s k p).Keeps q v r := by
  unfold State.takeEngine
  extract_lets -underBinder +onlyGivenNames s1
  have h2 : s1.Keeps q v r := by
    refine State.forEach_keeps h ?_
    intro s3 x5 h4
    extract_lets -underBinder +onlyGivenNames s6
    have h7 : s6.Keeps q v r := State.bump_keeps (State.modSlot_keeps h4)
    clear_value s6
    exact State.Keeps.ite h7 (State.setIrq_keeps (State.modPld_keeps h7))
  clear_value s1
  exact State.modSlot_keeps (State.useSlot_keeps h2)

theorem State.remoteWait_keeps {s : State} {k : Nat} {p : Nat} (h : s.Keeps q v r) :
    (State.remoteWait s k p).Keeps q v r := by
  unfold State.remoteWait
  extract_lets -underBinder +onlyGivenNames n1
  exact State.Keeps.ite h (State.modSlot_keeps h)

theorem State.noteArrival_keeps {s : State} {k : Nat} {p : Nat} (h : s.Keeps q v r) :
    (State.noteArrival s k p).Keeps q v r := by
  unfold State.noteArrival
  refine State.Keeps.ite ?_ h
  extract_lets -underBinder +onlyGivenNames n1 n2
  exact State.modSlot_keeps (State.noteWait_keeps h)

theorem State.endWait_keeps {s : State} {k : Nat} {p : Nat} (h : s.Keeps q v r) :
    (State.endWait s k p).Keeps q v r := by
  unfold State.endWait
  exact State.Keeps.ite (State.modSlot_keeps (State.noteWait_keeps h)) h

theorem State.linkViolation_keeps {s : State} {n : Nat} {p : Nat} {code : Nat} {va : Nat} (h : s.Keeps q v r) :
    (State.linkViolation s n p code va).Keeps q v r := by
  unfold State.linkViolation
  exact State.raiseMaster_keeps h

theorem State.deliverWrite_keeps {s : State} {n : Nat} {p : Nat} {m : LinkMsg} (h : s.Keeps q v r) :
    (State.deliverWrite s n p m).2.Keeps q v r := by
  unfold State.deliverWrite
  extract_lets -underBinder +onlyGivenNames n1
  split
  · exact State.dropMessage_keeps h
  · split
    · exact State.dropMessage_keeps h
    · split
      · exact State.linkViolation_keeps h
      · extract_lets -underBinder +onlyGivenNames n2
        have h3 : n2.2.Keeps q v r := State.masterWrite_keeps h
        clear_value n2
        exact State.Keeps.ite (State.signalTile_keeps h3) h3

theorem State.deliverHere_keeps {s : State} {k : Nat} {o : OutMsg} (h : s.Keeps q v r) :
    (State.deliverHere s k o).Keeps q v r := by
  unfold State.deliverHere
  exact State.Keeps.ite (State.deliverWrite_keeps h) (State.modLinks_keeps h (fun _ hl => hl))

theorem State.setCredit_keeps {s : State} {p : Nat} {dst : Half} {n : Nat} (h : s.Keeps q v r) :
    (State.setCredit s p dst n).Keeps q v r := by
  unfold State.setCredit
  exact State.modLinks_keeps h (fun _ hl => hl)

theorem State.askCredit_keeps {s : State} {n : Nat} {k : Nat} {p : Nat} {dst : Half} (h : s.Keeps q v r) :
    (State.askCredit s n k p dst).Keeps q v r := by
  unfold State.askCredit
  extract_lets -underBinder +onlyGivenNames s1
  have h2 : s1.Keeps q v r := State.remoteWait_keeps h
  clear_value s1
  exact State.Keeps.ite h2 (State.handOver_keeps (State.modSlot_keeps h2))

theorem State.sendAll_keeps {s : State} {k p : Nat} {l : List OutMsg} (h : s.Keeps q v r) : (s.sendAll k p l).Keeps q v r := by
  induction l generalizing s with
  | nil => exact State.modSlot_keeps h
  | cons o rest ih =>
    simp only [State.sendAll]
    split
    · exact ih (State.deliverHere_keeps h)
    · exact ih (State.dropMessage_keeps h)
    · split
      · exact State.askCredit_keeps (State.modSlot_keeps h)
      · exact ih (State.handOver_keeps (State.setCredit_keeps h))

theorem State.pumpSlot_keeps {s : State} {k : Nat} {p : Nat} (h : s.Keeps q v r) :
    (State.pumpSlot s k p).Keeps q v r := by
  unfold State.pumpSlot
  exact State.sendAll_keeps h

theorem State.endSend_keeps {s : State} {k : Nat} {p : Nat} (h : s.Keeps q v r) :
    (State.endSend s k p).Keeps q v r := by
  unfold State.endSend
  split
  · exact h
  · extract_lets -underBinder +onlyGivenNames s1
    have h2 : s1.Keeps q v r := State.modSlot_keeps (State.endWait_keeps h)
    clear_value s1
    exact State.Keeps.ite (State.signalTile_keeps h2) h2

theorem State.runSend_keeps {s : State} {k : Nat} {p : Nat} (h : s.Keeps q v r) :
    (State.runSend s k p).Keeps q v r := by
  unfold State.runSend
  extract_lets -underBinder +onlyGivenNames s1
  have h2 : s1.Keeps q v r := State.pumpSlot_keeps h
  clear_value s1
  extract_lets -underBinder +onlyGivenNames n3
  split
  · exact h2
  · refine State.Keeps.ite h2 ?_
    refine State.Keeps.ite (State.endSend_keeps h2) ?_
    extract_lets -underBinder +onlyGivenNames n4
    exact State.modLinks_keeps (State.modSlot_keeps (State.remoteWait_keeps h2)) (fun _ hl => hl)

theorem State.ackWrite_keeps {s : State} {p : Nat} {dst : Half} {vc : Option Nat} (h : s.Keeps q v r) :
    (State.ackWrite s p dst vc).Keeps q v r := by
  unfold State.ackWrite
  split
  · exact h
  · exact State.Keeps.ite (State.endWait_keeps h) (State.endSend_keeps h)

theorem State.restRed_keeps {s : State} {p : Nat} (h : s.Keeps q v r) :
    (State.restRed s p).Keeps q v r := by
  unfold State.restRed
  extract_lets -underBinder +onlyGivenNames n1
  exact State.Keeps.ite h (State.modSlot_keeps (State.endWait_keeps h))

theorem State.takeCredit_keeps {s : State} {p : Nat} {dst : Half} {n : Nat} (h : s.Keeps q v r) :
    (State.takeCredit s p dst n).Keeps q v r := by
  unfold State.takeCredit
  refine State.Keeps.ite h ?_
  extract_lets -underBinder +onlyGivenNames s1
  have h2 : s1.Keeps q v r := State.setCredit_keeps h
  clear_value s1
  refine State.forEach_keeps h2 ?_
  intro s3 x5 h4
  split
  · exact h4
  · refine State.Keeps.ite h4 ?_
    extract_lets -underBinder +onlyGivenNames s6
    have h7 : s6.Keeps q v r := State.modSlot_keeps (State.endWait_keeps h4)
    clear_value s6
    refine State.Keeps.ite h7 ?_
    exact State.Keeps.ite (State.restRed_keeps (State.pumpSlot_keeps h7)) (State.runSend_keeps h7)

theorem State.serveAsks_keeps {s : State} {n : Nat} {p : Nat} (h : s.Keeps q v r) :
    (State.serveAsks s n p).Keeps q v r := by
  unfold State.serveAsks
  split
  · exact h
  · extract_lets -underBinder +onlyGivenNames n1 n2
    refine State.Keeps.ite h ?_
    extract_lets -underBinder +onlyGivenNames s3
    have h4 : s3.Keeps q v r := State.modLinks_keeps h (fun _ hl => hl)
    clear_value s3
    exact State.sendDirect_keeps h4

theorem State.freeSlot_keeps {s : State} {n : Nat} {p : Nat} (h : s.Keeps q v r) :
    (State.freeSlot s n p).Keeps q v r := by
  unfold State.freeSlot
  exact State.serveAsks_keeps (State.modLinks_keeps h (fun _ hl => hl))

theorem State.receive_keeps {s : State} {n : Nat} {type : Nat} {m : LinkMsg} {deliver : Nat → State → State} (h : s.Keeps q v r) (hdeliver : ∀ y1 y2, State.Keeps q v r y2 → (deliver y1 y2).Keeps q v r) :
    (State.receive s n type m deliver).Keeps q v r := by
  unfold State.receive
  extract_lets -underBinder +onlyGivenNames n1 s2
  have h3 : s2.Keeps q v r := State.noteArrival_keeps (State.digest_keeps h)
  clear_value s2
  extract_lets -underBinder +onlyGivenNames s4
  have h5 : s4.Keeps q v r := State.Keeps.ite (State.noteArrival_keeps h3) h3
  clear_value s4
  extract_lets -underBinder +onlyGivenNames s6
  have h7 : s6.Keeps q v r := State.Keeps.ite (State.takeCredit_keeps h5) h5
  clear_value s6
  extract_lets -underBinder +onlyGivenNames s8
  have h9 : s8.Keeps q v r := hdeliver _ _ h7
  clear_value s8
  exact State.Keeps.ite (State.freeSlot_keeps h9) h9

theorem State.forward_keeps {s : State} {n : Nat} {type : Nat} {m : LinkMsg} (h : s.Keeps q v r) :
    (State.forward s n type m).Keeps q v r := by
  unfold State.forward
  extract_lets -underBinder +onlyGivenNames s1
  have h2 : s1.Keeps q v r := State.digest_keeps h
  clear_value s1
  split
  · extract_lets -underBinder +onlyGivenNames n3 n4
    refine State.Keeps.ite ?_ (State.dropMessage_keeps (State.giveBack_keeps h2))
    extract_lets -underBinder +onlyGivenNames s5
    have h6 : s5.Keeps q v r := State.crossSeams_keeps h2
    clear_value s5
    exact State.enqueue_keeps (State.digest_keeps h6)
  · exact State.dropMessage_keeps (State.giveBack_keeps h2)

theorem State.ackPsn_keeps {s : State} {n : Nat} {m : LinkMsg} (h : s.Keeps q v r) :
    (State.ackPsn s n m).Keeps q v r := by
  unfold State.ackPsn
  extract_lets -underBinder +onlyGivenNames n1 n2
  exact State.sendDirect_keeps h

theorem State.takeAck_keeps {s : State} {n : Nat} {ack : BitVec 12} (h : s.Keeps q v r) :
    (State.takeAck s n ack).Keeps q v r := by
  unfold State.takeAck
  extract_lets -underBinder +onlyGivenNames n1
  exact State.Keeps.ite h (State.modPort_keeps h)

theorem State.takeCredits_keeps {s : State} {n : Nat} {key : Nat} {count : Nat} (h : s.Keeps q v r) :
    (State.takeCredits s n key count).Keeps q v r := by
  unfold State.takeCredits
  exact State.modPort_keeps (State.countPortStall_keeps h)

theorem State.takeFlits_keeps {s : State} {n : Nat} {fs : List FlitHdr} (h : s.Keeps q v r) :
    (State.takeFlits s n fs).Keeps q v r := by
  unfold State.takeFlits
  extract_lets -underBinder +onlyGivenNames n1 n2
  exact State.bump64_keeps (State.modPort_keeps h)

theorem State.freeBuffer_keeps {s : State} {n : Nat} {m : LinkMsg} (h : s.Keeps q v r) :
    (State.freeBuffer s n m).Keeps q v r := by
  unfold State.freeBuffer
  exact State.giveBack_keeps h

theorem State.badCodeword_keeps {s : State} {n : Nat} (h : s.Keeps q v r) : (s.badCodeword n).Keeps q v r :=
  State.Keeps.ite (State.setIrq_keeps (State.draw_keeps h)) (State.draw_keeps h)

theorem State.arriveMsg_keeps {s : State} {n : Nat} {type : Nat} {m : LinkMsg} {deliver : Nat → State → State} (h : s.Keeps q v r) (hdeliver : ∀ y1 y2, State.Keeps q v r y2 → (deliver y1 y2).Keeps q v r) :
    (State.arriveMsg s n type m deliver).Keeps q v r := by
  unfold State.arriveMsg
  refine State.Keeps.ite ?_ ?_
  · exact State.Keeps.ite (State.receive_keeps (State.freeBuffer_keeps h) hdeliver) (State.forward_keeps h)
  · extract_lets -underBinder +onlyGivenNames s1
    have h2 : s1.Keeps q v r := State.bump64_keeps h
    clear_value s1
    extract_lets -underBinder +onlyGivenNames n3
    refine State.Keeps.ite (State.dropMessage_keeps (State.Keeps.ite h2 (State.badCodeword_keeps h2))) ?_
    extract_lets -underBinder +onlyGivenNames s4
    have h5 : s4.Keeps q v r := State.pauseChannel_keeps h2
    clear_value s4
    refine State.Keeps.ite (State.receive_keeps h5 hdeliver) ?_
    refine State.Keeps.ite h5 ?_
    extract_lets -underBinder +onlyGivenNames n6
    refine State.Keeps.ite (State.ackPsn_keeps h5) ?_
    extract_lets -underBinder +onlyGivenNames s7
    have h8 : s7.Keeps q v r := State.useCtx_keeps h5
    clear_value s7
    exact State.receive_keeps (State.ackPsn_keeps h8) hdeliver

theorem State.faultPolders_keeps {s : State} {code : Nat} {unit : Nat} {pick : Polder → Bool} (h : s.Keeps q v r) :
    (State.faultPolders s code unit pick).Keeps q v r := by
  unfold State.faultPolders
  refine State.forEach_keeps h ?_
  intro s1 x3 h2
  exact State.Keeps.ite (State.raisePart_keeps h2) h2

theorem State.sendAlarm_keeps {s : State} {ring : Nat} {origin : Nat} {number : Nat} {from_ : Option (Nat × Bool)} {n : Nat} (h : s.Keeps q v r) :
    (State.sendAlarm s ring origin number from_ n).Keeps q v r := by
  unfold State.sendAlarm
  extract_lets -underBinder +onlyGivenNames n1 n2
  have h3 : n2.2.Keeps q v r := State.number_keeps h
  clear_value n2
  exact State.setIrq_keeps (State.enqueue_keeps h3)

theorem State.freshLink_keeps {s : State} {n : Nat} (h : s.Keeps q v r) :
    (State.freshLink s n).Keeps q v r := by
  unfold State.freshLink
  exact State.modPort_keeps h

theorem State.portDown_keeps {s : State} {n : Nat} {cause : Nat} (h : s.Keeps q v r) :
    (State.portDown s n cause).Keeps q v r := by
  unfold State.portDown
  extract_lets -underBinder +onlyGivenNames n1 s2
  have h3 : s2.Keeps q v r := State.modPort_keeps h
  clear_value s2
  extract_lets -underBinder +onlyGivenNames s4
  have h5 : s4.Keeps q v r := State.freshLink_keeps (State.dropWaiting_keeps h3)
  clear_value s4
  extract_lets -underBinder +onlyGivenNames s6
  have h7 : s6.Keeps q v r := State.setReg_keeps (State.setReg_keeps h5)
  clear_value s6
  exact State.logError_keeps (State.setIrq_keeps h7)

theorem State.linkDown_keeps {s : State} {n : Nat} {cause : Nat} (h : s.Keeps q v r) :
    (State.linkDown s n cause).Keeps q v r := by
  unfold State.linkDown
  extract_lets -underBinder +onlyGivenNames n1 s2
  have h3 : s2.Keeps q v r := State.portDown_keeps h
  clear_value s2
  refine State.Keeps.ite ?_ (State.faultPolders_keeps h3)
  extract_lets -underBinder +onlyGivenNames s4
  have h5 : s4.Keeps q v r := State.faultPolders_keeps h3
  clear_value s4
  extract_lets -underBinder +onlyGivenNames n6 s7
  have h8 : s7.Keeps q v r := State.modLinks_keeps h5 (fun _ hl => hl)
  clear_value s7
  refine State.forEach_keeps h8 ?_
  intro s9 x11 h10
  exact State.sendAlarm_keeps h10

theorem State.replay_keeps {s : State} {n : Nat} (h : s.Keeps q v r) :
    (State.replay s n).Keeps q v r := by
  unfold State.replay
  extract_lets -underBinder +onlyGivenNames n1
  refine State.Keeps.ite h ?_
  extract_lets -underBinder +onlyGivenNames s2
  have h3 : s2.Keeps q v r := by
    refine State.bump_keeps ?_
    refine State.forEach_keeps h ?_
    intro s4 x6 h5
    exact State.putFlit_keeps h5
  clear_value s2
  extract_lets -underBinder +onlyGivenNames s7
  have h8 : s7.Keeps q v r := State.modPort_keeps h3
  clear_value s7
  exact State.Keeps.ite (State.linkDown_keeps h8) h8

theorem State.takeHeader_keeps {s : State} {n : Nat} {f : FlitHdr} (h : s.Keeps q v r) :
    (State.takeHeader s n f).Keeps q v r := by
  unfold State.takeHeader
  extract_lets -underBinder +onlyGivenNames s1
  have h2 : s1.Keeps q v r := State.takeCredits_keeps (State.takeAck_keeps h)
  clear_value s1
  exact State.Keeps.ite (State.replay_keeps h2) h2

theorem State.arrive_keeps {s : State} {n : Nat} {type : Nat} {m : LinkMsg} {deliver : Nat → State → State} (h : s.Keeps q v r) (hdeliver : ∀ y1 y2, State.Keeps q v r y2 → (deliver y1 y2).Keeps q v r) :
    (State.arrive s n type m deliver).Keeps q v r := by
  unfold State.arrive
  refine State.Keeps.ite h ?_
  refine State.Keeps.ite (State.arriveMsg_keeps h hdeliver) ?_
  refine State.Keeps.ite h ?_
  extract_lets -underBinder +onlyGivenNames s1
  have h2 : s1.Keeps q v r := by
    refine State.takeFlits_keeps ?_
    refine State.forEach_keeps h ?_
    intro s3 x5 h4
    exact State.takeHeader_keeps h4
  clear_value s1
  exact State.Keeps.ite h2 (State.settlePorts_keeps (State.pumpPort_keeps (State.arriveMsg_keeps h2 hdeliver)))

theorem State.enterUp_keeps {s : State} {n : Nat} (h : s.Keeps q v r) :
    (State.enterUp s n).Keeps q v r := by
  unfold State.enterUp
  extract_lets -underBinder +onlyGivenNames n1 s2
  have h3 : s2.Keeps q v r := State.modPort_keeps h
  clear_value s2
  extract_lets -underBinder +onlyGivenNames s4
  have h5 : s4.Keeps q v r := State.setIrq_keeps (State.bump_keeps h3)
  clear_value s4
  refine State.Keeps.ite h5 ?_
  extract_lets -underBinder +onlyGivenNames n6
  refine State.Keeps.ite (State.modJournal_keeps h5 (fun _ => List.prefix_rfl)) ?_
  extract_lets -underBinder +onlyGivenNames s7
  have h8 : s7.Keeps q v r := State.modJournal_keeps h5 (fun _ => List.prefix_rfl)
  clear_value s7
  exact State.append_keeps h8

/-! ### Ports -/

theorem State.enterMode_keeps {s : State} {n : Nat} {mode : Nat} (h : s.Keeps q v r) :
    (State.enterMode s n mode).Keeps q v r := by
  unfold State.enterMode
  exact State.settlePorts_keeps (State.freshLink_keeps (State.modPort_keeps (State.dropWaiting_keeps h)))

theorem State.writePrtCtl_keeps {s : State} {n : Nat} {value : Word} (h : s.Keeps q v r) :
    (State.writePrtCtl s n value).Keeps q v r := by
  unfold State.writePrtCtl
  extract_lets -underBinder +onlyGivenNames n1 n2
  refine State.Keeps.ite (State.ignoreWrite_keeps h) ?_
  extract_lets -underBinder +onlyGivenNames s3
  have h4 : s3.Keeps q v r := State.setReg_keeps h
  clear_value s3
  exact State.Keeps.ite h4 (State.enterMode_keeps h4)

theorem execPrtCtl_keeps {n : PortId} {value : Word} {s : State} (h : s.Keeps q v r) :
    ∃ s', execPrtCtl n value s = .next s' ∧ s'.Keeps q v r := by
  unfold execPrtCtl
  refine ⟨_, rfl, ?_⟩
  refine State.Keeps.ite (State.answerWritten_keeps (State.writePrtCtl_keeps (State.accessCrosses_keeps h))) ?_
  exact State.answerError_keeps h

theorem State.countOwn_keeps {s : State} {n : Nat} {seq : Dword} {payload : List Byte} (h : s.Keeps q v r) :
    (State.countOwn s n seq payload).Keeps q v r := by
  unfold State.countOwn
  exact State.digest_keeps h

theorem State.sendIdent_keeps {s : State} {n : Nat} (h : s.Keeps q v r) :
    (State.sendIdent s n).Keeps q v r := by
  unfold State.sendIdent
  extract_lets -underBinder +onlyGivenNames n1 n2
  have h3 : n2.2.Keeps q v r := State.number_keeps h
  clear_value n2
  exact State.enqueue_keeps h3

theorem State.endTraining_keeps {s : State} {k : Nat} {lanes : BitVec 4} (h : s.Keeps q v r) :
    (State.endTraining s k lanes).Keeps q v r := by
  unfold State.endTraining
  extract_lets -underBinder +onlyGivenNames s1
  have h2 : s1.Keeps q v r := State.modPort_keeps h
  clear_value s1
  refine State.Keeps.ite ?_ ?_
  · refine State.Keeps.ite (State.sendIdent_keeps (State.modPort_keeps (State.freshLink_keeps h2))) ?_
    exact State.enterUp_keeps h2
  · extract_lets -underBinder +onlyGivenNames n3
    exact State.modSpares_keeps (State.modPort_keeps h2)

theorem execPortTraining_keeps {n : PortId} {lanes : BitVec 4} {s : State} (h : s.Keeps q v r) :
    ∃ s', execPortTraining n lanes s = .next s' ∧ s'.Keeps q v r := by
  unfold execPortTraining
  refine ⟨_, rfl, ?_⟩
  exact State.Keeps.ite h (State.endTraining_keeps h)

theorem State.miswire_keeps {s : State} {n : Nat} (h : s.Keeps q v r) :
    (State.miswire s n).Keeps q v r := by
  unfold State.miswire
  exact State.setIrq_keeps (State.modPort_keeps h)

theorem execIdent_keeps {n : PortId} {peer : BitVec 12} {peerPort : InFlit (BitVec 4)} {s : State} (h : s.Keeps q v r) :
    ∃ s', execIdent n peer peerPort s = .next s' ∧ s'.Keeps q v r := by
  unfold execIdent
  refine ⟨_, rfl, ?_⟩
  refine State.Keeps.ite h ?_
  extract_lets -underBinder +onlyGivenNames s1
  have h2 : s1.Keeps q v r := State.countOwn_keeps (State.takeFlits_keeps (State.takeHeader_keeps h))
  clear_value s1
  extract_lets -underBinder +onlyGivenNames s3
  have h4 : s3.Keeps q v r := State.setReg_keeps h2
  clear_value s3
  refine State.Keeps.ite (State.settlePorts_keeps (State.enterUp_keeps (State.modPort_keeps h4))) ?_
  exact State.miswire_keeps h4

theorem execIdentTimeout_keeps {n : PortId} {s : State} (h : s.Keeps q v r) :
    ∃ s', execIdentTimeout n s = .next s' ∧ s'.Keeps q v r := by
  unfold execIdentTimeout
  refine ⟨_, rfl, ?_⟩
  exact State.Keeps.ite (State.miswire_keeps h) h

theorem execPortRetry_keeps {n : PortId} {s : State} (h : s.Keeps q v r) :
    ∃ s', execPortRetry n s = .next s' ∧ s'.Keeps q v r := by
  unfold execPortRetry
  refine ⟨_, rfl, ?_⟩
  exact State.Keeps.ite (State.modPort_keeps h) h

theorem execLinkSignalLoss_keeps {n : PortId} {lane : BitVec 2} {s : State} (h : s.Keeps q v r) :
    ∃ s', execLinkSignalLoss n lane s = .next s' ∧ s'.Keeps q v r := by
  unfold execLinkSignalLoss
  refine ⟨_, rfl, ?_⟩
  exact State.Keeps.ite h (State.settlePorts_keeps (State.linkDown_keeps (State.modPort_keeps h)))

theorem execLinkFlitCrcError_keeps {n : PortId} {s : State} (h : s.Keeps q v r) :
    ∃ s', execLinkFlitCrcError n s = .next s' ∧ s'.Keeps q v r := by
  unfold execLinkFlitCrcError
  refine ⟨_, rfl, ?_⟩
  exact State.Keeps.ite h (State.settlePorts_keeps (State.modPort_keeps (State.badCodeword_keeps h)))

theorem execLinkNak_keeps {n : PortId} {ack : BitVec 12} {s : State} (h : s.Keeps q v r) :
    ∃ s', execLinkNak n ack s = .next s' ∧ s'.Keeps q v r := by
  unfold execLinkNak
  refine ⟨_, rfl, ?_⟩
  refine State.Keeps.ite h ?_
  refine State.settlePorts_keeps ?_
  exact State.pumpPort_keeps (State.replay_keeps (State.takeAck_keeps (State.bump64_keeps h)))

theorem execLinkAckTimeout_keeps {n : PortId} {s : State} (h : s.Keeps q v r) :
    ∃ s', execLinkAckTimeout n s = .next s' ∧ s'.Keeps q v r := by
  unfold execLinkAckTimeout
  refine ⟨_, rfl, ?_⟩
  exact State.Keeps.ite (State.settlePorts_keeps (State.replay_keeps h)) h

theorem execNullFlit_keeps {n : PortId} {ack : BitVec 12} {vc : BitVec 2} {cls : Bool} {count : BitVec 9} {s : State} (h : s.Keeps q v r) :
    ∃ s', execNullFlit n ack vc cls count s = .next s' ∧ s'.Keeps q v r := by
  unfold execNullFlit
  refine ⟨_, rfl, ?_⟩
  refine State.Keeps.ite h ?_
  extract_lets -underBinder +onlyGivenNames s1
  have h2 : s1.Keeps q v r := State.takeAck_keeps (State.bump64_keeps h)
  clear_value s1
  exact State.settlePorts_keeps (State.pumpPort_keeps (State.takeCredits_keeps h2))

theorem execResendTimeout_keeps {n : PortId} {peer : BitVec 12} {s : State} (h : s.Keeps q v r) :
    ∃ s', execResendTimeout n peer s = .next s' ∧ s'.Keeps q v r := by
  unfold execResendTimeout
  refine ⟨_, rfl, ?_⟩
  refine State.Keeps.ite h ?_
  extract_lets -underBinder +onlyGivenNames n1 s2
  have h3 : s2.Keeps q v r := by
    refine State.bump_keeps ?_
    refine State.forEach_keeps h ?_
    intro s4 x6 h5
    exact State.putFrame_keeps h5
  clear_value s2
  extract_lets -underBinder +onlyGivenNames s7
  have h8 : s7.Keeps q v r := State.modLinks_keeps h3 (fun _ hl => hl)
  clear_value s7
  exact State.useCtx_keeps h8

theorem execPfcPause_keeps {n : PortId} {pcp : BitVec 3} {s : State} (h : s.Keeps q v r) :
    ∃ s', execPfcPause n pcp s = .next s' ∧ s'.Keeps q v r := by
  unfold execPfcPause
  refine ⟨_, rfl, ?_⟩
  refine State.Keeps.ite h ?_
  extract_lets -underBinder +onlyGivenNames n1
  exact State.modPort_keeps (State.bump_keeps (State.countPortStall_keeps h))

theorem execPfcPauseEnd_keeps {n : PortId} {pcp : BitVec 3} {s : State} (h : s.Keeps q v r) :
    ∃ s', execPfcPauseEnd n pcp s = .next s' ∧ s'.Keeps q v r := by
  unfold execPfcPauseEnd
  refine ⟨_, rfl, ?_⟩
  refine State.Keeps.ite h ?_
  extract_lets -underBinder +onlyGivenNames n1
  exact State.pumpPort_keeps (State.modPort_keeps (State.countPortStall_keeps h))

theorem execLanePllLock_keeps {n : PortId} {s : State} (h : s.Keeps q v r) :
    ∃ s', execLanePllLock n s = .next s' ∧ s'.Keeps q v r := by
  unfold execLanePllLock
  refine ⟨_, rfl, ?_⟩
  exact State.Keeps.ite (State.modBoard_keeps (State.modPort_keeps h)) h

theorem execLrefclkLoss_keeps {s1 : Bool} {s : State} (h : s.Keeps q v r) :
    ∃ s', execLrefclkLoss s1 s = .next s' ∧ s'.Keeps q v r := by
  unfold execLrefclkLoss
  refine ⟨_, rfl, ?_⟩
  refine State.forEach_keeps (State.modBoard_keeps h) ?_
  intro s1 x3 h2
  exact State.modPort_keeps h2

theorem execWrite_keeps {n : PortId} {m : LinkMsg} {s : State} (h : s.Keeps q v r) :
    ∃ s', execWrite n m s = .next s' ∧ s'.Keeps q v r := by
  unfold execWrite
  refine ⟨_, rfl, ?_⟩
  refine State.arrive_keeps h ?_
  intro x1 s2 h3
  extract_lets -underBinder +onlyGivenNames n4
  have h5 : n4.2.Keeps q v r := State.deliverWrite_keeps h3
  clear_value n4
  exact State.Keeps.ite (State.sendDirect_keeps h5) h5

theorem execCredit_keeps {n : PortId} {m : LinkMsg} {grant : Bool} {s : State} (h : s.Keeps q v r) :
    ∃ s', execCredit n m grant s = .next s' ∧ s'.Keeps q v r := by
  unfold execCredit
  refine ⟨_, rfl, ?_⟩
  refine State.arrive_keeps h ?_
  intro x1 s2 h3
  refine State.Keeps.ite h3 ?_
  exact State.Keeps.ite (State.dropMessage_keeps h3) (State.serveAsks_keeps (State.modLinks_keeps h3 (fun _ hl => hl)))

theorem execAck_keeps {n : PortId} {m : LinkMsg} {s : State} (h : s.Keeps q v r) :
    ∃ s', execAck n m s = .next s' ∧ s'.Keeps q v r := by
  unfold execAck
  refine ⟨_, rfl, ?_⟩
  refine State.arrive_keeps h ?_
  intro x1 s2 h3
  refine State.Keeps.ite (State.ackWrite_keeps h3) ?_
  extract_lets -underBinder +onlyGivenNames n4 n5 n6
  refine State.Keeps.ite h3 ?_
  extract_lets -underBinder +onlyGivenNames s7
  have h8 : s7.Keeps q v r := State.useCtx_keeps h3
  clear_value s7
  extract_lets -underBinder +onlyGivenNames s9
  have h10 : s9.Keeps q v r := by
    refine State.forEach_keeps h8 ?_
    intro s11 x13 h12
    exact State.ackWrite_keeps h12
  clear_value s9
  exact State.pumpPort_keeps h10

theorem State.actOnAlarm_keeps {s : State} {k : Nat} {cls : Bool} {ring : Nat} {origin : Nat} {number : Nat} (h : s.Keeps q v r) :
    (State.actOnAlarm s k cls ring origin number).Keeps q v r := by
  unfold State.actOnAlarm
  extract_lets -underBinder +onlyGivenNames s1
  have h2 : s1.Keeps q v r := State.modLinks_keeps h (fun _ hl => hl)
  clear_value s1
  extract_lets -underBinder +onlyGivenNames s3
  have h4 : s3.Keeps q v r := State.faultPolders_keeps (State.portDown_keeps (State.setIrq_keeps h2))
  clear_value s3
  refine State.forEach_keeps h4 ?_
  intro s5 x7 h6
  exact State.sendAlarm_keeps h6

theorem execAlarm_keeps {n : PortId} {ring : BitVec 6} {origin : BitVec 12} {number : InFlit Half} {s : State} (h : s.Keeps q v r) :
    ∃ s', execAlarm n ring origin number s = .next s' ∧ s'.Keeps q v r := by
  unfold execAlarm
  refine ⟨_, rfl, ?_⟩
  refine State.Keeps.ite h ?_
  extract_lets -underBinder +onlyGivenNames s1
  have h2 : s1.Keeps q v r := State.takeHeader_keeps h
  clear_value s1
  refine State.Keeps.ite (State.settlePorts_keeps h2) ?_
  extract_lets -underBinder +onlyGivenNames s3
  have h4 : s3.Keeps q v r := State.countOwn_keeps (State.takeFlits_keeps h2)
  clear_value s3
  extract_lets -underBinder +onlyGivenNames n5 s6
  have h7 : s6.Keeps q v r := State.modPort_keeps h4
  clear_value s6
  exact State.settlePorts_keeps (State.Keeps.ite (State.dropMessage_keeps h7) (State.actOnAlarm_keeps h7))

theorem execSendDescriptor_keeps {n : PortId} {p : Meets PolderId Ecc} {s : State} (h : s.Keeps q v r) :
    ∃ s', execSendDescriptor n p s = .next s' ∧ s'.Keeps q v r := by
  unfold execSendDescriptor
  refine ⟨_, rfl, ?_⟩
  split
  · exact h
  · refine State.Keeps.ite h ?_
    extract_lets -underBinder +onlyGivenNames n1 n2
    split
    next s3 e5 =>
      have h4 : s3.Keeps q v r := by
        rw [show s3 = _ from (congrArg Prod.snd e5).symm]
        exact State.masterRead_keeps h
      exact State.modSlot_keeps h4
    next x6 s7 e9 =>
      have h8 : s7.Keeps q v r := by
        rw [show s7 = _ from (congrArg Prod.snd e9).symm]
        exact State.masterRead_keeps h
      refine State.Keeps.ite h8 ?_
      refine State.Keeps.ite (State.linkViolation_keeps h8) ?_
      extract_lets -underBinder +onlyGivenNames s10
      have h11 : s10.Keeps q v r := State.modPld_keeps h8
      clear_value s10
      exact State.modSlot_keeps h11

theorem State.startLink_keeps {s : State} {k : Nat} {p : Nat} {ecc : List Ecc} (h : s.Keeps q v r) :
    (State.startLink s k p ecc).Keeps q v r := by
  unfold State.startLink
  refine State.Keeps.ite h ?_
  split
  · exact h
  · extract_lets -underBinder +onlyGivenNames n1 s2
    have h3 : s2.Keeps q v r := State.takeEngine_keeps h
    clear_value s2
    refine State.Keeps.ite (State.Keeps.ite (State.endSend_keeps h3) (State.runSend_keeps h3)) ?_
    split
    next s4 e6 =>
      have h5 : s4.Keeps q v r := by
        rw [show s4 = _ from (congrArg Prod.snd e6).symm]
        exact State.masterRead_keeps h3
      exact State.modSlot_keeps h5
    next x7 s8 e10 =>
      have h9 : s8.Keeps q v r := by
        rw [show s8 = _ from (congrArg Prod.snd e10).symm]
        exact State.masterRead_keeps h3
      extract_lets -underBinder +onlyGivenNames n11
      exact State.runSend_keeps (State.modSlot_keeps h9)

/-! ### Reduction -/

theorem State.modRed_keeps {s : State} {p : Nat} {f : Reduction → Reduction} (h : s.Keeps q v r) :
    (State.modRed s p f).Keeps q v r := by
  unfold State.modRed
  exact State.modPld_keeps h

theorem State.modGroup_keeps {s : State} {p : Nat} {g : Nat} {f : Group → Group} (h : s.Keeps q v r) :
    (State.modGroup s p g f).Keeps q v r := by
  unfold State.modGroup
  exact State.modRed_keeps h

theorem execLedgerEntry_keeps {i : Nat} {s : State} (h : s.Keeps q v r) :
    ∃ s', execLedgerEntry i s = .next s' ∧ s'.Keeps q v r := by
  unfold execLedgerEntry
  refine ⟨_, rfl, ?_⟩
  split
  · exact h
  · extract_lets -underBinder +onlyGivenNames s1
    have h2 : s1.Keeps q v r := State.controlCrosses_keeps (State.modNets_keeps h)
    clear_value s1
    exact State.Keeps.ite (State.modRed_keeps h2) h2

theorem State.adderWrites_keeps {s : State} {p : Nat} {t : Tensor} {u : Nat} {x : Target} (h : s.Keeps q v r) :
    (State.adderWrites s p t u x).Keeps q v r := by
  unfold State.adderWrites
  exact State.discardRunAhead_keeps (State.watchCheck_keeps (State.targetSlots_keeps h))

theorem State.unitCrosses_keeps {s : State} {p : Nat} {via : Option PortId} {m : LinkMsg} {x : Target} (h : s.Keeps q v r) :
    (State.unitCrosses s p via m x).Keeps q v r := by
  unfold State.unitCrosses
  split
  · exact State.polderCrosses_keeps h
  · exact h

theorem State.redSend_keeps {s : State} {p : Nat} {msgs : List OutMsg} (h : s.Keeps q v r) :
    (State.redSend s p msgs).Keeps q v r := by
  unfold State.redSend
  refine State.Keeps.ite h ?_
  extract_lets -underBinder +onlyGivenNames n1 s2
  have h3 : s2.Keeps q v r := State.modSlot_keeps h
  clear_value s2
  exact State.Keeps.ite h3 (State.pumpSlot_keeps h3)

theorem State.sendOpens_keeps {s : State} {p : Nat} (h : s.Keeps q v r) :
    (State.sendOpens s p).Keeps q v r := by
  unfold State.sendOpens
  extract_lets -underBinder +onlyGivenNames n1
  exact State.redSend_keeps h

theorem State.settleRed_keeps {s : State} {p : Nat} (h : s.Keeps q v r) :
    (State.settleRed s p).Keeps q v r := by
  unfold State.settleRed
  extract_lets -underBinder +onlyGivenNames n1 n2
  refine State.Keeps.ite h ?_
  refine State.Keeps.ite (State.restRed_keeps h) ?_
  exact State.Keeps.ite h (State.Keeps.ite (State.endWait_keeps h) (State.remoteWait_keeps h))

theorem State.readUnit_keeps {s : State} {p : Nat} {x : Target} (h : s.Keeps q v r) :
    (State.readUnit s p x).Keeps q v r := by
  unfold State.readUnit
  extract_lets -underBinder +onlyGivenNames s1
  have h2 : s1.Keeps q v r := State.countRead_keeps h
  clear_value s1
  exact State.Keeps.ite h2 (State.bump_keeps h2)

theorem State.redStep_keeps {s : State} {p : Nat} (h : s.Keeps q v r) :
    (State.redStep s p).Keeps q v r := by
  unfold State.redStep
  split
  · exact State.settleRed_keeps (State.pumpSlot_keeps h)
  · extract_lets -underBinder +onlyGivenNames n1 s2
    have h3 : s2.Keeps q v r := by
      refine State.forEach_keeps h ?_
      intro s4 x6 h5
      exact State.readUnit_keeps h5
    clear_value s2
    exact State.settleRed_keeps (State.redSend_keeps (State.modGroup_keeps h3))

theorem State.startReduction_keeps {s : State} {p : Nat} (h : s.Keeps q v r) :
    (State.startReduction s p).Keeps q v r := by
  unfold State.startReduction
  refine State.Keeps.ite ?_ ?_
  · refine State.Keeps.ite h ?_
    exact State.Keeps.ite (State.redStep_keeps h) (State.settleRed_keeps (State.pumpSlot_keeps h))
  · refine State.Keeps.ite ?_ h
    refine State.Keeps.ite (State.redStep_keeps (State.takeEngine_keeps h)) ?_
    exact State.settleRed_keeps (State.pumpSlot_keeps (State.takeEngine_keeps h))

theorem State.endReducing_keeps {s : State} {p : Nat} (h : s.Keeps q v r) :
    (State.endReducing s p).Keeps q v r := by
  unfold State.endReducing
  refine State.Keeps.ite ?_ h
  extract_lets -underBinder +onlyGivenNames s1
  have h2 : s1.Keeps q v r := State.Keeps.ite (State.noteWait_keeps h) h
  clear_value s1
  exact State.modPld_keeps h2

theorem State.complete_keeps {s : State} {p : Nat} {id : Word} (h : s.Keeps q v r) :
    (State.complete s p id).Keeps q v r := by
  unfold State.complete
  extract_lets -underBinder +onlyGivenNames n1
  split
  · exact h
  · extract_lets -underBinder +onlyGivenNames n2 n3 n4
    refine State.Keeps.ite h ?_
    extract_lets -underBinder +onlyGivenNames s5
    have h6 : s5.Keeps q v r := by
      unfold s5
      split
      · exact State.curatorLands_keeps h
      · exact h
    clear_value s5
    exact State.endReducing_keeps (State.modRed_keeps h6)

theorem State.badMessage_keeps {s : State} {p : Nat} (h : s.Keeps q v r) :
    (State.badMessage s p).Keeps q v r := by
  unfold State.badMessage
  exact State.setIrq_keeps (State.bump_keeps h)

theorem State.takeToken_keeps {s : State} {p : Nat} {b : List Byte} (h : s.Keeps q v r) :
    (State.takeToken s p b).Keeps q v r := by
  unfold State.takeToken
  extract_lets -underBinder +onlyGivenNames n1 n2 s3
  have h4 : s3.Keeps q v r := State.bump_keeps h
  clear_value s3
  split
  · exact State.badMessage_keeps h4
  · refine State.Keeps.ite (State.badMessage_keeps h4) ?_
    exact State.Keeps.ite h4 (State.complete_keeps (State.modRed_keeps h4))

theorem State.sealUnits_keeps {s : State} {p : Nat} {t : Tensor} {toe : Int} {ecc : List Ecc} {l : List Nat} (h : s.Keeps q v r) :
    (s.sealUnits p t toe ecc l).2.Keeps q v r := by
  induction l generalizing s ecc with
  | nil => exact h
  | cons u us ih =>
    simp only [State.sealUnits]
    split
    · exact ih h
    · exact State.memLost_keeps h
    · split
      all_goals
        next e' =>
          rw [show _ = _ from (congrArg Prod.snd e').symm]
          have h2 {c : Prop} [Decidable c] {y : Target} {bs : List Byte} := State.bump64_keeps (a := redPage y.dev + 0x050) (n := 1)
            (State.countRead_keeps (x := y) (n := 1024) (State.memWrite_keeps (x := y) (bs := bs)
              (State.adderWrites_keeps (p := p) (t := t) (u := u) (x := y) (State.Keeps.ite (c := c) (State.memCorrected_keeps (x := y) h) h))))
          exact ih (State.Keeps.ite (State.bump_keeps h2) (State.bump_keeps (State.bump_keeps h2)))

theorem State.sendSealed_keeps {s : State} {p : Nat} {g : Nat} {t : Tensor} {z5 : Nat × Int × List (Nat × Unit64)} (h : s.Keeps q v r) :
    (State.sendSealed s p g t z5).Keeps q v r := by
  unfold State.sendSealed
  extract_lets -underBinder +onlyGivenNames n1 n2 n3 s4
  have h5 : s4.Keeps q v r := State.modGroup_keeps h
  clear_value s4
  extract_lets -underBinder +onlyGivenNames s6
  have h7 : s6.Keeps q v r := State.redSend_keeps h5
  clear_value s6
  exact State.settleRed_keeps (State.takeToken_keeps h7)

theorem execSealSlice_keeps {p : PolderId} {group : BitVec 4} {tensor : Meets Word (List Ecc)} {s : State} (h : s.Keeps q v r) :
    ∃ s', execSealSlice p group tensor s = .next s' ∧ s'.Keeps q v r := by
  unfold execSealSlice
  refine ⟨_, rfl, ?_⟩
  split
  · exact h
  · refine State.Keeps.ite h ?_
    extract_lets -underBinder +onlyGivenNames n1
    split
    next s2 e4 =>
      have h3 : s2.Keeps q v r := by
        rw [show s2 = _ from (congrArg Prod.snd e4).symm]
        exact State.sealUnits_keeps h
      exact h3
    next x5 s6 e8 =>
      have h7 : s6.Keeps q v r := by
        rw [show s6 = _ from (congrArg Prod.snd e8).symm]
        exact State.sealUnits_keeps h
      exact State.sendSealed_keeps h7

theorem State.takeLocal_keeps {s s' : State} {type : Nat} {m : LinkMsg} (h : s.Keeps q v r) (e : s.takeLocal type m = some s') :
    s'.Keeps q v r := by
  unfold State.takeLocal at e
  split at e
  · split at e
    · cases e; exact State.modLinks_keeps h (fun _ hl => hl)
    · cases e
  · cases e

theorem State.redArrive_keeps {s : State} {via : Option PortId} {type : Nat} {m : LinkMsg} {act : Nat → State → State}
    (h : s.Keeps q v r) (ha : ∀ p s, State.Keeps q v r s → (act p s).Keeps q v r) : (s.redArrive via type m act).Keeps q v r := by
  unfold State.redArrive
  split
  · exact State.arrive_keeps h (fun p s hs => State.Keeps.ite (State.settleRed_keeps (ha p s hs)) (State.dropMessage_keeps hs))
  · split
    · exact h
    next s' e =>
      have h1 : s'.Keeps q v r := State.takeLocal_keeps h e
      exact State.Keeps.ite (State.settleRed_keeps (ha _ _ (State.noteArrival_keeps h1))) h1

theorem execOpenMsg_keeps {via : Option PortId} {m : LinkMsg} {group : BitVec 4} {epoch : Word} {s : State} (h : s.Keeps q v r) :
    ∃ s', execOpenMsg via m group epoch s = .next s' ∧ s'.Keeps q v r := by
  unfold execOpenMsg
  refine ⟨_, rfl, ?_⟩
  refine State.Keeps.ite h ?_
  refine State.redArrive_keeps h ?_
  intro x1 s2 h3
  split
  · exact h3
  · exact State.modGroup_keeps h3

theorem execDataMsg_keeps {via : Option PortId} {m : LinkMsg} {ecc : Ecc} {s : State} (h : s.Keeps q v r) :
    ∃ s', execDataMsg via m ecc s = .next s' ∧ s'.Keeps q v r := by
  unfold execDataMsg
  refine ⟨_, rfl, ?_⟩
  refine State.redArrive_keeps h ?_
  intro x1 s2 h3
  split
  · exact State.badMessage_keeps h3
  · extract_lets -underBinder +onlyGivenNames n4
    refine State.Keeps.ite (State.badMessage_keeps h3) ?_
    split
    · exact h3
    · split
      · exact State.memLost_keeps h3
      · extract_lets -underBinder +onlyGivenNames s5
        have h6 : s5.Keeps q v r := State.Keeps.ite (State.memCorrected_keeps h3) h3
        clear_value s5
        extract_lets -underBinder +onlyGivenNames n7
        exact State.modGroup_keeps (State.addWords_keeps (State.adderWrites_keeps (State.unitCrosses_keeps h6)))

theorem execDoneMsg_keeps {via : Option PortId} {m : LinkMsg} {group : BitVec 4} {epoch : Word} {count : Word} {s : State} (h : s.Keeps q v r) :
    ∃ s', execDoneMsg via m group epoch count s = .next s' ∧ s'.Keeps q v r := by
  unfold execDoneMsg
  refine ⟨_, rfl, ?_⟩
  refine State.Keeps.ite h ?_
  refine State.redArrive_keeps h ?_
  intro x1 s2 h3
  split
  · exact h3
  · exact State.Keeps.ite (State.badMessage_keeps h3) (State.modGroup_keeps h3)

theorem execToken_keeps {via : Option PortId} {m : LinkMsg} {s : State} (h : s.Keeps q v r) :
    ∃ s', execToken via m s = .next s' ∧ s'.Keeps q v r := by
  unfold execToken
  refine ⟨_, rfl, ?_⟩
  refine State.redArrive_keeps h ?_
  intro x1 s2 h3
  exact State.takeToken_keeps h3

theorem execFinal_keeps {via : Option PortId} {m : LinkMsg} {s : State} (h : s.Keeps q v r) :
    ∃ s', execFinal via m s = .next s' ∧ s'.Keeps q v r := by
  unfold execFinal
  refine ⟨_, rfl, ?_⟩
  refine State.redArrive_keeps h ?_
  intro x1 s2 h3
  split
  · exact State.badMessage_keeps h3
  · refine State.Keeps.ite (State.badMessage_keeps h3) ?_
    split
    · exact h3
    · extract_lets -underBinder +onlyGivenNames n4 s5
      have h6 : s5.Keeps q v r := State.memWrite_keeps (State.adderWrites_keeps (State.unitCrosses_keeps h3))
      clear_value s5
      extract_lets -underBinder +onlyGivenNames n7
      exact State.complete_keeps (State.modRed_keeps h6)

/-! ### Schedule -/

theorem State.openStep_keeps {s : State} {p : Nat} (h : s.Keeps q v r) :
    (State.openStep s p).Keeps q v r := by
  unfold State.openStep
  refine State.Keeps.ite ?_ h
  refine State.modPld_keeps ?_
  refine State.forEach_keeps h ?_
  intro s1 x3 h2
  exact State.setReg_keeps h2

theorem execSubmissionEntry_keeps {p : Meets PolderId HostStatus} {s : State} (h : s.Keeps q v r) :
    ∃ s', execSubmissionEntry p s = .next s' ∧ s'.Keeps q v r := by
  unfold execSubmissionEntry
  refine ⟨_, rfl, ?_⟩
  refine State.Keeps.ite h ?_
  extract_lets -underBinder +onlyGivenNames n1 n2 n3 n4
  refine State.Keeps.ite (State.hostError_keeps h) ?_
  extract_lets -underBinder +onlyGivenNames s5
  have h6 : s5.Keeps q v r := State.askHost_keeps h
  clear_value s5
  extract_lets -underBinder +onlyGivenNames n7 n8 n9 n10 n11
  have h12 : ∀ y15, State.Keeps q v r y15 → (n11 y15).Keeps q v r := by
    intro s13 h14
    exact State.setVfReg_keeps h14
  clear_value n11
  refine State.Keeps.ite ?_ ?_
  · refine State.posting_keeps h6 ?_
    intro s16 h17
    exact State.postIfOn_keeps (h12 _ h17)
  · refine State.Keeps.ite (State.modPld_keeps (h12 _ h6)) ?_
    split
    · refine State.posting_keeps h6 ?_
      intro s18 h19
      extract_lets -underBinder +onlyGivenNames s20
      have h21 : s20.Keeps q v r := State.postIfOn_keeps (h12 _ h19)
      clear_value s20
      exact State.Keeps.ite h21 (State.setIrq_keeps (State.bump_keeps h21))
    · exact State.modPld_keeps (State.openStep_keeps (h12 _ h6))

theorem State.startOnTile_keeps {s : State} {p : Nat} {t : Nat} {record : List Byte} (h : s.Keeps q v r) :
    (State.startOnTile s p t record).Keeps q v r := by
  unfold State.startOnTile
  extract_lets -underBinder +onlyGivenNames s1
  have h2 : s1.Keeps q v r := State.modStore_keeps h (fun _ hm => ⟨hm.1, hm.2.1, hm.2.2.1, hm.2.2.2.1, Mem.wf_writeN hm.2.2.2.2.1 _ _, hm.2.2.2.2.2⟩)
  clear_value s1
  extract_lets -underBinder +onlyGivenNames s3
  have h4 : s3.Keeps q v r := State.incrementSlot_keeps h2
  clear_value s3
  exact State.modTile_keeps h4 (fun _ hx => hx)

theorem State.startSlot_keeps {s : State} {p : Nat} {head : List Byte} {tail : List Byte} (h : s.Keeps q v r) :
    (State.startSlot s p head tail).Keeps q v r := by
  unfold State.startSlot
  extract_lets -underBinder +onlyGivenNames n1 n2 s3
  have h4 : s3.Keeps q v r := State.bump_keeps (State.bump64_keeps h)
  clear_value s3
  extract_lets -underBinder +onlyGivenNames s5
  have h6 : s5.Keeps q v r := State.modPld_keeps h4
  clear_value s5
  refine State.forEach_keeps (State.controlBurst_keeps h6) ?_
  intro s7 x9 h8
  exact State.startOnTile_keeps h8

theorem State.startMicroBatch_keeps {s : State} {p : Nat} (h : s.Keeps q v r) :
    (State.startMicroBatch s p).Keeps q v r := by
  unfold State.startMicroBatch
  extract_lets -underBinder +onlyGivenNames n1
  split
  · exact h
  · extract_lets -underBinder +onlyGivenNames s2
    have h3 : s2.Keeps q v r := State.modPld_keeps h
    clear_value s2
    exact State.startSlot_keeps h3

theorem execCheckpointDeadline_keeps {t : TileId} {s : State} (h : s.Keeps q v r) :
    ∃ s', execCheckpointDeadline t s = .next s' ∧ s'.Keeps q v r := by
  unfold execCheckpointDeadline
  refine ⟨_, rfl, ?_⟩
  refine State.Keeps.ite h ?_
  split
  · exact h
  · exact State.countOverrun_keeps (State.modTile_keeps h (fun _ hx => hx))

theorem execRowWave_keeps {p : PolderId} {die : BitVec 2} {s : State} (h : s.Keeps q v r) :
    ∃ s', execRowWave p die s = .next s' ∧ s'.Keeps q v r := by
  unfold execRowWave
  refine ⟨_, rfl, ?_⟩
  split
  · exact h
  · extract_lets -underBinder +onlyGivenNames n1
    refine State.Keeps.ite h ?_
    extract_lets -underBinder +onlyGivenNames s2
    have h3 : s2.Keeps q v r := State.modPld_keeps h
    clear_value s2
    extract_lets -underBinder +onlyGivenNames s4
    have h5 : s4.Keeps q v r := State.controlCrosses_keeps (State.controlCrosses_keeps h3)
    clear_value s4
    refine State.forEach_keeps h5 ?_
    intro s6 x8 h7
    exact State.startTcc_keeps (State.modTile_keeps h7 (fun _ hx => hx))

/-! ### Training -/

theorem State.curatorWrite_keeps {s : State} {p : Nat} {va : Nat} {bs : List Byte} (h : s.Keeps q v r) :
    (State.curatorWrite s p va bs).Keeps q v r := by
  unfold State.curatorWrite
  refine State.forEach_keeps h ?_
  intro s1 x3 h2
  split
  · exact State.curatorLands_keeps h2
  · exact h2

theorem State.latchNf_keeps {s : State} {e : NfEvent} (h : s.Keeps q v r) :
    (State.latchNf s e).Keeps q v r := by
  unfold State.latchNf
  extract_lets -underBinder +onlyGivenNames s1
  have h2 : s1.Keeps q v r := State.setReg_keeps h
  clear_value s1
  exact State.modPld_keeps (State.setReg_keeps h2)

theorem State.postNf_keeps {s : State} {e : NfEvent} (h : s.Keeps q v r) :
    (State.postNf s e).Keeps q v r := by
  unfold State.postNf
  refine State.Keeps.ite ?_ h
  extract_lets -underBinder +onlyGivenNames n1
  exact State.modPld_keeps (State.postVf_keeps h)

theorem State.repostNf_keeps {s : State} {e : NfEvent} (h : s.Keeps q v r) :
    (State.repostNf s e).Keeps q v r := by
  unfold State.repostNf
  split
  · exact State.Keeps.ite h (State.hostWrite_keeps h)
  · exact h

theorem State.receiveNf_keeps {s : State} {e : NfEvent} (h : s.Keeps q v r) :
    (State.receiveNf s e).Keeps q v r := by
  unfold State.receiveNf
  extract_lets -underBinder +onlyGivenNames n1 s2
  have h3 : s2.Keeps q v r := State.bump64_keeps h
  clear_value s2
  refine State.Keeps.ite h3 ?_
  extract_lets -underBinder +onlyGivenNames s4
  have h5 : s4.Keeps q v r := State.bumpSat_keeps h3
  clear_value s4
  extract_lets -underBinder +onlyGivenNames n6
  refine State.Keeps.ite ?_ (State.Keeps.ite (State.repostNf_keeps (State.latchNf_keeps h5)) h5)
  extract_lets -underBinder +onlyGivenNames s7
  have h8 : s7.Keeps q v r := State.postNf_keeps (State.latchNf_keeps h5)
  clear_value s7
  exact State.Keeps.ite (State.setIrq_keeps h8) h8

theorem execNonFiniteEvent_keeps {i : Nat} {s : State} (h : s.Keeps q v r) :
    ∃ s', execNonFiniteEvent i s = .next s' ∧ s'.Keeps q v r := by
  unfold execNonFiniteEvent
  refine ⟨_, rfl, ?_⟩
  split
  · exact h
  · extract_lets -underBinder +onlyGivenNames n1
    have h2 : ∀ y5, State.Keeps q v r y5 → (n1 y5).Keeps q v r := by
      intro s3 h4
      exact State.controlCrosses_keeps (State.modNets_keeps h4)
    clear_value n1
    refine State.Keeps.ite (h2 _ h) ?_
    refine State.Keeps.ite ?_ (State.receiveNf_keeps (h2 _ h))
    refine State.posting_keeps h ?_
    intro s6 h7
    exact State.receiveNf_keeps (h2 _ h7)

theorem State.showWindow_keeps {s : State} {p : Nat} {reset : Bool} {flagged : Bool} (h : s.Keeps q v r) :
    (State.showWindow s p reset flagged).Keeps q v r := by
  unfold State.showWindow
  extract_lets -underBinder +onlyGivenNames n1
  exact State.setReg_keeps h

theorem State.evaluateLoss_keeps {s : State} {p : Nat} {t : Tensor} (h : s.Keeps q v r) : (s.evaluateLoss p t).2.2.Keeps q v r := by
  unfold State.evaluateLoss
  extract_lets -underBinder +onlyGivenNames x lo hi z s1 s2 s3 s4
  have h1 : s3.Keeps q v r := State.showWindow_keeps (State.setReg_keeps (State.setReg_keeps (State.setReg_keeps h)))
  have h2 : s4.Keeps q v r := State.Keeps.ite (State.bump64_keeps h1) h1
  clear_value s4
  dsimp only
  exact State.Keeps.ite (State.setIrq_keeps h2) h2

theorem State.lossPart_keeps {s : State} {p : Nat} {o : Option Tensor} (h : s.Keeps q v r) : (s.lossPart p o).2.2.Keeps q v r := by
  cases o with
  | none => exact h
  | some t =>
    simp only [State.lossPart]
    exact State.evaluateLoss_keeps h

theorem State.formVerdict_keeps {s : State} {p : Nat} (h : s.Keeps q v r) : (s.formVerdict p).Keeps q v r := by
  unfold State.formVerdict
  extract_lets -underBinder +onlyGivenNames x gs nf topped crest code s1 e
  have h1 : e.2.2.Keeps q v r := State.lossPart_keeps (State.setReg_keeps h)
  clear_value e
  extract_lets -underBinder +onlyGivenNames ovt w
  exact State.modPld_keeps h1

theorem State.discardHeld_keeps {s : State} {n : Nat} {p : Nat} (h : s.Keeps q v r) :
    (State.discardHeld s n p).Keeps q v r := by
  unfold State.discardHeld
  refine State.Keeps.ite ?_ h
  extract_lets -underBinder +onlyGivenNames s1
  have h2 : s1.Keeps q v r := State.setIrq_keeps (State.bump_keeps h)
  clear_value s1
  exact State.modCns_keeps h2

theorem State.releaseHeld_keeps {s : State} {n : Nat} {p : Nat} (h : s.Keeps q v r) :
    (State.releaseHeld s n p).Keeps q v r := by
  unfold State.releaseHeld
  exact State.Keeps.ite (State.modCns_keeps h) h

theorem execStepVerdict_keeps {p : PolderId} {s : State} (h : s.Keeps q v r) :
    ∃ s', execStepVerdict p s = .next s' ∧ s'.Keeps q v r := by
  unfold execStepVerdict
  refine ⟨_, rfl, ?_⟩
  refine State.Keeps.ite h ?_
  extract_lets -underBinder +onlyGivenNames s1
  have h2 : s1.Keeps q v r := State.settleRed_keeps (State.formVerdict_keeps h)
  clear_value s1
  split
  · refine State.forEach_keeps h2 ?_
    intro s3 x5 h4
    exact State.Keeps.ite (State.discardHeld_keeps h4) (State.releaseHeld_keeps h4)
  · exact h2

theorem State.commitMonitor_keeps {s : State} {p : Nat} {z3 : Verdict} (h : s.Keeps q v r) :
    (State.commitMonitor s p z3).Keeps q v r := by
  unfold State.commitMonitor
  extract_lets -underBinder +onlyGivenNames n1
  refine State.Keeps.ite h ?_
  extract_lets -underBinder +onlyGivenNames n2 s3
  have h4 : s3.Keeps q v r := State.modPld_keeps h
  clear_value s3
  extract_lets -underBinder +onlyGivenNames s5
  have h6 : s5.Keeps q v r := State.Keeps.ite (State.bump_keeps h4) (State.Keeps.ite (State.setReg_keeps h4) h4)
  clear_value s5
  extract_lets -underBinder +onlyGivenNames n7 s8
  have h9 : s8.Keeps q v r := State.showWindow_keeps h6
  clear_value s8
  exact State.curatorWrite_keeps h9

theorem State.fillProbes_keeps {s : State} {p : Nat} (h : s.Keeps q v r) :
    (State.fillProbes s p).Keeps q v r := by
  unfold State.fillProbes
  extract_lets -underBinder +onlyGivenNames n1
  refine State.forEach_keeps h ?_
  intro s2 x4 h3
  split
  · exact State.curatorWrite_keeps h3
  · exact h3

theorem State.commitCrests_keeps {s : State} {p : Nat} (h : s.Keeps q v r) :
    (State.commitCrests s p).Keeps q v r := by
  unfold State.commitCrests
  extract_lets -underBinder +onlyGivenNames n1 n2 s3
  have h4 : s3.Keeps q v r := State.modRed_keeps h
  clear_value s3
  refine State.forEach_keeps h4 ?_
  intro s5 x7 h6
  exact State.curatorWrite_keeps h6

theorem State.commit_keeps {s : State} {p : Nat} {z3 : Verdict} (h : s.Keeps q v r) :
    (State.commit s p z3).Keeps q v r := by
  unfold State.commit
  extract_lets -underBinder +onlyGivenNames n1 n2 s3
  have h4 : s3.Keeps q v r := State.commitMonitor_keeps h
  clear_value s3
  extract_lets -underBinder +onlyGivenNames s5
  have h6 : s5.Keeps q v r := State.Keeps.ite (State.setIrq_keeps (State.bump64_keeps h4)) (State.setReg_keeps h4)
  clear_value s5
  extract_lets -underBinder +onlyGivenNames s7
  have h8 : s7.Keeps q v r := State.commitCrests_keeps h6
  clear_value s7
  extract_lets -underBinder +onlyGivenNames n9 s10
  have h11 : s10.Keeps q v r := State.setReg_keeps h8
  clear_value s10
  extract_lets -underBinder +onlyGivenNames s12
  have h13 : s12.Keeps q v r := State.fillProbes_keeps (State.modRed_keeps h11)
  clear_value s12
  extract_lets -underBinder +onlyGivenNames s14
  have h15 : s14.Keeps q v r := State.setReg_keeps h13
  clear_value s14
  extract_lets -underBinder +onlyGivenNames s16
  have h17 : s16.Keeps q v r := State.postIfOn_keeps h15
  clear_value s16
  extract_lets -underBinder +onlyGivenNames s18
  have h19 : s18.Keeps q v r := State.modPld_keeps h17
  clear_value s18
  extract_lets -underBinder +onlyGivenNames s20
  have h21 : s20.Keeps q v r := by
    refine State.forEach_keeps h19 ?_
    intro s22 x24 h23
    exact State.modCns_keeps h23
  clear_value s20
  exact State.sendOpens_keeps h21

theorem execStepCommit_keeps {p : PolderId} {s : State} (h : s.Keeps q v r) :
    ∃ s', execStepCommit p s = .next s' ∧ s'.Keeps q v r := by
  unfold execStepCommit
  refine ⟨_, rfl, ?_⟩
  split
  · refine State.Keeps.ite ?_ h
    refine State.posting_keeps h ?_
    intro s1 h2
    exact State.commit_keeps h2
  · exact h

end Sys2Proof.Machine
end

