-- ==== Sys2Proof/Laws/KeepsServing.lean ====
section
/-!
SUPPORT. What the definitions of serving, the host interface, the array, the sparse and vector units, transforms and the conservator keep.
-/

-- one proof at a time: the package as one text would start more threads than its memory limit allows
set_option Elab.async false

namespace Sys2Proof.Machine

variable {q : List Instr} {v : Nat} {r : List Entry}



/-! ### Serving -/

/-- Putting values into a sorted table, one after another, leaves it sorted. -/
theorem foldl_put_sorted {α β : Type} [DecidableEq α] {d : α} (k : β → Nat) (g : Table α → β → α) (l : List β) {x : Table α} (h : Table.Sorted x) :
    Table.Sorted (l.foldl (fun x b => Table.put d x (k b) (g x b)) x) := by
  induction l generalizing x with
  | nil => exact h
  | cons b l ih => exact ih (Table.sorted_put h _ _ _)

theorem putAccs_sorted {x : Table Acc} {vs : List (List Acc)} (h : Table.Sorted x) : Table.Sorted (putAccs x vs) := by
  unfold putAccs
  generalize vs.zipIdx = l
  induction l generalizing x with
  | nil => exact h
  | cons b l ih => exact ih (foldl_put_sorted _ _ _ h)

theorem putBsAccs_sorted {x : Table Acc} {vs : List (List Acc)} (h : Table.Sorted x) : Table.Sorted (putBsAccs x vs) := by
  unfold putBsAccs
  generalize vs.zipIdx = l
  induction l generalizing x with
  | nil => exact h
  | cons b l ih => exact ih (foldl_put_sorted _ _ _ h)

theorem VectorUnit.setStream_cacc {x : VectorUnit} {sel : Nat} {v : VStream} : (x.setStream sel v).cacc = x.cacc := by
  unfold VectorUnit.setStream
  split <;> rfl

theorem State.modServe_keeps {s : State} {p : Nat} {f : Serving → Serving} (h : s.Keeps q v r) :
    (State.modServe s p f).Keeps q v r := by
  unfold State.modServe
  exact State.modPld_keeps h

theorem State.postRecords_keeps {s : State} {p : Nat} {l : List (Nat × List Byte)} (h : s.Keeps q v r) :
    (s.postRecords p l).2.Keeps q v r := by
  induction l generalizing s with
  | nil => exact h
  | cons x rest ih =>
    simp only [State.postRecords]
    split
    · exact h
    · exact ih (State.postIfOn_keeps h)

theorem State.stampPlanned_keeps {s : State} {p : Nat} (h : s.Keeps q v r) :
    (State.stampPlanned s p).Keeps q v r := by
  unfold State.stampPlanned
  exact State.Keeps.ite (State.modPld_keeps h) h

theorem State.flushRecords_keeps {s : State} {p : Nat} (h : s.Keeps q v r) :
    (State.flushRecords s p).Keeps q v r := by
  unfold State.flushRecords
  refine State.Keeps.ite h ?_
  extract_lets -underBinder +onlyGivenNames n1
  have h2 : n1.2.Keeps q v r := State.postRecords_keeps h
  clear_value n1
  exact State.setHeld_keeps (State.modServe_keeps h2)

theorem State.queueRecords_keeps {s : State} {p : Nat} {l : List (Nat × List Byte)} (h : s.Keeps q v r) :
    (State.queueRecords s p l).Keeps q v r := by
  unfold State.queueRecords
  exact State.flushRecords_keeps (State.modServe_keeps h)

theorem State.controlWrite_keeps {s : State} {p : Nat} {va : Nat} {bs : List Byte} (h : s.Keeps q v r) :
    (State.controlWrite s p va bs).Keeps q v r := by
  unfold State.controlWrite
  refine State.forEach_keeps h ?_
  intro s1 x3 h2
  split
  · exact State.landWrite_keeps (State.closeMerges_keeps h2)
  · exact h2

theorem State.writeRow_keeps {s : State} {p : Nat} {z3 : Nat} {slot : Nat} {pages : List Page} (h : s.Keeps q v r) :
    (State.writeRow s p z3 slot pages).Keeps q v r := by
  unfold State.writeRow
  extract_lets -underBinder +onlyGivenNames n1
  exact State.controlWrite_keeps h

theorem State.emptyRow_keeps {s : State} {p : Nat} {slot : Nat} (h : s.Keeps q v r) :
    (State.emptyRow s p slot).Keeps q v r := by
  unfold State.emptyRow
  extract_lets -underBinder +onlyGivenNames n1
  exact State.Keeps.ite (State.modServe_keeps h) (State.modServe_keeps (State.writeRow_keeps h))

theorem State.refuseItem_keeps {s : State} {p : Nat} {tag : Nat} {code : Nat} {id : Nat} (h : s.Keeps q v r) :
    (State.refuseItem s p tag code id).Keeps q v r := by
  unfold State.refuseItem
  exact State.queueRecords_keeps (State.bump_keeps h)

theorem State.takeDescriptor_keeps {s : State} {p : Nat} {tag : Nat} {earlier : List Nat} {b : List Byte} (h : s.Keeps q v r) :
    (State.takeDescriptor s p tag earlier b).Keeps q v r := by
  unfold State.takeDescriptor
  extract_lets -underBinder +onlyGivenNames n1 n2
  refine State.Keeps.ite (State.refuseItem_keeps h) ?_
  exact State.Keeps.ite (State.refuseItem_keeps h) (State.modServe_keeps h)

theorem State.takeCancel_keeps {s : State} {p : Nat} {id : Dword} (h : s.Keeps q v r) :
    (State.takeCancel s p id).Keeps q v r := by
  unfold State.takeCancel
  split
  · exact State.bump_keeps h
  · extract_lets -underBinder +onlyGivenNames s1
    have h2 : s1.Keeps q v r := State.modServe_keeps h
    clear_value s1
    split
    · exact State.Keeps.ite h2 (State.emptyRow_keeps h2)
    · exact h2

theorem State.takeIntake_keeps {s : State} {p : Nat} {tag : Nat} {va : Nat} (h : s.Keeps q v r) :
    (State.takeIntake s p tag va).Keeps q v r := by
  unfold State.takeIntake
  extract_lets -underBinder +onlyGivenNames n1 n2 n3
  refine State.Keeps.ite (State.refuseItem_keeps h) ?_
  refine State.Keeps.ite (State.refuseItem_keeps h) ?_
  extract_lets -underBinder +onlyGivenNames s4
  have h5 : s4.Keeps q v r := State.modServe_keeps (State.countIntakeWait_keeps h)
  clear_value s4
  extract_lets -underBinder +onlyGivenNames n6 s7
  have h8 : s7.Keeps q v r := by
    refine State.forEach_keeps h5 ?_
    intro s9 x11 h10
    exact State.takeDescriptor_keeps h10
  clear_value s7
  refine State.forEach_keeps h8 ?_
  intro s12 x14 h13
  exact State.takeCancel_keeps h13

theorem execIntake_keeps {p : PolderId} {rd : HostRead} {s : State} (h : s.Keeps q v r) :
    ∃ s', execIntake p rd s = .next s' ∧ s'.Keeps q v r := by
  unfold execIntake
  refine ⟨_, rfl, ?_⟩
  split
  · exact h
  · refine State.Keeps.ite h ?_
    extract_lets -underBinder +onlyGivenNames s1
    have h2 : s1.Keeps q v r := State.modPld_keeps h
    clear_value s1
    split
    · exact State.queueRecords_keeps h2
    · exact State.takeIntake_keeps (State.askHost_keeps h2)

theorem State.curatorFetch_keeps {s : State} {p : Nat} {ecc : List Ecc} {l : List (Nat × Nat)} (h : s.Keeps q v r) :
    (s.curatorFetch p ecc l).2.Keeps q v r := by
  induction l generalizing s ecc with
  | nil => exact h
  | cons c cs ih =>
    unfold State.curatorFetch
    split
    · exact h
    · exact State.memLost_keeps (State.countRead_keeps h)
    · extract_lets -underBinder +onlyGivenNames s1
      have h1 : s1.Keeps q v r := State.countRead_keeps h
      clear_value s1
      extract_lets -underBinder +onlyGivenNames s2
      have h2 : s2.Keeps q v r := State.Keeps.ite (State.memCorrected_keeps h1) h1
      clear_value s2
      split
      next s3 e => rw [show s3 = _ from (congrArg Prod.snd e).symm]; exact ih h2
      next bs s3 e => rw [show s3 = _ from (congrArg Prod.snd e).symm]; exact ih h2

theorem State.entryTokens_keeps {s : State} {p : Nat} {z3 : Sequence} {e : BatchEntry} (h : s.Keeps q v r) :
    (State.entryTokens s p z3 e).2.Keeps q v r := by
  unfold State.entryTokens
  split
  · exact h
  · extract_lets -underBinder +onlyGivenNames n1
    have h2 : n1.2.Keeps q v r := State.masterRead_keeps h
    clear_value n1
    exact h2

theorem State.batchTokens_keeps {s : State} {p : Nat} {seqs : List Sequence} {l : List BatchEntry} (h : s.Keeps q v r) :
    (s.batchTokens p seqs l).2.Keeps q v r := by
  induction l generalizing s with
  | nil => exact h
  | cons x rest ih => exact ih (State.entryTokens_keeps h)

theorem State.writePlan_keeps {s : State} {p : Nat} {b : Plan} (h : s.Keeps q v r) :
    (State.writePlan s p b).Keeps q v r := by
  unfold State.writePlan
  extract_lets -underBinder +onlyGivenNames n1 n2 s3
  have h4 : s3.Keeps q v r := by
    refine State.forEach_keeps h ?_
    intro s5 x7 h6
    exact State.writeRow_keeps h6
  clear_value s3
  extract_lets -underBinder +onlyGivenNames n8
  have h9 : n8.2.Keeps q v r := State.batchTokens_keeps h4
  clear_value n8
  extract_lets -underBinder +onlyGivenNames s10
  have h11 : s10.Keeps q v r := State.controlWrite_keeps h9
  clear_value s10
  exact State.controlWrite_keeps h11

theorem State.giveMoves_keeps {s : State} {p : Nat} {l : List Move} (h : s.Keeps q v r) :
    (State.giveMoves s p l).Keeps q v r := by
  unfold State.giveMoves
  extract_lets -underBinder +onlyGivenNames n1
  exact State.modStore_keeps (State.modServe_keeps h) (fun _ hm => hm)

theorem State.takePlan_keeps {s : State} {n : Nat} {b : Plan} (h : s.Keeps q v r) :
    (State.takePlan s n b).Keeps q v r := by
  unfold State.takePlan
  extract_lets -underBinder +onlyGivenNames s1
  have h2 : s1.Keeps q v r := State.writePlan_keeps h
  clear_value s1
  extract_lets -underBinder +onlyGivenNames s3
  have h4 : s3.Keeps q v r := State.bump_keeps (State.bump_keeps h2)
  clear_value s3
  extract_lets -underBinder +onlyGivenNames s5
  have h6 : s5.Keeps q v r := State.bump_keeps h4
  clear_value s5
  extract_lets -underBinder +onlyGivenNames s7
  have h8 : s7.Keeps q v r := State.Keeps.ite h6 (State.setIrq_keeps h6)
  clear_value s7
  extract_lets -underBinder +onlyGivenNames s9
  have h10 : s9.Keeps q v r := State.Keeps.ite h8 (State.setIrq_keeps h8)
  clear_value s9
  extract_lets -underBinder +onlyGivenNames s11
  have h12 : s11.Keeps q v r := State.modPld_keeps h10
  clear_value s11
  exact State.stampPlanned_keeps (State.giveMoves_keeps h12)

theorem State.postBoundary_keeps {s : State} {n : Nat} {b : Plan} (h : s.Keeps q v r) :
    (State.postBoundary s n b).Keeps q v r := by
  unfold State.postBoundary
  extract_lets -underBinder +onlyGivenNames s1
  have h2 : s1.Keeps q v r := State.queueRecords_keeps (State.modServe_keeps h)
  clear_value s1
  exact State.Keeps.ite (State.takePlan_keeps h2) h2

theorem execStepBoundary_keeps {p : Meets PolderId (List Ecc)} {s : State} (h : s.Keeps q v r) :
    ∃ s', execStepBoundary p s = .next s' ∧ s'.Keeps q v r := by
  unfold execStepBoundary
  refine ⟨_, rfl, ?_⟩
  refine State.Keeps.ite h ?_
  refine State.Keeps.ite (State.takePlan_keeps h) ?_
  split
  next s1 e3 =>
    have h2 : s1.Keeps q v r := by
      rw [show s1 = _ from (congrArg Prod.snd e3).symm]
      exact State.curatorFetch_keeps h
    exact h2
  next x4 s5 e7 =>
    have h6 : s5.Keeps q v r := by
      rw [show s5 = _ from (congrArg Prod.snd e7).symm]
      exact State.curatorFetch_keeps h
    exact State.postBoundary_keeps h6

theorem State.moveBlocks_keeps {s : State} {p die : Nat} {m : Move} {ecc : List Ecc} {l : List Nat} (h : s.Keeps q v r) :
    (s.moveBlocks p die m ecc l).2.Keeps q v r := by
  induction l generalizing s ecc with
  | nil => exact h
  | cons i is ih =>
    unfold State.moveBlocks
    extract_lets -underBinder +onlyGivenNames c
    split
    next s1 e => rw [show s1 = _ from (congrArg Prod.snd e).symm]; exact State.masterRead_keeps h
    next bs s1 e =>
      have h1 : s1.Keeps q v r := by rw [show s1 = _ from (congrArg Prod.snd e).symm]; exact State.masterRead_keeps h
      split
      next s2 e2 => rw [show s2 = _ from (congrArg Prod.snd e2).symm]; exact State.masterWrite_keeps h1
      next s2 e2 =>
        have h2 : s2.Keeps q v r := by rw [show s2 = _ from (congrArg Prod.snd e2).symm]; exact State.masterWrite_keeps h1
        exact ih h2

theorem State.startHostDma_keeps {s : State} {k : Nat} {p : Nat} (h : s.Keeps q v r) :
    (State.startHostDma s k p).Keeps q v r := by
  unfold State.startHostDma
  refine State.Keeps.ite h ?_
  extract_lets -underBinder +onlyGivenNames n1 n2 s3
  have h4 : s3.Keeps q v r := State.takeEngine_keeps h
  clear_value s3
  split
  · exact State.endHostDesc_keeps (State.respond_keeps h4)
  · refine State.Keeps.ite h4 ?_
    split
    · extract_lets -underBinder +onlyGivenNames s5
      have h6 : s5.Keeps q v r := State.modSlot_keeps h4
      clear_value s5
      exact State.Keeps.ite h6 (State.markTags_keeps (State.askHost_keeps (State.remoteWait_keeps h6)))
    · exact State.Keeps.ite (State.remoteWait_keeps h4) h4
    · exact h4

theorem execSharedDescriptorStart_keeps {e : SharedEngine} {p : PolderId} {ecc : List Ecc} {s : State} (h : s.Keeps q v r) :
    ∃ s', execSharedDescriptorStart e p ecc s = .next s' ∧ s'.Keeps q v r := by
  unfold execSharedDescriptorStart
  refine ⟨_, rfl, ?_⟩
  split
  · exact State.startLink_keeps h
  · exact State.startHostDma_keeps h
  · exact State.startReduction_keeps h

theorem execPageMoveComplete_keeps {p : Meets PolderId (List Ecc)} {s : State} (h : s.Keeps q v r) :
    ∃ s', execPageMoveComplete p s = .next s' ∧ s'.Keeps q v r := by
  unfold execPageMoveComplete
  refine ⟨_, rfl, ?_⟩
  split
  · exact h
  · refine State.Keeps.ite h ?_
    refine State.Keeps.ite (State.endWait_keeps h) ?_
    split
    next s1 e3 =>
      have h2 : s1.Keeps q v r := by
        rw [show s1 = _ from (congrArg Prod.snd e3).symm]
        exact State.moveBlocks_keeps (State.endWait_keeps h)
      exact State.modSlot_keeps h2
    next s4 e6 =>
      have h5 : s4.Keeps q v r := by
        rw [show s4 = _ from (congrArg Prod.snd e6).symm]
        exact State.moveBlocks_keeps (State.endWait_keeps h)
      extract_lets -underBinder +onlyGivenNames s7
      have h8 : s7.Keeps q v r := State.modServe_keeps (State.endHostDesc_keeps h5)
      clear_value s7
      exact State.Keeps.ite (State.stampPlanned_keeps (State.bump_keeps h8)) h8

theorem execTableRowCopy_keeps {p : PolderId} {slot : Meets (BitVec 12) (List Ecc)} {s : State} (h : s.Keeps q v r) :
    ∃ s', execTableRowCopy p slot s = .next s' ∧ s'.Keeps q v r := by
  unfold execTableRowCopy
  refine ⟨_, rfl, ?_⟩
  refine State.Keeps.ite h ?_
  split
  next s1 e3 =>
    have h2 : s1.Keeps q v r := by
      rw [show s1 = _ from (congrArg Prod.snd e3).symm]
      exact State.curatorFetch_keeps h
    exact h2
  next x4 s5 e7 =>
    have h6 : s5.Keeps q v r := by
      rw [show s5 = _ from (congrArg Prod.snd e7).symm]
      exact State.curatorFetch_keeps h
    extract_lets -underBinder +onlyGivenNames s8
    have h9 : s8.Keeps q v r := State.controlWrite_keeps h6
    clear_value s8
    extract_lets -underBinder +onlyGivenNames s10
    have h11 : s10.Keeps q v r := State.modServe_keeps h9
    clear_value s10
    exact State.Keeps.ite (State.emptyRow_keeps h11) h11

theorem State.startServing_keeps {s : State} {p : Nat} {bytes : List Byte} (h : s.Keeps q v r) :
    (State.startServing s p bytes).Keeps q v r := by
  unfold State.startServing
  extract_lets -underBinder +onlyGivenNames n1 n2 n3 n4 n5 s6
  have h7 : s6.Keeps q v r := State.postIfOn_keeps h
  clear_value s6
  extract_lets -underBinder +onlyGivenNames n8 s9
  have h10 : s9.Keeps q v r := State.setReg_keeps (State.setReg_keeps (State.setReg_keeps h7))
  clear_value s9
  extract_lets -underBinder +onlyGivenNames s11
  have h12 : s11.Keeps q v r := State.setReg64_keeps (State.bump64_keeps h10)
  clear_value s11
  extract_lets -underBinder +onlyGivenNames s13
  have h14 : s13.Keeps q v r := State.setReg_keeps (State.setReg_keeps h12)
  clear_value s13
  extract_lets -underBinder +onlyGivenNames s15
  have h16 : s15.Keeps q v r := State.modPld_keeps h14
  clear_value s15
  exact State.startSlot_keeps h16

theorem State.fetchPlan_keeps {s : State} {p : Nat} {ecc : List Ecc} (h : s.Keeps q v r) :
    (State.fetchPlan s p ecc).Keeps q v r := by
  unfold State.fetchPlan
  split
  next s1 e3 =>
    have h2 : s1.Keeps q v r := by
      rw [show s1 = _ from (congrArg Prod.snd e3).symm]
      exact State.curatorFetch_keeps h
    exact h2
  next x4 s5 e7 =>
    have h6 : s5.Keeps q v r := by
      rw [show s5 = _ from (congrArg Prod.snd e7).symm]
      exact State.curatorFetch_keeps h
    exact State.startServing_keeps h6

theorem execSlotStart_keeps {p : Meets PolderId (List Ecc)} {s : State} (h : s.Keeps q v r) :
    ∃ s', execSlotStart p s = .next s' ∧ s'.Keeps q v r := by
  unfold execSlotStart
  refine ⟨_, rfl, ?_⟩
  refine State.Keeps.ite h ?_
  refine State.Keeps.ite ?_ (State.Keeps.ite (State.startMicroBatch_keeps h) h)
  refine State.Keeps.ite ?_ h
  refine State.posting_keeps h ?_
  intro s1 h2
  exact State.fetchPlan_keeps h2

/-! ### Host -/

theorem State.vfViolation_keeps {s : State} {p : Nat} {code : Nat} (h : s.Keeps q v r) :
    (State.vfViolation s p code).Keeps q v r := by
  unfold State.vfViolation
  exact State.raiseMaster_keeps (State.setVfReg_keeps h)

theorem State.vfWrite_keeps {s : State} {p : Nat} {off : Nat} {act : State → State} (h : s.Keeps q v r) (hact : ∀ y1, State.Keeps q v r y1 → (act y1).Keeps q v r) :
    (State.vfWrite s p off act).Keeps q v r := by
  unfold State.vfWrite
  refine State.Keeps.ite (State.answerError_keeps h) ?_
  exact State.Keeps.ite (State.answerError_keeps (State.sendAer_keeps h)) (State.answerWritten_keeps (hact _ h))

theorem State.writeSqTail_keeps {s : State} {p : Nat} {z3 : Word} (h : s.Keeps q v r) :
    (State.writeSqTail s p z3).Keeps q v r := by
  unfold State.writeSqTail
  exact State.Keeps.ite h (State.Keeps.ite (State.vfViolation_keeps h) (State.setVfReg_keeps h))

theorem execVfSqTail_keeps {p : PolderId} {value : Word} {s : State} (h : s.Keeps q v r) :
    ∃ s', execVfSqTail p value s = .next s' ∧ s'.Keeps q v r := by
  unfold execVfSqTail
  refine ⟨_, rfl, ?_⟩
  refine State.vfWrite_keeps h ?_
  intro s1 h2
  exact State.writeSqTail_keeps h2

theorem State.writeCqHead_keeps {s : State} {p : Nat} {z3 : Word} (h : s.Keeps q v r) :
    (State.writeCqHead s p z3).Keeps q v r := by
  unfold State.writeCqHead
  refine State.Keeps.ite h ?_
  refine State.Keeps.ite (State.vfViolation_keeps h) ?_
  extract_lets -underBinder +onlyGivenNames s1
  have h2 : s1.Keeps q v r := State.setVfReg_keeps h
  clear_value s1
  extract_lets -underBinder +onlyGivenNames s3
  have h4 : s3.Keeps q v r := State.Keeps.ite h2 (State.sendMsix_keeps h2)
  clear_value s3
  exact State.flushRecords_keeps h4

theorem execVfCqHead_keeps {p : PolderId} {value : Word} {s : State} (h : s.Keeps q v r) :
    ∃ s', execVfCqHead p value s = .next s' ∧ s'.Keeps q v r := by
  unfold execVfCqHead
  refine ⟨_, rfl, ?_⟩
  refine State.vfWrite_keeps h ?_
  intro s1 h2
  exact State.writeCqHead_keeps h2

theorem State.writeQueueConfig_keeps {s : State} {p : Nat} {off : Nat} {z4 : Word} (h : s.Keeps q v r) :
    (State.writeQueueConfig s p off z4).Keeps q v r := by
  unfold State.writeQueueConfig
  refine State.Keeps.ite (State.vfViolation_keeps h) ?_
  refine State.Keeps.ite (State.setVfReg_keeps h) ?_
  exact State.Keeps.ite (State.setVfReg_keeps h) (State.Keeps.ite (State.setVfReg_keeps h) h)

theorem execVfQueueConfigWrite_keeps {p : PolderId} {off : BitVec 12} {value : Word} {s : State} (h : s.Keeps q v r) :
    ∃ s', execVfQueueConfigWrite p off value s = .next s' ∧ s'.Keeps q v r := by
  unfold execVfQueueConfigWrite
  refine ⟨_, rfl, ?_⟩
  refine State.vfWrite_keeps h ?_
  intro s1 h2
  exact State.Keeps.ite (State.writeQueueConfig_keeps h2) h2

theorem State.writeFrHead_keeps {s : State} {z2 : Word} (h : s.Keeps q v r) :
    (State.writeFrHead s z2).Keeps q v r := by
  unfold State.writeFrHead
  extract_lets -underBinder +onlyGivenNames s1
  have h2 : s1.Keeps q v r := State.setReg_keeps h
  clear_value s1
  exact State.Keeps.ite h2 (State.sendMsix_keeps h2)

theorem execPciFrHead_keeps {value : Word} {s : State} (h : s.Keeps q v r) :
    ∃ s', execPciFrHead value s = .next s' ∧ s'.Keeps q v r := by
  unfold execPciFrHead
  refine ⟨_, rfl, ?_⟩
  exact State.Keeps.ite (State.answerWritten_keeps (State.writeFrHead_keeps h)) (State.answerError_keeps h)

theorem State.flrVf_keeps {s : State} {p : Nat} (h : s.Keeps q v r) :
    (State.flrVf s p).Keeps q v r := by
  unfold State.flrVf
  extract_lets -underBinder +onlyGivenNames n1 n2
  refine State.Keeps.ite (State.modPld_keeps (State.startClearing_keeps h)) ?_
  refine State.Keeps.ite (State.modPld_keeps (State.endRequest_keeps h)) ?_
  exact State.Keeps.ite (State.resetVf_keeps (State.endCreate_keeps h)) (State.resetVf_keeps h)

theorem execVfFlr_keeps {p : PolderId} {s : State} (h : s.Keeps q v r) :
    ∃ s', execVfFlr p s = .next s' ∧ s'.Keeps q v r := by
  unfold execVfFlr
  refine ⟨_, rfl, ?_⟩
  exact State.Keeps.ite (State.flrVf_keeps h) h

theorem State.disableVfs_keeps {s : State} (h : s.Keeps q v r) :
    (State.disableVfs s).Keeps q v r := by
  unfold State.disableVfs
  refine State.Keeps.ite ?_ h
  extract_lets -underBinder +onlyGivenNames s1
  have h2 : s1.Keeps q v r := by
    refine State.forEach_keeps h ?_
    intro s3 x5 h4
    exact State.flrVf_keeps h4
  clear_value s1
  exact State.modHif_keeps h2 (fun _ hn => hn)

theorem State.setNumVfs_keeps {s : State} {n : Nat} (h : s.Keeps q v r) : (s.setNumVfs n).Keeps q v r := by
  unfold State.setNumVfs
  refine State.modHif_keeps h (fun _ hn => ?_)
  dsimp only
  split
  · next e =>
    simp only [Bool.and_eq_true, decide_eq_true_eq] at e
    exact e.2
  · exact hn

theorem execVfEnable_keeps {on : Bool} {numVfs : BitVec 5} {s : State} (h : s.Keeps q v r) :
    ∃ s', execVfEnable on numVfs s = .next s' ∧ s'.Keeps q v r := by
  unfold execVfEnable
  refine ⟨_, rfl, ?_⟩
  refine State.Keeps.ite h ?_
  refine State.Keeps.ite (State.setNumVfs_keeps (State.disableVfs_keeps h)) ?_
  exact State.Keeps.ite (State.modHif_keeps (State.setNumVfs_keeps h) (fun _ hn => hn)) h

theorem execPf0Flr_keeps {s : State} (h : s.Keeps q v r) : ∃ t, execPf0Flr s = .next t ∧ t.Keeps q v r := by
  unfold execPf0Flr
  refine ⟨_, rfl, State.Keeps.ite h (State.disableVfs_keeps ?_)⟩
  refine State.forEach_keeps (State.forEach_keeps ?_ (fun _ _ hx => State.idleChannel_keeps hx))
    (fun _ _ hx => State.Keeps.ite (State.idleChannel_keeps hx) hx)
  exact { h with wf := { h.wf with regs := Table.sorted_filter h.wf.regs _ } }

theorem State.dropStaging_keeps {s : State} (h : s.Keeps q v r) :
    (State.dropStaging s).Keeps q v r := by
  unfold State.dropStaging
  exact State.modBoot_keeps h (fun _ => by split <;> exact Nat.le_refl _)

theorem State.hotReset_keeps {s : State} (h : s.Keeps q v r) :
    (State.hotReset s).Keeps q v r := by
  unfold State.hotReset
  extract_lets -underBinder +onlyGivenNames s1
  have h2 : s1.Keeps q v r := State.setIrq_keeps h
  clear_value s1
  extract_lets -underBinder +onlyGivenNames s3
  have h4 : s3.Keeps q v r := by
    refine State.forEach_keeps h2 ?_
    intro s5 x7 h6
    extract_lets -underBinder +onlyGivenNames n8 n9
    refine State.Keeps.ite (State.startClearing_keeps (State.setReg_keeps h6)) ?_
    exact State.Keeps.ite (State.endCreate_keeps h6) h6
  clear_value s3
  refine State.dropStaging_keeps ?_
  refine State.modHif_keeps ?_ (fun _ hn => hn)
  refine State.forEach_keeps h4 ?_
  intro s10 x12 h11
  exact State.idleChannel_keeps h11

theorem execPcieLinkDown_keeps {s : State} (h : s.Keeps q v r) :
    ∃ s', execPcieLinkDown s = .next s' ∧ s'.Keeps q v r := by
  unfold execPcieLinkDown
  refine ⟨_, rfl, ?_⟩
  refine State.Keeps.ite h ?_
  extract_lets -underBinder +onlyGivenNames n1
  have h2 : n1.2.Keeps q v r := State.draw_keeps (State.hotReset_keeps h)
  clear_value n1
  exact State.Keeps.ite (State.modHif_keeps (State.modBoard_keeps h2) (fun _ hn => hn)) (State.trainLink_keeps h2)

theorem execPerstN_keeps {level : Bool} {s : State} (h : s.Keeps q v r) :
    ∃ s', execPerstN level s = .next s' ∧ s'.Keeps q v r := by
  unfold execPerstN
  refine ⟨_, rfl, ?_⟩
  refine State.Keeps.ite h ?_
  refine State.Keeps.ite ?_ ?_
  · extract_lets -underBinder +onlyGivenNames s1
    have h2 : s1.Keeps q v r := State.modBoard_keeps h
    clear_value s1
    exact State.Keeps.ite (State.trainLink_keeps h2) h2
  · extract_lets -underBinder +onlyGivenNames s3
    have h4 : s3.Keeps q v r := State.Keeps.ite (State.hotReset_keeps h) h
    clear_value s3
    exact State.modHif_keeps (State.modBoard_keeps h4) (fun _ hn => hn)

/-! ### Array -/

theorem State.ungate_keeps {s : State} {t : Nat} (h : s.Keeps q v r) :
    (State.ungate s t).Keeps q v r := by
  unfold State.ungate
  extract_lets -underBinder +onlyGivenNames n1 n2 s3
  have h4 : s3.Keeps q v r := State.Keeps.ite (State.bump_keeps h) h
  clear_value s3
  exact State.modTile_keeps h4 (fun _ hx => hx)

theorem execMaLoad_keeps {t : TileId} {ecc : RowEcc} {s : State} (h : s.Keeps q v r) :
    ∃ s', execMaLoad t ecc s = .next s' ∧ s'.Keeps q v r := by
  unfold execMaLoad
  refine ⟨_, rfl, ?_⟩
  split
  · exact h
  · split
    · exact State.raiseEngine_keeps h
    · refine State.reading_keeps (State.ungate_keeps h) ?_
      intro s1 h2
      extract_lets -underBinder +onlyGivenNames n3
      exact State.finish_keeps (State.modTile_keeps h2 (fun _ hx => hx))

theorem execSwap_keeps {t : Meets TileId RowEcc} {s : State} (h : s.Keeps q v r) :
    ∃ s', execSwap t s = .next s' ∧ s'.Keeps q v r := by
  unfold execSwap
  refine ⟨_, rfl, ?_⟩
  split
  · exact h
  · refine State.Keeps.ite ?_ (State.raiseEngine_keeps h)
    refine State.reading_keeps (State.ungate_keeps h) ?_
    intro s1 h2
    refine State.finish_keeps ?_
    exact State.bumpHeld_keeps (State.bumpHeld_keeps (State.bump64_keeps (State.modTile_keeps h2 (fun _ hx => hx))))

theorem execSetmode_keeps {t : TileId} {s : State} (h : s.Keeps q v r) :
    ∃ s', execSetmode t s = .next s' ∧ s'.Keeps q v r := by
  unfold execSetmode
  refine ⟨_, rfl, ?_⟩
  split
  · exact h
  · refine State.Keeps.ite ?_ (State.raiseEngine_keeps h)
    exact State.finish_keeps (State.setReg64_keeps (State.setReg_keeps (State.modTile_keeps h (fun _ hx => hx))))

theorem execSetout_keeps {t : TileId} {s : State} (h : s.Keeps q v r) :
    ∃ s', execSetout t s = .next s' ∧ s'.Keeps q v r := by
  unfold execSetout
  refine ⟨_, rfl, ?_⟩
  split
  · exact h
  · exact State.Keeps.ite (State.finish_keeps (State.modTile_keeps h (fun _ hx => hx))) (State.raiseEngine_keeps h)

theorem State.runPass_keeps {s : State} {t : Nat} {seq : Nat} {c : Command} (h : s.Keeps q v r) :
    (State.runPass s t seq c).Keeps q v r := by
  unfold State.runPass
  extract_lets -underBinder +onlyGivenNames n1 n2 n3 n4 s5
  have h6 : s5.Keeps q v r := State.modTile_keeps h (fun _ hx => ⟨hx.1, hx.2.1, hx.2.2.1, by dsimp only; split; exact putAccs_sorted hx.2.2.2.1; exact hx.2.2.2.1, hx.2.2.2.2⟩)
  clear_value s5
  extract_lets -underBinder +onlyGivenNames s7
  have h8 : s7.Keeps q v r := State.bumpHeld_keeps (State.bumpHeld_keeps (State.bump64_keeps h6))
  clear_value s7
  extract_lets -underBinder +onlyGivenNames n9 n10 s11
  have h12 : s11.Keeps q v r := by
    refine State.forEach_keeps h8 ?_
    intro s13 x15 h14
    exact State.setRows_keeps h14
  clear_value s11
  extract_lets -underBinder +onlyGivenNames s16
  have h17 : s16.Keeps q v r := State.Keeps.ite h8 (State.book_keeps h12)
  clear_value s16
  exact State.finish_keeps h17

theorem execPass_keeps {t : TileId} {ecc : RowEcc} {s : State} (h : s.Keeps q v r) :
    ∃ s', execPass t ecc s = .next s' ∧ s'.Keeps q v r := by
  unfold execPass
  refine ⟨_, rfl, ?_⟩
  split
  · exact h
  · split
    · exact State.raiseEngine_keeps h
    · refine State.reading_keeps (State.ungate_keeps h) ?_
      intro s1 h2
      exact State.runPass_keeps h2

theorem execArrayGate_keeps {t : TileId} {s : State} (h : s.Keeps q v r) :
    ∃ s', execArrayGate t s = .next s' ∧ s'.Keeps q v r := by
  unfold execArrayGate
  refine ⟨_, rfl, ?_⟩
  exact State.Keeps.ite (State.modTile_keeps h (fun _ hx => hx)) h

/-! ### Sparse -/

theorem State.bsCounts_keeps {s : State} {t : Nat} {z3 : TileHeader} (h : s.Keeps q v r) :
    (State.bsCounts s t z3).Keeps q v r := by
  unfold State.bsCounts
  extract_lets -underBinder +onlyGivenNames n1 s2
  have h3 : s2.Keeps q v r := State.bump64_keeps h
  clear_value s2
  extract_lets -underBinder +onlyGivenNames n4
  have h5 : n4.2.Keeps q v r := State.draw_keeps (State.bumpHeld_keeps (State.bump_keeps h3))
  clear_value n4
  extract_lets -underBinder +onlyGivenNames n6
  exact State.setReg_keeps h5

theorem State.runBspass_keeps {s : State} {t : Nat} {seq : Nat} {c : Command} {z5 : TileHeader} (h : s.Keeps q v r) :
    (State.runBspass s t seq c z5).Keeps q v r := by
  unfold State.runBspass
  extract_lets -underBinder +onlyGivenNames n1 n2 n3 s4
  have h5 : s4.Keeps q v r := State.bsCounts_keeps h
  clear_value s4
  extract_lets -underBinder +onlyGivenNames n6 s7
  have h8 : s7.Keeps q v r := State.setRows_keeps h5
  clear_value s7
  extract_lets -underBinder +onlyGivenNames s9
  have h10 : s9.Keeps q v r := State.Keeps.ite (State.modTile_keeps h5 (fun _ hx => ⟨hx.1, hx.2.1, hx.2.2.1, hx.2.2.2.1, putBsAccs_sorted hx.2.2.2.2.1, hx.2.2.2.2.2⟩)) (State.book_keeps h8)
  clear_value s9
  exact State.finish_keeps h10

theorem State.headerCorrected_keeps {s : State} {t : Nat} {row : Nat} {ecc : RowEcc} (h : s.Keeps q v r) :
    (State.headerCorrected s t row ecc).Keeps q v r := by
  unfold State.headerCorrected
  split
  · refine State.forEach_keeps h ?_
    intro s1 x3 h2
    exact State.spadCorrected_keeps h2
  · exact h

theorem execBspass_keeps {t : TileId} {ecc : RowEcc} {s : State} (h : s.Keeps q v r) :
    ∃ s', execBspass t ecc s = .next s' ∧ s'.Keeps q v r := by
  unfold execBspass
  refine ⟨_, rfl, ?_⟩
  split
  · exact h
  · extract_lets -underBinder +onlyGivenNames n1 n2
    split
    · exact State.raiseEngine_keeps h
    · exact State.raiseEngine_keeps (State.headerCorrected_keeps h)
    · refine State.reading_keeps h ?_
      intro s3 h4
      exact State.runBspass_keeps h4

theorem execBssetmode_keeps {t : TileId} {s : State} (h : s.Keeps q v r) :
    ∃ s', execBssetmode t s = .next s' ∧ s'.Keeps q v r := by
  unfold execBssetmode
  refine ⟨_, rfl, ?_⟩
  split
  · exact h
  · refine State.Keeps.ite ?_ (State.raiseEngine_keeps h)
    exact State.finish_keeps (State.setReg64_keeps (State.setReg_keeps (State.modTile_keeps h (fun _ hx => hx))))

theorem execBssetout_keeps {t : TileId} {s : State} (h : s.Keeps q v r) :
    ∃ s', execBssetout t s = .next s' ∧ s'.Keeps q v r := by
  unfold execBssetout
  refine ⟨_, rfl, ?_⟩
  split
  · exact h
  · exact State.Keeps.ite (State.finish_keeps (State.modTile_keeps h (fun _ hx => hx))) (State.raiseEngine_keeps h)

/-! ### Vector -/

theorem State.drawBytes_keeps {s : State} {n : Nat} (h : s.Keeps q v r) : (s.drawBytes n).2.Keeps q v r := by
  induction n generalizing s with
  | zero => exact h
  | succ n ih => exact ih (State.draw_keeps h)

theorem State.setPairs_keeps {s : State} {t : Nat} {row : Nat} {l : List (Nat × Nat)} (h : s.Keeps q v r) :
    (State.setPairs s t row l).Keeps q v r := by
  unfold State.setPairs
  extract_lets -underBinder +onlyGivenNames n1 n2
  have h3 : n2.2.Keeps q v r := State.drawBytes_keeps h
  clear_value n2
  extract_lets -underBinder +onlyGivenNames n4
  refine State.forEach_keeps h3 ?_
  intro s5 x7 h6
  exact State.setSpadRow_keeps h6

theorem execVprog_keeps {t : TileId} {ecc : RowEcc} {s : State} (h : s.Keeps q v r) :
    ∃ s', execVprog t ecc s = .next s' ∧ s'.Keeps q v r := by
  unfold execVprog
  refine ⟨_, rfl, ?_⟩
  split
  · exact h
  · refine State.Keeps.ite ?_ (State.raiseEngine_keeps h)
    refine State.reading_keeps h ?_
    intro s1 h2
    extract_lets -underBinder +onlyGivenNames n3 n4
    exact State.finish_keeps (State.bumpHeld_keeps (State.modTile_keeps h2 (fun _ hx => hx)))

theorem execVstrm_keeps {t : TileId} {s : State} (h : s.Keeps q v r) :
    ∃ s', execVstrm t s = .next s' ∧ s'.Keeps q v r := by
  unfold execVstrm
  refine ⟨_, rfl, ?_⟩
  split
  · exact h
  · split
    · exact State.raiseEngine_keeps h
    · extract_lets -underBinder +onlyGivenNames n1
      exact State.finish_keeps (State.modTile_keeps h (fun _ hx => ⟨hx.1, hx.2.1, hx.2.2.1, hx.2.2.2.1, hx.2.2.2.2.1, by rw [VectorUnit.setStream_cacc]; exact hx.2.2.2.2.2⟩))

theorem execVsetout_keeps {t : TileId} {s : State} (h : s.Keeps q v r) :
    ∃ s', execVsetout t s = .next s' ∧ s'.Keeps q v r := by
  unfold execVsetout
  refine ⟨_, rfl, ?_⟩
  split
  · exact h
  · exact State.Keeps.ite (State.finish_keeps (State.modTile_keeps h (fun _ hx => hx))) (State.raiseEngine_keeps h)

/-- Both states of a view keep: the one that the group sees and the one that has drawn the choices. -/
theorem State.viewRows_keeps {s : State} {t : Nat} {old : List (Nat × List Byte)} {reads : List Nat} (h : s.Keeps q v r) :
    (s.viewRows t old reads).1.Keeps q v r ∧ (s.viewRows t old reads).2.Keeps q v r := by
  unfold State.viewRows
  refine List.foldlRecOn (motive := fun x : State × State => x.1.Keeps q v r ∧ x.2.Keeps q v r) _ _ ⟨h, h⟩ (fun x hx e _ => ?_)
  exact ⟨State.Keeps.ite (State.setSpadRow_keeps hx.1) hx.1, State.draw_keeps hx.2⟩

theorem State.sumResult_keeps {s : State} {ops : List Nat} {sum : Acc} (h : s.Keeps q v r) :
    (State.sumResult s ops sum).2.Keeps q v r := by
  unfold State.sumResult
  split
  · extract_lets -underBinder +onlyGivenNames n1
    have h2 : n1.2.Keeps q v r := State.drawBytes_keeps h
    clear_value n1
    exact h2
  · exact h

theorem State.maxResult_keeps {s : State} {mx : Option Nat} (h : s.Keeps q v r) :
    (State.maxResult s mx).2.Keeps q v r := by
  unfold State.maxResult
  split
  · exact h
  · exact State.draw_keeps h

theorem State.putEntry_keeps {s : State} {t : Nat} {row : Nat} {z4 : Nat} {bytes : List Byte} (h : s.Keeps q v r) :
    (State.putEntry s t row z4 bytes).Keeps q v r := by
  unfold State.putEntry
  extract_lets -underBinder +onlyGivenNames n1 n2 n3
  refine State.Keeps.ite ?_ (State.setSpadRow_keeps h)
  extract_lets -underBinder +onlyGivenNames n4
  have h5 : n4.2.Keeps q v r := State.drawBytes_keeps h
  clear_value n4
  exact State.setSpadRow_keeps h5

theorem VrunState.endVector_keeps {k : VrunState} {t w : Nat} {ops : List Nat} (h : k.s.Keeps q v r) :
    (k.endVector t ops w).s.Keeps q v r := by
  unfold VrunState.endVector
  split
  · exact h
  · split
    · exact h
    · exact State.putEntry_keeps (State.maxResult_keeps (State.sumResult_keeps h))

theorem State.clearVuXr_keeps {s : State} {t : Nat} (h : s.Keeps q v r) :
    (State.clearVuXr s t).Keeps q v r := by
  unfold State.clearVuXr
  exact State.setReg64_keeps (State.setReg_keeps h)

theorem VrunState.group_keeps {k : VrunState} {t : Nat} {c : VrunCmd} {ops : List Nat} {pq : Nat × Nat} {w g : Nat}
    (h : k.s.Keeps q v r) :
    (VrunState.group t c ops pq k w g).s.Keeps q v r := by
  unfold VrunState.group
  extract_lets -underBinder +onlyGivenNames x valid seen
  have h0 : seen.2.Keeps q v r := (State.viewRows_keeps h).2
  clear_value seen
  extract_lets -underBinder +onlyGivenNames k0 a b outs live sum mx cacc s k'
  have hs : s.Keeps q v r := by
    refine State.modTile_keeps h0 (fun _ hx => ⟨hx.1, hx.2.1, hx.2.2.1, hx.2.2.2.1, hx.2.2.2.2.1, ?_, hx.2.2.2.2.2.2⟩)
    show Table.Sorted cacc
    unfold cacc
    split
    · exact (h.wf.tile t).2.2.2.2.2.1
    · exact foldl_put_sorted _ _ _ (h.wf.tile t).2.2.2.2.2.1
  clear_value s
  split
  · exact hs
  · split
    · exact hs
    · exact State.setRows_keeps hs

theorem VrunState.groups_keeps {k : VrunState} {t : Nat} {c : VrunCmd} {ops : List Nat} {pq : Nat × Nat} {w : Nat}
    (h : k.s.Keeps q v r) (l : List Nat) :
    (l.foldl (fun k g => VrunState.group t c ops pq k w g) k).s.Keeps q v r := by
  induction l generalizing k with
  | nil => exact h
  | cons g l ih => exact ih (VrunState.group_keeps h)

theorem VrunState.vectors_keeps {k : VrunState} {t : Nat} {c : VrunCmd} {ops : List Nat}
    (h : k.s.Keeps q v r) (l : List Nat) :
    (l.foldl (VrunState.vector t c ops) k).s.Keeps q v r := by
  induction l generalizing k with
  | nil => exact h
  | cons w l ih =>
    refine ih (VrunState.endVector_keeps (VrunState.groups_keeps ?_ _))
    exact (State.viewRows_keeps h).2

theorem State.runVrun_keeps {s : State} {t seq : Nat} {c : Command} (h : s.Keeps q v r) : (s.runVrun t seq c).Keeps q v r := by
  unfold State.runVrun
  extract_lets x rr ops xr s1 s2 k s3
  have h1 : s1.Keeps q v r := State.Keeps.ite (State.clearVuXr_keeps h) h
  have h2 : s2.Keeps q v r := State.Keeps.ite (State.modTile_keeps h1 (fun _ hx => ⟨hx.1, hx.2.1, hx.2.2.1, hx.2.2.2.1, hx.2.2.2.2.1, Table.sorted_nil, hx.2.2.2.2.2.2⟩)) h1
  have hk : k.s.Keeps q v r := VrunState.vectors_keeps h2 _
  exact State.finish_keeps (State.book_keeps (State.bumpHeld_keeps (State.bump64_keeps hk)))

theorem execVrun_keeps {t : TileId} {ecc : RowEcc} {s : State} (h : s.Keeps q v r) :
    ∃ s', execVrun t ecc s = .next s' ∧ s'.Keeps q v r := by
  unfold execVrun
  refine ⟨_, rfl, ?_⟩
  split
  · exact h
  · split
    · exact State.raiseEngine_keeps h
    · refine State.reading_keeps h ?_
      intro s1 h2
      exact State.runVrun_keeps h2

theorem State.runVcomb_keeps {s : State} {t : Nat} {seq : Nat} {c : Command} (h : s.Keeps q v r) :
    (State.runVcomb s t seq c).Keeps q v r := by
  unfold State.runVcomb
  extract_lets -underBinder +onlyGivenNames n1 n2 n3 s4
  have h5 : s4.Keeps q v r := State.bumpHeld_keeps (State.setPairs_keeps h)
  clear_value s4
  exact State.finish_keeps (State.book_keeps h5)

theorem execVcomb_keeps {t : TileId} {ecc : RowEcc} {s : State} (h : s.Keeps q v r) :
    ∃ s', execVcomb t ecc s = .next s' ∧ s'.Keeps q v r := by
  unfold execVcomb
  refine ⟨_, rfl, ?_⟩
  split
  · exact h
  · split
    · exact State.raiseEngine_keeps h
    · refine State.reading_keeps h ?_
      intro s1 h2
      exact State.runVcomb_keeps h2

theorem State.runVflush_keeps {s : State} {t : Nat} {seq : Nat} {c : Command} (h : s.Keeps q v r) :
    (State.runVflush s t seq c).Keeps q v r := by
  unfold State.runVflush
  extract_lets -underBinder +onlyGivenNames n1 n2 s3
  have h4 : s3.Keeps q v r := State.Keeps.ite (State.clearVuXr_keeps h) h
  clear_value s3
  extract_lets -underBinder +onlyGivenNames n5 n6 s7
  have h8 : s7.Keeps q v r := State.bumpHeld_keeps (State.setRows_keeps h4)
  clear_value s7
  extract_lets -underBinder +onlyGivenNames s9
  have h10 : s9.Keeps q v r := State.Keeps.ite (State.modTile_keeps h8 (fun _ hx => ⟨hx.1, hx.2.1, hx.2.2.1, hx.2.2.2.1, hx.2.2.2.2.1, Table.sorted_nil, hx.2.2.2.2.2.2⟩)) h8
  clear_value s9
  exact State.finish_keeps (State.book_keeps h10)

theorem execVflush_keeps {t : TileId} {s : State} (h : s.Keeps q v r) :
    ∃ s', execVflush t s = .next s' ∧ s'.Keeps q v r := by
  unfold execVflush
  refine ⟨_, rfl, ?_⟩
  split
  · exact h
  · split
    · exact State.raiseEngine_keeps h
    · exact State.runVflush_keeps h

/-! ### Transforms -/

theorem State.freeBytes_keeps {s : State} {n : Nat} (h : s.Keeps q v r) : (s.freeBytes n).2.Keeps q v r :=
  { h with wf := { h.wf with } }

theorem State.setLooseRow_keeps {s : State} {t : Nat} {row : Nat} {bs : List Byte} {known : List (Nat × Nat)} (h : s.Keeps q v r) :
    (State.setLooseRow s t row bs known).Keeps q v r := by
  unfold State.setLooseRow
  extract_lets -underBinder +onlyGivenNames n1
  have h2 : n1.2.Keeps q v r := State.freeBytes_keeps h
  clear_value n1
  extract_lets -underBinder +onlyGivenNames n3
  exact State.setSpadRow_keeps h2

/-! ### Conservator -/

theorem State.loadSlots_keeps {s : State} {p : Nat} (h : s.Keeps q v r) :
    (State.loadSlots s p).Keeps q v r := by
  unfold State.loadSlots
  refine State.forEach_keeps h ?_
  intro s1 x3 h2
  extract_lets -underBinder +onlyGivenNames n4
  refine State.Keeps.ite h2 ?_
  extract_lets -underBinder +onlyGivenNames n5
  have h6 : n5.2.Keeps q v r := State.draw_keeps h2
  clear_value n5
  exact State.setReg_keeps (State.setReg_keeps h6)

theorem State.cnsXl_keeps {s : State} {n : Nat} {p : Nat} {va : Nat} {isWrite : Bool} {ecc : Ecc} (h : s.Keeps q v r) :
    (State.cnsXl s n p va isWrite ecc).2.Keeps q v r := by
  unfold State.cnsXl
  extract_lets -underBinder +onlyGivenNames n1
  have h2 : ∀ y6 y7, State.Keeps q v r y7 → (n1 y6 y7).2.Keeps q v r := by
    intro x3 s4 h5
    unfold n1
    cases x3 with
    | at_ y => exact h5
    | fault code => dsimp only; exact State.engineFault_keeps h5
  clear_value n1
  split
  · exact h2 _ _ h
  · exact h2 _ _ h
  · split
    · exact h2 _ _ h
    · split
      next s8 e =>
        have h3 : s8.Keeps q v r := by rw [show s8 = _ from (congrArg Prod.snd e).symm]; exact State.walk_keeps h
        exact State.stopCns_keeps h3
      next s8 e =>
        have h3 : s8.Keeps q v r := by rw [show s8 = _ from (congrArg Prod.snd e).symm]; exact State.walk_keeps h
        exact h2 _ _ h3

/-! A run of a conservator's accesses keeps, access by access. -/

theorem CnsRun.fold_keeps {α : Type} {f : CnsRun → α → CnsRun} (hf : ∀ (w : CnsRun) (x : α), w.state.Keeps q v r → (f w x).state.Keeps q v r)
    {l : List α} {w : CnsRun} (h : w.state.Keeps q v r) : (l.foldl f w).state.Keeps q v r := by
  induction l generalizing w with
  | nil => exact h
  | cons x l ih => exact ih (hf w x h)

theorem CnsRun.read_keeps {w : CnsRun} {n p : Nat} {c : Nat × Nat} (h : w.state.Keeps q v r) : (w.read n p c).state.Keeps q v r := by
  unfold CnsRun.read
  have h1 : (w.state.cnsXl n p c.1 false w.next.1).2.Keeps q v r := State.cnsXl_keeps h
  split
  · exact h
  · split
    next s e => rw [e] at h1; exact h1
    next x s e =>
      replace h1 : s.Keeps q v r := by rw [e] at h1; exact h1
      split
      · exact h1
      · have h2 : (((s.engineReads p (n / 3) x c.2).countRead x c.2).bump64 (cnsPage n + 0x04C) c.2).Keeps q v r :=
          State.bump64_keeps (State.countRead_keeps (State.engineReads_keeps h1))
        dsimp only
        split <;> dsimp only
        · exact State.stopCns_keeps (State.memLost_keeps h2)
        · exact State.memCorrected_keeps h2
        · exact h2

theorem CnsRun.readAll_keeps {w : CnsRun} {n p va len : Nat} (h : w.state.Keeps q v r) : (w.readAll n p va len).state.Keeps q v r :=
  CnsRun.fold_keeps (fun _ _ h => CnsRun.read_keeps h) h

theorem CnsRun.readRows_keeps {w : CnsRun} {n p : Nat} {id : Word} {u : Update} {d : UpdDesc} {size : Nat}
    (h : w.state.Keeps q v r) : (w.readRows n p id u d size).state.Keeps q v r := by
  unfold CnsRun.readRows
  split
  · exact CnsRun.readAll_keeps h
  · exact h

theorem CnsRun.readElems_keeps {w : CnsRun} {n p va first count : Nat} (h : w.state.Keeps q v r) :
    (w.readElems n p va first count).state.Keeps q v r :=
  CnsRun.fold_keeps (fun _ _ h => CnsRun.readAll_keeps h) h

theorem CnsRun.readDesc_keeps {w : CnsRun} {n p : Nat} {d : UpdDesc} {resume : Bool} (h : w.state.Keeps q v r) :
    (w.readDesc n p d resume).state.Keeps q v r := by
  unfold CnsRun.readDesc
  extract_lets -underBinder +onlyGivenNames x u r1
  have h1 : r1.state.Keeps q v r := CnsRun.readRows_keeps h
  clear_value r1
  extract_lets -underBinder +onlyGivenNames r2
  have h2 : r2.state.Keeps q v r := by unfold r2; split; exact h1; exact CnsRun.readRows_keeps h1
  clear_value r2
  extract_lets -underBinder +onlyGivenNames thin width r3
  have h3 : r3.state.Keeps q v r := by unfold r3; split; exact CnsRun.readElems_keeps h2; exact h2
  clear_value r3
  extract_lets -underBinder +onlyGivenNames r4
  have h4 : r4.state.Keeps q v r := by
    unfold r4
    split
    next t _ =>
      split
      · extract_lets -underBinder +onlyGivenNames r5
        have h5 : r5.state.Keeps q v r := CnsRun.readAll_keeps h3
        clear_value r5
        extract_lets -underBinder +onlyGivenNames r6
        have h6 : r6.state.Keeps q v r := by unfold r6; split; exact CnsRun.readAll_keeps h5; exact h5
        clear_value r6
        split
        · exact CnsRun.readAll_keeps h6
        · exact h6
      · exact CnsRun.readAll_keeps h3
    next => exact h3
  clear_value r4 width
  cases thin with
  | none => exact h4
  | some z =>
    dsimp only
    split
    · split
      · exact CnsRun.readAll_keeps h4
      · exact h4
    · exact h4

theorem CnsRun.writePiece_keeps {w : CnsRun} {n p va : Nat} {bs : List Byte} (h : w.state.Keeps q v r) :
    (w.writePiece n p va bs).state.Keeps q v r := by
  unfold CnsRun.writePiece
  have h1 : (w.state.cnsXl n p va true w.next.1).2.Keeps q v r := State.cnsXl_keeps h
  split
  · exact h
  · split
    next s e => rw [e] at h1; exact h1
    next x s e =>
      replace h1 : s.Keeps q v r := by rw [e] at h1; exact h1
      split
      · dsimp only; exact State.raiseMaster_keeps (State.showViolation_keeps h1)
      · split
        · exact h1
        · dsimp only; exact State.bump64_keeps (State.landWrite_keeps (State.closeMerges_keeps (State.engineWrites_keeps h1)))

theorem CnsRun.write_keeps {w : CnsRun} {n p va : Nat} {bs : List Byte} (h : w.state.Keeps q v r) : (w.write n p va bs).state.Keeps q v r :=
  CnsRun.fold_keeps (fun _ _ h => CnsRun.writePiece_keeps h) h

theorem CnsRun.saveCarry_keeps {w : CnsRun} {n p : Nat} (h : w.state.Keeps q v r) : (w.saveCarry n p).state.Keeps q v r := by
  unfold CnsRun.saveCarry
  split
  · exact h
  · split
    · exact h
    · extract_lets -underBinder +onlyGivenNames w1
      have h1 : w1.state.Keeps q v r := by
        unfold w1
        split
        · exact State.Keeps.ite (State.bump_keeps (CnsRun.write_keeps h)) (CnsRun.write_keeps h)
        · exact h
      clear_value w1
      dsimp only
      exact State.modCns_keeps h1

theorem CnsRun.writeCopy_keeps {w : CnsRun} {n p : Nat} {t : Tensor} {u : Update} {d : UpdDesc} {m : List (List Val)}
    (h : w.state.Keeps q v r) : (w.writeCopy n p t u d m).state.Keeps q v r :=
  CnsRun.fold_keeps (fun _ _ h => CnsRun.write_keeps h) h

theorem CnsRun.writeCopyT_keeps {w : CnsRun} {n p : Nat} {t : Tensor} {u : Update} {d : UpdDesc} {m : List (List Val)}
    (h : w.state.Keeps q v r) : (w.writeCopyT n p t u d m).state.Keeps q v r :=
  CnsRun.fold_keeps (fun _ _ h => CnsRun.write_keeps (CnsRun.write_keeps h)) h

theorem CnsRun.endEntry_keeps {w : CnsRun} {n p : Nat} {t : Tensor} {u : Update} {x : EntryCtx} {acc : List Val}
    (h : w.state.Keeps q v r) : (w.endEntry n p t u x acc).state.Keeps q v r := by
  unfold CnsRun.endEntry
  split
  · exact CnsRun.write_keeps (CnsRun.write_keeps h)
  · exact CnsRun.write_keeps h

theorem CnsRun.writeDesc_keeps {w : CnsRun} {n p : Nat} {u : Update} {d : UpdDesc} {x : EntryCtx} {master mom stats : Tensor}
    {y : DescResult} (h : w.state.Keeps q v r) : (w.writeDesc n p u d x master mom stats y).state.Keeps q v r := by
  unfold CnsRun.writeDesc
  extract_lets -underBinder +onlyGivenNames c w1
  have h1 : w1.state.Keeps q v r := CnsRun.write_keeps h
  clear_value w1
  extract_lets -underBinder +onlyGivenNames w2
  have h2 : w2.state.Keeps q v r := by unfold w2; split; exact CnsRun.write_keeps h1; exact h1
  clear_value w2
  extract_lets -underBinder +onlyGivenNames w3
  have h3 : w3.state.Keeps q v r := CnsRun.write_keeps h2
  clear_value w3
  extract_lets -underBinder +onlyGivenNames w4
  have h4 : w4.state.Keeps q v r := by
    unfold w4
    split
    · split
      · exact h3
      · exact CnsRun.writeCopy_keeps h3
    · exact h3
  clear_value w4
  extract_lets -underBinder +onlyGivenNames w5
  have h5 : w5.state.Keeps q v r := by
    unfold w5
    split
    · split
      · exact h4
      · exact CnsRun.writeCopyT_keeps h4
    · exact h4
  clear_value w5
  split
  · exact CnsRun.endEntry_keeps h5
  · exact h5

theorem CnsRun.runDesc_keeps {w : CnsRun} {n p : Nat} {d : UpdDesc} (h : w.state.Keeps q v r) : (w.runDesc n p d).state.Keeps q v r := by
  unfold CnsRun.runDesc
  extract_lets -underBinder +onlyGivenNames s y u
  split
  · extract_lets -underBinder +onlyGivenNames mom x rr w1
    have h1 : w1.state.Keeps q v r := by
      unfold w1
      split
      · exact State.bump_keeps h
      · exact CnsRun.writeDesc_keeps h
    clear_value w1
    dsimp only
    exact State.modCns_keeps h1
  · exact h

theorem State.yieldHeld_keeps {s : State} {n : Nat} (h : s.Keeps q v r) :
    (State.yieldHeld s n).Keeps q v r := by
  unfold State.yieldHeld
  exact State.Keeps.ite (State.modCns_keeps (State.bump_keeps h)) h

theorem State.startDesc_keeps {s : State} {n : Nat} {p : Nat} {d : UpdDesc} {ecc : List (Ecc × Ecc)} (h : s.Keeps q v r) :
    (State.startDesc s n p d ecc).Keeps q v r := by
  unfold State.startDesc
  extract_lets -underBinder +onlyGivenNames s1
  have h2 : s1.Keeps q v r := State.useSlot_keeps (State.yieldHeld_keeps h)
  clear_value s1
  extract_lets -underBinder +onlyGivenNames w1
  have h3 : w1.state.Keeps q v r := CnsRun.saveCarry_keeps (w := CnsRun.begin s1 ecc) h2
  clear_value w1
  extract_lets -underBinder +onlyGivenNames w2
  have h4 : w2.state.Keeps q v r := CnsRun.readDesc_keeps h3
  clear_value w2
  exact State.Keeps.ite (State.modCns_keeps h4) h4

theorem execConservatorDescriptorStart_keeps {n : Fin 12} {p : Meets PolderId (List (Ecc × Ecc))} {s : State} (h : s.Keeps q v r) :
    ∃ s', execConservatorDescriptorStart n p s = .next s' ∧ s'.Keeps q v r := by
  unfold execConservatorDescriptorStart
  refine ⟨_, rfl, ?_⟩
  split
  · exact h
  · exact State.Keeps.ite (State.startDesc_keeps h) h

theorem State.endDesc_keeps {s : State} {n : Nat} {p : Nat} {d : UpdDesc} {ecc : List (Ecc × Ecc)} (h : s.Keeps q v r) :
    (State.endDesc s n p d ecc).Keeps q v r := by
  unfold State.endDesc
  extract_lets -underBinder +onlyGivenNames w s1
  have h1 : w.state.Keeps q v r := CnsRun.runDesc_keeps (w := CnsRun.begin s ecc) h
  clear_value w
  exact State.modCns_keeps (State.Keeps.ite (State.modCns_keeps (State.bump64_keeps h1)) h1)

theorem execConservatorDescriptorDone_keeps {n : Fin 12} {ecc : List (Ecc × Ecc)} {s : State} (h : s.Keeps q v r) :
    ∃ s', execConservatorDescriptorDone n ecc s = .next s' ∧ s'.Keeps q v r := by
  unfold execConservatorDescriptorDone
  refine ⟨_, rfl, ?_⟩
  split
  · exact h
  · split
    · exact State.modCns_keeps h
    · exact State.Keeps.ite (State.endDesc_keeps h) h

end Sys2Proof.Machine
end

