-- ==== Sys2Proof/Laws/KeepsBoot.lean ====
section
/-!
SUPPORT. What the definitions of jobs, starting and stopping the part, the secure channel, seams, servicing, clocks and the test port keep.
-/

-- one proof at a time: the package as one text would start more threads than its memory limit allows
set_option Elab.async false

namespace Sys2Proof.Machine

variable {q : List Instr} {v : Nat} {r : List Entry}



/-! ### Jobs -/

theorem State.replyUnread_keeps {s : State} {c : Nat} {addr : Dword} (h : s.Keeps q v r) :
    (State.replyUnread s c addr).Keeps q v r := by
  unfold State.replyUnread
  exact State.reply_keeps h

theorem State.readMonitor_keeps {s : State} {p : Nat} (h : s.Keeps q v r) :
    (State.readMonitor s p).Keeps q v r := by
  unfold State.readMonitor
  extract_lets -underBinder +onlyGivenNames n1
  refine State.Keeps.ite h ?_
  extract_lets -underBinder +onlyGivenNames n2 n3 n4 n5 n6 n7
  refine State.Keeps.ite (State.showWindow_keeps (State.setReg_keeps h)) ?_
  extract_lets -underBinder +onlyGivenNames s8
  have h9 : s8.Keeps q v r := State.modPld_keeps h
  clear_value s8
  exact State.showWindow_keeps (State.setReg_keeps h9)

theorem State.writeCrests_keeps {s : State} {p : Nat} {crests : List (Word × Int)} (h : s.Keeps q v r) :
    (State.writeCrests s p crests).Keeps q v r := by
  unfold State.writeCrests
  refine State.forEach_keeps h ?_
  intro s1 x3 h2
  split
  · exact State.curatorWrite_keeps h2
  · exact h2

theorem State.startJob_keeps {s : State} {p : Nat} {step : Word} {m : RedMap} {links : List LinkEntry × List Nat} {crests : List (Word × Int)} (h : s.Keeps q v r) :
    (State.startJob s p step m links crests).Keeps q v r := by
  unfold State.startJob
  extract_lets -underBinder +onlyGivenNames s1
  have h2 : s1.Keeps q v r := State.modPld_keeps h
  clear_value s1
  extract_lets -underBinder +onlyGivenNames s3
  have h4 : s3.Keeps q v r := State.setReg_keeps (State.setReg_keeps h2)
  clear_value s3
  extract_lets -underBinder +onlyGivenNames s5
  have h6 : s5.Keeps q v r := State.readMonitor_keeps (State.writeCrests_keeps h4)
  clear_value s5
  extract_lets -underBinder +onlyGivenNames s7
  have h8 : s7.Keeps q v r := State.fillProbes_keeps (State.loadSlots_keeps h6)
  clear_value s7
  extract_lets -underBinder +onlyGivenNames s9
  have h10 : s9.Keeps q v r := State.setVfReg_keeps (State.countJob_keeps h8)
  clear_value s9
  extract_lets -underBinder +onlyGivenNames s11
  have h12 : s11.Keeps q v r := State.modPld_keeps h10
  clear_value s11
  exact State.sendOpens_keeps h12

theorem State.askMaps_keeps {s : State} {p : Nat} {red : Nat} {link : Nat} {tab : Nat} {count : Nat} (h : s.Keeps q v r) :
    (State.askMaps s p red link tab count).Keeps q v r := by
  unfold State.askMaps
  extract_lets -underBinder +onlyGivenNames s1
  have h2 : s1.Keeps q v r := State.Keeps.ite h (State.askHost_keeps h)
  clear_value s1
  extract_lets -underBinder +onlyGivenNames s3
  have h4 : s3.Keeps q v r := State.Keeps.ite h2 (State.askHost_keeps h2)
  clear_value s3
  exact State.Keeps.ite h4 (State.askHost_keeps h4)

theorem State.jobStart_keeps {s : State} {p : Nat} {c : Nat} {b : List Byte} {rd : Meets HostRead (List Ecc)} (h : s.Keeps q v r) :
    (State.jobStart s p c b rd).Keeps q v r := by
  unfold State.jobStart
  extract_lets -underBinder +onlyGivenNames n1 n2 n3 n4 n5 n6
  refine State.Keeps.ite (State.replyEcho_keeps h) ?_
  refine State.Keeps.ite (State.replyEcho_keeps h) ?_
  split
  · exact State.replyUnread_keeps h
  · extract_lets -underBinder +onlyGivenNames s7
    have h8 : s7.Keeps q v r := State.askMaps_keeps h
    clear_value s7
    split
    · split
      next s9 e11 =>
        have h10 : s9.Keeps q v r := by
          rw [show s9 = _ from (congrArg Prod.snd e11).symm]
          exact State.curatorFetch_keeps h8
        exact h10
      next x12 s13 e15 =>
        have h14 : s13.Keeps q v r := by
          rw [show s13 = _ from (congrArg Prod.snd e15).symm]
          exact State.curatorFetch_keeps h8
        exact State.replyEcho_keeps (State.startJob_keeps h14)
    · exact State.replyEcho_keeps h8

theorem execJobStart_keeps {c : ChannelId} {rd : Meets HostRead (List Ecc)} {s : State} (h : s.Keeps q v r) :
    ∃ s', execJobStart c rd s = .next s' ∧ s'.Keeps q v r := by
  unfold execJobStart
  refine ⟨_, rfl, ?_⟩
  split
  · exact h
  · exact State.jobStart_keeps (State.takeRequest_keeps h)

theorem State.beginEdit_keeps {s : State} {p : Nat} {c : Nat} {first : Nat} {count : Nat} {waits : Nat} {entries : List (Nat × Nat)} (h : s.Keeps q v r) :
    (State.beginEdit s p c first count waits entries).Keeps q v r := by
  unfold State.beginEdit
  extract_lets -underBinder +onlyGivenNames n1 s2
  have h3 : s2.Keeps q v r := by
    refine State.forEach_keeps (State.holdWalks_keeps h) ?_
    intro s4 x6 h5
    exact State.setEntry_keeps h5
  clear_value s2
  exact State.modPld_keeps (State.dropXl_keeps h3)

theorem State.hostReg_keeps {s : State} {p : Nat} {c : Nat} {b : List Byte} {rd : HostRead} (h : s.Keeps q v r) :
    (State.hostReg s p c b rd).Keeps q v r := by
  unfold State.hostReg
  extract_lets -underBinder +onlyGivenNames n1 n2 n3
  refine State.Keeps.ite (State.replyEcho_keeps h) ?_
  refine State.Keeps.ite (State.replyEcho_keeps h) ?_
  split
  · exact State.replyUnread_keeps h
  · extract_lets -underBinder +onlyGivenNames s4
    have h5 : s4.Keeps q v r := State.askHost_keeps h
    clear_value s4
    extract_lets -underBinder +onlyGivenNames n6
    exact State.Keeps.ite (State.replyEcho_keeps h5) (State.beginEdit_keeps h5)

theorem execHostReg_keeps {c : ChannelId} {rd : HostRead} {s : State} (h : s.Keeps q v r) :
    ∃ s', execHostReg c rd s = .next s' ∧ s'.Keeps q v r := by
  unfold execHostReg
  refine ⟨_, rfl, ?_⟩
  split
  · exact h
  · exact State.hostReg_keeps (State.takeRequest_keeps h)

theorem State.hostRel_keeps {s : State} {p : Nat} {c : Nat} {b : List Byte} (h : s.Keeps q v r) :
    (State.hostRel s p c b).Keeps q v r := by
  unfold State.hostRel
  extract_lets -underBinder +onlyGivenNames n1 n2 n3
  refine State.Keeps.ite (State.replyEcho_keeps h) ?_
  refine State.Keeps.ite (State.replyEcho_keeps h) ?_
  extract_lets -underBinder +onlyGivenNames n4
  exact State.beginEdit_keeps h

theorem execHostRel_keeps {c : ChannelId} {s : State} (h : s.Keeps q v r) :
    ∃ s', execHostRel c s = .next s' ∧ s'.Keeps q v r := by
  unfold execHostRel
  refine ⟨_, rfl, ?_⟩
  split
  · exact h
  · exact State.hostRel_keeps (State.takeRequest_keeps h)

/-! ### Seam -/

theorem State.loseUnreached_keeps {s : State} (h : s.Keeps q v r) :
    (State.loseUnreached s).Keeps q v r := by
  unfold State.loseUnreached
  refine State.Keeps.ite h ?_
  refine State.forEach_keeps h ?_
  intro s1 x3 h2
  exact State.loseDie_keeps h2

theorem State.endSeam_keeps {s : State} {n : Nat} {cause : Nat} {dir : Bool} (h : s.Keeps q v r) :
    (State.endSeam s n cause dir).Keeps q v r := by
  unfold State.endSeam
  extract_lets -underBinder +onlyGivenNames n1 n2 s3
  have h4 : s3.Keeps q v r := State.setSeamCause_keeps h
  clear_value s3
  extract_lets -underBinder +onlyGivenNames s5
  have h6 : s5.Keeps q v r := State.logError_keeps (State.logError_keeps h4)
  clear_value s5
  refine State.Keeps.ite ?_ (State.loseUnreached_keeps (State.failPart_keeps (State.modSeam_keeps h6)))
  extract_lets -underBinder +onlyGivenNames s7
  have h8 : s7.Keeps q v r := State.modSeam_keeps h6
  clear_value s7
  extract_lets -underBinder +onlyGivenNames s9
  have h10 : s9.Keeps q v r := by
    refine State.forEach_keeps h8 ?_
    intro s11 x13 h12
    extract_lets -underBinder +onlyGivenNames n14
    exact State.Keeps.ite (State.raisePart_keeps h12) h12
  clear_value s9
  exact State.loseUnreached_keeps h10

theorem execSeamCrcError_keeps {seam : SeamId} {dir : SeamFlit} {s : State} (h : s.Keeps q v r) :
    ∃ s', execSeamCrcError seam dir s = .next s' ∧ s'.Keeps q v r := by
  unfold execSeamCrcError
  refine ⟨_, rfl, ?_⟩
  refine State.Keeps.ite h ?_
  extract_lets -underBinder +onlyGivenNames n1 n2 s3
  have h4 : s3.Keeps q v r := State.bump_keeps h
  clear_value s3
  extract_lets -underBinder +onlyGivenNames s5
  have h6 : s5.Keeps q v r := State.modSeam_keeps h4
  clear_value s5
  extract_lets -underBinder +onlyGivenNames s7
  have h8 : s7.Keeps q v r := State.Keeps.ite (State.setReg_keeps h6) h6
  clear_value s7
  exact State.Keeps.ite (State.endSeam_keeps h8) h8

theorem execSeamLaneLoss_keeps {seam : SeamId} {dir : Bool} {lane : BitVec 11} {s : State} (h : s.Keeps q v r) :
    ∃ s', execSeamLaneLoss seam dir lane s = .next s' ∧ s'.Keeps q v r := by
  unfold execSeamLaneLoss
  refine ⟨_, rfl, ?_⟩
  exact State.Keeps.ite h (State.endSeam_keeps (State.modSeam_keeps h))

theorem State.endSeamTraining_keeps {s : State} {n : Nat} {ok : Bool} (h : s.Keeps q v r) :
    (State.endSeamTraining s n ok).Keeps q v r := by
  unfold State.endSeamTraining
  refine State.Keeps.ite (State.modSeam_keeps h) ?_
  extract_lets -underBinder +onlyGivenNames s1
  have h2 : s1.Keeps q v r := State.modSeam_keeps h
  clear_value s1
  exact State.loseUnreached_keeps (State.failPart_keeps h2)

theorem execSeamTraining_keeps {seam : SeamId} {ok : Bool} {s : State} (h : s.Keeps q v r) :
    ∃ s', execSeamTraining seam ok s = .next s' ∧ s'.Keeps q v r := by
  unfold execSeamTraining
  refine ⟨_, rfl, ?_⟩
  exact State.Keeps.ite h (State.endSeamTraining_keeps h)

theorem execMemoryControllerFailure_keeps {depot : Bool} {n : Fin 12} {s : State} (h : s.Keeps q v r) :
    ∃ s', execMemoryControllerFailure depot n s = .next s' ∧ s'.Keeps q v r := by
  unfold execMemoryControllerFailure
  refine ⟨_, rfl, ?_⟩
  refine State.Keeps.ite h ?_
  refine State.Keeps.ite (State.Keeps.ite (State.failPart_keeps (State.logError_keeps h)) h) ?_
  exact State.failPart_keeps (State.logError_keeps h)

theorem execHeartbeat_keeps {fromS1 : Bool} {s : State} (h : s.Keeps q v r) :
    ∃ s', execHeartbeat fromS1 s = .next s' ∧ s'.Keeps q v r := by
  unfold execHeartbeat
  refine ⟨_, rfl, ?_⟩
  refine State.Keeps.ite h ?_
  refine State.Keeps.ite (State.modBoot_keeps (State.controlCrosses_keeps h) (fun _ => Nat.le_refl _)) ?_
  exact State.modBoot_keeps (State.controlCrosses_keeps h) (fun _ => Nat.le_refl _)

theorem execHeartbeatTimeout_keeps {lostS1 : Bool} {s : State} (h : s.Keeps q v r) :
    ∃ s', execHeartbeatTimeout lostS1 s = .next s' ∧ s'.Keeps q v r := by
  unfold execHeartbeatTimeout
  refine ⟨_, rfl, ?_⟩
  refine State.Keeps.ite h ?_
  refine State.Keeps.ite (State.Keeps.ite (State.loseDie_keeps h) h) ?_
  refine State.Keeps.ite ?_ h
  extract_lets -underBinder +onlyGivenNames s1
  have h2 : s1.Keeps q v r := State.modBoot_keeps h (fun _ => Nat.le_refl _)
  clear_value s1
  extract_lets -underBinder +onlyGivenNames s3
  have h4 : s3.Keeps q v r := State.modHif_keeps h2 (fun _ hn => hn)
  clear_value s3
  refine State.forEach_keeps h4 ?_
  intro s5 x7 h6
  exact State.dropPort_keeps h6

/-! ### Boot -/

theorem State.usageVals_keeps {s : State} (h : s.Keeps q v r) :
    (State.usageVals s).2.Keeps q v r := by
  unfold State.usageVals
  extract_lets -underBinder +onlyGivenNames n1 n2 n3 s4
  have h5 : s4.Keeps q v r := State.meterEnergy_keeps (State.meterEnergy_keeps h)
  clear_value s4
  extract_lets -underBinder +onlyGivenNames n6 n7
  have h8 : n7.2.Keeps q v r := State.draw_keeps h5
  clear_value n7
  exact h8

theorem State.appendTotals_keeps {s : State} (h : s.Keeps q v r) :
    (State.appendTotals s).Keeps q v r := by
  unfold State.appendTotals
  extract_lets -underBinder +onlyGivenNames n1
  have h2 : n1.2.Keeps q v r := State.usageVals_keeps h
  clear_value n1
  extract_lets -underBinder +onlyGivenNames s3
  have h4 : s3.Keeps q v r := State.append_keeps h2
  clear_value s3
  extract_lets -underBinder +onlyGivenNames s5
  have h6 : s5.Keeps q v r := State.append_keeps (State.append_keeps h4)
  clear_value s5
  exact State.modJournal_keeps h6 (fun _ => List.prefix_rfl)

theorem State.seamsDown_keeps {s : State} (h : s.Keeps q v r) :
    (State.seamsDown s).Keeps q v r := by
  unfold State.seamsDown
  refine State.forEach_keeps h ?_
  intro s1 x3 h2
  exact State.modSeam_keeps h2

theorem Store.wf_host {m : Store} (h : m.Wf) : ({ (default : Store) with host := m.host } : Store).Wf :=
  ⟨rfl, rfl, rfl, rfl, rfl, rfl, h.2.2.2.2.2.2.1, List.Pairwise.nil, fun _ h => absurd h List.not_mem_nil⟩

theorem State.cleared_keeps {s : State} {torn : Bool} (h : s.Keeps q v r) : (s.cleared torn).Keeps q v r := by
  unfold State.cleared
  extract_lets -underBinder +onlyGivenNames s1
  have h1 : s1.Keeps q v r := State.seamsDown_keeps h
  clear_value s1
  exact
    { pending := h1.pending
      vfs := Nat.zero_le _
      svn := h1.svn
      record := List.IsPrefix.trans h1.record (Journal.atStart_prefix _ _)
      wf :=
        { store := Store.wf_host h1.wf.store
          time := Table.sorted_nil
          regs := Table.sorted_filter h1.wf.regs _
          vfRegs := Table.sorted_nil, latches := Table.sorted_nil, heldLow := Table.sorted_nil, tiles := Table.sorted_nil
          tile := fun _ => Tile.default_wf
          polders := Table.sorted_nil, clients := Table.sorted_nil, conservators := Table.sorted_nil, channels := Table.sorted_nil
          buffers := fun _ => Table.sorted_nil
          seams := h1.wf.seams
          power := Table.sorted_foldl_put default (fun d => d)
            (fun d => ({ (default : DiePower) with cal := s1.journal.calibration d } : DiePower)) _ Table.sorted_nil
          ports := Table.sorted_nil, slots := Table.sorted_nil } }

theorem State.powerS0_keeps {s : State} (h : s.Keeps q v r) :
    (State.powerS0 s).Keeps q v r := by
  unfold State.powerS0
  extract_lets -underBinder +onlyGivenNames s1
  have h2 : s1.Keeps q v r := State.modBoot_keeps h (fun _ => Nat.le_refl _)
  clear_value s1
  exact State.Keeps.ite (State.trainLink_keeps h2) h2

theorem State.coldStart_keeps {s : State} {torn : Bool} (h : s.Keeps q v r) :
    (State.coldStart s torn).Keeps q v r := by
  unfold State.coldStart
  extract_lets -underBinder +onlyGivenNames n1 n2 s3
  have h4 : s3.Keeps q v r := State.cleared_keeps h
  clear_value s3
  extract_lets -underBinder +onlyGivenNames s5
  have h6 : s5.Keeps q v r := State.Keeps.ite (State.setIrq_keeps h4) h4
  clear_value s5
  extract_lets -underBinder +onlyGivenNames s7
  have h8 : s7.Keeps q v r := State.Keeps.ite h6 (State.append_keeps h6)
  clear_value s7
  exact State.Keeps.ite (State.powerS0_keeps h8) h8

theorem execColdStart_keeps {start : PowerRise} {s : State} (h : s.Keeps q v r) :
    ∃ s', execColdStart start s = .next s' ∧ s'.Keeps q v r := by
  unfold execColdStart
  refine ⟨_, rfl, ?_⟩
  refine State.Keeps.ite (State.modBoard_keeps (State.coldStart_keeps h)) ?_
  exact State.Keeps.ite (State.coldStart_keeps h) h

theorem State.stopCores_keeps {s : State} (h : s.Keeps q v r) : s.stopCores.Keeps q v r := by
  unfold State.stopCores
  extract_lets -underBinder +onlyGivenNames s1
  have h1 : s1.Keeps q v r := State.seamsDown_keeps h
  clear_value s1
  exact
    { h1 with
      vfs := Nat.zero_le _
      wf := { h1.wf with
        store := Store.wf_host h1.wf.store
        regs := Table.sorted_filter h1.wf.regs _
        vfRegs := Table.sorted_nil
        tiles := Table.sorted_nil
        tile := fun _ => Tile.default_wf
        polders := Table.sorted_nil
        conservators := Table.sorted_nil
        channels := Table.sorted_filter h1.wf.channels _
        buffers := State.chans_filtered h1.wf.channels h1.wf.buffers (fun c => decide (c < 8))
        ports := Table.sorted_nil
        slots := Table.sorted_nil } }

theorem execVinGood_keeps {s : State} (h : s.Keeps q v r) :
    ∃ s', execVinGood s = .next s' ∧ s'.Keeps q v r := by
  unfold execVinGood
  refine ⟨_, rfl, ?_⟩
  refine State.Keeps.ite h ?_
  extract_lets -underBinder +onlyGivenNames s1
  have h2 : s1.Keeps q v r := State.modBoard_keeps h
  clear_value s1
  exact State.Keeps.ite (State.powerS0_keeps h2) h2

theorem execVinLoss_keeps {s : State} (h : s.Keeps q v r) :
    ∃ s', execVinLoss s = .next s' ∧ s'.Keeps q v r := by
  unfold execVinLoss
  refine ⟨_, rfl, ?_⟩
  refine State.Keeps.ite h ?_
  extract_lets -underBinder +onlyGivenNames s1
  have h2 : s1.Keeps q v r := State.modBoot_keeps h (fun _ => Nat.le_refl _)
  clear_value s1
  extract_lets -underBinder +onlyGivenNames s3
  have h4 : s3.Keeps q v r := State.modBoard_keeps h2
  clear_value s3
  exact State.Keeps.ite (State.stopCores_keeps h4) h4

theorem execVauxLoss_keeps {s : State} (h : s.Keeps q v r) : ∃ t, execVauxLoss s = .next t ∧ t.Keeps q v r := by
  unfold execVauxLoss
  refine ⟨_, rfl, State.Keeps.ite h (State.modBoard_keeps (State.modBoot_keeps ?_ (fun _ => Nat.le_refl _)))⟩
  have h1 : s.stopCores.Keeps q v r := State.stopCores_keeps h
  generalize s.stopCores = s1 at h1 ⊢
  exact { h1 with wf := { h1.wf with
    channels := Table.sorted_nil
    buffers := fun _ => Table.sorted_nil
    regs := Table.sorted_filter h1.wf.regs _ } }

theorem execVinUndervoltage_keeps {s : State} (h : s.Keeps q v r) :
    ∃ s', execVinUndervoltage s = .next s' ∧ s'.Keeps q v r := by
  unfold execVinUndervoltage
  refine ⟨_, rfl, ?_⟩
  exact State.Keeps.ite h (State.retune_keeps (State.setIrq_keeps (State.modBoard_keeps h)))

theorem execUndervoltageEnd_keeps {s : State} (h : s.Keeps q v r) :
    ∃ s', execUndervoltageEnd s = .next s' ∧ s'.Keeps q v r := by
  unfold execUndervoltageEnd
  refine ⟨_, rfl, ?_⟩
  exact State.Keeps.ite (State.retune_keeps (State.modBoard_keeps h)) h

theorem execSysclkLoss_keeps {s : State} (h : s.Keeps q v r) :
    ∃ s', execSysclkLoss s = .next s' ∧ s'.Keeps q v r := by
  unfold execSysclkLoss
  refine ⟨_, rfl, State.Keeps.ite h ?_⟩
  extract_lets -underBinder +onlyGivenNames n1
  refine State.modBoard_keeps (State.modLinks_keeps (State.stopCores_keeps h) (fun _ hl => ⟨Table.sorted_filterMap h.wf.ports (fun e e' he => ?_), hl.2⟩))
  split at he <;> cases he
  rfl

theorem Boot.setImage_svn (b : Boot) (n : Nat) (img : List Byte) : b.svnMin ≤ (b.setImage n img).svnMin := by
  unfold Boot.setImage; split <;> exact Nat.le_refl _

theorem State.rejectImage_keeps {s : State} {reason : Nat} (h : s.Keeps q v r) : (s.rejectImage reason).Keeps q v r :=
  State.setIrq_keeps (State.modBoot_keeps h (fun b => Boot.setImage_svn b _ _))

theorem State.stgBegin_keeps {s : State} (h : s.Keeps q v r) :
    (State.stgBegin s).Keeps q v r := by
  unfold State.stgBegin
  exact State.Keeps.ite h (State.modBoot_keeps h (fun _ => Nat.le_refl _))

theorem execStgBegin_keeps {s : State} (h : s.Keeps q v r) :
    ∃ s', execStgBegin s = .next s' ∧ s'.Keeps q v r := by
  unfold execStgBegin
  refine ⟨_, rfl, ?_⟩
  exact State.stgBegin_keeps h

theorem State.stgChunk_keeps {s : State} {n : Nat} {data : List Byte} (h : s.Keeps q v r) :
    (State.stgChunk s n data).Keeps q v r := by
  unfold State.stgChunk
  refine State.Keeps.ite h ?_
  refine State.Keeps.ite (State.logError_keeps h) ?_
  exact State.Keeps.ite (State.rejectImage_keeps h) (State.modBoot_keeps h (fun b => Boot.setImage_svn b _ _))

theorem execStgChunk_keeps {len : BitVec 15} {data : List Byte} {s : State} (h : s.Keeps q v r) :
    ∃ s', execStgChunk len data s = .next s' ∧ s'.Keeps q v r := by
  unfold execStgChunk
  refine ⟨_, rfl, ?_⟩
  exact State.stgChunk_keeps h

theorem State.stgCommit_keeps {s : State} (h : s.Keeps q v r) :
    (State.stgCommit s).Keeps q v r := by
  unfold State.stgCommit
  exact State.Keeps.ite (State.modBoot_keeps h (fun _ => Nat.le_refl _)) h

theorem execStgCommit_keeps {s : State} (h : s.Keeps q v r) :
    ∃ s', execStgCommit s = .next s' ∧ s'.Keeps q v r := by
  unfold execStgCommit
  refine ⟨_, rfl, ?_⟩
  exact State.stgCommit_keeps h

theorem State.takeEffect_keeps {s : State} (h : s.Keeps q v r) :
    (State.takeEffect s).Keeps q v r := by
  unfold State.takeEffect
  extract_lets -underBinder +onlyGivenNames n1 n2
  exact State.modBoot_keeps h (fun _ => Nat.le_refl _)

theorem execImageVerification_keeps {s : State} (h : s.Keeps q v r) :
    ∃ s', execImageVerification s = .next s' ∧ s'.Keeps q v r := by
  unfold execImageVerification
  refine ⟨_, rfl, ?_⟩
  refine State.Keeps.ite h ?_
  split
  · exact State.rejectImage_keeps h
  · extract_lets -underBinder +onlyGivenNames s1
    have h2 : s1.Keeps q v r := State.setIrq_keeps (State.modBoot_keeps h (fun _ => Nat.le_refl _))
    clear_value s1
    refine State.Keeps.ite h2 ?_
    exact State.Keeps.ite (State.takeEffect_keeps (State.modBoot_keeps h2 (fun _ => Nat.le_refl _))) (State.modBoot_keeps h2 (fun _ => Nat.le_refl _))

theorem State.powerDies_keeps {s : State} {n : Nat} (h : s.Keeps q v r) :
    (State.powerDies s n).Keeps q v r := by
  unfold State.powerDies
  refine State.forEach_keeps (State.modBoot_keeps h (fun _ => Nat.le_refl _)) ?_
  intro s1 x3 h2
  exact State.modDie_keeps h2

theorem State.powerFails_keeps {s : State} {d : Nat} (h : s.Keeps q v r) :
    (State.powerFails s d).Keeps q v r := by
  unfold State.powerFails
  exact State.loseDie_keeps (State.powerDies_keeps h)

theorem State.spareSeamLanes_keeps {s : State} {n : Nat} {dir : Bool} (h : s.Keeps q v r) :
    (State.spareSeamLanes s n dir).Keeps q v r := by
  unfold State.spareSeamLanes
  extract_lets -underBinder +onlyGivenNames n1 n2
  refine State.forEach_keeps h ?_
  intro s3 x5 h4
  extract_lets -underBinder +onlyGivenNames n6
  refine State.Keeps.ite h4 ?_
  extract_lets -underBinder +onlyGivenNames s7
  have h8 : s7.Keeps q v r := State.modSeam_keeps h4
  clear_value s7
  exact State.appendSpare_keeps (State.setReg_keeps h8)

theorem State.trainSeam_keeps {s : State} {n : Nat} (h : s.Keeps q v r) :
    (State.trainSeam s n).Keeps q v r := by
  unfold State.trainSeam
  extract_lets -underBinder +onlyGivenNames n1 s2
  have h3 : s2.Keeps q v r := State.spareSeamLanes_keeps (State.spareSeamLanes_keeps h)
  clear_value s2
  extract_lets -underBinder +onlyGivenNames s4
  have h5 : s4.Keeps q v r := State.Keeps.ite (State.extendMr4_keeps h3) h3
  clear_value s4
  exact State.modSeam_keeps h5

theorem State.trainSeams_keeps {s : State} (h : s.Keeps q v r) :
    (State.trainSeams s).Keeps q v r := by
  unfold State.trainSeams
  refine State.Keeps.ite h ?_
  split
  · exact State.trainSeam_keeps h
  · exact State.modBoot_keeps h (fun _ => Nat.le_refl _)

theorem State.buildPool_keeps {s : State} (h : s.Keeps q v r) :
    (State.buildPool s).Keeps q v r := by
  unfold State.buildPool
  extract_lets -underBinder +onlyGivenNames s1
  have h2 : s1.Keeps q v r := State.modStore_keeps h (fun _ hm => hm)
  clear_value s1
  extract_lets -underBinder +onlyGivenNames s3
  have h4 : s3.Keeps q v r := by
    refine State.forEach_keeps h2 ?_
    intro s5 x7 h6
    exact State.setReg_keeps h6
  clear_value s3
  extract_lets -underBinder +onlyGivenNames s8
  have h9 : s8.Keeps q v r := by
    refine State.forEach_keeps h4 ?_
    intro s10 x12 h11
    exact State.setReg_keeps h11
  clear_value s8
  refine State.forEach_keeps h9 ?_
  intro s13 x15 h14
  exact State.setReg_keeps h14

theorem State.operate_keeps {s : State} (h : s.Keeps q v r) :
    (State.operate s).Keeps q v r := by
  unfold State.operate
  extract_lets -underBinder +onlyGivenNames s1
  have h2 : s1.Keeps q v r := State.extendMr4_keeps h
  clear_value s1
  extract_lets -underBinder +onlyGivenNames s3
  have h4 : s3.Keeps q v r := State.append_keeps h2
  clear_value s3
  extract_lets -underBinder +onlyGivenNames s5
  have h6 : s5.Keeps q v r := State.modBoot_keeps h4 (fun _ => Nat.le_refl _)
  clear_value s5
  exact State.retune_keeps (State.calibrate_keeps h6)

theorem State.stackFails_keeps {s : State} {n : Nat} (h : s.Keeps q v r) :
    (State.stackFails s n).Keeps q v r := by
  unfold State.stackFails
  exact State.failPart_keeps (State.modBoot_keeps (State.logError_keeps h) (fun _ => Nat.le_refl _))

theorem State.depotFails_keeps {s : State} {n : Nat} (h : s.Keeps q v r) :
    (State.depotFails s n).Keeps q v r := by
  unfold State.depotFails
  exact State.failPart_keeps (State.modBoot_keeps (State.logError_keeps h) (fun _ => Nat.le_refl _))

theorem State.spareTsvLane_keeps {s : State} {n : Nat} (h : s.Keeps q v r) :
    (State.spareTsvLane s n).Keeps q v r := by
  unfold State.spareTsvLane
  extract_lets -underBinder +onlyGivenNames n1
  refine State.Keeps.ite (State.stackFails_keeps h) ?_
  exact State.extendMr4_keeps (State.appendSpare_keeps (State.modSpares_keeps h))

theorem State.trainMemories_keeps {s : State} {e : BringUpEvent} (h : s.Keeps q v r) :
    (State.trainMemories s e).Keeps q v r := by
  unfold State.trainMemories
  extract_lets -underBinder +onlyGivenNames n1
  split
  · exact State.Keeps.ite (State.stackFails_keeps h) h
  · exact State.Keeps.ite (State.spareTsvLane_keeps h) h
  · exact State.Keeps.ite (State.depotFails_keeps h) h
  · exact State.Keeps.ite (State.modBoot_keeps h (fun _ => Nat.le_refl _)) (State.modBoot_keeps h (fun _ => Nat.le_refl _))
  · exact h

theorem State.copyImage_keeps {s : State} (h : s.Keeps q v r) :
    (State.copyImage s).Keeps q v r := by
  unfold State.copyImage
  extract_lets -underBinder +onlyGivenNames n1 n2
  exact State.Keeps.ite h (State.modBoot_keeps (State.crossSeams_keeps h) (fun _ => Nat.le_refl _))

theorem execBringUp_keeps {e : BringUpEvent} {s : State} (h : s.Keeps q v r) :
    ∃ s', execBringUp e s = .next s' ∧ s'.Keeps q v r := by
  unfold execBringUp
  refine ⟨_, rfl, ?_⟩
  refine State.Keeps.ite h ?_
  split
  · exact State.modBoot_keeps (State.powerDies_keeps h) (fun _ => Nat.le_refl _)
  · exact State.Keeps.ite h (State.powerFails_keeps h)
  · exact State.trainSeams_keeps h
  · exact State.copyImage_keeps h
  · exact State.trainMemories_keeps h
  · exact State.modBoot_keeps (State.buildPool_keeps h) (fun _ => Nat.le_refl _)
  · exact State.operate_keeps h
  · exact h

theorem State.powerDown_keeps {s : State} (h : s.Keeps q v r) : s.powerDown.Keeps q v r := by
  unfold State.powerDown
  extract_lets -underBinder +onlyGivenNames s1 s2 s3 s4
  have h2 : s2.Keeps q v r := State.modJournal_keeps (State.seamsDown_keeps h) (fun _ => List.prefix_rfl)
  clear_value s2
  have h3 : s3.Keeps q v r := { h2 with wf := { h2.wf with time := Table.sorted_filter h2.wf.time _ } }
  clear_value s3
  have h4 : s4.Keeps q v r := { h3 with wf := { h3.wf with
    regs := Table.sorted_filter h3.wf.regs _
    tiles := Table.sorted_nil
    tile := fun _ => Tile.default_wf
    conservators := Table.sorted_nil } }
  exact State.modBoot_keeps (State.modLinks_keeps h4 (fun _ hl => ⟨Table.sorted_filter hl.1 _, hl.2⟩)) (fun _ => Nat.le_refl _)

theorem State.awaitImage_keeps {s : State} (h : s.Keeps q v r) :
    (State.awaitImage s).Keeps q v r := by
  unfold State.awaitImage
  refine State.modBoot_keeps ?_ (fun _ => Nat.le_refl _)
  refine State.forEach_keeps h ?_
  intro s1 x3 h2
  exact State.idleChannel_keeps h2

theorem State.spoiltDigest_keeps {s : State} {n : Nat} (h : s.Keeps q v r) : (s.spoiltDigest n).2.Keeps q v r := by
  induction n generalizing s with
  | zero => exact h
  | succ n ih => exact ih (State.draw_keeps h)

theorem State.crossFails_keeps {s : State} (h : s.Keeps q v r) :
    (State.crossFails s).Keeps q v r := by
  unfold State.crossFails
  extract_lets -underBinder +onlyGivenNames s1
  have h2 : s1.Keeps q v r := State.setIrq_keeps h
  clear_value s1
  refine State.Keeps.ite ?_ ?_
  · refine State.Keeps.ite ?_ (State.takeEffect_keeps (State.modBoot_keeps h2 (fun _ => Nat.le_refl _)))
    extract_lets -underBinder +onlyGivenNames s3
    have h4 : s3.Keeps q v r := State.rejectImage_keeps (State.modBoot_keeps h2 (fun _ => Nat.le_refl _))
    clear_value s3
    exact State.takeEffect_keeps h4
  · exact State.awaitImage_keeps (State.powerDown_keeps (State.rejectImage_keeps (State.modBoot_keeps h2 (fun _ => Nat.le_refl _))))

theorem execCrossCheck_keeps {intact : Bool} {s : State} (h : s.Keeps q v r) :
    ∃ s', execCrossCheck intact s = .next s' ∧ s'.Keeps q v r := by
  unfold execCrossCheck
  refine ⟨_, rfl, ?_⟩
  refine State.Keeps.ite h ?_
  refine State.Keeps.ite (State.modBoot_keeps h (fun _ => Nat.le_refl _)) ?_
  extract_lets -underBinder +onlyGivenNames n1
  have h2 : n1.2.Keeps q v r := State.spoiltDigest_keeps h
  clear_value n1
  exact State.crossFails_keeps (State.modBoot_keeps h2 (fun _ => Nat.le_refl _))

/-! ### Secure -/

theorem State.serveSecure_keeps {s : State} {c : Nat} {op : Nat} {act : List Byte → State → State} (h : s.Keeps q v r) (hact : ∀ y1 y2, State.Keeps q v r y2 → (act y1 y2).Keeps q v r) :
    (State.serveSecure s c op act).Keeps q v r := by
  unfold State.serveSecure
  split
  · exact h
  · exact hact _ _ (State.takeRequest_keeps h)

theorem State.extendMr3_keeps {s : State} {b : List Byte} (h : s.Keeps q v r) :
    (State.extendMr3 s b).Keeps q v r := by
  unfold State.extendMr3
  exact State.modBoot_keeps h (fun _ => Nat.le_refl _)

theorem State.policyRequest_keeps {s : State} {c : Nat} {b : List Byte} {ok : Bool} {act : HostIf → HostIf} (h : s.Keeps q v r)
    (ha : ∀ x : HostIf, x.numVfs ≤ 16 → (act x).numVfs ≤ 16) : (s.policyRequest c b ok act).Keeps q v r :=
  State.Keeps.ite (State.reply_keeps h) (State.Keeps.ite (State.reply_keeps h)
    (State.reply_keeps (State.extendMr3_keeps (State.modHif_keeps h ha))))

theorem execCatPolicy_keeps {c : ChannelId} {s : State} (h : s.Keeps q v r) :
    ∃ s', execCatPolicy c s = .next s' ∧ s'.Keeps q v r := by
  unfold execCatPolicy
  refine ⟨_, rfl, ?_⟩
  refine State.serveSecure_keeps h ?_
  intro x1 s2 h3
  extract_lets -underBinder +onlyGivenNames n4
  exact State.policyRequest_keeps h3 (fun _ hn => hn)

theorem execKeyAdd_keeps {c : ChannelId} {s : State} (h : s.Keeps q v r) :
    ∃ s', execKeyAdd c s = .next s' ∧ s'.Keeps q v r := by
  unfold execKeyAdd
  refine ⟨_, rfl, ?_⟩
  refine State.serveSecure_keeps h ?_
  intro x1 s2 h3
  extract_lets -underBinder +onlyGivenNames n4
  exact State.policyRequest_keeps h3 (fun _ hn => hn)

theorem execKeyRemove_keeps {c : ChannelId} {s : State} (h : s.Keeps q v r) :
    ∃ s', execKeyRemove c s = .next s' ∧ s'.Keeps q v r := by
  unfold execKeyRemove
  refine ⟨_, rfl, ?_⟩
  refine State.serveSecure_keeps h ?_
  intro x1 s2 h3
  extract_lets -underBinder +onlyGivenNames n4
  exact State.policyRequest_keeps h3 (fun _ hn => hn)

theorem State.warmRestart_keeps {s : State} (h : s.Keeps q v r) :
    (State.warmRestart s).Keeps q v r := by
  unfold State.warmRestart
  extract_lets -underBinder +onlyGivenNames s1
  have h2 : s1.Keeps q v r := by
    refine State.forEach_keeps h ?_
    intro s3 x5 h4
    exact State.idleChannel_keeps h4
  clear_value s1
  exact State.takeEffect_keeps (State.modBoot_keeps h2 (fun _ => Nat.le_refl _))

theorem execRestart_keeps {c : ChannelId} {s : State} (h : s.Keeps q v r) :
    ∃ s', execRestart c s = .next s' ∧ s'.Keeps q v r := by
  unfold execRestart
  refine ⟨_, rfl, ?_⟩
  refine State.serveSecure_keeps h ?_
  intro x1 s2 h3
  refine State.Keeps.ite (State.reply_keeps h3) ?_
  exact State.Keeps.ite (State.reply_keeps h3) (State.warmRestart_keeps (State.reply_keeps h3))

theorem execShutdown_keeps {c : ChannelId} {s : State} (h : s.Keeps q v r) :
    ∃ s', execShutdown c s = .next s' ∧ s'.Keeps q v r := by
  unfold execShutdown
  refine ⟨_, rfl, ?_⟩
  refine State.serveSecure_keeps h ?_
  intro x1 s2 h3
  refine State.Keeps.ite (State.reply_keeps h3) ?_
  refine State.Keeps.ite (State.reply_keeps h3) ?_
  extract_lets -underBinder +onlyGivenNames s4
  have h5 : s4.Keeps q v r := State.appendTotals_keeps h3
  clear_value s4
  extract_lets -underBinder +onlyGivenNames s6
  have h7 : s6.Keeps q v r := State.append_keeps h5
  clear_value s6
  exact State.awaitImage_keeps (State.powerDown_keeps (State.reply_keeps h7))

theorem State.modBootUp_keeps {s : State} {f : Boot → Boot} (h : s.Keeps q v r) (hf : s.boot.svnMin ≤ (f s.boot).svnMin) :
    (s.modBoot f).Keeps q v r := { h with wf := { h.wf with }, svn := Nat.le_trans h.svn hf }

theorem execSvnCommit_keeps {c : ChannelId} {s : State} (h : s.Keeps q v r) :
    ∃ s', execSvnCommit c s = .next s' ∧ s'.Keeps q v r := by
  unfold execSvnCommit
  refine ⟨_, rfl, State.serveSecure_keeps h (fun b s h1 => ?_)⟩
  refine State.Keeps.ite (State.reply_keeps h1) (State.Keeps.ite (State.reply_keeps h1) ?_)
  split
  · exact State.reply_keeps h1
  next hs => exact State.reply_keeps (State.append_keeps (State.modBootUp_keeps h1 (Nat.le_of_lt (Nat.lt_of_not_le hs))))

theorem execAttest_keeps {c : ChannelId} {s : State} (h : s.Keeps q v r) :
    ∃ s', execAttest c s = .next s' ∧ s'.Keeps q v r := by
  unfold execAttest
  refine ⟨_, rfl, ?_⟩
  refine State.serveSecure_keeps h ?_
  intro x1 s2 h3
  exact State.Keeps.ite (State.reply_keeps h3) (State.reply_keeps (State.modChan_keeps h3 (fun _ hb => hb)))

theorem execReportRead_keeps {c : ChannelId} {s : State} (h : s.Keeps q v r) :
    ∃ s', execReportRead c s = .next s' ∧ s'.Keeps q v r := by
  unfold execReportRead
  refine ⟨_, rfl, ?_⟩
  refine State.serveSecure_keeps h ?_
  intro x1 s2 h3
  extract_lets -underBinder +onlyGivenNames n4 n5
  exact State.Keeps.ite (State.reply_keeps h3) (State.reply_keeps h3)

theorem execCertRead_keeps {c : ChannelId} {s : State} (h : s.Keeps q v r) :
    ∃ s', execCertRead c s = .next s' ∧ s'.Keeps q v r := by
  unfold execCertRead
  refine ⟨_, rfl, ?_⟩
  refine State.serveSecure_keeps h ?_
  intro x1 s2 h3
  extract_lets -underBinder +onlyGivenNames n4 n5
  exact State.Keeps.ite (State.reply_keeps h3) (State.reply_keeps h3)

theorem State.takeStatement_keeps {s : State} {m : List Byte} (h : s.Keeps q v r) :
    (State.takeStatement s m).Keeps q v r := by
  unfold State.takeStatement
  extract_lets -underBinder +onlyGivenNames s1
  have h2 : s1.Keeps q v r := State.append_keeps h
  clear_value s1
  extract_lets -underBinder +onlyGivenNames s3
  have h4 : s3.Keeps q v r := by
    refine State.forEach_keeps h2 ?_
    intro s5 x7 h6
    exact State.append_keeps h6
  clear_value s3
  refine State.calibrate_keeps ?_
  refine State.forEach_keeps h4 ?_
  intro s8 x10 h9
  exact State.modDie_keeps h9

theorem execRefurb_keeps {c : ChannelId} {rd : HostRead} {s : State} (h : s.Keeps q v r) :
    ∃ s', execRefurb c rd s = .next s' ∧ s'.Keeps q v r := by
  unfold execRefurb
  refine ⟨_, rfl, ?_⟩
  refine State.serveSecure_keeps h ?_
  intro x1 s2 h3
  refine State.Keeps.ite (State.reply_keeps h3) ?_
  refine State.Keeps.ite (State.reply_keeps h3) ?_
  split
  · exact State.reply_keeps h3
  · extract_lets -underBinder +onlyGivenNames n4 s5
    have h6 : s5.Keeps q v r := State.askHost_keeps h3
    clear_value s5
    split
    · exact State.reply_keeps h6
    · exact State.reply_keeps (State.takeStatement_keeps h6)

/-! ### Service -/

theorem State.noteSub_keeps {s : State} {row : Nat} (h : s.Keeps q v r) :
    (State.noteSub s row).Keeps q v r := by
  unfold State.noteSub
  exact State.modSpares_keeps h

theorem State.spareTileUnit_keeps {s : State} {t : Nat} (h : s.Keeps q v r) :
    (State.spareTileUnit s t).Keeps q v r := by
  unfold State.spareTileUnit
  extract_lets -underBinder +onlyGivenNames n1 n2
  refine State.Keeps.ite h ?_
  extract_lets -underBinder +onlyGivenNames s3
  have h4 : s3.Keeps q v r := State.modSpares_keeps h
  clear_value s3
  refine State.Keeps.ite (State.modSpares_keeps h4) ?_
  extract_lets -underBinder +onlyGivenNames s5
  have h6 : s5.Keeps q v r := State.modSpares_keeps h4
  clear_value s5
  exact State.extendMr4_keeps (State.appendSpare_keeps (State.noteSub_keeps h6))

theorem State.spareSpadRow_keeps {s : State} {t : Nat} {row : Nat} (h : s.Keeps q v r) :
    (State.spareSpadRow s t row).Keeps q v r := by
  unfold State.spareSpadRow
  extract_lets -underBinder +onlyGivenNames n1
  refine State.Keeps.ite h ?_
  extract_lets -underBinder +onlyGivenNames s2
  have h3 : s2.Keeps q v r := State.modSpares_keeps h
  clear_value s2
  refine State.Keeps.ite (State.modSpares_keeps h3) ?_
  extract_lets -underBinder +onlyGivenNames s4
  have h5 : s4.Keeps q v r := State.modSpares_keeps h3
  clear_value s4
  exact State.extendMr4_keeps (State.appendSpare_keeps (State.noteSub_keeps h5))

theorem State.spareColRow_keeps {s : State} {d : Nat} {bank : Nat} {row : Nat} (h : s.Keeps q v r) :
    (State.spareColRow s d bank row).Keeps q v r := by
  unfold State.spareColRow
  extract_lets -underBinder +onlyGivenNames n1 n2 n3 n4
  refine State.Keeps.ite h ?_
  extract_lets -underBinder +onlyGivenNames s5
  have h6 : s5.Keeps q v r := State.modSpares_keeps h
  clear_value s5
  refine State.Keeps.ite (State.extendMr4_keeps (State.appendSpare_keeps (State.modSpares_keeps h6))) ?_
  extract_lets -underBinder +onlyGivenNames s7
  have h8 : s7.Keeps q v r := State.modSpares_keeps h6
  clear_value s7
  exact State.extendMr4_keeps (State.appendSpare_keeps h8)

theorem State.spareSeamUnit_keeps {s : State} {n : Nat} (h : s.Keeps q v r) :
    (State.spareSeamUnit s n).Keeps q v r := by
  unfold State.spareSeamUnit
  exact State.Keeps.ite h (State.trainSeam_keeps h)

theorem State.spareLinkLane_keeps {s : State} {n : Nat} {lane : Nat} {ok : Bool} (h : s.Keeps q v r) :
    (State.spareLinkLane s n lane ok).Keeps q v r := by
  unfold State.spareLinkLane
  extract_lets -underBinder +onlyGivenNames n1
  refine State.Keeps.ite h ?_
  split
  · exact h
  · extract_lets -underBinder +onlyGivenNames s2
    have h3 : s2.Keeps q v r := State.modSpares_keeps h
    clear_value s2
    extract_lets -underBinder +onlyGivenNames s4
    have h5 : s4.Keeps q v r := State.extendMr4_keeps (State.appendSpare_keeps h3)
    clear_value s4
    exact State.Keeps.ite h5 (State.endTraining_keeps (State.modPort_keeps h5))

theorem execSpareSubstitution_keeps {u : SpareUnit} {ok : Bool} {s : State} (h : s.Keeps q v r) :
    ∃ s', execSpareSubstitution u ok s = .next s' ∧ s'.Keeps q v r := by
  unfold execSpareSubstitution
  refine ⟨_, rfl, ?_⟩
  refine State.Keeps.ite h ?_
  split
  · exact State.spareTileUnit_keeps h
  · exact State.spareSpadRow_keeps h
  · exact State.spareColRow_keeps h
  · exact State.spareSeamUnit_keeps h
  · exact State.spareLinkLane_keeps h
  · exact State.Keeps.ite (State.retuneDie_keeps (State.modDie_keeps h)) h

theorem State.scrubFrame_keeps {s : State} {depot : Bool} {dev : Nat} {f : Nat} (h : s.Keeps q v r) :
    (State.scrubFrame s depot dev f).Keeps q v r := by
  unfold State.scrubFrame
  extract_lets -underBinder +onlyGivenNames n1
  refine State.Keeps.ite h ?_
  extract_lets -underBinder +onlyGivenNames s2
  have h3 : s2.Keeps q v r := State.bump_keeps h
  clear_value s2
  extract_lets -underBinder +onlyGivenNames s4
  have h5 : s4.Keeps q v r := State.setIrq_keeps (State.setReg_keeps h3)
  clear_value s4
  exact State.retireFrame_keeps (State.logError_keeps h5)

theorem State.repairFrame_keeps {s : State} {depot : Bool} {dev : Nat} {f : Nat} (h : s.Keeps q v r) :
    (State.repairFrame s depot dev f).Keeps q v r := by
  unfold State.repairFrame
  extract_lets -underBinder +onlyGivenNames n1 n2 n3
  refine State.Keeps.ite h ?_
  extract_lets -underBinder +onlyGivenNames s4
  have h5 : s4.Keeps q v r := State.modSpares_keeps h
  clear_value s4
  extract_lets -underBinder +onlyGivenNames s6
  have h7 : s6.Keeps q v r := State.modStore_keeps h5 (fun _ hm => hm)
  clear_value s6
  extract_lets -underBinder +onlyGivenNames s8
  have h9 : s8.Keeps q v r := State.extendMr4_keeps (State.appendSpare_keeps h7)
  clear_value s8
  exact State.append_keeps h9

theorem State.selfTest_keeps {s : State} {f : MaintFindings} (h : s.Keeps q v r) :
    (State.selfTest s f).Keeps q v r := by
  unfold State.selfTest
  exact State.modSpares_keeps h

theorem State.scrubCorrected_keeps {s : State} {depot : Bool} {dev : Nat} {f : Nat} {unit : Nat} (h : s.Keeps q v r) :
    (State.scrubCorrected s depot dev f unit).Keeps q v r := by
  unfold State.scrubCorrected
  exact State.Keeps.ite h (State.memCorrected_keeps h)

theorem State.scrubDevice_keeps {s : State} {depot : Bool} {dev : Nat} (h : s.Keeps q v r) :
    (State.scrubDevice s depot dev).Keeps q v r := by
  unfold State.scrubDevice
  exact State.countRead_keeps h

theorem State.scrub_keeps {s : State} {f : MaintFindings} {ends : Bool} (h : s.Keeps q v r) :
    (State.scrub s f ends).Keeps q v r := by
  unfold State.scrub
  extract_lets -underBinder +onlyGivenNames s1
  have h2 : s1.Keeps q v r := by
    refine State.Keeps.ite ?_ h
    refine State.forEach_keeps ?_ ?_
    · refine State.forEach_keeps h ?_
      intro s3 x5 h4
      exact State.scrubDevice_keeps h4
    · intro s6 x8 h7
      exact State.scrubDevice_keeps h7
  clear_value s1
  extract_lets -underBinder +onlyGivenNames s9
  have h10 : s9.Keeps q v r := by
    refine State.forEach_keeps h2 ?_
    intro s11 x13 h12
    exact State.scrubCorrected_keeps h12
  clear_value s9
  extract_lets -underBinder +onlyGivenNames s14
  have h15 : s14.Keeps q v r := by
    refine State.forEach_keeps h10 ?_
    intro s16 x18 h17
    exact State.scrubFrame_keeps h17
  clear_value s14
  refine State.forEach_keeps h15 ?_
  intro s19 x21 h20
  exact State.scrubFrame_keeps h20

theorem State.repairRows_keeps {s : State} {f : MaintFindings} (h : s.Keeps q v r) :
    (State.repairRows s f).Keeps q v r := by
  unfold State.repairRows
  extract_lets -underBinder +onlyGivenNames s1
  have h2 : s1.Keeps q v r := by
    refine State.forEach_keeps h ?_
    intro s3 x5 h4
    exact State.repairFrame_keeps h4
  clear_value s1
  extract_lets -underBinder +onlyGivenNames s6
  have h7 : s6.Keeps q v r := by
    refine State.forEach_keeps h2 ?_
    intro s8 x10 h9
    exact State.repairFrame_keeps h9
  clear_value s6
  refine State.forEach_keeps h7 ?_
  intro s11 x13 h12
  exact State.spareTsvLane_keeps h12

theorem State.endMaintenance_keeps {s : State} (h : s.Keeps q v r) :
    (State.endMaintenance s).Keeps q v r := by
  unfold State.endMaintenance
  exact State.modBoot_keeps (State.modJournal_keeps (State.appendTotals_keeps h) (fun _ => List.prefix_rfl)) (fun _ => Nat.le_refl _)

theorem execPartWideMaintenance_keeps {f : MaintFindings} {s : State} (h : s.Keeps q v r) :
    ∃ s', execPartWideMaintenance f s = .next s' ∧ s'.Keeps q v r := by
  unfold execPartWideMaintenance
  refine ⟨_, rfl, ?_⟩
  refine State.Keeps.ite h ?_
  extract_lets -underBinder +onlyGivenNames s1
  have h2 : s1.Keeps q v r := State.Keeps.ite (State.selfTest_keeps h) h
  clear_value s1
  extract_lets -underBinder +onlyGivenNames s3
  have h4 : s3.Keeps q v r := State.Keeps.ite (State.scrub_keeps h2) h2
  clear_value s3
  extract_lets -underBinder +onlyGivenNames s5
  have h6 : s5.Keeps q v r := State.Keeps.ite (State.repairRows_keeps h4) h4
  clear_value s5
  exact State.Keeps.ite h6 (State.Keeps.ite (State.endMaintenance_keeps h6) (State.modBoot_keeps h6 (fun _ => Nat.le_refl _)))

theorem execUsageInterval_keeps {s : State} (h : s.Keeps q v r) :
    ∃ s', execUsageInterval s = .next s' ∧ s'.Keeps q v r := by
  unfold execUsageInterval
  refine ⟨_, rfl, ?_⟩
  exact State.Keeps.ite (State.appendTotals_keeps h) h

/-! ### Clocks -/

theorem State.elapsed_sorted (s : State) (l : List Nat) {t : Table Dword} (ht : Table.Sorted t) : Table.Sorted (l.foldl (fun t d =>
    if s.running d then Table.put 0 t d (Table.get 0 t d + Config.elapse d s.drawn) else t) t) := by
  induction l generalizing t with
  | nil => exact ht
  | cons d l ih =>
    refine ih ?_
    dsimp only
    split
    · exact Table.sorted_put ht _ _ _
    · exact ht

theorem State.tick_keeps {s : State} (h : s.Keeps q v r) : s.tick.Keeps q v r :=
  { h with wf := { h.wf with time := State.elapsed_sorted s domainIds h.wf.time } }

/-! ### Tap -/

theorem State.tap_keeps {s : State} {f : Board → Board} (h : s.Keeps q v r) :
    (State.tap s f).Keeps q v r := by
  unfold State.tap
  exact State.Keeps.ite (State.modBoard_keeps h) h

theorem execBypass_keeps {tdi : Bool} {s : State} (h : s.Keeps q v r) :
    ∃ s', execBypass tdi s = .next s' ∧ s'.Keeps q v r := by
  unfold execBypass
  refine ⟨_, rfl, ?_⟩
  exact State.tap_keeps h

theorem execIdcode_keeps {s : State} (h : s.Keeps q v r) :
    ∃ s', execIdcode s = .next s' ∧ s'.Keeps q v r := by
  unfold execIdcode
  refine ⟨_, rfl, ?_⟩
  exact State.tap_keeps h

theorem execSamplePreload_keeps {bits : List Bool} {s : State} (h : s.Keeps q v r) :
    ∃ s', execSamplePreload bits s = .next s' ∧ s'.Keeps q v r := by
  unfold execSamplePreload
  refine ⟨_, rfl, ?_⟩
  refine State.Keeps.ite ?_ h
  extract_lets -underBinder +onlyGivenNames n1
  have h2 : n1.2.Keeps q v r := State.draw_keeps h
  clear_value n1
  extract_lets -underBinder +onlyGivenNames n3
  exact State.modBoard_keeps h2

theorem execExtest_keeps {tdi : Bool} {s : State} (h : s.Keeps q v r) :
    ∃ s', execExtest tdi s = .next s' ∧ s'.Keeps q v r := by
  unfold execExtest
  refine ⟨_, rfl, ?_⟩
  exact State.Keeps.ite (State.tap_keeps h) (State.tap_keeps h)

end Sys2Proof.Machine
end

