-- ==== Sys2Proof/Laws/KeepsAccess.lean ====
section
/-!
SUPPORT. What the definitions of register access, the DMA engines, the gather engine and memory requests keep.
-/

-- one proof at a time: the package as one text would start more threads than its memory limit allows
set_option Elab.async false

namespace Sys2Proof.Machine

variable {q : List Instr} {v : Nat} {r : List Entry}



/-! ### Access -/

theorem State.fetchReg_keeps {s : State} {a : Nat} (h : s.Keeps q v r) :
    (State.fetchReg s a).2.Keeps q v r := by
  unfold State.fetchReg
  extract_lets -underBinder +onlyGivenNames s1
  have h2 : s1.Keeps q v r := State.Keeps.ite (State.meterEnergy_keeps h) h
  clear_value s1
  extract_lets -underBinder +onlyGivenNames n3
  have h4 : n3.2.Keeps q v r := State.draw_keeps h2
  clear_value n3
  split
  · exact h4
  · split
    · exact h4
    · exact h2

theorem State.restartWait_keeps {s : State} {a : Nat} (h : s.Keeps q v r) :
    (State.restartWait s a).Keeps q v r := by
  unfold State.restartWait
  extract_lets -underBinder +onlyGivenNames n1
  split
  · extract_lets -underBinder +onlyGivenNames n2
    split
    · exact State.Keeps.ite (State.modTcc_keeps h (fun _ hx => hx)) h
    · exact h
  · extract_lets -underBinder +onlyGivenNames n3
    split
    · exact State.modTile_keeps h (fun _ hx => by split <;> exact hx)
    · exact h
  · extract_lets -underBinder +onlyGivenNames n4 n5
    exact State.Keeps.ite (State.modSeam_keeps h) h
  · exact State.Keeps.ite (State.modPort_keeps h) h
  · exact State.Keeps.ite (State.modSlot_keeps h) (State.Keeps.ite (State.modPld_keeps h) h)
  · exact h

theorem State.clearReg_keeps {s : State} {a : Nat} (h : s.Keeps q v r) :
    (State.clearReg s a).Keeps q v r := by
  unfold State.clearReg
  exact State.restartWait_keeps (State.setReg_keeps h)

theorem State.returnReg_keeps {s : State} {z : Requester} {a : Nat} (h : s.Keeps q v r) : (s.returnReg z a).Keeps q v r := by
  unfold State.returnReg
  extract_lets -underBinder +onlyGivenNames key low high
  have h1 : low.2.Keeps q v r := State.fetchReg_keeps h
  have h2 : high.2.Keeps q v r := State.fetchReg_keeps h1
  refine State.Keeps.ite ?_ (State.Keeps.ite (State.answerValue_keeps h) ?_)
  · exact { h2 with wf := { h2.wf with latches := Table.sorted_put h2.wf.latches _ _ _ } }
  · exact State.answerValue_keeps (State.Keeps.ite (State.clearReg_keeps h1) h1)

theorem State.readMsix_keeps {s : State} {x : MsixMap} {off size : Nat} (h : s.Keeps q v r) : (s.readMsix x off size).Keeps q v r := by
  unfold State.readMsix
  exact State.Keeps.ite { h with wf := { h.wf with } } (State.answerValue_keeps h)

theorem State.writeMsixAt_keeps {s : State} {m : MsixMap} {off : Nat} {size : Nat} {z5 : Dword} (h : s.Keeps q v r) :
    (State.writeMsixAt s m off size z5).Keeps q v r := by
  unfold State.writeMsixAt
  refine State.Keeps.ite h ?_
  extract_lets -underBinder +onlyGivenNames n1 s2
  have h3 : s2.Keeps q v r := State.writeMsix_keeps h
  clear_value s2
  exact State.Keeps.ite (State.writeMsix_keeps h3) h3

theorem State.readVf_keeps {s : State} {p : Nat} {off : Nat} {size : Nat} (h : s.Keeps q v r) :
    (State.readVf s p off size).Keeps q v r := by
  unfold State.readVf
  extract_lets -underBinder +onlyGivenNames n1
  refine State.Keeps.ite (State.readUr_keeps h) ?_
  refine State.Keeps.ite (State.readMsix_keeps h) ?_
  refine State.Keeps.ite (State.readUr_keeps h) ?_
  refine State.Keeps.ite (State.answerValue_keeps h) ?_
  refine State.Keeps.ite (State.setVfReg_keeps (State.answerValue_keeps h)) ?_
  refine State.Keeps.ite (State.answerValue_keeps h) ?_
  refine State.Keeps.ite (State.Keeps.ite (State.returnReg_keeps h) (State.readUr_keeps h)) ?_
  refine State.Keeps.ite (State.Keeps.ite (State.returnReg_keeps h) (State.readUr_keeps h)) ?_
  exact State.answerValue_keeps h

theorem State.readBar2_keeps {s : State} {off : Nat} {size : Nat} (h : s.Keeps q v r) :
    (State.readBar2 s off size).Keeps q v r := by
  unfold State.readBar2
  refine State.Keeps.ite (State.readUr_keeps h) ?_
  refine State.Keeps.ite (State.readMsix_keeps h) ?_
  refine State.Keeps.ite (State.answerValue_keeps h) ?_
  exact State.Keeps.ite (State.readUr_keeps h) (State.answerValue_keeps h)

theorem State.writeBar2_keeps {s : State} {off : Nat} {size : Nat} {z4 : Dword} (h : s.Keeps q v r) :
    (State.writeBar2 s off size z4).Keeps q v r := by
  unfold State.writeBar2
  extract_lets -underBinder +onlyGivenNames n1
  refine State.Keeps.ite (State.writeUr_keeps h) ?_
  refine State.Keeps.ite (State.answerWritten_keeps (State.writeMsixAt_keeps h)) ?_
  refine State.Keeps.ite ?_ ?_
  · exact State.Keeps.ite (State.answerWritten_keeps (State.modBoot_keeps h (fun _ => Nat.le_refl _))) (State.writeUr_keeps h)
  · refine State.Keeps.ite (State.writeUr_keeps h) ?_
    refine State.Keeps.ite ?_ ?_
    · extract_lets -underBinder +onlyGivenNames s2
      have h3 : s2.Keeps q v r := State.Keeps.ite (State.stgBegin_keeps h) h
      clear_value s2
      exact State.answerWritten_keeps (State.Keeps.ite (State.stgCommit_keeps h3) h3)
    · refine State.Keeps.ite ?_ (State.answerWritten_keeps h)
      extract_lets -underBinder +onlyGivenNames n4
      exact State.answerWritten_keeps (State.stgChunk_keeps h)

theorem State.readConfig_keeps {s : State} {fn : Nat} {off : Nat} (h : s.Keeps q v r) :
    (State.readConfig s fn off).Keeps q v r := by
  unfold State.readConfig
  refine State.Keeps.ite (State.readUr_keeps h) ?_
  exact State.Keeps.ite (State.answerValue_keeps h) (State.answerValue_keeps (State.draw_keeps h))

theorem State.writeConfig_keeps {s : State} {fn : Nat} {off : Nat} {z4 : Word} (h : s.Keeps q v r) :
    (State.writeConfig s fn off z4).Keeps q v r := by
  unfold State.writeConfig
  refine State.Keeps.ite (State.writeUr_keeps h) ?_
  exact State.Keeps.ite (State.answerWritten_keeps (State.modHif_keeps h (fun _ hn => hn))) (State.answerWritten_keeps h)

theorem State.toPage_keeps {s : State} {z2 : Requester} {pg : Nat} (h : s.Keeps q v r) :
    (State.toPage s z2 pg).Keeps q v r := by
  unfold State.toPage
  exact State.controlCrosses_keeps h

theorem State.fromPage_keeps {s : State} {z2 : Requester} {pg : Nat} (h : s.Keeps q v r) :
    (State.fromPage s z2 pg).Keeps q v r := by
  unfold State.fromPage
  exact State.controlCrosses_keeps h

theorem State.access_keeps {s : State} {z2 : Requester} {pg : Nat} (h : s.Keeps q v r) :
    (State.access s z2 pg).Keeps q v r := by
  unfold State.access
  exact State.fromPage_keeps (State.toPage_keeps h)

theorem State.readAccess_keeps {s : State} {z2 : Requester} {a : Nat} {size : Nat} (h : s.Keeps q v r) :
    (State.readAccess s z2 a size).Keeps q v r := by
  unfold State.readAccess
  split
  · exact State.readVf_keeps h
  · exact State.readBar2_keeps h
  · exact State.readConfig_keeps h
  · extract_lets -underBinder +onlyGivenNames n1
    refine State.Keeps.ite (State.readUr_keeps h) ?_
    refine State.Keeps.ite (State.readUr_keeps (State.logError_keeps (State.access_keeps h))) ?_
    exact State.fromPage_keeps (State.returnReg_keeps (State.toPage_keeps h))

theorem execReadClear_keeps {z1 : Requester} {addr : RegRead} {s : State} (h : s.Keeps q v r) :
    ∃ s', execReadClear z1 addr s = .next s' ∧ s'.Keeps q v r := by
  unfold execReadClear
  refine ⟨_, rfl, ?_⟩
  exact State.readAccess_keeps h

theorem execLowWordRead_keeps {z1 : Requester} {addr : RegRead} {s : State} (h : s.Keeps q v r) :
    ∃ s', execLowWordRead z1 addr s = .next s' ∧ s'.Keeps q v r := by
  unfold execLowWordRead
  refine ⟨_, rfl, ?_⟩
  exact State.readAccess_keeps h

theorem State.freezeTile_keeps {s : State} {t : Nat} (h : s.Keeps q v r) :
    (State.freezeTile s t).Keeps q v r := by
  unfold State.freezeTile
  exact State.modTcc_keeps h (fun _ hx => by split <;> exact hx)

theorem State.suspendMonitors_keeps {s : State} {p : Nat} (h : s.Keeps q v r) :
    (State.suspendMonitors s p).Keeps q v r := by
  unfold State.suspendMonitors
  refine State.forEach_keeps h ?_
  intro s1 x3 h2
  exact State.modTile_keeps h2 (fun _ hx => hx)

theorem State.releaseTile_keeps {s : State} {t : Nat} (h : s.Keeps q v r) :
    (State.releaseTile s t).Keeps q v r := by
  unfold State.releaseTile
  extract_lets -underBinder +onlyGivenNames n1
  refine State.Keeps.ite h ?_
  extract_lets -underBinder +onlyGivenNames s2
  have h3 : s2.Keeps q v r := State.modTcc_keeps h (fun _ hx => by split <;> first | exact hx | exact ⟨hx.1, hx.2.1, Table.sorted_nil⟩)
  clear_value s2
  exact State.Keeps.ite (State.enterDone_keeps h3) h3

theorem State.freezeTiles_keeps {s : State} {p : Nat} {ts : List Nat} {on : Bool} (h : s.Keeps q v r) :
    (State.freezeTiles s p ts on).Keeps q v r := by
  unfold State.freezeTiles
  refine State.Keeps.ite ?_ ?_
  · refine State.setVoid_keeps ?_
    refine State.suspendMonitors_keeps ?_
    refine State.forEach_keeps h ?_
    intro s1 x3 h2
    exact State.freezeTile_keeps h2
  · refine State.forEach_keeps h ?_
    intro s4 x6 h5
    exact State.releaseTile_keeps h5

theorem State.writeFreeze_keeps {s : State} {pg : Nat} {on : Bool} (h : s.Keeps q v r) :
    (State.writeFreeze s pg on).Keeps q v r := by
  unfold State.writeFreeze
  refine State.Keeps.ite (State.Keeps.ite (State.ignoreWrite_keeps h) h) ?_
  extract_lets -underBinder +onlyGivenNames n1
  refine State.Keeps.ite (State.ignoreWrite_keeps h) ?_
  refine State.Keeps.ite h ?_
  refine State.Keeps.ite (State.freezeTiles_keeps (State.setReg_keeps h)) ?_
  exact State.freezeTiles_keeps (State.modPld_keeps h)

theorem State.resetErrors_keeps {s : State} {pg : Nat} (h : s.Keeps q v r) :
    (State.resetErrors s pg).Keeps q v r := by
  unfold State.resetErrors
  refine State.forEach_keeps h ?_
  intro s1 x3 h2
  exact State.setReg_keeps h2

theorem State.writeCtl_keeps {s : State} {pg : Nat} {z3 : Word} (h : s.Keeps q v r) :
    (State.writeCtl s pg z3).Keeps q v r := by
  unfold State.writeCtl
  extract_lets -underBinder +onlyGivenNames s1
  have h2 : s1.Keeps q v r := State.Keeps.ite (State.resetErrors_keeps h) h
  clear_value s1
  exact State.writeFreeze_keeps h2

theorem State.clearIrq_keeps {s : State} {pg : Nat} {z3 : Word} (h : s.Keeps q v r) :
    (State.clearIrq s pg z3).Keeps q v r := by
  unfold State.clearIrq
  extract_lets -underBinder +onlyGivenNames s1
  have h2 : s1.Keeps q v r := State.setReg_keeps h
  clear_value s1
  exact State.Keeps.ite (State.sendMsix_keeps h2) h2

theorem State.forceIrq_keeps {s : State} {pg : Nat} {z3 : Word} (h : s.Keeps q v r) :
    (State.forceIrq s pg z3).Keeps q v r := by
  unfold State.forceIrq
  exact State.setIrq_keeps h

theorem State.writeIrqEn_keeps {s : State} {pg : Nat} {z3 : Word} (h : s.Keeps q v r) :
    (State.writeIrqEn s pg z3).Keeps q v r := by
  unfold State.writeIrqEn
  exact State.irqEdge_keeps (State.setReg_keeps h) h

theorem execFreeze_keeps {page : BitVec 28} {on : Bool} {s : State} (h : s.Keeps q v r) :
    ∃ s', execFreeze page on s = .next s' ∧ s'.Keeps q v r := by
  unfold execFreeze
  refine ⟨_, rfl, ?_⟩
  refine State.Keeps.ite (State.answerWritten_keeps (State.writeFreeze_keeps (State.accessCrosses_keeps h))) ?_
  exact State.answerError_keeps h

theorem execBlkCtlReset_keeps {page : BitVec 28} {s : State} (h : s.Keeps q v r) :
    ∃ s', execBlkCtlReset page s = .next s' ∧ s'.Keeps q v r := by
  unfold execBlkCtlReset
  refine ⟨_, rfl, ?_⟩
  refine State.Keeps.ite (State.answerWritten_keeps (State.resetErrors_keeps (State.accessCrosses_keeps h))) ?_
  exact State.answerError_keeps h

theorem execBlkIrqStsClear_keeps {page : BitVec 28} {bits : Word} {s : State} (h : s.Keeps q v r) :
    ∃ s', execBlkIrqStsClear page bits s = .next s' ∧ s'.Keeps q v r := by
  unfold execBlkIrqStsClear
  refine ⟨_, rfl, ?_⟩
  refine State.Keeps.ite (State.answerWritten_keeps (State.clearIrq_keeps (State.accessCrosses_keeps h))) ?_
  exact State.answerError_keeps h

theorem execBlkIrqForce_keeps {page : BitVec 28} {bits : Word} {s : State} (h : s.Keeps q v r) :
    ∃ s', execBlkIrqForce page bits s = .next s' ∧ s'.Keeps q v r := by
  unfold execBlkIrqForce
  refine ⟨_, rfl, ?_⟩
  refine State.Keeps.ite (State.answerWritten_keeps (State.forceIrq_keeps (State.accessCrosses_keeps h))) ?_
  exact State.answerError_keeps h

theorem execPldWdLimit_keeps {p : PolderId} {value : Word} {s : State} (h : s.Keeps q v r) :
    ∃ s', execPldWdLimit p value s = .next s' ∧ s'.Keeps q v r := by
  unfold execPldWdLimit
  refine ⟨_, rfl, ?_⟩
  exact State.Keeps.ite (State.answerWritten_keeps (State.setReg_keeps h)) (State.answerError_keeps h)

theorem State.writeColumn_keeps {s : State} {t : Nat} {off : Nat} {z4 : Word} (h : s.Keeps q v r) :
    (State.writeColumn s t off z4).Keeps q v r := by
  unfold State.writeColumn
  extract_lets -underBinder +onlyGivenNames n1
  refine State.Keeps.ite ?_ ?_
  · extract_lets -underBinder +onlyGivenNames s2
    have h3 : s2.Keeps q v r := State.Keeps.ite (State.writeStart_keeps h) h
    clear_value s2
    extract_lets -underBinder +onlyGivenNames s4
    have h5 : s4.Keeps q v r := State.Keeps.ite (State.writeStep_keeps h3) h3
    clear_value s4
    exact State.noteCtl_keeps h5
  · refine State.Keeps.ite (State.Keeps.ite (State.ignoreWrite_keeps h) (State.setReg_keeps h)) ?_
    refine State.Keeps.ite (State.Keeps.ite (State.ignoreWrite_keeps h) (State.setReg_keeps h)) ?_
    exact State.Keeps.ite (State.setReg_keeps h) h

theorem State.writeSeepage_keeps {s : State} {a : Nat} {z3 : Word} (h : s.Keeps q v r) :
    (State.writeSeepage s a z3).Keeps q v r := by
  unfold State.writeSeepage
  refine State.Keeps.ite ?_ (State.Keeps.ite (State.setReg_keeps h) h)
  extract_lets -underBinder +onlyGivenNames n1
  exact State.Keeps.ite (State.setReg_keeps h) (State.ignoreWrite_keeps h)

theorem State.writeIdentity_keeps {s : State} {a : Nat} {z3 : Word} (h : s.Keeps q v r) :
    (State.writeIdentity s a z3).Keeps q v r := by
  unfold State.writeIdentity
  extract_lets -underBinder +onlyGivenNames n1
  refine State.Keeps.ite (State.ignoreWrite_keeps h) ?_
  refine State.Keeps.ite (State.setReg_keeps h) ?_
  exact State.Keeps.ite (State.setReg_keeps h) (State.Keeps.ite (State.setReg_keeps h) (State.setReg_keeps h))

theorem State.writePort_keeps {s : State} {a : Nat} {z3 : Word} (h : s.Keeps q v r) :
    (State.writePort s a z3).Keeps q v r := by
  unfold State.writePort
  extract_lets -underBinder +onlyGivenNames n1 n2
  refine State.Keeps.ite (State.writePrtCtl_keeps h) ?_
  refine State.Keeps.ite (State.setReg_keeps h) ?_
  exact State.Keeps.ite (State.setReg_keeps h) (State.Keeps.ite (State.writeIdentity_keeps h) h)

theorem State.writePcie_keeps {s : State} {a : Nat} {z3 : Word} (h : s.Keeps q v r) :
    (State.writePcie s a z3).Keeps q v r := by
  unfold State.writePcie
  refine State.Keeps.ite (State.Keeps.ite (State.setReg_keeps h) (State.ignoreWrite_keeps h)) ?_
  exact State.Keeps.ite (State.writeFrHead_keeps h) h

theorem State.writePower_keeps {s : State} {a : Nat} {z3 : Word} (h : s.Keeps q v r) :
    (State.writePower s a z3).Keeps q v r := by
  unfold State.writePower
  exact State.Keeps.ite h (State.Keeps.ite (State.writePwrCap_keeps h) (State.Keeps.ite (State.setReg_keeps h) h))

theorem State.writePair_keeps {s : State} {a : Nat} {low : Word} {high : Word} (h : s.Keeps q v r) :
    (State.writePair s a low high).Keeps q v r := by
  unfold State.writePair
  extract_lets -underBinder +onlyGivenNames n1
  have h2 : ∀ y7 y8 y9, State.Keeps q v r y7 → (n1 y7 y8 y9).Keeps q v r := by
    intro s3 x5 x6 h4
    exact State.setReg_keeps (State.setReg_keeps h4)
  clear_value n1
  split
  · exact State.Keeps.ite (State.Keeps.ite (State.ignoreWrite_keeps h) (h2 _ _ _ h)) (h2 _ _ _ h)
  · exact State.Keeps.ite (State.ignoreWrite_keeps h) (h2 _ _ _ h)
  · exact h2 _ _ _ h

theorem State.holdLow_keeps {s : State} (h : s.Keeps q v r) (k : Nat) (x : Option Word) :
    ({ s with heldLow := Table.put none s.heldLow k x } : State).Keeps q v r :=
  { h with wf := { h.wf with heldLow := Table.sorted_put h.wf.heldLow _ _ _ } }

theorem State.writeHigh_keeps {s : State} {z : Requester} {a : Nat} {w : Word} (h : s.Keeps q v r) :
    (s.writeHigh z a w).Keeps q v r := State.holdLow_keeps (State.writePair_keeps h) _ _

theorem State.applyWrite_keeps {s : State} {z : Requester} {a : Nat} {w : Word} (h : s.Keeps q v r) :
    (s.applyWrite z a w).Keeps q v r := by
  unfold State.applyWrite
  extract_lets pg off
  clear_value off pg
  refine State.Keeps.ite ?_ (State.Keeps.ite (State.holdLow_keeps h _ _) (State.Keeps.ite (State.writeHigh_keeps h) ?_))
  · split
    · exact State.writeCtl_keeps h
    · exact State.clearIrq_keeps h
    · exact State.writeIrqEn_keeps h
    · exact State.forceIrq_keeps h
    · exact h
  · split
    · exact State.Keeps.ite (State.writeColumn_keeps h) h
    · exact State.writeSeepage_keeps h
    · exact State.writeSeepage_keeps h
    · exact State.writeSeepage_keeps h
    · exact State.writePower_keeps h
    · exact State.writePort_keeps h
    · exact State.writePcie_keeps h
    · exact State.Keeps.ite (State.setReg_keeps h) h
    · exact h

theorem State.writeChannel_keeps {s : State} {z2 : Requester} {c : Nat} {off : Nat} {z5 : Word} (h : s.Keeps q v r) :
    (State.writeChannel s z2 c off z5).Keeps q v r := by
  unfold State.writeChannel
  refine State.Keeps.ite ?_ ?_
  · refine State.channelWrite_keeps h ?_
    intro s1 h2
    exact State.fillBuffer_keeps h2
  · refine State.Keeps.ite ?_ ?_
    · refine State.channelWrite_keeps h ?_
      intro s3 h4
      exact State.ringChannel_keeps h4
    · refine State.Keeps.ite ?_ ?_
      · refine State.channelWrite_keeps h ?_
        intro s5 h6
        exact State.releaseChannel_keeps h6
      · refine State.Keeps.ite (State.writeUr_keeps h) ?_
        refine State.Keeps.ite (State.answerError_keeps h) ?_
        exact State.Keeps.ite (State.answerWritten_keeps (State.setReg_keeps h)) (State.answerWritten_keeps h)

theorem State.writeVf_keeps {s : State} {p : Nat} {off : Nat} {size : Nat} {z5 : Dword} (h : s.Keeps q v r) :
    (State.writeVf s p off size z5).Keeps q v r := by
  unfold State.writeVf
  extract_lets -underBinder +onlyGivenNames n1 n2
  refine State.Keeps.ite (State.writeUr_keeps h) ?_
  refine State.Keeps.ite ?_ ?_
  · refine State.vfWrite_keeps h ?_
    intro s3 h4
    exact State.writeMsixAt_keeps h4
  · refine State.Keeps.ite (State.writeUr_keeps h) ?_
    refine State.Keeps.ite (State.writeChannel_keeps h) ?_
    refine State.Keeps.ite (State.writeChannel_keeps h) ?_
    refine State.vfWrite_keeps h ?_
    intro s5 h6
    refine State.Keeps.ite (State.writeSqTail_keeps h6) ?_
    exact State.Keeps.ite (State.writeCqHead_keeps h6) (State.Keeps.ite (State.writeQueueConfig_keeps h6) h6)

theorem State.writeAccess_keeps {s : State} {z2 : Requester} {a : Nat} {size : Nat} {z5 : Dword} (h : s.Keeps q v r) :
    (State.writeAccess s z2 a size z5).Keeps q v r := by
  unfold State.writeAccess
  extract_lets -underBinder +onlyGivenNames n1
  split
  · exact State.writeVf_keeps h
  · exact State.writeBar2_keeps h
  · exact State.writeConfig_keeps h
  · extract_lets -underBinder +onlyGivenNames n2
    refine State.Keeps.ite (State.writeUr_keeps h) ?_
    refine State.Keeps.ite (State.writeUr_keeps (State.logError_keeps (State.access_keeps h))) ?_
    split
    · exact State.writeChannel_keeps (State.access_keeps h)
    · exact State.answerWritten_keeps (State.applyWrite_keeps (State.access_keeps h))

theorem execRegisterWrite_keeps {z1 : Requester} {addr : BitVec 28} {size : BitVec 4} {value : Dword} {s : State} (h : s.Keeps q v r) :
    ∃ s', execRegisterWrite z1 addr size value s = .next s' ∧ s'.Keeps q v r := by
  unfold execRegisterWrite
  refine ⟨_, rfl, ?_⟩
  exact State.writeAccess_keeps h

/-! ### Dma -/

theorem State.ringWrite_keeps {s : State} {t : Nat} {c : Command} {o : Nat} {rows : List (List Byte)} (h : s.Keeps q v r) :
    (State.ringWrite s t c o rows).Keeps q v r := by
  unfold State.ringWrite
  refine State.forEach_keeps h ?_
  intro s1 x3 h2
  exact State.setSpadRow_keeps h2

theorem State.ringLoose_keeps {s : State} {t : Nat} {c : Command} {o : Nat} {known : List (Nat × Nat)} {rows : List (List Byte)} (h : s.Keeps q v r) :
    (State.ringLoose s t c o known rows).Keeps q v r := by
  unfold State.ringLoose
  refine State.forEach_keeps h ?_
  intro s1 x3 h2
  exact State.setLooseRow_keeps h2

theorem State.writeTile_keeps {s : State} {t : Nat} {c : Command} {i : Nat} {bs : List Byte} (h : s.Keeps q v r) :
    (s.writeTile t c i bs).Keeps q v r := by
  unfold State.writeTile
  extract_lets +onlyGivenNames hd w body vw s1 o
  have h1 : s1.Keeps q v r := State.Keeps.ite { h with wf := { h.wf with } } h
  clear_value s1
  exact State.Keeps.ite (State.ringLoose_keeps (State.ringWrite_keeps h1))
    (State.forEach_keeps h1 (fun _ _ hx => State.ringLoose_keeps hx))

theorem State.writeItem_keeps {s : State} {t : Nat} {z3 : Nat} {a : Active} {i : Nat} {bs : List Byte} (h : s.Keeps q v r) :
    (State.writeItem s t z3 a i bs).Keeps q v r := by
  unfold State.writeItem
  extract_lets -underBinder +onlyGivenNames n1
  split
  · exact State.ringWrite_keeps h
  · exact State.ringWrite_keeps h
  · exact State.ringLoose_keeps h
  · exact State.writeTile_keeps h
  · exact State.writeTile_keeps h
  · extract_lets -underBinder +onlyGivenNames n2 n3
    exact State.modTile_keeps h (fun _ hx => Tile.setDma_wf hx)

theorem State.skewRows_keeps {s : State} {t : Nat} {z3 : Nat} {a : Active} (h : s.Keeps q v r) :
    (State.skewRows s t z3 a).Keeps q v r := by
  unfold State.skewRows
  extract_lets -underBinder +onlyGivenNames n1 n2 n3
  refine State.modActive_keeps ?_
  refine State.forEach_keeps h ?_
  intro s4 x6 h5
  exact State.setSpadRow_keeps h5

theorem State.skewFinish_keeps {s : State} {t : Nat} {z3 : Nat} {a : Active} (h : s.Keeps q v r) :
    (State.skewFinish s t z3 a).Keeps q v r := by
  unfold State.skewFinish
  extract_lets -underBinder +onlyGivenNames n1
  refine State.Keeps.ite h ?_
  extract_lets -underBinder +onlyGivenNames n2 n3 n4 n5 s6
  have h7 : s6.Keeps q v r := State.modTile_keeps h (fun _ hx => Tile.setDma_wf hx)
  clear_value s6
  exact State.finish_keeps h7

theorem State.skewProgress_keeps {s : State} {t : Nat} {z3 : Nat} {stream : Nat} (h : s.Keeps q v r) :
    (State.skewProgress s t z3 stream).Keeps q v r := by
  unfold State.skewProgress
  refine State.forEach_keeps h ?_
  intro s1 x3 h2
  extract_lets -underBinder +onlyGivenNames s4
  have h5 : s4.Keeps q v r := State.skewRows_keeps h2
  clear_value s4
  split
  · exact State.skewFinish_keeps h5
  · exact h5

theorem State.beginDma_keeps {s : State} {t : Nat} {z3 : Nat} {a : Active} (h : s.Keeps q v r) :
    (State.beginDma s t z3 a).Keeps q v r := by
  unfold State.beginDma
  extract_lets -underBinder +onlyGivenNames n1 n2 n3 n4 s5
  have h6 : s5.Keeps q v r := State.modTile_keeps h (fun _ hx => Tile.setDma_wf hx)
  clear_value s5
  extract_lets -underBinder +onlyGivenNames s7
  have h8 : s7.Keeps q v r := State.modActive_keeps h6
  clear_value s7
  exact State.Keeps.ite (State.skewProgress_keeps (State.bumpHeld_keeps h8)) h8

theorem State.startDma_keeps {s : State} {t : Nat} {z3 : Nat} {store : Bool} (h : s.Keeps q v r) :
    (State.startDma s t z3 store).Keeps q v r := by
  unfold State.startDma
  split
  · exact h
  · split
    · exact State.raiseEngine_keeps h
    · exact State.beginDma_keeps h

theorem execDmaLoad_keeps {t : TileId} {e : Bool} {s : State} (h : s.Keeps q v r) :
    ∃ s', execDmaLoad t e s = .next s' ∧ s'.Keeps q v r := by
  unfold execDmaLoad
  refine ⟨_, rfl, ?_⟩
  exact State.startDma_keeps h

theorem execDmaStore_keeps {t : TileId} {e : Bool} {s : State} (h : s.Keeps q v r) :
    ∃ s', execDmaStore t e s = .next s' ∧ s'.Keeps q v r := by
  unfold execDmaStore
  refine ⟨_, rfl, ?_⟩
  exact State.startDma_keeps h

theorem State.loadArrived_keeps {s : State} {t : Nat} {z3 : Nat} {z4 : Req} (h : s.Keeps q v r) :
    (State.loadArrived s t z3 z4).Keeps q v r := by
  unfold State.loadArrived
  split
  · exact h
  · extract_lets -underBinder +onlyGivenNames n1 n2 s3
    have h4 : s3.Keeps q v r := State.bump64_keeps h
    clear_value s3
    extract_lets -underBinder +onlyGivenNames n5 n6
    refine State.Keeps.ite (State.raiseEngine_keeps (State.setReg64_keeps h4)) ?_
    extract_lets -underBinder +onlyGivenNames n7 n8
    refine State.Keeps.ite ?_ (State.modActive_keeps h4)
    extract_lets -underBinder +onlyGivenNames n9 s10
    have h11 : s10.Keeps q v r := State.modActive_keeps h4
    clear_value s10
    extract_lets -underBinder +onlyGivenNames s12
    have h13 : s12.Keeps q v r := State.bumpHeld_keeps (State.writeItem_keeps h11)
    clear_value s12
    exact State.Keeps.ite (State.skewProgress_keeps h13) (State.Keeps.ite (State.finish_keeps h13) h13)

theorem State.storeAcked_keeps {s : State} {t : Nat} {z3 : Nat} {z4 : Req} (h : s.Keeps q v r) :
    (State.storeAcked s t z3 z4).Keeps q v r := by
  unfold State.storeAcked
  split
  · exact h
  · extract_lets -underBinder +onlyGivenNames s1
    have h2 : s1.Keeps q v r := State.bump64_keeps h
    clear_value s1
    extract_lets -underBinder +onlyGivenNames n3
    exact State.modActive_keeps h2

/-! ### Gather -/

theorem State.modStream_keeps {s : State} {t : Nat} {i : Nat} {f : GStream → GStream} (h : s.Keeps q v r) :
    (State.modStream s t i f).Keeps q v r := by
  unfold State.modStream
  exact State.modTile_keeps h (fun _ hx => ⟨hx.1, hx.2.1, hx.2.2.1, hx.2.2.2.1, hx.2.2.2.2.1, hx.2.2.2.2.2.1, Table.sorted_put hx.2.2.2.2.2.2 _ _ _⟩)

theorem State.clearRunAhead_keeps {s : State} {t : Nat} {i : Nat} (h : s.Keeps q v r) :
    (State.clearRunAhead s t i).Keeps q v r := by
  unfold State.clearRunAhead
  extract_lets -underBinder +onlyGivenNames n1
  exact State.modStream_keeps (State.bump_keeps h)

theorem execGstream_keeps {t : TileId} {s : State} (h : s.Keeps q v r) :
    ∃ s', execGstream t s = .next s' ∧ s'.Keeps q v r := by
  unfold execGstream
  refine ⟨_, rfl, ?_⟩
  split
  · exact h
  · split
    · exact State.raiseEngine_keeps h
    · extract_lets -underBinder +onlyGivenNames s1
      have h2 : s1.Keeps q v r := State.clearRunAhead_keeps h
      clear_value s1
      exact State.finish_keeps (State.modStream_keeps h2)

theorem State.runStart_keeps {s : State} {g : GStream} {z3 : GrunCmd} (h : s.Keeps q v r) :
    (State.runStart s g z3).2.Keeps q v r := by
  unfold State.runStart
  split
  · exact h
  · split
    · exact h
    · exact State.draw_keeps h

theorem State.beginGrun_keeps {s : State} {t : Nat} {seq : Nat} {c : Command} (h : s.Keeps q v r) :
    (State.beginGrun s t seq c).Keeps q v r := by
  unfold State.beginGrun
  extract_lets -underBinder +onlyGivenNames n1 s2
  have h3 : s2.Keeps q v r := State.Keeps.ite h (State.modStream_keeps (State.clearRunAhead_keeps h))
  clear_value s2
  extract_lets -underBinder +onlyGivenNames n4 n5 n6
  have h7 : n6.2.Keeps q v r := by
    unfold n6
    split
    · exact h3
    · exact State.runStart_keeps h3
  clear_value n6
  extract_lets -underBinder +onlyGivenNames n8 n9 n10
  exact State.modActive_keeps (State.modStream_keeps h7)

theorem execGrun_keeps {t : TileId} {ecc : RowEcc} {s : State} (h : s.Keeps q v r) :
    ∃ s', execGrun t ecc s = .next s' ∧ s'.Keeps q v r := by
  unfold execGrun
  refine ⟨_, rfl, ?_⟩
  split
  · exact h
  · split
    · exact State.raiseEngine_keeps h
    · refine State.reading_keeps h ?_
      intro s1 h2
      exact State.beginGrun_keeps h2

theorem State.writeElem_keeps {s : State} {t : Nat} {i : Nat} {p : Nat} {bs : List Byte} (h : s.Keeps q v r) :
    (State.writeElem s t i p bs).Keeps q v r := by
  unfold State.writeElem
  extract_lets -underBinder +onlyGivenNames n1
  split
  · extract_lets -underBinder +onlyGivenNames s2
    have h3 : s2.Keeps q v r := State.setSpadRow_keeps h
    clear_value s2
    extract_lets -underBinder +onlyGivenNames s4
    have h5 : s4.Keeps q v r := State.bump64_keeps h3
    clear_value s4
    exact State.Keeps.ite (State.finish_keeps (State.modStream_keeps h5)) (State.modStream_keeps h5)
  · exact h

theorem State.tryElem_keeps {s : State} {t : Nat} {i : Nat} {p : Nat} (h : s.Keeps q v r) :
    (State.tryElem s t i p).Keeps q v r := by
  unfold State.tryElem
  extract_lets -underBinder +onlyGivenNames n1
  split
  · extract_lets -underBinder +onlyGivenNames n2
    exact State.Keeps.ite (State.writeElem_keeps (State.modStream_keeps h)) h
  · exact h

theorem State.gatherArrived_keeps {s : State} {t : Nat} {z3 : Req} (h : s.Keeps q v r) :
    (State.gatherArrived s t z3).Keeps q v r := by
  unfold State.gatherArrived
  exact State.Keeps.ite (State.modStream_keeps h) (State.tryElem_keeps (State.modStream_keeps h))

/-! ### Requests -/

theorem State.markFlight_keeps {s : State} {t : Nat} (h : s.Keeps q v r) :
    (State.markFlight s t).Keeps q v r := by
  unfold State.markFlight
  extract_lets -underBinder +onlyGivenNames n1 n2
  exact State.Keeps.ite (State.setReg_keeps h) h

theorem State.touchTlb_keeps {s : State} {t : Nat} {z3 : Nat} {stream : Nat} {va : Nat} (h : s.Keeps q v r) :
    (State.touchTlb s t z3 stream va).Keeps q v r := by
  unfold State.touchTlb
  split
  · exact h
  · split
    · exact State.fillTlb_keeps h
    · exact h

theorem State.rowOwner_lt {s : State} {row : Nat} : ownerCode (s.rowOwner row) < 32 := by
  unfold State.rowOwner ownerCode
  cases hf : (List.range 16).find? (fun p => (s.pld p).state.owns && bitAt (s.pld p).rowMap.toNat row) with
  | none => decide
  | some p =>
    have := List.mem_range.mp (List.mem_of_find?_eq_some hf)
    exact Nat.lt_of_lt_of_le this (by decide)

theorem State.tileOwner_lt {s : State} {t : Nat} : ownerCode (s.tileOwner t) < 32 := State.rowOwner_lt

theorem State.addReq_keeps {s : State} {t : Nat} {z3 : Nat} {stream : Nat} {n : Need} {runAhead : Bool} (h : s.Keeps q v r)
    (ht : t < 256 := by assumption) :
    (State.addReq s t z3 stream n runAhead).Keeps q v r := by
  unfold State.addReq
  extract_lets -underBinder +onlyGivenNames n1
  have hm := h.wf.store
  exact State.markFlight_keeps (State.setStore_keeps h ⟨hm.1, hm.2.1, hm.2.2.1, hm.2.2.2.1, hm.2.2.2.2.1, hm.2.2.2.2.2.1,
    hm.2.2.2.2.2.2.1, Numbered.add hm.2.2.2.2.2.2.2 rfl ht State.tileOwner_lt⟩)

theorem State.issueNeed_keeps {s : State} {t : Nat} {z3 : Nat} {stream : Nat} {n : Need} (h : s.Keeps q v r)
    (ht : t < 256 := by assumption) :
    (State.issueNeed s t z3 stream n).Keeps q v r := by
  unfold State.issueNeed
  extract_lets -underBinder +onlyGivenNames n1 n2 s3
  have h4 : s3.Keeps q v r := State.addReq_keeps h
  clear_value s3
  refine State.Keeps.ite (State.requestFault_keeps (State.loseReq_keeps h4)) ?_
  refine State.Keeps.ite (State.hostError_keeps (State.setReg64_keeps (State.loseReq_keeps h4))) ?_
  split
  · exact State.requestFault_keeps (State.loseReq_keeps h4)
  · exact State.route_keeps (State.touchTlb_keeps h4)
  · exact h4

theorem State.issueDma_keeps {s : State} {t : Nat} {z3 : Nat} {ecc : RowEcc} (h : s.Keeps q v r)
    (ht : t < 256 := by assumption) :
    (State.issueDma s t z3 ecc).Keeps q v r := by
  unfold State.issueDma
  split
  · exact h
  · extract_lets -underBinder +onlyGivenNames n1 n2
    split
    · exact h
    · refine State.Keeps.ite (State.waitSlot_keeps h) ?_
      extract_lets -underBinder +onlyGivenNames n3
      have h4 : ∀ y7, State.Keeps q v r y7 → (n3 y7).Keeps q v r := by
        intro s5 h6
        exact State.issueNeed_keeps (State.modActive_keeps (State.endSlotWait_keeps h6))
      clear_value n3
      exact State.Keeps.ite (State.reading_keeps (State.bumpHeld_keeps h) h4) (h4 _ h)

theorem State.passTurn_keeps {s : State} {t : Nat} {i : Nat} (h : s.Keeps q v r) :
    (State.passTurn s t i).Keeps q v r := by
  unfold State.passTurn
  exact State.modTile_keeps h (fun _ hx => hx)

theorem State.issueElem_keeps {s : State} {t : Nat} {i : Nat} {k : GConfig} {z5 : GRun} {va : Nat} (h : s.Keeps q v r)
    (ht : t < 256 := by assumption) :
    (State.issueElem s t i k z5 va).Keeps q v r := by
  unfold State.issueElem
  refine State.Keeps.ite h ?_
  refine State.Keeps.ite (State.waitSlot_keeps h) ?_
  refine State.Keeps.ite h ?_
  extract_lets -underBinder +onlyGivenNames n1 n2 n3
  exact State.issueNeed_keeps (State.modStream_keeps (State.passTurn_keeps (State.endSlotWait_keeps h)))

theorem State.consumeAhead_keeps {s : State} {t : Nat} {i : Nat} {z4 : GRun} {e : RaElem} (h : s.Keeps q v r) :
    (State.consumeAhead s t i z4 e).Keeps q v r := by
  unfold State.consumeAhead
  extract_lets -underBinder +onlyGivenNames n1 s2
  have h3 : s2.Keeps q v r := State.modStream_keeps (State.bump_keeps h)
  clear_value s2
  extract_lets -underBinder +onlyGivenNames s4
  have h5 : s4.Keeps q v r := State.modStream_keeps h3
  clear_value s4
  extract_lets -underBinder +onlyGivenNames s6
  have h7 : s6.Keeps q v r := by
    refine State.forEach_keeps h5 ?_
    intro s8 x10 h9
    exact State.modReq_keeps h9
  clear_value s6
  exact State.tryElem_keeps h7

theorem State.issueConsumed_keeps {s : State} {t : Nat} {i : Nat} {k : GConfig} {z5 : GRun} (h : s.Keeps q v r)
    (ht : t < 256 := by assumption) :
    (State.issueConsumed s t i k z5).Keeps q v r := by
  unfold State.issueConsumed
  extract_lets -underBinder +onlyGivenNames n1
  split
  · exact State.issueElem_keeps h
  · refine State.Keeps.ite ?_ ?_
    · extract_lets -underBinder +onlyGivenNames s2
      have h3 : s2.Keeps q v r := State.issueElem_keeps h
      clear_value s2
      exact State.Keeps.ite h3 (State.modStream_keeps h3)
    · exact State.Keeps.ite (State.consumeAhead_keeps h) (State.issueElem_keeps (State.clearRunAhead_keeps h))

theorem State.issueAhead_keeps {s : State} {t : Nat} {i : Nat} {k : GConfig} {z5 : GRun} (h : s.Keeps q v r)
    (ht : t < 256 := by assumption) :
    (State.issueAhead s t i k z5).Keeps q v r := by
  unfold State.issueAhead
  extract_lets -underBinder +onlyGivenNames n1 n2
  refine State.Keeps.ite h ?_
  split
  · exact State.modStream_keeps (State.bump_keeps h)
  · extract_lets -underBinder +onlyGivenNames n3 s4
    have h5 : s4.Keeps q v r := State.modStream_keeps (State.passTurn_keeps h)
    clear_value s4
    refine State.forEach_keeps h5 ?_
    intro s6 x8 h7
    extract_lets -underBinder +onlyGivenNames n9 s10
    have h11 : s10.Keeps q v r := State.touchTlb_keeps (State.addReq_keeps h7)
    clear_value s10
    exact State.route_keeps (State.bump_keeps h11)

theorem State.issueGe_keeps {s : State} {t : Nat} {i : Nat} {ecc : RowEcc} (h : s.Keeps q v r)
    (ht : t < 256 := by assumption) :
    (State.issueGe s t i ecc).Keeps q v r := by
  unfold State.issueGe
  split
  · refine State.Keeps.ite (State.issueConsumed_keeps h) ?_
    refine State.Keeps.ite ?_ (State.issueAhead_keeps h)
    refine State.reading_keeps h ?_
    intro s1 h2
    exact State.issueAhead_keeps h2
  · exact h

theorem execRequestIssue_keeps {t : TileId} {z2 : BitVec 3} {stream : BitVec 2} {ecc : RowEcc} {s : State} (h : s.Keeps q v r) :
    ∃ s', execRequestIssue t z2 stream ecc s = .next s' ∧ s'.Keeps q v r := by
  unfold execRequestIssue
  refine ⟨_, rfl, ?_⟩
  have ht : t.toNat < 256 := t.isLt
  exact State.Keeps.ite h (State.Keeps.ite (State.issueDma_keeps h) (State.Keeps.ite (State.issueGe_keeps h) h))

theorem execResponseArrival_keeps {req : Nat} {s : State} (h : s.Keeps q v r) :
    ∃ s', execResponseArrival req s = .next s' ∧ s'.Keeps q v r := by
  unfold execResponseArrival
  refine ⟨_, rfl, ?_⟩
  split
  · exact h
  · refine State.Keeps.ite h ?_
    extract_lets -underBinder +onlyGivenNames s1
    have h2 : s1.Keeps q v r := State.settleSeams_keeps (State.dropReq_keeps h)
    clear_value s1
    refine State.Keeps.ite h2 ?_
    refine State.Keeps.ite (State.gatherArrived_keeps h2) ?_
    exact State.Keeps.ite (State.storeAcked_keeps h2) (State.loadArrived_keeps h2)

end Sys2Proof.Machine
end

