-- ==== Sys2Proof/Laws/State.lean ====
section
/-!
SUPPORT. What each updater of the state leaves alone, field by field and by accessor, and what it writes.
-/

namespace Sys2Proof.Machine

variable {s : State}

/-! ### setReg -/

@[simp] theorem State.setReg_pending {a : Nat} {w : Word} : (s.setReg a w).pending = s.pending := rfl
@[simp] theorem State.setReg_answer {a : Nat} {w : Word} : (s.setReg a w).answer = s.answer := rfl
@[simp] theorem State.setReg_drawn {a : Nat} {w : Word} : (s.setReg a w).drawn = s.drawn := rfl
@[simp] theorem State.setReg_time {a : Nat} {w : Word} : (s.setReg a w).time = s.time := rfl
@[simp] theorem State.setReg_vfRegs {a : Nat} {w : Word} : (s.setReg a w).vfRegs = s.vfRegs := rfl
@[simp] theorem State.setReg_latches {a : Nat} {w : Word} : (s.setReg a w).latches = s.latches := rfl
@[simp] theorem State.setReg_heldLow {a : Nat} {w : Word} : (s.setReg a w).heldLow = s.heldLow := rfl
@[simp] theorem State.setReg_tiles {a : Nat} {w : Word} : (s.setReg a w).tiles = s.tiles := rfl
@[simp] theorem State.setReg_store {a : Nat} {w : Word} : (s.setReg a w).store = s.store := rfl
@[simp] theorem State.setReg_nets {a : Nat} {w : Word} : (s.setReg a w).nets = s.nets := rfl
@[simp] theorem State.setReg_seams {a : Nat} {w : Word} : (s.setReg a w).seams = s.seams := rfl
@[simp] theorem State.setReg_polders {a : Nat} {w : Word} : (s.setReg a w).polders = s.polders := rfl
@[simp] theorem State.setReg_clients {a : Nat} {w : Word} : (s.setReg a w).clients = s.clients := rfl
@[simp] theorem State.setReg_conservators {a : Nat} {w : Word} : (s.setReg a w).conservators = s.conservators := rfl
@[simp] theorem State.setReg_channels {a : Nat} {w : Word} : (s.setReg a w).channels = s.channels := rfl
@[simp] theorem State.setReg_hif {a : Nat} {w : Word} : (s.setReg a w).hif = s.hif := rfl
@[simp] theorem State.setReg_links {a : Nat} {w : Word} : (s.setReg a w).links = s.links := rfl
@[simp] theorem State.setReg_power {a : Nat} {w : Word} : (s.setReg a w).power = s.power := rfl
@[simp] theorem State.setReg_board {a : Nat} {w : Word} : (s.setReg a w).board = s.board := rfl
@[simp] theorem State.setReg_boot {a : Nat} {w : Word} : (s.setReg a w).boot = s.boot := rfl
@[simp] theorem State.setReg_journal {a : Nat} {w : Word} : (s.setReg a w).journal = s.journal := rfl
@[simp] theorem State.setReg_spares {a : Nat} {w : Word} : (s.setReg a w).spares = s.spares := rfl
@[simp] theorem State.setReg_at_now {a : Nat} {w : Word} {dom : Nat} : (s.setReg a w).now dom = s.now dom := rfl
@[simp] theorem State.setReg_at_tile {a : Nat} {w : Word} {k : Nat} : (s.setReg a w).tile k = s.tile k := rfl
@[simp] theorem State.setReg_at_pld {a : Nat} {w : Word} {k : Nat} : (s.setReg a w).pld k = s.pld k := rfl
@[simp] theorem State.setReg_at_chan {a : Nat} {w : Word} {k : Nat} : (s.setReg a w).chan k = s.chan k := rfl
@[simp] theorem State.setReg_at_cns {a : Nat} {w : Word} {k : Nat} : (s.setReg a w).cns k = s.cns k := rfl
@[simp] theorem State.setReg_at_client {a : Nat} {w : Word} {j : Nat} : (s.setReg a w).client j = s.client j := rfl
@[simp] theorem State.setReg_at_seam {a : Nat} {w : Word} {k : Nat} : (s.setReg a w).seam k = s.seam k := rfl
@[simp] theorem State.setReg_at_port {a : Nat} {w : Word} {k : Nat} : (s.setReg a w).port k = s.port k := rfl
@[simp] theorem State.setReg_at_die {a : Nat} {w : Word} {k : Nat} : (s.setReg a w).die k = s.die k := rfl
@[simp] theorem State.setReg_at_vfReg {a : Nat} {w : Word} {k o : Nat} : (s.setReg a w).vfReg k o = s.vfReg k o := rfl
@[simp] theorem State.setReg_at_rowOwner {a : Nat} {w : Word} {row : Nat} : (s.setReg a w).rowOwner row = s.rowOwner row := rfl
@[simp] theorem State.setReg_at_tileOwner {a : Nat} {w : Word} {k : Nat} : (s.setReg a w).tileOwner k = s.tileOwner k := rfl

/-! ### setReg64 -/

@[simp] theorem State.setReg64_pending {a n : Nat} : (s.setReg64 a n).pending = s.pending := State.setReg_pending.trans State.setReg_pending
@[simp] theorem State.setReg64_answer {a n : Nat} : (s.setReg64 a n).answer = s.answer := State.setReg_answer.trans State.setReg_answer
@[simp] theorem State.setReg64_drawn {a n : Nat} : (s.setReg64 a n).drawn = s.drawn := State.setReg_drawn.trans State.setReg_drawn
@[simp] theorem State.setReg64_time {a n : Nat} : (s.setReg64 a n).time = s.time := State.setReg_time.trans State.setReg_time
@[simp] theorem State.setReg64_vfRegs {a n : Nat} : (s.setReg64 a n).vfRegs = s.vfRegs := State.setReg_vfRegs.trans State.setReg_vfRegs
@[simp] theorem State.setReg64_latches {a n : Nat} : (s.setReg64 a n).latches = s.latches := State.setReg_latches.trans State.setReg_latches
@[simp] theorem State.setReg64_heldLow {a n : Nat} : (s.setReg64 a n).heldLow = s.heldLow := State.setReg_heldLow.trans State.setReg_heldLow
@[simp] theorem State.setReg64_tiles {a n : Nat} : (s.setReg64 a n).tiles = s.tiles := State.setReg_tiles.trans State.setReg_tiles
@[simp] theorem State.setReg64_store {a n : Nat} : (s.setReg64 a n).store = s.store := State.setReg_store.trans State.setReg_store
@[simp] theorem State.setReg64_nets {a n : Nat} : (s.setReg64 a n).nets = s.nets := State.setReg_nets.trans State.setReg_nets
@[simp] theorem State.setReg64_seams {a n : Nat} : (s.setReg64 a n).seams = s.seams := State.setReg_seams.trans State.setReg_seams
@[simp] theorem State.setReg64_polders {a n : Nat} : (s.setReg64 a n).polders = s.polders := State.setReg_polders.trans State.setReg_polders
@[simp] theorem State.setReg64_clients {a n : Nat} : (s.setReg64 a n).clients = s.clients := State.setReg_clients.trans State.setReg_clients
@[simp] theorem State.setReg64_conservators {a n : Nat} : (s.setReg64 a n).conservators = s.conservators := State.setReg_conservators.trans State.setReg_conservators
@[simp] theorem State.setReg64_channels {a n : Nat} : (s.setReg64 a n).channels = s.channels := State.setReg_channels.trans State.setReg_channels
@[simp] theorem State.setReg64_hif {a n : Nat} : (s.setReg64 a n).hif = s.hif := State.setReg_hif.trans State.setReg_hif
@[simp] theorem State.setReg64_links {a n : Nat} : (s.setReg64 a n).links = s.links := State.setReg_links.trans State.setReg_links
@[simp] theorem State.setReg64_power {a n : Nat} : (s.setReg64 a n).power = s.power := State.setReg_power.trans State.setReg_power
@[simp] theorem State.setReg64_board {a n : Nat} : (s.setReg64 a n).board = s.board := State.setReg_board.trans State.setReg_board
@[simp] theorem State.setReg64_boot {a n : Nat} : (s.setReg64 a n).boot = s.boot := State.setReg_boot.trans State.setReg_boot
@[simp] theorem State.setReg64_journal {a n : Nat} : (s.setReg64 a n).journal = s.journal := State.setReg_journal.trans State.setReg_journal
@[simp] theorem State.setReg64_spares {a n : Nat} : (s.setReg64 a n).spares = s.spares := State.setReg_spares.trans State.setReg_spares
@[simp] theorem State.setReg64_at_now {a n : Nat} {dom : Nat} : (s.setReg64 a n).now dom = s.now dom := State.setReg_at_now.trans State.setReg_at_now
@[simp] theorem State.setReg64_at_tile {a n : Nat} {k : Nat} : (s.setReg64 a n).tile k = s.tile k := State.setReg_at_tile.trans State.setReg_at_tile
@[simp] theorem State.setReg64_at_pld {a n : Nat} {k : Nat} : (s.setReg64 a n).pld k = s.pld k := State.setReg_at_pld.trans State.setReg_at_pld
@[simp] theorem State.setReg64_at_chan {a n : Nat} {k : Nat} : (s.setReg64 a n).chan k = s.chan k := State.setReg_at_chan.trans State.setReg_at_chan
@[simp] theorem State.setReg64_at_cns {a n : Nat} {k : Nat} : (s.setReg64 a n).cns k = s.cns k := State.setReg_at_cns.trans State.setReg_at_cns
@[simp] theorem State.setReg64_at_client {a n : Nat} {j : Nat} : (s.setReg64 a n).client j = s.client j := State.setReg_at_client.trans State.setReg_at_client
@[simp] theorem State.setReg64_at_seam {a n : Nat} {k : Nat} : (s.setReg64 a n).seam k = s.seam k := State.setReg_at_seam.trans State.setReg_at_seam
@[simp] theorem State.setReg64_at_port {a n : Nat} {k : Nat} : (s.setReg64 a n).port k = s.port k := State.setReg_at_port.trans State.setReg_at_port
@[simp] theorem State.setReg64_at_die {a n : Nat} {k : Nat} : (s.setReg64 a n).die k = s.die k := State.setReg_at_die.trans State.setReg_at_die
@[simp] theorem State.setReg64_at_vfReg {a n : Nat} {k o : Nat} : (s.setReg64 a n).vfReg k o = s.vfReg k o := State.setReg_at_vfReg.trans State.setReg_at_vfReg
@[simp] theorem State.setReg64_at_rowOwner {a n : Nat} {row : Nat} : (s.setReg64 a n).rowOwner row = s.rowOwner row := State.setReg_at_rowOwner.trans State.setReg_at_rowOwner
@[simp] theorem State.setReg64_at_tileOwner {a n : Nat} {k : Nat} : (s.setReg64 a n).tileOwner k = s.tileOwner k := State.setReg_at_tileOwner.trans State.setReg_at_tileOwner

/-! ### bump -/

@[simp] theorem State.bump_pending {a n : Nat} : (s.bump a n).pending = s.pending := State.setReg_pending
@[simp] theorem State.bump_answer {a n : Nat} : (s.bump a n).answer = s.answer := State.setReg_answer
@[simp] theorem State.bump_drawn {a n : Nat} : (s.bump a n).drawn = s.drawn := State.setReg_drawn
@[simp] theorem State.bump_time {a n : Nat} : (s.bump a n).time = s.time := State.setReg_time
@[simp] theorem State.bump_vfRegs {a n : Nat} : (s.bump a n).vfRegs = s.vfRegs := State.setReg_vfRegs
@[simp] theorem State.bump_latches {a n : Nat} : (s.bump a n).latches = s.latches := State.setReg_latches
@[simp] theorem State.bump_heldLow {a n : Nat} : (s.bump a n).heldLow = s.heldLow := State.setReg_heldLow
@[simp] theorem State.bump_tiles {a n : Nat} : (s.bump a n).tiles = s.tiles := State.setReg_tiles
@[simp] theorem State.bump_store {a n : Nat} : (s.bump a n).store = s.store := State.setReg_store
@[simp] theorem State.bump_nets {a n : Nat} : (s.bump a n).nets = s.nets := State.setReg_nets
@[simp] theorem State.bump_seams {a n : Nat} : (s.bump a n).seams = s.seams := State.setReg_seams
@[simp] theorem State.bump_polders {a n : Nat} : (s.bump a n).polders = s.polders := State.setReg_polders
@[simp] theorem State.bump_clients {a n : Nat} : (s.bump a n).clients = s.clients := State.setReg_clients
@[simp] theorem State.bump_conservators {a n : Nat} : (s.bump a n).conservators = s.conservators := State.setReg_conservators
@[simp] theorem State.bump_channels {a n : Nat} : (s.bump a n).channels = s.channels := State.setReg_channels
@[simp] theorem State.bump_hif {a n : Nat} : (s.bump a n).hif = s.hif := State.setReg_hif
@[simp] theorem State.bump_links {a n : Nat} : (s.bump a n).links = s.links := State.setReg_links
@[simp] theorem State.bump_power {a n : Nat} : (s.bump a n).power = s.power := State.setReg_power
@[simp] theorem State.bump_board {a n : Nat} : (s.bump a n).board = s.board := State.setReg_board
@[simp] theorem State.bump_boot {a n : Nat} : (s.bump a n).boot = s.boot := State.setReg_boot
@[simp] theorem State.bump_journal {a n : Nat} : (s.bump a n).journal = s.journal := State.setReg_journal
@[simp] theorem State.bump_spares {a n : Nat} : (s.bump a n).spares = s.spares := State.setReg_spares
@[simp] theorem State.bump_at_now {a n : Nat} {dom : Nat} : (s.bump a n).now dom = s.now dom := State.setReg_at_now
@[simp] theorem State.bump_at_tile {a n : Nat} {k : Nat} : (s.bump a n).tile k = s.tile k := State.setReg_at_tile
@[simp] theorem State.bump_at_pld {a n : Nat} {k : Nat} : (s.bump a n).pld k = s.pld k := State.setReg_at_pld
@[simp] theorem State.bump_at_chan {a n : Nat} {k : Nat} : (s.bump a n).chan k = s.chan k := State.setReg_at_chan
@[simp] theorem State.bump_at_cns {a n : Nat} {k : Nat} : (s.bump a n).cns k = s.cns k := State.setReg_at_cns
@[simp] theorem State.bump_at_client {a n : Nat} {j : Nat} : (s.bump a n).client j = s.client j := State.setReg_at_client
@[simp] theorem State.bump_at_seam {a n : Nat} {k : Nat} : (s.bump a n).seam k = s.seam k := State.setReg_at_seam
@[simp] theorem State.bump_at_port {a n : Nat} {k : Nat} : (s.bump a n).port k = s.port k := State.setReg_at_port
@[simp] theorem State.bump_at_die {a n : Nat} {k : Nat} : (s.bump a n).die k = s.die k := State.setReg_at_die
@[simp] theorem State.bump_at_vfReg {a n : Nat} {k o : Nat} : (s.bump a n).vfReg k o = s.vfReg k o := State.setReg_at_vfReg
@[simp] theorem State.bump_at_rowOwner {a n : Nat} {row : Nat} : (s.bump a n).rowOwner row = s.rowOwner row := State.setReg_at_rowOwner
@[simp] theorem State.bump_at_tileOwner {a n : Nat} {k : Nat} : (s.bump a n).tileOwner k = s.tileOwner k := State.setReg_at_tileOwner

/-! ### bumpSat -/

@[simp] theorem State.bumpSat_pending {a n : Nat} : (s.bumpSat a n).pending = s.pending := State.setReg_pending
@[simp] theorem State.bumpSat_answer {a n : Nat} : (s.bumpSat a n).answer = s.answer := State.setReg_answer
@[simp] theorem State.bumpSat_drawn {a n : Nat} : (s.bumpSat a n).drawn = s.drawn := State.setReg_drawn
@[simp] theorem State.bumpSat_time {a n : Nat} : (s.bumpSat a n).time = s.time := State.setReg_time
@[simp] theorem State.bumpSat_vfRegs {a n : Nat} : (s.bumpSat a n).vfRegs = s.vfRegs := State.setReg_vfRegs
@[simp] theorem State.bumpSat_latches {a n : Nat} : (s.bumpSat a n).latches = s.latches := State.setReg_latches
@[simp] theorem State.bumpSat_heldLow {a n : Nat} : (s.bumpSat a n).heldLow = s.heldLow := State.setReg_heldLow
@[simp] theorem State.bumpSat_tiles {a n : Nat} : (s.bumpSat a n).tiles = s.tiles := State.setReg_tiles
@[simp] theorem State.bumpSat_store {a n : Nat} : (s.bumpSat a n).store = s.store := State.setReg_store
@[simp] theorem State.bumpSat_nets {a n : Nat} : (s.bumpSat a n).nets = s.nets := State.setReg_nets
@[simp] theorem State.bumpSat_seams {a n : Nat} : (s.bumpSat a n).seams = s.seams := State.setReg_seams
@[simp] theorem State.bumpSat_polders {a n : Nat} : (s.bumpSat a n).polders = s.polders := State.setReg_polders
@[simp] theorem State.bumpSat_clients {a n : Nat} : (s.bumpSat a n).clients = s.clients := State.setReg_clients
@[simp] theorem State.bumpSat_conservators {a n : Nat} : (s.bumpSat a n).conservators = s.conservators := State.setReg_conservators
@[simp] theorem State.bumpSat_channels {a n : Nat} : (s.bumpSat a n).channels = s.channels := State.setReg_channels
@[simp] theorem State.bumpSat_hif {a n : Nat} : (s.bumpSat a n).hif = s.hif := State.setReg_hif
@[simp] theorem State.bumpSat_links {a n : Nat} : (s.bumpSat a n).links = s.links := State.setReg_links
@[simp] theorem State.bumpSat_power {a n : Nat} : (s.bumpSat a n).power = s.power := State.setReg_power
@[simp] theorem State.bumpSat_board {a n : Nat} : (s.bumpSat a n).board = s.board := State.setReg_board
@[simp] theorem State.bumpSat_boot {a n : Nat} : (s.bumpSat a n).boot = s.boot := State.setReg_boot
@[simp] theorem State.bumpSat_journal {a n : Nat} : (s.bumpSat a n).journal = s.journal := State.setReg_journal
@[simp] theorem State.bumpSat_spares {a n : Nat} : (s.bumpSat a n).spares = s.spares := State.setReg_spares
@[simp] theorem State.bumpSat_at_now {a n : Nat} {dom : Nat} : (s.bumpSat a n).now dom = s.now dom := State.setReg_at_now
@[simp] theorem State.bumpSat_at_tile {a n : Nat} {k : Nat} : (s.bumpSat a n).tile k = s.tile k := State.setReg_at_tile
@[simp] theorem State.bumpSat_at_pld {a n : Nat} {k : Nat} : (s.bumpSat a n).pld k = s.pld k := State.setReg_at_pld
@[simp] theorem State.bumpSat_at_chan {a n : Nat} {k : Nat} : (s.bumpSat a n).chan k = s.chan k := State.setReg_at_chan
@[simp] theorem State.bumpSat_at_cns {a n : Nat} {k : Nat} : (s.bumpSat a n).cns k = s.cns k := State.setReg_at_cns
@[simp] theorem State.bumpSat_at_client {a n : Nat} {j : Nat} : (s.bumpSat a n).client j = s.client j := State.setReg_at_client
@[simp] theorem State.bumpSat_at_seam {a n : Nat} {k : Nat} : (s.bumpSat a n).seam k = s.seam k := State.setReg_at_seam
@[simp] theorem State.bumpSat_at_port {a n : Nat} {k : Nat} : (s.bumpSat a n).port k = s.port k := State.setReg_at_port
@[simp] theorem State.bumpSat_at_die {a n : Nat} {k : Nat} : (s.bumpSat a n).die k = s.die k := State.setReg_at_die
@[simp] theorem State.bumpSat_at_vfReg {a n : Nat} {k o : Nat} : (s.bumpSat a n).vfReg k o = s.vfReg k o := State.setReg_at_vfReg
@[simp] theorem State.bumpSat_at_rowOwner {a n : Nat} {row : Nat} : (s.bumpSat a n).rowOwner row = s.rowOwner row := State.setReg_at_rowOwner
@[simp] theorem State.bumpSat_at_tileOwner {a n : Nat} {k : Nat} : (s.bumpSat a n).tileOwner k = s.tileOwner k := State.setReg_at_tileOwner

/-! ### bump64 -/

@[simp] theorem State.bump64_pending {a n : Nat} : (s.bump64 a n).pending = s.pending := State.setReg64_pending
@[simp] theorem State.bump64_answer {a n : Nat} : (s.bump64 a n).answer = s.answer := State.setReg64_answer
@[simp] theorem State.bump64_drawn {a n : Nat} : (s.bump64 a n).drawn = s.drawn := State.setReg64_drawn
@[simp] theorem State.bump64_time {a n : Nat} : (s.bump64 a n).time = s.time := State.setReg64_time
@[simp] theorem State.bump64_vfRegs {a n : Nat} : (s.bump64 a n).vfRegs = s.vfRegs := State.setReg64_vfRegs
@[simp] theorem State.bump64_latches {a n : Nat} : (s.bump64 a n).latches = s.latches := State.setReg64_latches
@[simp] theorem State.bump64_heldLow {a n : Nat} : (s.bump64 a n).heldLow = s.heldLow := State.setReg64_heldLow
@[simp] theorem State.bump64_tiles {a n : Nat} : (s.bump64 a n).tiles = s.tiles := State.setReg64_tiles
@[simp] theorem State.bump64_store {a n : Nat} : (s.bump64 a n).store = s.store := State.setReg64_store
@[simp] theorem State.bump64_nets {a n : Nat} : (s.bump64 a n).nets = s.nets := State.setReg64_nets
@[simp] theorem State.bump64_seams {a n : Nat} : (s.bump64 a n).seams = s.seams := State.setReg64_seams
@[simp] theorem State.bump64_polders {a n : Nat} : (s.bump64 a n).polders = s.polders := State.setReg64_polders
@[simp] theorem State.bump64_clients {a n : Nat} : (s.bump64 a n).clients = s.clients := State.setReg64_clients
@[simp] theorem State.bump64_conservators {a n : Nat} : (s.bump64 a n).conservators = s.conservators := State.setReg64_conservators
@[simp] theorem State.bump64_channels {a n : Nat} : (s.bump64 a n).channels = s.channels := State.setReg64_channels
@[simp] theorem State.bump64_hif {a n : Nat} : (s.bump64 a n).hif = s.hif := State.setReg64_hif
@[simp] theorem State.bump64_links {a n : Nat} : (s.bump64 a n).links = s.links := State.setReg64_links
@[simp] theorem State.bump64_power {a n : Nat} : (s.bump64 a n).power = s.power := State.setReg64_power
@[simp] theorem State.bump64_board {a n : Nat} : (s.bump64 a n).board = s.board := State.setReg64_board
@[simp] theorem State.bump64_boot {a n : Nat} : (s.bump64 a n).boot = s.boot := State.setReg64_boot
@[simp] theorem State.bump64_journal {a n : Nat} : (s.bump64 a n).journal = s.journal := State.setReg64_journal
@[simp] theorem State.bump64_spares {a n : Nat} : (s.bump64 a n).spares = s.spares := State.setReg64_spares
@[simp] theorem State.bump64_at_now {a n : Nat} {dom : Nat} : (s.bump64 a n).now dom = s.now dom := State.setReg64_at_now
@[simp] theorem State.bump64_at_tile {a n : Nat} {k : Nat} : (s.bump64 a n).tile k = s.tile k := State.setReg64_at_tile
@[simp] theorem State.bump64_at_pld {a n : Nat} {k : Nat} : (s.bump64 a n).pld k = s.pld k := State.setReg64_at_pld
@[simp] theorem State.bump64_at_chan {a n : Nat} {k : Nat} : (s.bump64 a n).chan k = s.chan k := State.setReg64_at_chan
@[simp] theorem State.bump64_at_cns {a n : Nat} {k : Nat} : (s.bump64 a n).cns k = s.cns k := State.setReg64_at_cns
@[simp] theorem State.bump64_at_client {a n : Nat} {j : Nat} : (s.bump64 a n).client j = s.client j := State.setReg64_at_client
@[simp] theorem State.bump64_at_seam {a n : Nat} {k : Nat} : (s.bump64 a n).seam k = s.seam k := State.setReg64_at_seam
@[simp] theorem State.bump64_at_port {a n : Nat} {k : Nat} : (s.bump64 a n).port k = s.port k := State.setReg64_at_port
@[simp] theorem State.bump64_at_die {a n : Nat} {k : Nat} : (s.bump64 a n).die k = s.die k := State.setReg64_at_die
@[simp] theorem State.bump64_at_vfReg {a n : Nat} {k o : Nat} : (s.bump64 a n).vfReg k o = s.vfReg k o := State.setReg64_at_vfReg
@[simp] theorem State.bump64_at_rowOwner {a n : Nat} {row : Nat} : (s.bump64 a n).rowOwner row = s.rowOwner row := State.setReg64_at_rowOwner
@[simp] theorem State.bump64_at_tileOwner {a n : Nat} {k : Nat} : (s.bump64 a n).tileOwner k = s.tileOwner k := State.setReg64_at_tileOwner

/-! ### setVfReg -/

@[simp] theorem State.setVfReg_pending {p off : Nat} {w : Word} : (s.setVfReg p off w).pending = s.pending := rfl
@[simp] theorem State.setVfReg_answer {p off : Nat} {w : Word} : (s.setVfReg p off w).answer = s.answer := rfl
@[simp] theorem State.setVfReg_drawn {p off : Nat} {w : Word} : (s.setVfReg p off w).drawn = s.drawn := rfl
@[simp] theorem State.setVfReg_time {p off : Nat} {w : Word} : (s.setVfReg p off w).time = s.time := rfl
@[simp] theorem State.setVfReg_regs {p off : Nat} {w : Word} : (s.setVfReg p off w).regs = s.regs := rfl
@[simp] theorem State.setVfReg_latches {p off : Nat} {w : Word} : (s.setVfReg p off w).latches = s.latches := rfl
@[simp] theorem State.setVfReg_heldLow {p off : Nat} {w : Word} : (s.setVfReg p off w).heldLow = s.heldLow := rfl
@[simp] theorem State.setVfReg_tiles {p off : Nat} {w : Word} : (s.setVfReg p off w).tiles = s.tiles := rfl
@[simp] theorem State.setVfReg_store {p off : Nat} {w : Word} : (s.setVfReg p off w).store = s.store := rfl
@[simp] theorem State.setVfReg_nets {p off : Nat} {w : Word} : (s.setVfReg p off w).nets = s.nets := rfl
@[simp] theorem State.setVfReg_seams {p off : Nat} {w : Word} : (s.setVfReg p off w).seams = s.seams := rfl
@[simp] theorem State.setVfReg_polders {p off : Nat} {w : Word} : (s.setVfReg p off w).polders = s.polders := rfl
@[simp] theorem State.setVfReg_clients {p off : Nat} {w : Word} : (s.setVfReg p off w).clients = s.clients := rfl
@[simp] theorem State.setVfReg_conservators {p off : Nat} {w : Word} : (s.setVfReg p off w).conservators = s.conservators := rfl
@[simp] theorem State.setVfReg_channels {p off : Nat} {w : Word} : (s.setVfReg p off w).channels = s.channels := rfl
@[simp] theorem State.setVfReg_hif {p off : Nat} {w : Word} : (s.setVfReg p off w).hif = s.hif := rfl
@[simp] theorem State.setVfReg_links {p off : Nat} {w : Word} : (s.setVfReg p off w).links = s.links := rfl
@[simp] theorem State.setVfReg_power {p off : Nat} {w : Word} : (s.setVfReg p off w).power = s.power := rfl
@[simp] theorem State.setVfReg_board {p off : Nat} {w : Word} : (s.setVfReg p off w).board = s.board := rfl
@[simp] theorem State.setVfReg_boot {p off : Nat} {w : Word} : (s.setVfReg p off w).boot = s.boot := rfl
@[simp] theorem State.setVfReg_journal {p off : Nat} {w : Word} : (s.setVfReg p off w).journal = s.journal := rfl
@[simp] theorem State.setVfReg_spares {p off : Nat} {w : Word} : (s.setVfReg p off w).spares = s.spares := rfl
@[simp] theorem State.setVfReg_at_reg {p off : Nat} {w : Word} {b : Nat} : (s.setVfReg p off w).reg b = s.reg b := rfl
@[simp] theorem State.setVfReg_at_reg64 {p off : Nat} {w : Word} {b : Nat} : (s.setVfReg p off w).reg64 b = s.reg64 b := rfl
@[simp] theorem State.setVfReg_at_now {p off : Nat} {w : Word} {dom : Nat} : (s.setVfReg p off w).now dom = s.now dom := rfl
@[simp] theorem State.setVfReg_at_tile {p off : Nat} {w : Word} {k : Nat} : (s.setVfReg p off w).tile k = s.tile k := rfl
@[simp] theorem State.setVfReg_at_pld {p off : Nat} {w : Word} {k : Nat} : (s.setVfReg p off w).pld k = s.pld k := rfl
@[simp] theorem State.setVfReg_at_chan {p off : Nat} {w : Word} {k : Nat} : (s.setVfReg p off w).chan k = s.chan k := rfl
@[simp] theorem State.setVfReg_at_cns {p off : Nat} {w : Word} {k : Nat} : (s.setVfReg p off w).cns k = s.cns k := rfl
@[simp] theorem State.setVfReg_at_client {p off : Nat} {w : Word} {j : Nat} : (s.setVfReg p off w).client j = s.client j := rfl
@[simp] theorem State.setVfReg_at_seam {p off : Nat} {w : Word} {k : Nat} : (s.setVfReg p off w).seam k = s.seam k := rfl
@[simp] theorem State.setVfReg_at_port {p off : Nat} {w : Word} {k : Nat} : (s.setVfReg p off w).port k = s.port k := rfl
@[simp] theorem State.setVfReg_at_die {p off : Nat} {w : Word} {k : Nat} : (s.setVfReg p off w).die k = s.die k := rfl
@[simp] theorem State.setVfReg_at_rowOwner {p off : Nat} {w : Word} {row : Nat} : (s.setVfReg p off w).rowOwner row = s.rowOwner row := rfl
@[simp] theorem State.setVfReg_at_tileOwner {p off : Nat} {w : Word} {k : Nat} : (s.setVfReg p off w).tileOwner k = s.tileOwner k := rfl

/-! ### modTile -/

@[simp] theorem State.modTile_pending {t : Nat} {f : Tile → Tile} : (s.modTile t f).pending = s.pending := rfl
@[simp] theorem State.modTile_answer {t : Nat} {f : Tile → Tile} : (s.modTile t f).answer = s.answer := rfl
@[simp] theorem State.modTile_drawn {t : Nat} {f : Tile → Tile} : (s.modTile t f).drawn = s.drawn := rfl
@[simp] theorem State.modTile_time {t : Nat} {f : Tile → Tile} : (s.modTile t f).time = s.time := rfl
@[simp] theorem State.modTile_regs {t : Nat} {f : Tile → Tile} : (s.modTile t f).regs = s.regs := rfl
@[simp] theorem State.modTile_vfRegs {t : Nat} {f : Tile → Tile} : (s.modTile t f).vfRegs = s.vfRegs := rfl
@[simp] theorem State.modTile_latches {t : Nat} {f : Tile → Tile} : (s.modTile t f).latches = s.latches := rfl
@[simp] theorem State.modTile_heldLow {t : Nat} {f : Tile → Tile} : (s.modTile t f).heldLow = s.heldLow := rfl
@[simp] theorem State.modTile_store {t : Nat} {f : Tile → Tile} : (s.modTile t f).store = s.store := rfl
@[simp] theorem State.modTile_nets {t : Nat} {f : Tile → Tile} : (s.modTile t f).nets = s.nets := rfl
@[simp] theorem State.modTile_seams {t : Nat} {f : Tile → Tile} : (s.modTile t f).seams = s.seams := rfl
@[simp] theorem State.modTile_polders {t : Nat} {f : Tile → Tile} : (s.modTile t f).polders = s.polders := rfl
@[simp] theorem State.modTile_clients {t : Nat} {f : Tile → Tile} : (s.modTile t f).clients = s.clients := rfl
@[simp] theorem State.modTile_conservators {t : Nat} {f : Tile → Tile} : (s.modTile t f).conservators = s.conservators := rfl
@[simp] theorem State.modTile_channels {t : Nat} {f : Tile → Tile} : (s.modTile t f).channels = s.channels := rfl
@[simp] theorem State.modTile_hif {t : Nat} {f : Tile → Tile} : (s.modTile t f).hif = s.hif := rfl
@[simp] theorem State.modTile_links {t : Nat} {f : Tile → Tile} : (s.modTile t f).links = s.links := rfl
@[simp] theorem State.modTile_power {t : Nat} {f : Tile → Tile} : (s.modTile t f).power = s.power := rfl
@[simp] theorem State.modTile_board {t : Nat} {f : Tile → Tile} : (s.modTile t f).board = s.board := rfl
@[simp] theorem State.modTile_boot {t : Nat} {f : Tile → Tile} : (s.modTile t f).boot = s.boot := rfl
@[simp] theorem State.modTile_journal {t : Nat} {f : Tile → Tile} : (s.modTile t f).journal = s.journal := rfl
@[simp] theorem State.modTile_spares {t : Nat} {f : Tile → Tile} : (s.modTile t f).spares = s.spares := rfl
@[simp] theorem State.modTile_at_reg {t : Nat} {f : Tile → Tile} {b : Nat} : (s.modTile t f).reg b = s.reg b := rfl
@[simp] theorem State.modTile_at_reg64 {t : Nat} {f : Tile → Tile} {b : Nat} : (s.modTile t f).reg64 b = s.reg64 b := rfl
@[simp] theorem State.modTile_at_now {t : Nat} {f : Tile → Tile} {dom : Nat} : (s.modTile t f).now dom = s.now dom := rfl
@[simp] theorem State.modTile_at_pld {t : Nat} {f : Tile → Tile} {k : Nat} : (s.modTile t f).pld k = s.pld k := rfl
@[simp] theorem State.modTile_at_chan {t : Nat} {f : Tile → Tile} {k : Nat} : (s.modTile t f).chan k = s.chan k := rfl
@[simp] theorem State.modTile_at_cns {t : Nat} {f : Tile → Tile} {k : Nat} : (s.modTile t f).cns k = s.cns k := rfl
@[simp] theorem State.modTile_at_client {t : Nat} {f : Tile → Tile} {j : Nat} : (s.modTile t f).client j = s.client j := rfl
@[simp] theorem State.modTile_at_seam {t : Nat} {f : Tile → Tile} {k : Nat} : (s.modTile t f).seam k = s.seam k := rfl
@[simp] theorem State.modTile_at_port {t : Nat} {f : Tile → Tile} {k : Nat} : (s.modTile t f).port k = s.port k := rfl
@[simp] theorem State.modTile_at_die {t : Nat} {f : Tile → Tile} {k : Nat} : (s.modTile t f).die k = s.die k := rfl
@[simp] theorem State.modTile_at_vfReg {t : Nat} {f : Tile → Tile} {k o : Nat} : (s.modTile t f).vfReg k o = s.vfReg k o := rfl
@[simp] theorem State.modTile_at_rowOwner {t : Nat} {f : Tile → Tile} {row : Nat} : (s.modTile t f).rowOwner row = s.rowOwner row := rfl
@[simp] theorem State.modTile_at_tileOwner {t : Nat} {f : Tile → Tile} {k : Nat} : (s.modTile t f).tileOwner k = s.tileOwner k := rfl

/-! ### modTcc -/

@[simp] theorem State.modTcc_pending {t : Nat} {f : Tcc → Tcc} : (s.modTcc t f).pending = s.pending := State.modTile_pending
@[simp] theorem State.modTcc_answer {t : Nat} {f : Tcc → Tcc} : (s.modTcc t f).answer = s.answer := State.modTile_answer
@[simp] theorem State.modTcc_drawn {t : Nat} {f : Tcc → Tcc} : (s.modTcc t f).drawn = s.drawn := State.modTile_drawn
@[simp] theorem State.modTcc_time {t : Nat} {f : Tcc → Tcc} : (s.modTcc t f).time = s.time := State.modTile_time
@[simp] theorem State.modTcc_regs {t : Nat} {f : Tcc → Tcc} : (s.modTcc t f).regs = s.regs := State.modTile_regs
@[simp] theorem State.modTcc_vfRegs {t : Nat} {f : Tcc → Tcc} : (s.modTcc t f).vfRegs = s.vfRegs := State.modTile_vfRegs
@[simp] theorem State.modTcc_latches {t : Nat} {f : Tcc → Tcc} : (s.modTcc t f).latches = s.latches := State.modTile_latches
@[simp] theorem State.modTcc_heldLow {t : Nat} {f : Tcc → Tcc} : (s.modTcc t f).heldLow = s.heldLow := State.modTile_heldLow
@[simp] theorem State.modTcc_store {t : Nat} {f : Tcc → Tcc} : (s.modTcc t f).store = s.store := State.modTile_store
@[simp] theorem State.modTcc_nets {t : Nat} {f : Tcc → Tcc} : (s.modTcc t f).nets = s.nets := State.modTile_nets
@[simp] theorem State.modTcc_seams {t : Nat} {f : Tcc → Tcc} : (s.modTcc t f).seams = s.seams := State.modTile_seams
@[simp] theorem State.modTcc_polders {t : Nat} {f : Tcc → Tcc} : (s.modTcc t f).polders = s.polders := State.modTile_polders
@[simp] theorem State.modTcc_clients {t : Nat} {f : Tcc → Tcc} : (s.modTcc t f).clients = s.clients := State.modTile_clients
@[simp] theorem State.modTcc_conservators {t : Nat} {f : Tcc → Tcc} : (s.modTcc t f).conservators = s.conservators := State.modTile_conservators
@[simp] theorem State.modTcc_channels {t : Nat} {f : Tcc → Tcc} : (s.modTcc t f).channels = s.channels := State.modTile_channels
@[simp] theorem State.modTcc_hif {t : Nat} {f : Tcc → Tcc} : (s.modTcc t f).hif = s.hif := State.modTile_hif
@[simp] theorem State.modTcc_links {t : Nat} {f : Tcc → Tcc} : (s.modTcc t f).links = s.links := State.modTile_links
@[simp] theorem State.modTcc_power {t : Nat} {f : Tcc → Tcc} : (s.modTcc t f).power = s.power := State.modTile_power
@[simp] theorem State.modTcc_board {t : Nat} {f : Tcc → Tcc} : (s.modTcc t f).board = s.board := State.modTile_board
@[simp] theorem State.modTcc_boot {t : Nat} {f : Tcc → Tcc} : (s.modTcc t f).boot = s.boot := State.modTile_boot
@[simp] theorem State.modTcc_journal {t : Nat} {f : Tcc → Tcc} : (s.modTcc t f).journal = s.journal := State.modTile_journal
@[simp] theorem State.modTcc_spares {t : Nat} {f : Tcc → Tcc} : (s.modTcc t f).spares = s.spares := State.modTile_spares
@[simp] theorem State.modTcc_at_reg {t : Nat} {f : Tcc → Tcc} {b : Nat} : (s.modTcc t f).reg b = s.reg b := State.modTile_at_reg
@[simp] theorem State.modTcc_at_reg64 {t : Nat} {f : Tcc → Tcc} {b : Nat} : (s.modTcc t f).reg64 b = s.reg64 b := State.modTile_at_reg64
@[simp] theorem State.modTcc_at_now {t : Nat} {f : Tcc → Tcc} {dom : Nat} : (s.modTcc t f).now dom = s.now dom := State.modTile_at_now
@[simp] theorem State.modTcc_at_pld {t : Nat} {f : Tcc → Tcc} {k : Nat} : (s.modTcc t f).pld k = s.pld k := State.modTile_at_pld
@[simp] theorem State.modTcc_at_chan {t : Nat} {f : Tcc → Tcc} {k : Nat} : (s.modTcc t f).chan k = s.chan k := State.modTile_at_chan
@[simp] theorem State.modTcc_at_cns {t : Nat} {f : Tcc → Tcc} {k : Nat} : (s.modTcc t f).cns k = s.cns k := State.modTile_at_cns
@[simp] theorem State.modTcc_at_client {t : Nat} {f : Tcc → Tcc} {j : Nat} : (s.modTcc t f).client j = s.client j := State.modTile_at_client
@[simp] theorem State.modTcc_at_seam {t : Nat} {f : Tcc → Tcc} {k : Nat} : (s.modTcc t f).seam k = s.seam k := State.modTile_at_seam
@[simp] theorem State.modTcc_at_port {t : Nat} {f : Tcc → Tcc} {k : Nat} : (s.modTcc t f).port k = s.port k := State.modTile_at_port
@[simp] theorem State.modTcc_at_die {t : Nat} {f : Tcc → Tcc} {k : Nat} : (s.modTcc t f).die k = s.die k := State.modTile_at_die
@[simp] theorem State.modTcc_at_vfReg {t : Nat} {f : Tcc → Tcc} {k o : Nat} : (s.modTcc t f).vfReg k o = s.vfReg k o := State.modTile_at_vfReg
@[simp] theorem State.modTcc_at_rowOwner {t : Nat} {f : Tcc → Tcc} {row : Nat} : (s.modTcc t f).rowOwner row = s.rowOwner row := State.modTile_at_rowOwner
@[simp] theorem State.modTcc_at_tileOwner {t : Nat} {f : Tcc → Tcc} {k : Nat} : (s.modTcc t f).tileOwner k = s.tileOwner k := State.modTile_at_tileOwner

/-! ### modEngine -/

@[simp] theorem State.modEngine_pending {t q : Nat} {f : Engine → Engine} : (s.modEngine t q f).pending = s.pending := State.modTile_pending
@[simp] theorem State.modEngine_answer {t q : Nat} {f : Engine → Engine} : (s.modEngine t q f).answer = s.answer := State.modTile_answer
@[simp] theorem State.modEngine_drawn {t q : Nat} {f : Engine → Engine} : (s.modEngine t q f).drawn = s.drawn := State.modTile_drawn
@[simp] theorem State.modEngine_time {t q : Nat} {f : Engine → Engine} : (s.modEngine t q f).time = s.time := State.modTile_time
@[simp] theorem State.modEngine_regs {t q : Nat} {f : Engine → Engine} : (s.modEngine t q f).regs = s.regs := State.modTile_regs
@[simp] theorem State.modEngine_vfRegs {t q : Nat} {f : Engine → Engine} : (s.modEngine t q f).vfRegs = s.vfRegs := State.modTile_vfRegs
@[simp] theorem State.modEngine_latches {t q : Nat} {f : Engine → Engine} : (s.modEngine t q f).latches = s.latches := State.modTile_latches
@[simp] theorem State.modEngine_heldLow {t q : Nat} {f : Engine → Engine} : (s.modEngine t q f).heldLow = s.heldLow := State.modTile_heldLow
@[simp] theorem State.modEngine_store {t q : Nat} {f : Engine → Engine} : (s.modEngine t q f).store = s.store := State.modTile_store
@[simp] theorem State.modEngine_nets {t q : Nat} {f : Engine → Engine} : (s.modEngine t q f).nets = s.nets := State.modTile_nets
@[simp] theorem State.modEngine_seams {t q : Nat} {f : Engine → Engine} : (s.modEngine t q f).seams = s.seams := State.modTile_seams
@[simp] theorem State.modEngine_polders {t q : Nat} {f : Engine → Engine} : (s.modEngine t q f).polders = s.polders := State.modTile_polders
@[simp] theorem State.modEngine_clients {t q : Nat} {f : Engine → Engine} : (s.modEngine t q f).clients = s.clients := State.modTile_clients
@[simp] theorem State.modEngine_conservators {t q : Nat} {f : Engine → Engine} : (s.modEngine t q f).conservators = s.conservators := State.modTile_conservators
@[simp] theorem State.modEngine_channels {t q : Nat} {f : Engine → Engine} : (s.modEngine t q f).channels = s.channels := State.modTile_channels
@[simp] theorem State.modEngine_hif {t q : Nat} {f : Engine → Engine} : (s.modEngine t q f).hif = s.hif := State.modTile_hif
@[simp] theorem State.modEngine_links {t q : Nat} {f : Engine → Engine} : (s.modEngine t q f).links = s.links := State.modTile_links
@[simp] theorem State.modEngine_power {t q : Nat} {f : Engine → Engine} : (s.modEngine t q f).power = s.power := State.modTile_power
@[simp] theorem State.modEngine_board {t q : Nat} {f : Engine → Engine} : (s.modEngine t q f).board = s.board := State.modTile_board
@[simp] theorem State.modEngine_boot {t q : Nat} {f : Engine → Engine} : (s.modEngine t q f).boot = s.boot := State.modTile_boot
@[simp] theorem State.modEngine_journal {t q : Nat} {f : Engine → Engine} : (s.modEngine t q f).journal = s.journal := State.modTile_journal
@[simp] theorem State.modEngine_spares {t q : Nat} {f : Engine → Engine} : (s.modEngine t q f).spares = s.spares := State.modTile_spares
@[simp] theorem State.modEngine_at_reg {t q : Nat} {f : Engine → Engine} {b : Nat} : (s.modEngine t q f).reg b = s.reg b := State.modTile_at_reg
@[simp] theorem State.modEngine_at_reg64 {t q : Nat} {f : Engine → Engine} {b : Nat} : (s.modEngine t q f).reg64 b = s.reg64 b := State.modTile_at_reg64
@[simp] theorem State.modEngine_at_now {t q : Nat} {f : Engine → Engine} {dom : Nat} : (s.modEngine t q f).now dom = s.now dom := State.modTile_at_now
@[simp] theorem State.modEngine_at_pld {t q : Nat} {f : Engine → Engine} {k : Nat} : (s.modEngine t q f).pld k = s.pld k := State.modTile_at_pld
@[simp] theorem State.modEngine_at_chan {t q : Nat} {f : Engine → Engine} {k : Nat} : (s.modEngine t q f).chan k = s.chan k := State.modTile_at_chan
@[simp] theorem State.modEngine_at_cns {t q : Nat} {f : Engine → Engine} {k : Nat} : (s.modEngine t q f).cns k = s.cns k := State.modTile_at_cns
@[simp] theorem State.modEngine_at_client {t q : Nat} {f : Engine → Engine} {j : Nat} : (s.modEngine t q f).client j = s.client j := State.modTile_at_client
@[simp] theorem State.modEngine_at_seam {t q : Nat} {f : Engine → Engine} {k : Nat} : (s.modEngine t q f).seam k = s.seam k := State.modTile_at_seam
@[simp] theorem State.modEngine_at_port {t q : Nat} {f : Engine → Engine} {k : Nat} : (s.modEngine t q f).port k = s.port k := State.modTile_at_port
@[simp] theorem State.modEngine_at_die {t q : Nat} {f : Engine → Engine} {k : Nat} : (s.modEngine t q f).die k = s.die k := State.modTile_at_die
@[simp] theorem State.modEngine_at_vfReg {t q : Nat} {f : Engine → Engine} {k o : Nat} : (s.modEngine t q f).vfReg k o = s.vfReg k o := State.modTile_at_vfReg
@[simp] theorem State.modEngine_at_rowOwner {t q : Nat} {f : Engine → Engine} {row : Nat} : (s.modEngine t q f).rowOwner row = s.rowOwner row := State.modTile_at_rowOwner
@[simp] theorem State.modEngine_at_tileOwner {t q : Nat} {f : Engine → Engine} {k : Nat} : (s.modEngine t q f).tileOwner k = s.tileOwner k := State.modTile_at_tileOwner

/-! ### retire -/

@[simp] theorem State.retire_pending {t : Nat} {f : Tcc → Tcc} : (s.retire t f).pending = s.pending := State.bump64_pending.trans State.modTcc_pending
@[simp] theorem State.retire_answer {t : Nat} {f : Tcc → Tcc} : (s.retire t f).answer = s.answer := State.bump64_answer.trans State.modTcc_answer
@[simp] theorem State.retire_drawn {t : Nat} {f : Tcc → Tcc} : (s.retire t f).drawn = s.drawn := State.bump64_drawn.trans State.modTcc_drawn
@[simp] theorem State.retire_time {t : Nat} {f : Tcc → Tcc} : (s.retire t f).time = s.time := State.bump64_time.trans State.modTcc_time
@[simp] theorem State.retire_vfRegs {t : Nat} {f : Tcc → Tcc} : (s.retire t f).vfRegs = s.vfRegs := State.bump64_vfRegs.trans State.modTcc_vfRegs
@[simp] theorem State.retire_latches {t : Nat} {f : Tcc → Tcc} : (s.retire t f).latches = s.latches := State.bump64_latches.trans State.modTcc_latches
@[simp] theorem State.retire_heldLow {t : Nat} {f : Tcc → Tcc} : (s.retire t f).heldLow = s.heldLow := State.bump64_heldLow.trans State.modTcc_heldLow
@[simp] theorem State.retire_store {t : Nat} {f : Tcc → Tcc} : (s.retire t f).store = s.store := State.bump64_store.trans State.modTcc_store
@[simp] theorem State.retire_nets {t : Nat} {f : Tcc → Tcc} : (s.retire t f).nets = s.nets := State.bump64_nets.trans State.modTcc_nets
@[simp] theorem State.retire_seams {t : Nat} {f : Tcc → Tcc} : (s.retire t f).seams = s.seams := State.bump64_seams.trans State.modTcc_seams
@[simp] theorem State.retire_polders {t : Nat} {f : Tcc → Tcc} : (s.retire t f).polders = s.polders := State.bump64_polders.trans State.modTcc_polders
@[simp] theorem State.retire_clients {t : Nat} {f : Tcc → Tcc} : (s.retire t f).clients = s.clients := State.bump64_clients.trans State.modTcc_clients
@[simp] theorem State.retire_conservators {t : Nat} {f : Tcc → Tcc} : (s.retire t f).conservators = s.conservators := State.bump64_conservators.trans State.modTcc_conservators
@[simp] theorem State.retire_channels {t : Nat} {f : Tcc → Tcc} : (s.retire t f).channels = s.channels := State.bump64_channels.trans State.modTcc_channels
@[simp] theorem State.retire_hif {t : Nat} {f : Tcc → Tcc} : (s.retire t f).hif = s.hif := State.bump64_hif.trans State.modTcc_hif
@[simp] theorem State.retire_links {t : Nat} {f : Tcc → Tcc} : (s.retire t f).links = s.links := State.bump64_links.trans State.modTcc_links
@[simp] theorem State.retire_power {t : Nat} {f : Tcc → Tcc} : (s.retire t f).power = s.power := State.bump64_power.trans State.modTcc_power
@[simp] theorem State.retire_board {t : Nat} {f : Tcc → Tcc} : (s.retire t f).board = s.board := State.bump64_board.trans State.modTcc_board
@[simp] theorem State.retire_boot {t : Nat} {f : Tcc → Tcc} : (s.retire t f).boot = s.boot := State.bump64_boot.trans State.modTcc_boot
@[simp] theorem State.retire_journal {t : Nat} {f : Tcc → Tcc} : (s.retire t f).journal = s.journal := State.bump64_journal.trans State.modTcc_journal
@[simp] theorem State.retire_spares {t : Nat} {f : Tcc → Tcc} : (s.retire t f).spares = s.spares := State.bump64_spares.trans State.modTcc_spares
@[simp] theorem State.retire_at_now {t : Nat} {f : Tcc → Tcc} {dom : Nat} : (s.retire t f).now dom = s.now dom := State.bump64_at_now.trans State.modTcc_at_now
@[simp] theorem State.retire_at_pld {t : Nat} {f : Tcc → Tcc} {k : Nat} : (s.retire t f).pld k = s.pld k := State.bump64_at_pld.trans State.modTcc_at_pld
@[simp] theorem State.retire_at_chan {t : Nat} {f : Tcc → Tcc} {k : Nat} : (s.retire t f).chan k = s.chan k := State.bump64_at_chan.trans State.modTcc_at_chan
@[simp] theorem State.retire_at_cns {t : Nat} {f : Tcc → Tcc} {k : Nat} : (s.retire t f).cns k = s.cns k := State.bump64_at_cns.trans State.modTcc_at_cns
@[simp] theorem State.retire_at_client {t : Nat} {f : Tcc → Tcc} {j : Nat} : (s.retire t f).client j = s.client j := State.bump64_at_client.trans State.modTcc_at_client
@[simp] theorem State.retire_at_seam {t : Nat} {f : Tcc → Tcc} {k : Nat} : (s.retire t f).seam k = s.seam k := State.bump64_at_seam.trans State.modTcc_at_seam
@[simp] theorem State.retire_at_port {t : Nat} {f : Tcc → Tcc} {k : Nat} : (s.retire t f).port k = s.port k := State.bump64_at_port.trans State.modTcc_at_port
@[simp] theorem State.retire_at_die {t : Nat} {f : Tcc → Tcc} {k : Nat} : (s.retire t f).die k = s.die k := State.bump64_at_die.trans State.modTcc_at_die
@[simp] theorem State.retire_at_vfReg {t : Nat} {f : Tcc → Tcc} {k o : Nat} : (s.retire t f).vfReg k o = s.vfReg k o := State.bump64_at_vfReg.trans State.modTcc_at_vfReg
@[simp] theorem State.retire_at_rowOwner {t : Nat} {f : Tcc → Tcc} {row : Nat} : (s.retire t f).rowOwner row = s.rowOwner row := State.bump64_at_rowOwner.trans State.modTcc_at_rowOwner
@[simp] theorem State.retire_at_tileOwner {t : Nat} {f : Tcc → Tcc} {k : Nat} : (s.retire t f).tileOwner k = s.tileOwner k := State.bump64_at_tileOwner.trans State.modTcc_at_tileOwner

/-! ### modPld -/

@[simp] theorem State.modPld_pending {p : Nat} {f : Polder → Polder} : (s.modPld p f).pending = s.pending := rfl
@[simp] theorem State.modPld_answer {p : Nat} {f : Polder → Polder} : (s.modPld p f).answer = s.answer := rfl
@[simp] theorem State.modPld_drawn {p : Nat} {f : Polder → Polder} : (s.modPld p f).drawn = s.drawn := rfl
@[simp] theorem State.modPld_time {p : Nat} {f : Polder → Polder} : (s.modPld p f).time = s.time := rfl
@[simp] theorem State.modPld_regs {p : Nat} {f : Polder → Polder} : (s.modPld p f).regs = s.regs := rfl
@[simp] theorem State.modPld_vfRegs {p : Nat} {f : Polder → Polder} : (s.modPld p f).vfRegs = s.vfRegs := rfl
@[simp] theorem State.modPld_latches {p : Nat} {f : Polder → Polder} : (s.modPld p f).latches = s.latches := rfl
@[simp] theorem State.modPld_heldLow {p : Nat} {f : Polder → Polder} : (s.modPld p f).heldLow = s.heldLow := rfl
@[simp] theorem State.modPld_tiles {p : Nat} {f : Polder → Polder} : (s.modPld p f).tiles = s.tiles := rfl
@[simp] theorem State.modPld_store {p : Nat} {f : Polder → Polder} : (s.modPld p f).store = s.store := rfl
@[simp] theorem State.modPld_nets {p : Nat} {f : Polder → Polder} : (s.modPld p f).nets = s.nets := rfl
@[simp] theorem State.modPld_seams {p : Nat} {f : Polder → Polder} : (s.modPld p f).seams = s.seams := rfl
@[simp] theorem State.modPld_clients {p : Nat} {f : Polder → Polder} : (s.modPld p f).clients = s.clients := rfl
@[simp] theorem State.modPld_conservators {p : Nat} {f : Polder → Polder} : (s.modPld p f).conservators = s.conservators := rfl
@[simp] theorem State.modPld_channels {p : Nat} {f : Polder → Polder} : (s.modPld p f).channels = s.channels := rfl
@[simp] theorem State.modPld_hif {p : Nat} {f : Polder → Polder} : (s.modPld p f).hif = s.hif := rfl
@[simp] theorem State.modPld_links {p : Nat} {f : Polder → Polder} : (s.modPld p f).links = s.links := rfl
@[simp] theorem State.modPld_power {p : Nat} {f : Polder → Polder} : (s.modPld p f).power = s.power := rfl
@[simp] theorem State.modPld_board {p : Nat} {f : Polder → Polder} : (s.modPld p f).board = s.board := rfl
@[simp] theorem State.modPld_boot {p : Nat} {f : Polder → Polder} : (s.modPld p f).boot = s.boot := rfl
@[simp] theorem State.modPld_journal {p : Nat} {f : Polder → Polder} : (s.modPld p f).journal = s.journal := rfl
@[simp] theorem State.modPld_spares {p : Nat} {f : Polder → Polder} : (s.modPld p f).spares = s.spares := rfl
@[simp] theorem State.modPld_at_reg {p : Nat} {f : Polder → Polder} {b : Nat} : (s.modPld p f).reg b = s.reg b := rfl
@[simp] theorem State.modPld_at_reg64 {p : Nat} {f : Polder → Polder} {b : Nat} : (s.modPld p f).reg64 b = s.reg64 b := rfl
@[simp] theorem State.modPld_at_now {p : Nat} {f : Polder → Polder} {dom : Nat} : (s.modPld p f).now dom = s.now dom := rfl
@[simp] theorem State.modPld_at_tile {p : Nat} {f : Polder → Polder} {k : Nat} : (s.modPld p f).tile k = s.tile k := rfl
@[simp] theorem State.modPld_at_chan {p : Nat} {f : Polder → Polder} {k : Nat} : (s.modPld p f).chan k = s.chan k := rfl
@[simp] theorem State.modPld_at_cns {p : Nat} {f : Polder → Polder} {k : Nat} : (s.modPld p f).cns k = s.cns k := rfl
@[simp] theorem State.modPld_at_client {p : Nat} {f : Polder → Polder} {j : Nat} : (s.modPld p f).client j = s.client j := rfl
@[simp] theorem State.modPld_at_seam {p : Nat} {f : Polder → Polder} {k : Nat} : (s.modPld p f).seam k = s.seam k := rfl
@[simp] theorem State.modPld_at_port {p : Nat} {f : Polder → Polder} {k : Nat} : (s.modPld p f).port k = s.port k := rfl
@[simp] theorem State.modPld_at_die {p : Nat} {f : Polder → Polder} {k : Nat} : (s.modPld p f).die k = s.die k := rfl
@[simp] theorem State.modPld_at_vfReg {p : Nat} {f : Polder → Polder} {k o : Nat} : (s.modPld p f).vfReg k o = s.vfReg k o := rfl

/-! ### modChan -/

@[simp] theorem State.modChan_pending {c : Nat} {f : Channel → Channel} : (s.modChan c f).pending = s.pending := rfl
@[simp] theorem State.modChan_answer {c : Nat} {f : Channel → Channel} : (s.modChan c f).answer = s.answer := rfl
@[simp] theorem State.modChan_drawn {c : Nat} {f : Channel → Channel} : (s.modChan c f).drawn = s.drawn := rfl
@[simp] theorem State.modChan_time {c : Nat} {f : Channel → Channel} : (s.modChan c f).time = s.time := rfl
@[simp] theorem State.modChan_regs {c : Nat} {f : Channel → Channel} : (s.modChan c f).regs = s.regs := rfl
@[simp] theorem State.modChan_vfRegs {c : Nat} {f : Channel → Channel} : (s.modChan c f).vfRegs = s.vfRegs := rfl
@[simp] theorem State.modChan_latches {c : Nat} {f : Channel → Channel} : (s.modChan c f).latches = s.latches := rfl
@[simp] theorem State.modChan_heldLow {c : Nat} {f : Channel → Channel} : (s.modChan c f).heldLow = s.heldLow := rfl
@[simp] theorem State.modChan_tiles {c : Nat} {f : Channel → Channel} : (s.modChan c f).tiles = s.tiles := rfl
@[simp] theorem State.modChan_store {c : Nat} {f : Channel → Channel} : (s.modChan c f).store = s.store := rfl
@[simp] theorem State.modChan_nets {c : Nat} {f : Channel → Channel} : (s.modChan c f).nets = s.nets := rfl
@[simp] theorem State.modChan_seams {c : Nat} {f : Channel → Channel} : (s.modChan c f).seams = s.seams := rfl
@[simp] theorem State.modChan_polders {c : Nat} {f : Channel → Channel} : (s.modChan c f).polders = s.polders := rfl
@[simp] theorem State.modChan_clients {c : Nat} {f : Channel → Channel} : (s.modChan c f).clients = s.clients := rfl
@[simp] theorem State.modChan_conservators {c : Nat} {f : Channel → Channel} : (s.modChan c f).conservators = s.conservators := rfl
@[simp] theorem State.modChan_hif {c : Nat} {f : Channel → Channel} : (s.modChan c f).hif = s.hif := rfl
@[simp] theorem State.modChan_links {c : Nat} {f : Channel → Channel} : (s.modChan c f).links = s.links := rfl
@[simp] theorem State.modChan_power {c : Nat} {f : Channel → Channel} : (s.modChan c f).power = s.power := rfl
@[simp] theorem State.modChan_board {c : Nat} {f : Channel → Channel} : (s.modChan c f).board = s.board := rfl
@[simp] theorem State.modChan_boot {c : Nat} {f : Channel → Channel} : (s.modChan c f).boot = s.boot := rfl
@[simp] theorem State.modChan_journal {c : Nat} {f : Channel → Channel} : (s.modChan c f).journal = s.journal := rfl
@[simp] theorem State.modChan_spares {c : Nat} {f : Channel → Channel} : (s.modChan c f).spares = s.spares := rfl
@[simp] theorem State.modChan_at_reg {c : Nat} {f : Channel → Channel} {b : Nat} : (s.modChan c f).reg b = s.reg b := rfl
@[simp] theorem State.modChan_at_reg64 {c : Nat} {f : Channel → Channel} {b : Nat} : (s.modChan c f).reg64 b = s.reg64 b := rfl
@[simp] theorem State.modChan_at_now {c : Nat} {f : Channel → Channel} {dom : Nat} : (s.modChan c f).now dom = s.now dom := rfl
@[simp] theorem State.modChan_at_tile {c : Nat} {f : Channel → Channel} {k : Nat} : (s.modChan c f).tile k = s.tile k := rfl
@[simp] theorem State.modChan_at_pld {c : Nat} {f : Channel → Channel} {k : Nat} : (s.modChan c f).pld k = s.pld k := rfl
@[simp] theorem State.modChan_at_cns {c : Nat} {f : Channel → Channel} {k : Nat} : (s.modChan c f).cns k = s.cns k := rfl
@[simp] theorem State.modChan_at_client {c : Nat} {f : Channel → Channel} {j : Nat} : (s.modChan c f).client j = s.client j := rfl
@[simp] theorem State.modChan_at_seam {c : Nat} {f : Channel → Channel} {k : Nat} : (s.modChan c f).seam k = s.seam k := rfl
@[simp] theorem State.modChan_at_port {c : Nat} {f : Channel → Channel} {k : Nat} : (s.modChan c f).port k = s.port k := rfl
@[simp] theorem State.modChan_at_die {c : Nat} {f : Channel → Channel} {k : Nat} : (s.modChan c f).die k = s.die k := rfl
@[simp] theorem State.modChan_at_vfReg {c : Nat} {f : Channel → Channel} {k o : Nat} : (s.modChan c f).vfReg k o = s.vfReg k o := rfl
@[simp] theorem State.modChan_at_rowOwner {c : Nat} {f : Channel → Channel} {row : Nat} : (s.modChan c f).rowOwner row = s.rowOwner row := rfl
@[simp] theorem State.modChan_at_tileOwner {c : Nat} {f : Channel → Channel} {k : Nat} : (s.modChan c f).tileOwner k = s.tileOwner k := rfl

/-! ### modCns -/

@[simp] theorem State.modCns_pending {n : Nat} {f : Conservator → Conservator} : (s.modCns n f).pending = s.pending := rfl
@[simp] theorem State.modCns_answer {n : Nat} {f : Conservator → Conservator} : (s.modCns n f).answer = s.answer := rfl
@[simp] theorem State.modCns_drawn {n : Nat} {f : Conservator → Conservator} : (s.modCns n f).drawn = s.drawn := rfl
@[simp] theorem State.modCns_time {n : Nat} {f : Conservator → Conservator} : (s.modCns n f).time = s.time := rfl
@[simp] theorem State.modCns_regs {n : Nat} {f : Conservator → Conservator} : (s.modCns n f).regs = s.regs := rfl
@[simp] theorem State.modCns_vfRegs {n : Nat} {f : Conservator → Conservator} : (s.modCns n f).vfRegs = s.vfRegs := rfl
@[simp] theorem State.modCns_latches {n : Nat} {f : Conservator → Conservator} : (s.modCns n f).latches = s.latches := rfl
@[simp] theorem State.modCns_heldLow {n : Nat} {f : Conservator → Conservator} : (s.modCns n f).heldLow = s.heldLow := rfl
@[simp] theorem State.modCns_tiles {n : Nat} {f : Conservator → Conservator} : (s.modCns n f).tiles = s.tiles := rfl
@[simp] theorem State.modCns_store {n : Nat} {f : Conservator → Conservator} : (s.modCns n f).store = s.store := rfl
@[simp] theorem State.modCns_nets {n : Nat} {f : Conservator → Conservator} : (s.modCns n f).nets = s.nets := rfl
@[simp] theorem State.modCns_seams {n : Nat} {f : Conservator → Conservator} : (s.modCns n f).seams = s.seams := rfl
@[simp] theorem State.modCns_polders {n : Nat} {f : Conservator → Conservator} : (s.modCns n f).polders = s.polders := rfl
@[simp] theorem State.modCns_clients {n : Nat} {f : Conservator → Conservator} : (s.modCns n f).clients = s.clients := rfl
@[simp] theorem State.modCns_channels {n : Nat} {f : Conservator → Conservator} : (s.modCns n f).channels = s.channels := rfl
@[simp] theorem State.modCns_hif {n : Nat} {f : Conservator → Conservator} : (s.modCns n f).hif = s.hif := rfl
@[simp] theorem State.modCns_links {n : Nat} {f : Conservator → Conservator} : (s.modCns n f).links = s.links := rfl
@[simp] theorem State.modCns_power {n : Nat} {f : Conservator → Conservator} : (s.modCns n f).power = s.power := rfl
@[simp] theorem State.modCns_board {n : Nat} {f : Conservator → Conservator} : (s.modCns n f).board = s.board := rfl
@[simp] theorem State.modCns_boot {n : Nat} {f : Conservator → Conservator} : (s.modCns n f).boot = s.boot := rfl
@[simp] theorem State.modCns_journal {n : Nat} {f : Conservator → Conservator} : (s.modCns n f).journal = s.journal := rfl
@[simp] theorem State.modCns_spares {n : Nat} {f : Conservator → Conservator} : (s.modCns n f).spares = s.spares := rfl
@[simp] theorem State.modCns_at_reg {n : Nat} {f : Conservator → Conservator} {b : Nat} : (s.modCns n f).reg b = s.reg b := rfl
@[simp] theorem State.modCns_at_reg64 {n : Nat} {f : Conservator → Conservator} {b : Nat} : (s.modCns n f).reg64 b = s.reg64 b := rfl
@[simp] theorem State.modCns_at_now {n : Nat} {f : Conservator → Conservator} {dom : Nat} : (s.modCns n f).now dom = s.now dom := rfl
@[simp] theorem State.modCns_at_tile {n : Nat} {f : Conservator → Conservator} {k : Nat} : (s.modCns n f).tile k = s.tile k := rfl
@[simp] theorem State.modCns_at_pld {n : Nat} {f : Conservator → Conservator} {k : Nat} : (s.modCns n f).pld k = s.pld k := rfl
@[simp] theorem State.modCns_at_chan {n : Nat} {f : Conservator → Conservator} {k : Nat} : (s.modCns n f).chan k = s.chan k := rfl
@[simp] theorem State.modCns_at_client {n : Nat} {f : Conservator → Conservator} {j : Nat} : (s.modCns n f).client j = s.client j := rfl
@[simp] theorem State.modCns_at_seam {n : Nat} {f : Conservator → Conservator} {k : Nat} : (s.modCns n f).seam k = s.seam k := rfl
@[simp] theorem State.modCns_at_port {n : Nat} {f : Conservator → Conservator} {k : Nat} : (s.modCns n f).port k = s.port k := rfl
@[simp] theorem State.modCns_at_die {n : Nat} {f : Conservator → Conservator} {k : Nat} : (s.modCns n f).die k = s.die k := rfl
@[simp] theorem State.modCns_at_vfReg {n : Nat} {f : Conservator → Conservator} {k o : Nat} : (s.modCns n f).vfReg k o = s.vfReg k o := rfl
@[simp] theorem State.modCns_at_rowOwner {n : Nat} {f : Conservator → Conservator} {row : Nat} : (s.modCns n f).rowOwner row = s.rowOwner row := rfl
@[simp] theorem State.modCns_at_tileOwner {n : Nat} {f : Conservator → Conservator} {k : Nat} : (s.modCns n f).tileOwner k = s.tileOwner k := rfl

/-! ### modClient -/

@[simp] theorem State.modClient_pending {n : Nat} {f : Client → Client} : (s.modClient n f).pending = s.pending := rfl
@[simp] theorem State.modClient_answer {n : Nat} {f : Client → Client} : (s.modClient n f).answer = s.answer := rfl
@[simp] theorem State.modClient_drawn {n : Nat} {f : Client → Client} : (s.modClient n f).drawn = s.drawn := rfl
@[simp] theorem State.modClient_time {n : Nat} {f : Client → Client} : (s.modClient n f).time = s.time := rfl
@[simp] theorem State.modClient_regs {n : Nat} {f : Client → Client} : (s.modClient n f).regs = s.regs := rfl
@[simp] theorem State.modClient_vfRegs {n : Nat} {f : Client → Client} : (s.modClient n f).vfRegs = s.vfRegs := rfl
@[simp] theorem State.modClient_latches {n : Nat} {f : Client → Client} : (s.modClient n f).latches = s.latches := rfl
@[simp] theorem State.modClient_heldLow {n : Nat} {f : Client → Client} : (s.modClient n f).heldLow = s.heldLow := rfl
@[simp] theorem State.modClient_tiles {n : Nat} {f : Client → Client} : (s.modClient n f).tiles = s.tiles := rfl
@[simp] theorem State.modClient_store {n : Nat} {f : Client → Client} : (s.modClient n f).store = s.store := rfl
@[simp] theorem State.modClient_nets {n : Nat} {f : Client → Client} : (s.modClient n f).nets = s.nets := rfl
@[simp] theorem State.modClient_seams {n : Nat} {f : Client → Client} : (s.modClient n f).seams = s.seams := rfl
@[simp] theorem State.modClient_polders {n : Nat} {f : Client → Client} : (s.modClient n f).polders = s.polders := rfl
@[simp] theorem State.modClient_conservators {n : Nat} {f : Client → Client} : (s.modClient n f).conservators = s.conservators := rfl
@[simp] theorem State.modClient_channels {n : Nat} {f : Client → Client} : (s.modClient n f).channels = s.channels := rfl
@[simp] theorem State.modClient_hif {n : Nat} {f : Client → Client} : (s.modClient n f).hif = s.hif := rfl
@[simp] theorem State.modClient_links {n : Nat} {f : Client → Client} : (s.modClient n f).links = s.links := rfl
@[simp] theorem State.modClient_power {n : Nat} {f : Client → Client} : (s.modClient n f).power = s.power := rfl
@[simp] theorem State.modClient_board {n : Nat} {f : Client → Client} : (s.modClient n f).board = s.board := rfl
@[simp] theorem State.modClient_boot {n : Nat} {f : Client → Client} : (s.modClient n f).boot = s.boot := rfl
@[simp] theorem State.modClient_journal {n : Nat} {f : Client → Client} : (s.modClient n f).journal = s.journal := rfl
@[simp] theorem State.modClient_spares {n : Nat} {f : Client → Client} : (s.modClient n f).spares = s.spares := rfl
@[simp] theorem State.modClient_at_reg {n : Nat} {f : Client → Client} {b : Nat} : (s.modClient n f).reg b = s.reg b := rfl
@[simp] theorem State.modClient_at_reg64 {n : Nat} {f : Client → Client} {b : Nat} : (s.modClient n f).reg64 b = s.reg64 b := rfl
@[simp] theorem State.modClient_at_now {n : Nat} {f : Client → Client} {dom : Nat} : (s.modClient n f).now dom = s.now dom := rfl
@[simp] theorem State.modClient_at_tile {n : Nat} {f : Client → Client} {k : Nat} : (s.modClient n f).tile k = s.tile k := rfl
@[simp] theorem State.modClient_at_pld {n : Nat} {f : Client → Client} {k : Nat} : (s.modClient n f).pld k = s.pld k := rfl
@[simp] theorem State.modClient_at_chan {n : Nat} {f : Client → Client} {k : Nat} : (s.modClient n f).chan k = s.chan k := rfl
@[simp] theorem State.modClient_at_cns {n : Nat} {f : Client → Client} {k : Nat} : (s.modClient n f).cns k = s.cns k := rfl
@[simp] theorem State.modClient_at_seam {n : Nat} {f : Client → Client} {k : Nat} : (s.modClient n f).seam k = s.seam k := rfl
@[simp] theorem State.modClient_at_port {n : Nat} {f : Client → Client} {k : Nat} : (s.modClient n f).port k = s.port k := rfl
@[simp] theorem State.modClient_at_die {n : Nat} {f : Client → Client} {k : Nat} : (s.modClient n f).die k = s.die k := rfl
@[simp] theorem State.modClient_at_vfReg {n : Nat} {f : Client → Client} {k o : Nat} : (s.modClient n f).vfReg k o = s.vfReg k o := rfl
@[simp] theorem State.modClient_at_rowOwner {n : Nat} {f : Client → Client} {row : Nat} : (s.modClient n f).rowOwner row = s.rowOwner row := rfl
@[simp] theorem State.modClient_at_tileOwner {n : Nat} {f : Client → Client} {k : Nat} : (s.modClient n f).tileOwner k = s.tileOwner k := rfl

/-! ### modSeam -/

@[simp] theorem State.modSeam_pending {n : Nat} {f : Seam → Seam} : (s.modSeam n f).pending = s.pending := rfl
@[simp] theorem State.modSeam_answer {n : Nat} {f : Seam → Seam} : (s.modSeam n f).answer = s.answer := rfl
@[simp] theorem State.modSeam_drawn {n : Nat} {f : Seam → Seam} : (s.modSeam n f).drawn = s.drawn := rfl
@[simp] theorem State.modSeam_time {n : Nat} {f : Seam → Seam} : (s.modSeam n f).time = s.time := rfl
@[simp] theorem State.modSeam_regs {n : Nat} {f : Seam → Seam} : (s.modSeam n f).regs = s.regs := rfl
@[simp] theorem State.modSeam_vfRegs {n : Nat} {f : Seam → Seam} : (s.modSeam n f).vfRegs = s.vfRegs := rfl
@[simp] theorem State.modSeam_latches {n : Nat} {f : Seam → Seam} : (s.modSeam n f).latches = s.latches := rfl
@[simp] theorem State.modSeam_heldLow {n : Nat} {f : Seam → Seam} : (s.modSeam n f).heldLow = s.heldLow := rfl
@[simp] theorem State.modSeam_tiles {n : Nat} {f : Seam → Seam} : (s.modSeam n f).tiles = s.tiles := rfl
@[simp] theorem State.modSeam_store {n : Nat} {f : Seam → Seam} : (s.modSeam n f).store = s.store := rfl
@[simp] theorem State.modSeam_nets {n : Nat} {f : Seam → Seam} : (s.modSeam n f).nets = s.nets := rfl
@[simp] theorem State.modSeam_polders {n : Nat} {f : Seam → Seam} : (s.modSeam n f).polders = s.polders := rfl
@[simp] theorem State.modSeam_clients {n : Nat} {f : Seam → Seam} : (s.modSeam n f).clients = s.clients := rfl
@[simp] theorem State.modSeam_conservators {n : Nat} {f : Seam → Seam} : (s.modSeam n f).conservators = s.conservators := rfl
@[simp] theorem State.modSeam_channels {n : Nat} {f : Seam → Seam} : (s.modSeam n f).channels = s.channels := rfl
@[simp] theorem State.modSeam_hif {n : Nat} {f : Seam → Seam} : (s.modSeam n f).hif = s.hif := rfl
@[simp] theorem State.modSeam_links {n : Nat} {f : Seam → Seam} : (s.modSeam n f).links = s.links := rfl
@[simp] theorem State.modSeam_power {n : Nat} {f : Seam → Seam} : (s.modSeam n f).power = s.power := rfl
@[simp] theorem State.modSeam_board {n : Nat} {f : Seam → Seam} : (s.modSeam n f).board = s.board := rfl
@[simp] theorem State.modSeam_boot {n : Nat} {f : Seam → Seam} : (s.modSeam n f).boot = s.boot := rfl
@[simp] theorem State.modSeam_journal {n : Nat} {f : Seam → Seam} : (s.modSeam n f).journal = s.journal := rfl
@[simp] theorem State.modSeam_spares {n : Nat} {f : Seam → Seam} : (s.modSeam n f).spares = s.spares := rfl
@[simp] theorem State.modSeam_at_reg {n : Nat} {f : Seam → Seam} {b : Nat} : (s.modSeam n f).reg b = s.reg b := rfl
@[simp] theorem State.modSeam_at_reg64 {n : Nat} {f : Seam → Seam} {b : Nat} : (s.modSeam n f).reg64 b = s.reg64 b := rfl
@[simp] theorem State.modSeam_at_now {n : Nat} {f : Seam → Seam} {dom : Nat} : (s.modSeam n f).now dom = s.now dom := rfl
@[simp] theorem State.modSeam_at_tile {n : Nat} {f : Seam → Seam} {k : Nat} : (s.modSeam n f).tile k = s.tile k := rfl
@[simp] theorem State.modSeam_at_pld {n : Nat} {f : Seam → Seam} {k : Nat} : (s.modSeam n f).pld k = s.pld k := rfl
@[simp] theorem State.modSeam_at_chan {n : Nat} {f : Seam → Seam} {k : Nat} : (s.modSeam n f).chan k = s.chan k := rfl
@[simp] theorem State.modSeam_at_cns {n : Nat} {f : Seam → Seam} {k : Nat} : (s.modSeam n f).cns k = s.cns k := rfl
@[simp] theorem State.modSeam_at_client {n : Nat} {f : Seam → Seam} {j : Nat} : (s.modSeam n f).client j = s.client j := rfl
@[simp] theorem State.modSeam_at_port {n : Nat} {f : Seam → Seam} {k : Nat} : (s.modSeam n f).port k = s.port k := rfl
@[simp] theorem State.modSeam_at_die {n : Nat} {f : Seam → Seam} {k : Nat} : (s.modSeam n f).die k = s.die k := rfl
@[simp] theorem State.modSeam_at_vfReg {n : Nat} {f : Seam → Seam} {k o : Nat} : (s.modSeam n f).vfReg k o = s.vfReg k o := rfl
@[simp] theorem State.modSeam_at_rowOwner {n : Nat} {f : Seam → Seam} {row : Nat} : (s.modSeam n f).rowOwner row = s.rowOwner row := rfl
@[simp] theorem State.modSeam_at_tileOwner {n : Nat} {f : Seam → Seam} {k : Nat} : (s.modSeam n f).tileOwner k = s.tileOwner k := rfl

/-! ### modLinks -/

@[simp] theorem State.modLinks_pending {f : Links → Links} : (s.modLinks f).pending = s.pending := rfl
@[simp] theorem State.modLinks_answer {f : Links → Links} : (s.modLinks f).answer = s.answer := rfl
@[simp] theorem State.modLinks_drawn {f : Links → Links} : (s.modLinks f).drawn = s.drawn := rfl
@[simp] theorem State.modLinks_time {f : Links → Links} : (s.modLinks f).time = s.time := rfl
@[simp] theorem State.modLinks_regs {f : Links → Links} : (s.modLinks f).regs = s.regs := rfl
@[simp] theorem State.modLinks_vfRegs {f : Links → Links} : (s.modLinks f).vfRegs = s.vfRegs := rfl
@[simp] theorem State.modLinks_latches {f : Links → Links} : (s.modLinks f).latches = s.latches := rfl
@[simp] theorem State.modLinks_heldLow {f : Links → Links} : (s.modLinks f).heldLow = s.heldLow := rfl
@[simp] theorem State.modLinks_tiles {f : Links → Links} : (s.modLinks f).tiles = s.tiles := rfl
@[simp] theorem State.modLinks_store {f : Links → Links} : (s.modLinks f).store = s.store := rfl
@[simp] theorem State.modLinks_nets {f : Links → Links} : (s.modLinks f).nets = s.nets := rfl
@[simp] theorem State.modLinks_seams {f : Links → Links} : (s.modLinks f).seams = s.seams := rfl
@[simp] theorem State.modLinks_polders {f : Links → Links} : (s.modLinks f).polders = s.polders := rfl
@[simp] theorem State.modLinks_clients {f : Links → Links} : (s.modLinks f).clients = s.clients := rfl
@[simp] theorem State.modLinks_conservators {f : Links → Links} : (s.modLinks f).conservators = s.conservators := rfl
@[simp] theorem State.modLinks_channels {f : Links → Links} : (s.modLinks f).channels = s.channels := rfl
@[simp] theorem State.modLinks_hif {f : Links → Links} : (s.modLinks f).hif = s.hif := rfl
@[simp] theorem State.modLinks_power {f : Links → Links} : (s.modLinks f).power = s.power := rfl
@[simp] theorem State.modLinks_board {f : Links → Links} : (s.modLinks f).board = s.board := rfl
@[simp] theorem State.modLinks_boot {f : Links → Links} : (s.modLinks f).boot = s.boot := rfl
@[simp] theorem State.modLinks_journal {f : Links → Links} : (s.modLinks f).journal = s.journal := rfl
@[simp] theorem State.modLinks_spares {f : Links → Links} : (s.modLinks f).spares = s.spares := rfl
@[simp] theorem State.modLinks_at_reg {f : Links → Links} {b : Nat} : (s.modLinks f).reg b = s.reg b := rfl
@[simp] theorem State.modLinks_at_reg64 {f : Links → Links} {b : Nat} : (s.modLinks f).reg64 b = s.reg64 b := rfl
@[simp] theorem State.modLinks_at_now {f : Links → Links} {dom : Nat} : (s.modLinks f).now dom = s.now dom := rfl
@[simp] theorem State.modLinks_at_tile {f : Links → Links} {k : Nat} : (s.modLinks f).tile k = s.tile k := rfl
@[simp] theorem State.modLinks_at_pld {f : Links → Links} {k : Nat} : (s.modLinks f).pld k = s.pld k := rfl
@[simp] theorem State.modLinks_at_chan {f : Links → Links} {k : Nat} : (s.modLinks f).chan k = s.chan k := rfl
@[simp] theorem State.modLinks_at_cns {f : Links → Links} {k : Nat} : (s.modLinks f).cns k = s.cns k := rfl
@[simp] theorem State.modLinks_at_client {f : Links → Links} {j : Nat} : (s.modLinks f).client j = s.client j := rfl
@[simp] theorem State.modLinks_at_seam {f : Links → Links} {k : Nat} : (s.modLinks f).seam k = s.seam k := rfl
@[simp] theorem State.modLinks_at_die {f : Links → Links} {k : Nat} : (s.modLinks f).die k = s.die k := rfl
@[simp] theorem State.modLinks_at_vfReg {f : Links → Links} {k o : Nat} : (s.modLinks f).vfReg k o = s.vfReg k o := rfl
@[simp] theorem State.modLinks_at_rowOwner {f : Links → Links} {row : Nat} : (s.modLinks f).rowOwner row = s.rowOwner row := rfl
@[simp] theorem State.modLinks_at_tileOwner {f : Links → Links} {k : Nat} : (s.modLinks f).tileOwner k = s.tileOwner k := rfl

/-! ### modPort -/

@[simp] theorem State.modPort_pending {n : Nat} {f : Port → Port} : (s.modPort n f).pending = s.pending := State.modLinks_pending
@[simp] theorem State.modPort_answer {n : Nat} {f : Port → Port} : (s.modPort n f).answer = s.answer := State.modLinks_answer
@[simp] theorem State.modPort_drawn {n : Nat} {f : Port → Port} : (s.modPort n f).drawn = s.drawn := State.modLinks_drawn
@[simp] theorem State.modPort_time {n : Nat} {f : Port → Port} : (s.modPort n f).time = s.time := State.modLinks_time
@[simp] theorem State.modPort_regs {n : Nat} {f : Port → Port} : (s.modPort n f).regs = s.regs := State.modLinks_regs
@[simp] theorem State.modPort_vfRegs {n : Nat} {f : Port → Port} : (s.modPort n f).vfRegs = s.vfRegs := State.modLinks_vfRegs
@[simp] theorem State.modPort_latches {n : Nat} {f : Port → Port} : (s.modPort n f).latches = s.latches := State.modLinks_latches
@[simp] theorem State.modPort_heldLow {n : Nat} {f : Port → Port} : (s.modPort n f).heldLow = s.heldLow := State.modLinks_heldLow
@[simp] theorem State.modPort_tiles {n : Nat} {f : Port → Port} : (s.modPort n f).tiles = s.tiles := State.modLinks_tiles
@[simp] theorem State.modPort_store {n : Nat} {f : Port → Port} : (s.modPort n f).store = s.store := State.modLinks_store
@[simp] theorem State.modPort_nets {n : Nat} {f : Port → Port} : (s.modPort n f).nets = s.nets := State.modLinks_nets
@[simp] theorem State.modPort_seams {n : Nat} {f : Port → Port} : (s.modPort n f).seams = s.seams := State.modLinks_seams
@[simp] theorem State.modPort_polders {n : Nat} {f : Port → Port} : (s.modPort n f).polders = s.polders := State.modLinks_polders
@[simp] theorem State.modPort_clients {n : Nat} {f : Port → Port} : (s.modPort n f).clients = s.clients := State.modLinks_clients
@[simp] theorem State.modPort_conservators {n : Nat} {f : Port → Port} : (s.modPort n f).conservators = s.conservators := State.modLinks_conservators
@[simp] theorem State.modPort_channels {n : Nat} {f : Port → Port} : (s.modPort n f).channels = s.channels := State.modLinks_channels
@[simp] theorem State.modPort_hif {n : Nat} {f : Port → Port} : (s.modPort n f).hif = s.hif := State.modLinks_hif
@[simp] theorem State.modPort_power {n : Nat} {f : Port → Port} : (s.modPort n f).power = s.power := State.modLinks_power
@[simp] theorem State.modPort_board {n : Nat} {f : Port → Port} : (s.modPort n f).board = s.board := State.modLinks_board
@[simp] theorem State.modPort_boot {n : Nat} {f : Port → Port} : (s.modPort n f).boot = s.boot := State.modLinks_boot
@[simp] theorem State.modPort_journal {n : Nat} {f : Port → Port} : (s.modPort n f).journal = s.journal := State.modLinks_journal
@[simp] theorem State.modPort_spares {n : Nat} {f : Port → Port} : (s.modPort n f).spares = s.spares := State.modLinks_spares
@[simp] theorem State.modPort_at_reg {n : Nat} {f : Port → Port} {b : Nat} : (s.modPort n f).reg b = s.reg b := State.modLinks_at_reg
@[simp] theorem State.modPort_at_reg64 {n : Nat} {f : Port → Port} {b : Nat} : (s.modPort n f).reg64 b = s.reg64 b := State.modLinks_at_reg64
@[simp] theorem State.modPort_at_now {n : Nat} {f : Port → Port} {dom : Nat} : (s.modPort n f).now dom = s.now dom := State.modLinks_at_now
@[simp] theorem State.modPort_at_tile {n : Nat} {f : Port → Port} {k : Nat} : (s.modPort n f).tile k = s.tile k := State.modLinks_at_tile
@[simp] theorem State.modPort_at_pld {n : Nat} {f : Port → Port} {k : Nat} : (s.modPort n f).pld k = s.pld k := State.modLinks_at_pld
@[simp] theorem State.modPort_at_chan {n : Nat} {f : Port → Port} {k : Nat} : (s.modPort n f).chan k = s.chan k := State.modLinks_at_chan
@[simp] theorem State.modPort_at_cns {n : Nat} {f : Port → Port} {k : Nat} : (s.modPort n f).cns k = s.cns k := State.modLinks_at_cns
@[simp] theorem State.modPort_at_client {n : Nat} {f : Port → Port} {j : Nat} : (s.modPort n f).client j = s.client j := State.modLinks_at_client
@[simp] theorem State.modPort_at_seam {n : Nat} {f : Port → Port} {k : Nat} : (s.modPort n f).seam k = s.seam k := State.modLinks_at_seam
@[simp] theorem State.modPort_at_die {n : Nat} {f : Port → Port} {k : Nat} : (s.modPort n f).die k = s.die k := State.modLinks_at_die
@[simp] theorem State.modPort_at_vfReg {n : Nat} {f : Port → Port} {k o : Nat} : (s.modPort n f).vfReg k o = s.vfReg k o := State.modLinks_at_vfReg
@[simp] theorem State.modPort_at_rowOwner {n : Nat} {f : Port → Port} {row : Nat} : (s.modPort n f).rowOwner row = s.rowOwner row := State.modLinks_at_rowOwner
@[simp] theorem State.modPort_at_tileOwner {n : Nat} {f : Port → Port} {k : Nat} : (s.modPort n f).tileOwner k = s.tileOwner k := State.modLinks_at_tileOwner

/-! ### modDie -/

@[simp] theorem State.modDie_pending {d : Nat} {f : DiePower → DiePower} : (s.modDie d f).pending = s.pending := rfl
@[simp] theorem State.modDie_answer {d : Nat} {f : DiePower → DiePower} : (s.modDie d f).answer = s.answer := rfl
@[simp] theorem State.modDie_drawn {d : Nat} {f : DiePower → DiePower} : (s.modDie d f).drawn = s.drawn := rfl
@[simp] theorem State.modDie_time {d : Nat} {f : DiePower → DiePower} : (s.modDie d f).time = s.time := rfl
@[simp] theorem State.modDie_regs {d : Nat} {f : DiePower → DiePower} : (s.modDie d f).regs = s.regs := rfl
@[simp] theorem State.modDie_vfRegs {d : Nat} {f : DiePower → DiePower} : (s.modDie d f).vfRegs = s.vfRegs := rfl
@[simp] theorem State.modDie_latches {d : Nat} {f : DiePower → DiePower} : (s.modDie d f).latches = s.latches := rfl
@[simp] theorem State.modDie_heldLow {d : Nat} {f : DiePower → DiePower} : (s.modDie d f).heldLow = s.heldLow := rfl
@[simp] theorem State.modDie_tiles {d : Nat} {f : DiePower → DiePower} : (s.modDie d f).tiles = s.tiles := rfl
@[simp] theorem State.modDie_store {d : Nat} {f : DiePower → DiePower} : (s.modDie d f).store = s.store := rfl
@[simp] theorem State.modDie_nets {d : Nat} {f : DiePower → DiePower} : (s.modDie d f).nets = s.nets := rfl
@[simp] theorem State.modDie_seams {d : Nat} {f : DiePower → DiePower} : (s.modDie d f).seams = s.seams := rfl
@[simp] theorem State.modDie_polders {d : Nat} {f : DiePower → DiePower} : (s.modDie d f).polders = s.polders := rfl
@[simp] theorem State.modDie_clients {d : Nat} {f : DiePower → DiePower} : (s.modDie d f).clients = s.clients := rfl
@[simp] theorem State.modDie_conservators {d : Nat} {f : DiePower → DiePower} : (s.modDie d f).conservators = s.conservators := rfl
@[simp] theorem State.modDie_channels {d : Nat} {f : DiePower → DiePower} : (s.modDie d f).channels = s.channels := rfl
@[simp] theorem State.modDie_hif {d : Nat} {f : DiePower → DiePower} : (s.modDie d f).hif = s.hif := rfl
@[simp] theorem State.modDie_links {d : Nat} {f : DiePower → DiePower} : (s.modDie d f).links = s.links := rfl
@[simp] theorem State.modDie_board {d : Nat} {f : DiePower → DiePower} : (s.modDie d f).board = s.board := rfl
@[simp] theorem State.modDie_boot {d : Nat} {f : DiePower → DiePower} : (s.modDie d f).boot = s.boot := rfl
@[simp] theorem State.modDie_journal {d : Nat} {f : DiePower → DiePower} : (s.modDie d f).journal = s.journal := rfl
@[simp] theorem State.modDie_spares {d : Nat} {f : DiePower → DiePower} : (s.modDie d f).spares = s.spares := rfl
@[simp] theorem State.modDie_at_reg {d : Nat} {f : DiePower → DiePower} {b : Nat} : (s.modDie d f).reg b = s.reg b := rfl
@[simp] theorem State.modDie_at_reg64 {d : Nat} {f : DiePower → DiePower} {b : Nat} : (s.modDie d f).reg64 b = s.reg64 b := rfl
@[simp] theorem State.modDie_at_now {d : Nat} {f : DiePower → DiePower} {dom : Nat} : (s.modDie d f).now dom = s.now dom := rfl
@[simp] theorem State.modDie_at_tile {d : Nat} {f : DiePower → DiePower} {k : Nat} : (s.modDie d f).tile k = s.tile k := rfl
@[simp] theorem State.modDie_at_pld {d : Nat} {f : DiePower → DiePower} {k : Nat} : (s.modDie d f).pld k = s.pld k := rfl
@[simp] theorem State.modDie_at_chan {d : Nat} {f : DiePower → DiePower} {k : Nat} : (s.modDie d f).chan k = s.chan k := rfl
@[simp] theorem State.modDie_at_cns {d : Nat} {f : DiePower → DiePower} {k : Nat} : (s.modDie d f).cns k = s.cns k := rfl
@[simp] theorem State.modDie_at_client {d : Nat} {f : DiePower → DiePower} {j : Nat} : (s.modDie d f).client j = s.client j := rfl
@[simp] theorem State.modDie_at_seam {d : Nat} {f : DiePower → DiePower} {k : Nat} : (s.modDie d f).seam k = s.seam k := rfl
@[simp] theorem State.modDie_at_port {d : Nat} {f : DiePower → DiePower} {k : Nat} : (s.modDie d f).port k = s.port k := rfl
@[simp] theorem State.modDie_at_vfReg {d : Nat} {f : DiePower → DiePower} {k o : Nat} : (s.modDie d f).vfReg k o = s.vfReg k o := rfl
@[simp] theorem State.modDie_at_rowOwner {d : Nat} {f : DiePower → DiePower} {row : Nat} : (s.modDie d f).rowOwner row = s.rowOwner row := rfl
@[simp] theorem State.modDie_at_tileOwner {d : Nat} {f : DiePower → DiePower} {k : Nat} : (s.modDie d f).tileOwner k = s.tileOwner k := rfl

/-! ### modStore -/

@[simp] theorem State.modStore_pending {f : Store → Store} : (s.modStore f).pending = s.pending := rfl
@[simp] theorem State.modStore_answer {f : Store → Store} : (s.modStore f).answer = s.answer := rfl
@[simp] theorem State.modStore_drawn {f : Store → Store} : (s.modStore f).drawn = s.drawn := rfl
@[simp] theorem State.modStore_time {f : Store → Store} : (s.modStore f).time = s.time := rfl
@[simp] theorem State.modStore_regs {f : Store → Store} : (s.modStore f).regs = s.regs := rfl
@[simp] theorem State.modStore_vfRegs {f : Store → Store} : (s.modStore f).vfRegs = s.vfRegs := rfl
@[simp] theorem State.modStore_latches {f : Store → Store} : (s.modStore f).latches = s.latches := rfl
@[simp] theorem State.modStore_heldLow {f : Store → Store} : (s.modStore f).heldLow = s.heldLow := rfl
@[simp] theorem State.modStore_tiles {f : Store → Store} : (s.modStore f).tiles = s.tiles := rfl
@[simp] theorem State.modStore_nets {f : Store → Store} : (s.modStore f).nets = s.nets := rfl
@[simp] theorem State.modStore_seams {f : Store → Store} : (s.modStore f).seams = s.seams := rfl
@[simp] theorem State.modStore_polders {f : Store → Store} : (s.modStore f).polders = s.polders := rfl
@[simp] theorem State.modStore_clients {f : Store → Store} : (s.modStore f).clients = s.clients := rfl
@[simp] theorem State.modStore_conservators {f : Store → Store} : (s.modStore f).conservators = s.conservators := rfl
@[simp] theorem State.modStore_channels {f : Store → Store} : (s.modStore f).channels = s.channels := rfl
@[simp] theorem State.modStore_hif {f : Store → Store} : (s.modStore f).hif = s.hif := rfl
@[simp] theorem State.modStore_links {f : Store → Store} : (s.modStore f).links = s.links := rfl
@[simp] theorem State.modStore_power {f : Store → Store} : (s.modStore f).power = s.power := rfl
@[simp] theorem State.modStore_board {f : Store → Store} : (s.modStore f).board = s.board := rfl
@[simp] theorem State.modStore_boot {f : Store → Store} : (s.modStore f).boot = s.boot := rfl
@[simp] theorem State.modStore_journal {f : Store → Store} : (s.modStore f).journal = s.journal := rfl
@[simp] theorem State.modStore_spares {f : Store → Store} : (s.modStore f).spares = s.spares := rfl
@[simp] theorem State.modStore_at_reg {f : Store → Store} {b : Nat} : (s.modStore f).reg b = s.reg b := rfl
@[simp] theorem State.modStore_at_reg64 {f : Store → Store} {b : Nat} : (s.modStore f).reg64 b = s.reg64 b := rfl
@[simp] theorem State.modStore_at_now {f : Store → Store} {dom : Nat} : (s.modStore f).now dom = s.now dom := rfl
@[simp] theorem State.modStore_at_tile {f : Store → Store} {k : Nat} : (s.modStore f).tile k = s.tile k := rfl
@[simp] theorem State.modStore_at_pld {f : Store → Store} {k : Nat} : (s.modStore f).pld k = s.pld k := rfl
@[simp] theorem State.modStore_at_chan {f : Store → Store} {k : Nat} : (s.modStore f).chan k = s.chan k := rfl
@[simp] theorem State.modStore_at_cns {f : Store → Store} {k : Nat} : (s.modStore f).cns k = s.cns k := rfl
@[simp] theorem State.modStore_at_client {f : Store → Store} {j : Nat} : (s.modStore f).client j = s.client j := rfl
@[simp] theorem State.modStore_at_seam {f : Store → Store} {k : Nat} : (s.modStore f).seam k = s.seam k := rfl
@[simp] theorem State.modStore_at_port {f : Store → Store} {k : Nat} : (s.modStore f).port k = s.port k := rfl
@[simp] theorem State.modStore_at_die {f : Store → Store} {k : Nat} : (s.modStore f).die k = s.die k := rfl
@[simp] theorem State.modStore_at_vfReg {f : Store → Store} {k o : Nat} : (s.modStore f).vfReg k o = s.vfReg k o := rfl
@[simp] theorem State.modStore_at_rowOwner {f : Store → Store} {row : Nat} : (s.modStore f).rowOwner row = s.rowOwner row := rfl
@[simp] theorem State.modStore_at_tileOwner {f : Store → Store} {k : Nat} : (s.modStore f).tileOwner k = s.tileOwner k := rfl

/-! ### modNets -/

@[simp] theorem State.modNets_pending {f : Nets → Nets} : (s.modNets f).pending = s.pending := rfl
@[simp] theorem State.modNets_answer {f : Nets → Nets} : (s.modNets f).answer = s.answer := rfl
@[simp] theorem State.modNets_drawn {f : Nets → Nets} : (s.modNets f).drawn = s.drawn := rfl
@[simp] theorem State.modNets_time {f : Nets → Nets} : (s.modNets f).time = s.time := rfl
@[simp] theorem State.modNets_regs {f : Nets → Nets} : (s.modNets f).regs = s.regs := rfl
@[simp] theorem State.modNets_vfRegs {f : Nets → Nets} : (s.modNets f).vfRegs = s.vfRegs := rfl
@[simp] theorem State.modNets_latches {f : Nets → Nets} : (s.modNets f).latches = s.latches := rfl
@[simp] theorem State.modNets_heldLow {f : Nets → Nets} : (s.modNets f).heldLow = s.heldLow := rfl
@[simp] theorem State.modNets_tiles {f : Nets → Nets} : (s.modNets f).tiles = s.tiles := rfl
@[simp] theorem State.modNets_store {f : Nets → Nets} : (s.modNets f).store = s.store := rfl
@[simp] theorem State.modNets_seams {f : Nets → Nets} : (s.modNets f).seams = s.seams := rfl
@[simp] theorem State.modNets_polders {f : Nets → Nets} : (s.modNets f).polders = s.polders := rfl
@[simp] theorem State.modNets_clients {f : Nets → Nets} : (s.modNets f).clients = s.clients := rfl
@[simp] theorem State.modNets_conservators {f : Nets → Nets} : (s.modNets f).conservators = s.conservators := rfl
@[simp] theorem State.modNets_channels {f : Nets → Nets} : (s.modNets f).channels = s.channels := rfl
@[simp] theorem State.modNets_hif {f : Nets → Nets} : (s.modNets f).hif = s.hif := rfl
@[simp] theorem State.modNets_links {f : Nets → Nets} : (s.modNets f).links = s.links := rfl
@[simp] theorem State.modNets_power {f : Nets → Nets} : (s.modNets f).power = s.power := rfl
@[simp] theorem State.modNets_board {f : Nets → Nets} : (s.modNets f).board = s.board := rfl
@[simp] theorem State.modNets_boot {f : Nets → Nets} : (s.modNets f).boot = s.boot := rfl
@[simp] theorem State.modNets_journal {f : Nets → Nets} : (s.modNets f).journal = s.journal := rfl
@[simp] theorem State.modNets_spares {f : Nets → Nets} : (s.modNets f).spares = s.spares := rfl
@[simp] theorem State.modNets_at_reg {f : Nets → Nets} {b : Nat} : (s.modNets f).reg b = s.reg b := rfl
@[simp] theorem State.modNets_at_reg64 {f : Nets → Nets} {b : Nat} : (s.modNets f).reg64 b = s.reg64 b := rfl
@[simp] theorem State.modNets_at_now {f : Nets → Nets} {dom : Nat} : (s.modNets f).now dom = s.now dom := rfl
@[simp] theorem State.modNets_at_tile {f : Nets → Nets} {k : Nat} : (s.modNets f).tile k = s.tile k := rfl
@[simp] theorem State.modNets_at_pld {f : Nets → Nets} {k : Nat} : (s.modNets f).pld k = s.pld k := rfl
@[simp] theorem State.modNets_at_chan {f : Nets → Nets} {k : Nat} : (s.modNets f).chan k = s.chan k := rfl
@[simp] theorem State.modNets_at_cns {f : Nets → Nets} {k : Nat} : (s.modNets f).cns k = s.cns k := rfl
@[simp] theorem State.modNets_at_client {f : Nets → Nets} {j : Nat} : (s.modNets f).client j = s.client j := rfl
@[simp] theorem State.modNets_at_seam {f : Nets → Nets} {k : Nat} : (s.modNets f).seam k = s.seam k := rfl
@[simp] theorem State.modNets_at_port {f : Nets → Nets} {k : Nat} : (s.modNets f).port k = s.port k := rfl
@[simp] theorem State.modNets_at_die {f : Nets → Nets} {k : Nat} : (s.modNets f).die k = s.die k := rfl
@[simp] theorem State.modNets_at_vfReg {f : Nets → Nets} {k o : Nat} : (s.modNets f).vfReg k o = s.vfReg k o := rfl
@[simp] theorem State.modNets_at_rowOwner {f : Nets → Nets} {row : Nat} : (s.modNets f).rowOwner row = s.rowOwner row := rfl
@[simp] theorem State.modNets_at_tileOwner {f : Nets → Nets} {k : Nat} : (s.modNets f).tileOwner k = s.tileOwner k := rfl

/-! ### modHif -/

@[simp] theorem State.modHif_pending {f : HostIf → HostIf} : (s.modHif f).pending = s.pending := rfl
@[simp] theorem State.modHif_answer {f : HostIf → HostIf} : (s.modHif f).answer = s.answer := rfl
@[simp] theorem State.modHif_drawn {f : HostIf → HostIf} : (s.modHif f).drawn = s.drawn := rfl
@[simp] theorem State.modHif_time {f : HostIf → HostIf} : (s.modHif f).time = s.time := rfl
@[simp] theorem State.modHif_regs {f : HostIf → HostIf} : (s.modHif f).regs = s.regs := rfl
@[simp] theorem State.modHif_vfRegs {f : HostIf → HostIf} : (s.modHif f).vfRegs = s.vfRegs := rfl
@[simp] theorem State.modHif_latches {f : HostIf → HostIf} : (s.modHif f).latches = s.latches := rfl
@[simp] theorem State.modHif_heldLow {f : HostIf → HostIf} : (s.modHif f).heldLow = s.heldLow := rfl
@[simp] theorem State.modHif_tiles {f : HostIf → HostIf} : (s.modHif f).tiles = s.tiles := rfl
@[simp] theorem State.modHif_store {f : HostIf → HostIf} : (s.modHif f).store = s.store := rfl
@[simp] theorem State.modHif_nets {f : HostIf → HostIf} : (s.modHif f).nets = s.nets := rfl
@[simp] theorem State.modHif_seams {f : HostIf → HostIf} : (s.modHif f).seams = s.seams := rfl
@[simp] theorem State.modHif_polders {f : HostIf → HostIf} : (s.modHif f).polders = s.polders := rfl
@[simp] theorem State.modHif_clients {f : HostIf → HostIf} : (s.modHif f).clients = s.clients := rfl
@[simp] theorem State.modHif_conservators {f : HostIf → HostIf} : (s.modHif f).conservators = s.conservators := rfl
@[simp] theorem State.modHif_channels {f : HostIf → HostIf} : (s.modHif f).channels = s.channels := rfl
@[simp] theorem State.modHif_links {f : HostIf → HostIf} : (s.modHif f).links = s.links := rfl
@[simp] theorem State.modHif_power {f : HostIf → HostIf} : (s.modHif f).power = s.power := rfl
@[simp] theorem State.modHif_board {f : HostIf → HostIf} : (s.modHif f).board = s.board := rfl
@[simp] theorem State.modHif_boot {f : HostIf → HostIf} : (s.modHif f).boot = s.boot := rfl
@[simp] theorem State.modHif_journal {f : HostIf → HostIf} : (s.modHif f).journal = s.journal := rfl
@[simp] theorem State.modHif_spares {f : HostIf → HostIf} : (s.modHif f).spares = s.spares := rfl
@[simp] theorem State.modHif_at_reg {f : HostIf → HostIf} {b : Nat} : (s.modHif f).reg b = s.reg b := rfl
@[simp] theorem State.modHif_at_reg64 {f : HostIf → HostIf} {b : Nat} : (s.modHif f).reg64 b = s.reg64 b := rfl
@[simp] theorem State.modHif_at_now {f : HostIf → HostIf} {dom : Nat} : (s.modHif f).now dom = s.now dom := rfl
@[simp] theorem State.modHif_at_tile {f : HostIf → HostIf} {k : Nat} : (s.modHif f).tile k = s.tile k := rfl
@[simp] theorem State.modHif_at_pld {f : HostIf → HostIf} {k : Nat} : (s.modHif f).pld k = s.pld k := rfl
@[simp] theorem State.modHif_at_chan {f : HostIf → HostIf} {k : Nat} : (s.modHif f).chan k = s.chan k := rfl
@[simp] theorem State.modHif_at_cns {f : HostIf → HostIf} {k : Nat} : (s.modHif f).cns k = s.cns k := rfl
@[simp] theorem State.modHif_at_client {f : HostIf → HostIf} {j : Nat} : (s.modHif f).client j = s.client j := rfl
@[simp] theorem State.modHif_at_seam {f : HostIf → HostIf} {k : Nat} : (s.modHif f).seam k = s.seam k := rfl
@[simp] theorem State.modHif_at_port {f : HostIf → HostIf} {k : Nat} : (s.modHif f).port k = s.port k := rfl
@[simp] theorem State.modHif_at_die {f : HostIf → HostIf} {k : Nat} : (s.modHif f).die k = s.die k := rfl
@[simp] theorem State.modHif_at_vfReg {f : HostIf → HostIf} {k o : Nat} : (s.modHif f).vfReg k o = s.vfReg k o := rfl
@[simp] theorem State.modHif_at_rowOwner {f : HostIf → HostIf} {row : Nat} : (s.modHif f).rowOwner row = s.rowOwner row := rfl
@[simp] theorem State.modHif_at_tileOwner {f : HostIf → HostIf} {k : Nat} : (s.modHif f).tileOwner k = s.tileOwner k := rfl

/-! ### modBoard -/

@[simp] theorem State.modBoard_pending {f : Board → Board} : (s.modBoard f).pending = s.pending := rfl
@[simp] theorem State.modBoard_answer {f : Board → Board} : (s.modBoard f).answer = s.answer := rfl
@[simp] theorem State.modBoard_drawn {f : Board → Board} : (s.modBoard f).drawn = s.drawn := rfl
@[simp] theorem State.modBoard_time {f : Board → Board} : (s.modBoard f).time = s.time := rfl
@[simp] theorem State.modBoard_regs {f : Board → Board} : (s.modBoard f).regs = s.regs := rfl
@[simp] theorem State.modBoard_vfRegs {f : Board → Board} : (s.modBoard f).vfRegs = s.vfRegs := rfl
@[simp] theorem State.modBoard_latches {f : Board → Board} : (s.modBoard f).latches = s.latches := rfl
@[simp] theorem State.modBoard_heldLow {f : Board → Board} : (s.modBoard f).heldLow = s.heldLow := rfl
@[simp] theorem State.modBoard_tiles {f : Board → Board} : (s.modBoard f).tiles = s.tiles := rfl
@[simp] theorem State.modBoard_store {f : Board → Board} : (s.modBoard f).store = s.store := rfl
@[simp] theorem State.modBoard_nets {f : Board → Board} : (s.modBoard f).nets = s.nets := rfl
@[simp] theorem State.modBoard_seams {f : Board → Board} : (s.modBoard f).seams = s.seams := rfl
@[simp] theorem State.modBoard_polders {f : Board → Board} : (s.modBoard f).polders = s.polders := rfl
@[simp] theorem State.modBoard_clients {f : Board → Board} : (s.modBoard f).clients = s.clients := rfl
@[simp] theorem State.modBoard_conservators {f : Board → Board} : (s.modBoard f).conservators = s.conservators := rfl
@[simp] theorem State.modBoard_channels {f : Board → Board} : (s.modBoard f).channels = s.channels := rfl
@[simp] theorem State.modBoard_hif {f : Board → Board} : (s.modBoard f).hif = s.hif := rfl
@[simp] theorem State.modBoard_links {f : Board → Board} : (s.modBoard f).links = s.links := rfl
@[simp] theorem State.modBoard_power {f : Board → Board} : (s.modBoard f).power = s.power := rfl
@[simp] theorem State.modBoard_boot {f : Board → Board} : (s.modBoard f).boot = s.boot := rfl
@[simp] theorem State.modBoard_journal {f : Board → Board} : (s.modBoard f).journal = s.journal := rfl
@[simp] theorem State.modBoard_spares {f : Board → Board} : (s.modBoard f).spares = s.spares := rfl
@[simp] theorem State.modBoard_at_reg {f : Board → Board} {b : Nat} : (s.modBoard f).reg b = s.reg b := rfl
@[simp] theorem State.modBoard_at_reg64 {f : Board → Board} {b : Nat} : (s.modBoard f).reg64 b = s.reg64 b := rfl
@[simp] theorem State.modBoard_at_now {f : Board → Board} {dom : Nat} : (s.modBoard f).now dom = s.now dom := rfl
@[simp] theorem State.modBoard_at_tile {f : Board → Board} {k : Nat} : (s.modBoard f).tile k = s.tile k := rfl
@[simp] theorem State.modBoard_at_pld {f : Board → Board} {k : Nat} : (s.modBoard f).pld k = s.pld k := rfl
@[simp] theorem State.modBoard_at_chan {f : Board → Board} {k : Nat} : (s.modBoard f).chan k = s.chan k := rfl
@[simp] theorem State.modBoard_at_cns {f : Board → Board} {k : Nat} : (s.modBoard f).cns k = s.cns k := rfl
@[simp] theorem State.modBoard_at_client {f : Board → Board} {j : Nat} : (s.modBoard f).client j = s.client j := rfl
@[simp] theorem State.modBoard_at_seam {f : Board → Board} {k : Nat} : (s.modBoard f).seam k = s.seam k := rfl
@[simp] theorem State.modBoard_at_port {f : Board → Board} {k : Nat} : (s.modBoard f).port k = s.port k := rfl
@[simp] theorem State.modBoard_at_die {f : Board → Board} {k : Nat} : (s.modBoard f).die k = s.die k := rfl
@[simp] theorem State.modBoard_at_vfReg {f : Board → Board} {k o : Nat} : (s.modBoard f).vfReg k o = s.vfReg k o := rfl
@[simp] theorem State.modBoard_at_rowOwner {f : Board → Board} {row : Nat} : (s.modBoard f).rowOwner row = s.rowOwner row := rfl
@[simp] theorem State.modBoard_at_tileOwner {f : Board → Board} {k : Nat} : (s.modBoard f).tileOwner k = s.tileOwner k := rfl

/-! ### modBoot -/

@[simp] theorem State.modBoot_pending {f : Boot → Boot} : (s.modBoot f).pending = s.pending := rfl
@[simp] theorem State.modBoot_answer {f : Boot → Boot} : (s.modBoot f).answer = s.answer := rfl
@[simp] theorem State.modBoot_drawn {f : Boot → Boot} : (s.modBoot f).drawn = s.drawn := rfl
@[simp] theorem State.modBoot_time {f : Boot → Boot} : (s.modBoot f).time = s.time := rfl
@[simp] theorem State.modBoot_regs {f : Boot → Boot} : (s.modBoot f).regs = s.regs := rfl
@[simp] theorem State.modBoot_vfRegs {f : Boot → Boot} : (s.modBoot f).vfRegs = s.vfRegs := rfl
@[simp] theorem State.modBoot_latches {f : Boot → Boot} : (s.modBoot f).latches = s.latches := rfl
@[simp] theorem State.modBoot_heldLow {f : Boot → Boot} : (s.modBoot f).heldLow = s.heldLow := rfl
@[simp] theorem State.modBoot_tiles {f : Boot → Boot} : (s.modBoot f).tiles = s.tiles := rfl
@[simp] theorem State.modBoot_store {f : Boot → Boot} : (s.modBoot f).store = s.store := rfl
@[simp] theorem State.modBoot_nets {f : Boot → Boot} : (s.modBoot f).nets = s.nets := rfl
@[simp] theorem State.modBoot_seams {f : Boot → Boot} : (s.modBoot f).seams = s.seams := rfl
@[simp] theorem State.modBoot_polders {f : Boot → Boot} : (s.modBoot f).polders = s.polders := rfl
@[simp] theorem State.modBoot_clients {f : Boot → Boot} : (s.modBoot f).clients = s.clients := rfl
@[simp] theorem State.modBoot_conservators {f : Boot → Boot} : (s.modBoot f).conservators = s.conservators := rfl
@[simp] theorem State.modBoot_channels {f : Boot → Boot} : (s.modBoot f).channels = s.channels := rfl
@[simp] theorem State.modBoot_hif {f : Boot → Boot} : (s.modBoot f).hif = s.hif := rfl
@[simp] theorem State.modBoot_links {f : Boot → Boot} : (s.modBoot f).links = s.links := rfl
@[simp] theorem State.modBoot_power {f : Boot → Boot} : (s.modBoot f).power = s.power := rfl
@[simp] theorem State.modBoot_board {f : Boot → Boot} : (s.modBoot f).board = s.board := rfl
@[simp] theorem State.modBoot_journal {f : Boot → Boot} : (s.modBoot f).journal = s.journal := rfl
@[simp] theorem State.modBoot_spares {f : Boot → Boot} : (s.modBoot f).spares = s.spares := rfl
@[simp] theorem State.modBoot_at_reg {f : Boot → Boot} {b : Nat} : (s.modBoot f).reg b = s.reg b := rfl
@[simp] theorem State.modBoot_at_reg64 {f : Boot → Boot} {b : Nat} : (s.modBoot f).reg64 b = s.reg64 b := rfl
@[simp] theorem State.modBoot_at_now {f : Boot → Boot} {dom : Nat} : (s.modBoot f).now dom = s.now dom := rfl
@[simp] theorem State.modBoot_at_tile {f : Boot → Boot} {k : Nat} : (s.modBoot f).tile k = s.tile k := rfl
@[simp] theorem State.modBoot_at_pld {f : Boot → Boot} {k : Nat} : (s.modBoot f).pld k = s.pld k := rfl
@[simp] theorem State.modBoot_at_chan {f : Boot → Boot} {k : Nat} : (s.modBoot f).chan k = s.chan k := rfl
@[simp] theorem State.modBoot_at_cns {f : Boot → Boot} {k : Nat} : (s.modBoot f).cns k = s.cns k := rfl
@[simp] theorem State.modBoot_at_client {f : Boot → Boot} {j : Nat} : (s.modBoot f).client j = s.client j := rfl
@[simp] theorem State.modBoot_at_seam {f : Boot → Boot} {k : Nat} : (s.modBoot f).seam k = s.seam k := rfl
@[simp] theorem State.modBoot_at_port {f : Boot → Boot} {k : Nat} : (s.modBoot f).port k = s.port k := rfl
@[simp] theorem State.modBoot_at_die {f : Boot → Boot} {k : Nat} : (s.modBoot f).die k = s.die k := rfl
@[simp] theorem State.modBoot_at_vfReg {f : Boot → Boot} {k o : Nat} : (s.modBoot f).vfReg k o = s.vfReg k o := rfl
@[simp] theorem State.modBoot_at_rowOwner {f : Boot → Boot} {row : Nat} : (s.modBoot f).rowOwner row = s.rowOwner row := rfl
@[simp] theorem State.modBoot_at_tileOwner {f : Boot → Boot} {k : Nat} : (s.modBoot f).tileOwner k = s.tileOwner k := rfl

/-! ### modJournal -/

@[simp] theorem State.modJournal_pending {f : Journal → Journal} : (s.modJournal f).pending = s.pending := rfl
@[simp] theorem State.modJournal_answer {f : Journal → Journal} : (s.modJournal f).answer = s.answer := rfl
@[simp] theorem State.modJournal_drawn {f : Journal → Journal} : (s.modJournal f).drawn = s.drawn := rfl
@[simp] theorem State.modJournal_time {f : Journal → Journal} : (s.modJournal f).time = s.time := rfl
@[simp] theorem State.modJournal_regs {f : Journal → Journal} : (s.modJournal f).regs = s.regs := rfl
@[simp] theorem State.modJournal_vfRegs {f : Journal → Journal} : (s.modJournal f).vfRegs = s.vfRegs := rfl
@[simp] theorem State.modJournal_latches {f : Journal → Journal} : (s.modJournal f).latches = s.latches := rfl
@[simp] theorem State.modJournal_heldLow {f : Journal → Journal} : (s.modJournal f).heldLow = s.heldLow := rfl
@[simp] theorem State.modJournal_tiles {f : Journal → Journal} : (s.modJournal f).tiles = s.tiles := rfl
@[simp] theorem State.modJournal_store {f : Journal → Journal} : (s.modJournal f).store = s.store := rfl
@[simp] theorem State.modJournal_nets {f : Journal → Journal} : (s.modJournal f).nets = s.nets := rfl
@[simp] theorem State.modJournal_seams {f : Journal → Journal} : (s.modJournal f).seams = s.seams := rfl
@[simp] theorem State.modJournal_polders {f : Journal → Journal} : (s.modJournal f).polders = s.polders := rfl
@[simp] theorem State.modJournal_clients {f : Journal → Journal} : (s.modJournal f).clients = s.clients := rfl
@[simp] theorem State.modJournal_conservators {f : Journal → Journal} : (s.modJournal f).conservators = s.conservators := rfl
@[simp] theorem State.modJournal_channels {f : Journal → Journal} : (s.modJournal f).channels = s.channels := rfl
@[simp] theorem State.modJournal_hif {f : Journal → Journal} : (s.modJournal f).hif = s.hif := rfl
@[simp] theorem State.modJournal_links {f : Journal → Journal} : (s.modJournal f).links = s.links := rfl
@[simp] theorem State.modJournal_power {f : Journal → Journal} : (s.modJournal f).power = s.power := rfl
@[simp] theorem State.modJournal_board {f : Journal → Journal} : (s.modJournal f).board = s.board := rfl
@[simp] theorem State.modJournal_boot {f : Journal → Journal} : (s.modJournal f).boot = s.boot := rfl
@[simp] theorem State.modJournal_spares {f : Journal → Journal} : (s.modJournal f).spares = s.spares := rfl
@[simp] theorem State.modJournal_at_reg {f : Journal → Journal} {b : Nat} : (s.modJournal f).reg b = s.reg b := rfl
@[simp] theorem State.modJournal_at_reg64 {f : Journal → Journal} {b : Nat} : (s.modJournal f).reg64 b = s.reg64 b := rfl
@[simp] theorem State.modJournal_at_now {f : Journal → Journal} {dom : Nat} : (s.modJournal f).now dom = s.now dom := rfl
@[simp] theorem State.modJournal_at_tile {f : Journal → Journal} {k : Nat} : (s.modJournal f).tile k = s.tile k := rfl
@[simp] theorem State.modJournal_at_pld {f : Journal → Journal} {k : Nat} : (s.modJournal f).pld k = s.pld k := rfl
@[simp] theorem State.modJournal_at_chan {f : Journal → Journal} {k : Nat} : (s.modJournal f).chan k = s.chan k := rfl
@[simp] theorem State.modJournal_at_cns {f : Journal → Journal} {k : Nat} : (s.modJournal f).cns k = s.cns k := rfl
@[simp] theorem State.modJournal_at_client {f : Journal → Journal} {j : Nat} : (s.modJournal f).client j = s.client j := rfl
@[simp] theorem State.modJournal_at_seam {f : Journal → Journal} {k : Nat} : (s.modJournal f).seam k = s.seam k := rfl
@[simp] theorem State.modJournal_at_port {f : Journal → Journal} {k : Nat} : (s.modJournal f).port k = s.port k := rfl
@[simp] theorem State.modJournal_at_die {f : Journal → Journal} {k : Nat} : (s.modJournal f).die k = s.die k := rfl
@[simp] theorem State.modJournal_at_vfReg {f : Journal → Journal} {k o : Nat} : (s.modJournal f).vfReg k o = s.vfReg k o := rfl
@[simp] theorem State.modJournal_at_rowOwner {f : Journal → Journal} {row : Nat} : (s.modJournal f).rowOwner row = s.rowOwner row := rfl
@[simp] theorem State.modJournal_at_tileOwner {f : Journal → Journal} {k : Nat} : (s.modJournal f).tileOwner k = s.tileOwner k := rfl

/-! ### modSpares -/

@[simp] theorem State.modSpares_pending {f : Spares → Spares} : (s.modSpares f).pending = s.pending := rfl
@[simp] theorem State.modSpares_answer {f : Spares → Spares} : (s.modSpares f).answer = s.answer := rfl
@[simp] theorem State.modSpares_drawn {f : Spares → Spares} : (s.modSpares f).drawn = s.drawn := rfl
@[simp] theorem State.modSpares_time {f : Spares → Spares} : (s.modSpares f).time = s.time := rfl
@[simp] theorem State.modSpares_regs {f : Spares → Spares} : (s.modSpares f).regs = s.regs := rfl
@[simp] theorem State.modSpares_vfRegs {f : Spares → Spares} : (s.modSpares f).vfRegs = s.vfRegs := rfl
@[simp] theorem State.modSpares_latches {f : Spares → Spares} : (s.modSpares f).latches = s.latches := rfl
@[simp] theorem State.modSpares_heldLow {f : Spares → Spares} : (s.modSpares f).heldLow = s.heldLow := rfl
@[simp] theorem State.modSpares_tiles {f : Spares → Spares} : (s.modSpares f).tiles = s.tiles := rfl
@[simp] theorem State.modSpares_store {f : Spares → Spares} : (s.modSpares f).store = s.store := rfl
@[simp] theorem State.modSpares_nets {f : Spares → Spares} : (s.modSpares f).nets = s.nets := rfl
@[simp] theorem State.modSpares_seams {f : Spares → Spares} : (s.modSpares f).seams = s.seams := rfl
@[simp] theorem State.modSpares_polders {f : Spares → Spares} : (s.modSpares f).polders = s.polders := rfl
@[simp] theorem State.modSpares_clients {f : Spares → Spares} : (s.modSpares f).clients = s.clients := rfl
@[simp] theorem State.modSpares_conservators {f : Spares → Spares} : (s.modSpares f).conservators = s.conservators := rfl
@[simp] theorem State.modSpares_channels {f : Spares → Spares} : (s.modSpares f).channels = s.channels := rfl
@[simp] theorem State.modSpares_hif {f : Spares → Spares} : (s.modSpares f).hif = s.hif := rfl
@[simp] theorem State.modSpares_links {f : Spares → Spares} : (s.modSpares f).links = s.links := rfl
@[simp] theorem State.modSpares_power {f : Spares → Spares} : (s.modSpares f).power = s.power := rfl
@[simp] theorem State.modSpares_board {f : Spares → Spares} : (s.modSpares f).board = s.board := rfl
@[simp] theorem State.modSpares_boot {f : Spares → Spares} : (s.modSpares f).boot = s.boot := rfl
@[simp] theorem State.modSpares_journal {f : Spares → Spares} : (s.modSpares f).journal = s.journal := rfl
@[simp] theorem State.modSpares_at_reg {f : Spares → Spares} {b : Nat} : (s.modSpares f).reg b = s.reg b := rfl
@[simp] theorem State.modSpares_at_reg64 {f : Spares → Spares} {b : Nat} : (s.modSpares f).reg64 b = s.reg64 b := rfl
@[simp] theorem State.modSpares_at_now {f : Spares → Spares} {dom : Nat} : (s.modSpares f).now dom = s.now dom := rfl
@[simp] theorem State.modSpares_at_tile {f : Spares → Spares} {k : Nat} : (s.modSpares f).tile k = s.tile k := rfl
@[simp] theorem State.modSpares_at_pld {f : Spares → Spares} {k : Nat} : (s.modSpares f).pld k = s.pld k := rfl
@[simp] theorem State.modSpares_at_chan {f : Spares → Spares} {k : Nat} : (s.modSpares f).chan k = s.chan k := rfl
@[simp] theorem State.modSpares_at_cns {f : Spares → Spares} {k : Nat} : (s.modSpares f).cns k = s.cns k := rfl
@[simp] theorem State.modSpares_at_client {f : Spares → Spares} {j : Nat} : (s.modSpares f).client j = s.client j := rfl
@[simp] theorem State.modSpares_at_seam {f : Spares → Spares} {k : Nat} : (s.modSpares f).seam k = s.seam k := rfl
@[simp] theorem State.modSpares_at_port {f : Spares → Spares} {k : Nat} : (s.modSpares f).port k = s.port k := rfl
@[simp] theorem State.modSpares_at_die {f : Spares → Spares} {k : Nat} : (s.modSpares f).die k = s.die k := rfl
@[simp] theorem State.modSpares_at_vfReg {f : Spares → Spares} {k o : Nat} : (s.modSpares f).vfReg k o = s.vfReg k o := rfl
@[simp] theorem State.modSpares_at_rowOwner {f : Spares → Spares} {row : Nat} : (s.modSpares f).rowOwner row = s.rowOwner row := rfl
@[simp] theorem State.modSpares_at_tileOwner {f : Spares → Spares} {k : Nat} : (s.modSpares f).tileOwner k = s.tileOwner k := rfl

/-! ### answerError -/

@[simp] theorem State.answerError_pending : s.answerError.pending = s.pending := rfl
@[simp] theorem State.answerError_drawn : s.answerError.drawn = s.drawn := rfl
@[simp] theorem State.answerError_time : s.answerError.time = s.time := rfl
@[simp] theorem State.answerError_regs : s.answerError.regs = s.regs := rfl
@[simp] theorem State.answerError_vfRegs : s.answerError.vfRegs = s.vfRegs := rfl
@[simp] theorem State.answerError_latches : s.answerError.latches = s.latches := rfl
@[simp] theorem State.answerError_heldLow : s.answerError.heldLow = s.heldLow := rfl
@[simp] theorem State.answerError_tiles : s.answerError.tiles = s.tiles := rfl
@[simp] theorem State.answerError_store : s.answerError.store = s.store := rfl
@[simp] theorem State.answerError_nets : s.answerError.nets = s.nets := rfl
@[simp] theorem State.answerError_seams : s.answerError.seams = s.seams := rfl
@[simp] theorem State.answerError_polders : s.answerError.polders = s.polders := rfl
@[simp] theorem State.answerError_clients : s.answerError.clients = s.clients := rfl
@[simp] theorem State.answerError_conservators : s.answerError.conservators = s.conservators := rfl
@[simp] theorem State.answerError_channels : s.answerError.channels = s.channels := rfl
@[simp] theorem State.answerError_hif : s.answerError.hif = s.hif := rfl
@[simp] theorem State.answerError_links : s.answerError.links = s.links := rfl
@[simp] theorem State.answerError_power : s.answerError.power = s.power := rfl
@[simp] theorem State.answerError_board : s.answerError.board = s.board := rfl
@[simp] theorem State.answerError_boot : s.answerError.boot = s.boot := rfl
@[simp] theorem State.answerError_journal : s.answerError.journal = s.journal := rfl
@[simp] theorem State.answerError_spares : s.answerError.spares = s.spares := rfl
@[simp] theorem State.answerError_at_reg  {b : Nat} : s.answerError.reg b = s.reg b := rfl
@[simp] theorem State.answerError_at_reg64  {b : Nat} : s.answerError.reg64 b = s.reg64 b := rfl
@[simp] theorem State.answerError_at_now  {dom : Nat} : s.answerError.now dom = s.now dom := rfl
@[simp] theorem State.answerError_at_tile  {k : Nat} : s.answerError.tile k = s.tile k := rfl
@[simp] theorem State.answerError_at_pld  {k : Nat} : s.answerError.pld k = s.pld k := rfl
@[simp] theorem State.answerError_at_chan  {k : Nat} : s.answerError.chan k = s.chan k := rfl
@[simp] theorem State.answerError_at_cns  {k : Nat} : s.answerError.cns k = s.cns k := rfl
@[simp] theorem State.answerError_at_client  {j : Nat} : s.answerError.client j = s.client j := rfl
@[simp] theorem State.answerError_at_seam  {k : Nat} : s.answerError.seam k = s.seam k := rfl
@[simp] theorem State.answerError_at_port  {k : Nat} : s.answerError.port k = s.port k := rfl
@[simp] theorem State.answerError_at_die  {k : Nat} : s.answerError.die k = s.die k := rfl
@[simp] theorem State.answerError_at_vfReg  {k o : Nat} : s.answerError.vfReg k o = s.vfReg k o := rfl
@[simp] theorem State.answerError_at_rowOwner  {row : Nat} : s.answerError.rowOwner row = s.rowOwner row := rfl
@[simp] theorem State.answerError_at_tileOwner  {k : Nat} : s.answerError.tileOwner k = s.tileOwner k := rfl

/-! ### answerWritten -/

@[simp] theorem State.answerWritten_pending : s.answerWritten.pending = s.pending := rfl
@[simp] theorem State.answerWritten_drawn : s.answerWritten.drawn = s.drawn := rfl
@[simp] theorem State.answerWritten_time : s.answerWritten.time = s.time := rfl
@[simp] theorem State.answerWritten_regs : s.answerWritten.regs = s.regs := rfl
@[simp] theorem State.answerWritten_vfRegs : s.answerWritten.vfRegs = s.vfRegs := rfl
@[simp] theorem State.answerWritten_latches : s.answerWritten.latches = s.latches := rfl
@[simp] theorem State.answerWritten_heldLow : s.answerWritten.heldLow = s.heldLow := rfl
@[simp] theorem State.answerWritten_tiles : s.answerWritten.tiles = s.tiles := rfl
@[simp] theorem State.answerWritten_store : s.answerWritten.store = s.store := rfl
@[simp] theorem State.answerWritten_nets : s.answerWritten.nets = s.nets := rfl
@[simp] theorem State.answerWritten_seams : s.answerWritten.seams = s.seams := rfl
@[simp] theorem State.answerWritten_polders : s.answerWritten.polders = s.polders := rfl
@[simp] theorem State.answerWritten_clients : s.answerWritten.clients = s.clients := rfl
@[simp] theorem State.answerWritten_conservators : s.answerWritten.conservators = s.conservators := rfl
@[simp] theorem State.answerWritten_channels : s.answerWritten.channels = s.channels := rfl
@[simp] theorem State.answerWritten_hif : s.answerWritten.hif = s.hif := rfl
@[simp] theorem State.answerWritten_links : s.answerWritten.links = s.links := rfl
@[simp] theorem State.answerWritten_power : s.answerWritten.power = s.power := rfl
@[simp] theorem State.answerWritten_board : s.answerWritten.board = s.board := rfl
@[simp] theorem State.answerWritten_boot : s.answerWritten.boot = s.boot := rfl
@[simp] theorem State.answerWritten_journal : s.answerWritten.journal = s.journal := rfl
@[simp] theorem State.answerWritten_spares : s.answerWritten.spares = s.spares := rfl
@[simp] theorem State.answerWritten_at_reg  {b : Nat} : s.answerWritten.reg b = s.reg b := rfl
@[simp] theorem State.answerWritten_at_reg64  {b : Nat} : s.answerWritten.reg64 b = s.reg64 b := rfl
@[simp] theorem State.answerWritten_at_now  {dom : Nat} : s.answerWritten.now dom = s.now dom := rfl
@[simp] theorem State.answerWritten_at_tile  {k : Nat} : s.answerWritten.tile k = s.tile k := rfl
@[simp] theorem State.answerWritten_at_pld  {k : Nat} : s.answerWritten.pld k = s.pld k := rfl
@[simp] theorem State.answerWritten_at_chan  {k : Nat} : s.answerWritten.chan k = s.chan k := rfl
@[simp] theorem State.answerWritten_at_cns  {k : Nat} : s.answerWritten.cns k = s.cns k := rfl
@[simp] theorem State.answerWritten_at_client  {j : Nat} : s.answerWritten.client j = s.client j := rfl
@[simp] theorem State.answerWritten_at_seam  {k : Nat} : s.answerWritten.seam k = s.seam k := rfl
@[simp] theorem State.answerWritten_at_port  {k : Nat} : s.answerWritten.port k = s.port k := rfl
@[simp] theorem State.answerWritten_at_die  {k : Nat} : s.answerWritten.die k = s.die k := rfl
@[simp] theorem State.answerWritten_at_vfReg  {k o : Nat} : s.answerWritten.vfReg k o = s.vfReg k o := rfl
@[simp] theorem State.answerWritten_at_rowOwner  {row : Nat} : s.answerWritten.rowOwner row = s.rowOwner row := rfl
@[simp] theorem State.answerWritten_at_tileOwner  {k : Nat} : s.answerWritten.tileOwner k = s.tileOwner k := rfl

/-! ### answerValue -/

@[simp] theorem State.answerValue_pending {w : Word} : (s.answerValue w).pending = s.pending := rfl
@[simp] theorem State.answerValue_drawn {w : Word} : (s.answerValue w).drawn = s.drawn := rfl
@[simp] theorem State.answerValue_time {w : Word} : (s.answerValue w).time = s.time := rfl
@[simp] theorem State.answerValue_regs {w : Word} : (s.answerValue w).regs = s.regs := rfl
@[simp] theorem State.answerValue_vfRegs {w : Word} : (s.answerValue w).vfRegs = s.vfRegs := rfl
@[simp] theorem State.answerValue_latches {w : Word} : (s.answerValue w).latches = s.latches := rfl
@[simp] theorem State.answerValue_heldLow {w : Word} : (s.answerValue w).heldLow = s.heldLow := rfl
@[simp] theorem State.answerValue_tiles {w : Word} : (s.answerValue w).tiles = s.tiles := rfl
@[simp] theorem State.answerValue_store {w : Word} : (s.answerValue w).store = s.store := rfl
@[simp] theorem State.answerValue_nets {w : Word} : (s.answerValue w).nets = s.nets := rfl
@[simp] theorem State.answerValue_seams {w : Word} : (s.answerValue w).seams = s.seams := rfl
@[simp] theorem State.answerValue_polders {w : Word} : (s.answerValue w).polders = s.polders := rfl
@[simp] theorem State.answerValue_clients {w : Word} : (s.answerValue w).clients = s.clients := rfl
@[simp] theorem State.answerValue_conservators {w : Word} : (s.answerValue w).conservators = s.conservators := rfl
@[simp] theorem State.answerValue_channels {w : Word} : (s.answerValue w).channels = s.channels := rfl
@[simp] theorem State.answerValue_hif {w : Word} : (s.answerValue w).hif = s.hif := rfl
@[simp] theorem State.answerValue_links {w : Word} : (s.answerValue w).links = s.links := rfl
@[simp] theorem State.answerValue_power {w : Word} : (s.answerValue w).power = s.power := rfl
@[simp] theorem State.answerValue_board {w : Word} : (s.answerValue w).board = s.board := rfl
@[simp] theorem State.answerValue_boot {w : Word} : (s.answerValue w).boot = s.boot := rfl
@[simp] theorem State.answerValue_journal {w : Word} : (s.answerValue w).journal = s.journal := rfl
@[simp] theorem State.answerValue_spares {w : Word} : (s.answerValue w).spares = s.spares := rfl
@[simp] theorem State.answerValue_at_reg {w : Word} {b : Nat} : (s.answerValue w).reg b = s.reg b := rfl
@[simp] theorem State.answerValue_at_reg64 {w : Word} {b : Nat} : (s.answerValue w).reg64 b = s.reg64 b := rfl
@[simp] theorem State.answerValue_at_now {w : Word} {dom : Nat} : (s.answerValue w).now dom = s.now dom := rfl
@[simp] theorem State.answerValue_at_tile {w : Word} {k : Nat} : (s.answerValue w).tile k = s.tile k := rfl
@[simp] theorem State.answerValue_at_pld {w : Word} {k : Nat} : (s.answerValue w).pld k = s.pld k := rfl
@[simp] theorem State.answerValue_at_chan {w : Word} {k : Nat} : (s.answerValue w).chan k = s.chan k := rfl
@[simp] theorem State.answerValue_at_cns {w : Word} {k : Nat} : (s.answerValue w).cns k = s.cns k := rfl
@[simp] theorem State.answerValue_at_client {w : Word} {j : Nat} : (s.answerValue w).client j = s.client j := rfl
@[simp] theorem State.answerValue_at_seam {w : Word} {k : Nat} : (s.answerValue w).seam k = s.seam k := rfl
@[simp] theorem State.answerValue_at_port {w : Word} {k : Nat} : (s.answerValue w).port k = s.port k := rfl
@[simp] theorem State.answerValue_at_die {w : Word} {k : Nat} : (s.answerValue w).die k = s.die k := rfl
@[simp] theorem State.answerValue_at_vfReg {w : Word} {k o : Nat} : (s.answerValue w).vfReg k o = s.vfReg k o := rfl
@[simp] theorem State.answerValue_at_rowOwner {w : Word} {row : Nat} : (s.answerValue w).rowOwner row = s.rowOwner row := rfl
@[simp] theorem State.answerValue_at_tileOwner {w : Word} {k : Nat} : (s.answerValue w).tileOwner k = s.tileOwner k := rfl

/-! ### What an updater writes -/

@[simp] theorem State.modStore_store {f : Store → Store} : (s.modStore f).store = f s.store := rfl
@[simp] theorem State.modNets_nets {f : Nets → Nets} : (s.modNets f).nets = f s.nets := rfl
@[simp] theorem State.modHif_hif {f : HostIf → HostIf} : (s.modHif f).hif = f s.hif := rfl
@[simp] theorem State.modBoard_board {f : Board → Board} : (s.modBoard f).board = f s.board := rfl
@[simp] theorem State.modBoot_boot {f : Boot → Boot} : (s.modBoot f).boot = f s.boot := rfl
@[simp] theorem State.modJournal_journal {f : Journal → Journal} : (s.modJournal f).journal = f s.journal := rfl
@[simp] theorem State.modSpares_spares {f : Spares → Spares} : (s.modSpares f).spares = f s.spares := rfl
@[simp] theorem State.modLinks_links {f : Links → Links} : (s.modLinks f).links = f s.links := rfl
@[simp] theorem State.answerError_answer : s.answerError.answer = .error := rfl
@[simp] theorem State.answerWritten_answer : s.answerWritten.answer = .written := rfl
@[simp] theorem State.answerValue_answer {w : Word} : (s.answerValue w).answer = .value w := rfl

/-! ### Reads after a write, over sorted tables -/

/-- A register reads what was written to it, and every other register as before. -/
theorem State.reg_setReg (h : Table.Sorted s.regs) (a : Nat) (w : Word) (b : Nat) :
    (s.setReg a w).reg b = if b = a then w else s.reg b := by
  unfold State.setReg State.reg
  split
  · subst_vars; exact Table.get_put_self _ h _ w
  · exact Table.get_put_ne _ _ h (by assumption) w

theorem State.setReg_sorted (h : Table.Sorted s.regs) {a : Nat} {w : Word} : Table.Sorted (s.setReg a w).regs :=
  Table.sorted_put h _ _ _

theorem State.vfReg_setVfReg (h : Table.Sorted s.vfRegs) {p off k o : Nat} (w : Word) (ho : off < 4096) (ho' : o < 4096) :
    (s.setVfReg p off w).vfReg k o = if k = p ∧ o = off then w else s.vfReg k o := by
  unfold State.setVfReg State.vfReg
  by_cases hk : k = p ∧ o = off
  · obtain ⟨rfl, rfl⟩ := hk
    simp only [and_self, if_true]
    exact Table.get_put_self _ h _ w
  · rw [if_neg hk]
    exact Table.get_put_ne _ _ h (by omega) w

theorem State.setVfReg_sorted (h : Table.Sorted s.vfRegs) {p off : Nat} {w : Word} : Table.Sorted (s.setVfReg p off w).vfRegs :=
  Table.sorted_put h _ _ _

theorem State.tile_modTile (h : Table.Sorted s.tiles) (n : Nat) (f : Tile → Tile) (j : Nat) :
    (s.modTile n f).tile j = if j = n then f (s.tile n) else s.tile j := by
  unfold State.modTile State.tile
  split
  · subst_vars; exact Table.get_put_self _ h _ _
  · exact Table.get_put_ne _ _ h (by assumption) _

theorem State.modTile_sorted (h : Table.Sorted s.tiles) {n : Nat} {f : Tile → Tile} : Table.Sorted (s.modTile n f).tiles :=
  Table.sorted_put h _ _ _

theorem State.pld_modPld (h : Table.Sorted s.polders) (n : Nat) (f : Polder → Polder) (j : Nat) :
    (s.modPld n f).pld j = if j = n then f (s.pld n) else s.pld j := by
  unfold State.modPld State.pld
  split
  · subst_vars; exact Table.get_put_self _ h _ _
  · exact Table.get_put_ne _ _ h (by assumption) _

theorem State.modPld_sorted (h : Table.Sorted s.polders) {n : Nat} {f : Polder → Polder} : Table.Sorted (s.modPld n f).polders :=
  Table.sorted_put h _ _ _

theorem State.chan_modChan (h : Table.Sorted s.channels) (n : Nat) (f : Channel → Channel) (j : Nat) :
    (s.modChan n f).chan j = if j = n then f (s.chan n) else s.chan j := by
  unfold State.modChan State.chan
  split
  · subst_vars; exact Table.get_put_self _ h _ _
  · exact Table.get_put_ne _ _ h (by assumption) _

theorem State.modChan_sorted (h : Table.Sorted s.channels) {n : Nat} {f : Channel → Channel} : Table.Sorted (s.modChan n f).channels :=
  Table.sorted_put h _ _ _

theorem State.cns_modCns (h : Table.Sorted s.conservators) (n : Nat) (f : Conservator → Conservator) (j : Nat) :
    (s.modCns n f).cns j = if j = n then f (s.cns n) else s.cns j := by
  unfold State.modCns State.cns
  split
  · subst_vars; exact Table.get_put_self _ h _ _
  · exact Table.get_put_ne _ _ h (by assumption) _

theorem State.modCns_sorted (h : Table.Sorted s.conservators) {n : Nat} {f : Conservator → Conservator} : Table.Sorted (s.modCns n f).conservators :=
  Table.sorted_put h _ _ _

theorem State.client_modClient (h : Table.Sorted s.clients) (n : Nat) (f : Client → Client) (j : Nat) :
    (s.modClient n f).client j = if j = n then f (s.client n) else s.client j := by
  unfold State.modClient State.client
  split
  · subst_vars; exact Table.get_put_self _ h _ _
  · exact Table.get_put_ne _ _ h (by assumption) _

theorem State.modClient_sorted (h : Table.Sorted s.clients) {n : Nat} {f : Client → Client} : Table.Sorted (s.modClient n f).clients :=
  Table.sorted_put h _ _ _

theorem State.seam_modSeam (h : Table.Sorted s.seams) (n : Nat) (f : Seam → Seam) (j : Nat) :
    (s.modSeam n f).seam j = if j = n then f (s.seam n) else s.seam j := by
  unfold State.modSeam State.seam
  split
  · subst_vars; exact Table.get_put_self _ h _ _
  · exact Table.get_put_ne _ _ h (by assumption) _

theorem State.modSeam_sorted (h : Table.Sorted s.seams) {n : Nat} {f : Seam → Seam} : Table.Sorted (s.modSeam n f).seams :=
  Table.sorted_put h _ _ _

theorem State.die_modDie (h : Table.Sorted s.power) (n : Nat) (f : DiePower → DiePower) (j : Nat) :
    (s.modDie n f).die j = if j = n then f (s.die n) else s.die j := by
  unfold State.modDie State.die
  split
  · subst_vars; exact Table.get_put_self _ h _ _
  · exact Table.get_put_ne _ _ h (by assumption) _

theorem State.modDie_sorted (h : Table.Sorted s.power) {n : Nat} {f : DiePower → DiePower} : Table.Sorted (s.modDie n f).power :=
  Table.sorted_put h _ _ _

theorem State.port_modPort (h : Table.Sorted s.links.ports) (n : Nat) (f : Port → Port) (j : Nat) :
    (s.modPort n f).port j = if j = n then f (s.port n) else s.port j := by
  show Table.get default (Table.put default s.links.ports n (f (s.port n))) j = _
  split
  · subst_vars; exact Table.get_put_self _ h _ _
  · exact Table.get_put_ne _ _ h (by assumption) _

theorem State.modPort_sorted (h : Table.Sorted s.links.ports) {n : Nat} {f : Port → Port} : Table.Sorted (s.modPort n f).links.ports :=
  Table.sorted_put h _ _ _

theorem State.tile_modTcc (h : Table.Sorted s.tiles) (n : Nat) (f : Tcc → Tcc) (j : Nat) :
    (s.modTcc n f).tile j = if j = n then { s.tile n with tcc := f (s.tile n).tcc } else s.tile j :=
  State.tile_modTile h n _ j

theorem State.tile_modEngine (h : Table.Sorted s.tiles) (n q : Nat) (f : Engine → Engine) (j : Nat) :
    (s.modEngine n q f).tile j = if j = n then (s.tile n).modEngine q f else s.tile j :=
  State.tile_modTile h n _ j

theorem Tile.engine_modEngine {x : Tile} (h : Table.Sorted x.engines) (q : Nat) (f : Engine → Engine) (j : Nat) :
    (x.modEngine q f).engine j = if j = q then f (x.engine q) else x.engine j := by
  unfold Tile.modEngine Tile.engine
  split
  · subst_vars; exact Table.get_put_self _ h _ _
  · exact Table.get_put_ne _ _ h (by assumption) _

theorem Tile.ctr_setCtr {x : Tile} (h : Table.Sorted x.ctrs) (c : Nat) (v : Word) (j : Nat) :
    (x.setCtr c v).ctr j = if j = c then v else x.ctr j := by
  unfold Tile.setCtr Tile.ctr
  split
  · subst_vars; exact Table.get_put_self _ h _ _
  · exact Table.get_put_ne _ _ h (by assumption) _

/-- A 64-bit register reads, modulo 2^64, the number written to it. -/
theorem State.reg64_setReg64 (h : Table.Sorted s.regs) (a n : Nat) : (s.setReg64 a n).reg64 a = n % 2 ^ 64 := by
  unfold State.setReg64 State.reg64
  rw [State.reg_setReg (State.setReg_sorted h), State.reg_setReg (State.setReg_sorted h), State.reg_setReg h]
  simp only [if_true, show a ≠ a + 4 by omega, if_false, wordOf, BitVec.toNat_ofNat]
  omega

theorem State.reg_setReg64 (h : Table.Sorted s.regs) {a n b : Nat} (h1 : b ≠ a) (h2 : b ≠ a + 4) :
    (s.setReg64 a n).reg b = s.reg b := by
  unfold State.setReg64
  rw [State.reg_setReg (State.setReg_sorted h), State.reg_setReg h]
  simp [h1, h2]

/-! ### The form of a state under its updaters -/

theorem State.setReg_wf (h : s.Wf) {a : Nat} {w : Word} : (s.setReg a w).Wf := { h with regs := Table.sorted_put h.regs _ _ _ }
theorem State.setReg64_wf (h : s.Wf) {a n : Nat} : (s.setReg64 a n).Wf := State.setReg_wf (State.setReg_wf h)
theorem State.bump_wf (h : s.Wf) {a n : Nat} : (s.bump a n).Wf := State.setReg_wf h
theorem State.bumpSat_wf (h : s.Wf) {a n : Nat} : (s.bumpSat a n).Wf := State.setReg_wf h
theorem State.bump64_wf (h : s.Wf) {a n : Nat} : (s.bump64 a n).Wf := State.setReg64_wf h
theorem State.setVfReg_wf (h : s.Wf) {p off : Nat} {w : Word} : (s.setVfReg p off w).Wf := { h with vfRegs := Table.sorted_put h.vfRegs _ _ _ }
theorem State.modTile_wf (h : s.Wf) {t : Nat} {f : Tile → Tile} (hf : (f (s.tile t)).Wf) : (s.modTile t f).Wf :=
  { h with
    tiles := Table.sorted_put h.tiles _ _ _
    tile := fun k => by
      rw [State.tile_modTile h.tiles]
      split
      · exact hf
      · exact h.tile k }
theorem State.modTcc_wf (h : s.Wf) {t : Nat} {f : Tcc → Tcc} (hf : (f (s.tile t).tcc).Wf) : (s.modTcc t f).Wf :=
  State.modTile_wf h ⟨hf, (h.tile t).2⟩
theorem State.modEngine_wf (h : s.Wf) {t q : Nat} {f : Engine → Engine} : (s.modEngine t q f).Wf :=
  State.modTile_wf h (Tile.modEngine_wf (h.tile t))
theorem State.retire_wf (h : s.Wf) {t : Nat} {f : Tcc → Tcc} (hf : (f (s.tile t).tcc).Wf) : (s.retire t f).Wf :=
  State.bump64_wf (State.modTcc_wf h hf)
theorem State.modPld_wf (h : s.Wf) {p : Nat} {f : Polder → Polder} : (s.modPld p f).Wf := { h with polders := Table.sorted_put h.polders _ _ _ }
theorem State.modCns_wf (h : s.Wf) {n : Nat} {f : Conservator → Conservator} : (s.modCns n f).Wf :=
  { h with conservators := Table.sorted_put h.conservators _ _ _ }
theorem State.modClient_wf (h : s.Wf) {n : Nat} {f : Client → Client} : (s.modClient n f).Wf := { h with clients := Table.sorted_put h.clients _ _ _ }
theorem State.modSeam_wf (h : s.Wf) {n : Nat} {f : Seam → Seam} : (s.modSeam n f).Wf := { h with seams := Table.sorted_put h.seams _ _ _ }
theorem State.modPort_wf (h : s.Wf) {n : Nat} {f : Port → Port} : (s.modPort n f).Wf := { h with ports := Table.sorted_put h.ports _ _ _ }
theorem State.modDie_wf (h : s.Wf) {d : Nat} {f : DiePower → DiePower} : (s.modDie d f).Wf := { h with power := Table.sorted_put h.power _ _ _ }
theorem State.modStore_wf (h : s.Wf) {f : Store → Store} (hf : (f s.store).Wf) : (s.modStore f).Wf := { h with store := hf }
theorem State.modNets_wf (h : s.Wf) {f : Nets → Nets} : (s.modNets f).Wf := { h with }
theorem State.modHif_wf (h : s.Wf) {f : HostIf → HostIf} : (s.modHif f).Wf := { h with }
theorem State.modBoard_wf (h : s.Wf) {f : Board → Board} : (s.modBoard f).Wf := { h with }
theorem State.modBoot_wf (h : s.Wf) {f : Boot → Boot} : (s.modBoot f).Wf := { h with }
theorem State.modJournal_wf (h : s.Wf) {f : Journal → Journal} : (s.modJournal f).Wf := { h with }
theorem State.modSpares_wf (h : s.Wf) {f : Spares → Spares} : (s.modSpares f).Wf := { h with }
theorem State.answerError_wf (h : s.Wf) : s.answerError.Wf := { h with }
theorem State.answerWritten_wf (h : s.Wf) : s.answerWritten.Wf := { h with }
theorem State.answerValue_wf (h : s.Wf) {w : Word} : (s.answerValue w).Wf := { h with }

end Sys2Proof.Machine
end

