-- ==== Sys2Proof/Laws/Tcc.lean ====
section
/-!
SUPPORT. The tile control core: its registers, what retiring an instruction changes, and what an instruction that issues does.
-/

-- one proof at a time: the package as one text would start more threads than its memory limit allows
set_option Elab.async false

namespace Sys2Proof.Machine

variable {s : State} {x : Tcc}

/-- Scalar register 0 reads 0, a written register reads its value, and every other one as before. -/
theorem Tcc.s_setS (h : Table.Sorted x.sregs) (i : BitVec 5) (v : Word) (j : BitVec 5) :
    (x.setS i v).s j = if j = 0 then 0 else if j = i then v else x.s j := by
  unfold Tcc.setS Tcc.s
  by_cases hj : j = 0
  · simp [hj]
  · by_cases hi : i = 0
    · subst hi; simp only [if_true, if_neg hj]
    · simp only [hj, hi, if_false]
      rw [Table.get_put 0 h]
      by_cases e : j = i
      · simp [e]
      · simp [e, BitVec.toNat_inj]

/-- Predicate 0 reads 1, a written predicate reads its value, and every other one as before. -/
theorem Tcc.p_setP (h : Table.Sorted x.pregs) (i : BitVec 3) (v : Bool) (j : BitVec 3) :
    (x.setP i v).p j = if j = 0 then true else if j = i then v else x.p j := by
  unfold Tcc.setP Tcc.p
  by_cases hj : j = 0
  · simp [hj]
  · by_cases hi : i = 0
    · subst hi; simp only [if_true, if_neg hj]
    · simp only [hj, hi, if_false]
      rw [Table.get_put false h]
      by_cases e : j = i
      · simp [e]
      · simp [e, BitVec.toNat_inj]

/-- Retiring an instruction changes its core, as the function says, and the count of retired instructions. -/
theorem State.retire_retired (h : s.Wf) (n : Nat) (f : Tcc → Tcc) : s.Retired n (f (s.tile n).tcc) (s.retire n f) where
  tile := State.bump64_at_tile.trans ((State.tile_modTcc h.tiles n f n).trans (if_pos rfl))
  others k hk := State.bump64_at_tile.trans ((State.tile_modTcc h.tiles n f k).trans (if_neg hk))
  count := by
    unfold State.retire State.bump64
    rw [State.reg64_setReg64 (by simpa using h.regs)]
    simp
  regs a h1 h2 := by
    unfold State.retire State.bump64
    rw [State.reg_setReg64 (by simpa using h.regs) h1 (by simpa [tilReg] using h2)]
    simp
  rest := by
    unfold State.retire State.bump64 State.setReg64 State.setReg State.modTcc State.modTile
    rfl

/-- The same, where the core's new state is given. -/
theorem State.retire_as (h : s.Wf) {n : Nat} {f : Tcc → Tcc} (e : f (s.tile n).tcc = x) : s.Retired n x (s.retire n f) :=
  e ▸ State.retire_retired h n f

/-- An instruction that does not branch and whose guard reads 1 issues. -/
theorem State.tcc_issues {n : TileId} {g : Guard} {op : TccOp} (h : s.Issues n.toNat g op) (hb : op.branches = false)
    (granted : Bool) (ecc : RowEcc) : s.tcc n g op granted ecc = s.issue n.toNat op granted ecc := by
  simp [State.tcc, State.guarded, h.ready, h.guard, hb]

end Sys2Proof.Machine
end

