-- ==== Sys2Proof/WellFormed.lean ====
section
/-!
DEFINITION. Which commands can come about: the ranges that the manual gives their operands and that their types do not say.
-/

namespace Sys2Proof

/-- A message has at most 4 096 payload bytes (R384). -/
def LinkMsg.wf (m : LinkMsg) : Bool := decide (m.payload.length ≤ 4096)

/-- A frame is one of the 40 960 of a device (R169). -/
def frameOk (f : Half) : Bool := decide (f.toNat < 40960)

def MaintFindings.wf (f : MaintFindings) : Bool :=
  f.hbmFrames.all (fun x => frameOk x.2) && f.depotFrames.all (fun x => frameOk x.2) &&
  f.hbmRepaired.all (fun x => frameOk x.2) && f.depotRepaired.all (fun x => frameOk x.2) && f.corrected.all (fun x => frameOk x.2.2.1) &&
  f.pause != some 0

/-- The address of a page (R5). -/
def pageOk (page : BitVec 28) : Bool := page.toNat % 4096 == 0

/-- The commands that can come about. -/
def Instr.wf : Instr → Bool
  | .alu _ _ _ _ _ _ => true
  | .addi _ _ _ _ _ => true
  | .andi _ _ _ _ _ => true
  | .ori _ _ _ _ _ => true
  | .xori _ _ _ _ _ => true
  | .shi _ _ _ _ _ => true
  | .movi _ _ _ _ => true
  | .lui _ _ _ _ => true
  | .ldw _ _ _ _ _ => true
  | .stw _ _ _ _ _ => true
  | .cmp _ _ _ _ _ _ => true
  | .plog _ _ _ _ _ _ => true
  | .br _ _ _ => true
  | .call _ _ _ => true
  | .jr _ _ _ => true
  | .cmd _ _ _ _ => true
  | .waitev _ _ _ _ => true
  | .sigev _ _ _ _ => true
  | .fence _ _ _ => true
  | .spxr _ _ _ _ _ _ => true
  | .spxw _ _ _ _ _ => true
  | .rdcsr _ _ _ _ => true
  | .halt _ _ => true
  | .stallEnd _ => true
  | .tccDone _ => true
  | .waitGrant _ => true
  | .commandCompletion _ q => q != 7
  | .signal _ => true
  | .mark _ => true
  | .signalArrival _ => true
  | .maLoad _ _ => true
  | .swap _ => true
  | .pass _ _ => true
  | .setmode _ => true
  | .setout _ => true
  | .arrayGate _ => true
  | .bspass _ _ => true
  | .bssetmode _ => true
  | .bssetout _ => true
  | .vprog _ _ => true
  | .vstrm _ => true
  | .vsetout _ => true
  | .vrun _ _ => true
  | .vcomb _ _ => true
  | .vflush _ => true
  | .dmaLoad _ _ => true
  | .dmaStore _ _ => true
  | .gstream _ => true
  | .grun _ _ => true
  | .requestIssue _ q _ _ => q == 3 || q == 4 || q == 5
  | .tableWalk _ _ => true
  | .memoryAccess _ _ => true
  | .mergeWindowClose _ _ _ => true
  | .responseArrival _ => true
  | .accumulateWrite _ _ => true
  | .seepageWindowClose _ => true
  | .translationEditComplete _ => true
  | .seamCrcError _ _ => true
  | .seamLaneLoss _ _ lane => decide (lane.toNat < 1664)
  | .seamTraining _ _ => true
  | .memoryControllerFailure depot n => !depot || decide (n.val < 8)
  | .heartbeatTimeout _ => true
  | .create _ => true
  | .catalogueVerification _ _ => true
  | .retire _ => true
  | .teardown _ => true
  | .clientClear _ => true
  | .faultCause _ => true
  | .clearing _ => true
  | .jobCompletion _ => true
  | .watchdogExpiry _ _ => true
  | .sharedDescriptorStart _ _ _ => true
  | .hostCompletion _ _ => true
  | .completionTimeout _ => true
  | .submissionEntry _ => true
  | .slotStart _ => true
  | .checkpointDeadline _ => true
  | .ledgerEntry _ => true
  | .nonFiniteEvent _ => true
  | .openMsg _ m _ _ => m.wf
  | .dataMsg _ m _ => m.wf
  | .doneMsg _ m _ _ _ => m.wf
  | .sealSlice _ _ _ => true
  | .token _ m => m.wf
  | .final _ m => m.wf
  | .stepVerdict _ => true
  | .conservatorDescriptorStart _ _ => true
  | .conservatorDescriptorDone _ _ => true
  | .stepCommit _ => true
  | .intake _ _ => true
  | .stepBoundary _ => true
  | .pageMoveComplete _ => true
  | .tableRowCopy _ _ => true
  | .jobStart _ _ => true
  | .rowWave _ _ => true
  | .hostReg _ _ => true
  | .hostRel _ => true
  | .catPolicy _ => true
  | .keyAdd _ => true
  | .keyRemove _ => true
  | .restart _ => true
  | .shutdown _ => true
  | .svnCommit _ => true
  | .attest _ => true
  | .reportRead _ => true
  | .certRead _ => true
  | .refurb _ _ => true
  | .mbxDb _ _ _ => true
  | .mailboxBufferWrite _ _ _ _ => true
  | .release _ _ _ => true
  | .mailboxAck _ => true
  | .i3cRequest _ _ body => decide (body.length ≤ 256)
  | .spdmRequest _ => true
  | .vfSqTail _ _ => true
  | .vfCqHead _ _ => true
  | .vfQueueConfigWrite _ _ _ => true
  | .pciFrHead _ => true
  | .vfEnable _ numVfs => decide (numVfs.toNat ≤ 16)
  | .vfFlr _ => true
  | .pf0Flr => true
  | .pcieLinkDown => true
  | .perstN _ => true
  | .stgBegin => true
  | .stgChunk _ data => decide (data.length ≤ 16384)
  | .stgCommit => true
  | .imageVerification => true
  | .bringUp _ => true
  | .crossCheck _ => true
  | .coldStart _ => true
  | .vinGood => true
  | .vinLoss => true
  | .vauxLoss => true
  | .vinUndervoltage => true
  | .undervoltageEnd => true
  | .sysclkLoss => true
  | .throttleNEdge _ => true
  | .throttleAccept => true
  | .throttleRelease => true
  | .throttleStable => true
  | .throttleHeldReport => true
  | .powerWindow _ _ => true
  | .thermalEvaluation _ _ _ _ => true
  | .thermtrip _ _ => true
  | .regulatorFault _ _ => true
  | .acStepUp _ => true
  | .prtCtl _ _ => true
  | .portTraining _ _ => true
  | .ident _ _ _ => true
  | .identTimeout _ => true
  | .portRetry _ => true
  | .linkSignalLoss _ _ => true
  | .linkFlitCrcError _ => true
  | .linkNak _ _ => true
  | .linkAckTimeout _ => true
  | .resendTimeout _ _ => true
  | .pfcPause _ _ => true
  | .write _ m => m.wf
  | .credit _ m _ => m.wf
  | .ack _ m => m.wf
  | .alarm _ _ _ _ => true
  | .sendDescriptor _ _ => true
  | .spareSubstitution _ _ => true
  | .partWideMaintenance f => f.wf
  | .usageInterval => true
  | .bypass _ => true
  | .idcode => true
  | .samplePreload _ => true
  | .extest _ => true
  | .tilCtlStart _ => true
  | .tilCtlStep _ => true
  | .freeze page _ => pageOk page
  | .blkCtlReset page => pageOk page
  | .blkIrqStsClear page _ => pageOk page
  | .blkIrqForce page _ => pageOk page
  | .pldWdLimit _ _ => true
  | .pwrCap _ => true
  | .readClear _ addr => addr.size == 1 || addr.size == 2 || addr.size == 4 || addr.size == 8
  | .lowWordRead _ addr => addr.size == 1 || addr.size == 2 || addr.size == 4 || addr.size == 8
  | .registerWrite _ _ size _ => size == 1 || size == 2 || size == 4 || size == 8
  | .heartbeat _ => true
  | .nullFlit _ _ _ _ _ => true
  | .pfcPauseEnd _ _ => true
  | .lanePllLock _ => true
  | .lrefclkLoss _ => true

end Sys2Proof
end

