-- ==== Sys2Proof/Tests/Slice0.lean ====
section
/-!
SUPPORT. Tests: ill-formed commands are refused, worked examples of the manual, and for each statement a state that meets its
hypotheses.
-/

-- one proof at a time: the package as one text would start more threads than its memory limit allows
set_option Elab.async false

namespace Sys2Proof.Tests

open Sys2Proof.Machine

/-! ### Well-formed commands -/

def badMsg : LinkMsg := { (default : LinkMsg) with payload := List.replicate 4097 0 }

def noFindings : MaintFindings := { tiles := [], hbmFrames := [], depotFrames := [], hbmRepaired := [], depotRepaired := [] }

/-- The header of a management message to channel k of the part whose ID_SEL is 0 (R467). -/
def head (k : BitVec 3) : MctpHead := { addr := 0x50, type := 0x7F, vendor := Config.enterprise, chan := k }

set_option maxRecDepth 20000 in
/-- One ill-formed command for each check. -/
theorem test_ill_formed_commands : ∀ c ∈ [
    Instr.commandCompletion 0 7, .requestIssue 0 2 0 .clean, .requestIssue 0 6 0 .clean, .seamLaneLoss 0 false 1664, .memoryControllerFailure true 8,
    .readClear .i3c ⟨0, 3⟩, .lowWordRead .i3c ⟨0, 0⟩, .i3cRequest (head 0) 0 (List.replicate 257 0), .vfEnable true 17,
    .partWideMaintenance { noFindings with hbmFrames := [(0, 40960)] }, .partWideMaintenance { noFindings with depotFrames := [(0, 40960)] },
    .partWideMaintenance { noFindings with hbmRepaired := [(0, 40960)] }, .partWideMaintenance { noFindings with depotRepaired := [(0, 40960)] },
    .partWideMaintenance { noFindings with corrected := [(false, 0, 40960, 0)] }, .partWideMaintenance { noFindings with pause := some 0 },
    .freeze 4 true, .blkCtlReset 4, .blkIrqStsClear 4 0, .blkIrqForce 4 0, .registerWrite (.pf0 none) 0 3 0], c.wf = false := by
  decide

theorem badMsg_length : badMsg.payload.length = 4097 := List.length_replicate

/-- One byte beyond the longest payload or chunk. -/
theorem test_ill_formed_lengths :
    (Instr.stgChunk 0 (List.replicate 16385 0)).wf = false ∧
    ∀ c ∈ [Instr.openMsg none badMsg 0 0, .dataMsg none badMsg .clean, .doneMsg none badMsg 0 0 0, .token none badMsg, .final none badMsg,
      .write 0 badMsg, .credit 0 badMsg false, .ack 0 badMsg], c.wf = false := by
  simp only [Instr.wf, LinkMsg.wf, List.length_replicate, List.mem_cons, List.not_mem_nil, or_false]
  refine ⟨by decide, ?_⟩
  rintro c (rfl | rfl | rfl | rfl | rfl | rfl | rfl | rfl) <;> simp only [badMsg_length] <;> decide

set_option maxRecDepth 20000 in
theorem test_well_formed_boundaries : ∀ c ∈ [
    Instr.commandCompletion 0 6, .requestIssue 0 3 0 .clean, .seamLaneLoss 0 false 1663, .memoryControllerFailure true 7,
    .readClear .i3c ⟨0, 1⟩, .lowWordRead .i3c ⟨0, 8⟩, .i3cRequest (head 0) 0 (List.replicate 256 0), .vfEnable true 16, .freeze 4096 true,
    .registerWrite (.pf0 none) 0 8 0], c.wf = true := by
  decide

/-! ### States in the right form -/

def sortedB (t : Table α) : Bool := decide (t.Pairwise (fun a b => a.1 < b.1))

def tileB (x : Tile) : Bool :=
  sortedB x.tcc.sregs && sortedB x.tcc.pregs && sortedB x.tcc.bht && sortedB x.ctrs && sortedB x.engines && sortedB x.ma.acc &&
  sortedB x.bse.acc && sortedB x.vu.cacc && sortedB x.ge

def storeB (m : Store) : Bool :=
  m.hbm.wf && m.depot.wf && m.col.wf && m.spad.wf && m.dstore.wf && m.istore.wf && m.host.wf &&
  decide (m.reqs.Pairwise (fun a b => a.id ≠ b.id)) && m.reqs.all (fun r => decide (r.id < m.nextReq) && decide (r.tile < 256) && decide (r.polder < 32))

/-- The form of a state, as a program checks it. -/
def wfB (s : State) : Bool :=
  storeB s.store && sortedB s.time && sortedB s.regs && sortedB s.vfRegs && sortedB s.latches && sortedB s.heldLow && sortedB s.tiles &&
  s.tiles.all (fun e => tileB e.2) && sortedB s.polders && sortedB s.clients && sortedB s.conservators && sortedB s.channels &&
  s.channels.all (fun e => sortedB e.2.buf) && sortedB s.seams && sortedB s.power && sortedB s.links.ports && sortedB s.links.slots

theorem tile_wf {x : Tile} (h : tileB x = true) : x.Wf := by
  simp only [tileB, sortedB, Bool.and_eq_true, decide_eq_true_eq] at h
  obtain ⟨⟨⟨⟨⟨⟨⟨⟨h1, h2⟩, h3⟩, h4⟩, h5⟩, h6⟩, h7⟩, h8⟩, h9⟩ := h
  exact ⟨⟨h1, h2, h3⟩, h4, h5, h6, h7, h8, h9⟩

theorem get_mem {α : Type} (P : α → Prop) (d : α) (hd : P d) (t : Table α) (h : ∀ e ∈ t, P e.2) (k : Nat) : P (Table.get d t k) := by
  induction t with
  | nil => exact hd
  | cons e t ih =>
    unfold Table.get
    split
    · exact h e (.head _)
    · split
      · exact hd
      · exact ih (fun x hx => h x (.tail _ hx))

theorem store_wf {m : Store} (h : storeB m = true) : m.Wf := by
  simp only [storeB, Bool.and_eq_true, decide_eq_true_eq, List.all_eq_true] at h
  obtain ⟨⟨⟨⟨⟨⟨⟨⟨h1, h2⟩, h3⟩, h4⟩, h5⟩, h6⟩, h7⟩, h8⟩, h9⟩ := h
  exact ⟨h1, h2, h3, h4, h5, h6, h7, h8, fun r hr => ⟨(h9 r hr).1.1, (h9 r hr).1.2, (h9 r hr).2⟩⟩

theorem wf_of {s : State} (h : wfB s = true) : s.Wf := by
  simp only [wfB, sortedB, Bool.and_eq_true, decide_eq_true_eq, List.all_eq_true] at h
  obtain ⟨⟨⟨⟨⟨⟨⟨⟨⟨⟨⟨⟨⟨⟨⟨⟨h1, h2⟩, h3⟩, h4⟩, h5⟩, h6⟩, h7⟩, h8⟩, h9⟩, h10⟩, h11⟩, h12⟩, h13⟩, h14⟩, h15⟩, h16⟩, h17⟩ := h
  exact {
    store := store_wf h1, time := h2, regs := h3, vfRegs := h4, latches := h5, heldLow := h6, tiles := h7
    tile := get_mem Tile.Wf default (tile_wf (by decide)) s.tiles (fun e he => tile_wf (h8 e he))
    polders := h9, clients := h10, conservators := h11, channels := h12
    buffers := get_mem (fun c : Channel => Table.Sorted c.buf) default List.Pairwise.nil s.channels (fun e he => h13 e he)
    seams := h14, power := h15, ports := h16, slots := h17 }


/-! ### The tile control core -/

/-- Every seam in service. -/
def liveSeams : Table Seam := (List.range 8).map (fun n => (n, { (default : Seam) with state := .active }))

/-- The part in operation with polder 0 on row 0, whose tile 0 is as given and has one instruction word at address 0. -/
def tileAt (x : Tile) (w : Nat) : State :=
  { State.reset with
    polders := [(0, { (default : Polder) with state := .running, rowMap := 1 })]
    tiles := [(0, x)]
    seams := liveSeams
    store := { (default : Store) with istore := Mem.writeN [] 0 (leBytes 4 w) }
    boot := { State.reset.boot with part := .operational, dieUp := 63, s0On := true }
    hif := { (default : HostIf) with linkUp := true } }

def core : Tcc := { (default : Tcc) with state := .running, instrs := 4 }

def always : Guard := { pg := 0, inv := false }

/-- Tile 0 stands at an instruction with its core as given. -/
def standing (x : Tcc) (op : TccOp) : State := tileAt { (default : Tile) with tcc := x } (encodeTcc always op)

def readyB (s : State) (op : TccOp) : Bool := wfB s && s.tccReady 0 always op && (s.tile 0).tcc.guard always

theorem issues_of {s : State} {op : TccOp} (h : readyB s op = true) : s.Issues 0 always op := by
  simp only [readyB, Bool.and_eq_true] at h
  exact ⟨wf_of h.1.1, h.1.2, h.2⟩

/-- Every function of ALU, SHI, CMP and PLOG, and every other scalar instruction, issues. -/
def scalarOps : List TccOp :=
  (List.range 14).map (fun i => .alu 3 1 2 (BitVec.ofNat 7 i)) ++
  [.addi 3 1 0x800, .andi 3 1 0xFFF, .ori 3 1 0xFFF, .xori 3 1 0xFFF, .movi 3 0x10000, .lui 3 0xFFFF,
    .shi 3 1 31, .shi 3 1 (31 + 32), .shi 3 1 (31 + 64), .plog 7 1 2 0, .plog 7 1 2 1, .plog 7 1 2 2, .plog 7 1 2 3] ++
  (List.range 6).map (fun i => .cmp 7 1 2 (BitVec.ofNat 3 i))

set_option maxRecDepth 20000 in
theorem witness_ScalarInstructionsWriteResults : ∀ op ∈ scalarOps, (standing core op).Issues 0 always op := by
  intro op h
  exact issues_of ((by decide : ∀ op ∈ scalarOps, readyB (standing core op) op = true) op h)

theorem meets {s : State} {P : Prop} [Decidable P] (h : (wfB s && decide P) = true) : s.Wf ∧ P := by
  simp only [Bool.and_eq_true, decide_eq_true_eq] at h
  exact ⟨wf_of h.1, h.2⟩

theorem issues_under {s : State} {g : Guard} {op : TccOp} (h : (wfB s && decide (s.tccReady 0 g op = true ∧ (s.tile 0).tcc.guard g = true)) = true) :
    s.Issues 0 g op := ⟨(meets h).1, (meets h).2.1, (meets h).2.2⟩

/-- A guard that reads 1 through a predicate other than p0. -/
def unlessP1 : Guard := { pg := 1, inv := true }

def under (g : Guard) (x : Tcc) (op : TccOp) : State := tileAt { (default : Tile) with tcc := x } (encodeTcc g op)

def s1At (w : Word) : Tcc := { core with sregs := [(1, w)] }

theorem witness_BranchesAndReturnsMoveThePc :
    (under always core (.br 3)).Issues 0 always (.br 3) ∧ (under unlessP1 core (.br 3)).Issues 0 unlessP1 (.br 3) ∧
    (under always core (.call 3)).Issues 0 always (.call 3) ∧ (under unlessP1 core (.call 3)).Issues 0 unlessP1 (.call 3) ∧
    (under always (s1At 12) (.jr 1)).Issues 0 always (.jr 1) ∧
    (let x := { core with sregs := [(31, 12)], ras := [12] }
     (under always x (.jr 31)).Issues 0 always (.jr 31)) ∧
    (12 % 4 = 0 ∧ 12 < 4 * core.instrs) :=
  ⟨issues_under (by decide), issues_under (by decide), issues_under (by decide), issues_under (by decide), issues_under (by decide),
    issues_under (by decide), by decide⟩

/-- The first address beyond the program and beyond the data store, and the first that is no multiple of 4. -/
theorem witness_TccFaultsFreeze :
    (under always (s1At 16) (.jr 1)).Issues 0 always (.jr 1) ∧ (under always (s1At 1) (.jr 1)).Issues 0 always (.jr 1) ∧
    (under always (s1At 16384) (.ldw 2 1 0)).Issues 0 always (.ldw 2 1 0) ∧ (under always (s1At 0) (.ldw 2 1 1)).Issues 0 always (.ldw 2 1 1) ∧
    (under always (s1At 16384) (.stw 2 1 0)).Issues 0 always (.stw 2 1 0) ∧ (under always (s1At 0) (.stw 2 1 1)).Issues 0 always (.stw 2 1 1) :=
  ⟨issues_under (by decide), issues_under (by decide), issues_under (by decide), issues_under (by decide), issues_under (by decide),
    issues_under (by decide)⟩

def queued (n : Nat) : Tile := { (default : Tile) with tcc := core, engines := [(0, { (default : Engine) with queue := List.replicate n default })] }

def counting (w : Word) : Tile := { (default : Tile) with tcc := core, ctrs := [(255, w)] }

theorem witness_CommandsWaitsAndEventsIssue :
    (∀ n ∈ [15, 16], (tileAt (queued n) (encodeTcc always (.cmd 0 1))).Issues 0 always (.cmd 0 1)) ∧
    (∀ w ∈ [0xFFFFFFFE#32, 0xFFFFFFFF#32], (tileAt (counting w) (encodeTcc always (.sigev 0 255))).Issues 0 always (.sigev 0 255)) ∧
    (under always core (.waitev 0 255)).Issues 0 always (.waitev 0 255) ∧
    (∀ n ∈ [0, 1], (tileAt (queued n) (encodeTcc always (.fence 127))).Issues 0 always (.fence 127)) := by
  refine ⟨?_, ?_, issues_under (by decide), ?_⟩ <;>
    (intro n h; simp only [List.mem_cons, List.not_mem_nil, or_false] at h; rcases h with rfl | rfl <;> exact issues_under (by decide))

/-- The last word of the data store, the last rows, and each register of RDCSR. -/
theorem witness_LoadsStoresAndCsrReads :
    (under always (s1At 16380) (.ldw 2 1 0)).Issues 0 always (.ldw 2 1 0) ∧ (under always (s1At 16380) (.stw 2 1 0)).Issues 0 always (.stw 2 1 0) ∧
    (under always (s1At 8191) (.spxr 1 31)).Issues 0 always (.spxr 1 31) ∧ (under always (s1At 8191) (.spxw 1 31)).Issues 0 always (.spxw 1 31) ∧
    ∀ i ∈ List.range 7, let op := TccOp.rdcsr 2 (BitVec.ofNat 12 i); (under always core op).Issues 0 always op := by
  refine ⟨issues_under (by decide), issues_under (by decide), issues_under (by decide), issues_under (by decide), ?_⟩
  intro i h
  exact issues_under ((by decide : ∀ i ∈ List.range 7, (let op := TccOp.rdcsr 2 (BitVec.ofNat 12 i)
    (wfB (under always core op) && decide ((under always core op).tccReady 0 always op = true ∧ ((under always core op).tile 0).tcc.guard always = true)) = true)) i h)

def coreIn (x : Tcc) : State := standing x .halt

def stalledOn (r : Stall) : State := coreIn { core with state := .waiting, stall := some r }

/-- Tile 0's monitor waits for a checkpoint whose deadline is 99, at a time of 100. -/
def lateTile : Tile :=
  { (default : Tile) with mon := { (default : Monitor) with cps := [{ ctr := 5, anchor := 0, occur := 1, bound := 99 }], anchors := [(0, 0)], mask := 32 } }

def late : State := { tileAt lateTile 0 with time := [(0x10, 100)] }

theorem witness_CoresStartStallSkipAndHalt :
    (let s := coreIn { core with state := .ready }
     s.Wf ∧ s.tilePowered 0 = true ∧ s.tileLive 0 = true ∧ (s.tile 0).tcc.state = .ready) ∧
    (∀ h ∈ [TccState.running, .waiting],
      let s := standing { core with state := .frozen, held := h } (.addi 1 1 1)
      let v := ((((s.accessCrosses 4 0).setReg (tilReg 0 0x00) 2).countStall 0).modTcc 0 (fun x => { x with state := .running })).guarded 0 always
        (.addi 1 1 1) true .clean
      s.Wf ∧ s.tilePowered 0 = true ∧ s.tileLive 0 = true ∧ (s.tile 0).tcc.state = .frozen ∧ (s.tile 0).tcc.faulted = false ∧
      (s.tile 0).tcc.held = h ∧ decodeTcc (s.instrWord 0 (s.tile 0).tcc.pc.toNat) = some (always, .addi 1 1 1) ∧
      (v.tile 0).tcc.faulted = false ∧ (v.tile 0).tcc.state ≠ .waiting) ∧
    (State.reset.Wf ∧ State.reset.tilePowered 0 = false) ∧
    (∀ op ∈ [TccOp.br 3, .call 3, .halt, .spxr 0 0], (under { pg := 1, inv := false } core op).Wf ∧
      (under { pg := 1, inv := false } core op).tccReady 0 { pg := 1, inv := false } op = true ∧ core.guard { pg := 1, inv := false } = false) ∧
    (coreIn core).Issues 0 always .halt ∧
    (∀ r ∈ [Stall.port, .queueFull 6, .fence 127], (stalledOn r).Wf ∧ (stalledOn r).tileLive 0 = true ∧
      ((stalledOn r).tile 0).tcc.state = .waiting ∧ ((stalledOn r).tile 0).tcc.stall = some r ∧
      ∀ q, q < 7 → (((stalledOn r).tile 0).engine q).queue.length < 16 ∧ ((stalledOn r).tile 0).drained q = true) ∧
    (let s := coreIn { core with state := .halted }
     s.Wf ∧ s.tileLive 0 = true ∧ (s.tile 0).tcc.state = .halted ∧ s.tileIdle 0 = true) ∧
    (late.Wf ∧ late.tileLive 0 = true ∧ (late.tile 0).mon.suspended = false ∧ late.missed 0 = some (0, 99)) := by
  refine ⟨meets (by decide), ?_, meets (by decide), ?_, issues_under (by decide), ?_, meets (by decide), meets (by decide)⟩
  · intro h m
    simp only [List.mem_cons, List.not_mem_nil, or_false] at m
    rcases m with rfl | rfl <;> exact meets (by decide)
  · intro op m
    simp only [List.mem_cons, List.not_mem_nil, or_false] at m
    rcases m with rfl | rfl | rfl | rfl <;> exact meets (by decide)
  · intro r m
    simp only [List.mem_cons, List.not_mem_nil, or_false] at m
    rcases m with rfl | rfl | rfl <;> exact meets (by decide)

theorem witness_ConstantRegistersStayConstant : (coreIn core).Wf ∧ Completes (step (coreIn core)) := ⟨wf_of (by decide), _, rfl⟩

/-! ### Queues, signals and engines -/

/-- A tile with one started command on an engine. -/
def working (q : Nat) (c : Command) : Tile := { (default : Tile) with engines := [(q, { (default : Engine) with active := [{ (default : Active) with cmd := c }] })] }

def onTile (x : Tile) : State := tileAt x 0

def word (w0 w1 w2 w3 : Word) : Command := { w0 := w0, w1 := w1, w2 := w2, w3 := w3, shape := [] }

def started (c : Command) : Active := { (default : Active) with cmd := c }

/-- A command that waits on counter 255, which stands at 1, at the head of queue q. -/
def waitingFor (q : Nat) (v : Word) : Tile :=
  { (default : Tile) with ctrs := [(255, v)], engines := [(q, { (default : Engine) with queue := [word 0x0100FF01 0 0 0] })] }

/-- An engine whose command of number 7 is finished, and on queue 0 another one before it is not. -/
def finishing (q : Nat) : Tile :=
  let a : Active := { started (word 0x02FF0001 0 0 0) with seq := 7, finished := true }
  let l := if q = 3 ∨ q = 4 then [a, started default] else [started default, a]
  { (default : Tile) with ctrs := [(255, 0xFFFFFFFE)], engines := [(q, { (default : Engine) with active := l, started := 8 })] }

theorem witness_QueuesGrantStartAndComplete :
    ((onTile default).tileLive 0 = true) ∧
    (∀ q ∈ List.range 7, let s := onTile (waitingFor q 1)
      let e := (s.tile 0).engine q
      s.Wf ∧ e.queue.head? = some (word 0x0100FF01 0 0 0) ∧ e.frozen = false ∧ (s.tile 0).hasRoom q (word 0x0100FF01 0 0 0) = true ∧
        opcodeOk q 1 = true ∧ (s.tile 0).ctr 255 ≠ 0) ∧
    (∀ q ∈ [3, 4], let s := onTile (finishing q)
      let e := (s.tile 0).engine q
      s.Wf ∧ s.tileLive 0 = true ∧ e.frozen = false ∧ (e.active.head?.map (fun a => (a.seq, a.finished))) = some (7, true) ∧
        (s.tile 0).ctr 255 ≠ 0xFFFFFFFF) ∧
    (∀ q ∈ [0, 6], let s := onTile (finishing q)
      let e := (s.tile 0).engine q
      s.Wf ∧ s.tileLive 0 = true ∧ e.frozen = false ∧
        (∃ a, e.active = [started default] ++ a :: [] ∧ a.finished = true ∧ (s.tile 0).ctr a.cmd.sigCtr ≠ 0xFFFFFFFF)) := by
  refine ⟨by decide, ?_, ?_, ?_⟩
  · intro q h
    exact meets ((by decide : ∀ q ∈ List.range 7, (let s := onTile (waitingFor q 1)
      let e := (s.tile 0).engine q
      wfB s && decide (e.queue.head? = some (word 0x0100FF01 0 0 0) ∧ e.frozen = false ∧
        (s.tile 0).hasRoom q (word 0x0100FF01 0 0 0) = true ∧ opcodeOk q 1 = true ∧ (s.tile 0).ctr 255 ≠ 0)) = true) q h)
  · intro q h
    simp only [List.mem_cons, List.not_mem_nil, or_false] at h
    rcases h with rfl | rfl <;> exact meets (by decide)
  · intro q h
    simp only [List.mem_cons, List.not_mem_nil, or_false] at h
    rcases h with rfl | rfl <;> exact ⟨wf_of (by decide), by decide, by decide, _, rfl, by decide, by decide⟩

/-- A SIGNAL to a tile that counts on counter 255, under BCAST where the bit says so. -/
def signalCmd (dst : Nat) : Command := word 1 (wordOf (dst + 255 * 2 ^ 8)) 0 0

def arriving (busy : Bool) (waiting : Nat) : State :=
  { onTile { (default : Tile) with syncBusy := busy, syncIn := List.replicate waiting 0 } with
    nets := { (default : Nets) with signals := [{ src := 1, die := 0, dst := 0, ctr := 255 }] } }

theorem witness_SignalsTravelAndArrive :
    (let a := started (signalCmd 7)
     let s := onTile (working 6 a.cmd)
     s.current 0 6 1 = some a ∧ a.cmd.w0Ok = true ∧ a.cmd.w1.toNat / 2 ^ 17 = 0 ∧ (∀ d ∈ a.cmd.targets, s.tileOwner d = s.tileOwner 0)) ∧
    (∀ k ∈ [15, 16], let a := started (signalCmd 7)
     let s := { onTile (working 6 a.cmd) with
       tiles := [(0, working 6 a.cmd), (7, { (default : Tile) with syncIn := List.replicate k 0 })] }
     s.current 0 6 1 = some a ∧ a.cmd.w0Ok = true ∧ (∀ d ∈ a.cmd.targets, s.tileOwner d = s.tileOwner 0) ∧
       ((∀ d ∈ a.cmd.targets, s.nets.signals.countP (fun g => g.dst == d) + (s.tile d).syncIn.length < 16 ∧
          ∀ e ∈ routeEdges 0 (fixedRoute 0 (d / 64)), s.seamUp e.1 = true ∧ s.syncHeld e + a.cmd.targets.length ≤ 32) ↔ k = 15)) ∧
    (let a := started (signalCmd 8)
     let s := onTile (working 6 a.cmd)
     s.current 0 6 1 = some a ∧ a.cmd.w0Ok = true ∧ ∃ d ∈ a.cmd.targets, s.tileOwner d ≠ s.tileOwner 0) ∧
    (let a := started (word 0x04000001 0 0 0)
     let s := onTile (working 6 a.cmd)
     s.current 0 6 1 = some a ∧ a.cmd.w0Ok = false) ∧
    (let a := started (word 2 0 0 0)
     let s := onTile (working 6 a.cmd)
     s.current 0 6 2 = some a ∧ a.cmd.w0Ok = true) ∧
    (∀ k ∈ [(false, 0), (true, 15), (true, 16)], let s := arriving k.1 k.2
      s.Wf ∧ s.tileLive 0 = true ∧ s.nets.signals.find? (fun y => y.dst == 0) = some { src := 1, die := 0, dst := 0, ctr := 255 } ∧
        (s.tile 0).ctr 255 ≠ 0xFFFFFFFF) := by
  refine ⟨by decide, by decide, by decide, by decide, by decide, ?_⟩
  intro k h
  simp only [List.mem_cons, List.not_mem_nil, or_false] at h
  rcases h with rfl | rfl | rfl <;> exact meets (by decide)

theorem witness_SettingAndLoadingCommands :
    (∀ k ∈ [(0, 4), (0, 5), (1, 2), (1, 3), (2, 2), (2, 3)], let a := started (word (wordOf k.2) 0 0 0)
      let s := onTile (working k.1 a.cmd)
      s.Wf ∧ s.runnable 0 k.1 k.2 (fun _ => true) = some a ∧ setmodeOk a.cmd = true ∧ bssetmodeOk a.cmd = true ∧
        vstrmFault a.cmd = none ∧ a.cmd.w0Ok = true) ∧
    (let a := started (word 1 (wordOf (8064 + 2 ^ 18 + 127 * 2 ^ 21)) 127 0)
     let s := onTile (working 0 a.cmd)
     s.Wf ∧ s.maCurrent 0 1 = some a ∧ maLoadFault a.cmd = none) ∧
    (let a := started (word 2 0 0 0)
     let s := onTile (working 0 a.cmd)
     s.Wf ∧ s.maCurrent 0 2 = some a ∧ a.cmd.w0Ok = true ∧ a.cmd.reserved123 = true) ∧
    (let a := started (word 1 8191 0 0)
     let s := onTile (working 2 a.cmd)
     s.Wf ∧ s.vuCurrent 0 1 = some a ∧ a.cmd.w0Ok = true ∧ a.cmd.f1 13 19 = 0) ∧
    (let s := { onTile default with time := [(0, 256)] }
     s.Wf ∧ ((s.tile 0).engine 0).active = [] ∧ 256 ≤ (s.now 0 - (s.tile 0).ma.lastAc).toNat) := by
  refine ⟨?_, meets (by decide), meets (by decide), meets (by decide), meets (by decide)⟩
  intro k h
  simp only [List.mem_cons, List.not_mem_nil, or_false] at h
  rcases h with rfl | rfl | rfl | rfl | rfl | rfl <;> exact meets (by decide)

/-- A header of an empty sparse tile in row 0. -/
def emptyTile : Mem := [(0, 2)]

/-- One vector, and the longest run of the accumulator file. -/
theorem witness_PassesAccumulateOrDrain :
    (∀ w ∈ [wordOf 0, wordOf (127 * 2 ^ 19 + 2 ^ 18)], let a := started (word 3 w 0 0)
      let s := onTile (working 0 a.cmd)
      s.Wf ∧ s.maCurrent 0 3 = some a ∧ passFault (s.tile 0).ma a.cmd = none) ∧
    (∀ w ∈ [wordOf 0, wordOf (15 * 2 ^ 26 + 2 ^ 31)], let a := started (word 1 w 0 0)
      let s := { onTile (working 1 a.cmd) with store := { (default : Store) with spad := emptyTile } }
      s.Wf ∧ s.bsCurrent 0 1 = some a ∧ bspassFault (s.tile 0).bse.cfg a.cmd (TileHeader.read (s.spadRow 0 a.cmd.bspass.hdrRow)) = none) := by
  constructor <;> (intro w h; simp only [List.mem_cons, List.not_mem_nil, or_false] at h; rcases h with rfl | rfl <;> exact meets (by decide))

/-- A VRUN of a vector unit whose micro-op 0 is the word given and whose streams Y and S are set. -/
def vrunOf (op : Word) : Tile :=
  { working 2 (word 4 0 0 0) with vu := { (default : VectorUnit) with prog := [op], y := some default, s := some default } }

/-- A micro-op that adds lane registers, one that writes Y, one that writes S and one that adds to a column. -/
theorem witness_VectorUnitCommands :
    (∀ w ∈ [0x01#32, 0x20#32, 0x21#32, 0x23#32], let a := started (word 4 0 0 0)
     let s := onTile (vrunOf w)
     let r := a.cmd.vrun
     let ops := (s.tile 0).vu.ops r
     s.Wf ∧ s.vuCurrent 0 4 = some a ∧ vrunFault (s.tile 0).vu a.cmd = none ∧ ops = [w.toNat] ∧ r.v = 1 ∧ r.gpv = 1 ∧
       (s.tile 0).vu.y.isSome = true) ∧
    (let a := started (word 5 (wordOf (31 * 2 ^ 13)) 100 0)
     let s := onTile (working 2 a.cmd)
     s.Wf ∧ s.vuCurrent 0 5 = some a ∧ vcombFault a.cmd = none) ∧
    (∀ w ∈ [wordOf 0, wordOf (2 ^ 27)], let a := started (word 6 w 0 0)
     let s := onTile (working 2 a.cmd)
     s.Wf ∧ s.vuCurrent 0 6 = some a ∧ vflushFault a.cmd = none) := by
  refine ⟨?_, meets (by decide), ?_⟩
  · intro w h
    simp only [List.mem_cons, List.not_mem_nil, or_false] at h
    rcases h with rfl | rfl | rfl | rfl <;> exact meets (by decide)
  · intro w h
    simp only [List.mem_cons, List.not_mem_nil, or_false] at h
    rcases h with rfl | rfl <;> exact meets (by decide)

/-- A reserved bit of word 0, for each command that has checks, and each one without a failing check. -/
theorem witness_ChecksAndBadRowsRaise :
    (∀ k ∈ [(0, 1), (0, 3), (1, 1), (2, 2), (2, 4), (2, 5), (2, 6)], let a := started (word (wordOf (k.2 + 2 ^ 26)) 0 0 0)
      let s := onTile (working k.1 a.cmd)
      s.Wf ∧ s.runnable 0 k.1 k.2 (fun _ => true) = some a ∧ (k = (0, 1) → maLoadFault a.cmd = some 0x0120) ∧
        (k = (0, 3) → passFault (s.tile 0).ma a.cmd = some 0x0120) ∧
        (k = (1, 1) → bspassFault (s.tile 0).bse.cfg a.cmd (TileHeader.read (s.spadRow 0 a.cmd.bspass.hdrRow)) = some 0x0128) ∧
        (k = (2, 2) → vstrmFault a.cmd = some 0x0140) ∧ (k = (2, 4) → vrunFault (s.tile 0).vu a.cmd = some 0x0140) ∧
        (k = (2, 5) → vcombFault a.cmd = some 0x0140) ∧ (k = (2, 6) → vflushFault a.cmd = some 0x0140)) ∧
    (let a := started (word 1 0 0 0)
     let s := onTile (working 1 a.cmd)
     s.Wf ∧ s.bsCurrent 0 1 = some a ∧ a.cmd.bspass.hdrRow = 0 ∧
       bspassFault (s.tile 0).bse.cfg a.cmd (TileHeader.read (s.spadRow 0 0)) = some 0x012A) ∧
    (let a := started (word 2 0 0 0)
     let s := onTile { working 5 a.cmd with ge := [(0, { (default : GStream) with cfg := some default })] }
     s.Wf ∧ s.geCurrent 0 2 = some a ∧ grunFault ((s.tile 0).stream a.cmd.stream).cfg a.cmd = none) ∧
    (let a := started (word 2 0 0 0)
     let s := onTile (working 0 a.cmd)
     s.Wf ∧ s.maCurrent 0 2 = some a ∧ a.cmd.w0Ok = true ∧ a.cmd.reserved123 = true) := by
  refine ⟨?_, meets (by decide), meets (by decide), meets (by decide)⟩
  intro k h
  simp only [List.mem_cons, List.not_mem_nil, or_false] at h
  rcases h with rfl | rfl | rfl | rfl | rfl | rfl | rfl <;> exact meets (by decide)

theorem witness_TransfersAndStreamsBegin :
    (∀ e ∈ [false, true], ∀ w ∈ [0#32, 0x00040000#32], let a := started (word 1 w 0 0)
      let s := onTile (working (if e then 4 else 3) a.cmd)
      s.Wf ∧ s.dmaCurrent 0 (if e then 4 else 3) 1 = some a ∧ dmaFault ((s.tile 0).dma (if e then 4 else 3)).skew a.cmd false = if w = 0 then none else some 0x0165) ∧
    (∀ e ∈ [false, true], ∀ w ∈ [0#32, 0x00080000#32], let a := started (word 2 w 0 0)
      let s := onTile (working (if e then 4 else 3) a.cmd)
      s.Wf ∧ s.dmaCurrent 0 (if e then 4 else 3) 2 = some a ∧ dmaFault ((s.tile 0).dma (if e then 4 else 3)).skew a.cmd true = if w = 0 then none else some 0x0165) ∧
    (∀ e ∈ [false, true], let a := started { word 1 (wordOf (2 ^ 21)) 0 0 with shape := [17, 7, 0, 0] }
      let k : Skew := { stream := 7, spRow := 0, ring := 64, mode := 1, next := 0 }
      let s := onTile ((working (if e then 4 else 3) a.cmd).setDma (if e then 4 else 3) { (default : DmaEngine) with skew := some k })
      s.Wf ∧ s.dmaCurrent 0 (if e then 4 else 3) 1 = some a ∧ dmaFault ((s.tile 0).dma (if e then 4 else 3)).skew a.cmd false = none ∧ a.cmd.cont = true) ∧
    (let a := started (word 1 0 0 0)
     let s := onTile (working 5 a.cmd)
     s.Wf ∧ s.geCurrent 0 1 = some a ∧ gstreamFault a.cmd = none) ∧
    (∀ i ∈ [false, true], let k : GConfig := { (default : GConfig) with indexed := i }
     let a := started (word 2 (wordOf (8191 * 4)) 5 0)
     let s := onTile { working 5 a.cmd with ge := [(0, { (default : GStream) with cfg := some k })] }
     s.Wf ∧ s.geCurrent 0 2 = some a ∧ grunFault ((s.tile 0).stream a.cmd.stream).cfg a.cmd = none ∧
       ((s.tile 0).stream a.cmd.stream).cfg = some k ∧ a.cmd.grun.cont = false ∧ a.cmd.grun.count = 8192) := by
  refine ⟨?_, ?_, ?_, meets (by decide), ?_⟩
  · intro e h w hw
    simp only [List.mem_cons, List.not_mem_nil, or_false] at h hw
    rcases h with rfl | rfl <;> rcases hw with rfl | rfl <;> exact meets (by decide)
  · intro e h w hw
    simp only [List.mem_cons, List.not_mem_nil, or_false] at h hw
    rcases h with rfl | rfl <;> rcases hw with rfl | rfl <;> exact meets (by decide)
  · intro e h
    simp only [List.mem_cons, List.not_mem_nil, or_false] at h
    rcases h with rfl | rfl <;> exact meets (by decide)
  · intro i h
    simp only [List.mem_cons, List.not_mem_nil, or_false] at h
    rcases h with rfl | rfl <;> exact meets (by decide)

/-! ### Memories and requests -/

/-- A begun descriptor of one 64-byte item at an address, of opcode 1 or 2. -/
def moving (q : Nat) (op va : Nat) : Tile :=
  let c : Command := { w0 := wordOf op, w1 := 0, w2 := wordOf (va / 2 ^ 10), w3 := wordOf (va / 2 ^ 42), shape := [0, 0, 0, 0] }
  { (default : Tile) with engines := [(q, { (default : Engine) with active := [{ started c with begun := true }], started := 1 })] }

/-- The descriptor that such a tile issues for, and its next request. -/
def issueOf (s : State) (q : Nat) : Option Active := ((s.tile 0).engine q).issuing
def needOf (s : State) (q : Nat) : Option Need :=
  (issueOf s q).bind (fun a => a.need (if a.cmd.opcode = 2 then (if a.off = 0 then s.storeBytes 0 a.cmd a.item else a.itemGot a.item) else []))

/-- Tables: one page of the depot window is mapped to page 5 of stack 0, and the polder owns a stripe on die 0. -/
def mapped (x : Tile) : State :=
  { onTile x with
    regs := [(pldReg 0 0x200, 100), (pldReg 0 0x204, 1), (pldReg 0 0x220, wordOf (2 ^ 16 * 4))]
    store := { (default : Store) with tabD0 := [(100, dwordOf (3 + 5 * 2 ^ 21))], tabD4 := [(100, dwordOf (3 + 5 * 2 ^ 21))] } }

def full (s : State) : State := { s with store := { s.store with
  nextReq := 48, reqs := (List.range 48).map (fun i => { (default : Req) with id := i, tile := 0, q := 3, stage := .routed }) } }

def waitingWalk : State :=
  let s := mapped (moving 3 1 0)
  { s with store := { s.store with nextReq := 1, reqs := [{ (default : Req) with id := 0, tile := 0, q := 3, va := 64, len := 64, stage := .walking }] } }

/-- Polder 0's read of stack 0 on its way to die 1, with 511 or 512 flits ahead of it in the bulk buffer there. -/
def crossing (ahead : Nat) (st : ReqStage) : State :=
  let s := mapped default
  let r := { (default : Req) with id := 0, len := 256, stage := st, path := [0], tgt := some { space := .hbm, dev := 3, off := 0 } }
  { s with store := { s.store with nextReq := 2, reqs := [r,
      { r with id := 1, stage := .served, len := 256 * ahead, die := 1, via := some 0, path := [3], arrived := 1 }] } }

set_option maxRecDepth 20000 in
theorem witness_RequestsIssueAndTranslate :
    (∀ k ∈ [(3, 1, 0), (4, 2, 64), (3, 1, 2 ^ 41), (4, 2, 2 ^ 21), (3, 1, 2 ^ 41 - 64)], let s := mapped (moving k.1 k.2.1 k.2.2)
      s.Wf ∧ s.tileLive 0 = true ∧ ((s.tile 0).engine k.1).frozen = false ∧ (issueOf s k.1).isSome = true ∧ (needOf s k.1).isSome = true ∧
        s.slotFree 0 k.1 = true ∧ (∀ n ∈ needOf s k.1, s.hostUnordered 0 n = false ∧ s.masterOff 0 n = false) ∧
        (k.2.2 = 0 ∨ k.2.2 = 64 → s.engineXl 0 k.1 0 k.2.2 64 (k.2.1 == 2) = .miss) ∧
        (k.2.2 = 2 ^ 21 → s.engineXl 0 k.1 0 k.2.2 64 true = .fault 0x0202) ∧
        (k.2.2 = 2 ^ 41 → ∃ x ∈ [({ space := .col, dev := 0, off := 0 } : Target)], s.engineXl 0 k.1 0 k.2.2 64 false = .hit x)) ∧
    ((full (mapped (moving 3 1 0))).Wf ∧ (full (mapped (moving 3 1 0))).slotFree 0 3 = false) ∧
    (waitingWalk.Wf ∧ waitingWalk.tileLive 0 = true ∧ windowOf 64 = some 0 ∧
      (∃ r ∈ waitingWalk.store.reqs, waitingWalk.findReq 0 = some r ∧ r.stage = .walking ∧
        waitingWalk.store.reqs.find? (fun x => x.stage == .walking && dieOfTile x.tile == 0) = some r) ∧
      entryTarget (waitingWalk.tableEntry 0 100) 64 true = .at_ { space := .hbm, dev := 0, off := 5 * 2 ^ 21 + 64 } ∧
      entryTarget (waitingWalk.tableEntry 0 101) 64 true = .fault 0x0203) ∧
    (∀ k ∈ [(511, true), (512, false)], let s := crossing k.1 .routed
      s.Wf ∧ s.tileLive 0 = true ∧ s.seamUp 0 = true ∧ ∃ r ∈ s.store.reqs, s.findReq 0 = some r ∧ r.path = [0] ∧ s.isTurn r = k.2 ∧ s.hasCredit r 0 = k.2) ∧
    (let s := { crossing 0 .served with seams := [] }
     s.Wf ∧ s.tileLive 0 = true ∧ s.seamUp 0 = false ∧ ∃ r ∈ s.store.reqs, s.findReq 0 = some r ∧ r.path = [0] ∧ s.isTurn r = true) := by
  refine ⟨?_, meets (by decide), meets (by decide), ?_, meets (by decide)⟩
  case refine_2 =>
    intro k h
    simp only [List.mem_cons, List.not_mem_nil, or_false] at h
    rcases h with rfl | rfl <;> exact meets (by decide)
  intro k h
  simp only [List.mem_cons, List.not_mem_nil, or_false] at h
  rcases h with rfl | rfl | rfl | rfl | rfl <;> exact meets (by decide)

/-- One request in flight, at a target. -/
def inFlight (r : Req) : State :=
  let s := mapped (moving 3 1 0)
  { s with store := { s.store with nextReq := 1, reqs := [{ r with id := 0, tile := 0, q := 3 }] } }

def atHbm (off : Nat) : Target := { space := .hbm, dev := 0, off := off }
def atCol (off : Nat) : Target := { space := .col, dev := 0, off := off }

def routedTo (x : Target) (w : Bool) (m : Bool) : Req :=
  { (default : Req) with va := 64, len := 64, isWrite := w, merge := m, data := if w then List.replicate 64 1 else [], tgt := some x, stage := .routed }

def merging : State :=
  let s := inFlight { routedTo (atCol 0) false true with stage := .merging, data := List.replicate 64 0 }
  { s with time := [(0x10, 16)]
           store := { s.store with merges := [{ (default : Merge) with joinable := true, joined := [0], data := List.replicate 512 7 }] } }

/-- A gradient tensor at address 0, whose first unit past the overtopping units takes an accumulate write. -/
def gradTensor : Tensor := { (default : Tensor) with id := 9, kind := 2, va := 0, bytes := 2048 }

def accumulating : State :=
  let s := inFlight { routedTo (atHbm 1024) true false with va := 1024, len := 8, data := [1, 0, 0, 0, 0, 0, 0, 0] }
  { s with
    polders := [(0, { s.pld 0 with cat := { (default : Catalogue) with tensors := [gradTensor] }, train := { (default : Training) with phase := .slots } })]
    store := { s.store with accFrames := [(atHbm 1024).frame] } }

set_option maxRecDepth 20000 in
theorem witness_TargetsServeMergeAndAccumulate :
    (∀ r ∈ [routedTo (atHbm 0) false false, routedTo (atHbm (80 * 2 ^ 30 - 64)) true false, routedTo (atCol 0) true true],
      let s := { inFlight r with time := [(0x10, 1)] }
      s.Wf ∧ (∃ q ∈ s.store.reqs, s.findReq 0 = some q ∧ q.stage = .routed ∧ q.path = [] ∧ s.isTurn q = true ∧
        (∀ x ∈ q.tgt, x.space ≠ .host ∧ (q.isWrite = true → s.accumulates x = false)))) ∧
    (let s := inFlight (routedTo (atCol 480) false true)
     s.Wf ∧ ∃ q ∈ s.store.reqs, s.findReq 0 = some q ∧ q.path = [] ∧ q.merges (atCol 480) = true ∧ s.isTurn q = true ∧
       s.mergesFull q (atCol 480) = false) ∧
    (let m : Merge := { (default : Merge) with joinable := true, joined := [7] }
     let s := inFlight (routedTo (atCol 0) false true)
     let s := { s with store := { s.store with merges := [m] } }
     s.Wf ∧ ∃ q ∈ s.store.reqs, s.findReq 0 = some q ∧ q.path = [] ∧ q.merges (atCol 0) = true ∧ s.opens q (atCol 0) = []) ∧
    (merging.Wf ∧ (merging.store.merges.find? (fun m => m.is 0 0 0)).isSome = true ∧
      merging.routeUp 0 0 = true ∧ (∃ r ∈ merging.store.reqs, merging.findReq 0 = some r ∧ r.stage ≠ .lost) ∧
      ∀ m ∈ merging.store.merges, m.spoilt = false ∧ m.joined = [0] ∧ 16 ≤ (merging.now 0x10 - m.opened).toNat) ∧
    (accumulating.Wf ∧ (∃ q ∈ accumulating.store.reqs, accumulating.findReq 0 = some q ∧ q.stage = .routed ∧ q.isWrite = true ∧
      q.path = [] ∧ accumulating.isTurn q = true ∧
      accumulating.accumulates (atHbm 1024) = true ∧ accumulating.accForm q = true) ∧ (accumulating.pld 0).train.phase = .slots) := by
  refine ⟨?_, meets (by decide), meets (by decide), meets (by decide), meets (by decide)⟩
  intro k h
  simp only [List.mem_cons, List.not_mem_nil, or_false] at h
  rcases h with rfl | rfl | rfl <;> exact meets (by decide)

set_option maxRecDepth 20000 in
theorem witness_ResponsesReachTheirEngine :
    ∀ w ∈ [false, true], let s := inFlight { routedTo (atHbm 0) w false with stage := .served, data := List.replicate 64 5 }
      s.Wf ∧ s.tileLive 0 = true ∧ ((s.tile 0).engine 3).frozen = false ∧
      (∃ r ∈ s.store.reqs, s.findReq 0 = some r ∧ r.stage = .served ∧ r.path = [] ∧ r.key % 2 ^ 20 = 0 ∧
        ∃ a ∈ ((s.tile 0).engine 3).active, ((s.tile 0).engine 3).active.find? (fun b => b.seq == r.seq) = some a ∧ a.cmd.xform = 0 ∧
          a.itemGot 0 = [] ∧ r.data.length = a.cmd.unitBytes) := by
  intro k h
  simp only [List.mem_cons, List.not_mem_nil, or_false] at h
  rcases h with rfl | rfl <;> exact meets (by decide)

/-- Channel 1 is busy with the edit of polder 0's host window. -/
def editing : State :=
  let s := mapped default
  { s with
    polders := [(0, { s.pld 0 with editChannel := some 1, editRange := some (0, 1) })]
    channels := [(1, { (default : Channel) with state := .busy, request := [3, 2, 0, 0] })] }

theorem witness_SeepageAndEditsClose :
    (∀ u ∈ [SeepUnit.hbm 11, .depot 7, .collection 3 7],
      let w := seepPlace u
      let s := { mapped default with regs := [(w.1 + 0x04C, 3), (w.1 + 0x050, 30)], store := { (default : Store) with readBytes := [(w.2, 2 ^ 30)] } }
      s.Wf ∧ 2 ^ ((s.reg (w.1 + 0x050)).toNat % 64) ≤ Table.get 0 s.store.readBytes w.2) ∧
    (editing.Wf ∧ (editing.pld 0).editChannel = some 1 ∧ (editing.pld 0).editRange = some (0, 1) ∧
      (∀ r ∈ editing.store.reqs, r.polder ≠ 0) ∧ (editing.chan 1).state = .busy ∧ (editing.chan 1).reply = none) := by
  refine ⟨?_, meets (by decide)⟩
  intro u h
  simp only [List.mem_cons, List.not_mem_nil, or_false] at h
  rcases h with rfl | rfl | rfl <;> exact meets (by decide)

/-! ### The part -/

def op0 : State := onTile default

def seamIs (n : Nat) (x : Seam) : State := { op0 with seams := [(n, x)] }

def clockAt (l : Table Dword) (s : State) : State := { s with time := l }

theorem witness_SeamsControllersAndHeartbeats :
    (∀ r ∈ [0, 6, 7], ∀ f ∈ [0#6, 63#6], (seamIs 7 { (default : Seam) with state := .active, run1 := r, flit1 := 63, used1 := 64 }).Wf ∧
      ((seamIs 7 { (default : Seam) with state := .active, run1 := r, flit1 := 63, used1 := 64 }).seam 7).state = .active ∧ f.toNat < 64) ∧
    ((1663#11).toNat < 1664) ∧
    ((seamIs 0 { (default : Seam) with state := .training }).Wf ∧ ((seamIs 0 { (default : Seam) with state := .training }).seam 0).state = .training) ∧
    (let s := seamIs 4 { (default : Seam) with state := .training, lost0 := [3] }
     let s := { s with boot := { s.boot with part := .bringUp, stage := 1 } }
     s.Wf ∧ (s.seam 4).state = .training ∧ (s.seam 4).lost0 ≠ [] ∧ s.boot.part = .bringUp ∧ s.boot.stage < 2 ∧ s.boot.trained = false) ∧
    (op0.Wf ∧ op0.boot.part = .operational ∧ (op0.pld 0).state.resident = true) ∧
    (op0.Wf ∧ op0.boot.part = .operational ∧ op0.reaches 5 4 = true) ∧
    (let s := clockAt [(0x60, 1200000), (0x61, 1200000)] op0
     s.Wf ∧ s.boot.part = .operational ∧ 1200000 ≤ (s.now 0x60 - s.boot.beat0).toNat ∧ 1200000 ≤ (s.now 0x61 - s.boot.beat1).toNat ∧
       bitAt s.boot.dieUp 5 = true ∧ s.boot.s0Lost = false) := by
  refine ⟨?_, by decide, meets (by decide), meets (by decide), meets (by decide), meets (by decide), meets (by decide)⟩
  intro r h f hf
  simp only [List.mem_cons, List.not_mem_nil, or_false] at h hf
  rcases h with rfl | rfl | rfl <;> exact ⟨wf_of (by decide), by decide, f.isLt⟩

def dieIs (x : DiePower) : State :=
  { clockAt [(0x10, 131072)] op0 with
    power := [(0, x)]
    polders := [(0, { op0.pld 0 with cat := { (default : Catalogue) with acMhz := 900 } })] }

def pins (f : Board → Board) (cc : Dword) : State := { clockAt [(0x60, cc)] op0 with board := f { (default : Board) with vin := true, vaux := true, perst := true } }

theorem witness_PowerTemperatureAndThrottle :
    (let s := dieIs { (default : DiePower) with windows := 31, below := 15 }
     s.Wf ∧ bitAt s.boot.dieUp 0 = true ∧ ((s.die 0).windows + 1) * 4096 ≤ (s.now (ncDom 0)).toNat ∧
       ((s.die 0).thermals + 1) * 131072 ≤ (s.now (ncDom 0)).toNat) ∧
    (let s := dieIs { (default : DiePower) with upDue := true, upNc := 124672, power := 1, thermal := 1 }
     s.Wf ∧ (s.die 0).upDue = true ∧ 6400 ≤ (s.now (ncDom 0) - (s.die 0).upNc).toNat ∧ (s.die 0).step + 1 ≤ s.wanted 0) ∧
    (let s := pins id 0
     s.Wf ∧ s.board.thermtrip = false ∧ s.board.vaux = true ∧ s.board.vin = true ∧ 920 ≤ (920 : Int) + s.thermalOffset 5 ∧ s.boot.part ≠ .failed ∧
       bitAt s.boot.dieUp 3 = true ∧ s.boot.s0On = true ∧ s.loadPoint ≤ 1000 - 952) ∧
    (let s := pins (fun b => { b with throttleLow := true, edges := [0] }) 1200
     s.Wf ∧ s.board.throttleLow = true ∧ s.board.edges.length < 2 ∧ s.board.unstable = false ∧ s.board.throttled = false ∧
       s.board.edges.getLast? = some 0 ∧ 1200 ≤ (s.cc - 0).toNat) ∧
    (let s := pins (fun b => { b with throttleLow := true, edges := [0, 1200] }) 2400
     s.Wf ∧ s.board.throttleLow = true ∧ s.board.edges = [0, 1200] ∧ (s.cc - 0).toNat ≤ 2400 ∧ s.board.throttled = false) ∧
    (let s := pins (fun b => { b with edges := [0], throttled := true }) 1200
     s.Wf ∧ s.board.throttleLow = false ∧ s.board.unstable = false ∧ s.board.throttled = true ∧ 1200 ≤ (s.cc - 0).toNat) ∧
    (let s := pins (fun b => { b with edges := [0], unstable := true, throttled := true }) 12000
     s.Wf ∧ s.board.unstable = true ∧ s.board.edges.getLast? = some 0 ∧ 12000 ≤ (s.cc - 0).toNat) ∧
    (let s := { pins (fun b => { b with throttled := true }) 1200000 with regs := [(pwrPage 4 + 0x068, 1)] }
     let per := (s.reg (pwrPage 4 + 0x068)).toNat % 2 ^ 16 * 1200000
     s.Wf ∧ s.board.throttled = true ∧ per ≠ 0 ∧ (s.board.reported / per + 1) * per ≤ (s.cc - s.board.acceptCc).toNat) :=
  ⟨meets (by decide), meets (by decide), meets (by decide), meets (by decide), meets (by decide), meets (by decide), meets (by decide), meets (by decide)⟩

/-! ### Start-up and trust -/

def booting (f : Boot → Boot) : State := { op0 with boot := f op0.boot }

/-- No image has its header: the first check fails. An image whose checks all pass rests on fuses and signatures, which are not evaluated. -/
theorem witness_ImagesAreStagedAndVerified :
    (∀ b ∈ [2, 5], let s := booting (fun x => { x with boot := b })
      s.Wf ∧ s.boot.s0On = true ∧ s.hif.linkUp = true) ∧
    (∀ o ∈ [0, 2 ^ 24 - 64, 2 ^ 24], let s := booting (fun x => { x with stg := 1, offset := o })
      s.Wf ∧ s.boot.stg = 1 ∧ s.boot.warm = false ∧ 64 ≤ (64#15).toNat ∧ (64#15).toNat ≤ 16384 ∧ (64#15).toNat % 64 = 0 ∧ (16384#15).toNat % 64 = 0) ∧
    (let s := booting (fun x => { x with stg := 2, boot := 3 })
     s.Wf ∧ s.boot.stg = 2 ∧ (peek (s.boot.image s.boot.bank) 0 4 == 0x574D4946) = false) := by
  refine ⟨?_, ?_, meets (by decide)⟩
  · intro b h
    simp only [List.mem_cons, List.not_mem_nil, or_false] at h
    rcases h with rfl | rfl <;> exact meets (by decide)
  · intro b h
    simp only [List.mem_cons, List.not_mem_nil, or_false] at h
    rcases h with rfl | rfl | rfl <;> exact meets (by decide)

def seamsAt (l : List (Nat × SeamState)) (s : State) : State := { s with seams := l.map (fun e => (e.1, { (default : Seam) with state := e.2 })) }

def allSeams : State → State := seamsAt ((List.range 8).map (fun n => (n, .active)))

def stageIs (n : Nat) (f : Boot → Boot) : State := booting (fun x => f { x with part := .bringUp, stage := n })

theorem witness_BringUpRunsItsSteps :
    (∀ n ∈ List.range 7, (stageIs n id).Wf ∧ (stageIs n id).boot.part = .bringUp ∧ (stageIs n id).boot.stage = n ∧ (stageIs n id).boot.warm = false) ∧
    (let s := seamsAt [(4, .active), (5, .down)] (stageIs 1 id)
     s.Wf ∧ (∀ n, n < 8 → (s.seam n).state ≠ .training) ∧ (s.seam 4).state = .active ∧ (s.seam 5).state ≠ .active) ∧
    (let s := seamsAt [(4, .active), (5, .down)] (stageIs 1 id)
     let s := { s with seams := [(4, s.seam 4), (5, { s.seam 5 with lost0 := [3], used0 := 63 })] }
     s.Wf ∧ (∀ n, n < 8 → (s.seam n).state ≠ .training) ∧ (s.seam 5).state ≠ .active ∧ (s.seam 5).lost0 = [3] ∧ (s.seam 5).used0 < 64 ∧
       (s.seam 5).lost1 = []) ∧
    (let s := allSeams (stageIs 1 id)
     s.Wf ∧ ∀ n ∈ [4, 5, 0, 2, 1, 3, 6, 7], (s.seam n).state = .active) ∧
    (let s := allSeams (stageIs 2 id)
     s.Wf ∧ ∀ n ∈ [4, 2, 6], s.seamUp n = true) ∧
    (∀ k ∈ [1, 12, 13, 20], let s := stageIs 4 (fun x => { x with memories := k })
     s.Wf ∧ s.boot.stage = 4 ∧ s.boot.memories = k) ∧
    (let s := stageIs 3 (fun x => { x with warm := true, otherVerified := true })
     s.Wf ∧ s.boot.stage = 3 ∧ s.boot.warm = true ∧ s.boot.otherVerified = true) ∧
    (let s := stageIs 3 id
     s.Wf ∧ s.boot.stage = 3 ∧ s.boot.warm = false ∧ s.boot.s0On = true) ∧
    (256 < (stageIs 6 id).journal.free) := by
  refine ⟨?_, meets (by decide), meets (by decide), meets (by decide), meets (by decide), ?_, meets (by decide), meets (by decide), by decide⟩
  case refine_2 =>
    intro k h
    simp only [List.mem_cons, List.not_mem_nil, or_false] at h
    rcases h with rfl | rfl | rfl | rfl <;> exact meets (by decide)
  intro n h
  exact meets ((by decide : ∀ n ∈ List.range 7, (wfB (stageIs n id) && decide ((stageIs n id).boot.part = .bringUp ∧ (stageIs n id).boot.stage = n ∧
    (stageIs n id).boot.warm = false)) = true) n h)

def board (f : Board → Board) (g : Boot → Boot) (s : State) : State := { s with board := f s.board, boot := g s.boot }

theorem witness_SuppliesStartAndStopThePart :
    (State.reset.Wf ∧ State.reset.board.vaux = false ∧ State.reset.board.vin = false) ∧
    (let s := pins (fun b => { b with vinLost := true }) 0
     s.Wf ∧ s.board.vaux = true ∧ s.board.vin = true ∧ s.board.vinLost = true ∧ s.board.sysclkLost = false ∧ s.journal.used + 1 < 21824 ∧
       s.journal.cleanTail = false) ∧
    (let s := board (fun b => { b with vin := false }) (fun b => { b with boot := 1 }) (pins id 0)
     s.Wf ∧ s.board.vin = false ∧ s.board.vaux = true ∧ s.board.vinLost = false ∧ s.board.sysclkLost = false ∧ s.boot.boot = 1) ∧
    (let s := pins (fun b => { b with undervoltage := true }) 1200000
     s.Wf ∧ s.board.undervoltage = true ∧ 1200000 ≤ (s.cc - s.board.dipCc).toNat) ∧
    (let s := pins id 0
     s.Wf ∧ s.boot.s0On = true ∧ s.board.vin = true ∧ s.board.vaux = true ∧ s.board.sysclkLost = false ∧ s.board.pcieClkLost = false ∧
       bitAt s.boot.dieUp 4 = true) :=
  ⟨meets (by decide), meets (by decide), meets (by decide), meets (by decide), meets (by decide)⟩

/-- A request that waits on a channel. -/
def asking (c : Nat) (b : List Byte) (s : State) : State :=
  { s with channels := [(c, { (default : Channel) with state := .busy, request := b, len := b.length })], boot := { s.boot with mboxOn := true } }

/-- The bytes of a request's header of two bytes and two zeros, and of what follows. -/
def req (op : Nat) (rest : List Byte) : List Byte := leBytes 2 op ++ [0, 0] ++ rest

/-- The part in operation with no polder. -/
def idle : State := { op0 with polders := [], tiles := [] }

theorem witness_SecureRequestsChangeTheirState :
    (∀ k ∈ [(0x0301, leBytes 4 3), (0x0302, leBytes 4 7 ++ List.replicate 32 1), (0x0303, leBytes 4 7)], let s := asking 0 (req k.1 k.2) idle
      s.Wf ∧ s.request 0 k.1 = some (req k.1 k.2) ∧ s.boot.part ≠ .awaiting ∧ (∀ p, p < 16 → (s.pld p).state = .free) ∧ s.hif.lock = false ∧
        formed (req 0x0301 (leBytes 4 3)) 8 [(4, 4)] = true ∧ formed (req 0x0302 (leBytes 4 7 ++ List.replicate 32 1)) 40 [(4, 4), (8, 32)] = true) ∧
    (∀ k ∈ [(0x0301, [1]), (0x0302, []), (0x0303, []), (0x0401, [1, 1, 1, 1]), (0x0402, [1, 1, 1, 1])], let s := asking 0 (req k.1 k.2) idle
      s.Wf ∧ s.request 0 k.1 = some (req k.1 k.2) ∧ (if k.1 < 0x0401 then formed (req k.1 k.2) 8 [(4, 4)] = false else formed (req k.1 k.2) 4 [] = false)) ∧
    (let s := asking 0 (req 0x0301 (leBytes 4 3)) op0
     s.Wf ∧ s.request 0 0x0301 = some (req 0x0301 (leBytes 4 3)) ∧ (s.pld 0).state ≠ .free) ∧
    (∀ op ∈ [0x0401, 0x0402], let s := asking 0 (req op []) { idle with boot := { idle.boot with otherVerified := true } }
      s.Wf ∧ s.request 0 op = some (req op []) ∧ s.boot.part = .operational ∧ (∀ p, p < 16 → (s.pld p).state = .free) ∧
        s.boot.otherVerified = true ∧ s.boot.s0On = true ∧ formed (req op []) 4 [] = true ∧ s.journal.used + 4 ≤ 21824) := by
  refine ⟨?_, ?_, meets (by decide), ?_⟩
  · intro k h
    simp only [List.mem_cons, List.not_mem_nil, or_false] at h
    rcases h with rfl | rfl | rfl <;> exact meets (by decide)
  · intro k h
    simp only [List.mem_cons, List.not_mem_nil, or_false] at h
    rcases h with rfl | rfl | rfl | rfl | rfl <;> exact meets (by decide)
  · intro op h
    simp only [List.mem_cons, List.not_mem_nil, or_false] at h
    rcases h with rfl | rfl <;> exact meets (by decide)

/-- The minimum below, at and above the SVN that runs. -/
theorem witness_SvnCommitRaisesTheMinimum :
    (∀ k ∈ [(4, 5), (5, 5), (6, 5)], let s := asking 7 (req 0x0403 []) { idle with boot := { idle.boot with svnMin := k.1, svnRun := k.2 } }
      s.Wf ∧ s.request 7 0x0403 = some (req 0x0403 []) ∧ s.boot.part = .operational ∧ formed (req 0x0403 []) 4 [] = true ∧
        s.journal.used < 21824 ∧ s.boot.svnMin = k.1) ∧
    (let s := asking 7 (req 0x0403 [0, 0, 0, 1]) idle
     s.Wf ∧ s.request 7 0x0403 = some (req 0x0403 [0, 0, 0, 1]) ∧ formed (req 0x0403 [0, 0, 0, 1]) 4 [] = false) ∧
    (let s := asking 7 (req 0x0403 []) { idle with boot := { idle.boot with part := .failed } }
     s.Wf ∧ s.request 7 0x0403 = some (req 0x0403 []) ∧ s.boot.part ≠ .operational) := by
  refine ⟨?_, meets (by decide), meets (by decide)⟩
  intro k h
  simp only [List.mem_cons, List.not_mem_nil, or_false] at h
  rcases h with rfl | rfl | rfl <;> exact meets (by decide)

/-- Channel 0 keeps a report of 300 bytes. -/
def reporting (off : Nat) : State :=
  { idle with
    channels := [(0, { (default : Channel) with state := .busy, request := req 0x0411 (leBytes 4 off), len := 8, report := List.replicate 300 1 })]
    boot := { idle.boot with mboxOn := true } }

theorem witness_SecureRequestsAnswer :
    (∀ r ∈ [List.replicate 36 1, []], (asking 0 (req 0x0410 r) idle).Wf ∧ (asking 0 (req 0x0410 r) idle).request 0 0x0410 = some (req 0x0410 r) ∧
      formed (req 0x0410 r) 40 [(8, 32)] = false) ∧
    (let r := List.replicate 4 0 ++ List.replicate 32 1
     (asking 0 (req 0x0410 r) idle).Wf ∧ (asking 0 (req 0x0410 r) idle).request 0 0x0410 = some (req 0x0410 r) ∧
      formed (req 0x0410 r) 40 [(8, 32)] = true) ∧
    (∀ off ∈ [0, 299, 300], (reporting off).Wf ∧ (reporting off).request 0 0x0411 = some (req 0x0411 (leBytes 4 off)) ∧
      formed (req 0x0411 (leBytes 4 off)) 8 [(4, 4)] = true ∧ peek (req 0x0411 (leBytes 4 off)) 4 4 = off) ∧
    (∀ i ∈ [2, 3], let b := req 0x0412 (leBytes 4 i ++ leBytes 4 0)
      (asking 0 b idle).Wf ∧ (asking 0 b idle).request 0 0x0412 = some b ∧ formed b 12 [(4, 8)] = true ∧ peek b 4 4 = i) ∧
    (let b := req 0x0430 (leBytes 4 0 ++ leBytes 8 64)
     let s := asking 0 b idle
     s.Wf ∧ s.request 0 0x0430 = some b ∧ s.boot.part = .operational ∧ (∀ p, p < 16 → (s.pld p).state = .free) ∧
       formed b 16 [(8, 8)] = true ∧ peek b 8 8 % 64 = 0) ∧
    (∀ r ∈ [[], leBytes 4 0 ++ leBytes 8 32], (asking 0 (req 0x0430 r) idle).Wf ∧ (asking 0 (req 0x0430 r) idle).request 0 0x0430 = some (req 0x0430 r) ∧
      (formed (req 0x0430 r) 16 [(8, 8)] = false ∨ peek (req 0x0430 r) 8 8 % 64 ≠ 0)) ∧
    (let s := asking 0 (req 0x0430 []) op0
     s.Wf ∧ s.request 0 0x0430 = some (req 0x0430 []) ∧ (s.pld 0).state ≠ .free) := by
  refine ⟨?_, meets (by decide), ?_, ?_, meets (by decide), ?_, meets (by decide)⟩
  rotate_left 3
  · intro r h
    simp only [List.mem_cons, List.not_mem_nil, or_false] at h
    rcases h with rfl | rfl <;> exact meets (by decide)
  · intro r h
    simp only [List.mem_cons, List.not_mem_nil, or_false] at h
    rcases h with rfl | rfl <;> exact meets (by decide)
  · intro r h
    simp only [List.mem_cons, List.not_mem_nil, or_false] at h
    rcases h with rfl | rfl | rfl <;> exact meets (by decide)
  · intro r h
    simp only [List.mem_cons, List.not_mem_nil, or_false] at h
    rcases h with rfl | rfl <;> exact meets (by decide)

/-! ### Host interface and polders -/

/-- The part with VF 1 enabled, its queues on or off, and polder 0 as given. -/
def vfOn (queues : Bool) (f : Polder → Polder) : State :=
  { op0 with
    hif := { op0.hif with vfEnable := true, numVfs := 1 }
    board := { (default : Board) with vaux := true, vin := true, perst := true }
    boot := { op0.boot with boot := 5, mboxOn := true }
    vfRegs := if queues then [(0x02C, 1)] else []
    polders := [(0, f (op0.pld 0))] }

def chanIs (n : Nat) (x : Channel) (s : State) : State := { s with channels := [(n, x)] }

theorem head_accepted {s : State} (h : s.board.idSel = 0) (k : BitVec 3) : s.acceptsMctp (head k) = true := by
  simp [State.acceptsMctp, State.i3cAddress, head, h]

theorem witness_MailboxChannelsHaveOneOwner :
    (∀ st ∈ [ChanState.idle, .filling, .done], let s := chanIs 8 { (default : Channel) with state := st, owner := 1 } (vfOn true id)
      s.Wf ∧ s.reachesChan (.vf 0) 8 = true ∧ sends (.vf 0) 8 = true ∧ (s.chan 8).full (.vf 0) = false) ∧
    (∀ st ∈ [ChanState.filling, .busy, .done], let s := chanIs 24 { (default : Channel) with state := st, owner := 1 } (vfOn true id)
      s.Wf ∧ s.reachesChan (.pf0 none) 24 = true ∧ sends (.pf0 none) 24 = true ∧ (s.chan 24).full (.pf0 none) = true) ∧
    (let s := chanIs 7 { (default : Channel) with state := .busy, i3c := true, reply := some { code := 0, body := [] } } (vfOn true id)
     s.Wf ∧ (s.chan 7).state = .busy ∧ s.chanOpen 7 = true ∧ (s.chan 7).reply = some { code := 0, body := [] } ∧
       (s.chan 7).i3c = true ∧ s.reachesChan .i3c 7 = true ∧ (s.chan 7).full .i3c = true ∧ .mailboxAck 7 ∉ s.pending) ∧
    (let s := chanIs 8 { (default : Channel) with state := .busy, owner := 1, reply := some { code := 0, body := [] } } { vfOn true id with pending := [.mailboxAck 8] }
     s.Wf ∧ s.reachesChan (.vf 0) 8 = true ∧ sends (.vf 0) 8 = true ∧ (s.chan 8).owned (.vf 0) = true ∧ (s.chan 8).state = .busy ∧
       .mailboxAck 8 ∈ s.pending ∧ (s.chan 8).reply = some { code := 0, body := [] }) ∧
    (let s := vfOn true id
     s.Wf ∧ s.reachesChan .i3c 7 = true ∧ (s.chan 7).full .i3c = false ∧ s.boot.s0On = true ∧ s.hif.linkUp = true ∧ s.hif.session = false) ∧
    (∀ s : State, s.board.idSel = 0 → s.acceptsMctp (head 7) = true) ∧ (vfOn true id).board.idSel = 0 ∧
    (vfOn true id).acceptsMctp { head 7 with addr := 0x51 } = false ∧
    (let s := vfOn true id
     ({ s with hif := { s.hif with session := true } } : State).Wf ∧ s.boot.s0On = true ∧ s.hif.linkUp = true) := by
  refine ⟨?_, ?_, meets (by decide), meets (by decide), meets (by decide), fun _ h => head_accepted h 7, by decide, by decide, wf_of (by decide), by decide⟩ <;>
    (intro st h; simp only [List.mem_cons, List.not_mem_nil, or_false] at h; rcases h with rfl | rfl | rfl <;> exact meets (by decide))

/-- Indices at and beyond a ring of 16 entries. -/
theorem witness_VfPagesTakeTheirWrites :
    (∀ q ∈ [true, false], let s := vfOn q id
      s.Wf ∧ s.boot.s0On = true ∧ s.hif.linkUp = true ∧ s.hif.vfEnable = true ∧ 0 < s.hif.numVfs ∧ (s.vfReg 0 0x034).toNat % 2 ^ 16 = 0 ∧
        s.queuesOn 0 = q ∧ (16 - s.vfReg 0 0x014).toNat ≤ 2 ^ ((s.vfReg 0 0x00C).toNat % 32) ∧
        2 ^ ((s.vfReg 0 0x00C).toNat % 32) < (17 - s.vfReg 0 0x014).toNat) ∧
    (op0.Wf ∧ op0.boot.part = .operational ∧ op0.hif.vfEnable = false ∧ (16#5).toNat ≤ 16) ∧
    ((stageIs 1 id).Wf ∧ (stageIs 1 id).boot.part ≠ .operational ∧ (stageIs 1 id).boot.s0On = true ∧ (stageIs 1 id).hif.linkUp = true) := by
  refine ⟨?_, meets (by decide), meets (by decide)⟩
  intro q h
  simp only [List.mem_cons, List.not_mem_nil, or_false] at h
  rcases h with rfl | rfl <;> exact meets (by decide)

theorem witness_ResetsTearDown :
    (∀ st ∈ [PolderState.free, .loaded, .running, .complete], let s := vfOn true (fun x => { x with state := st })
      s.Wf ∧ s.boot.s0On = true ∧ s.hif.linkUp = true ∧ s.hif.vfEnable = true ∧ 0 < s.hif.numVfs ∧ s.hif.numVfs ≤ 16 ∧ s.board.perst = true ∧
        (s.pld 0).state = st) ∧
    (op0.Wf ∧ op0.hif.vfEnable = false ∧ op0.board.perst = false ∧ op0.board.pcieClkLost = false ∧ op0.boot.s0On = true ∧ op0.hif.linkUp = true) := by
  refine ⟨?_, meets (by decide)⟩
  intro q h
  simp only [List.mem_cons, List.not_mem_nil, or_false] at h
  rcases h with rfl | rfl | rfl | rfl <;> exact meets (by decide)

/-- A CREATE of an ID, with tag 1, a catalogue of one byte at address 0, and a watchdog limit. -/
def createReq (p size : Nat) : List Byte := leBytes 2 0x0101 ++ leBytes 1 p ++ [0] ++ leBytes 4 1 ++ leBytes 8 0 ++ leBytes 4 size ++ leBytes 4 0 ++ leBytes 4 9

/-- All 64 client entries are taken by other tags. -/
def noEntry : State := { asking 24 (createReq 15 1) idle with clients := (List.range 64).map (fun i => (i, { (default : Client) with tag := wordOf (100 + i) })) }

/-- A management request that names a polder. -/
def naming (op p : Nat) : List Byte := leBytes 2 op ++ leBytes 1 p ++ [0, 0, 0, 0, 0]

def polderIs (st : PolderState) (c : Nat) (b : List Byte) : State :=
  let s := asking c b op0
  { s with polders := [(0, { s.pld 0 with state := st })] }

/-- The tiles of polder 0's row are done, and so is its job. -/
def jobOver (retire : Bool) (kind : Nat) : State :=
  { op0 with
    tiles := (List.range 8).map (fun i => (i, { (default : Tile) with tcc := { (default : Tcc) with state := .done } }))
    polders := [(0, { op0.pld 0 with retirePending := retire, cat := { (default : Catalogue) with kind := kind } })] }

set_option maxRecDepth 20000 in
theorem witness_PoldersComeAndGo :
    (∀ k ∈ [(15, 1), (255, 2 ^ 28), (0, 1), (16, 1), (0, 0), (0, 2 ^ 28 + 1)], let s := asking 24 (createReq k.1 k.2) idle
      let b := createReq k.1 k.2
      s.Wf ∧ s.boot.part = .operational ∧ s.request 24 0x0101 = some b ∧ formed b 28 [(2, 1), (4, 24)] = true ∧ peek b 2 1 = k.1 ∧
        peek b 16 4 = k.2 ∧ (s.pld 0).state = .free ∧ s.clientEntry 1 = some 0) ∧
    (let s := polderIs .loaded 24 (createReq 0 1)
     s.Wf ∧ s.request 24 0x0101 = some (createReq 0 1) ∧ (s.pld 0).state ≠ .free) ∧
    (let s := { asking 24 (createReq 255 1) idle with polders := (List.range 16).map (fun p => (p, { (default : Polder) with state := .loaded })) }
     s.Wf ∧ s.request 24 0x0101 = some (createReq 255 1) ∧ ∀ q, q < 16 → (s.pld q).state ≠ .free) ∧
    (noEntry.Wf ∧ noEntry.request 24 0x0101 = some (createReq 15 1) ∧ noEntry.clientEntry 1 = none) ∧
    (let s := asking 24 (createReq 0 1) op0
     let s := { s with polders := [(0, { (default : Polder) with state := .creating, reqChannel := some 24, catSize := 1 })] }
     s.Wf ∧ (s.pld 0).state = .creating ∧ (s.pld 0).reqChannel = some 24 ∧ (s.chan 24).state = .busy ∧ (s.chan 24).reply = none ∧
       s.createRefusal (s.pld 0) (s.readCatalogue 0 1) = some 0x0A01) ∧
    (∀ op ∈ [0x0102, 0x0103], ∀ st ∈ [PolderState.loaded, .running, .complete, .clearing], let s := polderIs st 0 (naming op 0)
      s.Wf ∧ s.request 0 op = some (naming op 0) ∧ formed (naming op 0) 4 [(2, 1)] = true ∧ (s.pld 0).state = st ∧ s.jobDone 0 = false) ∧
    (let s := asking 0 (naming 0x0103 0) (jobOver false 2)
     s.Wf ∧ s.boot.part = .operational ∧ s.request 0 0x0103 = some (naming 0x0103 0) ∧ s.jobDone 0 = true ∧ s.queuesOn 0 = false) ∧
    (∀ tag ∈ [1, 2], let b := leBytes 2 0x0104 ++ [0, 0] ++ leBytes 4 tag
      let s := asking 0 b op0
      let s := { s with polders := [(0, { s.pld 0 with client := 1 })], clients := [(0, { (default : Client) with tag := wordOf tag })] }
      s.Wf ∧ s.request 0 0x0104 = some b ∧ formed b 8 [(2, 1), (4, 4)] = true ∧ decide ((s.pld 0).client = wordOf tag) = decide (tag = 1)) := by
  refine ⟨?_, meets (by decide), meets (by decide), meets (by decide), meets (by decide), ?_, meets (by decide), ?_⟩
  · intro k h
    simp only [List.mem_cons, List.not_mem_nil, or_false] at h
    rcases h with rfl | rfl | rfl | rfl | rfl | rfl <;> exact meets (by decide)
  · intro op h st h'
    simp only [List.mem_cons, List.not_mem_nil, or_false] at h h'
    rcases h with rfl | rfl <;> rcases h' with rfl | rfl | rfl | rfl <;> exact meets (by decide)
  · intro op h
    simp only [List.mem_cons, List.not_mem_nil, or_false] at h
    rcases h with rfl | rfl <;> exact meets (by decide)

def fault (p code : Nat) : Cause := { polder := p, code := code, kind := 0, unit := 0, addr := 0 }

def hostWaiting (w : Bool) : State :=
  inFlight { (default : Req) with va := 2 ^ 46, len := 64, isWrite := w, data := if w then List.replicate 64 1 else [], tgt := some { space := .host, dev := 0, off := 0 }, stage := .hostWait }

/-- The request that host DMA has issued for polder 0, whose slot is parked or not. -/
def hostIssued (w parked : Bool) : State :=
  { hostWaiting w with
    links := { (default : Links) with slots := [(16 * 16, { (default : Slot) with running := !parked, parked := parked, remote := true, cur := some 0 })] } }

theorem witness_PoldersFaultAndEnd :
    (∀ st ∈ [PolderState.running, .clearing, .draining], let s := { op0 with polders := [(0, { op0.pld 0 with state := st })], nets := { (default : Nets) with causes := [fault 0 0x0111] } }
      s.Wf ∧ s.nets.causes[0]? = some (fault 0 0x0111) ∧ (s.pld 0).state = st) ∧
    (∀ k ∈ [none, some (fault 0 0x0111)], let s := { op0 with polders := [(0, { op0.pld 0 with state := .clearing, cause := k })] }
      s.Wf ∧ (s.pld 0).state = .clearing ∧ (s.pld 0).cause = k ∧ ∀ r ∈ s.store.reqs, r.polder = 0 → r.stage ≠ .routed ∧ r.stage ≠ .merging) ∧
    (∀ r ∈ [false, true], let s := jobOver r 2
      s.Wf ∧ s.jobDone 0 = true ∧ s.queuesOn 0 = false ∧ (s.pld 0).retirePending = r) ∧
    (∀ k ∈ [0, 15, 18], let s := { clockAt [(0x60, 65536), (0x61, 65536)] op0 with
        regs := [(pldReg 0 0x054, 1)]
        links := { (default : Links) with slots := [(k * 16, { (default : Slot) with remote := true })] } }
      s.Wf ∧ (s.slot k 0).remote = true ∧ (s.reg (pldReg 0 0x054)).toNat * 65536 ≠ 0 ∧
        (s.reg (pldReg 0 0x054)).toNat * 65536 = (s.now (engineDom k) - (s.slot k 0).since).toNat) ∧
    (∀ w ∈ [(true, false), (false, false), (false, true)], let s := hostIssued w.1 w.2
      s.Wf ∧ s.hif.linkUp = true ∧ (s.slot 16 0).parked = w.2 ∧
        ∃ r ∈ s.store.reqs, s.findReq 0 = some r ∧ s.issued r = true ∧ r.isWrite = w.1 ∧ r.tgt.isSome = true) ∧
    (let s := { op0 with hif := { op0.hif with tags := [{ req := 3, polder := 1 }] }, polders := [(1, { (default : Polder) with state := .draining })] }
     s.Wf ∧ s.findReq 3 = none ∧ s.hif.tags.find? (fun t => t.req == 3) = some { req := 3, polder := 1 } ∧ (s.pld 1).state = .draining ∧
       ∀ t ∈ s.hif.tags, t.req ≠ 3 → t.polder ≠ 1) := by
  refine ⟨?_, ?_, ?_, ?_, ?_, meets (by decide)⟩
  · intro k h
    simp only [List.mem_cons, List.not_mem_nil, or_false] at h
    rcases h with rfl | rfl | rfl <;> exact meets (by decide)
  · intro k h
    simp only [List.mem_cons, List.not_mem_nil, or_false] at h
    rcases h with rfl | rfl <;> exact meets (by decide)
  · intro k h
    simp only [List.mem_cons, List.not_mem_nil, or_false] at h
    rcases h with rfl | rfl <;> exact meets (by decide)
  · intro k h
    simp only [List.mem_cons, List.not_mem_nil, or_false] at h
    rcases h with rfl | rfl | rfl <;> exact meets (by decide)
  · intro k h
    simp only [List.mem_cons, List.not_mem_nil, or_false] at h
    rcases h with rfl | rfl | rfl <;> exact meets (by decide)

/-- A JOB_START with step 7 and the map addresses given. -/
def jobReq (red link tab count : Nat) : List Byte :=
  leBytes 2 0x0201 ++ [0, 0] ++ leBytes 4 7 ++ leBytes 8 red ++ leBytes 8 link ++ leBytes 8 tab ++ leBytes 2 count

def jobState (st : PolderState) (b : List Byte) : State :=
  let s := asking 8 b (vfOn false (fun x => { x with state := st }))
  { s with vfRegs := [(0x004, 4096), (0x018, 8192)] }

/-- The same state in which VF 1 is a Bus Master and the host holds a map of a length given at address 64. -/
def jobMaster (b : List Byte) : State :=
  let s := jobState .loaded b
  { s with
    hif := { s.hif with masters := [1] }
    regs := [(pldReg 0 0x200, 100), (pldReg 0 0x204, 1), (pldReg 0 0x220, wordOf (2 ^ 16 * 4))]
    store := { s.store with tabD0 := [(100, dwordOf (3 + 5 * 2 ^ 21))] } }

/-- A HOST_REG of entries from 0, or a HOST_REL of them. -/
def editReq (op : Nat) (count : Nat := 1) : List Byte :=
  leBytes 2 op ++ [0, 0] ++ leBytes 4 0 ++ leBytes 4 count ++ (if op = 0x0202 then leBytes 4 0 ++ leBytes 8 64 else [])

/-- An edit of a window of one entry, held or not, in a state of the polder. -/
def editState (st : PolderState) (op count : Nat) (held : Bool) : State :=
  let s := jobState st (editReq op count)
  { s with
    hif := { s.hif with masters := [1] }
    regs := [(pldReg 0 0x210, 5), (pldReg 0 0x214, 1)]
    store := { s.store with tabD0 := if held then [(5, 1)] else [], tabD4 := if held then [(5, 1)] else [] } }

set_option maxRecDepth 20000 in
theorem witness_JobsStart :
    ((jobState .loaded (jobReq 0 0 0 4096)).Wf ∧ (jobState .loaded (jobReq 0 0 0 4096)).request 8 0x0201 = some (jobReq 0 0 0 4096) ∧
      ((jobState .loaded (jobReq 0 0 0 4096)).pld 0).state = .loaded ∧ (jobState .loaded (jobReq 0 0 0 4096)).vfReg64 0 0x004 ≠ 0 ∧
      (jobState .loaded (jobReq 0 0 0 4096)).vfReg64 0 0x018 ≠ 0 ∧ (jobState .loaded (jobReq 0 0 0 4096)).hif.vfEnable = true ∧
      formed (jobReq 0 0 0 4096) 34 [(4, 4), (8, 26)] = true ∧ peek (jobReq 0 0 0 4096) 32 2 ≤ 4096) ∧
    ((jobState .complete (jobReq 0 0 0 0)).Wf ∧ (jobState .complete (jobReq 0 0 0 0)).request 8 0x0201 = some (jobReq 0 0 0 0) ∧
      ((jobState .complete (jobReq 0 0 0 0)).pld 0).state ≠ .loaded) ∧
    (4096 < peek (jobReq 0 0 0 4097) 32 2) ∧
    ((jobState .loaded (jobReq 0 64 0 0)).Wf ∧ (jobState .loaded (jobReq 0 64 0 0)).request 8 0x0201 = some (jobReq 0 64 0 0) ∧
      peek (jobReq 0 64 0 0) 16 8 ≠ 0 ∧ (jobState .loaded (jobReq 0 64 0 0)).linkMapAt 0 64 = none) ∧
    (let s := { vfOn true (fun x => { x with wavesDue := [0], waveAc := [(0, 0)] }) with time := [(0, 32)] }
     s.Wf ∧ (s.pld 0).state = .running ∧ (s.pld 0).wavesDue.find? (fun k => k / 8 == 0) = some 0 ∧
       (s.pld 0).waveAc.find? (fun e => e.1 == 0) = some (0, 0) ∧ 32 ≤ (s.now (acDom 0) - 0).toNat) ∧
    (let b := jobReq 0 0 64 0
     (jobMaster b).Wf ∧ (jobMaster b).request 8 0x0201 = some b ∧ ((jobMaster b).pld 0).state = .loaded ∧ 1 ∈ (jobMaster b).hif.masters ∧
       ((jobMaster b).pld 0).cat.kind = 0 ∧ ((jobMaster b).pld 0).cat.monitorPieces = [(0, 64)] ∧
       (jobMaster b).translate 0 0 0 false = .at_ (atHbm (5 * 2 ^ 21)) ∧ formed b 34 [(4, 4), (8, 26)] = true ∧
       [peek b 8 8, peek b 16 8, peek b 24 8].find? (· != 0) = some 64 ∧ ((jobMaster b).crestTableAt 0 64 0).isSome = true) ∧
    (let b := jobReq 0 64 0 0
     (jobMaster b).Wf ∧ (jobMaster b).request 8 0x0201 = some b ∧ ((jobMaster b).pld 0).state = .loaded ∧ 1 ∈ (jobMaster b).hif.masters ∧
       formed b 34 [(4, 4), (8, 26)] = true ∧ [peek b 8 8, peek b 16 8, peek b 24 8].find? (· != 0) = some 64 ∧
       ((jobMaster b).linkMapAt 0 64).isNone = true) ∧
    1 ∉ (jobState .loaded (jobReq 0 64 0 0)).hif.masters ∧
    (let s := editState .loaded 0x0202 1 false
     s.Wf ∧ s.request 8 0x0202 = some (editReq 0x0202) ∧ (s.pld 0).state = .loaded ∧ formed (editReq 0x0202) 24 [(4, 8), (16, 8)] = true ∧
       peek (editReq 0x0202) 8 4 = 1 ∧ 0 + 1 ≤ s.xlCount 0 3 ∧ bitAt (s.hostEntry 0 0) 0 = false ∧ 1 ∈ s.hif.masters ∧
       leNat (s.hostRead 64 8) / 2 % 2 ^ 20 = 0) ∧
    (let s := { editState .loaded 0x0202 1 false with hif := { (editState .loaded 0x0202 1 false).hif with masters := [] } }
     s.Wf ∧ s.request 8 0x0202 = some (editReq 0x0202) ∧ 1 ∉ s.hif.masters) ∧
    (let s := editState .loaded 0x0203 1 true
     s.Wf ∧ s.request 8 0x0203 = some (editReq 0x0203) ∧ (s.pld 0).state = .loaded ∧ formed (editReq 0x0203) 12 [(4, 8)] = true ∧
       peek (editReq 0x0203) 8 4 = 1 ∧ 0 + 1 ≤ s.xlCount 0 3 ∧ s.xlBase 0 3 = 5 ∧ bitAt (s.hostEntry 0 0) 0 = true) ∧
    (∀ k ∈ [(PolderState.complete, 1, false), (.loaded, 0, false), (.loaded, 2, false), (.loaded, 1, true)], let s := editState k.1 0x0202 k.2.1 k.2.2
      s.Wf ∧ s.request 8 0x0202 = some (editReq 0x0202 k.2.1) ∧ (s.pld 0).state = k.1 ∧ peek (editReq 0x0202 k.2.1) 8 4 = k.2.1 ∧
        s.xlCount 0 3 = 1 ∧ bitAt (s.hostEntry 0 0) 0 = k.2.2) ∧
    (let s := editState .loaded 0x0202 1 false
     let s := { s with store := { s.store with host := Mem.writeN [] 64 [2] } }
     s.Wf ∧ s.request 8 0x0202 = some (editReq 0x0202) ∧ 1 ∈ s.hif.masters ∧ leNat (s.hostRead 64 8) / 2 % 2 ^ 20 ≠ 0) ∧
    (∀ k ∈ [(PolderState.free, 1), (.loaded, 0), (.loaded, 2)], let s := editState k.1 0x0203 k.2 true
      s.Wf ∧ s.request 8 0x0203 = some (editReq 0x0203 k.2) ∧ (s.pld 0).state = k.1 ∧ peek (editReq 0x0203 k.2) 8 4 = k.2 ∧ s.xlCount 0 3 = 1) := by
  refine ⟨meets (by decide), meets (by decide), by decide, meets (by decide), meets (by decide), meets (by decide), meets (by decide), by decide,
    meets (by decide), meets (by decide), meets (by decide), ?_, meets (by decide), ?_⟩
  · intro k h
    simp only [List.mem_cons, List.not_mem_nil, or_false] at h
    rcases h with rfl | rfl | rfl | rfl <;> exact meets (by decide)
  · intro k h
    simp only [List.mem_cons, List.not_mem_nil, or_false] at h
    rcases h with rfl | rfl | rfl <;> exact meets (by decide)

/-! ### Micro-batches, reduction and the training step -/

/-- A submission entry: its type, tag, index, step and length. -/
def subEntry (ty tag index step len : Nat) : List Byte :=
  leBytes 1 ty ++ [0] ++ leBytes 2 tag ++ leBytes 4 index ++ leBytes 4 step ++ leBytes 4 len ++ leBytes 8 0 ++ leBytes 8 0

/-- Polder 0 runs a job of a kind, and its submission ring at 4 096 holds one entry that is not taken. -/
def submitting (kind : Nat) (e : List Byte) : State :=
  let s := vfOn true (fun x => { x with cat := { (default : Catalogue) with kind := kind, mbMax := 8, mbPerStep := 2 } })
  { s with hif := { s.hif with masters := [1] }, vfRegs := [(0x004, 4096), (0x010, 1), (0x018, 8192), (0x02C, 1)], store := { s.store with host := Mem.writeN [] 4096 e } }

def frontEntry (s : State) : List Byte := s.hostRead (s.vfReg64 0 0x004 + 32 * ((s.vfReg 0 0x014).toNat % 2 ^ ((s.vfReg 0 0x00C).toNat % 32))) 32

def slotWaits (kind : Nat) (begun : Bool) : State :=
  let s := clockAt [(0x10, 50), (0x60, 100)] op0
  { s with
    tiles := (List.range 8).map (fun i => (i, { (default : Tile) with mon := { (default : Monitor) with cps := [{ ctr := 5, anchor := 0, occur := 1, bound := 9 }], counts := [(5, 1)], mask := 32, next := 1 } }))
    polders := [(0, { op0.pld 0 with
      cat := { (default : Catalogue) with kind := kind, slotCc := 100, mbMax := 8, mbPerStep := 2 }, mbWaiting := some (1, 7, 8, 3), slotStarted := begun }) ] }

theorem witness_MicroBatchesRunInSlots :
    (∀ k ∈ [(0, subEntry 1 3 1 0 8), (2, subEntry 1 3 9 9 8)], let s := submitting k.1 k.2
      s.Wf ∧ (s.pld 0).takesEntries = true ∧ s.queuesOn 0 = true ∧ s.vfReg 0 0x010 ≠ s.vfReg 0 0x014 ∧ frontEntry s = k.2 ∧
        1 ∈ s.hif.masters ∧ entryFormed k.2 false = true ∧ peek k.2 0 1 = 1 ∧ peek k.2 12 4 = 8 ∧ s.microBatchCode 0 (peek k.2 4 4) (peek k.2 8 4) 8 = none) ∧
    (let e := subEntry 2 3 0 0 0
     let s := submitting 1 e
     s.Wf ∧ (s.pld 0).takesEntries = true ∧ 1 ∈ s.hif.masters ∧ 1 ∉ ({ s.hif with masters := [] } : HostIf).masters ∧ frontEntry s = e ∧ entryFormed e true = true ∧ peek e 0 1 = 2) ∧
    (∀ k ∈ [(0, subEntry 1 3 1 0 9, some 0x0901), (0, subEntry 1 3 1 0 0, some 0x0902), (0, subEntry 1 3 1 1 8, some 0x0907), (0, subEntry 1 3 2 0 8, some 0x0908),
        (1, subEntry 1 3 1 0 8, some 0x090B), (2, subEntry 3 3 1 0 8, none), (0, subEntry 2 3 0 0 0, none)], let s := submitting k.1 k.2.1
      s.Wf ∧ (s.pld 0).takesEntries = true ∧ s.queuesOn 0 = true ∧ s.cqRoom 0 1 = true ∧ s.hif.linkUp = true ∧ 1 ∈ s.hif.masters ∧ frontEntry s = k.2.1 ∧
        (entryFormed k.2.1 (k.1 == 1) = true ↔ k.2.2.isSome = true) ∧
        (k.2.2.isSome = true → s.microBatchCode 0 (peek k.2.1 4 4) (peek k.2.1 8 4) (peek k.2.1 12 4) = k.2.2)) ∧
    (∀ k ∈ [(0, false), (2, true)], let s := slotWaits k.1 k.2
      s.Wf ∧ (s.pld 0).state = .running ∧ (s.pld 0).mbWaiting = some (1, 7, 8, 3) ∧ (s.pld 0).retirePending = false ∧
        (∀ t ∈ (s.pld 0).tiles, (s.tile t).mon.slotEnd = true ∧ (s.tile t).ctr (s.pld 0).cat.slotCtr ≠ 0xFFFFFFFF) ∧ 100 ≤ (s.cc - (s.pld 0).slotCc).toNat) := by
  refine ⟨?_, meets (by decide), ?_, ?_⟩
  · intro k h
    simp only [List.mem_cons, List.not_mem_nil, or_false] at h
    rcases h with rfl | rfl <;> exact meets (by decide +kernel)
  · intro k h
    simp only [List.mem_cons, List.not_mem_nil, or_false] at h
    rcases h with rfl | rfl | rfl | rfl | rfl | rfl | rfl <;> exact meets (by decide +kernel)
  · intro k h
    simp only [List.mem_cons, List.not_mem_nil, or_false] at h
    rcases h with rfl | rfl <;> exact meets (by decide +kernel)

/-- SPK_NF_FIRST shows what is given, latched at a cc of 0; the event is of the polder's first step. -/
def ledgerFor (st : PolderState) (first : Word) (cc : Dword) (opened : Nat := 0) : State :=
  { clockAt [(0x60, cc)] (vfOn true (fun x => { x with state := st, train := { x.train with opened := opened } })) with
    regs := [(spkReg 0 0x05C, first)]
    nets := { (default : Nets) with
      ledgers := [{ polder := 0, tile := 0, entry := { tensor := 9, under := 1, nonfin := 2, ovt := true } }]
      events := [{ polder := 0, tile := 3, q := 2, code := 0x0701, tensor := 9, step := 0, mbIndex := 0, count := 5 }] } }

theorem witness_LedgersAndEventsReachTheCurator :
    (∀ st ∈ [PolderState.running, .clearing], let s := ledgerFor st 0 0
      s.Wf ∧ s.nets.ledgers[0]?.isSome = true ∧ s.nets.events[0]?.map (·.polder) = some 0 ∧ (s.pld 0).state = st ∧ s.cqRoom 0 1 = true ∧
        s.nets.events[0]?.map (·.opened) = some (s.pld 0).train.opened ∧ (s.reg (spkReg 0 0x05C)).toNat % 2 ^ 16 = 0) ∧
    (let s := ledgerFor .running 0 0 1
     s.Wf ∧ (s.pld 0).state.resident = true ∧ s.cqRoom 0 1 = true ∧ s.nets.events[0]?.map (·.opened) = some 0 ∧ (s.pld 0).train.opened = 1) ∧
    (let s := ledgerFor .running (wordOf (0x0701 + 4 * 2 ^ 16)) 1
     s.Wf ∧ (s.pld 0).state.resident = true ∧ s.cqRoom 0 1 = true ∧ (s.reg (spkReg 0 0x05C)).toNat % 2 ^ 16 ≠ 0 ∧ (s.pld 0).train.nfCc ≠ s.cc) ∧
    (let s := ledgerFor .running (wordOf (0x0701 + 3 * 2 ^ 16 + 3 * 2 ^ 24)) 0
     s.Wf ∧ (s.pld 0).state.resident = true ∧ s.cqRoom 0 1 = true ∧ (s.reg (spkReg 0 0x05C)).toNat % 2 ^ 16 ≠ 0 ∧ (s.pld 0).train.nfCc = s.cc ∧
       3 * 8 + 2 < (s.reg (spkReg 0 0x05C)).toNat / 2 ^ 16 % 2 ^ 8 * 8 + (s.reg (spkReg 0 0x05C)).toNat / 2 ^ 24 % 2 ^ 3) := by
  refine ⟨?_, meets (by decide), meets (by decide), meets (by decide)⟩
  intro k h
  simp only [List.mem_cons, List.not_mem_nil, or_false] at h
  rcases h with rfl | rfl <;> exact meets (by decide)

/-- A tensor of three units, the first of which is its header. -/
def grad3 : Tensor := { gradTensor with bytes := 3072 }

/-- Polder 0 is member 0 of a group of two, whose other member is polder 1 of the part, in a step with a gradient tensor. -/
def reducing (ph : Phase) (f : Group → Group) (g : Reduction → Reduction) : State :=
  let s := mapped default
  let grp : Group := { (default : Group) with size := 2, self := 0, members := [0, 4096] }
  { s with
    polders := [(0, { s.pld 0 with
      cat := { (default : Catalogue) with tensors := [grad3], window := 4, lossTensor := 0xFFFFFFFF }
      train := { (default : Training) with phase := ph }
      red := g { (default : Reduction) with loaded := true, groups := [f grp] } })] }

/-- A message of polder 1 to polder 0 that has reached the part's own queue. -/
def localMsg (type : Nat) (payload : List Byte) (s : State) : State :=
  let m : LinkMsg := { (default : LinkMsg) with src := 4096, payload := payload }
  { s with links := { s.links with localIn := [{ port := 16, type := type, msg := m, since := 0, came := none }] } }

def msgOf (payload : List Byte) : LinkMsg := { (default : LinkMsg) with src := 4096, payload := payload }

def localFirst (s : State) (type : Nat) (m : LinkMsg) : Bool :=
  (s.links.localIn.find? (fun o => o.msg.src == m.src && o.msg.dst == m.dst && o.msg.vc == m.vc)).any (fun o => o.type == type && o.msg == m)

/-- A body for a unit of tensor 9. -/
def unitBody (epoch unit : Nat) : List Byte := leBytes 4 9 ++ leBytes 4 epoch ++ leBytes 4 unit ++ List.replicate 768 1

/-- A token of tensor 9 for a slice. -/
def tokenBody (slice epoch : Nat) : List Byte :=
  [0, 0] ++ leBytes 2 slice ++ leBytes 4 9 ++ leBytes 4 epoch ++ leBytes 4 0 ++ List.replicate 48 0

set_option maxRecDepth 20000 in
theorem witness_ReductionMessagesTakeEffect :
    (let m := msgOf (Config.messageBody 2 [0, 5])
     let s := localMsg 2 m.payload (reducing .slots id id)
     s.Wf ∧ (∃ o, s.links.localIn = [o] ∧ o.type = 2 ∧ o.msg = m) ∧ s.redAccepts 0 m.src = true ∧ ((s.pld 0).red.group 0).memberOf m.src = some 1) ∧
    (∀ e ∈ [0#32, 1#32], let m := msgOf (Config.messageBody 4 [0, e.toNat, 2])
     let s := localMsg 4 m.payload (reducing .reducing id id)
     s.Wf ∧ (∃ o, s.links.localIn = [o] ∧ o.type = 4 ∧ o.msg = m) ∧ s.redAccepts 0 m.src = true ∧ ((s.pld 0).red.group 0).memberOf m.src = some 1 ∧
       s.reg (pldReg 0 0x304) = 0) ∧
    (∀ k ∈ [(3, 0, 1), (3, 1, 1), (3, 0, 2), (6, 0, 0), (6, 0, 1), (6, 0, 2), (6, 0, 3)], let m := msgOf (unitBody k.2.1 k.2.2)
     let s := localMsg k.1 m.payload (reducing .reducing id id)
     s.Wf ∧ localFirst s k.1 m = true ∧ s.redAccepts 0 m.src = true ∧ s.namedUnit 0 m = some (grad3, 0, 1, k.2.2) ∧ grad3.slice 0 2 = [1] ∧
       grad3.units = 2 ∧ (∀ u, u < 3 → s.unitAt 0 grad3 u = some (atHbm (5 * 2 ^ 21 + 1024 * u)))) ∧
    (∀ k ∈ [(0, []), (0, [1]), (1, [])], let m := msgOf (tokenBody 1 k.1)
     let s := localMsg 5 m.payload (reducing .reducing id (fun r => { r with tokens := k.2.map (fun i => { tokenOf (tokenBody i 0) with slice := i }) }))
     s.Wf ∧ localFirst s 5 m = true ∧ s.redAccepts 0 m.src = true ∧ (tokenOf m.payload).tensor = 9 ∧
       (s.pld 0).cat.gradients.find? (fun t => t.id == 9) = some grad3 ∧ peek m.payload 8 4 = k.1 ∧
       (decide (∃ o ∈ (s.pld 0).red.tokens, o.tensor = 9 ∧ o.slice = 1) = decide (k.2 = [1]))) := by
  refine ⟨⟨wf_of (by decide), ⟨_, rfl, rfl, rfl⟩, by decide, by decide⟩, ?_, ?_, ?_⟩
  · intro e h
    simp only [List.mem_cons, List.not_mem_nil, or_false] at h
    rcases h with rfl | rfl <;> exact ⟨wf_of (by decide), ⟨_, rfl, rfl, rfl⟩, by decide, by decide, by decide⟩
  · intro k h
    simp only [List.mem_cons, List.not_mem_nil, or_false] at h
    rcases h with rfl | rfl | rfl | rfl | rfl | rfl | rfl <;> exact meets (by decide +kernel)
  · intro k h
    simp only [List.mem_cons, List.not_mem_nil, or_false] at h
    rcases h with rfl | rfl | rfl <;> exact meets (by decide +kernel)

/-- A slot of the shared engine k for polder p. -/
def slotIs (k p : Nat) (x : Slot) (s : State) : State := { s with links := { s.links with slots := s.links.slots ++ [(k * 16 + p, x)] } }

/-- The first host read of polder 0 and, where its slot is parked, what has landed for it; polder 1's read waits on the engine. -/
def hostTurn (parked : Bool) : State :=
  let r := if parked then { (default : Req) with len := 4, data := [1, 2, 3, 4], tgt := some { space := .host, dev := 0, off := 0 }, stage := .landed }
    else { (default : Req) with len := 4, tgt := some { space := .host, dev := 0, off := 0 }, stage := .hostWait }
  slotIs 16 1 { (default : Slot) with running := true, remote := true, cur := some 9 } (slotIs 16 0 { (default : Slot) with parked := parked, cur := if parked then some 0 else none }
    { inFlight r with polders := [(0, op0.pld 0), (1, default)], links := default })

/-- Polder 0's reduction sequence runs with one member to send to, of this part or by port 4; messages may wait in its slot. -/
def sendingHome (far : Bool) (out : List OutMsg) : State :=
  let s := slotIs 18 0 { (default : Slot) with running := true, out := out }
    (reducing .reducing (fun g => { g with opened := [(1, 0)], members := [0, if far then 4099 else 4096] }) id)
  { s with
    regs := (prtPage 0 + 0x81C, 0x14) :: s.regs
    links := { s.links with ports := [(4, { (default : Port) with mode := 1, state := .up, lanes := 15 })] } }

def outMsg : OutMsg := { port := 16, type := 6, msg := default, since := 0, came := none }

/-- The sequence can seal a slice; messages may wait in its slot. -/
def sealing (out : List OutMsg) : State :=
  slotIs 18 0 { (default : Slot) with running := true, out := out } (reducing .reducing (fun g => { g with sent := [1], done := [(1, 3)], got := [(1, 2)] }) id)

theorem witness_SharedSequencesTakeTurns :
    (∀ k ∈ [false, true], let s := slotIs 18 0 { (default : Slot) with running := k } (reducing .reducing (fun g => { g with opened := [(1, 0)] }) id)
     s.Wf ∧ (s.pld 0).state = .running ∧ (s.pld 0).train.phase = .reducing ∧ (s.slot 18 0).running = k ∧ (s.slot 18 0).remote = false ∧
       (k = false → s.startTurn 18 0 s.redReady = true) ∧ s.nextHome 0 = some (0, 1)) ∧
    (∀ k ∈ [(false, []), (false, [outMsg]), (true, [])], let s := sendingHome k.1 k.2
     s.Wf ∧ s.nextHome 0 = some (0, 1) ∧ (s.slot 18 0).out = k.2 ∧ s.slotCredit 0 (((s.pld 0).red.group 0).addr 1) = 0 ∧
       s.egress (((s.pld 0).red.group 0).addr 1).toNat = if k.1 then .by_ 4 else .here) ∧
    (∀ o ∈ [[], [outMsg]], let s := sealing o
     s.Wf ∧ s.sealable 0 0 = some grad3 ∧ (s.pld 0).state = .running ∧ (s.slot 18 0).running = true ∧ (s.slot 18 0).out = o ∧
       (s.sealUnits 0 grad3 ((s.pld 0).crest grad3 - 62) [] (grad3.slice 0 2)).1.isSome = true ∧
       ∀ h ∈ ((s.pld 0).red.group 0).others, s.egress (((s.pld 0).red.group 0).addr h).toNat = .here) ∧
    (∀ k ∈ [false, true], let s := hostTurn k
     s.Wf ∧ s.startTurn 16 0 (s.hostReady 16) = true ∧ (s.slot 16 1).running = true ∧ (s.slot 16 0).parked = k ∧
       ∃ r ∈ s.store.reqs, s.findReq r.id = some r ∧
         if k then (s.slot 16 0).cur = some r.id ∧ r.stage = .landed else (match s.hostWork 16 0 with | some (.request r') => r' == r | _ => false) = true) := by
  refine ⟨?_, ?_, ?_, ?_⟩
  rotate_left
  · intro k h
    simp only [List.mem_cons, List.not_mem_nil, or_false] at h
    rcases h with rfl | rfl | rfl <;> exact meets (by decide +kernel)
  all_goals
    (intro k h; simp only [List.mem_cons, List.not_mem_nil, or_false] at h; rcases h with rfl | rfl <;> exact meets (by decide +kernel))

/-- Both tokens of the step have come, with the flags of the second, and its largest exponent. -/
def complete2 (flags : Nat) (e : Int) (f : Polder → Polder) : State :=
  let tok (i : Nat) : Token := { slice := i, tensor := 9, flags := if i = 1 then flags else 0, maxExp := if i = 1 then e else -32768, finals := 0, under := 0, nonfin := 0, ovtElems := 0 }
  let s := reducing .reducing id (fun r => { r with tokens := [tok 0, tok 1], complete := [9] })
  { s with
    polders := [(0, f (s.pld 0))]
    conservators := [(0, { (default : Conservator) with running := some 0, holding := true })] }

theorem witness_StepVerdicts :
    ∀ k ∈ [(0, 0), (1, 0), (2, 0), (4, 0), (0, (287 : Int)), (0, 288)], ∀ l ∈ [9#32, 0xFFFFFFFF#32],
      let s := complete2 k.1 k.2 (fun x => { x with cat := { x.cat with lossTensor := l, action := 2 } })
      s.Wf ∧ (s.pld 0).state = .running ∧ (s.pld 0).cat.kind = 0 ∧ (s.pld 0).train.phase = .reducing ∧ (s.pld 0).train.verdict = none ∧
        (∀ e ∈ s.nets.events, e.polder ≠ 0) ∧ (s.pld 0).allComplete = true ∧ s.contributed 0 = true ∧ (s.pld 0).cat.monitorOn = decide (l = 9) ∧ (s.pld 0).candidate grad3 = max k.2 0 ∧ (s.cns 0).running = some 0 := by
  intro k h l h'
  simp only [List.mem_cons, List.not_mem_nil, or_false] at h h'
  rcases h with rfl | rfl | rfl | rfl | rfl | rfl <;> rcases h' with rfl | rfl <;> exact meets (by decide +kernel)

def verdictOf (skip hold : Bool) (loss : Option Word) : Verdict := { (default : Verdict) with skip := skip, hold := hold, loss := loss }

/-- The step's verdict stands; no conservator has a descriptor of the polder. -/
def decided (v : Verdict) (l : Word) : State :=
  complete2 0 0 (fun x => { x with cat := { x.cat with lossTensor := l }, train := { x.train with verdict := some v, phase := if v.skip then .evaluating else .updating } })

theorem witness_StepCommits :
    ∀ v ∈ [verdictOf false false none, verdictOf false false (some 0x40000000), verdictOf false false (some 0x7F800000), verdictOf true true (some 0x40000000),
        verdictOf true false none], ∀ l ∈ [9#32, 0xFFFFFFFF#32], let s := decided v l
      s.Wf ∧ (s.pld 0).state = .running ∧ (s.pld 0).train.verdict = some v ∧ s.updated 0 = true ∧ s.queuesOn 0 = false ∧
        (s.pld 0).cat.monitorOn = decide (l = 9) := by
  intro k h l h'
  simp only [List.mem_cons, List.not_mem_nil, or_false] at h h'
  rcases h with rfl | rfl | rfl | rfl | rfl <;> rcases h' with rfl | rfl <;> exact meets (by decide +kernel)

/-- An update entry of one row over a master tensor at address 0, whose statistics are tensor 11. -/
def updating (ph : Phase) (flags : Nat) (c : Conservator) : State :=
  let s := mapped default
  let u : Update := { (default : Update) with master := 10, grad := 9, stats := 11, rows := 1, cols := 64 }
  { s with
    polders := [(0, { s.pld 0 with
      cat := { (default : Catalogue) with updates := [u], tensors := [{ gradTensor with id := 10, flags := flags }, { gradTensor with id := 11, va := 4096 }] }
      train := { (default : Training) with phase := ph }
      red := { (default : Reduction) with complete := [9] } })]
    conservators := [(0, c)] }

theorem witness_ConservatorDescriptors :
    (∀ k ∈ [(Phase.updating, (default : Conservator)), (.reducing, default), (.updating, { (default : Conservator) with running := some 1, holding := true }),
        (.updating, { (default : Conservator) with accOf := some (1, 0) }), (.updating, { (default : Conservator) with accOf := some (0, 0) })],
      let s := updating k.1 0 k.2
      s.Wf ∧ s.nextDesc 0 0 = some { entry := 0, first := 0, rows := 1 } ∧ s.cnsReady 0 0 true = true ∧ (s.cns 0) = k.2 ∧
        (if k.1 = .updating then s.cnsReady 0 0 false = true ∧ s.chooses (cnsResource 0) (fun r => s.cnsReady 0 r false) = some 0
          else (s.cns 0).running = none ∧ s.cnsReady 0 0 false = false ∧ s.chooses (cnsResource 0) (fun r => s.cnsReady 0 r true) = some 0) ∧
        ∀ r, r < 16 → r ≠ 0 → s.cnsReady 0 r false = false) ∧
    (let s := updating .updating 0 default
     let x := s.pld 0
     s.Wf ∧ (s.cns 0).accOf = none ∧ (x.cat.find (x.update 0).master).map (·.va) = some 0 ∧ 0 < (x.update 0).cols ∧
        ((((s.yieldHeld 0).useSlot (cnsResource 0) 0 false).cnsXl 0 0 0 false .clean).1 = some (atHbm (5 * 2 ^ 21))) ∧ s.routeUp 0 0 = true) ∧
    (∀ fl ∈ [0, 2], let s := updating .updating fl { (default : Conservator) with running := some 0 }
      s.Wf ∧ (s.cns 0).running = some 0 ∧ (s.pld 0).train.phase = .updating ∧ s.nextDesc 0 0 = some { entry := 0, first := 0, rows := 1 } ∧
        ((s.pld 0).cat.find ((s.pld 0).update 0).master).map (fun t => bitAt t.flags 1) = some (decide (fl = 2)) ∧
        ((s.pld 0).cat.find ((s.pld 0).update 0).stats).isSome = true) := by
  refine ⟨?_, meets (by decide +kernel), ?_⟩
  · intro k h
    simp only [List.mem_cons, List.not_mem_nil, or_false] at h
    rcases h with rfl | rfl | rfl | rfl | rfl <;> exact meets (by decide +kernel)
  · intro k h
    simp only [List.mem_cons, List.not_mem_nil, or_false] at h
    rcases h with rfl | rfl <;> exact meets (by decide +kernel)

/-! ### Serving -/

def plan1 : ServePlan :=
  { (default : ServePlan) with layers := 1, hgCount := 1, maxSeqs := 2, maxPages := 2, maxBatch := 2, blockBytes := 64, poolPages := 4, depPages := 4, kvPool := 10, kvSpill := 12 }

/-- Polder 0 serves: its pools are tensors 10 on stack 0 and 12 on depot channel 0, its control regions stand at the start of its share of die 0. -/
def serving (f : Serving → Serving) (g : Polder → Polder) : State :=
  let s := mapped default
  { s with
    polders := [(0, g { s.pld 0 with
      cat := { (default : Catalogue) with kind := 1, mbMax := 8, serve := plan1, tensors := [{ gradTensor with id := 10 }, { gradTensor with id := 12, va := 2 ^ 40 }] }
      serve := f (default : Serving) })]
    regs := [(pldReg 0 0x200, 100), (pldReg 0 0x204, 1), (pldReg 0 0x208, 200), (pldReg 0 0x20C, 1), (pldReg 0 0x220, wordOf (2 ^ 16 * 4))]
    store := { s.store with
      tabD0 := s.store.tabD0 ++ [(200, dwordOf (7 + 5 * 2 ^ 21))], tabD4 := s.store.tabD4 ++ [(200, dwordOf (7 + 5 * 2 ^ 21))] } }

/-- An intake record at bus address 64 of a step, with the counts and what follows. -/
def intakeRec (step news cancels : Nat) (rest : List Byte) : List Byte :=
  leBytes 2 1 ++ [0, 0] ++ leBytes 4 step ++ leBytes 2 news ++ leBytes 2 cancels ++ leBytes 4 0 ++ rest

/-- A descriptor of a sequence: a prompt of some tokens in the host window, and at most max new ones. -/
def seqDesc (id len max : Nat) : List Byte :=
  leBytes 8 id ++ leBytes 8 (2 ^ 46) ++ leBytes 4 len ++ leBytes 4 max ++ [3] ++ List.replicate 7 0 ++ leBytes 8 77 ++ List.replicate 24 0

def seqIs (id : Nat) : Sequence := { (default : Sequence) with id := dwordOf id, promptLen := 3, maxNew := 5 }

def takingIntake (r : List Byte) (seqs : List Sequence) : State :=
  let s := serving (fun v => { v with seqs := seqs, arrivals := 7 }) (fun x => { x with intakes := [(9, 64)] })
  { s with hif := { s.hif with masters := [1] }, store := { s.store with host := Mem.writeN [] 64 r }, vfRegs := [(0x028, 16), (0x02C, 1)] }

set_option maxRecDepth 20000 in
theorem witness_IntakesAreTakenInOrder :
    (∀ k ∈ [(intakeRec 0 2 0 (seqDesc 5 1 127 ++ seqDesc 6 1 1), 2, 0), (intakeRec 0 1 0 (seqDesc 5 1 128), 1, 0), (intakeRec 0 1 0 (seqDesc 4 1 1), 1, 0),
        (intakeRec 0 0 1 (leBytes 8 4), 0, 1), (intakeRec 0 0 1 (leBytes 8 5), 0, 1), (intakeRec 1 0 0 [], 0, 0), (intakeRec 0 1025 0 [], 1025, 0),
        (intakeRec 0 0 4096 [], 0, 4096), (intakeRec 0 2 0 (seqDesc 5 1 128 ++ seqDesc 5 1 1), 2, 0)], let s := takingIntake k.1 [seqIs 4]
      s.Wf ∧ (s.pld 0).intakes = [(9, 64)] ∧ (s.pld 0).state = .running ∧ (s.pld 0).serve.records = [] ∧ (s.pld 0).serve.planned = false ∧
        (s.pld 0).serve.boundary = none ∧ 1 ∈ s.hif.masters ∧ s.queuesOn 0 = true ∧ s.cqRoom 0 1 = false ∧ peek (s.hostRead 64 16) 8 2 = k.2.1 ∧ peek (s.hostRead 64 16) 10 2 = k.2.2) ∧
    (∀ k ∈ [(true, none), (false, some true)], let s := serving (fun v => { v with planned := k.1, boundary := k.2 }) (fun x => { x with intakes := [(9, 64)] })
      s.Wf ∧ (s.pld 0).intakes = [(9, 64)] ∧ (s.pld 0).state = .running ∧ (s.pld 0).serve.records = [] ∧ (s.pld 0).serve.planned = k.1 ∧
        (s.pld 0).serve.boundary = k.2) ∧
    (let s := serving id (fun x => { x with intakes := [(9, 64)] })
     s.Wf ∧ (s.pld 0).intakes = [(9, 64)] ∧ (s.pld 0).serve.planned = false ∧ (s.pld 0).serve.boundary = none ∧ 1 ∉ s.hif.masters) ∧
    (descriptorOk plan1 (seqDesc 5 1 127) = true ∧ descriptorOk plan1 (seqDesc 5 1 128) = false) := by
  refine ⟨?_, ?_, meets (by decide), by decide, by decide⟩
  rotate_left
  · intro k h
    simp only [List.mem_cons, List.not_mem_nil, or_false] at h
    rcases h with rfl | rfl <;> exact meets (by decide)
  intro k h
  simp only [List.mem_cons, List.not_mem_nil, or_false] at h
  rcases h with rfl | rfl | rfl | rfl | rfl | rfl | rfl | rfl | rfl <;> exact meets (by decide +kernel)

theorem witness_BoundariesPlanTheStep :
    ∀ k ∈ [(false, false), (true, false), (true, true)],
      let s := serving (fun v => { v with seqs := [seqIs 4], intakeOk := !k.1 }) (fun x => { x with retirePending := k.1 })
      let s := { s with vfRegs := if k.2 then [(0x028, 16), (0x02C, 1)] else [] }
      s.Wf ∧ (s.pld 0).state = .running ∧ (s.pld 0).cat.kind = 1 ∧ (s.pld 0).ended = false ∧ s.stepOver 0 = true ∧
        (s.pld 0).serve.planned = false ∧ ((s.pld 0).serve.intakeOk = true ∨ (s.pld 0).retirePending = true) ∧ (s.pld 0).serve.toCopy = [] ∧
        (s.pld 0).serve.moves = [] ∧ (s.pld 0).serve.records = [] ∧ (s.pld 0).serve.boundary = none ∧ (s.pld 0).resultPieces = [] ∧
        ((s.queuesOn 0 = true ∧ (s.planBoundary 0).records ≠ [] ∧ s.cqRoom 0 (s.planBoundary 0).records.length = false) ↔ k.2 = true) := by
  intro k h
  simp only [List.mem_cons, List.not_mem_nil, or_false] at h
  rcases h with rfl | rfl | rfl <;> exact meets (by decide +kernel)

/-- As many running sequences as MAX_MB_LEN, with IDs of their own. -/
theorem witness_StepsStayWithinMaxLength :
    let s := serving (fun v => { v with seqs := (List.range 8).map (fun i => { seqIs i with state := .running }) }) id
    (s.pld 0).serve.seqs.Pairwise (fun a b => a.id ≠ b.id) ∧ (s.pld 0).serve.seqs.countP (fun q => q.state == .running) ≤ (s.pld 0).cat.mbMax := by
  decide +kernel

def entry1 : BatchEntry := { seqId := 4, slot := 0, prefill := true, sample := true, pos := 0, count := 3, seed := 0, new := 0 }

theorem witness_ServingStepsStart :
    (∀ rest ∈ [[], [({ src := { shelf := 0, num := 1 }, dst := { shelf := 1, num := 0 }, arrived := 2 } : Move)]],
      let m : Move := { src := { shelf := 1, num := 0 }, dst := { shelf := 0, num := 0 }, arrived := 1 }
      let s := slotIs 16 0 { (default : Slot) with running := true } (serving (fun v => { v with moves := m :: rest }) id)
      s.Wf ∧ (s.pld 0).state = .running ∧ (s.pld 0).serve.moves = m :: rest ∧ s.runningMove 0 = some (16, m) ∧ (s.slot 16 0).parked = false ∧
        (s.pld 0).cat.serve.layers * (s.pld 0).cat.serve.hgCount = 1 ∧ walkerDie 4 = 0 ∧ s.routeUp 4 0 = true ∧ (s.pld 0).cat.serve.blockBytes ≤ 1024 ∧
        blockVa (s.pld 0).cat m.src 0 % 1024 = 0 ∧ blockVa (s.pld 0).cat m.dst 0 % 1024 = 0 ∧
        s.translate 0 0 (blockVa (s.pld 0).cat m.src 0) false = .at_ { space := .depot, dev := 0, off := 5 * 2 ^ 21 } ∧
        s.translate 0 0 (blockVa (s.pld 0).cat m.dst 0) true = .at_ (atHbm (5 * 2 ^ 21)) ∧ s.accumulates (atHbm (5 * 2 ^ 21)) = false) ∧
    (let m : Move := { src := { shelf := 1, num := 0 }, dst := { shelf := 0, num := 0 }, arrived := 1 }
     let s := slotIs 16 0 { (default : Slot) with parked := true, remote := true } (serving (fun v => { v with moves := [m] }) id)
     s.Wf ∧ (s.pld 0).state = .running ∧ s.runningMove 0 = some (16, m) ∧ (s.slot 16 0).parked = true) ∧
    (∀ d ∈ [[], [1]], let s := serving (fun v => { v with toCopy := [1], deferred := d }) id
      s.Wf ∧ (s.pld 0).serve.toCopy = [1] ∧ (s.pld 0).serve.deferred = d ∧ 0 < (s.pld 0).cat.serve.maxPages * 4 ∧
        (s.curatorFetch 0 [] (kibs (rowVa (s.pld 0).cat 0 1) 8)).1.isSome = true ∧
        s.translate 0 0 (rowVa (s.pld 0).cat 0 1) false = .at_ (atCol 8) ∧ s.translate 0 0 (rowVa (s.pld 0).cat 1 1) true = .at_ (atCol 1032)) ∧
    (let s := serving (fun v => { v with planned := true, next := [entry1] }) id
     s.Wf ∧ (s.pld 0).cat.kind = 1 ∧ s.slotReady 0 = true ∧ (s.pld 0).serve.planned = true ∧ (s.pld 0).serve.moves = [] ∧
       (s.pld 0).serve.records = [] ∧ (s.pld 0).ended = false ∧ s.queuesOn 0 = false ∧ (s.pld 0).planPieces ≠ [] ∧
       ∀ c ∈ (s.pld 0).planPieces, (match s.translate 0 0 c.1 false with | .at_ _ => true | _ => false) = true) := by
  refine ⟨?_, meets (by decide +kernel), ?_, meets (by decide +kernel)⟩ <;>
    (intro k h; simp only [List.mem_cons, List.not_mem_nil, or_false] at h; rcases h with rfl | rfl <;> exact meets (by decide +kernel))

/-! ### Links -/

/-- The part has identity 5, and a port as given. -/
def portIs (n : Nat) (x : Port) : State :=
  { clockAt [(0x40 + n, 2048), (0x60, 1200000), (0x61, 1200000)] op0 with
    regs := [(prtPage 0 + 0x800, 0x1005)]
    links := { (default : Links) with ports := [(n, x)] } }

def upPort (mode : Nat) : Port := { (default : Port) with mode := mode, state := .up, lanes := 15 }

theorem witness_PortsTrainAndGoDown :
    (∀ m ∈ [0, 1], let s := portIs 15 (upPort 1)
      s.Wf ∧ s.portPowered 15 = true ∧ s.portReached 15 = true ∧ s.prtCtlIgnored 15 m = false ∧ s.prtCtlIgnored 15 3 = true ∧ (s.port 15).mode = 1 ∧ (s.port 15).state = .up) ∧
    (State.reset.Wf ∧ State.reset.portPowered 15 = false ∧ State.reset.portReached 15 = false) ∧
    (∀ m ∈ [1, 2], let s := portIs 8 { (default : Port) with mode := m, state := .training }
      s.Wf ∧ (s.port 8).state = .training ∧ (s.port 8).waitIdent = false ∧ (s.port 8).mode = m ∧ (s.port 8).waitTx = []) ∧
    (let s := portIs 7 { (default : Port) with mode := 1, state := .training, waitIdent := true }
     s.Wf ∧ (s.port 7).mode = 1 ∧ (s.port 7).waitIdent = true ∧ (s.port 7).takesOne default = true ∧ 1200000 ≤ (s.now 0x60 - (s.port 7).identCc).toNat) ∧
    (∀ st ∈ [PortState.down, .miswired], let s := portIs 8 { (default : Port) with mode := 1, state := st }
      s.Wf ∧ (s.port 8).state = st ∧ (s.port 8).mode ≠ 0 ∧ s.portPowered 8 = true ∧ s.boot.s0Lost = false ∧ 1200000 ≤ (s.now 0x61 - (s.port 8).downCc).toNat) := by
  refine ⟨?_, meets (by decide), ?_, meets (by decide), ?_⟩ <;>
    (intro k h; simp only [List.mem_cons, List.not_mem_nil, or_false] at h; rcases h with rfl | rfl <;> exact meets (by decide))

def waitingMsg : OutMsg := { port := 3, type := 1, msg := { (default : LinkMsg) with payload := [1] }, since := 0, came := none }

theorem witness_LinksRetryAndPause :
    (∀ f ∈ [14, 15], let s := portIs 3 { upPort 1 with fails := f, retry := [{ (default : Flit) with fseq := 7 }] }
      s.Wf ∧ (s.port 3).state = .up ∧ (s.port 3).mode = 1 ∧ 2048 ≤ (s.now 0x43 - (s.port 3).ackLc).toNat ∧ (s.port 3).fails = f ∧ (s.port 3).waitTx = [] ∧
        (s.port 3).discarding = false ∧ ∀ j, j < 16 → (s.port j).owes = false) ∧
    (let s := portIs 3 { upPort 1 with discarding := true }
     s.Wf ∧ (s.port 3).state = .up ∧ (s.port 3).discarding = true) ∧
    (let s := portIs 3 { upPort 1 with waitTx := [waitingMsg], spent := [(creditKey waitingMsg.msg, vcBuffer waitingMsg.msg.vc.toNat)] }
     s.Wf ∧ (s.port 3).waitTx = [waitingMsg] ∧ (s.port 3).discarding = false ∧
       vcBuffer waitingMsg.msg.vc.toNat ≤ Table.get 0 (Table.put 0 (s.port 3).spent 1 (Table.get 0 (s.port 3).spent 1 - 0)) (creditKey waitingMsg.msg)) ∧
    (let s := portIs 3 { upPort 1 with waitTx := [waitingMsg] }
     s.Wf ∧ (s.port 3).waitTx = [waitingMsg] ∧ (s.port 3).discarding = false ∧ Table.get 0 (s.port 3).started (creditKey waitingMsg.msg) = 0 ∧ 0 + msgFlits waitingMsg.msg ≤ vcBuffer 0 ∧ msgFlits waitingMsg.msg ≤ 256) ∧
    (let s := { portIs 3 (upPort 2) with links := { (default : Links) with ports := [(3, upPort 2)], ctxs := [{ (default : PeerCtx) with port := 3, peer := 9, unacked := [waitingMsg] }] }, regs := [(prtPage 3 + 0x094, 2)] }
     s.Wf ∧ (s.port 3).state = .up ∧ (s.port 3).mode = 2 ∧ (s.ctx 3 9).unacked ≠ [] ∧
       (s.reg (prtPage 3 + 0x094)).toNat % 65536 * 1024 ≤ (s.now 0x43 - (s.ctx 3 9).lc).toNat) := by
  refine ⟨?_, meets (by decide), meets (by decide), meets (by decide), meets (by decide)⟩
  intro k h; simp only [List.mem_cons, List.not_mem_nil, or_false] at h; rcases h with rfl | rfl <;> exact meets (by decide)

/-- Port 3 is up, and polder 0 runs with a receive region of 128 bytes there, and peer 9. -/
def linked (f : Polder → Polder) (mode : Nat) : State :=
  let s := mapped default
  { s with
    regs := [(prtPage 0 + 0x800, 0x1005)] ++ s.regs
    links := { (default : Links) with ports := [(3, upPort mode), (4, upPort 1)] }
    polders := [(0, f { s.pld 0 with links := [{ port := 3, die := 0, log2 := 0, off := 0, recvVa := 0, recvBytes := 128, pos := 0 }], peers := [9] })] }

def writeMsg (dst off : Nat) : LinkMsg :=
  { (default : LinkMsg) with vc := 2, dst := BitVec.ofNat 16 dst, src := 9, dstOff := wordOf off, payload := List.replicate 64 6, last := true, sigEn := true, sigTile := 7, sigCtr := 3, flits := [default] }

theorem witness_WritesAndCreditsArrive :
    (∀ off ∈ [64, 65], let s := linked id 1
      s.Wf ∧ (s.port 3).state = .up ∧ (s.port 3).mode = 1 ∧ peerPart (writeMsg 5 off) = s.partId ∧ (s.port 3).takes (writeMsg 5 off) = true ∧
        (((writeMsg 5 off).flits.foldl (fun s f => s.takeHeader 3 f) s).port 3).state = .up ∧
        (s.port 3).takes { writeMsg 5 off with flits := [] } = false ∧ s.routeUp 4 0 = true ∧
        ((s.pld 0).links.find? (fun e => e.port == 3)).isSome = true ∧ (s.pld 0).state = .running ∧ 9 ∈ (s.pld 0).peers ∧
        s.translate 0 0 64 true = .at_ (atHbm (5 * 2 ^ 21 + 64)) ∧ (s.pld 0).tiles[7]? = some 7 ∧ (s.pld 0).knows 9 = true) ∧
    ((linked (fun x => { x with peers := [] }) 1).Wf ∧ 9 ∉ ((linked (fun x => { x with peers := [] }) 1).pld 0).peers ∧
      ((linked (fun x => { x with peers := [] }) 1).pld 0).knows 9 = false) ∧
    (∀ h ∈ [57, 64], let s := { linked id 1 with links := { (linked id 1).links with held := [(48, h)] } }
      s.Wf ∧ Table.get 0 s.links.held 48 = h ∧ s.links.asks = []) ∧
    (let s := { linked id 1 with regs := [(prtPage 0 + 0x800, 0x1005), (prtPage 0 + 0x828, 0x14)] }
     let o : OutMsg := { port := 4, type := 1, msg := { writeMsg 6 0 with cls := s.leaveClass 4 (some (3, false)), flits := [] }, since := s.now 0x44, came := some (3, creditKey (writeMsg 6 0)) }
     s.Wf ∧ (s.port 3).takes (writeMsg 6 0) = true ∧ (s.port 3).waitTx = [] ∧ s.routeUp 4 4 = true ∧ peerPart (writeMsg 6 0) ≠ s.partId ∧ s.egress 6 = .by_ 4 ∧ (s.port 4).mode = 1 ∧ (s.port 4).waitTx = [] ∧
       Table.get 0 (s.port 4).started (creditKey o.msg) = 0 ∧
       Table.get 0 (s.port 4).spent (creditKey o.msg) + msgFlits (writeMsg 6 0) ≤ vcBuffer 0 ∧ (s.port 4).retry.length + msgFlits (writeMsg 6 0) ≤ 256) ∧
    (let s := { linked id 1 with regs := [(prtPage 0 + 0x800, 0x1005), (prtPage 0 + 0x828, 0x1C)], seams := []
                                 links := { (linked id 1).links with ports := [(3, upPort 1), (12, upPort 1)] } }
     s.Wf ∧ (s.port 3).takes (writeMsg 6 0) = true ∧ peerPart (writeMsg 6 0) ≠ s.partId ∧ s.egress 6 = .by_ 12 ∧ s.routeUp 4 5 = false) ∧
    (let s := linked id 1
     s.Wf ∧ peerPart (writeMsg 6 0) ≠ s.partId ∧ s.egress 6 = .drop 0) ∧
    (∀ j, j < 16 ∨ j = 18 → ((linked id 1).slot j 0).out = []) := by
  refine ⟨?_, meets (by decide +kernel), ?_, meets (by decide +kernel), meets (by decide +kernel), meets (by decide +kernel), fun j _ => rfl⟩ <;>
    (intro k h; simp only [List.mem_cons, List.not_mem_nil, or_false] at h; rcases h with rfl | rfl <;> exact meets (by decide +kernel))

def sendTo (dst : Nat) (begun : Bool) : SendDesc :=
  { vc := 2, doneEn := true, doneTile := 7, doneCtr := 2, sigEn := false, dst := dst, sigTile := 0, sigCtr := 0, srcVa := 64, dstOff := 0, len := 64, begun := begun }

def waitingAck (parked : Bool) : State :=
  let s := linked id 1
  { s with links := { s.links with slots := [(48, { (default : Slot) with sends := [sendTo 9 true], remote := true, running := !parked, parked := parked })] } }

def sent1 (psn : Nat) : OutMsg := { port := 3, type := 1, msg := { (default : LinkMsg) with psn := wordOf psn }, since := 0, came := none }

def ackOf (psn : Nat) : LinkMsg := { (default : LinkMsg) with dst := 5, src := 9, psn := wordOf psn, flits := [default] }

/-- The ACK in a frame for port 3 of the part that passes its checks, or not. -/
def ackFrame (s : State) (ok : Bool) : LinkMsg :=
  { ackOf 5 with frame := { mac := BitVec.ofNat 48 (s.reg64 (prtPage 3 + 0x080)), addr := BitVec.ofNat 128 (s.v6Addr s.partId 3), intact := ok } }

theorem witness_AcksAndAlarmsArrive :
    (∀ k ∈ [false, true], let s := waitingAck k
      s.Wf ∧ (s.port 3).state = .up ∧ (s.port 3).mode = 1 ∧ peerPart (ackOf 0) = s.partId ∧ (s.port 3).takes (ackOf 0) = true ∧
        (((ackOf 0).flits.foldl (fun s f => s.takeHeader 3 f) s).port 3).state = .up ∧ (s.slot 3 0).remote = true ∧ (s.slot 3 0).out = [] ∧
        (s.slot 3 0).sends = [sendTo 9 true] ∧ (s.slot 3 0).parked = k ∧ (s.slot 3 0).frozen = false ∧ (∀ i, i < 16 → i ≠ 3 → (s.slot i 0).remote = false) ∧
        (s.pld 0).tiles[7]? = some 7) ∧
    (let s := { linked id 2 with links := { (linked id 2).links with ctxs := [{ (default : PeerCtx) with port := 3, peer := 9, unacked := [sent1 4, sent1 5, sent1 6] }] } }
     s.Wf ∧ (s.port 3).mode = 2 ∧ (s.port 3).waitTx = [] ∧ covered (ackOf 5).psn (s.ctx 3 9).unacked = 2 ∧
       s.frameOk 3 (ackFrame s true) = true ∧ s.frameOk 3 (ackFrame s false) = false) ∧
    (∀ l ∈ [[], [(70, 1)]], let s := { linked (fun x => { x with cat := { (default : Catalogue) with ports := 16 } }) 1 with links := { (linked id 1).links with alarms := l } }
      s.Wf ∧ (s.port 3).state = .up ∧ (s.port 3).mode = 1 ∧ s.partId / 64 % 64 = 0 ∧ s.namesNative (s.pld 0) = true ∧ (s.pld 0).state.resident = true ∧
        (s.port 3).takesOne default = true ∧ (s.port 3).takesOne { (default : FlitHdr) with fseq := 0xFFF } = false ∧
        ((s.takeHeader 3 default).port 3).state = .up ∧
        decide ((70, 1) ∈ s.links.alarms) = decide (l ≠ [])) := by
  refine ⟨?_, meets (by decide +kernel), ?_⟩ <;>
    (intro k h; simp only [List.mem_cons, List.not_mem_nil, or_false] at h; rcases h with rfl | rfl <;> exact meets (by decide +kernel))

/-- A send ring of 16 entries at the start of the share on die 0, whose first entry is as given. -/
def ringOfSends (b : List Byte) (pos : Nat) : State :=
  let s := linked (fun x => { x with links := [{ port := 3, die := 0, log2 := 0, off := 0, recvVa := 0, recvBytes := 128, pos := pos }] }) 1
  { s with store := { s.store with col := Mem.writeN [] 0 b } }

def sendBytes (flags vc : Nat) : List Byte :=
  leBytes 1 flags ++ leBytes 1 vc ++ [0, 0] ++ leBytes 2 6 ++ [0, 0] ++ leBytes 8 64 ++ leBytes 4 0 ++ leBytes 4 64 ++ leBytes 8 0

def readyToSend (credit : Nat) : State :=
  let s := linked id 1
  { s with
    regs := [(prtPage 0 + 0x800, 0x1005), (prtPage 0 + 0x828, 0x14)] ++ s.regs.drop 1
    links := { s.links with
      slots := [(48, { (default : Slot) with sends := [sendTo 6 false] }), (49, { (default : Slot) with running := true, remote := true })]
      credits := if credit = 0 then [] else [(6 * 16, credit)] } }

theorem witness_SendDescriptorsRun :
    (∀ k ∈ [(1, 2, 0), (0, 2, 0), (1, 1, 0), (0, 2, 16)], let s := ringOfSends (sendBytes k.1 k.2.1) k.2.2
      s.Wf ∧ (s.pld 0).state = .running ∧ (s.slot 3 0).frozen = false ∧ (s.slot 3 0).stopped = false ∧ s.routeUp 4 0 = true ∧ ((s.pld 0).links.find? (fun e => e.port == 3)).map (·.pos) = some k.2.2 ∧
        s.translate 0 0 (2 ^ 41) false = .at_ (atCol 0) ∧ s.hostBarred 0 (atCol 0) = false ∧ s.memRead (atCol 0) 32 = sendBytes k.1 k.2.1 ∧
        sendDescOk (sendBytes k.1 k.2.1) = decide (k.2.1 = 2)) ∧
    (∀ c ∈ [0, 1], let s := readyToSend c
      s.Wf ∧ s.startTurn 3 0 (fun r => (s.slot 3 r).ready) = true ∧ s.routeUp 4 0 = true ∧ (s.slot 3 0).sends = [sendTo 6 false] ∧
        s.translate 0 0 64 false = .at_ (atHbm (5 * 2 ^ 21 + 64)) ∧
        s.hostBarred 0 (atHbm (5 * 2 ^ 21 + 64)) = false ∧ s.egress 6 = .by_ 4 ∧ s.slotCredit 0 6 = c ∧ (s.slot 3 1).running = true) := by
  constructor <;> intro k h
  · simp only [List.mem_cons, List.not_mem_nil, or_false] at h
    rcases h with rfl | rfl | rfl | rfl <;> exact meets (by decide +kernel)
  · simp only [List.mem_cons, List.not_mem_nil, or_false] at h
    rcases h with rfl | rfl <;> exact meets (by decide +kernel)

/-! ### Service life -/

/-- Nothing runs, and what waits for a spare is as given. -/
def sparing (f : Spares → Spares) : State := { idle with spares := f idle.spares }

theorem witness_SparesAreSubstituted :
    (∀ l ∈ [[], [(15, 1)]], let s := sparing (fun y => { y with tilePending := [255], tileOf := l })
      s.Wf ∧ s.boot.part = .operational ∧ 255 ∈ s.spares.tilePending ∧ s.pairFree 31 = true ∧ s.managing = false ∧ s.journal.free ≠ 0) ∧
    (∀ n ∈ [163, 164], let s := sparing (fun y => { y with spadPending := [(255, 8191)], spadUsed := [(255, n)] })
      s.Wf ∧ s.boot.part = .operational ∧ (255, 8191) ∈ s.spares.spadPending ∧ s.pairFree 31 = true ∧ s.managing = false ∧ Table.get 0 s.spares.spadUsed 255 = n) ∧
    (let s := sparing (fun y => { y with colPending := [(255, 4095)], colUsed := [(255, 81)] })
     s.Wf ∧ s.boot.part = .operational ∧ (255, 4095) ∈ s.spares.colPending ∧ s.stripeFree 3 4095 = true ∧ s.managing = false ∧ Table.get 0 s.spares.colUsed 255 < 82) ∧
    (let x : Seam := { (default : Seam) with state := .outOfService, used0 := 63, lost0 := [1663] }
     let s := { idle with seams := [(7, x)] }
     s.Wf ∧ s.boot.part = .operational ∧ s.seam 7 = x ∧ s.seamUnused 7 = true ∧ s.managing = false ∧ x.used0 + x.lost0.length ≤ 64 ∧
       x.used1 + x.lost1.length ≤ 64 ∧ x.lost0.Nodup ∧ x.lost1.Nodup) ∧
    (∀ m ∈ [1, 2], let s := { sparing (fun y => { y with lanePending := [60, 63], laneMap := [(32, 1)], laneUsed := [(1, 1)] }) with
        links := { (default : Links) with ports := [(15, { (default : Port) with mode := m, state := .laneFault })] } }
      s.Wf ∧ s.boot.part = .operational ∧ 63 ∈ s.spares.lanePending ∧ s.portNamed 15 = false ∧ (s.port 15).state = .laneFault ∧
        s.spareLaneOf 1 = some 2 ∧ s.managing = false) ∧
    (let s := { idle with power := [(3, { (default : DiePower) with regFault := true })] }
     s.Wf ∧ s.boot.part = .operational ∧ (s.die 3).regFault = true ∧ s.dieUnused 3 = true ∧ s.managing = false) := by
  refine ⟨?_, ?_, meets (by decide), meets (by decide), ?_, meets (by decide)⟩ <;>
    (intro k h; simp only [List.mem_cons, List.not_mem_nil, or_false] at h; rcases h with rfl | rfl <;> exact meets (by decide))

/-- A frame is retired. How many row repairs a stack has is not evaluated (log entry 9): the last clause's bound is a premise here too. -/
def retiring : State := { idle with store := { (default : Store) with retired := [491519] } }

theorem witness_MaintenanceAndUsage :
    (retiring.Wf ∧ retiring.boot.part = .operational ∧ (∀ p, p < 16 → (retiring.pld p).state = .free) ∧ retiring.store.retired ≠ [] ∧
      retiring.boot.maint = 0 ∧ 3 ≤ retiring.journal.free ∧ retiring.frameFree 0 = true ∧ 491519 = 11 * 40960 + (40959#16).toNat ∧ 491519 ∈ retiring.store.retired) ∧
    (∀ k ∈ [1, 4], let s := { retiring with boot := { retiring.boot with maint := k } }
      s.Wf ∧ s.boot.part = .operational ∧ (∀ p, p < 16 → (s.pld p).state = .free) ∧ s.boot.maint = k) ∧
    (∀ j ∈ [257, 256], let s := { clockAt [(0x60, if j = 257 then 103680000000000 else 30 * 103680000000000)] idle with
        board := { (default : Board) with vaux := true }, journal := { idle.journal with used := idle.journal.used + idle.journal.free - j } }
      s.Wf ∧ s.board.vaux = true ∧ s.journal.free = j ∧
        (if s.journal.free ≤ 256 then 30 * 103680000000000 else 103680000000000) ≤ (s.cc - s.journal.usageCc).toNat) := by
  refine ⟨meets (by decide), ?_, ?_⟩ <;>
    (intro k h; simp only [List.mem_cons, List.not_mem_nil, or_false] at h; rcases h with rfl | rfl <;> exact meets (by decide))

theorem witness_BoundaryScanActs :
    (State.reset.board.vaux = false) ∧
    (∀ p ∈ [PartState.awaiting, .operational], let s := { pins (fun b => { b with tapChain := [true, false] }) 0 with boot := { op0.boot with part := p } }
      s.board.vaux = true ∧ s.boot.part = p) := by
  decide

/-! ### The management window -/

/-- The part runs, every die is up, and the registers are as given. -/
def windowOn (l : Table Word) (f : Polder → Polder) : State :=
  let s := vfOn true f
  { s with regs := l, boot := { s.boot with dieUp := 63 } }

theorem witness_HeaderWritesAct :
    (let s := windowOn [] id
     s.Wf ∧ s.pageReached 4 0x00F0000 = false ∧ s.pageReached 4 0x0010000 = true) ∧
    (let s := { windowOn [] id with seams := [] }
     s.Wf ∧ s.pageUp 0x0010000 = true ∧ s.pageReached 4 0x0010000 = false) ∧
    (∀ k ∈ [(0x0010000, true, PolderState.loaded), (0x4170000, true, .loaded), (0x0011000, false, .running)],
      let s := windowOn (if k.2.1 then [] else [(0x0011008, 4)]) (fun x => { x with state := k.2.2 })
      s.Wf ∧ s.pageReached 4 k.1 = true ∧ s.pageFreeze k.1 ≠ k.2.1 ∧ (s.pageOwner k.1 = 0x1F ∨ (s.pld (s.pageOwner k.1)).state ≠ .running)) ∧
    (∀ on ∈ [false, true], let s := windowOn (if on then [(0x0010008, 4)] else []) id
      s.Wf ∧ s.pageReached 4 0x0010000 = true ∧ s.pageFreeze 0x0010000 = on ∧ s.rowOwner 0 = some 0 ∧ s.pageOwner 0x0010000 = 0 ∧ (s.pld 0).state = .running ∧
        (s.pld 0).frozen = false) ∧
    (let s := windowOn [] id
     s.Wf ∧ s.vectorMasked 0 3 = true ∧ ({ s with hif := { s.hif with table := [(15, 0)] } } : State).vectorMasked 0 3 = false ∧
       (0x4170000 / 2 ^ 16 % 256 = 0x17) ∧ (s.pld 0).state = .running ∧ (s.pld 0).frozen = false) ∧
    ((windowOn [] id).hostReaches = true ∧ State.reset.hostReaches = false) := by
  refine ⟨meets (by decide), meets (by decide), ?_, ?_, meets (by decide), by decide⟩
  · intro k h
    simp only [List.mem_cons, List.not_mem_nil, or_false] at h
    rcases h with rfl | rfl | rfl <;> exact meets (by decide)
  · intro k h; simp only [List.mem_cons, List.not_mem_nil, or_false] at h; rcases h with rfl | rfl <;> exact meets (by decide)

/-- A read-clear register, a low word, its high word, one that is not aligned, one of a class that no die has, and a VF's registers. -/
theorem witness_ReadsAnswer :
    (let s := windowOn [] id
     let r := Requester.pf0 none
     s.Wf ∧ s.reachesReg r 0x00F0000 = false ∧ s.reachesReg r 0x0010001 = true ∧
       (∀ a ∈ [0x0010028, 0x001002C, 0x0010148], s.reachesReg r a = true ∧ a % 4 = 0 ∧ freeMeter a = false ∧ shoreEnergy a = false) ∧
       requesterNo r < 6 ∧ (∀ a ∈ [0x0010144, 0x0010024], lowWord a = false) ∧
       lowWord 0x0010028 = true ∧ freeMeter 0x001002C = false ∧ lowWord 0x001002C = false ∧ lowWord 0x0010148 = false ∧
       lowWord 0x0010144 = false ∧ readClears 0x0010148 = true ∧ readClears 0x0010000 = false) ∧
    (let s := windowOn [] id
     s.Wf ∧ s.vfReached 0 = true ∧ s.vfFrozen 0 = false ∧ s.vfReached 1 = false ∧ s.hostReaches = true ∧ (vfMsix 0).takes 0x2008 8 = true) ∧
    (State.reset.hostReaches = false) ∧
    (∀ a ∈ [0x0010028, 0x001002C, 0x0010148], ∀ d, ((windowOn [] id).access (.pf0 none) (a / 4096 * 4096)).midRun a d = none) := by
  refine ⟨meets (by decide), meets (by decide), by decide, ?_⟩
  intro a h d
  simp only [List.mem_cons, List.not_mem_nil, or_false] at h
  rcases h with rfl | rfl | rfl <;> rfl

theorem witness_WritesTakeEffect :
    (∀ r ∈ [Requester.pf0 none, .curator 3, .i3c], let s := windowOn [] id
      s.Wf ∧ requesterNo r < 6 ∧ s.reachesReg r 0x00F0000 = false) ∧
    (let s := windowOn [] id
     let r := Requester.pf0 none
     s.Wf ∧ (∀ a ∈ [0x0010000, 0x0010014, 0x0020050, 0x4170054, 0x001011C, 0x001111C, 0x0040040, 0x4160100],
       s.reachesReg r a = true ∧ a % 4 = 0 ∧ channelAt (a / 4096 * 4096) (a % 4096) = none) ∧
       holdsLow 0x0040040 = false ∧ holdsLow 0x004003C = false ∧ s.rowOwner 0 = some 0 ∧ s.rowOwner 8 = none) ∧
    (let s := windowOn [] id
     s.Wf ∧ s.vfReached 0 = true ∧ s.vfFrozen 0 = false ∧ s.hif.pba = [] ∧ s.configReached 1 = true ∧ s.configReached 0 = true ∧
       s.hostReaches = true) ∧
    (let s := windowOn [] id
     let s := { s with hif := { s.hif with pba := [{ fn := 1, vec := 0 }] } }
     s.Wf ∧ s.vfReached 0 = true ∧ s.vfFrozen 0 = false ∧ { fn := 1, vec := 0 } ∈ s.hif.pba) := by
  refine ⟨?_, meets (by decide), meets (by decide), meets (by decide)⟩
  intro k h
  simp only [List.mem_cons, List.not_mem_nil, or_false] at h
  rcases h with rfl | rfl | rfl <;> exact meets (by decide)

theorem witness_LatchesKeepHalvesTogether :
    (let s := windowOn [] id
     let r := Requester.curator 1
     s.Wf ∧ (∀ p, r ≠ .vf p) ∧ (∀ a ∈ [0x4160028, 0x4160080, 0x4110048], s.reachesReg r a = true ∧ s.reachesReg r (a + 4) = true ∧ a % 4 = 0) ∧
       lowWord 0x4160028 = true ∧ lowWord 0x416002C = false ∧ freeMeter 0x4160028 = false ∧ freeMeter 0x416002C = false ∧
       shoreEnergy 0x4160028 = false ∧ shoreEnergy 0x416002C = false ∧ holdsLow 0x4160080 = true ∧ holdsLow 0x4160084 = false ∧ channelAt 0x4160000 0x080 = none ∧ channelAt 0x4160000 0x084 = none ∧
       Table.get none s.heldLow (heldKey r 0x4160080) = none) ∧
    (∀ a ∈ [0x4160028, 0x416002C], ∀ d, ((windowOn [] id).access (.curator 1) 0x4160000).midRun a d = none) ∧
    (State.reset.board.vaux = false) := by
  refine ⟨meets (by decide), ?_, by decide⟩
  intro a h d
  simp only [List.mem_cons, List.not_mem_nil, or_false] at h
  rcases h with rfl | rfl <;> rfl

/-! ### The machine as a whole -/

theorem witness_StepRunsTheFrontCommand :
    let s := clockAt [(0x60, 7)] (windowOn [] id)
    s.Wf ∧ s.pending = [] ∧ s.running 0x60 = true ∧ { s with pending := [.idcode] }.pending = [.idcode] := meets (by decide)

theorem witness_StepsKeepTheForm : ∃ u, step { windowOn [] id with pending := [.pldWdLimit 0 5, .idcode] } = .next u ∧ u.pending = [.idcode] ∧
    { windowOn [] id with pending := [.pldWdLimit 0 5, .idcode] }.Wf :=
  ⟨_, rfl, by decide, wf_of (by decide)⟩

theorem witness_StepsUndoNothing : ∃ u, step { windowOn [] id with pending := [.vfEnable true 16] } = .next u ∧
    { windowOn [] id with pending := [.vfEnable true 16] }.Wf ∧ (windowOn [] id).hif.numVfs ≤ 16 :=
  ⟨_, rfl, wf_of (by decide), by decide⟩

theorem witness_CommandsChangeOnlyTheirParts : ∃ u, exec (.bypass true) (windowOn [] id) = .next u ∧ Part.memory ∉ touches (.bypass true) :=
  ⟨_, rfl, by decide⟩

/-! ### Worked examples of the manual -/

/-- Guard bands at three load points (after R442). -/
theorem test_guard_bands :
    let pts : List CalPoint := [{ (default : CalPoint) with load := 512, mv := 18 }, { (default : CalPoint) with load := 1024, mv := 24 },
      { (default : CalPoint) with load := 1536, mv := 31 }]
    calValue 1280 (·.mv) pts = some 28 ∧ calValue 1664 (·.mv) pts = some 31 ∧ calValue 1792 (·.mv) pts = none := by decide

/-- A window of 2, 2.5, 2, 2.5 with WARMUP 4 and K 768 flags 3.5 and the value after 3, and not 3 (after R280). -/
theorem test_loss_at_the_threshold :
    let w : List Word := [0x40000000, 0x40200000, 0x40000000, 0x40200000]
    spike w 4 768 0x40600000 = true ∧ spike w 4 768 0x40400000 = false ∧ spike w 4 768 0x40400001 = true := by decide

/-- Element 5 seals at 11 times 2 to the 60, and its exponent under toe −62 is 1 (after R297). -/
theorem test_overtopping_element :
    sealElem (-5 * 2 ^ 60) 1 = (0x7FFFFFFFFFFFFFFF, true, some 63) ∧
    ({ l := [-5 * 2 ^ 60, 0], w := [1, 0], epoch := 3 } : Unit64).sealed (-62) = ({ l := [0x7FFFFFFFFFFFFFFF, 0], w := [0, 0], epoch := 3 }, 1, 1) := by decide +kernel

/-- Three contributions to a gradient element of crest 0, and a fourth of 1.5 (after R60). -/
theorem test_gradient_element :
    toXr 0 (.fin 1 (-1)) = (2 ^ 61, Tally.zero) ∧
    toXr 0 (.fin (2 ^ 62 + 1) (-64)) = (2 ^ 60, { Tally.zero with under := 1 }) ∧
    toXr 0 (.fin (-1) (-63)) = (0, { Tally.zero with under := 1 }) ∧
    toXr 0 (.fin 3 (-1)) = (3 * 2 ^ 61, Tally.zero) := by decide +kernel

/-- The E4M3 byte 0x5C under the block scale 0x7D is 6 (after R38). -/
theorem test_scaled_element : (roundVal .fp32 .rne 0 ((Fmt.e4m3.decode 0x5C).scaled 0x7D)).1 = 0x40C00000 := by decide +kernel

/-- The page of the conservator of stack 7, and the tile page of row 3 on die 2 with its BLK_ID (after R7, R511). -/
theorem test_page_addresses :
    cnsPage 7 = 0x02041000 ∧ tilePage 0x9D = 0x02013000 ∧ arrReg 0x9D 0 = 0x02013B80 ∧ State.reset.peekReg 0x02013000 = 0x01003201 := by decide

/-- The boundary at memory exhaustion (after R344): A ends, E is pre-empted to depot 0 to 2 and loan 0, D grows to 11 pages, F waits.
That D's chunk ends the prompt and samples is R329's rule; the example's words say otherwise (log entry 37). -/
def schor : State :=
  let pg (l : List Nat) : List Page := l.map (fun n => { shelf := 0, num := n })
  let q (id prio adm len prompt : Nat) (l : List Nat) : Sequence := { (default : Sequence) with
    id := dwordOf id, state := .running, prio := prio, admission := adm, len := len, promptLen := prompt, maxNew := 4096, slot := some adm, pages := pg l }
  serving (fun v => { v with
    seqs := [{ q 10 5 1 256 8 [0, 1, 2, 3] with sampledEnd := true }, q 11 5 2 448 8 [4, 5, 6, 7, 8, 9, 10], q 12 3 3 191 8 [11, 12, 13],
      q 13 1 4 320 700 [14, 15, 16, 17, 18], q 14 1 5 256 8 [19, 20, 21, 22],
      { (default : Sequence) with id := 15, state := .waiting, prio := 6, promptLen := 200, maxNew := 9 }]
    started := 9, admissions := 6 })
    (fun x => { x with cat := { x.cat with mbMax := 1024, serve := { plan1 with layers := 16, hgCount := 4, blockBytes := 32768, poolPages := 24
                                                                                depPages := 3, loanPages := 8, maxPages := 16, maxBatch := 16, maxSeqs := 16 } } })

theorem test_step_at_memory_exhaustion :
    let b := schor.planBoundary 0
    b.batch.map (fun e => (e.seqId.toNat, e.prefill, e.pos, e.count)) = [(11, false, 448, 1), (12, false, 191, 1), (13, true, 320, 380)] ∧
    b.budget = 642 ∧ b.preempts = 1 ∧
    b.moves.map (fun m => (m.dst.shelf, m.dst.num)) = [(1, 0), (1, 1), (1, 2), (2, 0)] ∧
    b.seqs.map (fun q => (q.id.toNat, q.state, q.pages.length)) =
      [(11, .running, 8), (12, .running, 3), (13, .running, 11), (14, .preempted, 4), (15, .waiting, 0)] := by decide +kernel

end Sys2Proof.Tests
end

