-- ==== Sys2Proof/Proofs/BootAndTrust.lean ====
section
/-!
PROOFS. What the requests of the secure channels answer and change: the rules of a request's begin and reply and of an append to
the provenance record, and SVN_COMMIT (R462).
-/

namespace Sys2Proof.Machine

variable {s : State} {c : Nat} {b : List Byte}

/-! ### A request under way -/

/-- A channel's request is under way: nothing has answered it. -/
structure State.Unanswered (s : State) (c : Nat) : Prop where
  sorted : Table.Sorted s.channels
  busy : (s.chan c).state = .busy
  reply : (s.chan c).reply = none

theorem State.request_unanswered {op : Nat} (h : s.Wf) (hb : s.request c op = some b) : s.Unanswered c := by
  simp only [State.request, Option.ite_none_right_eq_some, Bool.and_eq_true, beq_iff_eq, Option.isNone_iff_eq_none] at hb
  obtain ⟨⟨⟨⟨⟨⟨hbusy, -⟩, hreply⟩, -⟩, -⟩, -⟩, -⟩ := hb
  exact ⟨h.channels, hbusy, hreply⟩

/-- A request that is begun shows as taken. -/
theorem State.chan_takeRequest (h : Table.Sorted s.channels) : (s.takeRequest c).chan c = { s.chan c with taken := true } :=
  (State.chan_modChan h c (fun x => { x with taken := true }) c).trans (if_pos rfl)

theorem State.Unanswered.takeRequest (h : s.Unanswered c) : (s.takeRequest c).Unanswered c := by
  have hchan := State.chan_takeRequest (c := c) h.sorted
  exact ⟨Table.sorted_put h.sorted _ _ _, hchan ▸ h.busy, hchan ▸ h.reply⟩

/-- Whether a request is under way rests on the channels alone. -/
theorem State.Unanswered.of_channels {t : State} (h : s.Unanswered c) (ht : t.channels = s.channels) : t.Unanswered c := by
  have hchan : t.chan c = s.chan c := by simp only [State.chan, ht]
  exact ⟨ht ▸ h.sorted, hchan ▸ h.busy, hchan ▸ h.reply⟩

theorem State.Unanswered.chan_reply (h : s.Unanswered c) (code : Nat) (body : List Byte) :
    ((s.reply c code body).chan c).reply = some { code := code, body := body } := by
  simp [State.reply, State.chan_modChan h.sorted, h.busy, h.reply]

theorem State.serveSecure_of_request {op : Nat} (hb : s.request c op = some b) (act : List Byte → State → State) :
    s.serveSecure c op act = act b (s.takeRequest c) := by
  simp only [State.serveSecure, hb]

/-! ### An append to the provenance record -/

/-- An interrupt status bit touches the registers and the host interface alone. -/
theorem State.setIrq_eq (s : State) (pg bits : Nat) : ∃ r h, s.setIrq pg bits = { s with regs := r, hif := h } := by
  unfold State.setIrq State.irqEdge State.sendMsix
  split
  · split <;> exact ⟨_, _, rfl⟩
  · exact ⟨_, _, rfl⟩

/-- An append touches the journal, the registers and the host interface alone. -/
theorem State.append_eq (s : State) (kind : Nat) (vals : List Nat) :
    ∃ j r h, s.append kind vals = { s with journal := j, regs := r, hif := h } := by
  unfold State.append
  extract_lets j e t
  split
  · obtain ⟨r, h, heq⟩ := State.setIrq_eq (s.bump (prvPage + 0x050) 1) prvPage 2
    exact ⟨_, r, h, heq⟩
  · split
    · obtain ⟨r, h, heq⟩ := State.setIrq_eq t prvPage 1
      exact ⟨_, r, h, heq⟩
    · exact ⟨_, _, _, rfl⟩

/-- An entry of a kind that the last slots are kept for is appended while a slot is free (R483, R485). -/
theorem State.append_entries {kind : Nat} (vals : List Nat) (hk : reserveKind kind = true) (hroom : s.journal.used < journalSlots) :
    ∃ e, (s.append kind vals).journal.entries = s.journal.entries ++ [e] ∧ e.kind = kind ∧ e.vals = vals := by
  have hfree : s.journal.free ≠ 0 := Nat.sub_ne_zero_of_lt hroom
  unfold State.append
  extract_lets j e t
  rw [if_neg (by simp [hk, j, hfree])]
  refine ⟨e, ?_, rfl, rfl⟩
  split
  · obtain ⟨r, h, heq⟩ := State.setIrq_eq t prvPage 1
    rw [heq]
    rfl
  · rfl

/-! ### SVN_COMMIT (R462) -/

/-- The request of a channel has its answer, and nothing but the channels, the host interface, the boot state, the provenance
record and the registers differs from an earlier state. -/
def State.AnsweredFrom (s u : State) (c code : Nat) : Prop :=
  (u.chan c).reply = some { code := code, body := [] } ∧
    { u with channels := s.channels, hif := s.hif, boot := s.boot, journal := s.journal, regs := s.regs } = s

/-- A request that is begun and answered, and does nothing else. -/
theorem State.Unanswered.reply_alone (h : s.Unanswered c) (code : Nat) :
    s.AnsweredFrom ((s.takeRequest c).reply c code []) c code := by
  refine ⟨h.takeRequest.chan_reply code [], ?_⟩
  unfold State.reply State.takeRequest State.modHif State.modChan
  rfl

/-- The fused minimum SVN rises to the running image's, with an entry in the record (R462). -/
def State.raiseSvn (s : State) : State := (s.modBoot (fun x => { x with svnMin := x.svnRun })).append 0xF [s.boot.svnRun]

theorem State.raiseSvn_eq (s : State) :
    ∃ j r h, s.raiseSvn = { s with boot := { s.boot with svnMin := s.boot.svnRun }, journal := j, regs := r, hif := h } :=
  State.append_eq _ _ _

theorem State.Unanswered.raiseSvn_reply (h : s.Unanswered c) :
    s.AnsweredFrom ((s.takeRequest c).raiseSvn.reply c 0 []) c 0 ∧
      ((s.takeRequest c).raiseSvn.reply c 0 []).boot = { s.boot with svnMin := s.boot.svnRun } := by
  obtain ⟨j, r, i, heq⟩ := State.raiseSvn_eq (s.takeRequest c)
  rw [heq]
  exact ⟨⟨(h.takeRequest.of_channels rfl).chan_reply 0 [], rfl⟩, rfl⟩

theorem State.raiseSvn_entries (hroom : s.journal.used < journalSlots) :
    ∃ e, s.raiseSvn.journal.entries = s.journal.entries ++ [e] ∧ e.kind = 0xF ∧ e.vals = [s.boot.svnRun] :=
  State.append_entries (s := s.modBoot (fun x => { x with svnMin := x.svnRun })) _ rfl hroom

/-- The three ways in which SVN_COMMIT changes nothing, and the one in which the minimum rises. -/
theorem exec_svnCommit_of_request {c : ChannelId} (hb : s.request c.toNat 0x0403 = some b) :
    exec (.svnCommit c) s = .next (
      if s.boot.part != .operational then (s.takeRequest c.toNat).reply c.toNat 0x8003 []
      else if !formed b 4 [] then (s.takeRequest c.toNat).reply c.toNat 0x8001 []
      else if s.boot.svnRun ≤ s.boot.svnMin then (s.takeRequest c.toNat).reply c.toNat 0 []
      else (s.takeRequest c.toNat).raiseSvn.reply c.toNat 0 []) :=
  congrArg Host.Outcome.next (State.serveSecure_of_request hb _)

end Sys2Proof.Machine

namespace Sys2Proof

open Machine

/-- Settles O25: a request that is refused, or that finds the minimum high enough, is answered alone; any other raises the
minimum to the running SVN. -/
theorem svnCommitRaisesTheMinimum : Obligations.SvnCommitRaisesTheMinimum := by
  unfold Obligations.SvnCommitRaisesTheMinimum
  intro s c b hwf n x answered hb
  have hopen : s.Unanswered n := State.request_unanswered hwf hb
  refine ⟨_, exec_svnCommit_of_request hb, ?_⟩
  by_cases hpart : x.part = .operational
  case neg =>
    rw [if_pos (by simpa using hpart)]
    exact ⟨Nat.le_refl _, fun h => absurd h hpart, fun _ => ⟨hopen.reply_alone _, rfl, rfl⟩, fun h => absurd h hpart⟩
  rw [if_neg (by simpa using hpart)]
  by_cases hform : formed b 4 [] = true
  case neg =>
    rw [if_pos (by simpa using hform)]
    exact ⟨Nat.le_refl _, fun _ h => absurd h hform, fun h => absurd hpart h, fun _ _ => ⟨hopen.reply_alone _, rfl, rfl⟩⟩
  rw [if_neg (by simpa using hform)]
  have hwell : formed b 4 [] ≠ false := by simp [hform]
  by_cases hsvn : x.svnRun ≤ x.svnMin
  case pos =>
    rw [if_pos hsvn, Nat.max_eq_left hsvn]
    exact ⟨Nat.le_refl _, fun _ _ => ⟨hopen.reply_alone 0, rfl, fun _ => ⟨rfl, rfl, rfl⟩, fun h => absurd hsvn (Nat.not_le_of_lt h)⟩,
      fun h => absurd hpart h, fun _ h => absurd h hwell⟩
  case neg =>
    have hlt : x.svnMin < x.svnRun := Nat.lt_of_not_le hsvn
    obtain ⟨hanswer, hboot⟩ := hopen.raiseSvn_reply
    rw [if_neg hsvn, Nat.max_eq_right (Nat.le_of_lt hlt), hboot]
    exact ⟨Nat.le_of_lt hlt,
      fun _ _ => ⟨hanswer, rfl, fun h => absurd h hsvn, fun _ hroom => State.raiseSvn_entries (s := s.takeRequest n) hroom⟩,
      fun h => absurd hpart h, fun _ h => absurd h hwell⟩

end Sys2Proof
end

/-!
PROOFS. What the register map promises of 64-bit registers: the rules of an access that a page answers, of what is held for a
requester between two accesses, and the latches and held low words (R9, R502).
-/

namespace Sys2Proof.Machine

variable {s : State} {r : Requester} {a pg : Nat}

/-! ### What is held for a requester -/

/-- The state with other latches, held low words and answer. Neither the crossing of the seams nor the write of a pair looks at them. -/
def State.aside (s : State) (l : Table Word) (h : Table (Option Word)) (x : Answer) : State :=
  { s with latches := l, heldLow := h, answer := x }

variable {l : Table Word} {h : Table (Option Word)} {x : Answer}

@[simp] theorem State.aside_heldLow : (s.aside l h x).heldLow = h := rfl
@[simp] theorem State.aside_regs : (s.aside l h x).regs = s.regs := rfl

/-- Setting aside what is held already changes nothing, so what commutes with setting aside leaves alone what is held. -/
theorem State.aside_self (s : State) : s.aside s.latches s.heldLow s.answer = s := rfl

-- `(rfl)`, not `rfl`: simp must rewrite with these, for the kernel cannot compare the two sides of the counters below by unfolding
theorem State.reg_aside (b : Nat) : (s.aside l h x).reg b = s.reg b := (rfl)
theorem State.now_aside (d : Nat) : (s.aside l h x).now d = s.now d := (rfl)
theorem State.anyPortNamed_aside : (s.aside l h x).anyPortNamed = s.anyPortNamed := (rfl)
theorem State.setReg_aside (b : Nat) (w : Word) : (s.aside l h x).setReg b w = (s.setReg b w).aside l h x := (rfl)
theorem State.modSeam_aside (n : Nat) (f : Seam → Seam) : (s.aside l h x).modSeam n f = (s.modSeam n f).aside l h x := (rfl)

theorem State.bump64_aside (b n : Nat) : (s.aside l h x).bump64 b n = (s.bump64 b n).aside l h x := by
  simp only [State.bump64, State.setReg64, State.reg64, State.reg_aside, State.setReg_aside]

theorem State.ignoreWrite_aside (b : Nat) : (s.aside l h x).ignoreWrite b = (s.ignoreWrite b).aside l h x := by
  simp only [State.ignoreWrite, State.logError, State.bumpSat, State.setReg64, State.reg_aside, State.now_aside, State.setReg_aside]

theorem State.crossSeam_aside (n die chan flits onward : Nat) :
    (s.aside l h x).crossSeam n die chan flits onward = (s.crossSeam n die chan flits onward).aside l h x := by
  unfold State.crossSeam
  split <;> simp only [State.bump64_aside, State.modSeam_aside]

theorem State.crossSeams_aside (chan flits count : Nat) (route : List Nat) (die : Nat) :
    (s.aside l h x).crossSeams die chan flits count route = (s.crossSeams die chan flits count route).aside l h x := by
  induction route generalizing s die with
  | nil => rfl
  | cons n rest ih =>
    simp only [State.crossSeams, State.crossSeam_aside]
    exact ih _

theorem State.controlCrosses_aside (p q count : Nat) :
    (s.aside l h x).controlCrosses p q count = (s.controlCrosses p q count).aside l h x := by
  unfold State.controlCrosses
  rw [State.crossSeams_aside, apply_ite (State.aside · l h x)]
  rfl

theorem State.access_aside : (s.aside l h x).access r pg = (s.access r pg).aside l h x := by
  unfold State.access State.toPage State.fromPage
  rw [State.controlCrosses_aside, State.controlCrosses_aside]

theorem State.writePair_aside (low high : Word) : (s.aside l h x).writePair a low high = (s.writePair a low high).aside l h x := by
  simp only [State.writePair, State.anyPortNamed_aside, State.reg_aside, State.setReg_aside, State.ignoreWrite_aside]
  split
  · split
    · split <;> rfl
    · rfl
  · split <;> rfl
  · rfl

theorem State.controlCrosses_latches (p q count : Nat) : (s.controlCrosses p q count).latches = s.latches := by
  conv =>
    lhs
    rw [← s.aside_self, State.controlCrosses_aside]
  rfl

theorem State.controlCrosses_answer (p q count : Nat) : (s.controlCrosses p q count).answer = s.answer := by
  conv =>
    lhs
    rw [← s.aside_self, State.controlCrosses_aside]
  rfl

@[simp] theorem State.toPage_latches : (s.toPage r pg).latches = s.latches := State.controlCrosses_latches ..
@[simp] theorem State.fromPage_latches : (s.fromPage r pg).latches = s.latches := State.controlCrosses_latches ..
@[simp] theorem State.fromPage_answer : (s.fromPage r pg).answer = s.answer := State.controlCrosses_answer ..

@[simp] theorem State.access_heldLow : (s.access r pg).heldLow = s.heldLow := by
  conv =>
    lhs
    rw [← s.aside_self, State.access_aside]
  rfl

@[simp] theorem State.writePair_latches (low high : Word) : (s.writePair a low high).latches = s.latches := by
  conv =>
    lhs
    rw [← s.aside_self, State.writePair_aside]
  rfl

@[simp] theorem State.writePair_heldLow (low high : Word) : (s.writePair a low high).heldLow = s.heldLow := by
  conv =>
    lhs
    rw [← s.aside_self, State.writePair_aside]
  rfl

/-! ### A register stays within reach -/

/-- The seams have only counted traffic: each is in the state it was in, and nothing but seams and registers differs. -/
structure State.Crossed (s u : State) : Prop where
  rest : u = { s with regs := u.regs, seams := u.seams }
  sorted : Table.Sorted u.seams
  state : ∀ n, (u.seam n).state = (s.seam n).state

theorem State.Crossed.refl (hs : Table.Sorted s.seams) : s.Crossed s := ⟨rfl, hs, fun _ => rfl⟩

theorem State.Crossed.trans {u t : State} (hu : s.Crossed u) (ht : u.Crossed t) : s.Crossed t where
  rest := ht.rest.trans (congrArg (fun y : State => { y with regs := t.regs, seams := t.seams }) hu.rest)
  sorted := ht.sorted
  state n := (ht.state n).trans (hu.state n)

theorem Seam.passed_state (y : Seam) (dir : Bool) : (y.passed dir).state = y.state := by
  unfold Seam.passed
  split <;> rfl

theorem State.Crossed.bump64 {u : State} (hu : s.Crossed u) (b n : Nat) : s.Crossed (u.bump64 b n) where
  rest := congrArg (fun y : State => { y with regs := (u.bump64 b n).regs, seams := y.seams }) hu.rest
  sorted := hu.sorted
  state := hu.state

theorem State.Crossed.passed {u : State} (hu : s.Crossed u) (n : Nat) (dir : Bool) :
    s.Crossed (u.modSeam n (·.passed dir)) where
  rest := congrArg (fun y : State => { y with regs := u.regs, seams := (u.modSeam n (·.passed dir)).seams }) hu.rest
  sorted := State.modSeam_sorted hu.sorted
  state k := by
    rw [State.seam_modSeam hu.sorted]
    split
    · subst_vars
      rw [Seam.passed_state, hu.state]
    · exact hu.state k

theorem State.crossSeam_crossed (hs : Table.Sorted s.seams) (n die chan flits onward : Nat) :
    s.Crossed (s.crossSeam n die chan flits onward) := by
  unfold State.crossSeam
  have hsent : s.Crossed (s.bump64 (semPage n die + 0x050 + 8 * chan) flits) := (State.Crossed.refl hs).bump64 _ _
  split
  · exact hsent.passed _ _
  · exact (hsent.bump64 _ _).passed _ _

theorem State.crossSeams_crossed (hs : Table.Sorted s.seams) (chan flits count : Nat) (route : List Nat) (die : Nat) :
    s.Crossed (s.crossSeams die chan flits count route) := by
  induction route generalizing s die with
  | nil => exact .refl hs
  | cons n rest ih =>
    have hone := State.crossSeam_crossed hs n die chan flits (if rest.isEmpty then 0 else count)
    exact hone.trans (ih hone.sorted _)

theorem State.controlCrosses_crossed (hs : Table.Sorted s.seams) (p q count : Nat) : s.Crossed (s.controlCrosses p q count) := by
  unfold State.controlCrosses
  split
  · exact State.crossSeams_crossed hs ..
  · exact .refl hs

theorem State.toPage_crossed (hs : Table.Sorted s.seams) : s.Crossed (s.toPage r pg) := State.controlCrosses_crossed hs ..

theorem State.fromPage_crossed (hs : Table.Sorted s.seams) : s.Crossed (s.fromPage r pg) := State.controlCrosses_crossed hs ..

theorem State.access_crossed (hs : Table.Sorted s.seams) : s.Crossed (s.access r pg) :=
  (State.toPage_crossed hs).trans (State.fromPage_crossed (State.toPage_crossed hs).sorted)

/-- Whether a requester reaches a register rests on these parts of the state alone (R8, R23, R419, R501). -/
theorem State.reachesReg_congr {u : State} (hboard : u.board = s.board) (hboot : u.boot = s.boot) (hhif : u.hif = s.hif)
    (hvf : u.vfRegs = s.vfRegs) (hseam : ∀ n, (u.seam n).state = (s.seam n).state) : u.reachesReg r a = s.reachesReg r a := by
  have hup : u.seamUp = s.seamUp := funext fun n => congrArg (· == SeamState.active) (hseam n)
  simp only [State.reachesReg, State.pageReached, State.pageUp, State.domainUp, State.memoryOn, State.reaches, State.reachesChan,
    State.chanOpen, State.onBoundStream, State.hostReaches, State.vfReached, State.vfFrozen, State.vfReg, hboard, hboot, hhif, hvf, hup]

@[simp] theorem State.aside_reachesReg : (s.aside l h x).reachesReg r a = s.reachesReg r a :=
  State.reachesReg_congr rfl rfl rfl rfl fun _ => rfl

theorem State.Crossed.reachesReg {u : State} (hu : s.Crossed u) : u.reachesReg r a = s.reachesReg r a := by
  obtain ⟨hrest, -, hstate⟩ := hu
  rw [hrest]
  exact State.reachesReg_congr rfl rfl rfl rfl hstate

/-! ### The halves of a 64-bit register -/

/-- A register's low word stands below the last word of its page. -/
theorem offset_lt_of_lowWord (hl : lowWord a = true) : a % 4096 < 4092 := by
  simp only [lowWord, Bool.or_eq_true, beq_iff_eq] at hl
  rcases hl with hl | hl
  · omega
  · split at hl <;> simp at hl
    case h_1 => split at hl <;> omega
    all_goals omega

theorem offset_lt_of_holdsLow (hl : holdsLow a = true) : a % 4096 < 4092 := by
  unfold holdsLow at hl
  split at hl <;> simp at hl
  all_goals omega

/-- The high word stands in the low word's page. -/
theorem page_add_four (hlt : a % 4096 < 4092) : (a + 4) / 4096 * 4096 = a / 4096 * 4096 := by omega

/-- The high word's address does not wrap. -/
theorem toNat_add_four {addr : BitVec 28} (hlt : addr.toNat % 4096 < 4092) : (addr + 4).toNat = addr.toNat + 4 := by
  have hsum : addr.toNat + 4 < 2 ^ 28 := by omega
  exact (BitVec.toNat_add addr 4).trans (Nat.mod_eq_of_lt hsum)

/-! ### Accesses that a page answers -/

theorem exec_lowWordRead {addr : BitVec 28} (ha : addr.toNat = a) : exec (.lowWordRead r ⟨addr, 4⟩) s = .next (s.readAccess r a 4) := by
  subst ha
  rfl

theorem exec_readClear {addr : BitVec 28} (ha : addr.toNat = a) : exec (.readClear r ⟨addr, 4⟩) s = .next (s.readAccess r a 4) := by
  subst ha
  rfl

theorem exec_registerWrite {addr : BitVec 28} (ha : addr.toNat = a) (v : Dword) :
    exec (.registerWrite r addr 4 v) s = .next (s.writeAccess r a 4 v) := by
  subst ha
  rfl

theorem State.readAccess_of_reaches (hr : s.reachesReg r a = true) (ha : a % 4 = 0) :
    s.readAccess r a 4 = ((s.toPage r (a / 4096 * 4096)).returnReg r a).fromPage r (a / 4096 * 4096) := by
  cases r with
  | vf | bar2 | config => simp [State.reachesReg] at hr
  | pf0 | curator | i3c => simp [State.readAccess, hr, ha]

theorem State.writeAccess_of_reaches (hr : s.reachesReg r a = true) (ha : a % 4 = 0)
    (hc : channelAt (a / 4096 * 4096) (a % 4096) = none) (v : Word) :
    s.writeAccess r a 4 (v.setWidth 64) = ((s.access r (a / 4096 * 4096)).applyWrite r a v).answerWritten := by
  cases r with
  | vf | bar2 | config => simp [State.reachesReg] at hr
  | pf0 | curator | i3c => simp [State.writeAccess, hr, ha, hc]

/-! ### Latches -/

/-- A register whose read has no free bits (log entries 6 and 79). -/
def State.Plain (s : State) (a : Nat) : Prop := freeMeter a = false ∧ shoreEnergy a = false ∧ ∀ d, s.midRun a d = none

theorem State.Plain.fetchReg (hp : s.Plain a) : s.fetchReg a = (s.peekReg a, s) := by
  obtain ⟨hfree, hshore, hrun⟩ := hp
  simp [State.fetchReg, hfree, hshore, hrun]

/-- A read of a low word latches the high word and answers the low one. -/
def State.latching (s : State) (r : Requester) (a : Nat) : State :=
  s.aside (Table.put 0 s.latches (heldKey r (a / 4096 * 4096)) (s.peekReg (a + 4))) s.heldLow (.value (s.peekReg a))

theorem State.returnReg_low (hl : lowWord a = true) (hp : s.Plain a) (hq : s.Plain (a + 4)) : s.returnReg r a = s.latching r a := by
  simp only [State.returnReg, hl, if_true, hp.fetchReg, hq.fetchReg]
  rfl

theorem State.get_latches_latching (hs : Table.Sorted s.latches) (k : Nat) : Table.get 0 (s.latching r a).latches k =
    if k = heldKey r (a / 4096 * 4096) then s.peekReg (a + 4) else Table.get 0 s.latches k := Table.get_put 0 hs _ k _

theorem State.returnReg_high (hl : lowWord a = true) (hh : lowWord (a + 4) = false) :
    s.returnReg r (a + 4) = s.answerValue (Table.get 0 s.latches (heldKey r ((a + 4) / 4096 * 4096))) := by
  have hoff : 4 ≤ (a + 4) % 4096 := by
    have := offset_lt_of_lowWord hl
    omega
  simp [State.returnReg, hl, hh, hoff]

@[simp] theorem State.latching_reachesReg {q : Requester} {b : Nat} : (s.latching r a).reachesReg q b = s.reachesReg q b :=
  State.aside_reachesReg

theorem State.latching_seams_sorted (hs : Table.Sorted s.seams) : Table.Sorted (s.latching r a).seams := hs

/-- A requester reaches both halves of a 64-bit register whose read latches. -/
structure State.ReadsPair (s : State) (r : Requester) (a : Nat) : Prop where
  aligned : a % 4 = 0
  reach : s.reachesReg r a = true
  reachHigh : s.reachesReg r (a + 4) = true
  low : lowWord a = true
  high : lowWord (a + 4) = false

theorem State.ReadsPair.of_reachesReg {u : State} (hr : s.ReadsPair r a) (he : ∀ b, u.reachesReg r b = s.reachesReg r b) :
    u.ReadsPair r a := { hr with reach := (he a).trans hr.reach, reachHigh := (he (a + 4)).trans hr.reachHigh }

theorem State.ReadsPair.readAccess_low (hr : s.ReadsPair r a) (hpg : a / 4096 * 4096 = pg) (hp : (s.toPage r pg).Plain a)
    (hq : (s.toPage r pg).Plain (a + 4)) : s.readAccess r a 4 = ((s.toPage r pg).latching r a).fromPage r pg := by
  subst hpg
  rw [State.readAccess_of_reaches hr.reach hr.aligned, State.returnReg_low hr.low hp hq]

theorem State.ReadsPair.readAccess_high (hr : s.ReadsPair r a) (hpg : a / 4096 * 4096 = pg) :
    (s.readAccess r (a + 4) 4).answer = .value (Table.get 0 s.latches (heldKey r pg)) := by
  have hpage : (a + 4) / 4096 * 4096 = pg := (page_add_four (offset_lt_of_lowWord hr.low)).trans hpg
  have haligned : (a + 4) % 4 = 0 := by rw [Nat.add_mod_right, hr.aligned]
  rw [State.readAccess_of_reaches hr.reachHigh haligned, State.returnReg_high hr.low hr.high, State.fromPage_answer,
    State.answerValue_answer, State.toPage_latches, hpage]

theorem State.setIrq_latches (p bits : Nat) : (s.setIrq p bits).latches = s.latches := by
  obtain ⟨g, i, heq⟩ := s.setIrq_eq p bits
  rw [heq]

theorem State.append_latches (kind : Nat) (vals : List Nat) : (s.append kind vals).latches = s.latches := by
  obtain ⟨j, g, i, heq⟩ := s.append_eq kind vals
  rw [heq]

theorem State.powerS0_latches : s.powerS0.latches = s.latches := by
  unfold State.powerS0
  extract_lets t
  split <;> rfl

/-- A cold start leaves no latch set. -/
theorem State.coldStart_latches (torn : Bool) : (s.coldStart torn).latches = [] := by
  simp only [State.coldStart, apply_ite (fun t : State => t.latches), State.powerS0_latches, State.append_latches,
    State.setIrq_latches, ite_self]
  rfl

/-! ### Held low words -/

/-- A requester reaches both halves of a 64-bit register that is written in halves. -/
structure State.TakesPair (s : State) (r : Requester) (a : Nat) : Prop where
  aligned : a % 4 = 0
  reach : s.reachesReg r a = true
  reachHigh : s.reachesReg r (a + 4) = true
  low : holdsLow a = true
  high : holdsLow (a + 4) = false
  offset : 0x040 ≤ a % 4096
  chan : channelAt (a / 4096 * 4096) (a % 4096) = none
  chanHigh : channelAt (a / 4096 * 4096) (a % 4096 + 4) = none

theorem State.TakesPair.of_reachesReg {u : State} (hp : s.TakesPair r a) (hr : ∀ b, u.reachesReg r b = s.reachesReg r b) :
    u.TakesPair r a := { hp with reach := (hr a).trans hp.reach, reachHigh := (hr (a + 4)).trans hp.reachHigh }

/-- A write of a low word holds it for the requester, and is answered as written. -/
def State.holding (s : State) (r : Requester) (a : Nat) (v : Word) : State :=
  s.aside s.latches (Table.put none s.heldLow (heldKey r a) (some v)) .written

@[simp] theorem State.holding_heldLow (v : Word) :
    (s.holding r a v).heldLow = Table.put none s.heldLow (heldKey r a) (some v) := rfl

theorem State.get_heldLow_holding (hs : Table.Sorted s.heldLow) (v : Word) (k : Nat) :
    Table.get none (s.holding r a v).heldLow k = if k = heldKey r a then some v else Table.get none s.heldLow k := by
  rw [State.holding_heldLow, Table.get_put none hs]

theorem State.holding_sorted (hs : Table.Sorted s.heldLow) (v : Word) : Table.Sorted (s.holding r a v).heldLow := by
  rw [State.holding_heldLow]
  exact Table.sorted_put hs ..

/-- A write of a high word takes the low word held for the requester, or else the current one, and leaves none held. -/
def State.takingPair (s : State) (r : Requester) (a : Nat) (w : Word) : State :=
  (s.writePair a ((Table.get none s.heldLow (heldKey r a)).getD (s.reg a)) w).aside s.latches
    (Table.put none s.heldLow (heldKey r a) none) .written

theorem State.takingPair_regs (w : Word) : (s.takingPair r a w).regs =
    (s.writePair a ((Table.get none s.heldLow (heldKey r a)).getD (s.reg a)) w).regs := rfl

@[simp] theorem State.takingPair_heldLow (w : Word) :
    (s.takingPair r a w).heldLow = Table.put none s.heldLow (heldKey r a) none := rfl

theorem State.get_heldLow_takingPair (hs : Table.Sorted s.heldLow) (w : Word) :
    Table.get none (s.takingPair r a w).heldLow (heldKey r a) = none := by
  rw [State.takingPair_heldLow, Table.get_put_self none hs]

theorem State.TakesPair.writeAccess_low (hp : s.TakesPair r a) (hpg : a / 4096 * 4096 = pg) (v : Word) :
    s.writeAccess r a 4 (v.setWidth 64) = (s.access r pg).holding r a v := by
  subst hpg
  have hheader : ¬ a % 4096 < 0x040 := Nat.not_lt_of_le hp.offset
  rw [State.writeAccess_of_reaches hp.reach hp.aligned hp.chan]
  simp only [State.applyWrite, if_neg hheader, hp.low, if_true]
  rfl

theorem State.TakesPair.writeAccess_high (hp : s.TakesPair r a) (hpg : a / 4096 * 4096 = pg) (w : Word) :
    s.writeAccess r (a + 4) 4 (w.setWidth 64) = (s.access r pg).takingPair r a w := by
  subst hpg
  have hlt := offset_lt_of_holdsLow hp.low
  have hpage := page_add_four hlt
  have hoff : (a + 4) % 4096 = a % 4096 + 4 := by omega
  have haligned : (a + 4) % 4 = 0 := by rw [Nat.add_mod_right, hp.aligned]
  have hheader : ¬ a % 4096 + 4 < 0x040 := Nat.not_lt_of_le (Nat.le_add_right_of_le hp.offset)
  rw [State.writeAccess_of_reaches hp.reachHigh haligned (by rw [hpage, hoff]; exact hp.chanHigh), hpage]
  simp only [State.applyWrite, hoff, if_neg hheader, hp.high, Bool.false_eq_true, if_false, Nat.add_sub_cancel, hp.low, if_true,
    State.writeHigh, State.writePair_heldLow, State.takingPair, State.aside, State.answerWritten, State.writePair_latches]

/-- A register of the provenance page takes both words as they are. -/
theorem State.reg_writePair_of_provenance (hs : Table.Sorted s.regs) (hc : classOfPage a = 0x16) (v w : Word) :
    (s.writePair a v w).reg a = v ∧ (s.writePair a v w).reg (a + 4) = w := by
  have hput : s.writePair a v w = (s.setReg a v).setReg (a + 4) w := by simp only [State.writePair, hc]
  rw [hput, State.reg_setReg (State.setReg_sorted hs), State.reg_setReg (State.setReg_sorted hs), State.reg_setReg hs]
  simp

end Sys2Proof.Machine

namespace Sys2Proof

open Machine

/-- A read of a low word latches the high word for its requester, and the read of the high word answers the latch (R9, R502). -/
theorem lowWordRead_latches {s x : State} {r : Requester} {addr : BitVec 28} {a pg : Nat} (hwf : s.Wf) (haddr : addr.toNat = a)
    (hpg : a / 4096 * 4096 = pg) (hx : s.toPage r pg = x) (hr : s.ReadsPair r a) (hp : x.Plain a) (hq : x.Plain (a + 4)) :
    ∃ u, exec (.lowWordRead r ⟨addr, 4⟩) s = .next u ∧ Table.get 0 u.latches (heldKey r pg) = x.peekReg (a + 4) ∧
      (∀ k, k ≠ heldKey r pg → Table.get 0 u.latches k = Table.get 0 s.latches k) ∧
      ∃ t, exec (.readClear r ⟨addr + 4, 4⟩) u = .next t ∧ t.answer = .value (x.peekReg (a + 4)) := by
  have hlow := hr.readAccess_low hpg (hx ▸ hp) (hx ▸ hq)
  rw [hx] at hlow
  have hto : s.Crossed x := hx ▸ State.toPage_crossed hwf.seams
  have hlatches : x.latches = s.latches := hx ▸ State.toPage_latches
  have hget (k : Nat) : Table.get 0 ((x.latching r a).fromPage r pg).latches k =
      if k = heldKey r pg then x.peekReg (a + 4) else Table.get 0 s.latches k := by
    rw [State.fromPage_latches, State.get_latches_latching (hlatches ▸ hwf.latches), hlatches, hpg]
  have hback := State.fromPage_crossed (r := r) (pg := pg) (State.latching_seams_sorted (r := r) (a := a) hto.sorted)
  have hstill : ((x.latching r a).fromPage r pg).ReadsPair r a :=
    hr.of_reachesReg fun b => hback.reachesReg.trans (State.latching_reachesReg.trans hto.reachesReg)
  have hhigh := hstill.readAccess_high hpg
  rw [hget, if_pos rfl] at hhigh
  refine ⟨_, (exec_lowWordRead haddr).trans (congrArg _ hlow), ?_, fun k hk => ?_,
    _, exec_readClear (haddr ▸ toNat_add_four (haddr ▸ offset_lt_of_lowWord hr.low)), hhigh⟩
  · rw [hget, if_pos rfl]
  · rw [hget, if_neg hk]

/-- A held low word takes effect with the same requester's write of the high word, and is then held no more (R502). -/
theorem registerWrite_pair {s y : State} {r : Requester} {addr : BitVec 28} {a pg : Nat} (hwf : s.Wf) (haddr : addr.toNat = a)
    (hpg : a / 4096 * 4096 = pg) (hy : s.access r pg = y) (hp : s.TakesPair r a) (v w : Word) :
    ∃ u t, exec (.registerWrite r addr 4 (v.setWidth 64)) s = .next u ∧ { u with heldLow := y.heldLow, answer := y.answer } = y ∧
      (∀ k, k ≠ heldKey r a → Table.get none u.heldLow k = Table.get none s.heldLow k) ∧
      exec (.registerWrite r (addr + 4) 4 (w.setWidth 64)) u = .next t ∧ t.regs = ((y.access r pg).writePair a v w).regs ∧
      Table.get none t.heldLow (heldKey r a) = none := by
  have hlow := hp.writeAccess_low hpg v
  rw [hy] at hlow
  have hsame : y.heldLow = s.heldLow := hy ▸ State.access_heldLow
  have hsorted : Table.Sorted y.heldLow := hsame ▸ hwf.heldLow
  have hstill : (y.holding r a v).TakesPair r a :=
    hp.of_reachesReg fun b => State.aside_reachesReg.trans (hy ▸ State.access_crossed hwf.seams : s.Crossed y).reachesReg
  have hhigh := hstill.writeAccess_high hpg w
  have hcross : (y.holding r a v).access r pg = (y.access r pg).aside y.latches (y.holding r a v).heldLow .written := State.access_aside
  refine ⟨_, _, (exec_registerWrite haddr _).trans (congrArg _ hlow), rfl, fun k hk => ?_,
    (exec_registerWrite (haddr ▸ toNat_add_four (haddr ▸ offset_lt_of_holdsLow hp.low)) _).trans (congrArg _ hhigh), ?_, ?_⟩
  · rw [State.get_heldLow_holding hsorted, if_neg hk, hsame]
  · rw [State.takingPair_regs, hcross, State.aside_heldLow, State.get_heldLow_holding hsorted, if_pos rfl, Option.getD_some,
      State.writePair_aside, State.aside_regs]
  · exact State.get_heldLow_takingPair (hcross ▸ State.holding_sorted hsorted v) w

/-- Settles O55: what an access holds for its requester is looked at neither by the crossing of the seams nor by the write of a pair, so
the second access of a pair finds what the first one held. -/
theorem latchesKeepHalvesTogether : Obligations.LatchesKeepHalvesTogether := by
  unfold Obligations.LatchesKeepHalvesTogether
  intro s r addr v w hwf _ a pg key held x y plain ha hreach hreachHigh
  refine ⟨fun hl hh hp hq => lowWordRead_latches hwf rfl rfl rfl ⟨ha, hreach, hreachHigh, hl, hh⟩ hp hq,
    fun rise hvaux => ⟨_, rfl, fun k => ?_⟩, fun hl hh hoff hchan hchanHigh => ?_⟩
  · rw [hvaux, if_pos (by rfl), State.modBoard_latches, State.coldStart_latches]
    rfl
  · have hp : s.TakesPair r a := ⟨ha, hreach, hreachHigh, hl, hh, hoff, hchan, hchanHigh⟩
    refine ⟨registerWrite_pair hwf rfl rfl rfl hp v w,
      fun hnone => ⟨_, exec_registerWrite (toNat_add_four (offset_lt_of_holdsLow hl)) _, ?_⟩,
      fun hclass => State.reg_writePair_of_provenance hwf.regs (by unfold classOfPage; omega) v w⟩
    rw [hp.writeAccess_high rfl, State.takingPair_regs, State.access_heldLow, hnone]
    rfl

end Sys2Proof
